-- ==== Sys2Proof/Word.lean ====
section
/-! DEFINITION. The word types of the machine: bytes, 32-bit words, 64-bit lane values and 64-bit
thread masks (00_scope.md R6, R10; 01_execution_model.md R11). -/

namespace Sys2Proof

/-- One byte (R7). -/
abbrev Byte := BitVec 8
/-- A TVF word (R10). -/
abbrev Word := BitVec 32
/-- The bits one thread holds of a value: values narrower than 64 bits are zero above their width. -/
abbrev Lane := BitVec 64
/-- A thread mask: bit i belongs to thread i (R11). -/
abbrev Mask := BitVec 64

/-- Bits `[h:l]` of a natural number (R5). -/
def bitsOf (x h l : Nat) : Nat := (x >>> l) % 2 ^ (h + 1 - l)

/-- Bit `i` of a natural number. -/
def bitOf (x i : Nat) : Bool := x.testBit i

end Sys2Proof
end

