-- ==== Sys2Proof/Syntax.lean ====
section
/-! DEFINITION. The syntax of everything the machine does in one step: the 168 instructions of the
Value Form (05_tvf_language_encoding.md R134), the slot operations of the Bundle Form
(15_tbf_operations.md) and the events of the device, its front end and its surroundings
(95_what_each_step_holds.md). One constructor per row of spec/opcode_table.json. -/
namespace Sys2Proof

/-! ## Value Form: types and operands -/

/-- The type codes of R116. -/
inductive Ty where
  | void | i1 | i8 | i16 | i32 | i64 | f16 | bf16 | f32 | f64 | e4m3 | e5m2 | near | far | tok
  | batch | tile
  deriving DecidableEq, Repr

/-- The element codes of a tile descriptor word (R117). -/
inductive Elem where
  | i8 | i16 | i32 | e4m3 | e5m2 | f16 | bf16 | f32
  deriving DecidableEq, Repr

/-- A tile descriptor (R117): rows and columns are held minus one, as the word holds them. -/
structure TileDesc where
  elem : Elem
  colsM1 : BitVec 7
  rowsM1 : BitVec 7
  deriving DecidableEq, Repr

/-- A value or immediate operand (R128). -/
inductive Opd where
  /-- KIND 0b00: a value number. -/
  | val (n : BitVec 24)
  /-- KIND 0b01: a signed 30-bit immediate. -/
  | imm (v : BitVec 30)
  /-- KIND 0b10 with COUNT 1. -/
  | long1 (lo : Word)
  /-- KIND 0b10 with COUNT 2, low word first. -/
  | long2 (lo hi : Word)
  deriving DecidableEq, Repr

/-- A block target: a block symbol and the arguments after it (R132). -/
structure Target where
  blk : BitVec 24
  args : List Opd
  deriving DecidableEq, Repr

/-- The rounding codes of R93. -/
inductive Rnd where
  | rn | rz | up | dn | sr | fmt
  deriving DecidableEq, Repr

/-- The order codes of R65. -/
inductive Order where
  | relaxed | acquire | release | acqRel | seqCst
  deriving DecidableEq, Repr

/-- One, two, three or four operands of one TYPE (R138 to R162). -/
structure Op1 where
  ty : Ty
  uni : Bool
  a : Opd
  deriving DecidableEq, Repr

structure Op2 where
  ty : Ty
  uni : Bool
  a : Opd
  b : Opd
  deriving DecidableEq, Repr

structure Op3 where
  ty : Ty
  uni : Bool
  a : Opd
  b : Opd
  c : Opd
  deriving DecidableEq, Repr

structure Op4 where
  ty : Ty
  uni : Bool
  a : Opd
  b : Opd
  c : Opd
  d : Opd
  deriving DecidableEq, Repr

/-- The same with a rounding code (R93, R148). -/
structure Fp1 where
  ty : Ty
  uni : Bool
  rnd : Rnd
  a : Opd
  deriving DecidableEq, Repr

structure Fp2 where
  ty : Ty
  uni : Bool
  rnd : Rnd
  a : Opd
  b : Opd
  deriving DecidableEq, Repr

structure Fp3 where
  ty : Ty
  uni : Bool
  rnd : Rnd
  a : Opd
  b : Opd
  c : Opd
  deriving DecidableEq, Repr

/-- `cvt` (R153). -/
structure CvtOp where
  ty : Ty
  uni : Bool
  rnd : Rnd
  src : Ty
  ds : Bool
  ss : Bool
  a : Opd
  deriving DecidableEq, Repr

/-- `cvt.scaled` (R156). -/
structure CvtScaledOp where
  ty : Ty
  uni : Bool
  rnd : Rnd
  src : Ty
  x : Opd
  s : Opd
  deriving DecidableEq, Repr

/-- `pack` (R158): 2 or 4 elements. -/
structure PackOp where
  ty : Ty
  uni : Bool
  xs : List Opd
  deriving DecidableEq, Repr

/-- The condition codes of a compare (R127). -/
inductive Cond where
  | eq | ne | lt | le | gt | ge | ord | uno
  deriving DecidableEq, Repr

/-- `cmp` (R160). -/
structure CmpOp where
  ty : Ty
  uni : Bool
  cond : Cond
  signed : Bool
  a : Opd
  b : Opd
  deriving DecidableEq, Repr

/-! ## Value Form: memory, synchronisation -/

/-- A near load (R168, R169). -/
structure LoadOp where
  ty : Ty
  uni : Bool
  order : Order
  scope : BitVec 3
  pair : Bool
  p : Opd
  deriving DecidableEq, Repr

/-- A near store; a second datum makes it a pair (R168, R169). -/
structure StoreOp where
  ty : Ty
  uni : Bool
  order : Order
  scope : BitVec 3
  p : Opd
  v : Opd
  v2 : Option Opd
  deriving DecidableEq, Repr

/-- `ld.const` (R171). -/
structure LdConstOp where
  ty : Ty
  uni : Bool
  c : BitVec 24
  i : Opd
  deriving DecidableEq, Repr

/-- An atomic with one datum, or a full/empty access with or without one (R172, R175). -/
structure MemOp1 where
  ty : Ty
  uni : Bool
  order : Order
  scope : BitVec 3
  nres : BitVec 2
  p : Opd
  deriving DecidableEq, Repr

structure MemOp2 where
  ty : Ty
  uni : Bool
  order : Order
  scope : BitVec 3
  nres : BitVec 2
  p : Opd
  v : Opd
  deriving DecidableEq, Repr

/-- `atom.cas` (R172). -/
structure CasOp where
  ty : Ty
  uni : Bool
  order : Order
  scope : BitVec 3
  nres : BitVec 2
  p : Opd
  e : Opd
  n : Opd
  deriving DecidableEq, Repr

/-- `fence` (R179). -/
structure FenceOp where
  order : Order
  scope : BitVec 3
  deriving DecidableEq, Repr

/-- The compare of a queue-signal condition (R183). -/
inductive SigCmp where
  | eq | ne | lt | ge
  deriving DecidableEq, Repr

/-- A wait condition with its operands (R183). -/
inductive CondOp where
  | token (t : Opd)
  | fullWord (p : Opd)
  | emptyWord (p : Opd)
  | barrier (b : BitVec 30) (phase : Opd)
  | matrix (m : Opd)
  | sig (a : Opd) (cmp : SigCmp) (v : Opd)
  deriving DecidableEq, Repr

/-- `wait.any` and `wait.all` (R183). -/
structure WaitOp where
  nres : BitVec 2
  timeout : Opd
  conds : List CondOp
  deriving DecidableEq, Repr

/-- `yield` (R186). -/
structure YieldOp where
  all : Bool
  timeout : Opd
  conds : List CondOp
  cont : Target
  deriving DecidableEq, Repr

/-! ## Value Form: engine commands -/

/-- The acquire and release flags of an engine command, each with its scope (R188). -/
structure EngFlags where
  acq : Option (BitVec 3)
  rel : Option (BitVec 3)
  deriving DecidableEq, Repr

/-- An address pattern: base, the byte count of level 0 and the count and stride of every further
level, 0 to 5 of them (R190). -/
structure Pattern where
  base : Opd
  c0 : Opd
  lv : List (Opd × Opd)
  deriving DecidableEq, Repr

/-- A copy command (R191). -/
structure CopyOp where
  nres : BitVec 2
  fl : EngFlags
  src : Pattern
  dst : Pattern
  deriving DecidableEq, Repr

/-- `reduce.far` (R191, R195). -/
structure ReduceOp where
  nres : BitVec 2
  fl : EngFlags
  combine : BitVec 4
  elem : BitVec 2
  src : Pattern
  dst : Pattern
  deriving DecidableEq, Repr

/-- `gather` and `scatter` (R194); a gather holds combine and elem at zero. -/
structure GatherOp where
  nres : BitVec 2
  fl : EngFlags
  esz : BitVec 3
  idx64 : Bool
  combine : BitVec 4
  elem : BitVec 2
  tbl : Opd
  idx : Opd
  n : Opd
  buf : Opd
  deriving DecidableEq, Repr

/-- `csr.rows` and `bsr.blocks` (R196); `csr.rows` holds brc and bcc at zero. -/
structure RowsOp where
  nres : BitVec 2
  fl : EngFlags
  esz8 : Bool
  rp64 : Bool
  gath : Bool
  cols : Bool
  brc : BitVec 3
  bcc : BitVec 3
  rp : Opd
  ci : Opd
  va : Opd
  xv : Opd
  first : Opd
  n : Opd
  dst : Opd
  cap : Opd
  deriving DecidableEq, Repr

/-- `isect` (R197). -/
structure IsectOp where
  nres : BitVec 2
  fl : EngFlags
  key64 : Bool
  signed : Bool
  a : Opd
  na : Opd
  b : Opd
  nb : Opd
  out : Opd
  cap : Opd
  deriving DecidableEq, Repr

/-! ## Value Form: group operations, control, helpers, tiles -/

/-- The source rules of `xlane` (R212). -/
inductive XMode where
  | get | mix | rise | fall
  deriving DecidableEq, Repr

structure XlaneOp where
  ty : Ty
  nres : BitVec 2
  mode : XMode
  x : Opd
  n : Opd
  deriving DecidableEq, Repr

/-- `grp.add`: the rounding code is rn for the integer types, whose MOD is zero (R211). -/
structure GrpAddOp where
  ty : Ty
  rnd : Rnd
  x : Opd
  deriving DecidableEq, Repr

/-- `grp.min` and `grp.max` (R211). -/
structure GrpMinMaxOp where
  ty : Ty
  signed : Bool
  x : Opd
  deriving DecidableEq, Repr

structure ConflictOp where
  ty : Ty
  nres : BitVec 2
  k : Opd
  deriving DecidableEq, Repr

/-- `brc` and `br.u` (R202). -/
structure BrcOp where
  c : Opd
  t : Target
  f : Target
  deriving DecidableEq, Repr

/-- `switch` (R202): each case is a 30-bit immediate and its target. -/
structure SwitchOp where
  v : Opd
  dflt : Target
  cases : List (BitVec 30 × Target)
  deriving DecidableEq, Repr

/-- `call` (R206). -/
structure CallOp where
  ty : Ty
  nres : BitVec 2
  fn : BitVec 24
  args : List Opd
  deriving DecidableEq, Repr

/-- `spawn` (R208). -/
structure SpawnOp where
  nres : BitVec 2
  fn : BitVec 24
  args : List Opd
  deriving DecidableEq, Repr

/-- `taskpost` (R209). -/
structure TaskpostOp where
  uni : Bool
  nres : BitVec 2
  fn : BitVec 24
  p : Opd
  args : List Opd
  deriving DecidableEq, Repr

/-- The HERD forms (R216). `rnd` is rn except in a floating `herd.add`; `signed` is false except in
integer `herd.min` and `herd.max`. -/
structure HerdOp where
  ty : Ty
  nres : BitVec 2
  rnd : Rnd
  signed : Bool
  h : BitVec 24
  lo : Opd
  hi : Opd
  chunk : Opd
  caps : List Opd
  deriving DecidableEq, Repr

structure TileFillOp where
  d : TileDesc
  v : Opd
  deriving DecidableEq, Repr

structure TileLoadOp where
  d : TileDesc
  tr : Bool
  p : Opd
  ld : Opd
  deriving DecidableEq, Repr

structure TileStoreOp where
  d : TileDesc
  tr : Bool
  p : Opd
  ld : Opd
  x : Opd
  deriving DecidableEq, Repr

structure TileCvtOp where
  d : TileDesc
  rnd : Rnd
  ss : Bool
  ds : Bool
  x : Opd
  deriving DecidableEq, Repr

structure TileExtractOp where
  ty : Ty
  x : Opd
  r : Opd
  c : Opd
  deriving DecidableEq, Repr

structure TileInsertOp where
  d : TileDesc
  x : Opd
  v : Opd
  r : Opd
  c : Opd
  deriving DecidableEq, Repr

/-- `mma.f8s` (R239). -/
structure MmaF8sOp where
  d : TileDesc
  sfmt : BitVec 2
  a : Opd
  b : Opd
  c : Opd
  sa : Opd
  sb : Opd
  deriving DecidableEq, Repr

/-- `mma.bf16` and `mma.f16` (R239). -/
structure MmaOp where
  d : TileDesc
  a : Opd
  b : Opd
  c : Opd
  deriving DecidableEq, Repr

/-- `mma.i8` (R239). -/
structure MmaI8Op where
  d : TileDesc
  sa : Bool
  sb : Bool
  a : Opd
  b : Opd
  c : Opd
  deriving DecidableEq, Repr

/-- `mma.sp` (R239): `s2` is SFMT for f8s, SA and SB for i8, zero otherwise; the scales stand for
f8s alone. -/
structure MmaSpOp where
  d : TileDesc
  form : BitVec 2
  keep : BitVec 2
  s2 : BitVec 2
  a : Opd
  b : Opd
  m : Opd
  c : Opd
  scales : Option (Opd × Opd)
  deriving DecidableEq, Repr

/-- `setfmt` (R226). -/
structure SetfmtOp where
  mask : BitVec 4
  v : Opd
  deriving DecidableEq, Repr

/-- `id` (R228): the index is MOD. -/
structure IdOp where
  ty : Ty
  uni : Bool
  idx : BitVec 8
  deriving DecidableEq, Repr

/-! ## Bundle Form slot fields -/

/-- A VA slot field (R310), with the slot it stands in and the broadcast register of a BP that
targets it (R297). -/
structure Va where
  va1 : Bool
  bc : Option (BitVec 6)
  ty : BitVec 3
  cl : BitVec 2
  d : BitVec 7
  a : BitVec 8
  b : BitVec 8
  x : BitVec 7
  deriving DecidableEq, Repr

/-- A US slot field (R314): D, A, B and X. -/
structure Us where
  d : BitVec 6
  a : BitVec 6
  b : BitVec 6
  x : BitVec 14
  deriving DecidableEq, Repr

/-- A US memory operation (R314). -/
structure Umem where
  d : BitVec 6
  a : BitVec 6
  b : BitVec 6
  size : BitVec 3
  order : Order
  scope : BitVec 3
  loc : Bool
  fn : BitVec 4
  deriving DecidableEq, Repr

/-- VLD, VST (R317). -/
structure Vmem where
  bc : Option (BitVec 6)
  cl : BitVec 2
  dv : BitVec 7
  ad : BitVec 8
  size : BitVec 3
  order : Order
  scope : BitVec 3
  loc : Bool
  deriving DecidableEq, Repr

/-- VLDK (R317). -/
structure Vldk where
  bc : Option (BitVec 6)
  cl : BitVec 2
  dv : BitVec 7
  ad : BitVec 8
  size : BitVec 3
  k : BitVec 12
  deriving DecidableEq, Repr

/-- VATOM (R318); `fn` is OP − 0x10. -/
structure Vatom where
  fn : BitVec 4
  cl : BitVec 2
  d : BitVec 7
  ap : BitVec 7
  v : BitVec 7
  w64 : Bool
  order : Order
  scope : BitVec 3
  nores : Bool
  deriving DecidableEq, Repr

/-- VFE (R319); `fn` is OP − 0x20. -/
structure Vfe where
  bc : Option (BitVec 6)
  fn : BitVec 3
  cl : BitVec 2
  d : BitVec 7
  ad : BitVec 8
  kv : Bool
  k : BitVec 3
  order : Order
  scope : BitVec 3
  deriving DecidableEq, Repr

/-- VSPILL and VFILL (R320). -/
structure Vspill where
  cl : BitVec 2
  d : BitVec 7
  slot : BitVec 13
  w64 : Bool
  deriving DecidableEq, Repr

structure XmvF where
  cl : BitVec 2
  d : BitVec 7
  scl : BitVec 2
  src : BitVec 7
  w64 : Bool
  deriving DecidableEq, Repr

structure VtosF where
  cl : BitVec 2
  src : BitVec 7
  s : BitVec 6
  w64 : Bool
  deriving DecidableEq, Repr

structure VxlaneF where
  bc : Option (BitVec 6)
  cl : BitVec 2
  d : BitVec 7
  x : BitVec 7
  n : BitVec 8
  kv : Bool
  k : BitVec 3
  mode : XMode
  w64 : Bool
  deriving DecidableEq, Repr

structure VlanesF where
  cl : BitVec 2
  d : BitVec 7
  k : BitVec 3
  fn : BitVec 2
  deriving DecidableEq, Repr

structure VgrpF where
  cl : BitVec 2
  d : BitVec 7
  x : BitVec 7
  fn : BitVec 2
  ty : BitVec 3
  signed : Bool
  rnd : BitVec 3
  deriving DecidableEq, Repr

structure VconfF where
  cl : BitVec 2
  d : BitVec 7
  key : BitVec 7
  kv : Bool
  k : BitVec 3
  wc : BitVec 2
  deriving DecidableEq, Repr

/-- TLD and TST (R323). -/
structure TmemF where
  tn : BitVec 4
  a : BitVec 6
  pitch : BitVec 6
  tr : Bool
  deriving DecidableEq, Repr

/-- TEXT and TINS (R323): `d` is the data register, read by TINS. -/
structure TelemF where
  tn : BitVec 4
  cl : BitVec 2
  d : BitVec 7
  r : BitVec 7
  c : BitVec 7
  deriving DecidableEq, Repr

/-- A matrix operation of the VM slot (R325). -/
structure TmmaF where
  ta : BitVec 4
  tb : BitVec 4
  tm : BitVec 4
  tc : BitVec 4
  td : BitVec 4
  ts : BitVec 4
  sb : BitVec 6
  sfmt : BitVec 2
  deriving DecidableEq, Repr

/-- A CV conversion (R316). -/
structure CvF where
  cl : BitVec 2
  d : BitVec 7
  a : BitVec 7
  deriving DecidableEq, Repr

/-- An EN field (R327). -/
structure EnF where
  base : BitVec 6
  cn : BitVec 4
  mod : BitVec 8
  deriving DecidableEq, Repr

/-! ## Events: what an event brings with it -/

/-- An observer of memory (03_memory_ordering.md, Visibility and coherence): a core with its groups
and its retriever, the front end, the host, or another package. -/
inductive Obs where
  | core (die idx : Nat)
  | frontEnd
  | host
  | package (p : Nat)
  deriving DecidableEq, Repr

/-- What happens to the circuits at an issue: nothing; one or two disagreeing computations under
checked issue (R412); a corrected (R406) or uncorrectable (R408) error of a register. -/
inductive Upset where
  | clean | mismatchOnce | mismatchTwice | corrected | uncorrectable
  deriving DecidableEq, Repr

/-- A queue: its PCIe function (0 physical, 1 to 16 virtual) and its QUEUE_ID (R355). -/
structure QRef where
  fn : Nat
  qid : Nat
  deriving DecidableEq, Repr

/-- Trailer and completion area of a packet (R359, R360) with the queue and the packet number it was
read from. -/
structure PktHdr where
  q : QRef
  n : Nat
  cls : BitVec 4
  acq : BitVec 2
  rel : BitVec 2
  sigOp : BitVec 2
  sigVal : BitVec 64
  sigAddr : BitVec 64
  statAddr : BitVec 64
  deriving DecidableEq, Repr

/-- The body of LAUNCH and LAUNCH_CHAINED (R363). -/
structure LaunchBody where
  producer : BitVec 32
  resultBytes : BitVec 64
  resultAddr : BitVec 64
  placeCount : BitVec 32
  placeAddr : BitVec 64
  seed : BitVec 64
  teams : BitVec 32
  hashResult : Bool
  helpersOff : Bool
  checked : Bool
  kernel : BitVec 16
  argBytes : BitVec 32
  args : BitVec 64
  code : BitVec 64
  deriving DecidableEq, Repr

/-- A request of a remote agent at this package's memory (R432), or of the host at a memory it
reaches: a read, a write of bytes, or a relaxed combine of one element. -/
inductive RemoteReq where
  | read (key len : Nat)
  | write (key : Nat) (bytes : List Byte)
  | combine (key : Nat) (code : BitVec 4) (elem : BitVec 2) (v : BitVec 64)
  deriving DecidableEq, Repr

/-- A firmware image as PLDM stages it and the root of trust checks it (R404, R429): its version,
translator version, save layout version, its digest bytes and its two signatures. -/
structure FwImage where
  version : BitVec 32
  xlat : BitVec 32
  layout : Nat
  body : List Byte
  sigEd : List Byte
  sigMl : List Byte
  deriving DecidableEq, Repr

/-- One constructor per row of spec/opcode_table.json: the packets, then the table's order. -/
inductive Instr where
  /-- NOP (R361): NOP packet; completes at once. -/
  | nop (h : PktHdr)
  /-- LAUNCH (R371): Starts a launch: sequence number, checks, context load, code hashing, chain records, placement check and translation requests. -/
  | launch (h : PktHdr) (b : LaunchBody)
  /-- LAUNCH_CHAINED (R373): Starts a launch whose teams wait for its producer's threads to trigger. -/
  | launchChained (h : PktHdr) (b : LaunchBody)
  /-- COPY (R362): COPY packet performed by core 0 of the chosen die's retriever. -/
  | copy (h : PktHdr) (src dst count : BitVec 64)
  /-- BARRIER_AND (R361): Packet that completes once every named signal word reads zero. -/
  | barrierAnd (h : PktHdr) (addrs : List (BitVec 64))
  /-- SIGNAL (R361): Packet that completes at once, performing its completion area. -/
  | signal (h : PktHdr)
  /-- WAIT_SIGNAL (R361): Packet that completes when a signal compare holds. -/
  | waitSignal (h : PktHdr) (a v : BitVec 64) (cmp : SigCmp) (timeout : BitVec 32)
  /-- MEASURE (R390): Extends the isobar chain with a USER record. -/
  | measure (h : PktHdr) (value : List Byte) (tag : BitVec 16)
  /-- RECEIPT (R393): Signs the chain value and writes a 3,504-byte receipt. -/
  | receipt (h : PktHdr) (nonce : List Byte) (out : BitVec 64) (outBytes : BitVec 32)
  /-- TIMESTAMP (R361): Writes the reference tick count at the packet's start and completion. -/
  | timestamp (h : PktHdr) (a : BitVec 64)
  /-- HALT_CONTEXT (R345): QUEUE_CTRL operation that halts every group of the context. -/
  | haltContext (h : PktHdr)
  /-- RESUME_CONTEXT (R361): QUEUE_CTRL operation that resumes groups stopped by a halt request. -/
  | resumeContext (h : PktHdr)
  /-- DISABLE_QUEUE (R361): QUEUE_CTRL operation that completes and then has the queue unmapped and disabled. -/
  | disableQueue (h : PktHdr)
  /-- SET_PRIORITY (R361): QUEUE_CTRL operation that writes the queue's priority. -/
  | setPriority (h : PktHdr) (prio : BitVec 8)
  /-- ADD (R141): Adds two integers, wrapping modulo 2^w. -/
  | add (o : Op2)
  /-- SUB (R141): Subtracts two integers, wrapping modulo 2^w. -/
  | sub (o : Op2)
  /-- MUL (R141): Gives the low w bits of the product of two integers. -/
  | mul (o : Op2)
  /-- MUL_HI_S (R141): Gives the high w bits of the signed product. -/
  | mulHiS (o : Op2)
  /-- MUL_HI_U (R141): Gives the high w bits of the unsigned product. -/
  | mulHiU (o : Op2)
  /-- MAD (R141): Computes a × b + c, wrapping modulo 2^w. -/
  | mad (o : Op3)
  /-- DIV_S (R142): Signed division truncating towards zero, with fixed results for division by zero and signed overflow. -/
  | divS (o : Op2)
  /-- DIV_U (R142): Unsigned division, giving all ones for division by zero. -/
  | divU (o : Op2)
  /-- REM_S (R142): Signed remainder, taking the sign of the dividend. -/
  | remS (o : Op2)
  /-- REM_U (R142): Unsigned remainder, giving the dividend for division by zero. -/
  | remU (o : Op2)
  /-- ADD_SAT_S (R141): Signed saturating addition. -/
  | addSatS (o : Op2)
  /-- ADD_SAT_U (R141): Unsigned saturating addition. -/
  | addSatU (o : Op2)
  /-- SUB_SAT_S (R141): Signed saturating subtraction. -/
  | subSatS (o : Op2)
  /-- SUB_SAT_U (R141): Unsigned saturating subtraction. -/
  | subSatU (o : Op2)
  /-- ADD_CC (R141): Adds two integers and gives the carry as an i1. -/
  | addCc (o : Op2)
  /-- ADDC (R141): Adds two integers and a carry-in, and gives the carry-out. -/
  | addc (o : Op3)
  /-- SUB_CC (R141): Subtracts two integers and gives the borrow as an i1. -/
  | subCc (o : Op2)
  /-- SUBC (R141): Subtracts with a borrow-in, and gives the borrow-out. -/
  | subc (o : Op3)
  /-- MIN_S (R141): Selects the signed minimum. -/
  | minS (o : Op2)
  /-- MIN_U (R141): Selects the unsigned minimum. -/
  | minU (o : Op2)
  /-- MAX_S (R141): Selects the signed maximum. -/
  | maxS (o : Op2)
  /-- MAX_U (R141): Selects the unsigned maximum. -/
  | maxU (o : Op2)
  /-- AND (R143): Bitwise and. -/
  | and (o : Op2)
  /-- OR (R143): Bitwise or. -/
  | or (o : Op2)
  /-- XOR (R143): Bitwise exclusive or. -/
  | xor (o : Op2)
  /-- NOT (R143): Bitwise complement. -/
  | not (o : Op1)
  /-- SHL (R143): Shifts left, giving zero for amounts of w or more. -/
  | shl (o : Op2)
  /-- SHR_U (R143): Logical right shift. -/
  | shrU (o : Op2)
  /-- SHR_S (R143): Arithmetic right shift, with the amount clamped to w − 1. -/
  | shrS (o : Op2)
  /-- ROTL (R143): Rotates left by the amount modulo w. -/
  | rotl (o : Op2)
  /-- ROTR (R143): Rotates right by the amount modulo w. -/
  | rotr (o : Op2)
  /-- CLZ (R143): Counts the leading zero bits. -/
  | clz (o : Op1)
  /-- CTZ (R143): Counts the trailing zero bits. -/
  | ctz (o : Op1)
  /-- POPC (R143): Counts the one bits. -/
  | popc (o : Op1)
  /-- BREV (R143): Reverses the bit order. -/
  | brev (o : Op1)
  /-- BFE_U (R144): Extracts an unsigned bit field. -/
  | bfeU (o : Op3)
  /-- BFE_S (R144): Extracts a sign-extended bit field. -/
  | bfeS (o : Op3)
  /-- BFI (R144): Inserts a bit field of b into a. -/
  | bfi (o : Op4)
  /-- SEXT (R145): Sign-extends a narrower integer or i1. -/
  | sext (o : Op1)
  /-- ZEXT (R145): Zero-extends a narrower integer or i1. -/
  | zext (o : Op1)
  /-- TRUNC (R145): Keeps the low bits of a wider integer. -/
  | trunc (o : Op1)
  /-- NEG (R141): Negates, wrapping. -/
  | neg (o : Op1)
  /-- ABS (R141): Takes the absolute value, with the signed minimum unchanged. -/
  | abs (o : Op1)
  /-- NADD (R146): Adds a signed byte offset to the OFFSET field of a near address, wrapping within 22 bits. -/
  | nadd (o : Op2)
  /-- NIDX (R146): Adds index × scale to the OFFSET field of a near address. -/
  | nidx (o : Op3)
  /-- NMAKE (R146): Builds a near address from a slice and an offset. -/
  | nmake (o : Op2)
  /-- NSPLIT (R146): Splits a near address into its slice and offset. -/
  | nsplit (o : Op1)
  /-- CONST (R147): Delivers an immediate as a uniform value. -/
  | const (o : Op1)
  /-- FADD (R149): Floating-point addition, rounded once. -/
  | fadd (o : Fp2)
  /-- FSUB (R149): Floating-point subtraction, rounded once. -/
  | fsub (o : Fp2)
  /-- FMUL (R149): Floating-point multiplication, rounded once. -/
  | fmul (o : Fp2)
  /-- FMA (R149): Fused multiply-add, rounded once. -/
  | fma (o : Fp3)
  /-- FDIV (R149): Floating-point division, correctly rounded. -/
  | fdiv (o : Fp2)
  /-- FSQRT (R149): Square root, correctly rounded. -/
  | fsqrt (o : Fp1)
  /-- FRCP (R149): Reciprocal, correctly rounded. -/
  | frcp (o : Fp1)
  /-- FRSQ (R149): Reciprocal square root, correctly rounded. -/
  | frsq (o : Fp1)
  /-- EXP2 (R149): Base-2 exponential, correctly rounded. -/
  | exp2 (o : Fp1)
  /-- LOG2 (R149): Base-2 logarithm, correctly rounded. -/
  | log2 (o : Fp1)
  /-- FMIN (R97): IEEE minimumNumber. -/
  | fmin (o : Op2)
  /-- FMAX (R97): IEEE maximumNumber. -/
  | fmax (o : Op2)
  /-- FABS (R151): Clears the sign bit; a NaN gives the canonical NaN. -/
  | fabs (o : Op1)
  /-- FNEG (R151): Inverts the sign bit; a NaN gives the canonical NaN. -/
  | fneg (o : Op1)
  /-- FCOPYSIGN (R151): Gives the magnitude of a with the sign of b. -/
  | fcopysign (o : Op2)
  /-- FRINT (R150): Rounds to an integral value of the same format. -/
  | frint (o : Fp1)
  /-- FADD_X2 (R152): Packed-pair floating-point addition. -/
  | faddX2 (o : Fp2)
  /-- FSUB_X2 (R152): Packed-pair floating-point subtraction. -/
  | fsubX2 (o : Fp2)
  /-- FMUL_X2 (R152): Packed-pair floating-point multiplication. -/
  | fmulX2 (o : Fp2)
  /-- FMA_X2 (R152): Packed-pair fused multiply-add. -/
  | fmaX2 (o : Fp3)
  /-- FMIN_X2 (R152): Packed-pair minimum. -/
  | fminX2 (o : Op2)
  /-- FMAX_X2 (R152): Packed-pair maximum. -/
  | fmaxX2 (o : Op2)
  /-- FABS_X2 (R152): Packed-pair absolute value. -/
  | fabsX2 (o : Op1)
  /-- FNEG_X2 (R152): Packed-pair negation. -/
  | fnegX2 (o : Op1)
  /-- CVT (R155): Converts between integer and floating formats or between floating formats, stochastically where selected. -/
  | cvt (o : CvtOp)
  /-- CVT_SCALED (R156): Multiplies by a scale and converts the exact product once to an FP8 format. -/
  | cvtScaled (o : CvtScaledOp)
  /-- PACK (R158): Packs 2 or 4 elements into an i32 without interpreting them. -/
  | pack (o : PackOp)
  /-- UNPACK (R158): Takes one element out of an i32 without interpreting it. -/
  | unpack (o : Op2)
  /-- BITCAST (R159): Delivers the operand's bits unchanged as another type of the same width. -/
  | bitcast (o : Op1)
  /-- CMP (R160): Compares two operands under COND and gives an i1. -/
  | cmp (o : CmpOp)
  /-- FCLASS (R161): Tests whether a floating operand's class is in the mask. -/
  | fclass (o : Op2)
  /-- SEL (R162): Selects a or b by an i1 condition, bit for bit. -/
  | sel (o : Op3)
  /-- PAND (R163): Predicate and. -/
  | pand (o : Op2)
  /-- POR (R163): Predicate or. -/
  | por (o : Op2)
  /-- PXOR (R163): Predicate exclusive or. -/
  | pxor (o : Op2)
  /-- PNOT (R163): Predicate not. -/
  | pnot (o : Op1)
  /-- LD_NEAR (R170): Loads from near memory after alignment and window checks of every active thread. -/
  | ldNear (o : LoadOp)
  /-- ST_NEAR (R170): Stores to near memory through the group's store queue. -/
  | stNear (o : StoreOp)
  /-- LD_LOCAL (R170): Loads at an offset in the slice of the core holding the group. -/
  | ldLocal (o : LoadOp)
  /-- ST_LOCAL (R170): Stores at an offset in the slice of the core holding the group. -/
  | stLocal (o : StoreOp)
  /-- LD_CONST (R171): Reads an element of a constant-pool entry, trapping with CONST_RANGE on a bad index. -/
  | ldConst (o : LdConstOp)
  /-- ATOM_ADD (R173): Atomic integer add, returning the old value. -/
  | atomAdd (o : MemOp2)
  /-- ATOM_MIN_S (R173): Atomic signed minimum. -/
  | atomMinS (o : MemOp2)
  /-- ATOM_MIN_U (R173): Atomic unsigned minimum. -/
  | atomMinU (o : MemOp2)
  /-- ATOM_MAX_S (R173): Atomic signed maximum. -/
  | atomMaxS (o : MemOp2)
  /-- ATOM_MAX_U (R173): Atomic unsigned maximum. -/
  | atomMaxU (o : MemOp2)
  /-- ATOM_AND (R173): Atomic bitwise and. -/
  | atomAnd (o : MemOp2)
  /-- ATOM_OR (R173): Atomic bitwise or. -/
  | atomOr (o : MemOp2)
  /-- ATOM_XOR (R173): Atomic bitwise exclusive or. -/
  | atomXor (o : MemOp2)
  /-- ATOM_SWAP (R173): Atomic exchange. -/
  | atomSwap (o : MemOp2)
  /-- ATOM_CAS (R173): Atomic compare-and-swap on bit strings, optionally reporting success. -/
  | atomCas (o : CasOp)
  /-- ATOM_FADD (R173): Atomic f32 add rounded to nearest even, in arrival order. -/
  | atomFadd (o : MemOp2)
  /-- FE_LD (R177): Blocking take: each thread waits for its word to be full, then reads it and sets it empty. -/
  | feLd (o : MemOp1)
  /-- FE_ST (R177): Blocking give: each thread waits for its word to be empty, then writes it and sets it full. -/
  | feSt (o : MemOp2)
  /-- FE_TRYLD (R176): Non-blocking take that reports success. -/
  | feTryld (o : MemOp1)
  /-- FE_TRYST (R176): Non-blocking give that reports success. -/
  | feTryst (o : MemOp2)
  /-- FE_PEEK (R176): Reads a word and its full/empty bit without changing them. -/
  | fePeek (o : MemOp1)
  /-- FENCE (R179): Performs an acquire, release, acquire-release or sequentially consistent fence at its scope. -/
  | fence (o : FenceOp)
  /-- BAR_ARRIVE (R181): Joins the current phase of a team barrier and returns the phase joined. -/
  | barArrive (nres : BitVec 2) (b : BitVec 30)
  /-- BAR_WAIT (R181): Waits until the named barrier phase has completed. -/
  | barWait (b : BitVec 30) (phase : Opd)
  /-- BAR_SYNC (R181): Arrives at a barrier and waits for the phase joined. -/
  | barSync (b : BitVec 30)
  /-- WAIT_ANY (R183): Waits until any named condition holds or the time-out expires. -/
  | waitAny (o : WaitOp)
  /-- WAIT_ALL (R183): Waits until all named conditions hold or the time-out expires. -/
  | waitAll (o : WaitOp)
  /-- YIELD (R186): Parks the group until its conditions are met, then resumes at a continuation block. -/
  | yield (o : YieldOp)
  /-- COPY_IN (R193): Copies a far address pattern into a near pattern through the retriever. -/
  | copyIn (o : CopyOp)
  /-- COPY_OUT (R193): Copies a near address pattern to a far pattern. -/
  | copyOut (o : CopyOp)
  /-- COPY_NEAR (R193): Copies between two near address patterns. -/
  | copyNear (o : CopyOp)
  /-- GATHER (R194): Gathers indexed far table elements into near memory. -/
  | gather (o : GatherOp)
  /-- SCATTER (R194): Scatters near elements to indexed far elements, optionally combining. -/
  | scatter (o : GatherOp)
  /-- CSR_ROWS (R196): Walks rows of a CSR matrix and writes pointers, values, columns and gathered x. -/
  | csrRows (o : RowsOp)
  /-- BSR_BLOCKS (R196): Walks block rows of a BSR matrix. -/
  | bsrBlocks (o : RowsOp)
  /-- ISECT (R197): Merges two sorted key streams and records matching index pairs. -/
  | isect (o : IsectOp)
  /-- REDUCE_FAR (R195): Combines near elements into far elements as relaxed atomics. -/
  | reduceFar (o : ReduceOp)
  /-- TOK_TEST (R200): Tests whether a token has completed, trapping if it completed with an error. -/
  | tokTest (uni : Bool) (t : Opd)
  /-- XLANE (R212): Reads a value from another thread by GET, MIX, RISE or FALL. -/
  | xlane (o : XlaneOp)
  /-- LANES_ANY (R213): Gives 1 when the predicate holds in any active thread. -/
  | lanesAny (p : Opd)
  /-- LANES_ALL (R213): Gives 1 when the predicate holds in every active thread. -/
  | lanesAll (p : Opd)
  /-- LANES_MASK (R213): Gives the mask of active threads whose predicate holds. -/
  | lanesMask (p : Opd)
  /-- RDFIRST (R213): Gives every active thread the value of the lowest-indexed active thread. -/
  | rdfirst (ty : Ty) (x : Opd)
  /-- GRP_ADD (R214): Adds the active threads' values in a fixed tree. -/
  | grpAdd (o : GrpAddOp)
  /-- GRP_MIN (R214): Minimum over the active threads in a fixed tree. -/
  | grpMin (o : GrpMinMaxOp)
  /-- GRP_MAX (R214): Maximum over the active threads in a fixed tree. -/
  | grpMax (o : GrpMinMaxOp)
  /-- CONFLICT (R215): Gives each thread the mask of lower active threads with an equal key. -/
  | conflict (o : ConflictOp)
  /-- BR (R203): Moves all active threads to the target block. -/
  | br (t : Target)
  /-- BRC (R203): Conditional branch that diverges the group when threads disagree. -/
  | brc (o : BrcOp)
  /-- BR_U (R204): Branch that traps with UNIFORMITY when its condition differs among active threads. -/
  | brU (o : BrcOp)
  /-- SWITCH (R205): Multi-way branch that runs diverging target blocks in case-value order. -/
  | switch (o : SwitchOp)
  /-- CALL (R206): Calls a function with the current active mask. -/
  | call (o : CallOp)
  /-- RET (R206): Returns values from a function, or ends the thread or helper iteration at the outermost level. -/
  | ret (args : List Opd)
  /-- EXIT (R207): Ends every active thread. -/
  | exit
  /-- SPAWN (R208): Creates one detached group on the spawner's core and returns a status. -/
  | spawn (o : SpawnOp)
  /-- TASKPOST (R209): Each active thread posts a continuation record to the hardware task queue. -/
  | taskpost (o : TaskpostOp)
  /-- DEP_TRIGGER (R210): Triggers the dependent launch for each active thread, with a package-scope release. -/
  | depTrigger
  /-- HERD (R218): Recruits helpers from idle slots to run a helper function over an iteration range. -/
  | herd (o : HerdOp)
  /-- HERD_ADD (R220): HERD with an add reduction in fixed chunk order. -/
  | herdAdd (o : HerdOp)
  /-- HERD_MIN (R220): HERD with a minimum reduction. -/
  | herdMin (o : HerdOp)
  /-- HERD_MAX (R220): HERD with a maximum reduction. -/
  | herdMax (o : HerdOp)
  /-- HERD_OR (R220): HERD with a bitwise-or reduction. -/
  | herdOr (o : HerdOp)
  /-- TILE_ZERO (R235): Gives a tile of all-zero elements. -/
  | tileZero (d : TileDesc)
  /-- TILE_FILL (R235): Gives a tile with every element equal to v. -/
  | tileFill (o : TileFillOp)
  /-- TILE_LOAD (R236): Loads a tile from near memory with a pitch, optionally transposed. -/
  | tileLoad (o : TileLoadOp)
  /-- TILE_STORE (R236): Stores a tile to near memory with a pitch, optionally transposed. -/
  | tileStore (o : TileStoreOp)
  /-- TILE_CVT (R237): Converts every element of a tile to another format. -/
  | tileCvt (o : TileCvtOp)
  /-- TILE_EXTRACT (R238): Reads one tile element per active thread. -/
  | tileExtract (o : TileExtractOp)
  /-- TILE_INSERT (R238): Writes one tile element per active thread. -/
  | tileInsert (o : TileInsertOp)
  /-- MMA_F8S (R240): Opens one block-scaled FP8 matrix k-block step. -/
  | mmaF8s (o : MmaF8sOp)
  /-- MMA_BF16 (R241): Opens one bf16 matrix k-block step. -/
  | mmaBf16 (o : MmaOp)
  /-- MMA_F16 (R241): Opens one f16 matrix k-block step. -/
  | mmaF16 (o : MmaOp)
  /-- MMA_I8 (R241): Opens one i8 matrix k-block step, wrapping in i32. -/
  | mmaI8 (o : MmaI8Op)
  /-- MMA_SP (R242): Opens one sparse matrix step with compressed weights and metadata. -/
  | mmaSp (o : MmaSpOp)
  /-- MFENCE (R243): Closes the group's open matrix operations into a batch and gives its batch value. -/
  | mfence
  /-- MWAIT (R244): Waits until a matrix batch has completed. -/
  | mwait (m : Opd)
  /-- SETFMT (R226): Writes selected fields of FMT, trapping with FORMAT on a bad value. -/
  | setfmt (o : SetfmtOp)
  /-- GETFMT (R226): Delivers FMT. -/
  | getfmt (uni : Bool)
  /-- RNG_SEED (R227): Reseeds the group's generator, or only the current helper iteration's. -/
  | rngSeed (v : Opd)
  /-- ID (R228): Reads an identity index selected by MOD. -/
  | id (o : IdOp)
  /-- CLOCK (R229): Reads the package reference tick count. -/
  | clock (uni : Bool)
  /-- TRAP (R230): Stops the group with trap USER and a code. -/
  | trap (code : BitVec 30)
  /-- BRK (R230): Stops the group with BREAK when the context's debug flag is set. -/
  | brk (code : BitVec 30)
  /-- MARK (R230): Emits a marker bundle with a code for the drift log. -/
  | mark (code : BitVec 30)
  /-- TBF_NOP (R292): Empty slot operation. -/
  | tbfNop
  /-- IADD (R312): VA integer add or subtract. -/
  | iadd (f : Va)
  /-- IMUL (R312): VA integer multiply, low or high half. -/
  | imul (f : Va)
  /-- IMAD (R312): VA integer multiply-add. -/
  | imad (f : Va)
  /-- IDIV (R312): VA integer division or remainder. -/
  | idiv (f : Va)
  /-- ISAT (R312): VA saturating add or subtract. -/
  | isat (f : Va)
  /-- ICC (R312): VA add or subtract with carry or borrow out. -/
  | icc (f : Va)
  /-- ICCI (R312): VA add or subtract with carry in and out. -/
  | icci (f : Va)
  /-- IMINMAX (R312): VA integer minimum or maximum. -/
  | iminmax (f : Va)
  /-- ILOGIC (R312): VA bitwise logic. -/
  | ilogic (f : Va)
  /-- ISHIFT (R312): VA shift or rotate. -/
  | ishift (f : Va)
  /-- IUNARY (R312): VA clz, ctz, popc, brev, neg or abs. -/
  | iunary (f : Va)
  /-- IBFE (R312): VA bit-field extract under a control word. -/
  | ibfe (f : Va)
  /-- IBFC (R312): VA builds a bit-field control word. -/
  | ibfc (f : Va)
  /-- IBFI (R312): VA bit-field insert. -/
  | ibfi (f : Va)
  /-- IEXT (R312): VA zero-extend, sign-extend or truncate. -/
  | iext (f : Va)
  /-- NADR (R312): VA near-address add, make, or split into slice or offset. -/
  | nadr (f : Va)
  /-- TBF_NIDX (R312): VA near-address indexed add. -/
  | tbfNidx (f : Va)
  /-- ICMP (R312): VA integer or address compare into a predicate. -/
  | icmp (f : Va)
  /-- TBF_SEL (R312): VA select by a predicate. -/
  | tbfSel (f : Va)
  /-- MOV (R312): VA bit-for-bit move, including broadcast into lanes. -/
  | mov (f : Va)
  /-- TBF_FADD (R312): VA floating add or subtract, scalar or pair. -/
  | tbfFadd (f : Va)
  /-- TBF_FMUL (R312): VA floating multiply, scalar or pair. -/
  | tbfFmul (f : Va)
  /-- FMARN (R312): VA fused multiply-add rounded to nearest even. -/
  | fmarn (f : Va)
  /-- FMARZ (R312): VA fused multiply-add rounded towards zero. -/
  | fmarz (f : Va)
  /-- FMAUP (R312): VA fused multiply-add rounded towards +∞. -/
  | fmaup (f : Va)
  /-- FMADN (R312): VA fused multiply-add rounded towards −∞. -/
  | fmadn (f : Va)
  /-- FMAF (R312): VA fused multiply-add rounded by FMT. -/
  | fmaf (f : Va)
  /-- FSPEC (R312): VA sqrt, rcp, rsq, exp2, log2 or rint. -/
  | fspec (f : Va)
  /-- TBF_FDIV (R312): VA floating division. -/
  | tbfFdiv (f : Va)
  /-- FMISC (R312): VA fmin, fmax, fabs, fneg, fcopysign or fclass. -/
  | fmisc (f : Va)
  /-- FCMP (R312): VA floating compare into a predicate. -/
  | fcmp (f : Va)
  /-- US_INTEGER (R314): Uniform-slot integer function on s registers. -/
  | usInteger (fn : BitVec 4) (ty : BitVec 2) (f : Us)
  /-- UNADR (R314): Uniform near-address operation. -/
  | unadr (f : Us)
  /-- UNIDX (R314): Uniform near-address indexed add. -/
  | unidx (f : Us)
  /-- UCMP (R314): Uniform compare giving 1 or 0. -/
  | ucmp (f : Us)
  /-- USEL (R314): Uniform select. -/
  | usel (f : Us)
  /-- UMOV (R314): Uniform register move. -/
  | umov (f : Us)
  /-- UMOVI (R314): Uniform move of a sign-extended 26-bit immediate. -/
  | umovi (d : BitVec 6) (imm : BitVec 26)
  /-- ULDK (R314): Loads a native constant table entry into a uniform register. -/
  | uldk (d : BitVec 6) (wide : Bool) (k : BitVec 20)
  /-- UID (R314): Reads an identity index into a uniform register. -/
  | uid (f : Us)
  /-- UCLOCK (R314): Reads the reference tick count into a uniform pair. -/
  | uclock (f : Us)
  /-- UGETFMT (R314): Reads FMT into a uniform register. -/
  | ugetfmt (f : Us)
  /-- USETFMT (R314): Writes FMT from a uniform register under a mask. -/
  | usetfmt (f : Us)
  /-- URSEED (R314): Reseeds the group's generator from a uniform pair. -/
  | urseed (f : Us)
  /-- UCVSET (R315): Writes the conversion control CVCTL. -/
  | ucvset (f : Us)
  /-- TSHAPE (R324): Reshapes a tile register's byte image. -/
  | tshape (tn : BitVec 4) (elem : BitVec 4) (colsM1 rowsM1 : BitVec 7)
  /-- PLOGIC (R314): Predicate logic on k registers for active threads. -/
  | plogic (f : Us)
  /-- KFROMS (R314): Sets a predicate from a uniform value or restores it from a pair. -/
  | kfroms (f : Us)
  /-- STOK (R314): Copies every bit of a predicate into a uniform pair. -/
  | stok (f : Us)
  /-- ULD (R314): Uniform near load. -/
  | uld (f : Umem)
  /-- UST (R314): Uniform near store. -/
  | ust (f : Umem)
  /-- UATOM (R314): Uniform atomic. -/
  | uatom (f : Umem)
  /-- UFE (R314): Uniform full/empty access. -/
  | ufe (f : Umem)
  /-- USPILL (R314): Spills a uniform register to the uniform spill area. -/
  | uspill (r : BitVec 6) (wide : Bool) (slot : BitVec 13)
  /-- UFILL (R314): Fills a uniform register from the uniform spill area. -/
  | ufill (r : BitVec 6) (wide : Bool) (slot : BitVec 13)
  /-- UTOKT (R314): Uniform token test. -/
  | utokt (f : Us)
  /-- UBAR (R314): Uniform barrier arrival. -/
  | ubar (f : Us)
  /-- UTRIG (R314): Uniform dependency trigger. -/
  | utrig
  /-- UMARK (R314): Carries a mark code in a marker bundle. -/
  | umark (code : BitVec 16)
  /-- TBF_MFENCE (R326): Closes open matrix operations and writes the batch handle. -/
  | tbfMfence (d : BitVec 6)
  /-- CVT_OP (R316): CV-slot conversion under CVCTL. -/
  | cvtOp (f : CvF)
  /-- CVTS (R316): CV-slot scaled conversion with the scale from the next register. -/
  | cvts (f : CvF)
  /-- TCVT (R316): CV-slot tile conversion. -/
  | tcvt (td ts : BitVec 4)
  /-- VLD (R317): Vector near load, local or pair form. -/
  | vld (f : Vmem)
  /-- VST (R317): Vector near store, local or pair form. -/
  | vst (f : Vmem)
  /-- VLDK (R317): Vector constant load. -/
  | vldk (f : Vldk)
  /-- VATOM (R318): Vector atomic. -/
  | vatom (f : Vatom)
  /-- VFE (R319): Vector full/empty access, blocking or not. -/
  | vfe (f : Vfe)
  /-- VSPILL (R320): Spills a vector register to the group's spill area. -/
  | vspill (f : Vspill)
  /-- VFILL (R320): Fills a vector register from the group's spill area. -/
  | vfill (f : Vspill)
  /-- XMV (R321): Moves a register between clusters. -/
  | xmv (f : XmvF)
  /-- VTOS (R321): Copies the lowest active thread's value into a uniform register. -/
  | vtos (f : VtosF)
  /-- VXLANE (R322): Vector cross-lane read. -/
  | vxlane (f : VxlaneF)
  /-- VLANES (R322): Lane poll: any, all or mask. -/
  | vlanes (f : VlanesF)
  /-- VGRP (R322): Group reduction. -/
  | vgrp (f : VgrpF)
  /-- VCONF (R322): Key conflict detection. -/
  | vconf (f : VconfF)
  /-- TLD (R323): Tile load. -/
  | tld (f : TmemF)
  /-- TST (R323): Tile store. -/
  | tst (f : TmemF)
  /-- TZERO (R323): Zeroes a tile register. -/
  | tzero (tn : BitVec 4)
  /-- TFILL (R323): Fills a tile register. -/
  | tfill (tn : BitVec 4) (s : BitVec 6)
  /-- TEXT (R323): Extracts tile elements per thread. -/
  | text (f : TelemF)
  /-- TINS (R323): Inserts tile elements per thread in place. -/
  | tins (f : TelemF)
  /-- TCOPY (R323): Copies a tile register with its shape. -/
  | tcopy (td ts : BitVec 4)
  /-- MMAF8S (R325): Native block-scaled FP8 matrix operation. -/
  | mmaf8s (f : TmmaF)
  /-- MMABF16 (R325): Native bf16 matrix operation. -/
  | mmabf16 (f : TmmaF)
  /-- MMAF16 (R325): Native f16 matrix operation. -/
  | mmaf16 (f : TmmaF)
  /-- MMAI8 (R325): Native i8 matrix operation. -/
  | mmai8 (f : TmmaF)
  /-- MMASP (R325): Native sparse matrix operation. -/
  | mmasp (form keep : BitVec 2) (f : TmmaF)
  /-- EN_COPY_IN (R327): EN-slot issue of copy.in from a uniform operand block. -/
  | enCopyIn (f : EnF)
  /-- EN_COPY_OUT (R327): EN-slot issue of copy.out. -/
  | enCopyOut (f : EnF)
  /-- EN_COPY_NEAR (R327): EN-slot issue of copy.near. -/
  | enCopyNear (f : EnF)
  /-- EN_GATHER (R327): EN-slot issue of gather. -/
  | enGather (f : EnF)
  /-- EN_SCATTER (R327): EN-slot issue of scatter. -/
  | enScatter (f : EnF)
  /-- EN_CSR_ROWS (R327): EN-slot issue of csr.rows. -/
  | enCsrRows (f : EnF)
  /-- EN_BSR_BLOCKS (R327): EN-slot issue of bsr.blocks. -/
  | enBsrBlocks (f : EnF)
  /-- EN_ISECT (R327): EN-slot issue of isect. -/
  | enIsect (f : EnF)
  /-- EN_REDUCE_FAR (R327): EN-slot issue of reduce.far. -/
  | enReduceFar (f : EnF)
  /-- JMP (R328): Continues at a clause header. -/
  | jmp (tgt : BitVec 15)
  /-- UBR (R329): Uniform branch on a predicate, trapping with UNIFORMITY when mixed. -/
  | ubr (k : BitVec 3) (tgt : BitVec 15)
  /-- DSET (R331): Sets the pending reconvergence point for the following DBR. -/
  | dset (rpc : BitVec 15)
  /-- DBR (R331): Divergent branch that pushes or splits a reconvergence stack entry. -/
  | dbr (k : BitVec 3) (tgt : BitVec 15)
  /-- JOIN (R332): Ends a path, swapping to the deferred path or popping. -/
  | join (rpc : BitVec 15)
  /-- JOINP (R332): Ends a path and pops the reconvergence entry. -/
  | joinp (rpc : BitVec 15)
  /-- TBF_CALL (R335): The recruiter runs its chunk claims of a HERD. -/
  | tbfCall
  /-- TBF_RET (R335): Ends one helper iteration with its value. -/
  | tbfRet
  /-- LOOP (R328): Loads the loop counter LC. -/
  | loop (s : BitVec 6)
  /-- LEND (R328): Decrements LC and loops while it is nonzero. -/
  | lend (tgt : BitVec 15)
  /-- TBF_EXIT (R328): Native exit of every active thread. -/
  | tbfExit
  /-- TBF_TRAP (R328): Native trap or breakpoint with a code. -/
  | tbfTrap (brk : Bool) (code : BitVec 16)
  /-- TBF_YIELD (R333): Native yield from a condition block. -/
  | tbfYield (base : BitVec 6)
  /-- WAITC (R333): Native wait on a condition block, also realising mwait. -/
  | waitc (base : BitVec 6)
  /-- TBF_SPAWN (R334): Native spawn from an operand block. -/
  | tbfSpawn (base : BitVec 6)
  /-- TPOST (R334): Native taskpost through a staging block. -/
  | tpost (base : BitVec 6)
  /-- TBF_HERD (R335): Native HERD recruitment and pinning of captures. -/
  | tbfHerd (base : BitVec 6)
  /-- HJOIN (R335): Waits for the HERD join and writes the reduction and count word. -/
  | hjoin
  /-- ISSUE_OPPORTUNITY (R24): At each issue opportunity the scheduler issues the next ready bundle of an ACTIVE group in age order, or loses the opportunity. -/
  | issueOpportunity (die core : Nat) (u : Upset)
  /-- TRANSLATION_REGENERATED (R288): The regenerated translation is installed and stalled groups continue. -/
  | translationRegenerated (die cluster tr : Nat)
  /-- HELPER_BEAT (R224): A ready helper beat co-issues on an idle lane of a host beat. -/
  | helperBeat (party : Nat) (u : Upset)
  /-- ACTIVATION (R25): A READY group's image transfer to the fast file completes and the group becomes ACTIVE. -/
  | activation (g : Nat)
  /-- DEMOTION (R26): With a READY group waiting, an ACTIVE group that issued at least 4,096 bundles is demoted at its next effective drain point. -/
  | demotion (g : Nat)
  /-- WAITING_DEMOTION (R23): After 256 cycles in WAITING while a READY group exists, the group's image moves to the slow file. -/
  | waitingDemotion (g : Nat)
  /-- WAIT_EVALUATION (R40): The scheduler evaluates the conditions of WAITING and PARKED groups every 64 cycles and after each relevant event, ending met or timed-out waits. -/
  | waitEvaluation (g : Nat)
  /-- HERD_JOIN (R220): Once every chunk has run and every helper has left, the recruiter receives its reduction and count word, or the HERD traps. -/
  | herdJoin (g : Nat)
  /-- GROUP_END (R23): A group whose threads have all exited frees its context once its stores are queued and its tokens complete. -/
  | groupEnd (g : Nat)
  /-- TEAM_PLACEMENT (R18): The cluster scheduler places a waiting team once all its resources are free together, zeroing its team region. -/
  | teamPlacement (launch core : Nat)
  /-- PRESSURE_TRANSLATION (R285): After a team waits 4,096 cycles, a lower-budget translation of the kernel entry is requested. -/
  | pressureTranslation (launch die cluster : Nat)
  /-- TASK_GROUP_FORM (R37): Task records of one home core and function form a task group at W records or 256 cycles after the first. -/
  | taskGroupForm (launch die core fn : Nat)
  /-- TASK_GROUP_START (R37): A formed task group takes a FREE context and spill area on its home core. -/
  | taskGroupStart (task : Nat)
  /-- TOKEN_COMPLETE (R198): An engine command completes its token, with or without error. -/
  | tokenComplete (cmd : Nat) (units : List Nat)
  /-- BATCH_COMPLETE (R243): A matrix batch completes when all its operations have written D. -/
  | batchComplete (g : Nat) (mism : List Nat)
  /-- VARIABLE_LATENCY_COMPLETE (R300): A variable-latency operation writes its result and decrements its flag's pending count. -/
  | variableLatencyComplete (g op : Nat)
  /-- DRAIN_POINT_STOP (R302): A group requested to stop reaches an effective drain point and stops there. -/
  | drainPointStop (g : Nat)
  /-- FREEZE_END (R303): A freeze expires and in-flight results resume landing at their bundle counts. -/
  | freezeEnd (die core : Nat)
  /-- SCHEDULER_ILLEGAL_STATE (R415): A non-one-hot scheduler state stops issue in the cluster. -/
  | schedulerIllegalState (die cluster : Nat)
  /-- SCHEDULER_REBUILT (R415): The cluster finishes rebuilding its scheduler state and resumes issue. -/
  | schedulerRebuilt (die cluster : Nat)
  /-- PATROL_SCRUB (R410): The patrol scrubber reads each DRAM line every 24 hours, correcting or poisoning it. -/
  | patrolScrub (die line : Nat)
  /-- WATCHDOG_CHECK (R44): Every 100 reference ticks the Collie compares each launch's elapsed time with its queue's limit. -/
  | watchdogCheck
  /-- WATCHDOG_FREEZE (R45): A group that reaches no drain point within 65,536 cycles of the firing is frozen and halted. -/
  | watchdogFreeze (g : Nat)
  /-- WATCHDOG_TERMINATE (R45): Once every group is HALTED, the context's launches are terminated with WATCHDOG and the context enters FAULTED. -/
  | watchdogTerminate (ctx : Nat)
  /-- TRANSLATION_REPORT (R371): Once every named cluster reports ready, VERIFY or LIMIT, the Collie applies capacity and residency tests and hands teams to the cluster schedulers. -/
  | translationReport (launch : Nat)
  /-- TRANSLATION_COMPLETE (R262): A translation's six stages finish and it is written to cache and store. -/
  | translationComplete (launch die cluster unit : Nat) (image : List Word)
  /-- DEPENDENT_START (R373): A dependent launch's teams start once every producer thread has triggered. -/
  | dependentStart (launch : Nat)
  /-- LAUNCH_RETIRE (R372): A retired launch releases, optionally hashes its result, and writes its status and signal. -/
  | launchRetire (launch : Nat)
  /-- SIGNAL_POLL (R361): The front end re-reads a waiting packet's signal words at least every 256 ticks and completes it when its condition holds. -/
  | signalPoll (q : QRef) (n : Nat)
  /-- WAIT_SIGNAL_TIMEOUT (R361): A WAIT_SIGNAL packet's time-out expires and it completes with TIMEOUT. -/
  | waitSignalTimeout (q : QRef) (n : Nat)
  /-- KICK (R365): A doorbell write updates the slot's KICK_IDX, or the QCB's WRITE_IDX and pending bit, or is ignored. -/
  | kick (q : QRef) (idx : BitVec 32)
  /-- SHEPHERD_PASS (R366): Every 1,000 ticks or on a wake the Shepherd maps pending queues to slots by effective priority. -/
  | shepherdPass
  /-- UNMAP (R367): At a packet boundary the Shepherd writes the queue's indices, age and state back to its QCB. -/
  | unmap (slot : Nat)
  /-- COLLIE_VISIT (R368): Every 2 ticks the Collie visits one slot and consumes at most one packet. -/
  | collieVisit
  /-- SUSPEND (R400): CTX_OP operation that saves a context, keeping its slices reserved. -/
  | suspend (ctx : Nat) (migratable : Bool)
  /-- UNLOAD (R400): CTX_OP operation that saves a context with its windowed slice contents and releases the slices. -/
  | unload (ctx : Nat) (migratable : Bool)
  /-- RESUME (R403): CTX_OP operation that restores or migrates a saved context. -/
  | resume (ctx : Nat)
  /-- CONTEXT_SAVE (R400): Once every group has stopped and drained, its state is written to the save area. -/
  | contextSave (ctx : Nat)
  /-- FLUSH (R386): Advances GEN, invalidates TLBs, discards records and replays or kills parked lines. -/
  | flush (die : Nat)
  /-- KILL_CTX (R385): Queues a kill of a page for a context at the next flush. -/
  | killCtx (die : Nat) (ctx : BitVec 32)
  /-- PRI_RESPONSE (R383): A PRI response replays its parked lines or makes them unresolvable. -/
  | priResponse (req : Nat) (ok : Bool)
  /-- ATS_INVALIDATION (R383): An ATS invalidation removes matching TLB entries before completing. -/
  | atsInvalidation (pasid : Nat) (page : Nat) (len : Nat)
  /-- ERRINJ_GO (R418): Injects a check-bit error into one word, or refuses. -/
  | errinjGo
  /-- DUMP_GO (R424): A write of GO to DUMP_CTL starts a dump. -/
  | dumpGo
  /-- DUMP_REQUEST (R423): An MCTP dump request from the management controller starts a dump. -/
  | dumpRequest
  /-- DUMP_COMPLETE (R424): A dump finishes writing and DONE and BYTES are set. -/
  | dumpComplete
  /-- MCTP_READ (R425): The management controller reads the lifetime record or last dump by offset. -/
  | mctpRead (dump : Bool) (off len : Nat)
  /-- LIFETIME_WRITE (R419): The lifetime record is written to the alternate flash bank hourly, at shutdown and after a machine check. -/
  | lifetimeWrite
  /-- HISTOGRAM_SECOND (R420): Each powered second adds to one temperature bin per die and one voltage bin per island. -/
  | histogramSecond (temps volts : List Nat)
  /-- AGEING_MEASURE (R421): Hourly ring-oscillator measurement updates each island's AGEING entry and EOL prediction. -/
  | ageingMeasure (khz : List Nat)
  /-- POWER_MEASURE (R427): Every 100 µs firmware measures power and lowers island frequencies if over the limit. -/
  | powerMeasure (watts : Nat)
  /-- STEER_INTERVAL (R428): Every 1,000 ticks firmware shifts 25 MHz between islands by barrier waiting fractions. -/
  | steerInterval (fracs : List (Nat × Nat))
  /-- SAMPLE_FIRING (R351): The stall sampler fires every SAMPLE_PERIOD cycles and writes a sample record. -/
  | sampleFiring (die core ctx : Nat)
  /-- PERST_DEASSERT (R429): Boot: verify firmware, select configuration, initialise DRAM, clear slices and enable links. -/
  | perstDeassert (fw : FwImage) (banks : List (List Byte))
  /-- ACTIVATE_FIRMWARE (R404): Suspends contexts and activates staged firmware, or refuses. -/
  | activateFirmware
  /-- GET_VERSION (R431): SPDM request for supported versions. -/
  | getVersion
  /-- GET_CAPABILITIES (R431): SPDM request for capabilities. -/
  | getCapabilities
  /-- NEGOTIATE_ALGORITHMS (R431): SPDM algorithm negotiation. -/
  | negotiateAlgorithms (algs : Nat)
  /-- GET_DIGESTS (R431): SPDM request for certificate chain digests. -/
  | getDigests
  /-- GET_CERTIFICATE (R431): SPDM request for a certificate chain. -/
  | getCertificate (slot off len : Nat)
  /-- CHALLENGE (R431): SPDM challenge authentication. -/
  | challenge (slot : Nat) (nonce : List Byte)
  /-- GET_MEASUREMENTS (R431): SPDM request for measurements. -/
  | getMeasurements (slot : Nat) (nonce : List Byte)
  /-- KEY_EXCHANGE (R431): SPDM session key exchange. -/
  | keyExchange (exchange : List Byte)
  /-- FINISH (R431): SPDM session finish. -/
  | finish (hmac : List Byte)
  /-- DUMP_KEY_RELEASE (R396): Vendor message releasing a confidential context's dump key in a bound session. -/
  | dumpKeyRelease (ctx : Nat)
  /-- TL_IDENT (R432): Sets the package number; a duplicate stops the joining link. -/
  | tlIdent (v : BitVec 64)
  /-- FLIT_CRC_RETRY (R433): A flit failing its CRC is retried on the link. -/
  | flitCrcRetry (port : Nat)
  /-- PORT_DOWN_TIMEOUT (R433): A port down for 1 ms fails every line in flight through it. -/
  | portDownTimeout (port : Nat)
  /-- REGISTER_WRITE (R8): Write to a device register that has no behaviour of its own. -/
  | registerWrite (addr : Nat) (wide : Bool) (v : BitVec 64)
  /-- REMOTE_ACCESS (R432): A remote read, write or combine from another package of the load-store domain arrives over Torair Link and is performed at the destination. -/
  | remoteAccess (who : Obs) (r : RemoteReq)
  /-- PORT_DOWN (R433): A Torair Link port loses its link, starting the 1 ms count after which lines in flight through it fail. -/
  | portDown (port : Nat)
  /-- PORT_UP (R433): A Torair Link port regains its link, ending the down count and letting the port carry traffic again. -/
  | portUp (port : Nat)
  /-- PERST_ASSERT (R429): PERST# asserts and the package enters reset, which later boots when PERST# deasserts. -/
  | perstAssert
  /-- FIRMWARE_UPDATE (R404): PLDM Type 5 firmware update messages stage a new firmware image, also in recovery over I3C. -/
  | firmwareUpdate (fw : FwImage)
  /-- STORE_LEAVES_QUEUE (R70): The oldest store of a group's store queue leaves it and becomes visible to its own core. -/
  | storeLeavesQueue (g : Nat)
  /-- STORE_BECOMES_VISIBLE (R71): A store visible to its own core becomes visible to another observer at an instant of its own. -/
  | storeBecomesVisible (store : Nat) (o : Obs)
  /-- RANDOM_BIT_QUEUE_REFILL (R107): A core's generator engine steps a context's generator 16 times and appends one 512-bit word to its random-bit queue. -/
  | randomBitQueueRefill (g : Nat)
  /-- COPY_PACKET_COMPLETE (R362): The retriever finishes a COPY packet's writes and the packet performs its completion area. -/
  | copyPacketComplete (q : QRef) (n : Nat)
  deriving DecidableEq, Repr

end Sys2Proof
end

