-- ==== Sys2Proof/WellFormed.lean ====
section
/-! DEFINITION. Well-formedness of an instruction on its own: the types its mnemonic accepts, the
result counts, order codes, counts and immediates that the instruction chapters allow
(05_tvf_language_encoding.md R125 to R132; 06 to 10). What needs the rest of the code object is the
verifier's (Machine/Verify.lean). -/

namespace Sys2Proof

/-! ## Reasons -/

/-- Where a rule fails: a byte of the header word, a byte of the second header word, or a byte of the
k-th operand word. -/
inductive Loc where
  | hdr (byte : Nat)
  | hdr2 (byte : Nat)
  | word (k byte : Nat)
  deriving DecidableEq, Repr

/-- A refusal: the reason code of R136 and the place. -/
structure Bad where
  reason : Nat
  loc : Loc
  deriving DecidableEq, Repr

namespace Bad
/-- OPCODE (R136). -/
def opcode : Bad := ⟨5, .hdr 0⟩
/-- TYPE in the header word (R436). -/
def type : Bad := ⟨6, .hdr 2⟩
/-- MODIFIER in MOD. -/
def modifier : Bad := ⟨8, .hdr 0⟩
/-- COUNT. -/
def count : Bad := ⟨9, .hdr 0⟩
/-- U = 1 on an instruction without a uniform form (R436: byte 1). -/
def uniform : Bad := ⟨10, .hdr 1⟩
/-- MODIFIER or TYPE in the second header word. -/
def modifier2 : Bad := ⟨8, .hdr2 0⟩
def type2 : Bad := ⟨6, .hdr2 2⟩
end Bad

/-- Refuse unless the test holds. -/
def guardB (b : Bool) (e : Bad) : Except Bad Unit := if b then .ok () else .error e

/-! ## Types (R116) -/

/-- Width in bits of a type's value; 0 for void, tile. -/
def Ty.width : Ty → Nat
  | .i1 => 1
  | .i8 | .e4m3 | .e5m2 => 8
  | .i16 | .f16 | .bf16 => 16
  | .i32 | .f32 | .tok | .batch => 32
  | .i64 | .f64 | .near | .far => 64
  | .void | .tile => 0

/-- Bytes in memory (R116). -/
def Ty.bytes (t : Ty) : Nat := t.width / 8

def Ty.isInt : Ty → Bool
  | .i8 | .i16 | .i32 | .i64 => true
  | _ => false

/-- f64, f32, bf16 and f16: the "F" of R148. -/
def Ty.isF4 : Ty → Bool
  | .f64 | .f32 | .bf16 | .f16 => true
  | _ => false

/-- The six floating formats of R90. -/
def Ty.isFloat : Ty → Bool
  | .f64 | .f32 | .bf16 | .f16 | .e4m3 | .e5m2 => true
  | _ => false

def Ty.isAddr : Ty → Bool
  | .near | .far => true
  | _ => false

/-- The data types of R165. -/
def Ty.isData (t : Ty) : Bool := t.isInt || t.isFloat || t.isAddr

/-- "V" of R211. -/
def Ty.isV (t : Ty) : Bool := t == .i1 || t.isData

/-- Width in bits of a tile element (R117). -/
def Elem.width : Elem → Nat
  | .i8 | .e4m3 | .e5m2 => 8
  | .i16 | .f16 | .bf16 => 16
  | .i32 | .f32 => 32

/-- The element type of a descriptor (R234). -/
def Elem.ty : Elem → Ty
  | .i8 => .i8 | .i16 => .i16 | .i32 => .i32 | .e4m3 => .e4m3 | .e5m2 => .e5m2 | .f16 => .f16
  | .bf16 => .bf16 | .f32 => .f32

def TileDesc.rows (d : TileDesc) : Nat := d.rowsM1.toNat + 1
def TileDesc.cols (d : TileDesc) : Nat := d.colsM1.toNat + 1
/-- A tile type is valid only up to 16,384 bytes (R117). -/
def TileDesc.ok (d : TileDesc) : Bool := decide (d.rows * d.cols * (d.elem.width / 8) ≤ 16384)

/-! ## Operands -/

/-- What an operand position requires. -/
inductive Need where
  /-- a value or an immediate of the type (R129) -/
  | is (t : Ty)
  /-- a value of the type -/
  | value (t : Ty)
  /-- an immediate of the type (`const`) -/
  | literal (t : Ty)
  /-- a KIND 0b01 immediate between two bounds -/
  | within (lo hi : Nat)
  /-- a value of i1 or a narrower integer type (`sext`, `zext`), or of a wider one (`trunc`) -/
  | narrower (w : Nat)
  | wider (w : Nat)
  /-- a value of a type as wide as the given one (`bitcast`) -/
  | sameWidth (w : Nat)
  /-- a value of type near or far (streams of `isect`) -/
  | stream
  /-- an address that must be of the space (R62): reported as ADDRESS_SPACE -/
  | addr (t : Ty)
  /-- an i32 offset of a local access: a value or a long immediate (R168) -/
  | offset
  /-- a value whose tile descriptor is checked against the shape by the verifier -/
  | tile
  /-- the scale sb of a matrix operation: f32 or i8 (R239) -/
  | scale (t : Option Ty)
  /-- the chunk of a HERD: an immediate lies from 1 to 65,536 (R216) -/
  | chunk
  deriving DecidableEq, Repr

/-- Whether a KIND 0b01 or 0b10 immediate is accepted for a type (R129). -/
def immOk (t : Ty) : Opd → Bool
  | .val _ => true
  | .imm v =>
    match t with
    | .i1 => decide (v.toNat ≤ 1)
    | .i8 => decide (-128 ≤ v.toInt) && decide (v.toInt ≤ 255)
    | .i16 => decide (-32768 ≤ v.toInt) && decide (v.toInt ≤ 65535)
    | .i32 | .i64 => true
    | _ => false
  | .long1 w =>
    match t with
    | .i8 | .i16 | .e4m3 | .e5m2 | .f16 | .bf16 => decide (w.toNat < 2 ^ t.width)
    | .i32 | .i64 | .f32 => true
    | _ => false
  | .long2 _ _ =>
    match t with
    | .i64 | .f64 | .near | .far => true
    | _ => false

def Opd.isVal : Opd → Bool
  | .val _ => true
  | _ => false

/-- Whether an operand meets its position as far as it can be judged alone. -/
def Need.immOk (n : Need) (o : Opd) : Bool :=
  match n with
  | .is t | .addr t => Sys2Proof.immOk t o
  | .literal t => !o.isVal && Sys2Proof.immOk t o
  | .within lo hi => match o with
    | .imm v => decide (lo ≤ v.toNat) && decide (v.toNat ≤ hi)
    | _ => false
  | .scale (some t) => Sys2Proof.immOk t o
  | .scale none => Sys2Proof.immOk .f32 o || Sys2Proof.immOk .i8 o
  | .offset => (match o with | .imm _ => false | _ => true) && Sys2Proof.immOk .i32 o
  | .chunk => Sys2Proof.immOk .i32 o && match o with
    | .imm v => decide (1 ≤ v.toNat) && decide (v.toNat ≤ 65536)
    | .long1 w => decide (1 ≤ w.toNat) && decide (w.toNat ≤ 65536)
    | _ => true
  | .value _ | .narrower _ | .wider _ | .sameWidth _ | .stream | .tile => o.isVal

def condNeeds : CondOp → List (Opd × Need)
  | .token t => [(t, .value .tok)]
  | .fullWord p | .emptyWord p => [(p, .addr .near)]
  | .barrier b ph => [(.imm b, .within 0 31), (ph, .is .i32)]
  | .matrix m => [(m, .value .batch)]
  | .sig a cmp v =>
    [(a, .addr .far),
     (.imm (match cmp with | .eq => 0 | .ne => 1 | .lt => 2 | .ge => 3), .within 0 3), (v, .is .i64)]

def Pattern.needs (p : Pattern) (space : Ty) : List (Opd × Need) :=
  (p.base, .addr space) :: (p.c0, .is .i32) ::
    p.lv.flatMap fun cs => [(cs.1, .is .i32), (cs.2, .is .i64)]

/-- The scale type that an SFMT code fixes (R239). -/
def sfmtTy (s : BitVec 2) : Option Ty := if s = 1 then some .f32 else if s = 2 then some .i8 else none

/-- The operands of an instruction in encoding order, block targets and function arguments apart,
with what each position requires. -/
def Instr.needs : Instr → List (Opd × Need)
  | .add o | .sub o | .mul o | .mulHiS o | .mulHiU o | .divS o | .divU o | .remS o | .remU o
  | .addSatS o | .addSatU o | .subSatS o | .subSatU o | .addCc o | .subCc o | .minS o | .minU o
  | .maxS o | .maxU o | .and o | .or o | .xor o | .fmin o | .fmax o | .fcopysign o =>
    [(o.a, .is o.ty), (o.b, .is o.ty)]
  | .shl o | .shrU o | .shrS o | .rotl o | .rotr o => [(o.a, .is o.ty), (o.b, .is .i32)]
  | .mad o => [(o.a, .is o.ty), (o.b, .is o.ty), (o.c, .is o.ty)]
  | .addc o | .subc o => [(o.a, .is o.ty), (o.b, .is o.ty), (o.c, .is .i1)]
  | .not o | .neg o | .abs o | .clz o | .ctz o | .popc o | .brev o | .fabs o | .fneg o | .pnot o =>
    [(o.a, .is o.ty)]
  | .bfeU o | .bfeS o => [(o.a, .is o.ty), (o.b, .is .i32), (o.c, .is .i32)]
  | .bfi o => [(o.a, .is o.ty), (o.b, .is o.ty), (o.c, .is .i32), (o.d, .is .i32)]
  | .sext o | .zext o => [(o.a, .narrower o.ty.width)]
  | .trunc o => [(o.a, .wider o.ty.width)]
  | .nadd o => [(o.a, .is .near), (o.b, .is .i64)]
  | .nidx o => [(o.a, .is .near), (o.b, .is .i64), (o.c, .is .i32)]
  | .nmake o => [(o.a, .is .i32), (o.b, .is .i32)]
  | .nsplit o => [(o.a, .is .near)]
  | .const o => [(o.a, .literal o.ty)]
  | .fadd o | .fsub o | .fmul o | .fdiv o => [(o.a, .is o.ty), (o.b, .is o.ty)]
  | .fma o => [(o.a, .is o.ty), (o.b, .is o.ty), (o.c, .is o.ty)]
  | .fsqrt o | .frcp o | .frsq o | .exp2 o | .log2 o | .frint o => [(o.a, .is o.ty)]
  | .faddX2 o | .fsubX2 o | .fmulX2 o => [(o.a, .is .i32), (o.b, .is .i32)]
  | .fmaX2 o => [(o.a, .is .i32), (o.b, .is .i32), (o.c, .is .i32)]
  | .fminX2 o | .fmaxX2 o => [(o.a, .is .i32), (o.b, .is .i32)]
  | .fabsX2 o | .fnegX2 o => [(o.a, .is .i32)]
  | .cvt o => [(o.a, .is o.src)]
  | .cvtScaled o => [(o.x, .is o.src), (o.s, .is .f32)]
  | .pack o => o.xs.map fun x => (x, .is o.ty)
  | .unpack o => [(o.a, .is .i32), (o.b, .within 0 (32 / o.ty.width - 1))]
  | .bitcast o => [(o.a, .sameWidth o.ty.width)]
  | .cmp o => [(o.a, .is o.ty), (o.b, .is o.ty)]
  | .fclass o => [(o.a, .is o.ty), (o.b, .within 0 0x1FF)]
  | .sel o => [(o.a, .is .i1), (o.b, .is o.ty), (o.c, .is o.ty)]
  | .pand o | .por o | .pxor o => [(o.a, .is .i1), (o.b, .is .i1)]
  | .ldNear o => [(o.p, .addr .near)]
  | .ldLocal o => [(o.p, .offset)]
  | .stNear o => (o.p, .addr .near) :: (o.v, .is o.ty) :: (o.v2.toList.map fun v => (v, .is o.ty))
  | .stLocal o => (o.p, .offset) :: (o.v, .is o.ty) :: (o.v2.toList.map fun v => (v, .is o.ty))
  | .ldConst o => [(o.i, .is .i32)]
  | .atomAdd o | .atomMinS o | .atomMinU o | .atomMaxS o | .atomMaxU o | .atomAnd o | .atomOr o
  | .atomXor o | .atomSwap o | .atomFadd o | .feSt o | .feTryst o =>
    [(o.p, .addr .near), (o.v, .is o.ty)]
  | .atomCas o => [(o.p, .addr .near), (o.e, .is o.ty), (o.n, .is o.ty)]
  | .feLd o | .feTryld o | .fePeek o => [(o.p, .addr .near)]
  | .barArrive _ b | .barSync b => [(.imm b, .within 0 31)]
  | .barWait b ph => [(.imm b, .within 0 31), (ph, .is .i32)]
  | .waitAny o | .waitAll o => (o.timeout, .is .i32) :: o.conds.flatMap condNeeds
  | .yield o => (o.timeout, .is .i32) :: o.conds.flatMap condNeeds
  | .copyIn o => o.src.needs .far ++ o.dst.needs .near
  | .copyOut o => o.src.needs .near ++ o.dst.needs .far
  | .copyNear o => o.src.needs .near ++ o.dst.needs .near
  | .reduceFar o => o.src.needs .near ++ o.dst.needs .far
  | .gather o | .scatter o =>
    [(o.tbl, .addr .far), (o.idx, .addr .near), (o.n, .is .i32), (o.buf, .addr .near)]
  | .csrRows o | .bsrBlocks o =>
    [(o.rp, .addr .far), (o.ci, .addr .far), (o.va, .addr .far), (o.xv, .addr .far),
     (o.first, .is .i64), (o.n, .is .i32), (o.dst, .addr .near), (o.cap, .is .i32)]
  | .isect o =>
    [(o.a, .stream), (o.na, .is .i32), (o.b, .stream), (o.nb, .is .i32), (o.out, .addr .near),
     (o.cap, .is .i32)]
  | .tokTest _ t => [(t, .value .tok)]
  | .xlane o => [(o.x, .value o.ty), (o.n, .is .i32)]
  | .lanesAny p | .lanesAll p | .lanesMask p => [(p, .is .i1)]
  | .rdfirst ty x => [(x, .is ty)]
  | .grpAdd o => [(o.x, .is o.ty)]
  | .grpMin o | .grpMax o => [(o.x, .is o.ty)]
  | .conflict o => [(o.k, .is o.ty)]
  | .brc o | .brU o => [(o.c, .is .i1)]
  | .switch o => [(o.v, .is .i32)]
  | .taskpost o => [(o.p, .is .near)]
  | .herd o | .herdAdd o | .herdMin o | .herdMax o | .herdOr o =>
    [(o.lo, .is .i32), (o.hi, .is .i32), (o.chunk, .chunk)]
  | .tileFill o => [(o.v, .is o.d.elem.ty)]
  | .tileLoad o => [(o.p, .addr .near), (o.ld, .is .i32)]
  | .tileStore o => [(o.p, .addr .near), (o.ld, .is .i32), (o.x, .tile)]
  | .tileCvt o => [(o.x, .tile)]
  | .tileExtract o => [(o.x, .tile), (o.r, .is .i32), (o.c, .is .i32)]
  | .tileInsert o => [(o.x, .tile), (o.v, .is o.d.elem.ty), (o.r, .is .i32), (o.c, .is .i32)]
  | .mmaF8s o => [(o.a, .tile), (o.b, .tile), (o.c, .tile), (o.sa, .tile), (o.sb, .scale (sfmtTy o.sfmt))]
  | .mmaBf16 o | .mmaF16 o => [(o.a, .tile), (o.b, .tile), (o.c, .tile)]
  | .mmaI8 o => [(o.a, .tile), (o.b, .tile), (o.c, .tile)]
  | .mmaSp o => [(o.a, .tile), (o.b, .tile), (o.m, .tile), (o.c, .tile)] ++
      (match o.scales with
       | some (sa, sb) => [(sa, .tile), (sb, .scale (sfmtTy o.s2))]
       | none => [])
  | .mwait m => [(m, .value .batch)]
  | .setfmt o => [(o.v, .is .i32)]
  | .rngSeed v => [(v, .is .i64)]
  | .trap c | .brk c | .mark c => [(.imm c, .within 0 0xFFFF)]
  | _ => []

/-- The block targets of an instruction, in encoding order (R132, R186, R202). -/
def Instr.targets : Instr → List Target
  | .br t => [t]
  | .brc o | .brU o => [o.t, o.f]
  | .switch o => o.dflt :: o.cases.map (·.2)
  | .yield o => [o.cont]
  | _ => []

/-- The arguments a call, return, spawn, post or HERD passes (R132, R206 to R209, R216). -/
def Instr.passes : Instr → List Opd
  | .call o => o.args
  | .ret args => args
  | .spawn o => o.args
  | .taskpost o => o.args
  | .herd o | .herdAdd o | .herdMin o | .herdMax o | .herdOr o => o.caps
  | _ => []

/-- Words of one operand. -/
def Opd.words : Opd → Nat
  | .val _ | .imm _ => 1
  | .long1 _ => 2
  | .long2 _ _ => 3

def opdWords (os : List Opd) : Nat := (os.map Opd.words).sum
def Target.words (t : Target) : Nat := 1 + opdWords t.args

/-! ## The types, codes and result counts a mnemonic accepts -/

/-- A rule that an instruction meets or that gives a reason. -/
abbrev Rule := Bool × Bad

def tyRule (b : Bool) : Rule := (b, .type)
def ty2Rule (b : Bool) : Rule := (b, .type2)
def modRule (b : Bool) : Rule := (b, .modifier)
def mod2Rule (b : Bool) : Rule := (b, .modifier2)
def countRule (b : Bool) : Rule := (b, .count)
/-- A tile descriptor above 16,384 bytes (R117), and one that a matrix operation does not take (R239). -/
def descRule (d : TileDesc) : Rule := (d.ok, ⟨6, .word 0 0⟩)
def elemRule (b : Bool) : Rule := (b, ⟨11, .word 0 0⟩)

/-- Result count of an atomic with an optional result, and of a form with an optional second one. -/
def res01 (n : BitVec 2) : Rule := countRule (decide (n.toNat ≤ 1))
def res12 (n : BitVec 2) : Rule := countRule (decide (n.toNat = 1) || decide (n.toNat = 2))

/-- Order codes that a load and a store accept (R65, R168). -/
def loadOrder (o : Order) : Bool := o == .relaxed || o == .acquire || o == .seqCst
def storeOrder (o : Order) : Bool := o == .relaxed || o == .release || o == .seqCst

/-- COMBINE fits ELEM (R195); code 0 does not stand here. -/
def combineOk (c : BitVec 4) (e : BitVec 2) : Bool :=
  if decide (1 ≤ c.toNat ∧ c.toNat ≤ 8) then e == 0 || e == 1
  else if decide (c.toNat = 9 ∨ c.toNat = 10) then e == 2 || e == 3
  else false

/-- A pair that a conversion takes (R153, R154). -/
def cvtPair (src dst : Ty) : Bool :=
  (src.isInt && dst.isFloat) || (src.isFloat && dst.isInt) || (src.isFloat && dst.isFloat && src != dst)

/-- The small floating and integer types of `pack` and `unpack` (R158). -/
def packTy (t : Ty) : Bool :=
  t == .i8 || t == .i16 || t == .f16 || t == .bf16 || t == .e4m3 || t == .e5m2

def swapTy (t : Ty) : Bool := t == .i32 || t == .i64 || t == .f32 || t == .f64 || t.isAddr
def feTy (t : Ty) : Bool := t == .i64 || t == .f64 || t.isAddr
def herdTy (t : Ty) : Bool := t == .i32 || t == .i64 || t == .f32 || t == .f64
def pairTy (t : Ty) : Bool := decide (t.bytes = 4 ∨ t.bytes = 8)

/-- The operand word of the first case of a `switch` whose value stands before it already. -/
def caseAgain (seen : List (BitVec 30)) : (k : Nat) → List (BitVec 30 × Target) → Option Nat
  | _, [] => none
  | k, (v, t) :: rest =>
    if seen.contains v then some k else caseAgain (v :: seen) (k + 1 + t.words) rest

/-- The rules of an instruction on its own, operands apart (R140, R148, R153 to R163, R168 to R180, R188,
R191, R195, R202, R211, R216, R226, R228, R234, R239). -/
def Instr.rules : Instr → List Rule
  | .add o | .sub o | .mul o | .mulHiS o | .mulHiU o | .divS o | .divU o | .remS o | .remU o
  | .addSatS o | .addSatU o | .subSatS o | .subSatU o | .addCc o | .subCc o | .minS o | .minU o
  | .maxS o | .maxU o | .and o | .or o | .xor o | .shl o | .shrU o | .shrS o | .rotl o | .rotr o =>
    [tyRule o.ty.isInt]
  | .mad o | .addc o | .subc o | .bfeU o | .bfeS o => [tyRule o.ty.isInt]
  | .not o | .neg o | .abs o | .clz o | .ctz o | .popc o | .brev o | .sext o | .zext o => [tyRule o.ty.isInt]
  | .trunc o => [tyRule (o.ty == .i8 || o.ty == .i16 || o.ty == .i32)]
  | .bfi o => [tyRule o.ty.isInt]
  | .nadd o | .nmake o => [tyRule (o.ty == .near)]
  | .nidx o => [tyRule (o.ty == .near)]
  | .nsplit o => [tyRule (o.ty == .i32)]
  | .const o => [tyRule o.ty.isV]
  | .fadd o | .fsub o | .fmul o | .fdiv o => [tyRule o.ty.isF4, modRule (o.rnd != .sr)]
  | .fma o => [tyRule o.ty.isF4, modRule (o.rnd != .sr)]
  | .fsqrt o | .frint o => [tyRule o.ty.isF4, modRule (o.rnd != .sr)]
  | .frcp o | .frsq o | .exp2 o | .log2 o =>
    [tyRule (o.ty == .f32 || o.ty == .bf16 || o.ty == .f16), modRule (o.rnd != .sr)]
  | .fmin o | .fmax o | .fcopysign o => [tyRule o.ty.isF4]
  | .fabs o | .fneg o => [tyRule o.ty.isF4]
  | .faddX2 o | .fsubX2 o | .fmulX2 o => [tyRule (o.ty == .f16 || o.ty == .bf16), modRule (o.rnd != .sr)]
  | .fmaX2 o => [tyRule (o.ty == .f16 || o.ty == .bf16), modRule (o.rnd != .sr)]
  | .fminX2 o | .fmaxX2 o => [tyRule (o.ty == .f16 || o.ty == .bf16)]
  | .fabsX2 o | .fnegX2 o => [tyRule (o.ty == .f16 || o.ty == .bf16)]
  | .cvt o => [tyRule (o.ty.isInt || o.ty.isFloat),
      ty2Rule (cvtPair o.src o.ty || !(o.ty.isInt || o.ty.isFloat)),
      mod2Rule ((!o.ds || !o.ty.isFloat) && (!o.ss || !o.src.isFloat)), modRule (o.rnd != .sr || o.ty.isFloat)]
  | .cvtScaled o => [tyRule (o.ty == .e4m3 || o.ty == .e5m2),
      ty2Rule (o.src == .f32 || o.src == .bf16 || o.src == .f16)]
  | .pack o => [tyRule (packTy o.ty), countRule (!packTy o.ty || o.xs.length == 32 / o.ty.width)]
  | .unpack o => [tyRule (packTy o.ty)]
  | .bitcast o => [tyRule o.ty.isData]
  | .cmp o => [tyRule o.ty.isData,
      modRule ((if o.ty.isFloat then !o.signed else o.cond != .ord && o.cond != .uno)
        && (!o.ty.isAddr || !o.signed))]
  | .fclass o => [tyRule o.ty.isFloat]
  | .sel o => [tyRule o.ty.isV]
  | .pand o | .por o | .pxor o => [tyRule (o.ty == .i1)]
  | .pnot o => [tyRule (o.ty == .i1)]
  | .ldNear o | .ldLocal o => [tyRule (o.ty.isData && (!o.pair || pairTy o.ty)), modRule (loadOrder o.order)]
  | .stNear o | .stLocal o =>
    [tyRule (o.ty.isData && (o.v2.isNone || pairTy o.ty)), modRule (storeOrder o.order)]
  | .ldConst o => [tyRule (o.ty.isInt || o.ty.isFloat)]
  | .atomAdd o | .atomMinS o | .atomMinU o | .atomMaxS o | .atomMaxU o | .atomAnd o | .atomOr o
  | .atomXor o => [tyRule (o.ty == .i32 || o.ty == .i64), res01 o.nres]
  | .atomSwap o => [tyRule (swapTy o.ty), res01 o.nres]
  | .atomFadd o => [tyRule (o.ty == .f32), res01 o.nres]
  | .atomCas o => [tyRule (swapTy o.ty), countRule (decide (o.nres.toNat ≤ 2))]
  | .feLd o => [tyRule (feTy o.ty), countRule (o.nres == 1)]
  | .feTryld o => [tyRule (feTy o.ty), res12 o.nres]
  | .fePeek o => [tyRule (feTy o.ty), res12 o.nres, modRule (loadOrder o.order)]
  | .feSt o => [tyRule (feTy o.ty), countRule (o.nres == 0)]
  | .feTryst o => [tyRule (feTy o.ty), res01 o.nres]
  | .fence o => [modRule (o.order != .relaxed)]
  | .barArrive n _ => [res01 n]
  | .waitAny o | .waitAll o => [res01 o.nres, mod2Rule (decide (1 ≤ o.conds.length ∧ o.conds.length ≤ 4))]
  | .yield o => [mod2Rule (decide (1 ≤ o.conds.length ∧ o.conds.length ≤ 4))]
  | .copyIn o | .copyOut o | .copyNear o =>
    [res01 o.nres, mod2Rule (decide (o.src.lv.length ≤ 5 ∧ o.dst.lv.length ≤ 5))]
  | .reduceFar o => [res01 o.nres, mod2Rule (decide (o.src.lv.length ≤ 5 ∧ o.dst.lv.length ≤ 5)),
      mod2Rule (combineOk o.combine o.elem)]
  | .gather o => [res01 o.nres, mod2Rule (decide (o.esz.toNat ≤ 4) && o.combine == 0 && o.elem == 0)]
  | .scatter o => [res01 o.nres, mod2Rule (decide (o.esz.toNat ≤ 4)
      && (if o.combine == 0 then o.elem == 0
          else combineOk o.combine o.elem
            && (decide (1 ≤ o.esz.toNat) || o.elem == 0 || o.elem == 2)))]
  | .csrRows o => [res01 o.nres, mod2Rule (o.brc == 0 && o.bcc == 0)]
  | .bsrBlocks o => [res01 o.nres, mod2Rule (decide (o.brc.toNat ≤ 4 ∧ o.bcc.toNat ≤ 4))]
  | .isect o => [res01 o.nres]
  | .xlane o => [tyRule o.ty.isV, res12 o.nres]
  | .rdfirst ty _ => [tyRule ty.isV]
  | .grpAdd o => [tyRule (o.ty.isInt || o.ty.isF4), modRule (o.rnd != .sr && (o.ty.isF4 || o.rnd == .rn))]
  | .grpMin o | .grpMax o => [tyRule (o.ty.isInt || o.ty.isF4), modRule (o.ty.isInt || !o.signed)]
  | .conflict o => [tyRule (o.ty.isInt || o.ty.isAddr), res12 o.nres]
  | .switch o => match caseAgain [] (o.v.words + o.dflt.words) o.cases with
    | some k => [(false, ⟨12, .word k 0⟩)]
    | none => []
  | .call o => [countRule (o.nres != 3), (decide (o.nres.toNat ≤ 2) && (o.nres != 0 || o.ty == .void) && (o.nres == 0 || o.ty.isV),
      ⟨0x16, .hdr 0⟩)]
  | .ret args => [(decide (args.length ≤ 2), ⟨0x16, .hdr 0⟩)]
  | .spawn o => [res01 o.nres]
  | .taskpost o => [res01 o.nres]
  | .herd o => [res01 o.nres, tyRule (o.ty == .i32), modRule (o.rnd == .rn && !o.signed)]
  | .herdAdd o => [res12 o.nres, tyRule (herdTy o.ty),
      modRule (o.rnd != .sr && (o.ty.isFloat || o.rnd == .rn) && !o.signed)]
  | .herdMin o | .herdMax o =>
    [res12 o.nres, tyRule (herdTy o.ty), modRule (o.rnd == .rn && (o.ty.isInt || !o.signed))]
  | .herdOr o => [res12 o.nres, tyRule (o.ty == .i32 || o.ty == .i64), modRule (o.rnd == .rn && !o.signed)]
  | .tileZero d => [descRule d]
  | .tileFill o => [descRule o.d]
  | .tileLoad o => [descRule o.d]
  | .tileStore o => [descRule o.d]
  | .tileCvt o => [descRule o.d, modRule ((!o.ds || o.d.elem.ty.isInt) && (o.rnd != .sr || o.d.elem.ty.isFloat))]
  | .tileExtract o => [tyRule (o.ty == .i8 || o.ty == .i16 || o.ty == .i32 || o.ty == .e4m3 || o.ty == .e5m2
      || o.ty == .f16 || o.ty == .bf16 || o.ty == .f32)]
  | .tileInsert o => [descRule o.d]
  | .mmaF8s o => [descRule o.d, elemRule (o.d.elem == .f32), modRule (o.sfmt != 3)]
  | .mmaBf16 o | .mmaF16 o => [descRule o.d, elemRule (o.d.elem == .f32)]
  | .mmaI8 o => [descRule o.d, elemRule (o.d.elem == .i32)]
  | .mmaSp o => [descRule o.d, elemRule (if o.form == 3 then o.d.elem == .i32 else o.d.elem == .f32),
      modRule (o.keep != 3 && (o.form == 0 || o.form == 3 || o.s2 == 0) && (o.form != 0 || o.s2 != 3)),
      countRule (o.scales.isSome == (o.form == 0))]
  | .setfmt o => [modRule (o.mask != 0)]
  | .id o => [modRule (decide (o.idx.toNat ≤ 9)), tyRule (if o.idx == 8 then o.ty == .near else o.ty == .i32),
      (!(o.idx == 0 && o.uni), .uniform)]
  | _ => []

def Instr.shapeOk (i : Instr) : Bool := i.rules.all (·.1)

/-- Symbol words and descriptor words apart from operands and targets. -/
def Instr.extraWords : Instr → Nat
  | .ldConst _ | .call _ | .spawn _ | .taskpost _ => 1
  | .herd _ | .herdAdd _ | .herdMin _ | .herdMax _ | .herdOr _ => 1
  | .tileZero _ | .tileFill _ | .tileLoad _ | .tileStore _ | .tileCvt _ | .tileInsert _ => 1
  | .mmaF8s _ | .mmaBf16 _ | .mmaF16 _ | .mmaI8 _ | .mmaSp _ => 1
  | .switch o => o.cases.length
  | _ => 0

/-- Operand words of an instruction; NOPND and OPEXT count at most 255 (R126). -/
def Instr.opWords (i : Instr) : Nat :=
  i.extraWords + opdWords (i.needs.map (·.1)) + opdWords i.passes + (i.targets.map Target.words).sum

/-! ## Bundle Form: field values that no context makes legal (R293, R311, R337) -/

/-- A 7-bit RND subfield code is 0 to 3 or 5 (R312). -/
def rndOk (x : Nat) : Bool := decide (x ≤ 3 ∨ x = 5)

/-- TY accepted by the functions 0x15 to 0x1F that take pairs, and by the rest (R311). -/
def vaPairTy (t : BitVec 3) : Bool := decide (t.toNat ≤ 1 ∨ 4 ≤ t.toNat)
def vaScalarTy (t : BitVec 3) : Bool := decide (4 ≤ t.toNat)
def vaIntTy (t : BitVec 3) : Bool := decide (t.toNat ≤ 3)

/-- Operand code not reserved (R308): an immediate only with an integer TY. -/
def codeOk (float : Bool) (c : BitVec 8) : Bool :=
  decide (c.toNat ≤ 0x88) || (!float && decide (0xC0 ≤ c.toNat))

/-- Only VA0 computes on 64-bit floating values and divides 64-bit integers (R313). -/
def Va.slotOk (f : Va) : Bool := !(f.va1 && f.ty == 7)

def Va.intOk (f : Va) (xMax : Nat) : Bool :=
  vaIntTy f.ty && codeOk false f.a && codeOk false f.b && decide (f.x.toNat < xMax)

def Va.fpOk (f : Va) : Bool :=
  f.slotOk && vaPairTy f.ty && codeOk true f.a && codeOk true f.b

/-- A uniform integer operation (R312, R314): the function's X subfield and zero bits, and its TY. -/
def Us.intOk (f : Us) (fn ty : Nat) : Bool :=
  let x := f.x.toNat
  match fn with
  | 1 | 12 => decide (x < 2)
  | 2 => decide (x < 3)
  | 3 | 14 => decide (x < 64)
  | 5 | 8 => decide (x < 4)
  | 6 => decide (x % 4096 < 64) && decide (x < 8192)
  | 7 => decide (x < 8192)
  | 9 => decide (x < 4) && (x != 3 || f.b == 0)
  | 10 => decide (x < 5)
  | 11 => decide (x < 6) && f.b == 0
  | 13 => x == 0 && ty == 2
  | 15 => decide (x < 16) && decide (x % 4 ≤ 2) && f.b == 0
  | _ => false

/-! VM operations (R317 to R325). -/

def Vmem.ldOk (f : Vmem) : Bool := codeOk false f.ad && loadOrder f.order && decide (f.size.toNat ≤ 4)
def Vmem.stOk (f : Vmem) : Bool := codeOk false f.ad && storeOrder f.order && decide (f.size.toNat ≤ 4)
def Vldk.ok (f : Vldk) : Bool := codeOk false f.ad && decide (f.size.toNat ≤ 3)
/-- The floating addition takes 32 bits (R173). -/
def Vatom.ok (f : Vatom) : Bool := decide (f.fn.toNat ≤ 10) && !(f.fn.toNat == 10 && f.w64)
def Vfe.ok (f : Vfe) : Bool :=
  decide (f.fn.toNat ≤ 4) && codeOk false f.ad && (f.fn.toNat != 4 || loadOrder f.order) && (f.kv || f.k == 0)
/-- RND belongs to the floating addition, S to integers (R214). -/
def VgrpF.ok (f : VgrpF) : Bool :=
  let float := decide (4 ≤ f.ty.toNat)
  decide (f.fn.toNat ≤ 2) && rndOk f.rnd.toNat && !(float && f.signed) && (f.rnd == 0 || (float && f.fn == 0))

/-- Legality of a native slot operation taken alone. -/
def Instr.nativeOk : Instr → Bool
  | .iadd f => f.intOk 2
  | .imul f => f.intOk 3
  | .imad f => f.intOk 128
  | .idiv f => f.intOk 4 && !(f.va1 && f.ty == 3)
  | .isat f => f.intOk 4
  | .icc f => f.intOk 16
  | .icci f => f.intOk 128
  | .iminmax f => f.intOk 4
  | .ilogic f => f.intOk 4 && (f.x.toNat != 3 || f.b == 0)
  | .ishift f => f.intOk 5
  | .iunary f => f.intOk 6 && f.b == 0
  | .ibfe f => f.intOk 2
  | .ibfc f => f.intOk 1 && f.ty == 2
  | .ibfi f => f.intOk 128
  | .iext f => f.intOk 16 && decide (f.x.toNat % 4 ≤ 2) && f.b == 0
  | .nadr f => codeOk false f.a && codeOk false f.b && decide (f.x.toNat < 4)
      && (if f.x.toNat ≤ 1 then f.ty == 3 else f.ty == 2)
  | .tbfNidx f => f.intOk 128 && f.ty == 3
  | .icmp f => f.intOk 16 && decide (f.x.toNat % 8 ≤ 5) && decide (f.d.toNat < 8)
  | .tbfSel f => f.intOk 8
  | .mov f => f.intOk 1 && f.b == 0
  | .tbfFadd f => f.fpOk && decide (f.x.toNat < 16) && rndOk (f.x.toNat % 8)
  | .tbfFmul f => f.fpOk && decide (f.x.toNat < 8) && rndOk f.x.toNat
  | .fmarn f | .fmarz f | .fmaup f | .fmadn f | .fmaf f => f.fpOk
  | .fspec f => f.slotOk && vaScalarTy f.ty && codeOk true f.a && f.b == 0
      && decide (f.x.toNat < 64) && rndOk (f.x.toNat % 8) && decide (f.x.toNat / 8 ≤ 5)
      && (f.ty != 7 || decide (f.x.toNat / 8 = 0 ∨ f.x.toNat / 8 = 5))
  | .tbfFdiv f => f.slotOk && vaScalarTy f.ty && codeOk true f.a && codeOk true f.b
      && decide (f.x.toNat < 8) && rndOk f.x.toNat
  | .fmisc f => f.slotOk && codeOk true f.a && decide (f.x.toNat ≤ 5)
      && (if f.x.toNat = 5 then decide (2 ≤ f.ty.toNat) && decide (f.d.toNat < 8) && codeOk true f.b
          else if f.x.toNat = 4 then vaScalarTy f.ty && codeOk true f.b
          else vaPairTy f.ty && codeOk true f.b)
      && (f.x.toNat != 2 && f.x.toNat != 3 || f.b == 0)
  | .fcmp f => f.slotOk && decide (2 ≤ f.ty.toNat) && codeOk true f.a && codeOk true f.b
      && decide (f.x.toNat < 8) && decide (f.d.toNat < 8)
  | .usInteger fn ty f => f.intOk fn.toNat ty.toNat
  | .tshape _ e c r => decide (e.toNat ≤ 7)
      && decide ((r.toNat + 1) * (c.toNat + 1)
          * (if e.toNat = 0 ∨ e.toNat = 3 ∨ e.toNat = 4 then 1
             else if e.toNat = 2 ∨ e.toNat = 7 then 4 else 2) ≤ 16384)
  | .ucmp f => decide (f.x.toNat < 64) && decide (f.x.toNat % 8 ≤ 5)
  | .uid f => decide (f.x.toNat ≤ 9)
  | .usetfmt f => decide (f.x.toNat < 16) && f.x != 0
  | .ubar f => decide (f.x.toNat < 32)
  | .uld f => loadOrder f.order && decide (f.size.toNat ≤ 4)
  | .ust f => storeOrder f.order && decide (f.size.toNat ≤ 4)
  | .uatom f => decide (f.fn.toNat ≤ 10) && (f.size == 2 || (f.size == 3 && f.fn.toNat != 10))
  | .ufe f => decide (f.fn.toNat ≤ 4) && f.size == 3 && (f.fn.toNat != 4 || loadOrder f.order)
  | .vld f => f.ldOk
  | .vst f => f.stOk
  | .vldk f => f.ok
  | .vatom f => f.ok
  | .vfe f => f.ok
  | .vxlane f => codeOk false f.n && (f.kv || f.k == 0)
  | .vlanes f => decide (f.fn.toNat ≤ 2) && (f.fn.toNat == 2 || decide (f.d.toNat < 8))
  | .vgrp f => f.ok
  | .vconf f => f.kv || f.k == 0
  | .mmaf8s f => f.sfmt != 3
  | .mmasp form k f => k != 3 && (form != 0 || f.sfmt != 3)
  | _ => true

/-- An instruction of the Value Form or an operation of a slot that the spec allows on its own. -/
def Instr.wf (i : Instr) : Bool :=
  i.shapeOk && i.nativeOk && (i.needs.all fun p => p.2.immOk p.1) && decide (i.opWords ≤ 255)

/-- The same as a proposition. -/
abbrev Instr.WellFormed (i : Instr) : Prop := i.wf = true

end Sys2Proof
end

