-- ==== Sys2Proof/Decode.lean ====
section
/-! DEFINITION. The decoder and the encoder: Value Form words (05_tvf_language_encoding.md R125 to
R134), slot fields of a bundle (14 R292, 15 R307 to R335) and packets (18 R359 to R363). Decoding is
total and names the reason of every refusal; for the Value Form these are the verifier's reason codes
(R136) with the place that R436 reports. -/

namespace Sys2Proof

/-! ## Codes -/

def Ty.code : Ty → BitVec 6
  | .void => 0x00 | .i1 => 0x01 | .i8 => 0x02 | .i16 => 0x03 | .i32 => 0x04 | .i64 => 0x05
  | .f16 => 0x08 | .bf16 => 0x09 | .f32 => 0x0A | .f64 => 0x0B | .e4m3 => 0x0C | .e5m2 => 0x0D
  | .near => 0x10 | .far => 0x11 | .tok => 0x12 | .batch => 0x13 | .tile => 0x20

/-- The type codes of R116; every other code is reserved. -/
def Ty.ofCode (c : BitVec 6) : Option Ty :=
  match c.toNat with
  | 0x00 => some .void | 0x01 => some .i1 | 0x02 => some .i8 | 0x03 => some .i16
  | 0x04 => some .i32 | 0x05 => some .i64 | 0x08 => some .f16 | 0x09 => some .bf16
  | 0x0A => some .f32 | 0x0B => some .f64 | 0x0C => some .e4m3 | 0x0D => some .e5m2
  | 0x10 => some .near | 0x11 => some .far | 0x12 => some .tok | 0x13 => some .batch
  | 0x20 => some .tile | _ => none

def Rnd.code : Rnd → Nat
  | .rn => 0 | .rz => 1 | .up => 2 | .dn => 3 | .sr => 4 | .fmt => 5
def Rnd.ofCode : Nat → Option Rnd
  | 0 => some .rn | 1 => some .rz | 2 => some .up | 3 => some .dn | 4 => some .sr | 5 => some .fmt
  | _ => none

def Order.code : Order → Nat
  | .relaxed => 0 | .acquire => 1 | .release => 2 | .acqRel => 3 | .seqCst => 4
def Order.ofCode : Nat → Option Order
  | 0 => some .relaxed | 1 => some .acquire | 2 => some .release | 3 => some .acqRel
  | 4 => some .seqCst | _ => none

def Elem.code : Elem → Nat
  | .i8 => 0 | .i16 => 1 | .i32 => 2 | .e4m3 => 3 | .e5m2 => 4 | .f16 => 5 | .bf16 => 6 | .f32 => 7
def Elem.ofCode : Nat → Option Elem
  | 0 => some .i8 | 1 => some .i16 | 2 => some .i32 | 3 => some .e4m3 | 4 => some .e5m2
  | 5 => some .f16 | 6 => some .bf16 | 7 => some .f32 | _ => none

def Cond.code : Cond → Nat
  | .eq => 0 | .ne => 1 | .lt => 2 | .le => 3 | .gt => 4 | .ge => 5 | .ord => 6 | .uno => 7
def Cond.ofCode : Nat → Option Cond
  | 0 => some .eq | 1 => some .ne | 2 => some .lt | 3 => some .le | 4 => some .gt | 5 => some .ge
  | 6 => some .ord | 7 => some .uno | _ => none

def XMode.code : XMode → Nat
  | .get => 0 | .mix => 1 | .rise => 2 | .fall => 3
def XMode.ofCode : Nat → Option XMode
  | 0 => some .get | 1 => some .mix | 2 => some .rise | 3 => some .fall | _ => none

def SigCmp.code : SigCmp → Nat
  | .eq => 0 | .ne => 1 | .lt => 2 | .ge => 3
def SigCmp.ofCode : Nat → Option SigCmp
  | 0 => some .eq | 1 => some .ne | 2 => some .lt | 3 => some .ge | _ => none

/-! ## Raw instructions: header fields and operand words (R125 to R128) -/

/-- An operand word with its payload: a value operand, or a symbol of SUB and index. -/
inductive ROpd where
  | op (o : Opd)
  | sym (sub : BitVec 2) (idx : BitVec 24)
  deriving DecidableEq, Repr

structure Raw where
  opc : BitVec 10
  ty : BitVec 6
  uni : Bool
  nres : BitVec 2
  mod : BitVec 8
  ty2 : BitVec 6
  mod2 : BitVec 16
  ops : List ROpd
  deriving DecidableEq, Repr

def ROpd.encode : ROpd → List Word
  | .op (.val n) => [n.zeroExtend 32]
  | .op (.imm v) => [(1 : BitVec 2) ++ v]
  | .op (.long1 lo) => [0x80000001, lo]
  | .op (.long2 lo hi) => [0x80000002, lo, hi]
  | .sym sub idx => [(3 : BitVec 2) ++ sub ++ (0 : BitVec 4) ++ idx]

/-- The operand words that `n` words hold, from operand word `k` on (R128). -/
def parseOps : (n k : Nat) → List Word → Except Bad (List ROpd)
  | 0, _, _ => .ok []
  | _ + 1, _, [] => .error .count
  | n + 1, k, w :: ws =>
    let kind := w.toNat / 2 ^ 30
    if kind = 0 then
      if w.toNat / 2 ^ 24 % 64 = 0 then
        (parseOps n (k + 1) ws).map (.op (.val (w.truncate 24)) :: ·)
      else .error ⟨7, .word k 0⟩
    else if kind = 1 then (parseOps n (k + 1) ws).map (.op (.imm (w.truncate 30)) :: ·)
    else if kind = 2 then
      if w.toNat = 0x80000001 then
        match n, ws with
        | m + 1, lo :: ws' => (parseOps m (k + 2) ws').map (.op (.long1 lo) :: ·)
        | _, _ => .error .count
      else if w.toNat = 0x80000002 then
        match n, ws with
        | m + 2, lo :: hi :: ws' => (parseOps m (k + 3) ws').map (.op (.long2 lo hi) :: ·)
        | _, _ => .error .count
      else .error ⟨7, .word k 0⟩
    else if w.toNat / 2 ^ 24 % 16 = 0 then
      (parseOps n (k + 1) ws).map (.sym (BitVec.ofNat 2 (w.toNat / 2 ^ 28)) (w.truncate 24) :: ·)
    else .error ⟨7, .word k 0⟩

/-- A raw instruction from the words at its start, with the number of words it takes (R125, R126). -/
def parseRaw (ws : List Word) : Except Bad (Raw × Nat) :=
  match ws with
  | [] => .error .count
  | h :: rest =>
    let opc := BitVec.ofNat 10 (h.toNat / 2 ^ 22)
    let ty := BitVec.ofNat 6 (h.toNat / 2 ^ 16)
    let nopnd := h.toNat / 2 ^ 12 % 16
    let uni := h.getLsbD 11
    let nres := BitVec.ofNat 2 (h.toNat / 2 ^ 9)
    let mod := BitVec.ofNat 8 h.toNat
    if h.getLsbD 8 then
      match rest with
      | [] => .error .count
      | e :: rest' =>
        if e.toNat / 2 ^ 16 % 64 = 0 then
          let n := nopnd + 16 * (e.toNat / 2 ^ 28)
          (parseOps n 0 rest').map fun ops =>
            ({ opc, ty, uni, nres, mod, ty2 := BitVec.ofNat 6 (e.toNat / 2 ^ 22),
               mod2 := BitVec.ofNat 16 e.toNat, ops }, 2 + n)
        else .error ⟨8, .hdr2 2⟩
    else
      (parseOps nopnd 0 rest).map fun ops =>
        ({ opc, ty, uni, nres, mod, ty2 := 0, mod2 := 0, ops }, 1 + nopnd)

/-- The words of a raw instruction: a second header word only where it is needed. -/
def Raw.encode (r : Raw) : List Word :=
  let ow := r.ops.flatMap ROpd.encode
  let n := ow.length
  let ext := decide (n > 15) || r.ty2 != 0 || r.mod2 != 0
  let h : Word := BitVec.ofNat 32 (r.opc.toNat * 2 ^ 22 + r.ty.toNat * 2 ^ 16 + n % 16 * 2 ^ 12
    + (if r.uni then 2 ^ 11 else 0) + r.nres.toNat * 2 ^ 9 + (if ext then 2 ^ 8 else 0) + r.mod.toNat)
  let e : Word := BitVec.ofNat 32 (n / 16 * 2 ^ 28 + r.ty2.toNat * 2 ^ 22 + r.mod2.toNat)
  if ext then h :: e :: ow else h :: ow

/-! ## From raw to instructions, shape by shape -/

/-- Fields that hold zero or one fixed value: MOD, NRES, U, TYPE2 and MOD2. -/
def Raw.plain (r : Raw) (nres : Nat) : Except Bad Unit := do
  guardB (r.mod == 0) .modifier
  guardB (r.nres.toNat == nres) .count

def Raw.noExt (r : Raw) : Except Bad Unit := do
  guardB (r.mod2 == 0) .modifier2
  guardB (r.ty2 == 0) .type2

def Raw.noUni (r : Raw) : Except Bad Unit := guardB (!r.uni) .uniform

def Raw.type (r : Raw) : Except Bad Ty :=
  match Ty.ofCode r.ty with
  | some t => .ok t
  | none => .error .type

def Raw.typeIs (r : Raw) (t : Ty) : Except Bad Unit := guardB (r.ty == t.code) .type

/-- The operands when none of them is a symbol. -/
def asOpds : (k : Nat) → List ROpd → Except Bad (List Opd)
  | _, [] => .ok []
  | k, .op o :: rest => (asOpds (k + o.words) rest).map (o :: ·)
  | k, .sym _ _ :: _ => .error ⟨11, .word k 0⟩

def Raw.opds (r : Raw) : Except Bad (List Opd) := asOpds 0 r.ops

def Raw.op1 (r : Raw) (nres : Nat) (f : Op1 → Instr) : Except Bad Instr := do
  r.plain nres
  let t ← r.type
  r.noExt
  match ← r.opds with
  | [a] => .ok (f ⟨t, r.uni, a⟩)
  | _ => .error .count

def Raw.op2 (r : Raw) (nres : Nat) (f : Op2 → Instr) : Except Bad Instr := do
  r.plain nres
  let t ← r.type
  r.noExt
  match ← r.opds with
  | [a, b] => .ok (f ⟨t, r.uni, a, b⟩)
  | _ => .error .count

def Raw.op3 (r : Raw) (nres : Nat) (f : Op3 → Instr) : Except Bad Instr := do
  r.plain nres
  let t ← r.type
  r.noExt
  match ← r.opds with
  | [a, b, c] => .ok (f ⟨t, r.uni, a, b, c⟩)
  | _ => .error .count

def Raw.op4 (r : Raw) (nres : Nat) (f : Op4 → Instr) : Except Bad Instr := do
  r.plain nres
  let t ← r.type
  r.noExt
  match ← r.opds with
  | [a, b, c, d] => .ok (f ⟨t, r.uni, a, b, c, d⟩)
  | _ => .error .count

/-- The rounding class of MOD (R127). -/
def Raw.rnd (r : Raw) : Except Bad Rnd :=
  match Rnd.ofCode r.mod.toNat with
  | some m => .ok m
  | none => .error .modifier

def Raw.fp1 (r : Raw) (f : Fp1 → Instr) : Except Bad Instr := do
  let m ← r.rnd
  guardB (r.nres == 1) .count
  let t ← r.type
  r.noExt
  match ← r.opds with
  | [a] => .ok (f ⟨t, r.uni, m, a⟩)
  | _ => .error .count

def Raw.fp2 (r : Raw) (f : Fp2 → Instr) : Except Bad Instr := do
  let m ← r.rnd
  guardB (r.nres == 1) .count
  let t ← r.type
  r.noExt
  match ← r.opds with
  | [a, b] => .ok (f ⟨t, r.uni, m, a, b⟩)
  | _ => .error .count

def Raw.fp3 (r : Raw) (f : Fp3 → Instr) : Except Bad Instr := do
  let m ← r.rnd
  guardB (r.nres == 1) .count
  let t ← r.type
  r.noExt
  match ← r.opds with
  | [a, b, c] => .ok (f ⟨t, r.uni, m, a, b, c⟩)
  | _ => .error .count

def Raw.cvtOp (r : Raw) : Except Bad Instr := do
  let m ← r.rnd
  guardB (r.nres == 1) .count
  let t ← r.type
  guardB (decide (r.mod2.toNat < 4)) .modifier2
  match Ty.ofCode r.ty2 with
  | none => .error .type2
  | some s =>
    match ← r.opds with
    | [a] => .ok (.cvt ⟨t, r.uni, m, s, r.mod2.getLsbD 1, r.mod2.getLsbD 0, a⟩)
    | _ => .error .count

def Raw.cvtScaledOp (r : Raw) : Except Bad Instr := do
  let m ← r.rnd
  guardB (r.nres == 1) .count
  let t ← r.type
  guardB (r.mod2 == 0) .modifier2
  match Ty.ofCode r.ty2 with
  | none => .error .type2
  | some s =>
    match ← r.opds with
    | [x, sc] => .ok (.cvtScaled ⟨t, r.uni, m, s, x, sc⟩)
    | _ => .error .count

def Raw.packOp (r : Raw) : Except Bad Instr := do
  r.plain 1
  let t ← r.type
  r.noExt
  let xs ← r.opds
  .ok (.pack ⟨t, r.uni, xs⟩)

def Raw.cmpOp (r : Raw) : Except Bad Instr := do
  guardB (decide (r.mod.toNat < 32)) .modifier
  match Cond.ofCode (r.mod.toNat % 16) with
  | none => .error .modifier
  | some c =>
    guardB (r.nres == 1) .count
    let t ← r.type
    r.noExt
    match ← r.opds with
    | [a, b] => .ok (.cmp ⟨t, r.uni, c, r.mod.getLsbD 4, a, b⟩)
    | _ => .error .count

/-- The memory class of MOD: order and scope (R127, R164). -/
def Raw.mem (r : Raw) : Except Bad (Order × BitVec 3) :=
  if r.mod.toNat < 64 then
    match Order.ofCode (r.mod.toNat % 8) with
    | some o => .ok (o, BitVec.ofNat 3 (r.mod.toNat / 8))
    | none => .error .modifier
  else .error .modifier

/-- PAIR in MOD2 (R169). -/
def Raw.pair (r : Raw) : Except Bad Bool := do
  guardB (decide (r.mod2.toNat < 2)) .modifier2
  guardB (r.ty2 == 0) .type2
  .ok (r.mod2 == 1)

def Raw.loadOp (r : Raw) (f : LoadOp → Instr) : Except Bad Instr := do
  let (o, s) ← r.mem
  let t ← r.type
  let pr ← r.pair
  guardB (r.nres.toNat == if pr then 2 else 1) .count
  match ← r.opds with
  | [p] => .ok (f ⟨t, r.uni, o, s, pr, p⟩)
  | _ => .error .count

def Raw.storeOp (r : Raw) (f : StoreOp → Instr) : Except Bad Instr := do
  let (o, s) ← r.mem
  guardB (r.nres == 0) .count
  let t ← r.type
  let pr ← r.pair
  match ← r.opds with
  | [p, v] => if pr then .error .count else .ok (f ⟨t, r.uni, o, s, p, v, none⟩)
  | [p, v, v2] => if pr then .ok (f ⟨t, r.uni, o, s, p, v, some v2⟩) else .error .count
  | _ => .error .count

def Raw.ldConstOp (r : Raw) : Except Bad Instr := do
  r.plain 1
  let t ← r.type
  r.noExt
  match r.ops with
  | .sym sub c :: rest =>
    guardB (sub == 3) ⟨11, .word 0 0⟩
    match ← asOpds 1 rest with
    | [i] => .ok (.ldConst ⟨t, r.uni, c, i⟩)
    | _ => .error .count
  | _ => .error ⟨11, .word 0 0⟩

def Raw.mem1 (r : Raw) (f : MemOp1 → Instr) : Except Bad Instr := do
  let (o, s) ← r.mem
  let t ← r.type
  r.noExt
  match ← r.opds with
  | [p] => .ok (f ⟨t, r.uni, o, s, r.nres, p⟩)
  | _ => .error .count

def Raw.mem2 (r : Raw) (f : MemOp2 → Instr) : Except Bad Instr := do
  let (o, s) ← r.mem
  let t ← r.type
  r.noExt
  match ← r.opds with
  | [p, v] => .ok (f ⟨t, r.uni, o, s, r.nres, p, v⟩)
  | _ => .error .count

def Raw.casOp (r : Raw) : Except Bad Instr := do
  let (o, s) ← r.mem
  let t ← r.type
  r.noExt
  match ← r.opds with
  | [p, e, n] => .ok (.atomCas ⟨t, r.uni, o, s, r.nres, p, e, n⟩)
  | _ => .error .count

def Raw.fenceOp (r : Raw) : Except Bad Instr := do
  let (o, s) ← r.mem
  guardB (r.nres == 0) .count
  guardB r.ops.isEmpty .count
  r.noUni
  r.typeIs .void
  r.noExt
  .ok (.fence ⟨o, s⟩)

/-- A barrier number or a code: a KIND 0b01 immediate. -/
def immOf (k : Nat) : Opd → Except Bad (BitVec 30)
  | .imm v => .ok v
  | _ => .error ⟨12, .word k 0⟩

def Raw.barOp (r : Raw) (t : Ty) : Except Bad (List Opd) := do
  guardB (r.mod == 0) .modifier
  r.noUni
  r.typeIs t
  r.noExt
  r.opds

/-- The kind nibbles of MOD2: 1 to 4 kinds, then 0xF (R183). -/
def kindsOf (m : BitVec 16) : Option (List Nat) :=
  let ns := [m.toNat % 16, m.toNat / 16 % 16, m.toNat / 256 % 16, m.toNat / 4096]
  let ks := ns.takeWhile (· != 15)
  if ks.isEmpty || !(ns.drop ks.length).all (· == 15) || !ks.all (· ≤ 5) then none else some ks

/-- The conditions of the kinds, from their operands (R183). -/
def condsOf : (k : Nat) → List Nat → List Opd → Except Bad (List CondOp × List Opd)
  | _, [], os => .ok ([], os)
  | k, 0 :: ks, t :: os => do
    let (cs, rest) ← condsOf (k + t.words) ks os
    .ok (.token t :: cs, rest)
  | k, 1 :: ks, p :: os => do
    let (cs, rest) ← condsOf (k + p.words) ks os
    .ok (.fullWord p :: cs, rest)
  | k, 2 :: ks, p :: os => do
    let (cs, rest) ← condsOf (k + p.words) ks os
    .ok (.emptyWord p :: cs, rest)
  | k, 3 :: ks, b :: ph :: os => do
    let n ← immOf k b
    let (cs, rest) ← condsOf (k + b.words + ph.words) ks os
    .ok (.barrier n ph :: cs, rest)
  | k, 4 :: ks, m :: os => do
    let (cs, rest) ← condsOf (k + m.words) ks os
    .ok (.matrix m :: cs, rest)
  | k, 5 :: ks, a :: c :: v :: os => do
    let n ← immOf (k + a.words) c
    match SigCmp.ofCode n.toNat with
    | none => .error ⟨12, .word (k + a.words) 0⟩
    | some cmp =>
      let (cs, rest) ← condsOf (k + a.words + c.words + v.words) ks os
      .ok (.sig a cmp v :: cs, rest)
  | _, _, _ => .error .count

def CondOp.kind : CondOp → Nat
  | .token _ => 0 | .fullWord _ => 1 | .emptyWord _ => 2 | .barrier _ _ => 3 | .matrix _ => 4
  | .sig _ _ _ => 5

def CondOp.opds : CondOp → List Opd
  | .token t => [t] | .fullWord p => [p] | .emptyWord p => [p] | .barrier b ph => [.imm b, ph]
  | .matrix m => [m] | .sig a c v => [a, .imm (BitVec.ofNat 30 c.code), v]

/-- MOD2 of a wait: the kinds, then 0xF (R183). -/
def kindBits (cs : List CondOp) : BitVec 16 :=
  match cs.map CondOp.kind with
  | [a] => BitVec.ofNat 16 (0xFFF0 + a)
  | [a, b] => BitVec.ofNat 16 (0xFF00 + 16 * b + a)
  | [a, b, c] => BitVec.ofNat 16 (0xF000 + 256 * c + 16 * b + a)
  | [a, b, c, d] => BitVec.ofNat 16 (4096 * d + 256 * c + 16 * b + a)
  | _ => 0xFFFF

def Raw.waitOp (r : Raw) (f : WaitOp → Instr) : Except Bad Instr := do
  guardB (r.mod == 0) .modifier
  r.noUni
  let t ← r.type
  guardB (if r.nres == 0 then t == .void else t == .i32) .type
  guardB (r.ty2 == 0) .type2
  match kindsOf r.mod2 with
  | none => .error .modifier2
  | some ks =>
    match ← r.opds with
    | [] => .error .count
    | t0 :: os =>
      let (cs, rest) ← condsOf t0.words ks os
      guardB rest.isEmpty .count
      .ok (f ⟨r.nres, t0, cs⟩)

/-- A block target and what stands before the next symbol. -/
structure Seg where
  sub : BitVec 2
  idx : BitVec 24
  args : List Opd
  deriving DecidableEq, Repr

/-- Operand words before the first symbol, and the segments that the symbols open. -/
def segsOf : List ROpd → List Opd × List Seg
  | [] => ([], [])
  | .op o :: rest => let (os, ss) := segsOf rest; (o :: os, ss)
  | .sym sub idx :: rest => let (os, ss) := segsOf rest; ([], ⟨sub, idx, os⟩ :: ss)

def Seg.target (s : Seg) (k : Nat) : Except Bad Target := do
  guardB (s.sub == 0) ⟨11, .word k 0⟩
  .ok ⟨s.idx, s.args⟩

def Raw.yieldOp (r : Raw) : Except Bad Instr := do
  guardB (decide (r.mod.toNat < 2)) .modifier
  guardB (r.nres == 0) .count
  r.noUni
  r.typeIs .void
  guardB (r.ty2 == 0) .type2
  match kindsOf r.mod2 with
  | none => .error .modifier2
  | some ks =>
    match segsOf r.ops with
    | (t0 :: os, [s]) =>
      let (cs, rest) ← condsOf t0.words ks os
      guardB rest.isEmpty .count
      let t ← s.target (opdWords (t0 :: os))
      .ok (.yield ⟨r.mod == 1, t0, cs, t⟩)
    | _ => .error .count

/-- MOD of an engine command (R188, R189). -/
def Raw.flags (r : Raw) : Except Bad EngFlags := do
  let aq := r.mod.getLsbD 7
  let asc := BitVec.ofNat 3 (r.mod.toNat / 16)
  let rl := r.mod.getLsbD 3
  let rsc := BitVec.ofNat 3 r.mod.toNat
  guardB ((aq || asc == 0) && (rl || rsc == 0)) .modifier
  .ok ⟨if aq then some asc else none, if rl then some rsc else none⟩

def EngFlags.bits (f : EngFlags) : BitVec 8 :=
  BitVec.ofNat 8 ((match f.acq with | some s => 128 + 16 * s.toNat | none => 0)
    + (match f.rel with | some s => 8 + s.toNat | none => 0))

/-- The levels above 0 of a pattern: `n` pairs of a count and a stride. -/
def levelsOf : (n : Nat) → List Opd → Option (List (Opd × Opd) × List Opd)
  | 0, os => some ([], os)
  | n + 1, c :: s :: os => (levelsOf n os).map fun p => ((c, s) :: p.1, p.2)
  | _ + 1, _ => none

def patternOf (lev : Nat) : List Opd → Option (Pattern × List Opd)
  | base :: c0 :: os => (levelsOf (lev - 1) os).map fun p => (⟨base, c0, p.1⟩, p.2)
  | _ => none

def Pattern.opds (p : Pattern) : List Opd := p.base :: p.c0 :: p.lv.flatMap fun cs => [cs.1, cs.2]

/-- Fields that every engine command fixes (R188). -/
def Raw.engine (r : Raw) : Except Bad EngFlags := do
  let f ← r.flags
  r.noUni
  r.typeIs .tok
  guardB (r.ty2 == 0) .type2
  .ok f

def Raw.patterns (r : Raw) : Except Bad (Pattern × Pattern) := do
  let sl := r.mod2.toNat % 8
  let dl := r.mod2.toNat / 8 % 8
  guardB (decide (1 ≤ sl ∧ sl ≤ 6) && decide (1 ≤ dl ∧ dl ≤ 6)) .modifier2
  let os ← r.opds
  match patternOf sl os with
  | none => .error .count
  | some (src, rest) =>
    match patternOf dl rest with
    | some (dst, []) => .ok (src, dst)
    | _ => .error .count

def Raw.copyOp (r : Raw) (f : CopyOp → Instr) : Except Bad Instr := do
  let fl ← r.engine
  guardB (decide (r.mod2.toNat < 64)) .modifier2
  let (s, d) ← r.patterns
  .ok (f ⟨r.nres, fl, s, d⟩)

def Raw.reduceOp (r : Raw) : Except Bad Instr := do
  let fl ← r.engine
  guardB (decide (r.mod2.toNat < 4096)) .modifier2
  let (s, d) ← r.patterns
  .ok (.reduceFar ⟨r.nres, fl, BitVec.ofNat 4 (r.mod2.toNat / 64), BitVec.ofNat 2 (r.mod2.toNat / 1024),
    s, d⟩)

def Raw.gatherOp (r : Raw) (f : GatherOp → Instr) : Except Bad Instr := do
  let fl ← r.engine
  guardB (decide (r.mod2.toNat < 2048) && !r.mod2.getLsbD 4) .modifier2
  match ← r.opds with
  | [t, i, n, b] =>
    .ok (f ⟨r.nres, fl, BitVec.ofNat 3 r.mod2.toNat, r.mod2.getLsbD 3,
      BitVec.ofNat 4 (r.mod2.toNat / 32), BitVec.ofNat 2 (r.mod2.toNat / 512), t, i, n, b⟩)
  | _ => .error .count

def Raw.rowsOp (r : Raw) (f : RowsOp → Instr) : Except Bad Instr := do
  let fl ← r.engine
  guardB (decide (r.mod2.toNat < 1024)) .modifier2
  match ← r.opds with
  | [rp, ci, va, xv, first, n, dst, cap] =>
    .ok (f ⟨r.nres, fl, r.mod2.getLsbD 0, r.mod2.getLsbD 1, r.mod2.getLsbD 2, r.mod2.getLsbD 3,
      BitVec.ofNat 3 (r.mod2.toNat / 16), BitVec.ofNat 3 (r.mod2.toNat / 128),
      rp, ci, va, xv, first, n, dst, cap⟩)
  | _ => .error .count

def Raw.isectOp (r : Raw) : Except Bad Instr := do
  let fl ← r.engine
  guardB (decide (r.mod2.toNat < 4)) .modifier2
  match ← r.opds with
  | [a, na, b, nb, out, cap] =>
    .ok (.isect ⟨r.nres, fl, r.mod2.getLsbD 0, r.mod2.getLsbD 1, a, na, b, nb, out, cap⟩)
  | _ => .error .count

def Raw.opd1 (r : Raw) : Except Bad Opd := do
  match ← r.opds with
  | [a] => .ok a
  | _ => .error .count

/-- `lanes.*`, `rdfirst`: MOD zero, one result, no uniform form. -/
def Raw.lane1 (r : Raw) : Except Bad (Ty × Opd) := do
  r.plain 1
  r.noUni
  let t ← r.type
  r.noExt
  let a ← r.opd1
  .ok (t, a)

def Raw.xlaneOp (r : Raw) : Except Bad Instr := do
  match XMode.ofCode r.mod.toNat with
  | none => .error .modifier
  | some m =>
    r.noUni
    let t ← r.type
    r.noExt
    match ← r.opds with
    | [x, n] => .ok (.xlane ⟨t, r.nres, m, x, n⟩)
    | _ => .error .count

def Raw.grpAddOp (r : Raw) : Except Bad Instr := do
  let m ← r.rnd
  guardB (r.nres == 1) .count
  r.noUni
  let t ← r.type
  r.noExt
  let x ← r.opd1
  .ok (.grpAdd ⟨t, m, x⟩)

def Raw.grpMmOp (r : Raw) (f : GrpMinMaxOp → Instr) : Except Bad Instr := do
  guardB (r.mod == 0 || r.mod == 16) .modifier
  guardB (r.nres == 1) .count
  r.noUni
  let t ← r.type
  r.noExt
  let x ← r.opd1
  .ok (f ⟨t, r.mod == 16, x⟩)

def Raw.conflictOp (r : Raw) : Except Bad Instr := do
  guardB (r.mod == 0) .modifier
  r.noUni
  let t ← r.type
  r.noExt
  let k ← r.opd1
  .ok (.conflict ⟨t, r.nres, k⟩)

/-- The first symbol that names no block. -/
def strayAt : (k : Nat) → List ROpd → Option Nat
  | _, [] => none
  | k, .op o :: rest => strayAt (k + o.words) rest
  | k, .sym s _ :: rest => if s == 0 then strayAt (k + 1) rest else some k

/-- Fields of a branch (R202). -/
def Raw.branch (r : Raw) : Except Bad (List Opd × List Seg) := do
  r.plain 0
  r.noUni
  r.typeIs .void
  r.noExt
  match strayAt 0 r.ops with
  | some k => .error ⟨11, .word k 0⟩
  | none => .ok (segsOf r.ops)

def Raw.brOp (r : Raw) : Except Bad Instr := do
  match ← r.branch with
  | ([], [s]) => let t ← s.target 0; .ok (.br t)
  | (_ :: _, _) => .error ⟨11, .word 0 0⟩
  | _ => .error .count

def Raw.brcOp (r : Raw) (f : BrcOp → Instr) : Except Bad Instr := do
  match ← r.branch with
  | ([c], [s1, s2]) =>
    let t ← s1.target c.words
    let e ← s2.target (c.words + 1 + opdWords s1.args)
    .ok (f ⟨c, t, e⟩)
  | ([], _ :: _) => .error ⟨11, .word 0 0⟩
  | (c :: _ :: _, _) => .error ⟨11, .word c.words 0⟩
  | _ => .error .count

/-- The cases of a `switch`: the last operand before each further symbol is its case value (R202). -/
def casesOf : (k : Nat) → Seg → List Seg → Except Bad (Target × List (BitVec 30 × Target))
  | k, s, [] => do let t ← s.target k; .ok (t, [])
  | k, s, s' :: ss =>
    match s.args.getLast? with
    | none => .error ⟨12, .word (k + 1) 0⟩
    | some c => do
      let v ← immOf (k + opdWords s.args) c
      let t ← Seg.target ⟨s.sub, s.idx, s.args.dropLast⟩ k
      let (t', cs) ← casesOf (k + 1 + opdWords s.args) s' ss
      .ok (t, (v, t') :: cs)

def Raw.switchOp (r : Raw) : Except Bad Instr := do
  match ← r.branch with
  | ([v], s :: ss) =>
    let (d, cs) ← casesOf v.words s ss
    .ok (.switch ⟨v, d, cs⟩)
  | ([], _ :: _) => .error ⟨11, .word 0 0⟩
  | (v :: _ :: _, _) => .error ⟨11, .word v.words 0⟩
  | _ => .error .count

/-- A function or helper symbol, then operands. -/
def Raw.symArgs (r : Raw) (sub : BitVec 2) : Except Bad (BitVec 24 × List Opd) :=
  match r.ops with
  | .sym s f :: rest => do
    guardB (s == sub) ⟨11, .word 0 0⟩
    let os ← asOpds 1 rest
    .ok (f, os)
  | .op _ :: _ => .error ⟨11, .word 0 0⟩
  | [] => .error .count

def Raw.callOp (r : Raw) : Except Bad Instr := do
  guardB (r.mod == 0) .modifier
  r.noUni
  let t ← r.type
  r.noExt
  let (f, os) ← r.symArgs 1
  .ok (.call ⟨t, r.nres, f, os⟩)

def Raw.retOp (r : Raw) : Except Bad Instr := do
  r.plain 0
  r.noUni
  r.typeIs .void
  r.noExt
  let os ← r.opds
  .ok (.ret os)

/-- An instruction with no operand, TYPE void and no result. -/
def Raw.nullary (r : Raw) (i : Instr) : Except Bad Instr := do
  r.plain 0
  guardB r.ops.isEmpty .count
  r.noUni
  r.typeIs .void
  r.noExt
  .ok i

def Raw.spawnOp (r : Raw) : Except Bad Instr := do
  guardB (r.mod == 0) .modifier
  r.noUni
  r.typeIs .i32
  r.noExt
  let (f, os) ← r.symArgs 1
  .ok (.spawn ⟨r.nres, f, os⟩)

def Raw.taskpostOp (r : Raw) : Except Bad Instr := do
  guardB (r.mod == 0) .modifier
  r.typeIs .i32
  r.noExt
  match ← r.symArgs 1 with
  | (f, p :: os) => .ok (.taskpost ⟨r.uni, r.nres, f, p, os⟩)
  | _ => .error .count

def Raw.herdArgs (r : Raw) (f : HerdOp → Instr) (m : Rnd) (s : Bool) : Except Bad Instr := do
  r.noUni
  let t ← r.type
  r.noExt
  match ← r.symArgs 2 with
  | (h, lo :: hi :: c :: os) => .ok (f ⟨t, r.nres, m, s, h, lo, hi, c, os⟩)
  | _ => .error .count

def Raw.herdOp (r : Raw) (f : HerdOp → Instr) : Except Bad Instr := do
  guardB (r.mod == 0) .modifier
  r.herdArgs f .rn false

def Raw.herdAddOp (r : Raw) : Except Bad Instr := do
  let m ← r.rnd
  r.herdArgs .herdAdd m false

def Raw.herdMmOp (r : Raw) (f : HerdOp → Instr) : Except Bad Instr := do
  guardB (r.mod == 0 || r.mod == 16) .modifier
  r.herdArgs f .rn (r.mod == 16)

/-- A tile descriptor word (R117), at operand word `k`. -/
def descOf (k : Nat) : ROpd → Except Bad TileDesc
  | .op (.imm w) =>
    if w.toNat / 2 ^ 14 % 2 ^ 12 = 0 then
      match Elem.ofCode (w.toNat / 2 ^ 26) with
      | some e => .ok ⟨e, BitVec.ofNat 7 (w.toNat / 128), BitVec.ofNat 7 w.toNat⟩
      | none => .error ⟨6, .word k 3⟩
    else .error ⟨6, .word k 1⟩
  | _ => .error ⟨6, .word k 3⟩

def TileDesc.word (d : TileDesc) : BitVec 30 :=
  BitVec.ofNat 30 (d.elem.code * 2 ^ 26 + d.colsM1.toNat * 128 + d.rowsM1.toNat)

/-- TYPE tile, its descriptor and the operands after it. -/
def Raw.tile (r : Raw) (nres : Nat) : Except Bad (TileDesc × List Opd) := do
  guardB (r.nres.toNat == nres) .count
  r.noUni
  r.typeIs .tile
  r.noExt
  match r.ops with
  | [] => .error .count
  | d :: rest =>
    let dd ← descOf 0 d
    let os ← asOpds 1 rest
    .ok (dd, os)

def Raw.tr (r : Raw) : Except Bad Bool := do
  guardB (decide (r.mod.toNat < 2)) .modifier
  .ok (r.mod == 1)

def Raw.tileOp (r : Raw) : Except Bad Instr := do
  match r.opc.toNat with
  | 0x260 => do
    guardB (r.mod == 0) .modifier
    match ← r.tile 1 with
    | (d, []) => .ok (.tileZero d)
    | _ => .error .count
  | 0x261 => do
    guardB (r.mod == 0) .modifier
    match ← r.tile 1 with
    | (d, [v]) => .ok (.tileFill ⟨d, v⟩)
    | _ => .error .count
  | 0x262 => do
    let t ← r.tr
    match ← r.tile 1 with
    | (d, [p, ld]) => .ok (.tileLoad ⟨d, t, p, ld⟩)
    | _ => .error .count
  | 0x263 => do
    let t ← r.tr
    match ← r.tile 0 with
    | (d, [p, ld, x]) => .ok (.tileStore ⟨d, t, p, ld, x⟩)
    | _ => .error .count
  | 0x264 => do
    guardB (decide (r.mod.toNat < 32)) .modifier
    match Rnd.ofCode (r.mod.toNat % 8) with
    | none => .error .modifier
    | some m =>
      match ← r.tile 1 with
      | (d, [x]) => .ok (.tileCvt ⟨d, m, r.mod.getLsbD 3, r.mod.getLsbD 4, x⟩)
      | _ => .error .count
  | 0x265 => do
    r.plain 1
    r.noUni
    let t ← r.type
    r.noExt
    match ← r.opds with
    | [x, a, b] => .ok (.tileExtract ⟨t, x, a, b⟩)
    | _ => .error .count
  | _ => do
    guardB (r.mod == 0) .modifier
    match ← r.tile 1 with
    | (d, [x, v, a, b]) => .ok (.tileInsert ⟨d, x, v, a, b⟩)
    | _ => .error .count

def Raw.mmaAny (r : Raw) : Except Bad Instr := do
  match r.opc.toNat with
  | 0x270 => do
    guardB (decide (r.mod.toNat < 4)) .modifier
    match ← r.tile 1 with
    | (d, [a, b, c, sa, sb]) => .ok (.mmaF8s ⟨d, BitVec.ofNat 2 r.mod.toNat, a, b, c, sa, sb⟩)
    | _ => .error .count
  | 0x271 => do
    guardB (r.mod == 0) .modifier
    match ← r.tile 1 with
    | (d, [a, b, c]) => .ok (.mmaBf16 ⟨d, a, b, c⟩)
    | _ => .error .count
  | 0x272 => do
    guardB (r.mod == 0) .modifier
    match ← r.tile 1 with
    | (d, [a, b, c]) => .ok (.mmaF16 ⟨d, a, b, c⟩)
    | _ => .error .count
  | 0x273 => do
    guardB (decide (r.mod.toNat < 4)) .modifier
    match ← r.tile 1 with
    | (d, [a, b, c]) => .ok (.mmaI8 ⟨d, r.mod.getLsbD 0, r.mod.getLsbD 1, a, b, c⟩)
    | _ => .error .count
  | _ => do
    guardB (decide (r.mod.toNat < 64)) .modifier
    let form := BitVec.ofNat 2 r.mod.toNat
    let keep := BitVec.ofNat 2 (r.mod.toNat / 4)
    let s2 := BitVec.ofNat 2 (r.mod.toNat / 16)
    match ← r.tile 1 with
    | (d, [a, b, m, c]) => .ok (.mmaSp ⟨d, form, keep, s2, a, b, m, c, none⟩)
    | (d, [a, b, m, c, sa, sb]) => .ok (.mmaSp ⟨d, form, keep, s2, a, b, m, c, some (sa, sb)⟩)
    | _ => .error .count

def Raw.codeOp (r : Raw) (f : BitVec 30 → Instr) : Except Bad Instr := do
  r.plain 0
  r.noUni
  r.typeIs .void
  r.noExt
  let a ← r.opd1
  let c ← immOf 0 a
  .ok (f c)


def Raw.barArriveOp (r : Raw) : Except Bad Instr := do
  match ← r.barOp .i32 with
  | [b] => let n ← immOf 0 b; .ok (.barArrive r.nres n)
  | _ => .error .count

def Raw.barWaitOp (r : Raw) : Except Bad Instr := do
  guardB (r.nres == 0) .count
  match ← r.barOp .void with
  | [b, ph] => let n ← immOf 0 b; .ok (.barWait n ph)
  | _ => .error .count

def Raw.barSyncOp (r : Raw) : Except Bad Instr := do
  guardB (r.nres == 0) .count
  match ← r.barOp .void with
  | [b] => let n ← immOf 0 b; .ok (.barSync n)
  | _ => .error .count

def Raw.tokTestOp (r : Raw) : Except Bad Instr := do
  r.plain 1
  r.typeIs .i1
  r.noExt
  let t ← r.opd1
  .ok (.tokTest r.uni t)

def Raw.lanesOp (r : Raw) (ty : Ty) (f : Opd → Instr) : Except Bad Instr := do
  let (t, p) ← r.lane1
  guardB (t == ty) .type
  .ok (f p)

def Raw.rdfirstOp (r : Raw) : Except Bad Instr := do
  let (t, x) ← r.lane1
  .ok (.rdfirst t x)

def Raw.mfenceOp (r : Raw) : Except Bad Instr := do
  r.plain 1
  guardB r.ops.isEmpty .count
  r.noUni
  r.typeIs .batch
  r.noExt
  .ok .mfence

def Raw.mwaitOp (r : Raw) : Except Bad Instr := do
  r.plain 0
  r.noUni
  r.typeIs .void
  r.noExt
  let m ← r.opd1
  .ok (.mwait m)

def Raw.setfmtOp (r : Raw) : Except Bad Instr := do
  guardB (decide (r.mod.toNat < 16)) .modifier
  guardB (r.nres == 0) .count
  r.noUni
  r.typeIs .void
  r.noExt
  let v ← r.opd1
  .ok (.setfmt ⟨BitVec.ofNat 4 r.mod.toNat, v⟩)

def Raw.rngSeedOp (r : Raw) : Except Bad Instr := do
  r.plain 0
  r.noUni
  r.typeIs .void
  r.noExt
  let v ← r.opd1
  .ok (.rngSeed v)

def Raw.idOp (r : Raw) : Except Bad Instr := do
  guardB (decide (r.mod.toNat ≤ 9)) .modifier
  guardB (r.nres == 1) .count
  guardB r.ops.isEmpty .count
  let t ← r.type
  r.noExt
  .ok (.id ⟨t, r.uni, r.mod⟩)

/-- `getfmt` and `clock`. -/
def Raw.timeOp (r : Raw) (ty : Ty) (f : Bool → Instr) : Except Bad Instr := do
  r.plain 1
  guardB r.ops.isEmpty .count
  r.typeIs ty
  r.noExt
  .ok (f r.uni)

/-- The opcode map (R134): an opcode that it does not list is refused with OPCODE. -/
def ofRaw (r : Raw) : Except Bad Instr :=
  match r.opc.toNat with
  | 0x000 => r.op2 1 .add
  | 0x001 => r.op2 1 .sub
  | 0x002 => r.op2 1 .mul
  | 0x003 => r.op2 1 .mulHiS
  | 0x004 => r.op2 1 .mulHiU
  | 0x005 => r.op3 1 .mad
  | 0x006 => r.op2 1 .divS
  | 0x007 => r.op2 1 .divU
  | 0x008 => r.op2 1 .remS
  | 0x009 => r.op2 1 .remU
  | 0x00A => r.op2 1 .addSatS
  | 0x00B => r.op2 1 .addSatU
  | 0x00C => r.op2 1 .subSatS
  | 0x00D => r.op2 1 .subSatU
  | 0x00E => r.op2 2 .addCc
  | 0x00F => r.op3 2 .addc
  | 0x010 => r.op2 2 .subCc
  | 0x011 => r.op3 2 .subc
  | 0x012 => r.op2 1 .minS
  | 0x013 => r.op2 1 .minU
  | 0x014 => r.op2 1 .maxS
  | 0x015 => r.op2 1 .maxU
  | 0x016 => r.op2 1 .and
  | 0x017 => r.op2 1 .or
  | 0x018 => r.op2 1 .xor
  | 0x019 => r.op1 1 .not
  | 0x01A => r.op2 1 .shl
  | 0x01B => r.op2 1 .shrU
  | 0x01C => r.op2 1 .shrS
  | 0x01D => r.op2 1 .rotl
  | 0x01E => r.op2 1 .rotr
  | 0x01F => r.op1 1 .clz
  | 0x020 => r.op1 1 .ctz
  | 0x021 => r.op1 1 .popc
  | 0x022 => r.op1 1 .brev
  | 0x023 => r.op3 1 .bfeU
  | 0x024 => r.op3 1 .bfeS
  | 0x025 => r.op4 1 .bfi
  | 0x026 => r.op1 1 .sext
  | 0x027 => r.op1 1 .zext
  | 0x028 => r.op1 1 .trunc
  | 0x029 => r.op1 1 .neg
  | 0x02A => r.op1 1 .abs
  | 0x02B => r.op2 1 .nadd
  | 0x02C => r.op3 1 .nidx
  | 0x02D => r.op2 1 .nmake
  | 0x02E => r.op1 2 .nsplit
  | 0x02F => r.op1 1 .const
  | 0x040 => r.fp2 .fadd
  | 0x041 => r.fp2 .fsub
  | 0x042 => r.fp2 .fmul
  | 0x043 => r.fp3 .fma
  | 0x044 => r.fp2 .fdiv
  | 0x045 => r.fp1 .fsqrt
  | 0x046 => r.fp1 .frcp
  | 0x047 => r.fp1 .frsq
  | 0x048 => r.fp1 .exp2
  | 0x049 => r.fp1 .log2
  | 0x04A => r.op2 1 .fmin
  | 0x04B => r.op2 1 .fmax
  | 0x04C => r.op1 1 .fabs
  | 0x04D => r.op1 1 .fneg
  | 0x04E => r.op2 1 .fcopysign
  | 0x04F => r.fp1 .frint
  | 0x050 => r.fp2 .faddX2
  | 0x051 => r.fp2 .fsubX2
  | 0x052 => r.fp2 .fmulX2
  | 0x053 => r.fp3 .fmaX2
  | 0x054 => r.op2 1 .fminX2
  | 0x055 => r.op2 1 .fmaxX2
  | 0x056 => r.op1 1 .fabsX2
  | 0x057 => r.op1 1 .fnegX2
  | 0x080 => r.cvtOp
  | 0x081 => r.cvtScaledOp
  | 0x082 => r.packOp
  | 0x083 => r.op2 1 .unpack
  | 0x084 => r.op1 1 .bitcast
  | 0x0A0 => r.cmpOp
  | 0x0A1 => r.op2 1 .fclass
  | 0x0A2 => r.op3 1 .sel
  | 0x0A3 => r.op2 1 .pand
  | 0x0A4 => r.op2 1 .por
  | 0x0A5 => r.op2 1 .pxor
  | 0x0A6 => r.op1 1 .pnot
  | 0x0C0 => r.loadOp .ldNear
  | 0x0C1 => r.storeOp .stNear
  | 0x0C2 => r.loadOp .ldLocal
  | 0x0C3 => r.storeOp .stLocal
  | 0x0C4 => r.ldConstOp
  | 0x100 => r.mem2 .atomAdd
  | 0x101 => r.mem2 .atomMinS
  | 0x102 => r.mem2 .atomMinU
  | 0x103 => r.mem2 .atomMaxS
  | 0x104 => r.mem2 .atomMaxU
  | 0x105 => r.mem2 .atomAnd
  | 0x106 => r.mem2 .atomOr
  | 0x107 => r.mem2 .atomXor
  | 0x108 => r.mem2 .atomSwap
  | 0x109 => r.casOp
  | 0x10A => r.mem2 .atomFadd
  | 0x110 => r.mem1 .feLd
  | 0x111 => r.mem2 .feSt
  | 0x112 => r.mem1 .feTryld
  | 0x113 => r.mem2 .feTryst
  | 0x114 => r.mem1 .fePeek
  | 0x140 => r.fenceOp
  | 0x141 => r.barArriveOp
  | 0x142 => r.barWaitOp
  | 0x143 => r.barSyncOp
  | 0x144 => r.waitOp .waitAny
  | 0x145 => r.waitOp .waitAll
  | 0x146 => r.yieldOp
  | 0x180 => r.copyOp .copyIn
  | 0x181 => r.copyOp .copyOut
  | 0x182 => r.copyOp .copyNear
  | 0x183 => r.gatherOp .gather
  | 0x184 => r.gatherOp .scatter
  | 0x185 => r.rowsOp .csrRows
  | 0x186 => r.rowsOp .bsrBlocks
  | 0x187 => r.isectOp
  | 0x188 => r.reduceOp
  | 0x189 => r.tokTestOp
  | 0x1C0 => r.xlaneOp
  | 0x1C4 => r.lanesOp .i1 .lanesAny
  | 0x1C5 => r.lanesOp .i1 .lanesAll
  | 0x1C6 => r.lanesOp .i64 .lanesMask
  | 0x1C7 => r.rdfirstOp
  | 0x1C8 => r.grpAddOp
  | 0x1C9 => r.grpMmOp .grpMin
  | 0x1CA => r.grpMmOp .grpMax
  | 0x1CB => r.conflictOp
  | 0x200 => r.brOp
  | 0x201 => r.brcOp .brc
  | 0x202 => r.brcOp .brU
  | 0x203 => r.switchOp
  | 0x204 => r.callOp
  | 0x205 => r.retOp
  | 0x206 => r.nullary .exit
  | 0x208 => r.spawnOp
  | 0x209 => r.taskpostOp
  | 0x20A => r.nullary .depTrigger
  | 0x240 => r.herdOp .herd
  | 0x241 => r.herdAddOp
  | 0x242 => r.herdMmOp .herdMin
  | 0x243 => r.herdMmOp .herdMax
  | 0x244 => r.herdOp .herdOr
  | 0x260 => r.tileOp
  | 0x261 => r.tileOp
  | 0x262 => r.tileOp
  | 0x263 => r.tileOp
  | 0x264 => r.tileOp
  | 0x265 => r.tileOp
  | 0x266 => r.tileOp
  | 0x270 => r.mmaAny
  | 0x271 => r.mmaAny
  | 0x272 => r.mmaAny
  | 0x273 => r.mmaAny
  | 0x274 => r.mmaAny
  | 0x27E => r.mfenceOp
  | 0x27F => r.mwaitOp
  | 0x2A0 => r.setfmtOp
  | 0x2A1 => r.timeOp .i32 .getfmt
  | 0x2A2 => r.rngSeedOp
  | 0x2A3 => r.idOp
  | 0x2A4 => r.timeOp .i64 .clock
  | 0x2A5 => r.codeOp .trap
  | 0x2A6 => r.codeOp .brk
  | 0x2A7 => r.codeOp .mark
  | _ => .error .opcode

/-- The opcode of an instruction of the Value Form (R134); none for the rest. -/
def Instr.opc : Instr → Option (BitVec 10)
  | .add _ => some 0x000
  | .sub _ => some 0x001
  | .mul _ => some 0x002
  | .mulHiS _ => some 0x003
  | .mulHiU _ => some 0x004
  | .mad _ => some 0x005
  | .divS _ => some 0x006
  | .divU _ => some 0x007
  | .remS _ => some 0x008
  | .remU _ => some 0x009
  | .addSatS _ => some 0x00A
  | .addSatU _ => some 0x00B
  | .subSatS _ => some 0x00C
  | .subSatU _ => some 0x00D
  | .addCc _ => some 0x00E
  | .addc _ => some 0x00F
  | .subCc _ => some 0x010
  | .subc _ => some 0x011
  | .minS _ => some 0x012
  | .minU _ => some 0x013
  | .maxS _ => some 0x014
  | .maxU _ => some 0x015
  | .and _ => some 0x016
  | .or _ => some 0x017
  | .xor _ => some 0x018
  | .not _ => some 0x019
  | .shl _ => some 0x01A
  | .shrU _ => some 0x01B
  | .shrS _ => some 0x01C
  | .rotl _ => some 0x01D
  | .rotr _ => some 0x01E
  | .clz _ => some 0x01F
  | .ctz _ => some 0x020
  | .popc _ => some 0x021
  | .brev _ => some 0x022
  | .bfeU _ => some 0x023
  | .bfeS _ => some 0x024
  | .bfi _ => some 0x025
  | .sext _ => some 0x026
  | .zext _ => some 0x027
  | .trunc _ => some 0x028
  | .neg _ => some 0x029
  | .abs _ => some 0x02A
  | .nadd _ => some 0x02B
  | .nidx _ => some 0x02C
  | .nmake _ => some 0x02D
  | .nsplit _ => some 0x02E
  | .const _ => some 0x02F
  | .fadd _ => some 0x040
  | .fsub _ => some 0x041
  | .fmul _ => some 0x042
  | .fma _ => some 0x043
  | .fdiv _ => some 0x044
  | .fsqrt _ => some 0x045
  | .frcp _ => some 0x046
  | .frsq _ => some 0x047
  | .exp2 _ => some 0x048
  | .log2 _ => some 0x049
  | .fmin _ => some 0x04A
  | .fmax _ => some 0x04B
  | .fabs _ => some 0x04C
  | .fneg _ => some 0x04D
  | .fcopysign _ => some 0x04E
  | .frint _ => some 0x04F
  | .faddX2 _ => some 0x050
  | .fsubX2 _ => some 0x051
  | .fmulX2 _ => some 0x052
  | .fmaX2 _ => some 0x053
  | .fminX2 _ => some 0x054
  | .fmaxX2 _ => some 0x055
  | .fabsX2 _ => some 0x056
  | .fnegX2 _ => some 0x057
  | .cvt _ => some 0x080
  | .cvtScaled _ => some 0x081
  | .pack _ => some 0x082
  | .unpack _ => some 0x083
  | .bitcast _ => some 0x084
  | .cmp _ => some 0x0A0
  | .fclass _ => some 0x0A1
  | .sel _ => some 0x0A2
  | .pand _ => some 0x0A3
  | .por _ => some 0x0A4
  | .pxor _ => some 0x0A5
  | .pnot _ => some 0x0A6
  | .ldNear _ => some 0x0C0
  | .stNear _ => some 0x0C1
  | .ldLocal _ => some 0x0C2
  | .stLocal _ => some 0x0C3
  | .ldConst _ => some 0x0C4
  | .atomAdd _ => some 0x100
  | .atomMinS _ => some 0x101
  | .atomMinU _ => some 0x102
  | .atomMaxS _ => some 0x103
  | .atomMaxU _ => some 0x104
  | .atomAnd _ => some 0x105
  | .atomOr _ => some 0x106
  | .atomXor _ => some 0x107
  | .atomSwap _ => some 0x108
  | .atomCas _ => some 0x109
  | .atomFadd _ => some 0x10A
  | .feLd _ => some 0x110
  | .feSt _ => some 0x111
  | .feTryld _ => some 0x112
  | .feTryst _ => some 0x113
  | .fePeek _ => some 0x114
  | .fence _ => some 0x140
  | .barArrive _ _ => some 0x141
  | .barWait _ _ => some 0x142
  | .barSync _ => some 0x143
  | .waitAny _ => some 0x144
  | .waitAll _ => some 0x145
  | .yield _ => some 0x146
  | .copyIn _ => some 0x180
  | .copyOut _ => some 0x181
  | .copyNear _ => some 0x182
  | .gather _ => some 0x183
  | .scatter _ => some 0x184
  | .csrRows _ => some 0x185
  | .bsrBlocks _ => some 0x186
  | .isect _ => some 0x187
  | .reduceFar _ => some 0x188
  | .tokTest _ _ => some 0x189
  | .xlane _ => some 0x1C0
  | .lanesAny _ => some 0x1C4
  | .lanesAll _ => some 0x1C5
  | .lanesMask _ => some 0x1C6
  | .rdfirst _ _ => some 0x1C7
  | .grpAdd _ => some 0x1C8
  | .grpMin _ => some 0x1C9
  | .grpMax _ => some 0x1CA
  | .conflict _ => some 0x1CB
  | .br _ => some 0x200
  | .brc _ => some 0x201
  | .brU _ => some 0x202
  | .switch _ => some 0x203
  | .call _ => some 0x204
  | .ret _ => some 0x205
  | .exit => some 0x206
  | .spawn _ => some 0x208
  | .taskpost _ => some 0x209
  | .depTrigger => some 0x20A
  | .herd _ => some 0x240
  | .herdAdd _ => some 0x241
  | .herdMin _ => some 0x242
  | .herdMax _ => some 0x243
  | .herdOr _ => some 0x244
  | .tileZero _ => some 0x260
  | .tileFill _ => some 0x261
  | .tileLoad _ => some 0x262
  | .tileStore _ => some 0x263
  | .tileCvt _ => some 0x264
  | .tileExtract _ => some 0x265
  | .tileInsert _ => some 0x266
  | .mmaF8s _ => some 0x270
  | .mmaBf16 _ => some 0x271
  | .mmaF16 _ => some 0x272
  | .mmaI8 _ => some 0x273
  | .mmaSp _ => some 0x274
  | .mfence => some 0x27E
  | .mwait _ => some 0x27F
  | .setfmt _ => some 0x2A0
  | .getfmt _ => some 0x2A1
  | .rngSeed _ => some 0x2A2
  | .id _ => some 0x2A3
  | .clock _ => some 0x2A4
  | .trap _ => some 0x2A5
  | .brk _ => some 0x2A6
  | .mark _ => some 0x2A7
  | _ => none

/-! ## The encoder -/

def Target.enc (t : Target) : List ROpd := .sym 0 t.blk :: t.args.map .op

/-- The tile descriptor that follows the header (R117, R125). -/
def Instr.desc : Instr → Option TileDesc
  | .tileZero d => some d
  | .tileFill o => some o.d
  | .tileLoad o => some o.d
  | .tileStore o => some o.d
  | .tileCvt o => some o.d
  | .tileInsert o => some o.d
  | .mmaF8s o => some o.d
  | .mmaBf16 o | .mmaF16 o => some o.d
  | .mmaI8 o => some o.d
  | .mmaSp o => some o.d
  | _ => none

/-- The operand words in encoding order. -/
def Instr.encOps (i : Instr) : List ROpd :=
  let ns := i.needs.map fun p => ROpd.op p.1
  match i with
  | .ldConst o => .sym 3 o.c :: ns
  | .br t => t.enc
  | .brc o | .brU o => .op o.c :: (o.t.enc ++ o.f.enc)
  | .switch o => .op o.v :: (o.dflt.enc ++ o.cases.flatMap fun c => .op (.imm c.1) :: c.2.enc)
  | .yield o => ns ++ o.cont.enc
  | .call o => .sym 1 o.fn :: o.args.map .op
  | .ret args => args.map .op
  | .spawn o => .sym 1 o.fn :: o.args.map .op
  | .taskpost o => .sym 1 o.fn :: .op o.p :: o.args.map .op
  | .herd o | .herdAdd o | .herdMin o | .herdMax o | .herdOr o => .sym 2 o.h :: (ns ++ o.caps.map .op)
  | _ =>
    match i.desc with
    | some d => .op (.imm d.word) :: ns
    | none => ns

/-- TYPE (R125). -/
def Instr.encTy : Instr → Ty
  | .add o | .sub o | .mul o | .mulHiS o | .mulHiU o | .divS o | .divU o | .remS o | .remU o
  | .addSatS o | .addSatU o | .subSatS o | .subSatU o | .addCc o | .subCc o | .minS o | .minU o
  | .maxS o | .maxU o | .and o | .or o | .xor o | .shl o | .shrU o | .shrS o | .rotl o | .rotr o
  | .nadd o | .nmake o | .fmin o | .fmax o | .fcopysign o | .fminX2 o | .fmaxX2 o | .unpack o
  | .fclass o | .pand o | .por o | .pxor o => o.ty
  | .mad o | .addc o | .subc o | .bfeU o | .bfeS o | .nidx o | .sel o => o.ty
  | .not o | .clz o | .ctz o | .popc o | .brev o | .neg o | .abs o | .sext o | .zext o | .trunc o
  | .nsplit o | .const o | .fabs o | .fneg o | .fabsX2 o | .fnegX2 o | .bitcast o | .pnot o => o.ty
  | .bfi o => o.ty
  | .fadd o | .fsub o | .fmul o | .fdiv o | .faddX2 o | .fsubX2 o | .fmulX2 o => o.ty
  | .fma o | .fmaX2 o => o.ty
  | .fsqrt o | .frcp o | .frsq o | .exp2 o | .log2 o | .frint o => o.ty
  | .cvt o => o.ty
  | .cvtScaled o => o.ty
  | .pack o => o.ty
  | .cmp o => o.ty
  | .ldNear o | .ldLocal o => o.ty
  | .stNear o | .stLocal o => o.ty
  | .ldConst o => o.ty
  | .atomAdd o | .atomMinS o | .atomMinU o | .atomMaxS o | .atomMaxU o | .atomAnd o | .atomOr o
  | .atomXor o | .atomSwap o | .atomFadd o | .feSt o | .feTryst o => o.ty
  | .atomCas o => o.ty
  | .feLd o | .feTryld o | .fePeek o => o.ty
  | .barArrive _ _ => .i32
  | .waitAny o | .waitAll o => if o.nres == 0 then .void else .i32
  | .copyIn _ | .copyOut _ | .copyNear _ | .gather _ | .scatter _ | .csrRows _ | .bsrBlocks _
  | .isect _ | .reduceFar _ => .tok
  | .tokTest _ _ => .i1
  | .xlane o => o.ty
  | .lanesAny _ | .lanesAll _ => .i1
  | .lanesMask _ => .i64
  | .rdfirst ty _ => ty
  | .grpAdd o => o.ty
  | .grpMin o | .grpMax o => o.ty
  | .conflict o => o.ty
  | .call o => o.ty
  | .spawn _ | .taskpost _ => .i32
  | .herd o | .herdAdd o | .herdMin o | .herdMax o | .herdOr o => o.ty
  | .tileZero _ | .tileFill _ | .tileLoad _ | .tileStore _ | .tileCvt _ | .tileInsert _ => .tile
  | .tileExtract o => o.ty
  | .mmaF8s _ | .mmaBf16 _ | .mmaF16 _ | .mmaI8 _ | .mmaSp _ => .tile
  | .mfence => .batch
  | .getfmt _ => .i32
  | .clock _ => .i64
  | .id o => o.ty
  | _ => .void

/-- U (R125). -/
def Instr.encUni : Instr → Bool
  | .add o | .sub o | .mul o | .mulHiS o | .mulHiU o | .divS o | .divU o | .remS o | .remU o
  | .addSatS o | .addSatU o | .subSatS o | .subSatU o | .addCc o | .subCc o | .minS o | .minU o
  | .maxS o | .maxU o | .and o | .or o | .xor o | .shl o | .shrU o | .shrS o | .rotl o | .rotr o
  | .nadd o | .nmake o | .fmin o | .fmax o | .fcopysign o | .fminX2 o | .fmaxX2 o | .unpack o
  | .fclass o | .pand o | .por o | .pxor o => o.uni
  | .mad o | .addc o | .subc o | .bfeU o | .bfeS o | .nidx o | .sel o => o.uni
  | .not o | .clz o | .ctz o | .popc o | .brev o | .neg o | .abs o | .sext o | .zext o | .trunc o
  | .nsplit o | .const o | .fabs o | .fneg o | .fabsX2 o | .fnegX2 o | .bitcast o | .pnot o => o.uni
  | .bfi o => o.uni
  | .fadd o | .fsub o | .fmul o | .fdiv o | .faddX2 o | .fsubX2 o | .fmulX2 o => o.uni
  | .fma o | .fmaX2 o => o.uni
  | .fsqrt o | .frcp o | .frsq o | .exp2 o | .log2 o | .frint o => o.uni
  | .cvt o => o.uni
  | .cvtScaled o => o.uni
  | .pack o => o.uni
  | .cmp o => o.uni
  | .ldNear o | .ldLocal o => o.uni
  | .stNear o | .stLocal o => o.uni
  | .ldConst o => o.uni
  | .atomAdd o | .atomMinS o | .atomMinU o | .atomMaxS o | .atomMaxU o | .atomAnd o | .atomOr o
  | .atomXor o | .atomSwap o | .atomFadd o | .feSt o | .feTryst o => o.uni
  | .atomCas o => o.uni
  | .feLd o | .feTryld o | .fePeek o => o.uni
  | .tokTest u _ | .getfmt u | .clock u => u
  | .taskpost o => o.uni
  | .id o => o.uni
  | _ => false

/-- NRES (R130). -/
def Instr.encNres : Instr → BitVec 2
  | .addCc _ | .addc _ | .subCc _ | .subc _ | .nsplit _ => 2
  | .ldNear o | .ldLocal o => if o.pair then 2 else 1
  | .stNear _ | .stLocal _ | .fence _ | .barWait _ _ | .barSync _ | .yield _ | .br _ | .brc _
  | .brU _ | .switch _ | .ret _ | .exit | .depTrigger | .tileStore _ | .mwait _ | .setfmt _
  | .rngSeed _ | .trap _ | .brk _ | .mark _ => 0
  | .atomAdd o | .atomMinS o | .atomMinU o | .atomMaxS o | .atomMaxU o | .atomAnd o | .atomOr o
  | .atomXor o | .atomSwap o | .atomFadd o | .feSt o | .feTryst o => o.nres
  | .atomCas o => o.nres
  | .feLd o | .feTryld o | .fePeek o => o.nres
  | .barArrive n _ => n
  | .waitAny o | .waitAll o => o.nres
  | .copyIn o | .copyOut o | .copyNear o => o.nres
  | .reduceFar o => o.nres
  | .gather o | .scatter o => o.nres
  | .csrRows o | .bsrBlocks o => o.nres
  | .isect o => o.nres
  | .xlane o => o.nres
  | .conflict o => o.nres
  | .call o => o.nres
  | .spawn o => o.nres
  | .taskpost o => o.nres
  | .herd o | .herdAdd o | .herdMin o | .herdMax o | .herdOr o => o.nres
  | _ => 1

def memMod (o : Order) (s : BitVec 3) : BitVec 8 := BitVec.ofNat 8 (o.code + 8 * s.toNat)
def rndMod (m : Rnd) : BitVec 8 := BitVec.ofNat 8 m.code

/-- MOD (R127). -/
def Instr.encMod : Instr → BitVec 8
  | .fadd o | .fsub o | .fmul o | .fdiv o | .faddX2 o | .fsubX2 o | .fmulX2 o => rndMod o.rnd
  | .fma o | .fmaX2 o => rndMod o.rnd
  | .fsqrt o | .frcp o | .frsq o | .exp2 o | .log2 o | .frint o => rndMod o.rnd
  | .cvt o => rndMod o.rnd
  | .cvtScaled o => rndMod o.rnd
  | .cmp o => BitVec.ofNat 8 (o.cond.code + if o.signed then 16 else 0)
  | .ldNear o | .ldLocal o => memMod o.order o.scope
  | .stNear o | .stLocal o => memMod o.order o.scope
  | .atomAdd o | .atomMinS o | .atomMinU o | .atomMaxS o | .atomMaxU o | .atomAnd o | .atomOr o
  | .atomXor o | .atomSwap o | .atomFadd o | .feSt o | .feTryst o => memMod o.order o.scope
  | .atomCas o => memMod o.order o.scope
  | .feLd o | .feTryld o | .fePeek o => memMod o.order o.scope
  | .fence o => memMod o.order o.scope
  | .yield o => if o.all then 1 else 0
  | .copyIn o | .copyOut o | .copyNear o => o.fl.bits
  | .reduceFar o => o.fl.bits
  | .gather o | .scatter o => o.fl.bits
  | .csrRows o | .bsrBlocks o => o.fl.bits
  | .isect o => o.fl.bits
  | .xlane o => BitVec.ofNat 8 o.mode.code
  | .grpAdd o => rndMod o.rnd
  | .grpMin o | .grpMax o => if o.signed then 16 else 0
  | .herdAdd o => rndMod o.rnd
  | .herdMin o | .herdMax o => if o.signed then 16 else 0
  | .tileLoad o => if o.tr then 1 else 0
  | .tileStore o => if o.tr then 1 else 0
  | .tileCvt o => BitVec.ofNat 8 (o.rnd.code + (if o.ss then 8 else 0) + if o.ds then 16 else 0)
  | .mmaF8s o => o.sfmt.zeroExtend 8
  | .mmaI8 o => BitVec.ofNat 8 ((if o.sa then 1 else 0) + if o.sb then 2 else 0)
  | .mmaSp o => BitVec.ofNat 8 (o.form.toNat + 4 * o.keep.toNat + 16 * o.s2.toNat)
  | .setfmt o => o.mask.zeroExtend 8
  | .id o => o.idx
  | _ => 0

/-- TYPE2 and MOD2 (R126). -/
def Instr.encExt : Instr → BitVec 6 × BitVec 16
  | .cvt o => (o.src.code, BitVec.ofNat 16 ((if o.ss then 1 else 0) + if o.ds then 2 else 0))
  | .cvtScaled o => (o.src.code, 0)
  | .ldNear o | .ldLocal o => (0, if o.pair then 1 else 0)
  | .stNear o | .stLocal o => (0, if o.v2.isSome then 1 else 0)
  | .waitAny o | .waitAll o => (0, kindBits o.conds)
  | .yield o => (0, kindBits o.conds)
  | .copyIn o | .copyOut o | .copyNear o =>
    (0, BitVec.ofNat 16 (o.src.lv.length + 1 + 8 * (o.dst.lv.length + 1)))
  | .reduceFar o => (0, BitVec.ofNat 16 (o.src.lv.length + 1 + 8 * (o.dst.lv.length + 1)
      + 64 * o.combine.toNat + 1024 * o.elem.toNat))
  | .gather o | .scatter o => (0, BitVec.ofNat 16 (o.esz.toNat + (if o.idx64 then 8 else 0)
      + 32 * o.combine.toNat + 512 * o.elem.toNat))
  | .csrRows o | .bsrBlocks o => (0, BitVec.ofNat 16 ((if o.esz8 then 1 else 0)
      + (if o.rp64 then 2 else 0) + (if o.gath then 4 else 0) + (if o.cols then 8 else 0)
      + 16 * o.brc.toNat + 128 * o.bcc.toNat))
  | .isect o => (0, BitVec.ofNat 16 ((if o.key64 then 1 else 0) + if o.signed then 2 else 0))
  | _ => (0, 0)

/-- The raw form of an instruction of the Value Form. -/
def Instr.toRaw (i : Instr) : Option Raw :=
  i.opc.map fun c =>
    { opc := c, ty := i.encTy.code, uni := i.encUni, nres := i.encNres, mod := i.encMod,
      ty2 := i.encExt.1, mod2 := i.encExt.2, ops := i.encOps }

/-- The words of an instruction of the Value Form; none for an operation or event. -/
def Instr.words (i : Instr) : List Word :=
  match i.toRaw with
  | some r => r.encode
  | none => []

/-- The instruction that stands at the start of a list of words, and the number of its words. -/
def decodeWords (ws : List Word) : Except Bad (Instr × Nat) := do
  let (r, n) ← parseRaw ws
  let i ← ofRaw r
  guardB i.wf ⟨12, .hdr 0⟩
  .ok (i, n)

/-! ## Bundle Form slot fields (R292, R310 to R328) -/

/-- Bits `[h:l]` of a slot field as a bit vector. -/
def fld (x h l : Nat) : BitVec (h + 1 - l) := BitVec.ofNat _ (x >>> l)

/-- Refuse a slot field by name: NATIVE_ILLEGAL (R293, R337). -/
inductive SlotBad where
  | reservedOpcode | reservedField
  deriving DecidableEq, Repr

/-- Keep an operation whose zero fields are zero and whose subfields are legal. -/
def keep (zero : Bool) (i : Instr) : Except SlotBad Instr :=
  if zero && i.nativeOk then .ok i else .error .reservedField

/-- A VA field (R310, R312) in slot VA0 or VA1 with the broadcast register aimed at it. -/
def decodeVa (va1 : Bool) (bc : Option (BitVec 6)) (w : BitVec 40) : Except SlotBad Instr :=
  let x := w.toNat
  let f : Va := { va1, bc, ty := fld x 34 32, cl := fld x 31 30, d := fld x 29 23, a := fld x 22 15,
                  b := fld x 14 7, x := fld x 6 0 }
  match bitsOf x 39 35 with
  | 0x00 => if x = 0 then .ok .tbfNop else .error .reservedField
  | 0x01 => keep true (.iadd f) | 0x02 => keep true (.imul f) | 0x03 => keep true (.imad f)
  | 0x04 => keep true (.idiv f) | 0x05 => keep true (.isat f) | 0x06 => keep true (.icc f)
  | 0x07 => keep true (.icci f) | 0x08 => keep true (.iminmax f) | 0x09 => keep true (.ilogic f)
  | 0x0A => keep true (.ishift f) | 0x0B => keep true (.iunary f) | 0x0C => keep true (.ibfe f)
  | 0x0D => keep true (.ibfc f) | 0x0E => keep true (.ibfi f) | 0x0F => keep true (.iext f)
  | 0x10 => keep true (.nadr f) | 0x11 => keep true (.tbfNidx f) | 0x12 => keep true (.icmp f)
  | 0x13 => keep true (.tbfSel f) | 0x14 => keep true (.mov f) | 0x15 => keep true (.tbfFadd f)
  | 0x16 => keep true (.tbfFmul f) | 0x17 => keep true (.fmarn f) | 0x18 => keep true (.fmarz f)
  | 0x19 => keep true (.fmaup f) | 0x1A => keep true (.fmadn f) | 0x1B => keep true (.fmaf f)
  | 0x1C => keep true (.fspec f) | 0x1D => keep true (.tbfFdiv f) | 0x1E => keep true (.fmisc f)
  | 0x1F => keep true (.fcmp f) | _ => .error .reservedOpcode

/-- A US field (R314). -/
def decodeUs (w : BitVec 40) : Except SlotBad Instr :=
  let x := w.toNat
  let op := bitsOf x 39 32
  let f : Us := { d := fld x 31 26, a := fld x 25 20, b := fld x 19 14, x := fld x 13 0 }
  let noA := bitsOf x 25 20 == 0
  let noB := bitsOf x 19 14 == 0
  let noD := bitsOf x 31 26 == 0
  let m (o : Order) : Umem :=
    { d := fld x 31 26, a := fld x 25 20, b := fld x 19 14, size := fld x 13 11, order := o,
      scope := fld x 7 5, loc := bitOf x 4, fn := fld x 3 0 }
  let mem (g : Umem → Instr) (z : Bool) : Except SlotBad Instr :=
    match Order.ofCode (bitsOf x 10 8) with
    | some o => keep z (g (m o))
    | none => .error .reservedField
  match op with
  | 0x00 => if x = 0 then .ok .tbfNop else .error .reservedField
  | 0x40 => keep (decide (bitsOf x 13 2 = 0)) (.unadr f)
  | 0x41 => keep (decide (bitsOf x 13 6 = 0)) (.unidx f)
  | 0x42 => keep true (.ucmp f)
  | 0x43 => keep (decide (bitsOf x 13 7 = 0)) (.usel f)
  | 0x44 => keep (noB && decide (bitsOf x 13 1 = 0)) (.umov f)
  | 0x45 => keep true (.umovi (fld x 31 26) (fld x 25 0))
  | 0x46 => keep (decide (bitsOf x 25 21 = 0)) (.uldk (fld x 31 26) (bitOf x 20) (fld x 19 0))
  | 0x47 => keep (noA && noB) (.uid f)
  | 0x48 => keep (noA && noB && f.x == 0) (.uclock f)
  | 0x49 => keep (noA && noB && f.x == 0) (.ugetfmt f)
  | 0x4A => keep (noD && noB) (.usetfmt f)
  | 0x4B => keep (noD && noB && f.x == 0) (.urseed f)
  | 0x4C => keep (noD && noA && noB && decide (bitsOf x 13 13 = 0)) (.ucvset f)
  | 0x4D => keep (decide (bitsOf x 27 18 = 0))
      (.tshape (fld x 31 28) (fld x 17 14) (fld x 13 7) (fld x 6 0))
  | 0x4E => keep (decide (bitsOf x 13 2 = 0) && decide (bitsOf x 31 29 = 0)
      && decide (bitsOf x 25 23 = 0) && decide (bitsOf x 19 17 = 0)) (.plogic f)
  | 0x4F => keep (noB && decide (bitsOf x 13 1 = 0) && decide (bitsOf x 31 29 = 0)) (.kfroms f)
  | 0x50 => keep (noB && f.x == 0 && decide (bitsOf x 25 23 = 0)) (.stok f)
  | 0x51 => mem .uld true
  | 0x52 => mem .ust true
  | 0x53 => mem .uatom true
  | 0x54 => mem .ufe true
  | 0x55 => keep (decide (bitsOf x 25 14 = 0)) (.uspill (fld x 31 26) (bitOf x 13) (fld x 12 0))
  | 0x56 => keep (decide (bitsOf x 25 14 = 0)) (.ufill (fld x 31 26) (bitOf x 13) (fld x 12 0))
  | 0x57 => keep (noB && f.x == 0) (.utokt f)
  | 0x58 => keep (noA && noB) (.ubar f)
  | 0x59 => keep (decide (bitsOf x 31 0 = 0)) .utrig
  | 0x5A => keep (decide (bitsOf x 31 16 = 0)) (.umark (fld x 15 0))
  | 0x5B => keep (decide (bitsOf x 25 0 = 0)) (.tbfMfence (fld x 31 26))
  | op => if 4 ≤ op ∧ op < 0x40 then keep true (.usInteger (BitVec.ofNat 4 (op / 4)) (BitVec.ofNat 2 op) f)
          else .error .reservedOpcode

/-! What stands in the slots whose operations come late in the table; `toInstr` gives the operation. -/

/-- An operation of the CV slot (R316). -/
inductive CvOp where
  | nop
  | cvt (f : CvF) | cvts (f : CvF) | tcvt (td ts : BitVec 4)
  deriving DecidableEq, Repr

/-- An operation of the EN slot (R327). -/
inductive EnOp where
  | nop
  | copyIn (f : EnF) | copyOut (f : EnF) | copyNear (f : EnF) | gather (f : EnF) | scatter (f : EnF)
  | csrRows (f : EnF) | bsrBlocks (f : EnF) | isect (f : EnF) | reduceFar (f : EnF)
  deriving DecidableEq, Repr

/-- An operation of the BR slot (R328). -/
inductive BrOp where
  | nop
  | jmp (tgt : BitVec 15) | ubr (k : BitVec 3) (tgt : BitVec 15) | dset (rpc : BitVec 15)
  | dbr (k : BitVec 3) (tgt : BitVec 15) | join (rpc : BitVec 15) | joinp (rpc : BitVec 15)
  | call | ret | loop (s : BitVec 6) | lend (tgt : BitVec 15) | exit | trap (brk : Bool) (code : BitVec 16)
  | yield (s : BitVec 6) | waitc (s : BitVec 6) | spawn (s : BitVec 6) | tpost (s : BitVec 6)
  | herd (s : BitVec 6) | hjoin
  deriving DecidableEq, Repr

/-- An operation of the VM slot (R317 to R325). -/
inductive VmOp where
  | nop
  | vld (f : Vmem) | vst (f : Vmem) | vldk (f : Vldk) | vatom (f : Vatom) | vfe (f : Vfe)
  | vspill (f : Vspill) | vfill (f : Vspill) | xmv (f : XmvF) | vtos (f : VtosF)
  | vxlane (f : VxlaneF) | vlanes (f : VlanesF) | vgrp (f : VgrpF) | vconf (f : VconfF)
  | tld (f : TmemF) | tst (f : TmemF) | tzero (tn : BitVec 4) | tfill (tn : BitVec 4) (s : BitVec 6)
  | text (f : TelemF) | tins (f : TelemF) | tcopy (td ts : BitVec 4)
  | mmaf8s (f : TmmaF) | mmabf16 (f : TmmaF) | mmaf16 (f : TmmaF) | mmai8 (f : TmmaF)
  | mmasp (form keep : BitVec 2) (f : TmmaF)
  deriving DecidableEq, Repr

/-- Legality of a VM operation taken alone (R337). -/
def VmOp.ok : VmOp → Bool
  | .vld f => f.ldOk
  | .vst f => f.stOk
  | .vldk f => f.ok
  | .vatom f => f.ok
  | .vfe f => f.ok
  | .vxlane f => codeOk false f.n && (f.kv || f.k == 0)
  | .vlanes f => decide (f.fn.toNat ≤ 2) && (f.fn.toNat == 2 || decide (f.d.toNat < 8))
  | .vgrp f => f.ok
  | .vconf f => f.kv || f.k == 0
  | .mmaf8s f => f.sfmt != 3
  | .mmasp form k f => k != 3 && (form != 0 || f.sfmt != 3)
  | _ => true

/-- Keep an operation whose zero fields are zero. -/
def keepOp {α : Type} (zero : Bool) (x : α) : Except SlotBad α :=
  if zero then .ok x else .error .reservedField

def keepVm (zero : Bool) (x : VmOp) : Except SlotBad VmOp := keepOp (zero && x.ok) x

/-- A CV field (R316). -/
def readCv (w : BitVec 24) : Except SlotBad CvOp :=
  let x := w.toNat
  let f : CvF := { cl := fld x 17 16, d := fld x 15 9, a := fld x 8 2 }
  match bitsOf x 23 18 with
  | 0x00 => if x = 0 then .ok .nop else .error .reservedField
  | 0x01 => keepOp (decide (bitsOf x 1 0 = 0)) (.cvt f)
  | 0x02 => keepOp (decide (bitsOf x 1 0 = 0)) (.cvts f)
  | 0x03 => keepOp (decide (bitsOf x 9 0 = 0)) (.tcvt (fld x 17 14) (fld x 13 10))
  | _ => .error .reservedOpcode

/-- An EN field (R327). -/
def readEn (w : BitVec 24) : Except SlotBad EnOp :=
  let x := w.toNat
  let f : EnF := { base := fld x 17 12, cn := fld x 11 8, mod := fld x 7 0 }
  match bitsOf x 23 18 with
  | 0x00 => if x = 0 then .ok .nop else .error .reservedField
  | 0x01 => keepOp true (.copyIn f) | 0x02 => keepOp true (.copyOut f)
  | 0x03 => keepOp true (.copyNear f) | 0x04 => keepOp true (.gather f)
  | 0x05 => keepOp true (.scatter f) | 0x06 => keepOp true (.csrRows f)
  | 0x07 => keepOp true (.bsrBlocks f) | 0x08 => keepOp true (.isect f)
  | 0x09 => keepOp true (.reduceFar f) | _ => .error .reservedOpcode

/-- A BR field (R328). -/
def readBr (w : BitVec 24) : Except SlotBad BrOp :=
  let x := w.toNat
  let tgt : BitVec 15 := fld x 14 0
  let k : BitVec 3 := fld x 17 15
  let s : BitVec 6 := fld x 17 12
  let low := bitsOf x 17 0 == 0
  let sOnly := bitsOf x 11 0 == 0
  match bitsOf x 23 18 with
  | 0x00 => if x = 0 then .ok .nop else .error .reservedField
  | 0x01 => keepOp (k == 0) (.jmp tgt)
  | 0x02 => keepOp true (.ubr k tgt)
  | 0x03 => keepOp (k == 0) (.dset tgt)
  | 0x04 => keepOp true (.dbr k tgt)
  | 0x05 => keepOp (k == 0) (.join tgt)
  | 0x06 => keepOp (k == 0) (.joinp tgt)
  | 0x07 => keepOp low .call
  | 0x08 => keepOp low .ret
  | 0x09 => keepOp sOnly (.loop s)
  | 0x0A => keepOp (k == 0) (.lend tgt)
  | 0x0B => keepOp low .exit
  | 0x0C => keepOp (!bitOf x 17) (.trap (bitOf x 16) (fld x 15 0))
  | 0x0D => keepOp sOnly (.yield s)
  | 0x0E => keepOp sOnly (.waitc s)
  | 0x0F => keepOp sOnly (.spawn s)
  | 0x10 => keepOp sOnly (.tpost s)
  | 0x11 => keepOp sOnly (.herd s)
  | 0x12 => keepOp low .hjoin
  | _ => .error .reservedOpcode

/-- A VM field (R317 to R325). -/
def readVm (bc : Option (BitVec 6)) (w : BitVec 40) : Except SlotBad VmOp :=
  let x := w.toNat
  let op := bitsOf x 39 32
  let cl : BitVec 2 := fld x 31 30
  let d : BitVec 7 := fld x 29 23
  let zero (h l : Nat) : Bool := bitsOf x h l == 0
  let vm (o : Order) : Vmem :=
    { bc, cl, dv := d, ad := fld x 22 15, size := fld x 14 12, order := o, scope := fld x 8 6,
      loc := bitOf x 5 }
  let t : TmmaF := { ta := fld x 31 28, tb := fld x 27 24, tm := fld x 23 20, tc := fld x 19 16,
                     td := fld x 15 12, ts := fld x 11 8, sb := fld x 7 2, sfmt := fld x 1 0 }
  let withOrder (c : Nat) (g : Order → Except SlotBad VmOp) : Except SlotBad VmOp :=
    match Order.ofCode c with
    | some o => g o
    | none => .error .reservedField
  match op with
  | 0x00 => if x = 0 then .ok .nop else .error .reservedField
  | 0x01 => withOrder (bitsOf x 11 9) fun o => keepVm (zero 4 0) (.vld (vm o))
  | 0x02 => withOrder (bitsOf x 11 9) fun o => keepVm (zero 4 0) (.vst (vm o))
  | 0x03 => keepVm true (.vldk { bc, cl, dv := d, ad := fld x 22 15, size := fld x 14 12, k := fld x 11 0 })
  | 0x28 => keepVm (zero 8 0) (.vspill { cl, d, slot := fld x 22 10, w64 := bitOf x 9 })
  | 0x29 => keepVm (zero 8 0) (.vfill { cl, d, slot := fld x 22 10, w64 := bitOf x 9 })
  | 0x2A => keepVm (zero 12 0) (.xmv { cl, d, scl := fld x 22 21, src := fld x 20 14, w64 := bitOf x 13 })
  | 0x2B => keepVm (zero 15 0) (.vtos { cl, src := d, s := fld x 22 17, w64 := bitOf x 16 })
  | 0x30 =>
    match XMode.ofCode (bitsOf x 3 2) with
    | some m => keepVm (zero 0 0) (.vxlane
        { bc := bc, cl := cl, d := d, x := fld x 22 16, n := fld x 15 8, kv := bitOf x 7,
          k := fld x 6 4, mode := m, w64 := bitOf x 1 })
    | none => .error .reservedField
  | 0x31 => keepVm (zero 17 0) (.vlanes { cl, d, k := fld x 22 20, fn := fld x 19 18 })
  | 0x32 => keepVm (zero 6 0) (.vgrp
        { cl, d, x := fld x 22 16, fn := fld x 15 14, ty := fld x 13 11, signed := bitOf x 10,
          rnd := fld x 9 7 })
  | 0x33 => keepVm (zero 9 0) (.vconf
        { cl, d, key := fld x 22 16, kv := bitOf x 15, k := fld x 14 12, wc := fld x 11 10 })
  | 0x38 => keepVm (zero 14 0) (.tld { tn := fld x 31 28, a := fld x 27 22, pitch := fld x 21 16, tr := bitOf x 15 })
  | 0x39 => keepVm (zero 14 0) (.tst { tn := fld x 31 28, a := fld x 27 22, pitch := fld x 21 16, tr := bitOf x 15 })
  | 0x3A => keepVm (zero 27 0) (.tzero (fld x 31 28))
  | 0x3B => keepVm (zero 21 0) (.tfill (fld x 31 28) (fld x 27 22))
  | 0x3C => keepVm (zero 4 0) (.text
        { tn := fld x 31 28, cl := fld x 27 26, d := fld x 25 19, r := fld x 18 12,
          c := fld x 11 5 })
  | 0x3D => keepVm (zero 4 0) (.tins
        { tn := fld x 31 28, cl := fld x 27 26, d := fld x 25 19, r := fld x 18 12,
          c := fld x 11 5 })
  | 0x3E => keepVm (zero 23 0) (.tcopy (fld x 31 28) (fld x 27 24))
  | 0x40 => keepVm (t.tm == 0) (.mmaf8s t)
  | 0x41 => keepVm (t.tm == 0 && t.ts == 0 && t.sb == 0 && t.sfmt == 0) (.mmabf16 t)
  | 0x42 => keepVm (t.tm == 0 && t.ts == 0 && t.sb == 0 && t.sfmt == 0) (.mmaf16 t)
  | 0x43 => keepVm (t.tm == 0 && t.ts == 0 && t.sb == 0) (.mmai8 t)
  | op =>
    if 0x10 ≤ op ∧ op ≤ 0x1A then
      withOrder (bitsOf x 7 5) fun o => keepVm (zero 0 0) (.vatom
        { fn := BitVec.ofNat 4 op, cl, d, ap := fld x 22 16, v := fld x 15 9, w64 := bitOf x 8, order := o,
          scope := fld x 4 2, nores := bitOf x 1 })
    else if 0x20 ≤ op ∧ op ≤ 0x24 then
      withOrder (bitsOf x 10 8) fun o => keepVm (zero 4 0) (.vfe
        { bc, fn := BitVec.ofNat 3 op, cl, d, ad := fld x 22 15, kv := bitOf x 14, k := fld x 13 11,
          order := o, scope := fld x 7 5 })
    else if 0x44 ≤ op ∧ op ≤ 0x53 then
      let form : BitVec 2 := BitVec.ofNat 2 ((op - 0x44) / 4)
      let kp : BitVec 2 := BitVec.ofNat 2 ((op - 0x44) % 4)
      keepVm (if form == 0 then true else if form == 3 then t.ts == 0 && t.sb == 0
            else t.ts == 0 && t.sb == 0 && t.sfmt == 0) (.mmasp form kp t)
    else .error .reservedOpcode

/-- The operation of a CV field. -/
noncomputable def CvOp.toInstr : CvOp → Instr
  | .nop => .tbfNop | .cvt f => .cvtOp f | .cvts f => .cvts f | .tcvt a b => .tcvt a b

/-- The operation of an EN field. -/
noncomputable def EnOp.toInstr : EnOp → Instr
  | .nop => .tbfNop
  | .copyIn f => .enCopyIn f | .copyOut f => .enCopyOut f | .copyNear f => .enCopyNear f
  | .gather f => .enGather f | .scatter f => .enScatter f | .csrRows f => .enCsrRows f
  | .bsrBlocks f => .enBsrBlocks f | .isect f => .enIsect f | .reduceFar f => .enReduceFar f

/-- The operation of a BR field. -/
noncomputable def BrOp.toInstr : BrOp → Instr
  | .nop => .tbfNop
  | .jmp t => .jmp t | .ubr k t => .ubr k t | .dset t => .dset t | .dbr k t => .dbr k t
  | .join t => .join t | .joinp t => .joinp t | .call => .tbfCall | .ret => .tbfRet
  | .loop s => .loop s | .lend t => .lend t | .exit => .tbfExit | .trap b c => .tbfTrap b c
  | .yield s => .tbfYield s | .waitc s => .waitc s | .spawn s => .tbfSpawn s | .tpost s => .tpost s
  | .herd s => .tbfHerd s | .hjoin => .hjoin

/-- The operation of a VM field. -/
noncomputable def VmOp.toInstr : VmOp → Instr
  | .nop => .tbfNop
  | .vld f => .vld f | .vst f => .vst f | .vldk f => .vldk f | .vatom f => .vatom f | .vfe f => .vfe f
  | .vspill f => .vspill f | .vfill f => .vfill f | .xmv f => .xmv f | .vtos f => .vtos f
  | .vxlane f => .vxlane f | .vlanes f => .vlanes f | .vgrp f => .vgrp f | .vconf f => .vconf f
  | .tld f => .tld f | .tst f => .tst f | .tzero n => .tzero n | .tfill n s => .tfill n s
  | .text f => .text f | .tins f => .tins f | .tcopy a b => .tcopy a b
  | .mmaf8s f => .mmaf8s f | .mmabf16 f => .mmabf16 f | .mmaf16 f => .mmaf16 f | .mmai8 f => .mmai8 f
  | .mmasp a b f => .mmasp a b f

noncomputable def decodeCv (w : BitVec 24) : Except SlotBad Instr := (readCv w).map CvOp.toInstr
noncomputable def decodeEn (w : BitVec 24) : Except SlotBad Instr := (readEn w).map EnOp.toInstr
noncomputable def decodeBr (w : BitVec 24) : Except SlotBad Instr := (readBr w).map BrOp.toInstr
noncomputable def decodeVm (bc : Option (BitVec 6)) (w : BitVec 40) : Except SlotBad Instr :=
  (readVm bc w).map VmOp.toInstr

/-! ### Slot encoders -/

/-- Fields side by side, highest first: (value, width) pairs. -/
def packBits (fs : List (Nat × Nat)) : Nat := fs.foldl (fun acc f => acc * 2 ^ f.2 + f.1 % 2 ^ f.2) 0

def vaBits (fn : Nat) (f : Va) : Nat :=
  packBits [(fn, 5), (f.ty.toNat, 3), (f.cl.toNat, 2), (f.d.toNat, 7), (f.a.toNat, 8), (f.b.toNat, 8),
    (f.x.toNat, 7)]

/-- The function code of a VA operation (R312). -/
def Instr.vaFn : Instr → Option (Nat × Va)
  | .iadd f => some (0x01, f) | .imul f => some (0x02, f) | .imad f => some (0x03, f)
  | .idiv f => some (0x04, f) | .isat f => some (0x05, f) | .icc f => some (0x06, f)
  | .icci f => some (0x07, f) | .iminmax f => some (0x08, f) | .ilogic f => some (0x09, f)
  | .ishift f => some (0x0A, f) | .iunary f => some (0x0B, f) | .ibfe f => some (0x0C, f)
  | .ibfc f => some (0x0D, f) | .ibfi f => some (0x0E, f) | .iext f => some (0x0F, f)
  | .nadr f => some (0x10, f) | .tbfNidx f => some (0x11, f) | .icmp f => some (0x12, f)
  | .tbfSel f => some (0x13, f) | .mov f => some (0x14, f) | .tbfFadd f => some (0x15, f)
  | .tbfFmul f => some (0x16, f) | .fmarn f => some (0x17, f) | .fmarz f => some (0x18, f)
  | .fmaup f => some (0x19, f) | .fmadn f => some (0x1A, f) | .fmaf f => some (0x1B, f)
  | .fspec f => some (0x1C, f) | .tbfFdiv f => some (0x1D, f) | .fmisc f => some (0x1E, f)
  | .fcmp f => some (0x1F, f) | _ => none

def usBits (op : Nat) (f : Us) : Nat :=
  packBits [(op, 8), (f.d.toNat, 6), (f.a.toNat, 6), (f.b.toNat, 6), (f.x.toNat, 14)]

def umemBits (op : Nat) (f : Umem) : Nat :=
  packBits [(op, 8), (f.d.toNat, 6), (f.a.toNat, 6), (f.b.toNat, 6), (f.size.toNat, 3),
    (f.order.code, 3), (f.scope.toNat, 3), (f.loc.toNat, 1), (f.fn.toNat, 4)]

/-- The field of a US operation (R314). -/
def Instr.usField : Instr → Option (BitVec 40)
  | .usInteger fn ty f => some (BitVec.ofNat 40 (usBits (4 * fn.toNat + ty.toNat) f))
  | .unadr f => some (BitVec.ofNat 40 (usBits 0x40 f))
  | .unidx f => some (BitVec.ofNat 40 (usBits 0x41 f))
  | .ucmp f => some (BitVec.ofNat 40 (usBits 0x42 f))
  | .usel f => some (BitVec.ofNat 40 (usBits 0x43 f))
  | .umov f => some (BitVec.ofNat 40 (usBits 0x44 f))
  | .umovi d v => some (BitVec.ofNat 40 (packBits [(0x45, 8), (d.toNat, 6), (v.toNat, 26)]))
  | .uldk d w k => some (BitVec.ofNat 40 (packBits [(0x46, 8), (d.toNat, 6), (0, 5), (w.toNat, 1),
      (k.toNat, 20)]))
  | .uid f => some (BitVec.ofNat 40 (usBits 0x47 f))
  | .uclock f => some (BitVec.ofNat 40 (usBits 0x48 f))
  | .ugetfmt f => some (BitVec.ofNat 40 (usBits 0x49 f))
  | .usetfmt f => some (BitVec.ofNat 40 (usBits 0x4A f))
  | .urseed f => some (BitVec.ofNat 40 (usBits 0x4B f))
  | .ucvset f => some (BitVec.ofNat 40 (usBits 0x4C f))
  | .tshape tn e c r => some (BitVec.ofNat 40 (packBits [(0x4D, 8), (tn.toNat, 4), (0, 10),
      (e.toNat, 4), (c.toNat, 7), (r.toNat, 7)]))
  | .plogic f => some (BitVec.ofNat 40 (usBits 0x4E f))
  | .kfroms f => some (BitVec.ofNat 40 (usBits 0x4F f))
  | .stok f => some (BitVec.ofNat 40 (usBits 0x50 f))
  | .uld f => some (BitVec.ofNat 40 (umemBits 0x51 f))
  | .ust f => some (BitVec.ofNat 40 (umemBits 0x52 f))
  | .uatom f => some (BitVec.ofNat 40 (umemBits 0x53 f))
  | .ufe f => some (BitVec.ofNat 40 (umemBits 0x54 f))
  | .uspill r w s => some (BitVec.ofNat 40 (packBits [(0x55, 8), (r.toNat, 6), (0, 12), (w.toNat, 1),
      (s.toNat, 13)]))
  | .ufill r w s => some (BitVec.ofNat 40 (packBits [(0x56, 8), (r.toNat, 6), (0, 12), (w.toNat, 1),
      (s.toNat, 13)]))
  | .utokt f => some (BitVec.ofNat 40 (usBits 0x57 f))
  | .ubar f => some (BitVec.ofNat 40 (usBits 0x58 f))
  | .utrig => some (BitVec.ofNat 40 (0x59 * 2 ^ 32))
  | .umark c => some (BitVec.ofNat 40 (0x5A * 2 ^ 32 + c.toNat))
  | .tbfMfence d => some (BitVec.ofNat 40 (packBits [(0x5B, 8), (d.toNat, 6), (0, 26)]))
  | _ => none

/-- The field of a CV operation (R316). -/
def Instr.cvField : Instr → Option (BitVec 24)
  | .cvtOp f => some (BitVec.ofNat 24 (packBits [(1, 6), (f.cl.toNat, 2), (f.d.toNat, 7), (f.a.toNat, 7), (0, 2)]))
  | .cvts f => some (BitVec.ofNat 24 (packBits [(2, 6), (f.cl.toNat, 2), (f.d.toNat, 7), (f.a.toNat, 7), (0, 2)]))
  | .tcvt td ts => some (BitVec.ofNat 24 (packBits [(3, 6), (td.toNat, 4), (ts.toNat, 4), (0, 10)]))
  | _ => none

def enBits (op : Nat) (f : EnF) : BitVec 24 :=
  BitVec.ofNat 24 (packBits [(op, 6), (f.base.toNat, 6), (f.cn.toNat, 4), (f.mod.toNat, 8)])

/-- The field of an EN operation (R327). -/
def Instr.enField : Instr → Option (BitVec 24)
  | .enCopyIn f => some (enBits 1 f) | .enCopyOut f => some (enBits 2 f)
  | .enCopyNear f => some (enBits 3 f) | .enGather f => some (enBits 4 f)
  | .enScatter f => some (enBits 5 f) | .enCsrRows f => some (enBits 6 f)
  | .enBsrBlocks f => some (enBits 7 f) | .enIsect f => some (enBits 8 f)
  | .enReduceFar f => some (enBits 9 f) | _ => none

def brBits (op : Nat) (hi : Nat) (tgt : Nat) : BitVec 24 := BitVec.ofNat 24 (packBits [(op, 6), (hi, 3), (tgt, 15)])
def brBase (op : Nat) (s : BitVec 6) : BitVec 24 := BitVec.ofNat 24 (packBits [(op, 6), (s.toNat, 6), (0, 12)])

/-- The field of a BR operation (R328). -/
def Instr.brField : Instr → Option (BitVec 24)
  | .jmp t => some (brBits 1 0 t.toNat) | .ubr k t => some (brBits 2 k.toNat t.toNat)
  | .dset t => some (brBits 3 0 t.toNat) | .dbr k t => some (brBits 4 k.toNat t.toNat)
  | .join t => some (brBits 5 0 t.toNat) | .joinp t => some (brBits 6 0 t.toNat)
  | .tbfCall => some (brBits 7 0 0) | .tbfRet => some (brBits 8 0 0)
  | .loop s => some (brBase 9 s) | .lend t => some (brBits 10 0 t.toNat)
  | .tbfExit => some (brBits 11 0 0)
  | .tbfTrap b c => some (BitVec.ofNat 24 (packBits [(12, 6), (0, 1), (b.toNat, 1), (c.toNat, 16)]))
  | .tbfYield s => some (brBase 13 s) | .waitc s => some (brBase 14 s)
  | .tbfSpawn s => some (brBase 15 s) | .tpost s => some (brBase 16 s)
  | .tbfHerd s => some (brBase 17 s) | .hjoin => some (brBits 18 0 0) | _ => none

def tmmaBits (op : Nat) (t : TmmaF) : Nat :=
  packBits [(op, 8), (t.ta.toNat, 4), (t.tb.toNat, 4), (t.tm.toNat, 4), (t.tc.toNat, 4), (t.td.toNat, 4),
    (t.ts.toNat, 4), (t.sb.toNat, 6), (t.sfmt.toNat, 2)]

def vmemBits (op : Nat) (f : Vmem) : Nat :=
  packBits [(op, 8), (f.cl.toNat, 2), (f.dv.toNat, 7), (f.ad.toNat, 8), (f.size.toNat, 3),
    (f.order.code, 3), (f.scope.toNat, 3), (f.loc.toNat, 1), (0, 5)]

def vspillBits (op : Nat) (f : Vspill) : Nat :=
  packBits [(op, 8), (f.cl.toNat, 2), (f.d.toNat, 7), (f.slot.toNat, 13), (f.w64.toNat, 1), (0, 9)]

def tmemBits (op : Nat) (f : TmemF) : Nat :=
  packBits [(op, 8), (f.tn.toNat, 4), (f.a.toNat, 6), (f.pitch.toNat, 6), (f.tr.toNat, 1), (0, 15)]

def telemBits (op : Nat) (f : TelemF) : Nat :=
  packBits [(op, 8), (f.tn.toNat, 4), (f.cl.toNat, 2), (f.d.toNat, 7), (f.r.toNat, 7), (f.c.toNat, 7), (0, 5)]

/-- The field of a VM operation (R317 to R325). -/
def Instr.vmField : Instr → Option (BitVec 40)
  | .vld f => some (BitVec.ofNat 40 (vmemBits 1 f))
  | .vst f => some (BitVec.ofNat 40 (vmemBits 2 f))
  | .vldk f => some (BitVec.ofNat 40 (packBits [(3, 8), (f.cl.toNat, 2), (f.dv.toNat, 7), (f.ad.toNat, 8),
      (f.size.toNat, 3), (f.k.toNat, 12)]))
  | .vatom f => some (BitVec.ofNat 40 (packBits [(0x10 + f.fn.toNat, 8), (f.cl.toNat, 2), (f.d.toNat, 7),
      (f.ap.toNat, 7), (f.v.toNat, 7), (f.w64.toNat, 1), (f.order.code, 3), (f.scope.toNat, 3),
      (f.nores.toNat, 1), (0, 1)]))
  | .vfe f => some (BitVec.ofNat 40 (packBits [(0x20 + f.fn.toNat, 8), (f.cl.toNat, 2), (f.d.toNat, 7),
      (f.ad.toNat, 8), (f.kv.toNat, 1), (f.k.toNat, 3), (f.order.code, 3), (f.scope.toNat, 3), (0, 5)]))
  | .vspill f => some (BitVec.ofNat 40 (vspillBits 0x28 f))
  | .vfill f => some (BitVec.ofNat 40 (vspillBits 0x29 f))
  | .xmv f => some (BitVec.ofNat 40 (packBits [(0x2A, 8), (f.cl.toNat, 2), (f.d.toNat, 7), (f.scl.toNat, 2),
      (f.src.toNat, 7), (f.w64.toNat, 1), (0, 13)]))
  | .vtos f => some (BitVec.ofNat 40 (packBits [(0x2B, 8), (f.cl.toNat, 2), (f.src.toNat, 7), (f.s.toNat, 6),
      (f.w64.toNat, 1), (0, 16)]))
  | .vxlane f => some (BitVec.ofNat 40 (packBits [(0x30, 8), (f.cl.toNat, 2), (f.d.toNat, 7), (f.x.toNat, 7),
      (f.n.toNat, 8), (f.kv.toNat, 1), (f.k.toNat, 3), (f.mode.code, 2), (f.w64.toNat, 1), (0, 1)]))
  | .vlanes f => some (BitVec.ofNat 40 (packBits [(0x31, 8), (f.cl.toNat, 2), (f.d.toNat, 7), (f.k.toNat, 3),
      (f.fn.toNat, 2), (0, 18)]))
  | .vgrp f => some (BitVec.ofNat 40 (packBits [(0x32, 8), (f.cl.toNat, 2), (f.d.toNat, 7), (f.x.toNat, 7),
      (f.fn.toNat, 2), (f.ty.toNat, 3), (f.signed.toNat, 1), (f.rnd.toNat, 3), (0, 7)]))
  | .vconf f => some (BitVec.ofNat 40 (packBits [(0x33, 8), (f.cl.toNat, 2), (f.d.toNat, 7), (f.key.toNat, 7),
      (f.kv.toNat, 1), (f.k.toNat, 3), (f.wc.toNat, 2), (0, 10)]))
  | .tld f => some (BitVec.ofNat 40 (tmemBits 0x38 f))
  | .tst f => some (BitVec.ofNat 40 (tmemBits 0x39 f))
  | .tzero tn => some (BitVec.ofNat 40 (packBits [(0x3A, 8), (tn.toNat, 4), (0, 28)]))
  | .tfill tn s => some (BitVec.ofNat 40 (packBits [(0x3B, 8), (tn.toNat, 4), (s.toNat, 6), (0, 22)]))
  | .text f => some (BitVec.ofNat 40 (telemBits 0x3C f))
  | .tins f => some (BitVec.ofNat 40 (telemBits 0x3D f))
  | .tcopy td ts => some (BitVec.ofNat 40 (packBits [(0x3E, 8), (td.toNat, 4), (ts.toNat, 4), (0, 24)]))
  | .mmaf8s t => some (BitVec.ofNat 40 (tmmaBits 0x40 t))
  | .mmabf16 t => some (BitVec.ofNat 40 (tmmaBits 0x41 t))
  | .mmaf16 t => some (BitVec.ofNat 40 (tmmaBits 0x42 t))
  | .mmai8 t => some (BitVec.ofNat 40 (tmmaBits 0x43 t))
  | .mmasp form k t => some (BitVec.ofNat 40 (tmmaBits (0x44 + 4 * form.toNat + k.toNat) t))
  | _ => none

/-- The field of a VA operation (R310). -/
def Instr.vaField (i : Instr) : Option (BitVec 40) :=
  i.vaFn.map fun p => BitVec.ofNat 40 (vaBits p.1 p.2)

/-! ## Bundles and clause headers (R290, R292, R297) -/

/-- A bundle taken apart: the operations of its slots and its header bits. -/
structure Bundle where
  br : Instr
  us : Instr
  va0 : Instr
  va1 : Instr
  vm : Instr
  cv : Instr
  en : Instr
  stage : Nat
  iterBoundary : Bool
  marker : Bool
  drain : Bool
  /-- the broadcast port -/
  sreg : BitVec 6
  target : Nat
  deriving DecidableEq, Repr

/-- The number that 8 words make, low word first. -/
def wordsNat (ws : List Word) : Nat := ws.foldr (fun w acc => w.toNat + acc * 2 ^ 32) 0

/-- A bundle with its slots as they are read. -/
structure RawBundle where
  br : BrOp
  us : Instr
  va0 : Instr
  va1 : Instr
  vm : VmOp
  cv : CvOp
  en : EnOp
  stage : Nat
  iterBoundary : Bool
  marker : Bool
  drain : Bool
  sreg : BitVec 6
  target : Nat
  deriving DecidableEq, Repr

/-- A bundle from its 256 bits (R292, R293, R297). -/
def readBundle (x : Nat) : Except SlotBad RawBundle := do
  let tgt := bitsOf x 249 248
  let sreg : BitVec 6 := fld x 255 250
  if bitsOf x 15 6 ≠ 0 then .error .reservedField
  if tgt = 0 ∧ sreg ≠ 0 then .error .reservedField
  let bc (n : Nat) : Option (BitVec 6) := if tgt = n then some sreg else none
  let br ← readBr (fld x 79 56)
  let us ← decodeUs (fld x 55 16)
  let va0 ← decodeVa false (bc 1) (fld x 119 80)
  let va1 ← decodeVa true (bc 2) (fld x 159 120)
  let vm ← readVm (bc 3) (fld x 199 160)
  let cv ← readCv (fld x 223 200)
  let en ← readEn (fld x 247 224)
  .ok { br, us, va0, va1, vm, cv, en, stage := bitsOf x 5 3, iterBoundary := bitOf x 2,
        marker := bitOf x 1, drain := bitOf x 0, sreg, target := tgt }

noncomputable def RawBundle.toBundle (b : RawBundle) : Bundle :=
  { br := b.br.toInstr, us := b.us, va0 := b.va0, va1 := b.va1, vm := b.vm.toInstr, cv := b.cv.toInstr,
    en := b.en.toInstr, stage := b.stage, iterBoundary := b.iterBoundary, marker := b.marker, drain := b.drain,
    sreg := b.sreg, target := b.target }

noncomputable def decodeBundle (x : Nat) : Except SlotBad Bundle := (readBundle x).map RawBundle.toBundle

/-- A clause header (R290). -/
structure Clause where
  waitMask : Nat
  setf0 : Nat
  setf1 : Nat
  bundles : Nat
  clmode : BitVec 4
  regionEntry : Bool
  regionId : Nat
  sideIndex : Nat
  loopId : Nat
  stagesM1 : Nat
  loopKernel : Bool
  markCycle : Nat
  deriving DecidableEq, Repr

/-- A clause header from its 256 bits (R290, R293). -/
def decodeClause (x : Nat) : Except SlotBad Clause :=
  let s0 := bitsOf x 15 12
  let s1 := bitsOf x 19 16
  if bitsOf x 255 128 ≠ 0 ∨ bitsOf x 95 80 ≠ 0 ∨ bitsOf x 31 29 ≠ 0
      ∨ (12 ≤ s0 ∧ s0 ≤ 14) ∨ (12 ≤ s1 ∧ s1 ≤ 14) ∨ bitOf x 24 = false then
    .error .reservedField
  else
    .ok { waitMask := bitsOf x 11 0, setf0 := s0, setf1 := s1, bundles := bitsOf x 23 20 + 1,
          clmode := fld x 27 24, regionEntry := bitOf x 28, regionId := bitsOf x 47 32,
          sideIndex := bitsOf x 67 48, loopId := bitsOf x 75 68, stagesM1 := bitsOf x 78 76,
          loopKernel := bitOf x 79, markCycle := bitsOf x 127 96 }

/-! ## Packets (R359 to R363, R390, R393) -/

/-- The number a list of bytes makes, byte 0 lowest (R7). -/
def bytesNat (bs : List Byte) : Nat := bs.foldr (fun b acc => b.toNat + acc * 256) 0

/-- The `n` bytes of a number, byte 0 lowest (R7). -/
def natBytes : (n x : Nat) → List Byte
  | 0, _ => []
  | n + 1, x => BitVec.ofNat 8 x :: natBytes n (x / 256)

/-- What a packet is, or why it completes with FORMAT; the header is given in either case. -/
inductive PktRead where
  | ok (i : Instr)
  | format
  deriving DecidableEq, Repr

/-- Header of a packet: trailer and completion area (R359, R360). -/
def pktHdr (q : QRef) (n x : Nat) : PktHdr :=
  { q, n, cls := fld x 2031 2028, acq := fld x 2027 2026, rel := fld x 2025 2024,
    sigOp := fld x 1985 1984, sigVal := fld x 1983 1920, sigAddr := fld x 1919 1856,
    statAddr := fld x 1855 1792 }

/-- The class that a packet type fits (R369). -/
def classFits (ty cls : Nat) : Bool :=
  if ty = 2 then cls == 2 else if ty = 0x0A then cls == 3 else cls == 0 || cls == 1 || cls == 3

/-- A packet of 256 bytes, read as the number of its bits (R361). -/
def decodePacket (q : QRef) (n x : Nat) : PktRead :=
  let h := pktHdr q n x
  let ty := bitsOf x 2039 2032
  let z (hi lo : Nat) : Bool := bitsOf x hi lo == 0
  let body (ok : Bool) (i : Instr) : PktRead := if ok then .ok i else .format
  let f64 (lo : Nat) : BitVec 64 := BitVec.ofNat 64 (x >>> lo)
  let byte (k : Nat) : Nat := bitsOf x (8 * k + 7) (8 * k)
  let bytes (from_ len : Nat) : List Byte := natBytes len (x >>> (8 * from_))
  if z 2023 2016 && z 2015 1986 && bitsOf x 1985 1984 != 3 && classFits ty (bitsOf x 2031 2028)
      && bitsOf x 1858 1856 == 0 && bitsOf x 1794 1792 == 0 then
    let none_ := z 1791 0
    match ty with
    | 0x00 => body none_ (.nop h)
    | 0x01 | 0x02 =>
      let b : LaunchBody :=
        { producer := fld x 607 576, resultBytes := f64 512, resultAddr := f64 448,
          placeCount := fld x 415 384, placeAddr := f64 320, seed := f64 256, teams := fld x 223 192,
          hashResult := bitOf x 178, helpersOff := bitOf x 177, checked := bitOf x 176,
          kernel := fld x 175 160, argBytes := fld x 159 128, args := f64 64, code := f64 0 }
      let ok := z 1791 608 && z 447 416 && z 255 224 && z 191 179 && b.teams != 0
        && decide (1 ≤ b.placeCount.toNat ∧ b.placeCount.toNat ≤ 65536)
        && bitsOf x 322 320 == 0 && bitsOf x 66 64 == 0 && bitsOf x 3 0 == 0
      if ty = 1 then body (ok && b.producer == 0) (.launch h b) else body ok (.launchChained h b)
    | 0x03 => body (z 1791 192 && bitsOf x 1 0 == 0 && bitsOf x 65 64 == 0 && bitsOf x 129 128 == 0)
        (.copy h (f64 0) (f64 64) (f64 128))
    | 0x04 =>
      let as := (List.range 8).map fun k => f64 (64 * k)
      body (z 1791 512 && as.all fun a => a.toNat % 8 == 0) (.barrierAnd h (as.filter (· != 0)))
    | 0x05 => body none_ (.signal h)
    | 0x06 =>
      match SigCmp.ofCode (byte 16) with
      | some c => body (z 159 136 && z 1791 192 && bitsOf x 2 0 == 0)
          (.waitSignal h (f64 0) (f64 64) c (fld x 191 160))
      | none => .format
    | 0x07 => body (z 1791 400) (.measure h (bytes 0 48) (fld x 399 384))
    | 0x08 => body (z 1791 352 && bitsOf x 258 256 == 0 && decide (3504 ≤ bitsOf x 351 320))
        (.receipt h (bytes 0 32) (f64 256) (fld x 351 320))
    | 0x09 => body (z 1791 64 && bitsOf x 2 0 == 0) (.timestamp h (f64 0))
    | 0x0A =>
      match byte 0 with
      | 0x01 => body (z 1791 8) (.haltContext h)
      | 0x02 => body (z 1791 8) (.resumeContext h)
      | 0x03 => body (z 1791 8) (.disableQueue h)
      | 0x04 => body (z 1791 16 && decide (byte 1 ≤ 15)) (.setPriority h (fld x 15 8))
      | _ => .format
    | _ => .format
  else .format

/-! ## The host's question: the instruction of one table word -/

/-- The instruction that the decoder reads from `nbits` bits as the opcode table numbers them. A
32-bit row is a Value Form header word; the words after it are zero. A 24-bit row is a field of the
branch, engine or converter slot; a field that stands for several slots is taken in that order. -/
noncomputable def decodeTableWord (nbits w : Nat) : Option Instr :=
  if nbits = 24 then
    let f : BitVec 24 := BitVec.ofNat 24 w
    match decodeBr f with
    | .ok i => some i
    | .error _ =>
      match decodeEn f with
      | .ok i => some i
      | .error _ => match decodeCv f with
        | .ok i => some i
        | .error _ => none
  else
    match decodeWords (BitVec.ofNat 32 w :: BitVec.ofNat 32 (w / 2 ^ 32) :: List.replicate 16 0) with
    | .ok (i, _) => some i
    | .error _ => none

end Sys2Proof
end

