-- ==== Sys2Proof/Machine/Bits.lean ====
section
/-! DEFINITION. Bit strings of a width as numbers: `low`, `u` and `s` of R4 and R139, and the
small list helpers that the meanings share. -/

namespace Sys2Proof.Machine

open Sys2Proof

/-- `low(x, w)` of a natural number. -/
def low (w x : Nat) : Nat := x % 2 ^ w

/-- `low(x, w)` of an integer: its two's-complement bit string. -/
def lowI (w : Nat) (x : Int) : Nat := (x % (2 ^ w : Nat)).toNat

/-- `s(x)`: a bit string of width `w` read as two's complement. -/
def sgn (w x : Nat) : Int :=
  let v := x % 2 ^ w
  if 0 < w ∧ 2 ^ (w - 1) ≤ v then (v : Int) - (2 ^ w : Nat) else v

/-- `clamp(x, lo, hi)`. -/
def clampI (x lo hi : Int) : Int := if x < lo then lo else if hi < x then hi else x

/-- A lane value from a number. -/
def lane (x : Nat) : Lane := BitVec.ofNat 64 x

/-- The two words of a 64-bit value. -/
def loWord (x : Lane) : Word := x.truncate 32
def hiWord (x : Lane) : Word := (x >>> 32).truncate 32

/-- The 64-bit value of two words. -/
def pairWord (lo hi : Word) : Lane := lo.zeroExtend 64 ||| (hi.zeroExtend 64 : Lane) <<< 32

/-- An i1 result. -/
def laneB (b : Bool) : Lane := if b then 1 else 0

/-- A list put in order by insertion; elements that are equal in the order keep their places. -/
def insertBy {α : Type} (le : α → α → Bool) (x : α) : List α → List α
  | [] => [x]
  | y :: ys => if le x y then x :: y :: ys else y :: insertBy le x ys
def sortBy {α : Type} (le : α → α → Bool) : List α → List α
  | [] => []
  | x :: xs => insertBy le x (sortBy le xs)

/-- Number of bits of `x` up to its highest one bit. -/
def bitLen (x : Nat) : Nat := if x = 0 then 0 else Nat.log2 x + 1

/-- The highest exponent `e` with `2 ^ e ≤ x`, for a positive `x`. -/
def topBit (x : Nat) : Nat := Nat.log2 x

/-- Number of one bits among the low `n` bits. -/
def popCount : (n x : Nat) → Nat
  | 0, _ => 0
  | n + 1, x => (x % 2) + popCount n (x / 2)

/-- The low `n` bits of `x` in reverse order. -/
def revBits : (n x : Nat) → Nat
  | 0, _ => 0
  | n + 1, x => (x % 2) * 2 ^ n + revBits n (x / 2)

/-- Trailing zero bits among the low `n` bits. -/
def ctzBits : (n x : Nat) → Nat
  | 0, _ => 0
  | n + 1, x => if x % 2 = 1 then 0 else 1 + ctzBits n (x / 2)

/-- Integer square root by `fuel` steps of Newton's iteration from above. -/
def sqrtIter : (fuel n x : Nat) → Nat
  | 0, _, x => x
  | k + 1, n, x =>
    let y := (x + n / x) / 2
    if x ≤ y then x else sqrtIter k n y

/-- `floor(sqrt n)`. -/
def isqrt (n : Nat) : Nat :=
  if n = 0 then 0 else sqrtIter (2 * bitLen n + 8) n (2 ^ ((bitLen n + 1) / 2))

/-- Element `i` of a list of lanes; 0 beyond its end. -/
def getLane (vs : List Lane) (i : Nat) : Lane := vs.getD i 0

/-- Replaces the entry of a key in a list kept in rising order of keys, or puts it in. -/
def assocSet {α : Type} (k : Nat) (v : α) : List (Nat × α) → List (Nat × α)
  | [] => [(k, v)]
  | (k', v') :: rest =>
    if k < k' then (k, v) :: (k', v') :: rest
    else if k = k' then (k, v) :: rest
    else (k', v') :: assocSet k v rest

/-- The entry of a key. -/
def assocGet {α : Type} (k : Nat) : List (Nat × α) → Option α
  | [] => none
  | (k', v) :: rest => if k' = k then some v else assocGet k rest

/-- The threads of a mask, in rising order, among the first `w`. -/
def threadsOf (m : Mask) (w : Nat) : List Nat := (List.range w).filter fun t => m.getLsbD t

/-- The mask of a list of threads. -/
def maskOf (ts : List Nat) : Mask := ts.foldl (fun m t => m ||| ((1 : Mask) <<< t)) 0

/-- The mask of threads 0 to `w - 1`. -/
def fullMask (w : Nat) : Mask := BitVec.ofNat 64 (2 ^ w - 1)

end Sys2Proof.Machine
end

