-- ==== Sys2Proof/Machine/CodeObject.lean ====
section
/-! DEFINITION. Reading a code object: header, tables, function bodies with their blocks and value
numbers, and the immediate post-dominators that reconvergence needs
(05_tvf_language_encoding.md R118 to R134; 01_execution_model.md R29). -/

namespace Sys2Proof.Machine

open Sys2Proof

/-- Word `i` of an object as a number; 0 beyond its end. -/
def wd (ws : List Word) (i : Nat) : Nat := (ws.getD i 0).toNat

/-! ## Header and tables (R118 to R123) -/

def objSize (ws : List Word) : Nat := wd ws 3
def objFnOff (ws : List Word) : Nat := wd ws 4
def objFnCount (ws : List Word) : Nat := wd ws 5 % 65536
def objKnCount (ws : List Word) : Nat := wd ws 5 / 65536
def objKnOff (ws : List Word) : Nat := wd ws 6
def objHlOff (ws : List Word) : Nat := wd ws 7
def objHlCount (ws : List Word) : Nat := wd ws 8 % 65536
def objCpCount (ws : List Word) : Nat := wd ws 8 / 65536
def objCpOff (ws : List Word) : Nat := wd ws 9

/-- A function table entry (R119). -/
structure FnInfo where
  bodyOff : Nat
  words : Nat
  helper : Bool
  rets : List Ty
  deriving DecidableEq, Repr

def tyOf (c : Nat) : Ty := (Ty.ofCode (BitVec.ofNat 6 c)).getD .void

def fnInfo (ws : List Word) (k : Nat) : FnInfo :=
  let e := objFnOff ws / 4 + 4 * k
  let f := wd ws (e + 2)
  { bodyOff := wd ws e, words := wd ws (e + 1), helper := bitsOf f 5 4 == 1,
    rets := [tyOf (bitsOf f 13 8), tyOf (bitsOf f 19 14)].take (bitsOf f 7 6) }

/-- The words of a function's body. -/
def fnBody (ws : List Word) (k : Nat) : List Word :=
  let f := fnInfo ws k
  (ws.drop (f.bodyOff / 4)).take f.words

/-- A helper table entry: function and captures (R122). -/
def helperEntry (ws : List Word) (h : Nat) : Nat × Nat :=
  let w := wd ws (objHlOff ws / 4 + 2 * h)
  (w % 65536, bitsOf w 19 16)

/-- A constant: first byte of its data in the object, bytes, element type (R123). -/
def constEntry (ws : List Word) (c : Nat) : Nat × Nat × Ty :=
  let e := objCpOff ws / 4 + 2 * c
  let w := wd ws (e + 1)
  (objCpOff ws + wd ws e, w % 2 ^ 24, tyOf (bitsOf w 29 24))

/-- The number that `n` bytes of an object from byte `off` make. -/
def objBytes (ws : List Word) : (n off : Nat) → Nat
  | 0, _ => 0
  | n + 1, off => wd ws (off / 4) / 2 ^ (8 * (off % 4)) % 256 + 256 * objBytes ws n (off + 1)

/-- A kernel descriptor (R120). -/
structure Kernel where
  fn : Nat
  width : Nat
  team : Nat
  brace : Bool
  tiles : Nat
  sram : Nat
  budget : Nat
  minGroups : Nat
  checked : Bool
  helpers : Bool
  coop : Bool
  det : Bool
  argBytes : Nat
  deriving DecidableEq, Repr

def kernelOf (ws : List Word) (k : Nat) : Kernel :=
  let e := objKnOff ws / 4 + 8 * k
  let a := wd ws e
  let c := wd ws (e + 2)
  let d := wd ws (e + 3)
  { fn := a % 65536, width := 16 * 2 ^ bitsOf a 17 16, team := bitsOf a 22 18 + 1,
    brace := bitOf a 23, tiles := bitsOf a 27 24, sram := wd ws (e + 1), budget := c % 512,
    minGroups := bitsOf c 23 16, checked := bitOf d 0, helpers := bitOf d 1, coop := bitOf d 2,
    det := bitOf d 3, argBytes := wd ws (e + 5) }

/-! ## Bodies: blocks, instructions, value numbers (R125, R130, R131) -/

/-- A value's type, with the descriptor of a tile. -/
abbrev VTy := Ty × Option TileDesc

/-- The result types of an instruction; `rets` are those of a called function. -/
def resTypes (rets : List Ty) : Instr → List VTy
  | .addCc o | .subCc o => [(o.ty, none), (.i1, none)]
  | .addc o | .subc o => [(o.ty, none), (.i1, none)]
  | .add o | .sub o | .mul o | .mulHiS o | .mulHiU o | .divS o | .divU o | .remS o | .remU o
  | .addSatS o | .addSatU o | .subSatS o | .subSatU o | .minS o | .minU o
  | .maxS o | .maxU o | .and o | .or o | .xor o | .fmin o | .fmax o | .fcopysign o
  | .shl o | .shrU o | .shrS o | .rotl o | .rotr o | .nadd o | .nmake o | .unpack o
  | .pand o | .por o | .pxor o => [(o.ty, none)]
  | .mad o | .bfeU o | .bfeS o | .nidx o | .sel o => [(o.ty, none)]
  | .not o | .neg o | .abs o | .clz o | .ctz o | .popc o | .brev o | .sext o | .zext o | .trunc o
  | .const o | .fabs o | .fneg o | .bitcast o | .pnot o => [(o.ty, none)]
  | .bfi o => [(o.ty, none)]
  | .nsplit _ => [(.i32, none), (.i32, none)]
  | .fadd o | .fsub o | .fmul o | .fdiv o => [(o.ty, none)]
  | .fma o => [(o.ty, none)]
  | .fsqrt o | .frcp o | .frsq o | .exp2 o | .log2 o | .frint o => [(o.ty, none)]
  | .faddX2 _ | .fsubX2 _ | .fmulX2 _ | .fmaX2 _ | .fminX2 _ | .fmaxX2 _ | .fabsX2 _ | .fnegX2 _
  | .pack _ => [(.i32, none)]
  | .cvt o => [(o.ty, none)]
  | .cvtScaled o => [(o.ty, none)]
  | .cmp _ | .fclass _ => [(.i1, none)]
  | .ldNear o | .ldLocal o => if o.pair then [(o.ty, none), (o.ty, none)] else [(o.ty, none)]
  | .ldConst o => [(o.ty, none)]
  | .atomAdd o | .atomMinS o | .atomMinU o | .atomMaxS o | .atomMaxU o | .atomAnd o | .atomOr o
  | .atomXor o | .atomSwap o | .atomFadd o => [(o.ty, none)].take o.nres.toNat
  | .atomCas o => [(o.ty, none), (.i1, none)].take o.nres.toNat
  | .feLd o | .feTryld o | .fePeek o => [(o.ty, none), (.i1, none)].take o.nres.toNat
  | .feTryst o => [(.i1, none)].take o.nres.toNat
  | .barArrive n _ => [(.i32, none)].take n.toNat
  | .waitAny o | .waitAll o => [(.i32, none)].take o.nres.toNat
  | .copyIn o | .copyOut o | .copyNear o => [(.tok, none)].take o.nres.toNat
  | .gather o | .scatter o => [(.tok, none)].take o.nres.toNat
  | .csrRows o | .bsrBlocks o => [(.tok, none)].take o.nres.toNat
  | .isect o => [(.tok, none)].take o.nres.toNat
  | .reduceFar o => [(.tok, none)].take o.nres.toNat
  | .tokTest _ _ => [(.i1, none)]
  | .xlane o => [(o.ty, none), (.i1, none)].take o.nres.toNat
  | .lanesAny _ | .lanesAll _ => [(.i1, none)]
  | .lanesMask _ => [(.i64, none)]
  | .rdfirst t _ => [(t, none)]
  | .grpAdd o => [(o.ty, none)]
  | .grpMin o | .grpMax o => [(o.ty, none)]
  | .conflict o => [(.i64, none), (.i1, none)].take o.nres.toNat
  | .call _ => rets.map fun t => (t, none)
  | .spawn o => [(.i32, none)].take o.nres.toNat
  | .taskpost o => [(.i32, none)].take o.nres.toNat
  | .herd o => [(.i32, none)].take o.nres.toNat
  | .herdAdd o | .herdMin o | .herdMax o | .herdOr o =>
    [(o.ty, none), (.i32, none)].take o.nres.toNat
  | .tileZero d => [(.tile, some d)]
  | .tileFill o => [(.tile, some o.d)]
  | .tileLoad o => [(.tile, some o.d)]
  | .tileCvt o => [(.tile, some o.d)]
  | .tileExtract o => [(o.ty, none)]
  | .tileInsert o => [(.tile, some o.d)]
  | .mmaF8s o => [(.tile, some o.d)]
  | .mmaBf16 o | .mmaF16 o => [(.tile, some o.d)]
  | .mmaI8 o => [(.tile, some o.d)]
  | .mmaSp o => [(.tile, some o.d)]
  | .mfence => [(.batch, none)]
  | .getfmt _ => [(.i32, none)]
  | .id o => [(o.ty, none)]
  | .clock _ => [(.i64, none)]
  | _ => []

/-- One item of a body: a BLOCK marker with its arguments, or an instruction; with its word offset,
its words and the first value number it defines. -/
inductive ItemKind where
  | block (idx : Nat) (args : List VTy)
  | ins (i : Instr)
  deriving DecidableEq, Repr

structure Item where
  off : Nat
  len : Nat
  val : Nat
  kind : ItemKind
  deriving DecidableEq, Repr

def Item.types (ws : List Word) (it : Item) : List VTy :=
  match it.kind with
  | .block _ args => args
  | .ins i =>
    let rets := match i with
      | .call o => (fnInfo ws o.fn.toNat).rets
      | _ => []
    resTypes rets i

/-- The argument types of a BLOCK marker (R131). -/
def markerArgs : List ROpd → Option (List VTy)
  | [] => some []
  | .op (.imm v) :: rest =>
    if v.toNat / 64 = 0 then
      match Ty.ofCode (BitVec.ofNat 6 v.toNat) with
      | some .tile =>
        match rest with
        | d :: rest' =>
          match descOf 0 d with
          | .ok dd => (markerArgs rest').map ((.tile, some dd) :: ·)
          | .error _ => none
        | [] => none
      | some t => (markerArgs rest).map ((t, none) :: ·)
      | none => none
    else none
  | _ :: _ => none

/-- The items of a body, up to the first word that is none. -/
def scanBody (ws : List Word) : (fuel : Nat) → List Word → (off val blk : Nat) → List Item
  | 0, _, _, _, _ => []
  | _ + 1, [], _, _, _ => []
  | n + 1, w :: rest, off, val, blk =>
    if w.toNat / 2 ^ 22 = 0x3FE then
      match parseRaw (w :: rest) with
      | .ok (r, len) =>
        match markerArgs r.ops with
        | some args =>
          { off, len, val, kind := .block blk args } ::
            scanBody ws n ((w :: rest).drop len) (off + len) (val + args.length) (blk + 1)
        | none => []
      | .error _ => []
    else
      match decodeWords (w :: rest) with
      | .ok (i, len) =>
        let it : Item := { off, len, val, kind := .ins i }
        it :: scanBody ws n ((w :: rest).drop len) (off + len) (val + (it.types ws).length) blk
      | .error _ => []

def fnItems (ws : List Word) (fn : Nat) : List Item :=
  let body := fnBody ws fn
  scanBody ws body.length body 0 0 0

/-- The item at a word offset. -/
def itemAt (its : List Item) (off : Nat) : Option Item := its.find? fun it => it.off == off

/-- The marker of a block. -/
def blockItem (its : List Item) (b : Nat) : Option Item :=
  its.find? fun it => match it.kind with
    | .block k _ => k == b
    | .ins _ => false

/-- The types of the values of a function, by value number. -/
def valTypes (ws : List Word) (its : List Item) : List VTy := its.flatMap fun it => it.types ws

/-- The parameters of a function: the arguments of its entry block. -/
def fnParams (ws : List Word) (fn : Nat) : List VTy :=
  match blockItem (fnItems ws fn) 0 with
  | some it => it.types ws
  | none => []

/-- The block that holds a word offset. -/
def blockOf : List Item → Nat → Nat → Nat
  | [], _, cur => cur
  | it :: rest, off, cur =>
    if off < it.off then cur
    else match it.kind with
      | .block k _ => blockOf rest off k
      | .ins _ => blockOf rest off cur

/-- The successors of each block, in block order. -/
def succsGo : List Item → List Nat → List (List Nat)
  | [], cur => [cur]
  | it :: rest, cur =>
    match it.kind with
    | .block 0 _ => succsGo rest []
    | .block _ _ => cur :: succsGo rest []
    | .ins i => succsGo rest (cur ++ i.targets.map fun t => t.blk.toNat)
def succsOf (its : List Item) : List (List Nat) := succsGo its []

/-! ## Post-dominators -/

/-- One round of the post-dominator equations over all blocks. -/
def pdomRound (succ pd : List (List Nat)) : List (List Nat) :=
  (List.range succ.length).map fun b =>
    match succ.getD b [] with
    | [] => [b]
    | t :: ts =>
      let common := ts.foldl (fun acc u => acc.filter fun x => (pd.getD u []).contains x) (pd.getD t [])
      if common.contains b then common else b :: common

def pdomIter (succ : List (List Nat)) : (fuel : Nat) → List (List Nat) → List (List Nat)
  | 0, pd => pd
  | n + 1, pd =>
    let pd' := pdomRound succ pd
    if pd' == pd then pd else pdomIter succ n pd'

/-- The post-dominators of every block, itself among them. -/
def pdoms (succ : List (List Nat)) : List (List Nat) :=
  let all := List.range succ.length
  pdomIter succ (succ.length * succ.length + 1) (all.map fun _ => all)

/-- The immediate post-dominator of a block (R29); none where the paths meet only at the end. -/
def ipdom (its : List Item) (b : Nat) : Option Nat :=
  let pd := pdoms (succsOf its)
  let strict := (pd.getD b []).filter (· != b)
  strict.find? fun d => strict.all fun x => (pd.getD d []).contains x

end Sys2Proof.Machine
end

