-- ==== Sys2Proof/Config.lean ====
section
/-! DEFINITION. What is fixed for the device (00_scope.md R1, R2; 01 R17; 02 R54) and the free values:
opaque constants without a body for everything the spec leaves open, applied to a plain counter of
the state or to the operands they depend on. -/

namespace Sys2Proof.Config

/-! ## The package (R2, R17, R54) -/

/-- Physical dies 0 to 3 are Gale, 4 to 7 Breeze, 8 is Anvil (R54). -/
def isGale (die : Nat) : Bool := decide (die < 4)
/-- Cores of a compute die (R2, R54). -/
def coresOf (die : Nat) : Nat := if die < 4 then 480 else if die < 8 then 192 else 0
/-- Clusters of a compute die (R2, R364). -/
def clustersOf (die : Nat) : Nat := if die < 4 then 30 else if die < 8 then 12 else 0
/-- Bytes of a core's slice (R2). -/
def sliceBytes : Nat := 0x300000
/-- Bytes of a die's bonded DRAM: an eighth of 512 GB (R2). -/
def dramBytes : Nat := 64000000000
/-- Lines a retriever holds in flight (R2, R384). -/
def linesInFlight : Nat := 192
/-- The voltage and frequency island of a cluster (R426). -/
def islandOf (die cluster : Nat) : Nat := 2 * die + if 2 * cluster < clustersOf die then 0 else 1
/-- A_max (R17). -/
def activeMax (die : Nat) : Nat := if isGale die then 8 else 4
/-- C_max (R17). -/
def contextMax (die : Nat) : Nat := if isGale die then 32 else 16
/-- Fast register file in bytes (R17). -/
def fastFile (die : Nat) : Nat := if isGale die then 131072 else 65536
/-- Slow register file in bytes (R17). -/
def slowFile (die : Nat) : Nat := if isGale die then 524288 else 262144
/-- Tile registers of a core (R17). -/
def tileRegs (die : Nat) : Nat := if isGale die then 16 else 8
/-- Helper contexts of a core (R218). -/
def helperContexts (die : Nat) : Nat := if isGale die then 16 else 8
/-- Hardware barriers of a core (R19). -/
def hardBarriers : Nat := 64
/-- Vector register clusters (R2, R267). -/
def regClusters (die : Nat) : Nat := if isGale die then 4 else 2
/-- Start of the context system area in a core slice (R49). -/
def sysArea (die : Nat) : Nat := if isGale die then 0x2E0000 else 0x2F0000
/-- GEN of a translation key (R257). -/
def genCode (die : Nat) : Nat := if isGale die then 2 else 1
/-- Package cluster number (R375). -/
def clusterNo (die cluster : Nat) : Nat :=
  if die < 4 then 30 * die + cluster else 120 + 12 * (die - 4) + cluster

/-! ## Free values (no body: nothing in Lean can evaluate one) -/

/-- The event that comes about next when no event is pending: the order in which schedulers, timers,
links and agents outside the package act is timing, which the spec does not fix. -/
opaque environment : Nat → Option Instr
/-- Reference ticks and island cycles that pass in one step. -/
opaque ticksOf : Nat → Nat
opaque cyclesOf : Nat → Nat
/-- Whether the load numbered `n` takes the optional store `id` (R71). -/
opaque loadSees : (n id : Nat) → Bool
/-- Whether the `n`-th write of the host or of another package is ordered after its agent's earlier ones at system scope
(R86). -/
opaque ordersHost : (n : Nat) → Bool
/-- A choice the spec gives to a scheduler or leaves to timing. -/
opaque choice : Nat → Nat
/-- Where in its pool an area is carved, the `i`-th of a placement (R49). -/
opaque carve : (n i : Nat) → Nat
/-- What TEAM_BASE gives in a team whose region has no byte (R228). -/
opaque emptyRegion : (team : Nat) → BitVec 64
/-- Bits the spec leaves undefined. -/
opaque freeBits : Nat → BitVec 64
/-- Bits of a register whose value R299 leaves undefined: of a group, at a bundle count, for a landing result and a
thread. -/
opaque hazardBits : (group count result thread : Nat) → BitVec 64
/-- Whether a read before a variable-latency operation completes finds a thread's new value (R300). -/
opaque readsNew : (group count op thread : Nat) → Bool
/-- An ATS translation of a page by the host: the host address and whether writes are allowed, or
none (R383). -/
opaque ats : (n pasid page : Nat) → Option (Nat × Bool)
/-- Whether a write to memory outside the package fails (R355, R387, R433). -/
opaque remoteFails : (n : Nat) → Bool
/-- Signatures of the attestation keys (R394, R431). -/
opaque ed25519Sign : List Byte → List Byte
opaque mldsaSign : List Byte → List Byte
/-- Whether a signature of a firmware image or configuration record verifies (R429, R430). -/
opaque ed25519Ok : (msg sig : List Byte) → Bool
opaque mldsaOk : (msg sig : List Byte) → Bool
/-- AES-256-GCM under a key handle with a 12-byte nonce: ciphertext and 16-byte tag (R376, R396). -/
opaque gcmSeal : (key : Nat) → (nonce plain : List Byte) → List Byte × List Byte
/-- AES-256-XTS of one 64-byte data unit under a key handle and tweak, and its inverse (R396). -/
opaque xtsEnc : (key tweak : Nat) → List Byte → List Byte
opaque xtsDec : (key tweak : Nat) → List Byte → List Byte
/-- The nonce of the n-th dump entry sealed. -/
opaque nonceOf : Nat → List Byte
/-- Which of several islands with one fraction steering takes (R428). -/
opaque steerTie : Nat → Nat
/-- The bytes under which a dump's section holds its fields: R423 names the fields and no widths. -/
opaque dumpBits : (part : Nat) → (fields : List Nat) → List Byte
/-- The key agreed in the n-th SPDM exchange and the responder's exchange data (R431). -/
opaque spdmKey : (n : Nat) → (peer : List Byte) → Nat
opaque spdmExchange : (n : Nat) → List Byte
opaque spdmHmac : (key : Nat) → (transcript : List Byte) → List Byte
/-- Certificate chains of SPDM slots 0 and 1 as GET_CERTIFICATE returns them (R394, R431). -/
opaque certChain : Nat → List Byte
/-- The fused rollback floor of configuration records (R430). -/
opaque rollbackFloor : Nat
/-- Oscillator frequency of an island at manufacture, kHz (R421). -/
opaque f0Khz : Nat → Nat
/-- Check-bit syndrome of the n-th logged error (R417). -/
opaque syndrome : Nat → BitVec 8
end Sys2Proof.Config
end

