-- ==== Sys2Proof/Machine/State.lean ====
section
/-! DEFINITION. The state of the device as plain data: groups and their values, memory with its
full/empty bits and the stores on their way to observers, teams, launches, translations, queues,
contexts, engine commands, registers, error records, links and the security state. -/

namespace Sys2Proof.Machine

open Sys2Proof

/-! ## Stops of the model itself -/

/-- Stops with a fault. -/
inductive Fault where
  /-- Raised by nobody: every step of the spec has an effect or is not taken (safe). -/
  | noEffect
  deriving DecidableEq, Repr

/-- Stops with a refusal. -/
inductive Refusal where
  /-- An arm of `exec` that has no meaning yet (safe). -/
  | notModelled (mnemonic : String)
  /-- `step` found at the program counter of a group that runs its Value Form words a word that is no
  instruction; the device has no fate for it, since only verified objects run (R137) (safe). -/
  | unverifiedWord
  deriving DecidableEq, Repr

/-! ## Traps and statuses -/

/-- The traps of R434, with USER and its code. -/
inductive Trap where
  | window | alignment | constRange | farFault | uncorrectable | uniformity | divergenceDepth
  | barrierScope | format | copyFormat | helperExit | mismatch
  | user (code : BitVec 16)
  deriving DecidableEq, Repr

/-- Packet status codes (R370). -/
inductive Status where
  | ok | format | verify | placement | placementCooperative | translationLimit | sliceMap | debugCtl
  | args | noProducer | farFault | privilege | timeout | watchdog | capacity | producerFailed
  deriving DecidableEq, Repr

/-! ## Memory -/

/-- A set of observers that an ordering operation reaches (R63, R64). -/
inductive Reach where
  | one (o : Obs)
  | brace (die core : Nat)
  | die (d : Nat)
  | package
  | domain
  | system
  deriving DecidableEq, Repr

/-- What a release carries: every store visible to `org` at instant `at`, and every store of group
`grp` numbered below `seq`, towards the observers of `reach` (R72), but for the writes of the commands `skip` (R77). -/
structure Carry where
  reach : Reach
  org : Obs
  at_ : Nat
  grp : Nat
  seq : Nat
  skip : List Nat
  deriving DecidableEq, Repr

/-- A store that its slice has performed: the bytes with their new and their earlier value, the
observers it is visible to and since which instant (R66 to R72). -/
structure Store where
  id : Nat
  grp : Nat
  org : Obs
  bytes : List (Nat × Byte × Byte)
  seen : List (Reach × Nat)
  carries : List Carry
  deriving DecidableEq, Repr

/-- A store still in its group's store queue (R70). -/
structure QStore where
  id : Nat
  bytes : List (Nat × Byte)
  carries : List Carry
  deriving DecidableEq, Repr

/-- An acquire point: the observers it covers, its instant, and the releases whose stores its reads returned (R71,
R73). -/
structure Acq where
  reach : Reach
  at_ : Nat
  carried : List Carry
  deriving DecidableEq, Repr

/-- Damaged storage (R405 to R410): word keys with the check-bit difference, poisoned line keys, and
the words whose error a write has met and that are still to be logged, with the class of the record. -/
structure Damage where
  words : List (Nat × BitVec 8)
  poison : List Nat
  news : List (Nat × Nat)
  deriving DecidableEq, Repr

/-- Memory: bytes as (key, byte) pairs in canonical form, the keys of full words, the history of
performed stores in coherence order, oldest first, the damaged words, and the key handle under which a
64-byte line is encrypted where it is (R396); the bytes of a line are held in the clear. -/
structure Mem where
  bytes : List Host.Cell
  full : List Nat
  hist : List Store
  damage : Damage
  seals : List (Nat × Nat)
  deriving DecidableEq, Repr

/-! ## Groups -/

/-- Group context states (R22). -/
inductive GState where
  | free | ready | active | waiting | parked | halted
  deriving DecidableEq, Repr

/-- A generator state (R107). -/
structure Gen where
  x : Word
  y : Word
  z : Word
  w : Word
  v : Word
  deriving DecidableEq, Repr

/-- A tile: descriptor and elements in row-major order, zero-extended (R231). -/
structure Tile where
  desc : TileDesc
  data : List Word
  deriving DecidableEq, Repr

/-- A portable reconvergence entry (R30): the mask before the branch, the paths still to run (mask
and word offset), the block of the reconvergence point (none when the paths only meet at the end of
the function) and the FMT at the branch. -/
structure StackEnt where
  full : Mask
  todo : List (Mask × Nat)
  rpc : Option Nat
  fmt : Word
  deriving DecidableEq, Repr

/-- A native reconvergence entry (R330). -/
structure NatEnt where
  mask : Mask
  dpc : BitVec 15
  rpc : BitVec 15
  fmt : Word
  deriving DecidableEq, Repr

/-- The values of one activation of a function (R130, R206). -/
structure Frame where
  fn : Nat
  vals : List (Nat × List Lane)
  tiles : List (Nat × Tile)
  /-- Stack depth at the call. -/
  base : Nat
  /-- Threads active at the call, and those of them that have returned. -/
  callMask : Mask
  retMask : Mask
  /-- Results returned so far, per thread. -/
  rets : List (List Lane)
  /-- Where the caller goes on, and its first result value and result count. -/
  retOff : Nat
  dst : Nat
  nres : Nat
  deriving DecidableEq, Repr

/-- An evaluated wait condition (R39, R183). -/
inductive CondV where
  | token (h : Word)
  | fullWord (a : Lane)
  | emptyWord (a : Lane)
  | barrier (b : Nat) (phase : Word)
  | matrix (n : Word)
  | sig (a : Lane) (cmp : SigCmp) (v : Lane)
  deriving DecidableEq, Repr

/-- What an operand passes to a block argument. -/
inductive ArgV where
  | lanes (xs : List Lane)
  | tile (t : Option Tile)
  deriving DecidableEq, Repr

/-- Where the result of a wait goes. -/
inductive WaitDst where
  /-- a Value Form wait: its result values, then the next instruction -/
  | value (first n : Nat)
  /-- a barrier wait or `mwait`: no result -/
  | nothing
  /-- a Value Form yield: the continuation block with the arguments after the result -/
  | cont (blk : Nat) (args : List ArgV)
  /-- `bar.arrive` two phases ahead: joins when the phase completes; UBAR names its register -/
  | arrive (b : Nat) (dest : Option Nat)
  /-- `bar.sync` two phases ahead: joins, then waits -/
  | sync (b : Nat)
  /-- WAITC or YIELD: sBASE -/
  | base (s : Nat) (isYield : Bool)
  deriving DecidableEq, Repr

/-- A read or write parked on a far page (R384): a unit of a command or a condition of a wait. -/
structure Parked where
  unit : Nat
  page : Nat
  order : Nat
  gen : Nat
  /-- the line it is of, and a PRI request number for an ATS miss (R383) -/
  line : Nat
  pri : Option Nat
  deriving DecidableEq, Repr

/-- A wait under way (R39 to R43, R183 to R187). -/
structure Wait where
  conds : List CondV
  all : Bool
  deadline : Option Nat
  dst : WaitDst
  /-- Conditions whose signal read is parked (R185). -/
  parked : List Parked
  deriving DecidableEq, Repr

/-- Where a full/empty result goes. -/
inductive FeDst where
  | value (first n : Nat)
  | vreg (cl n : Nat) (k : Option Nat)
  | sreg (n : Nat)
  deriving DecidableEq, Repr

/-- A blocking full/empty access under way (R177). -/
structure FeWait where
  give : Bool
  uni : Bool
  addrs : List Lane
  data : List Lane
  pending : Mask
  got : List (Nat × Lane)
  order : Order
  scope : BitVec 3
  dst : FeDst
  /-- the flag under which a native access counts (R300) -/
  flag : Option Nat
  deriving DecidableEq, Repr

/-- The error of a token: its command's generation, the trap it means, the PPC and the name of the command, and the
iteration that a party of a HERD ran at the issue (R199, R200, R222). -/
structure TokErr where
  seq : BitVec 28
  trap : Trap
  ppc : Nat × Nat
  cmd : Nat
  iter : Int
  deriving DecidableEq, Repr

/-- A completion counter c0 to c15 (R301, R326): the generation of the last completed command, that of the last issued
one, and the errors of its tokens that nobody has observed. -/
structure Ctr where
  done : BitVec 28
  issued : BitVec 28
  errs : List TokErr
  deriving DecidableEq, Repr

/-- An open or closed matrix operation (R243): the operands and where D goes. -/
structure MmaJob where
  kind : Nat
  fmtE8 : Bool
  signA : Bool
  signB : Bool
  keep : Nat
  a : Tile
  b : Tile
  c : Tile
  m : Option Tile
  sa : Option Tile
  sb : Word
  /-- C is the result of an earlier operation of the chain, named by its number. -/
  cFrom : Option Nat
  desc : TileDesc
  no : Nat
  /-- frames of the group at the issue, for the value that D becomes -/
  depth : Nat
  /-- value number in the top frame, or native tile register -/
  dst : Nat
  /-- of a bundle -/
  tbf : Bool
  ppc : Nat × Nat
  batch : Option Word
  failed : Bool
  deriving DecidableEq, Repr

/-- The part of a chunk a released helper hands back (R221). -/
structure Rem where
  chunk : Nat
  next : Int
  partial_ : Option Lane
  deriving DecidableEq, Repr

/-- A fault of a helper iteration (R222): trap, iteration, PPC. -/
structure HerdFault where
  trap : Trap
  iter : Int
  ppc : Nat × Nat
  deriving DecidableEq, Repr

/-- One recruiter's range (R218 to R222). -/
structure Range where
  thread : Nat
  lo : Int
  hi : Int
  chunk : Nat
  next : Nat
  partials : List (Nat × Lane)
  rems : List Rem
  fault : Option HerdFault
  helpers : Nat
  reason : Nat
  /-- parties that have not left -/
  out : Nat
  deriving DecidableEq, Repr

/-- A HERD under way (R216 to R225). -/
structure Herd where
  helper : Nat
  fn : Nat
  caps : List (List Lane)
  ty : Ty
  red : Nat
  signed : Bool
  rnd : Rnd
  nres : Nat
  fmt : Word
  ranges : List Range
  /-- value number of the first result, or native -/
  dst : Nat
  native : Bool
  /-- commands of the parties whose release reaches their core at least (R85) -/
  cmds : List Nat
  /-- where the recruiter stands: 0 between HERD, CALL and HJOIN, 1 running its claims, 2 at the join -/
  phase : Nat
  deriving DecidableEq, Repr

/-- What makes a group a party to a HERD: recruiter group and thread, helper index (0 for the
recruiter's own), borrowed slot, and the work in hand (R218 to R224). -/
structure Party where
  group : Nat
  thread : Nat
  helper : Nat
  slot : Option (Nat × Nat)
  /-- helper context of the core that a helper holds (R49) -/
  area : Nat
  die : Nat
  core : Nat
  chunk : Option Nat
  iter : Int
  stop : Int
  partial_ : Option Lane
  /-- an instruction of the iteration in hand has issued -/
  begun : Bool
  release : Bool
  /-- it has left and waits for its commands (R220) -/
  gone : Bool
  deriving DecidableEq, Repr

/-- Where a native result lands. -/
inductive Dst where
  | v (cl n : Nat) (wide : Bool)
  | s (n : Nat) (wide : Bool)
  | k (n : Nat)
  | cvctl
  | fmt (mask : BitVec 4)
  | seed
  | tile (n : Nat) (t : Tile)
  deriving DecidableEq, Repr

/-- A fixed-latency result in a snapshot register (R298, R299). -/
structure Pend where
  land : Nat
  born : Nat
  slot : Nat
  dst : Dst
  mask : Mask
  vals : List Lane
  deriving DecidableEq, Repr

/-- A variable-latency operation under way (R300). -/
structure VarOp where
  flag : Nat
  dsts : List (Dst × Mask × List Lane)
  deriving DecidableEq, Repr

/-- The native side of a group (R290 to R303): translation, clause and bundle, registers, results in
flight, loop counter, conversion control, stack, and the entry of its idempotent region. -/
structure Native where
  tr : Nat
  clause : Nat
  bundle : Nat
  count : Nat
  v : List (Nat × List Word)
  s : List Word
  k : List Mask
  t : List (Nat × Tile)
  flags : List Nat
  pend : List Pend
  var : List VarOp
  lc : Word
  /-- trip count of the loop in hand: what LOOP set (R304) -/
  trip : Word
  cvctl : BitVec 13
  /-- pending reconvergence point: what DSET set -/
  dset : Option (BitVec 15)
  clmode : BitVec 4
  /-- clusters woken, with the cycle of the clause header -/
  woken : List (Nat × Nat)
  stack : List NatEnt
  /-- set while the BR slot has sent the group elsewhere in this bundle -/
  target : Option (BitVec 15)
  /-- clause, mask, stack, FMT, generator, queue, results in flight, CVCTL, loop counter and bundle count at the region's
  entry (R280, R110) -/
  regClause : Nat
  regActive : Mask
  regStack : List NatEnt
  regFmt : Word
  regGen : Gen
  regRq : List (List Word)
  regPend : List Pend
  regCvctl : BitVec 13
  regLc : Word × Word
  regCount : Nat
  inHerd : Bool
  /-- PPC of the last side-table entry passed (R305), and in a modulo-scheduled loop its LOOP_ID, the
  stage of the bundle and the kernel iteration (R304) -/
  ppc : Nat × Nat
  loop : Option (Nat × Nat × Nat)
  /-- set while the group waits for a regenerated translation (R288) -/
  stalled : Bool
  /-- clause and bundle of the bundle issued last, where an instruction executes again -/
  at_ : Nat × Nat
  /-- set while the region in hand runs again (R408) -/
  again : Bool
  /-- the TRAP of the bundle in hand has stopped the group, which passes it when it resumes (R345) -/
  passed : Bool
  deriving DecidableEq, Repr

/-- How a group came to be (R13, R34, R37, R218). -/
inductive GKind where
  | team | spawned | task | party
  deriving DecidableEq, Repr

/-- A group context (R11, R22, R16). -/
structure Group where
  uid : Nat
  kind : GKind
  st : GState
  die : Nat
  core : Nat
  slot : Nat
  age : Nat
  ctx : Nat
  launch : Nat
  team : Nat
  teamIdx : List (BitVec 32)
  gidx : BitVec 16
  width : Nat
  active : Mask
  exited : Mask
  trig : Mask
  /-- function unit the group runs, and the portable program counter in its top frame -/
  unit : Nat
  off : Nat
  frames : List Frame
  stack : List StackEnt
  fmt : Word
  gen : Gen
  rq : List (List Word)
  seed : BitVec 64
  storeQ : List QStore
  acq : List Acq
  floor : List (Nat × Nat)
  /-- the instant from which on its loads may take the stores of its core, where an atomic or full/empty access may
  still have stood in the queue when a later load took its value (R70) -/
  early : Option Nat
  carry : List Carry
  /-- commands whose tokens it has not observed: command, counter and generation (R77, R81) -/
  unseen : List (Nat × Nat × BitVec 28)
  wait : Option Wait
  fe : Option FeWait
  ctrs : List Ctr
  mfences : Word
  batchesDone : Word
  jobs : List MmaJob
  herd : Option Herd
  party : Option Party
  native : Option Native
  /-- image in the fast file (R22), cycle at which the wait began, bundles since activation -/
  fast : Bool
  since : Nat
  bundles : Nat
  /-- consumptions of uncorrectable errors in the current region instance (R408) -/
  consumed : Nat
  /-- stop asked for at the next effective drain point (R45, R345, R400) -/
  stopReq : Nat
  /-- stop code of R346 while HALTED, and whether a resume goes on at the next instruction -/
  stopCode : Nat
  stopPpc : Nat × Nat
  frozen : Bool
  /-- the stop record written at the stop in hand, empty where a stop writes none (R346, R423) -/
  stopRec : List Byte
  /-- restored in its own translation, and still to move to the one in force at a mandatory drain point (R282) -/
  moves : Bool
  /-- state code of R46 at the watchdog firing, 0 for none, and whether helpers were out then -/
  fired : Nat
  firedPack : Bool
  /-- threads that the group's last exit ended (R200), and whether that exit still owes its releases because a token
  may trap it (R88) -/
  lastExit : Mask
  exitDue : Bool
  /-- group clock and interlock trace (R349, R350) -/
  clock : Word
  armed : Bool
  /-- spill area: offset in the slice and bytes (R273) -/
  spillOff : Nat
  spillLen : Nat
  budget : Nat
  tilesHeld : Nat
  deriving DecidableEq, Repr

/-! ## Teams, tasks, launches, translations -/

/-- A barrier of a team (R181): completed count, arrival counts and what the arrivals carry. -/
structure Barrier where
  done : Word
  arr : List Word
  carries : List (Word × Carry)
  deriving DecidableEq, Repr

/-- What a group holds of its core: context slot, registers, tile registers and spill area (R17,
R18, R273). -/
structure Claim where
  die : Nat
  core : Nat
  slot : Nat
  budget : Nat
  width : Nat
  tiles : Nat
  spillOff : Nat
  spillLen : Nat
  deriving DecidableEq, Repr

/-- A team (R13, R18); the claims of its groups are released together when its last group has ended. -/
structure Team where
  uid : Nat
  launch : Nat
  ctx : Nat
  idx : BitVec 32
  die : Nat
  core : Nat
  brace : Bool
  size : Nat
  regionOff : Nat
  regionLen : Nat
  nbar : Nat
  bars : List Barrier
  ended : List Bool
  held : List Claim
  deriving DecidableEq, Repr

/-- A task record (R36). -/
structure Task where
  fn : Nat
  p : Lane
  args : List Lane
  teamIdx : BitVec 32
  die : Nat
  core : Nat
  launch : Nat
  at_ : Nat
  carry : Carry
  /-- the budget of the posting translation (R258) -/
  budget : Nat
  deriving DecidableEq, Repr

/-- A formed task group waiting for a context (R37). -/
structure TaskGroup where
  uid : Nat
  recs : List Task
  deriving DecidableEq, Repr

/-- A VERIFY record (R136). -/
structure VerifyRec where
  offset : Nat
  reason : Nat
  fn : Nat
  value : Nat
  deriving DecidableEq, Repr

/-- A translation key (R257). -/
structure TKey where
  digest : List Byte
  xlat : BitVec 32
  fn : Nat
  budget : Nat
  tiles : Nat
  minGroups : Nat
  gen : Nat
  width : Nat
  checked : Bool
  deriving DecidableEq, Repr

/-- A translation: key, the budget and spill units that stages 2 to 4 fix, the barriers it uses, and
the image of stage 6; an empty image leaves its groups running the Value Form words. -/
structure Trans where
  uid : Nat
  key : TKey
  budget : Nat
  spillUnits : Nat
  /-- helper functions of its HERDs with the offset of the area reserved for their runs by the group (R276) -/
  areas : List (Nat × Nat)
  /-- where the uniform part of the spill area begins (R273) -/
  uniOff : Nat
  barriers : Nat
  image : List Word
  /-- confidential context that owns it, 0 for none (R396) -/
  owner : Nat
  /-- whether the package's store holds it, and its last use (R260) -/
  stored : Bool
  used : Nat
  /-- step at which a translator finished it (R261) -/
  made : Nat
  deriving DecidableEq, Repr

/-- A copy in a cluster's cache, with its last use and whether it has been invalidated (R260, R288). -/
structure CacheEnt where
  die : Nat
  cluster : Nat
  tr : Nat
  used : Nat
  valid : Bool
  /-- native offsets that have raised NATIVE_ILLEGAL once (R288) -/
  ill : List Nat
  deriving DecidableEq, Repr

/-- Where a launch stands (R371 to R373). -/
inductive Stage where
  | translating | waitingProducer | running | retired | terminated
  deriving DecidableEq, Repr

/-- A placement entry (R364): its teams not placed yet, from team `first` on. -/
structure Place where
  first : Nat
  count : Nat
  die : Nat
  cluster : Nat
  deriving DecidableEq, Repr

/-- A cluster's answer to a translation request (R371 step 5). -/
inductive Report where
  | pending | ready | verify | limit
  deriving DecidableEq, Repr

/-- A launch (R15, R38, R363, R371). -/
structure Launch where
  uid : Nat
  ctx : Nat
  seq : BitVec 32
  hdr : PktHdr
  body : LaunchBody
  producer : Nat
  words : List Word
  digest : List Byte
  args : List Byte
  places : List Place
  checked : Bool
  stage : Stage
  /-- units needed, (die, cluster, unit, answer) -/
  reports : List (Nat × Nat × Nat × Report)
  /-- translations in force: (die, cluster, unit, translation) -/
  trs : List (Nat × Nat × Nat × Nat)
  placed : Nat
  ended : Nat
  dets : Nat
  tasks : Nat
  /-- threads of the launch's teams that have triggered, counted (R84) -/
  trigs : Nat
  releases : List Carry
  /-- what the release of R87 covers: every group and command of the launch that has ended -/
  ends : List Carry
  elapsed : Nat
  start : Option Nat
  fired : Bool
  /-- step at which its teams reached the cluster schedulers (R18) -/
  arrived : Nat
  /-- since which cycle the next team waits on each cluster: (die, cluster, cycle) (R285) -/
  waits : List (Nat × Nat × Nat)
  /-- pressure translations asked for: (die, cluster, budget, core) (R285) -/
  press : List (Nat × Nat × Nat × Nat)
  /-- steps of the requests for translations: (die, cluster, step) (R259, R261) -/
  asked : List (Nat × Nat × Nat)
  deriving DecidableEq, Repr

/-! ## Engine commands -/

/-- A resolved address pattern (R190). -/
structure Pat where
  base : Nat
  near : Bool
  c0 : Nat
  lv : List (Nat × Int)
  deriving DecidableEq, Repr

/-- A resolved command (R191). -/
inductive EngOp where
  | copy (src dst : Pat)
  | reduce (src dst : Pat) (combine : BitVec 4) (elem : BitVec 2)
  | gather (tbl idx : Nat) (n : Nat) (dst : Nat) (esz : Nat) (idx64 : Bool)
  | scatter (tbl idx : Nat) (n : Nat) (src : Nat) (esz : Nat) (idx64 : Bool)
      (combine : BitVec 4) (elem : BitVec 2)
  | rows (rp ci va xv first n dst cap : Nat) (esz : Nat) (rp64 gath cols : Bool) (br bc : Nat)
  | isect (a : Nat) (aNear : Bool) (na : Nat) (b : Nat) (bNear : Bool) (nb : Nat) (out cap : Nat)
      (key64 signed : Bool)
  deriving DecidableEq, Repr

/-- Who issued a command. -/
inductive Issuer where
  | group (uid ctr : Nat)
  | packet (q : QRef) (n : Nat)
  deriving DecidableEq, Repr

/-- An engine command in its retriever (R198, R199). -/
structure Cmd where
  uid : Nat
  by_ : Issuer
  die : Nat
  core : Nat
  ctx : Nat
  launch : Nat
  ppc : Nat × Nat
  op : EngOp
  acq : List Acq
  rel : Option Reach
  carries : List Carry
  fetched : List (Nat × List Byte)
  done : List Nat
  parked : List Parked
  err : Option Trap
  /-- groups of the accessing window: team region of the issuing group (R52) -/
  team : Nat
  /-- the earliest instant whose lines it may read (R79, R80) -/
  from_ : Nat
  /-- the iteration that a party of a HERD ran at the issue (R222) -/
  iter : Int
  /-- a read that all later units need has failed, so none of them is known (R199) -/
  cut : Bool
  deriving DecidableEq, Repr

/-! ## Front end -/

/-- A window entry in force (R51). -/
structure Window where
  slice : Nat
  write : Bool
  base : Nat
  limit : Nat
  deriving DecidableEq, Repr

/-- A slice map entry in force (R54). -/
structure SliceEnt where
  slice : Nat
  die : Nat
  commons : Bool
  index : Nat
  deriving DecidableEq, Repr

/-- The isobar chain of a context (R388 to R394). -/
structure Isobar where
  h : List Byte
  lastConfig : List Byte
  launches : Nat
  checkedAll : Bool
  detAll : Bool
  result : Bool
  receipts : Nat
  deriving DecidableEq, Repr

/-- Whether a context is on the device. -/
inductive CtxState where
  | unloaded | loaded | saving | saved | faulted
  deriving DecidableEq, Repr

/-- A context (R358, R374, R388, R396). -/
structure Ctx where
  id : Nat
  fn : Nat
  st : CtxState
  saveArea : Nat
  sampleRing : Nat
  traceRing : Nat
  barrierRing : Nat
  sampleLog2 : Nat
  traceLog2 : Nat
  barrierLog2 : Nat
  debugCtl : BitVec 64
  ptRoot : BitVec 64
  taskQuota : Nat
  pasid : Nat
  pasidEn : Bool
  confidential : Bool
  slices : List SliceEnt
  windows : List Window
  launchCount : BitVec 32
  isobar : Isobar
  dumpKey : Nat
  xtsKey : Nat
  /-- a save under way: UNLOAD, migratable (R399, R400) -/
  saveUnload : Bool
  saveMig : Bool
  /-- the watchdog and stop records of a context in FAULTED, for a dump (R423) -/
  faultRecs : List Byte
  /-- cycle at which the watchdog fired for the context (R45) -/
  firedAt : Option Nat
  /-- rings with a record dropped since the last one written: barrier, trace, sample (R353) -/
  lost : List Bool
  /-- saved groups and tasks kept with the save area's image (R401 to R403) -/
  savedGroups : List Group
  savedTeams : List Team
  savedTasks : List TaskGroup
  savedRecs : List Task
  savedBytes : List Host.Cell
  savedFull : List Nat
  /-- the slice map that was in force at the save -/
  savedSlices : List SliceEnt
  /-- the windows whose contents UNLOAD saved -/
  savedWindows : List Window
  savedLayout : Nat
  savedXlat : BitVec 32
  deriving DecidableEq, Repr

/-- What a started packet waits for. -/
inductive PktWork where
  /-- its start is under way; the launch sequence number once one is given -/
  | begun (seq : Option (BitVec 32))
  | launch (uid : Nat)
  | copy (cmd : Nat)
  | barrier (addrs : List (BitVec 64))
  | wait (a v : BitVec 64) (cmp : SigCmp) (deadline : Option Nat)
  /-- a time stamp: the start's count while it is still to be written -/
  | stamp (a : BitVec 64) (start : Option Nat)
  /-- a completion whose writes are parked: status, still to write status record, signal -/
  | completing (s : Status) (seq : BitVec 32) (stat sig : Bool)
  deriving DecidableEq, Repr

/-- A packet started and not complete (R367). -/
structure Started where
  hdr : PktHdr
  work : PktWork
  /-- a parked front-end access: generation and page (R384) -/
  parked : Option (Nat × Nat)
  deriving DecidableEq, Repr

/-- A queue that has been kicked or mapped (R355, R356, R366). -/
structure Queue where
  q : QRef
  qcb : Nat
  ring : Nat
  ctxDesc : Nat
  dump : Nat
  dumpBytes : Nat
  limit : Nat
  sizeLog2 : Nat
  priv : Bool
  ctx : Nat
  readIdx : BitVec 32
  pendingSince : Option Nat
  faulted : Bool
  deriving DecidableEq, Repr

/-- A hardware queue slot (R365, R366). -/
structure Slot where
  q : Option QRef
  kick : BitVec 32
  mappedPass : Nat
  deriving DecidableEq, Repr

/-- The front end (R355 to R377). -/
structure Front where
  qtBase : List (BitVec 64)
  slotQuota : List Nat
  slots : List Slot
  queues : List Queue
  started : List Started
  ignoredKicks : List Nat
  droppedDumps : Nat
  suppressed : Nat
  pass : Nat
  nextSlot : Nat
  /-- a packet whose start waits for a parked read of its structures: packet, generation, page -/
  starting : List (Instr × Nat × Nat)
  /-- pages killed for front-end reads: context, page -/
  killed : List (Nat × Nat)
  xevBase : List (BitVec 64)
  xevCtl : List (BitVec 64)
  xevCount : List (List Nat)
  xevLost : List Bool
  ctxOp : BitVec 64
  ctxStatus : BitVec 64
  deriving DecidableEq, Repr

/-! ## Translation of far addresses, faults -/

/-- A TLB entry (R381): the owner core, or none for the die's own TLB. -/
structure TlbEnt where
  core : Option Nat
  ctx : Nat
  page : Nat
  size : Nat
  key : Nat
  write : Bool
  deriving DecidableEq, Repr

/-- Fault registers, TLBs and PRI requests of one compute die (R385). -/
structure Die where
  fbBase : BitVec 64
  fbCtl : BitVec 64
  fbWrite : BitVec 32
  fbRead : BitVec 32
  gen : BitVec 32
  busy : Bool
  killOvf : Bool
  killVa : BitVec 64
  kills : List (Nat × Nat)
  overflow : Nat
  tlb : List TlbEnt
  /-- the name that the first store after the last FLUSH took (R380) -/
  flushId : Nat
  deriving DecidableEq, Repr

/-! ## Cores and clusters -/

/-- The scheduler and reliability state of a core (R24, R406, R412, R413); kept for cores in use. -/
structure Core where
  die : Nat
  core : Nat
  lastAge : Nat
  /-- the host bundle issued last: its cycle, its beats and the threads active in it (R224) -/
  hostAt : Nat
  hostBeats : Nat
  hostMask : Mask
  /-- the cycle of the last helper beat, the lanes that helpers used in it and whether its port was used; the recruiter's age
  and the helper index of the helper that issued last (R224) -/
  helperAt : Nat
  helperLanes : List Nat
  portUsed : Bool
  lastHelper : Nat × Nat
  frozenTo : Option Nat
  mismatches : Nat
  offline : Bool
  retry : Bool
  deriving DecidableEq, Repr

/-- The scheduler state of a cluster (R415, R416). -/
structure Cluster where
  die : Nat
  cluster : Nat
  illegal : Bool
  lastIllegal : Option Nat
  offline : Bool
  deriving DecidableEq, Repr

/-- A stall sampler (R351). -/
structure Sampler where
  ctx : Nat
  die : Nat
  core : Nat
  start : Nat
  fired : Nat
  last : Option Nat
  deriving DecidableEq, Repr

/-! ## Reliability, field life, power, links, security -/

/-- Error log and injection registers (R417, R418). -/
structure Rel where
  errBase : BitVec 64
  errCtl : BitVec 64
  injAddr : BitVec 64
  /-- the last write of ERRINJ_ADDR set a reserved bit, which refuses injections and is not held -/
  injReserved : Bool
  injRefused : Bool
  injDone : Bool
  injXor : BitVec 8
  logged : Nat
  errLost : Bool
  msix : List Nat
  deriving DecidableEq, Repr

/-- The ageing entry of an island (R421). -/
structure Ageing where
  f0 : Nat
  f : Nat
  ppm : Nat
  eol : Nat
  deriving DecidableEq, Repr

/-- The lifetime record (R419 to R422). -/
structure Life where
  seq : Nat
  poweredS : Nat
  cycles : Nat
  errors : List (List Nat)
  temp : List (List Nat)
  volt : List (List Nat)
  ageing : List Ageing
  deriving DecidableEq, Repr

/-- Field life and dumps (R419, R423, R424). -/
structure Field where
  life : Life
  banks : List (List Byte)
  dump : List Byte
  writing : Option (List Byte)
  dumpBytes : Nat
  ignored : Nat
  done : Bool
  /-- answers sent to the management controller, newest first (R425) -/
  mctp : List (List Byte)
  eolEvents : List Nat
  deriving DecidableEq, Repr

/-- Boot states (R429). -/
inductive Boot where
  | inReset | recovery | running
  deriving DecidableEq, Repr

/-- The configuration record in force (R430). -/
structure Conf where
  powerW : Nat
  teamPool : List Nat
  errinj : Bool
  steer : Bool
  dflt : Bool
  deriving DecidableEq, Repr

/-- Firmware in force and staged (R404). -/
structure Firmware where
  version : BitVec 32
  xlat : BitVec 32
  layout : Nat
  measure : List Byte
  staged : Option FwImage
  /-- an activation waits for saves, and the contexts suspended for it that have not resumed (R404) -/
  pending : Bool
  suspended : List Nat
  /-- the last activation: 0 none, 1 activated, 2 STAGED_PENDING_LAYOUT, 3 STAGED_PENDING_PIPELINE -/
  outcome : Nat
  deriving DecidableEq, Repr

/-- Islands: frequency in kHz, and the island that held the lowest fraction last (R426 to R428). -/
structure Power where
  khz : List Nat
  lowest : Option Nat
  overLimit : Bool
  deriving DecidableEq, Repr

/-- A Torair Link port (R432, R433). -/
structure Port where
  up : Bool
  peer : Nat
  downAt : Option Nat
  stopped : Bool
  retries : Nat
  deriving DecidableEq, Repr

/-- Links (R432, R433): the package number, whether it has been written, and the ports. -/
structure Links where
  ident : BitVec 64
  written : Bool
  ports : List Port
  deriving DecidableEq, Repr

/-- The SPDM responder (R431): connection stage, transcript, sessions and the responses sent. -/
structure Spdm where
  stage : Nat
  transcript : List Byte
  algs : Nat
  exchanges : Nat
  sessionKey : Option Nat
  finished : Bool
  responses : List (List Byte)
  /-- contexts whose dump key has been released -/
  released : List Nat
  deriving DecidableEq, Repr

/-- The whole device. -/
structure State where
  /-- instants, reference ticks, island cycles, and the next number of a free value and of a name -/
  steps : Nat
  tick : Nat
  cycle : Nat
  free : Nat
  nextId : Nat
  mem : Mem
  /-- the group taken up for issue, whether it issues next, and the other group contexts -/
  cur : Group
  issuing : Bool
  upset : Upset
  others : List Group
  agenda : List Instr
  teams : List Team
  tasks : List Task
  taskGroups : List TaskGroup
  launches : List Launch
  trans : List Trans
  cache : List CacheEnt
  verdicts : List (List Byte × Option VerifyRec)
  /-- the image that each key has yielded, which it yields every time (R257) -/
  images : List (TKey × List Word)
  cmds : List Cmd
  cores : List Core
  clusters : List Cluster
  samplers : List Sampler
  ctxs : List Ctx
  front : Front
  dies : List Die
  rel : Rel
  field : Field
  boot : Boot
  conf : Conf
  fw : Firmware
  power : Power
  links : Links
  spdm : Spdm
  /-- next instants at which the watchdog check is due (R44) -/
  nextWatch : Nat
  deriving DecidableEq, Repr

/-! ## Reset -/

/-- The generator of R107 with every word zero. -/
def Gen.zero : Gen := { x := 0, y := 0, z := 0, w := 0, v := 0 }

/-- A FREE group context. -/
def Group.free : Group :=
  { uid := 0, kind := .team, st := .free, die := 0, core := 0, slot := 0, age := 0, ctx := 0,
    launch := 0, team := 0, teamIdx := [], gidx := 0, width := 16, active := 0, exited := 0,
    trig := 0, unit := 0, off := 0, frames := [], stack := [], fmt := 4, gen := .zero, rq := [],
    seed := 0, storeQ := [], acq := [], floor := [], early := none, carry := [], unseen := [], wait := none, fe := none,
    ctrs := List.replicate 16 { done := 0, issued := 0, errs := [] }, mfences := 0,
    batchesDone := 0, jobs := [], herd := none, party := none, native := none, fast := false,
    since := 0, bundles := 0, consumed := 0, stopReq := 0, stopCode := 0, stopPpc := (0, 0), frozen := false, stopRec := [], moves := false,
    fired := 0, firedPack := false, lastExit := 0, exitDue := false,
    clock := 0, armed := false, spillOff := 0, spillLen := 0, budget := 8, tilesHeld := 0 }

/-- A die's fault registers at reset (R385). -/
def Die.reset : Die :=
  { fbBase := 0, fbCtl := 0, fbWrite := 0, fbRead := 0, gen := 0, busy := false, killOvf := false,
    killVa := 0, kills := [], overflow := 0, tlb := [], flushId := 0 }

/-- The front end at reset: QT_BASE, XEV_BASE, XEV_CTL, CTX_OP and CTX_STATUS zero (R435, R375,
R399), no queue mapped. -/
def Front.reset : Front :=
  { qtBase := List.replicate 17 0, slotQuota := List.replicate 17 0,
    slots := List.replicate 128 { q := none, kick := 0, mappedPass := 0 }, queues := [],
    started := [], ignoredKicks := List.replicate 17 0, droppedDumps := 0, suppressed := 0,
    pass := 0, nextSlot := 0, starting := [], killed := [], xevBase := List.replicate 168 0,
    xevCtl := List.replicate 168 0, xevCount := List.replicate 168 (List.replicate 10 0),
    xevLost := List.replicate 168 false, ctxOp := 0, ctxStatus := 0 }

/-- The lifetime record before its first update (R419, R421). -/
def Life.fresh : Life :=
  { seq := 0, poweredS := 0, cycles := 0, errors := List.replicate 9 (List.replicate 9 0),
    temp := List.replicate 9 (List.replicate 16 0), volt := List.replicate 16 (List.replicate 8 0),
    ageing := List.replicate 16 { f0 := 0, f := 0, ppm := 0, eol := 0xFFFFFFFF } }

/-- The machine right after reset: every group context FREE, every slice word zero and empty (R57),
every register at its reset value, the configuration defaults (R430), not yet booted (R429). -/
def State.reset : State :=
  { steps := 0, tick := 0, cycle := 0, free := 0, nextId := 1,
    mem := { bytes := [], full := [], hist := [], damage := { words := [], poison := [], news := [] },
             seals := [] },
    cur := Group.free, issuing := false, upset := .clean, others := [], agenda := [], teams := [],
    tasks := [], taskGroups := [], launches := [], trans := [], cache := [], verdicts := [], images := [],
    cmds := [], cores := [], clusters := [], samplers := [], ctxs := [], front := Front.reset,
    dies := List.replicate 8 Die.reset,
    rel := { errBase := 0, errCtl := 0, injAddr := 0, injReserved := false, injRefused := false, injDone := false,
             injXor := 0, logged := 0, errLost := false,
             msix := [] },
    field := { life := Life.fresh, banks := [[], []], dump := [], writing := none, dumpBytes := 0,
               ignored := 0, done := false, mctp := [], eolEvents := [] },
    boot := .inReset,
    conf := { powerW := 3400, teamPool := List.replicate 8 128, errinj := false, steer := true,
              dflt := true },
    fw := { version := 0, xlat := 0, layout := 0, measure := List.replicate 48 0, staged := none,
            pending := false, suspended := [], outcome := 0 },
    power := { khz := List.replicate 16 1800000, lowest := none, overLimit := false },
    links := { ident := 0, written := false, ports := List.replicate 16
                 { up := false, peer := 0, downAt := none, stopped := false, retries := 0 } },
    spdm := { stage := 0, transcript := [], algs := 0, exchanges := 0, sessionKey := none,
              finished := false, responses := [], released := [] },
    nextWatch := 100 }

end Sys2Proof.Machine
end

