-- ==== Sys2Proof/Machine/Mem.lean ====
section
/-! DEFINITION. Memory: keys of bytes, the canonical list of cells, full/empty bits, observers and
scopes, the stores on their way to observers and the value a read takes
(02_memory_spaces.md R47 to R59; 03_memory_ordering.md R63 to R74). -/

namespace Sys2Proof.Machine

open Sys2Proof

/-! ## Keys

A key is `region * 2^60 + offset`: region 1 the core slices, 2 the commons quarters, 16 + t the far
target t of R379, 64 + p the memory of package p. -/

def coreKey (die core off : Nat) : Nat := 2 ^ 60 + (die * 512 + core) * 2 ^ 22 + off
def commonsKey (die quarter off : Nat) : Nat := 2 * 2 ^ 60 + (die * 4 + quarter) * 2 ^ 22 + off
def targetKey (t addr : Nat) : Nat := (16 + t) * 2 ^ 60 + addr
def packageKey (p addr : Nat) : Nat := (64 + p) * 2 ^ 60 + addr

/-- The first key of the aligned 64-bit word that holds a key. -/
def wordKey (k : Nat) : Nat := k / 8 * 8

/-- The key under which a store's record names the full/empty bit of the word at `k`. -/
def bitKey (k : Nat) : Nat := 2 ^ 80 + wordKey k

/-! ## Cells in canonical form: addresses strictly rising, no zero byte listed -/

/-- What an unlisted byte reads as: slices are cleared to zero (R57); memory outside the slices has
no reset contents in the spec and reads zero (notes/assumptions/2.md). -/
def unlisted : Byte := 0

def cellsGet : List Host.Cell → Nat → Byte
  | [], _ => unlisted
  | (a, b) :: rest, k => if a = k then b else cellsGet rest k

/-- Puts a byte in; the value of an unlisted byte removes the entry. -/
def cellsSet (k : Nat) (b : Byte) : List Host.Cell → List Host.Cell
  | [] => if b = unlisted then [] else [(k, b)]
  | (a, c) :: rest =>
    if k < a then (if b = unlisted then (a, c) :: rest else (k, b) :: (a, c) :: rest)
    else if k = a then (if b = unlisted then rest else (k, b) :: rest)
    else (a, c) :: cellsSet k b rest

/-- Rising from above `lo`, no entry equal to the unlisted value. -/
def cellsWf : (lo : Option Nat) → List Host.Cell → Bool
  | _, [] => true
  | lo, (a, b) :: rest =>
    (match lo with | none => true | some l => decide (l < a)) && (b != unlisted) && cellsWf (some a) rest

/-- A set of keys kept in rising order. -/
def keyIn : Nat → List Nat → Bool
  | _, [] => false
  | k, a :: rest => if a = k then true else keyIn k rest

def keySet (k : Nat) (v : Bool) : List Nat → List Nat
  | [] => if v then [k] else []
  | a :: rest =>
    if k < a then (if v then k :: a :: rest else a :: rest)
    else if k = a then (if v then a :: rest else rest)
    else a :: keySet k v rest

def keysWf : (lo : Option Nat) → List Nat → Bool
  | _, [] => true
  | lo, a :: rest =>
    (match lo with | none => true | some l => decide (l < a)) && keysWf (some a) rest

/-- The canonical form of memory. -/
def Mem.wf (m : Mem) : Bool := cellsWf none m.bytes && keysWf none m.full

def Mem.byte (m : Mem) (k : Nat) : Byte := cellsGet m.bytes k
def Mem.setByte (m : Mem) (k : Nat) (b : Byte) : Mem := { m with bytes := cellsSet k b m.bytes }
def Mem.isFull (m : Mem) (k : Nat) : Bool := keyIn (wordKey k) m.full
def Mem.setFull (m : Mem) (k : Nat) (v : Bool) : Mem := { m with full := keySet (wordKey k) v m.full }
def Mem.setBytes (m : Mem) : List (Nat × Byte) → Mem
  | [] => m
  | (k, b) :: rest => (m.setByte k b).setBytes rest

/-- The keys of `n` bytes from `k`. -/
def keysFrom : (n k : Nat) → List Nat
  | 0, _ => []
  | n + 1, k => k :: keysFrom n (k + 1)

/-- The keyed bytes of a little-endian value (R7). -/
def bytesAt : (n k x : Nat) → List (Nat × Byte)
  | 0, _, _ => []
  | n + 1, k, x => (k, BitVec.ofNat 8 x) :: bytesAt n (k + 1) (x / 256)

/-- The number that bytes make, byte 0 lowest (R7). -/
def leNat : List Byte → Nat
  | [] => 0
  | b :: bs => b.toNat + 256 * leNat bs

/-- Clears the cells and full bits of `[k, k + n)` (R50, R57). -/
def Mem.clear (m : Mem) (k n : Nat) : Mem :=
  { m with bytes := m.bytes.filter (fun c => decide (c.1 < k ∨ k + n ≤ c.1)),
           full := m.full.filter (fun a => decide (a < k ∨ k + n ≤ a)),
           damage := { m.damage with
             words := m.damage.words.filter fun w => decide (w.1 < k ∨ k + n ≤ w.1) },
           hist := m.hist.map fun st =>
             { st with bytes := st.bytes.filter (fun b => decide (b.1 % 2 ^ 80 < k ∨ k + n ≤ b.1 % 2 ^ 80)) } }

/-! ## Observers and scopes (R63, R64) -/

def Reach.has : Reach → Obs → Bool
  | .one o, o' => o == o'
  | .brace d c, .core d' c' => d == d' && c / 2 == c' / 2
  | .die d, .core d' _ => d == d'
  | .package, .core _ _ => true
  | .package, .frontEnd => true
  | .domain, .host => false
  | .domain, _ => true
  | .system, _ => true
  | _, _ => false

/-- The reach of a scope code for an agent on a core; `brace` when its team stands on a brace. -/
def reachOf (die core : Nat) (brace : Bool) (scope : Nat) : Reach :=
  match scope with
  | 2 => if brace then .brace die core else .one (.core die core)
  | 4 => .die die
  | 5 => .package
  | 6 => .domain
  | 7 => .system
  | _ => .one (.core die core)

/-- Whether two reaches share an observer. -/
def Reach.meets : Reach → Reach → Bool
  | .one o, r => r.has o
  | r, .one o => r.has o
  | .brace d c, .brace d' c' => d == d' && c / 2 == c' / 2
  | .brace d _, .die d' => d == d'
  | .die d, .brace d' _ => d == d'
  | .die d, .die d' => d == d'
  | _, _ => true

/-- The reach of a packet trailer's ACQ or REL for the front end, none where the field says none (R359): a scope of
the front end below package is the package (R64). -/
def pktReach (c : Nat) : Option Reach :=
  match c with
  | 1 | 2 => some .package
  | 3 => some .system
  | _ => none

/-! ## Stores and their visibility -/

/-- Whether a store is visible to an observer. -/
def Store.seenBy (st : Store) (o : Obs) : Bool := st.seen.any fun p => p.1.has o

/-- Whether it was visible at or before an instant. -/
def Store.seenByAt (st : Store) (o : Obs) (t : Nat) : Bool :=
  st.seen.any fun p => p.1.has o && decide (p.2 ≤ t)

def Store.writes (st : Store) (k : Nat) : Bool := st.bytes.any fun b => b.1 == k

def Store.byteAt (st : Store) (k : Nat) : Option Byte :=
  (st.bytes.find? fun b => b.1 == k).map fun b => b.2.1

/-- Whether a carry covers a store: one of the releasing group's earlier stores, or one that its
observer had seen at the release (R72); an arrival does not cover the writes of commands whose tokens its group has
not observed (R77). -/
def Carry.covers (c : Carry) (st : Store) : Bool :=
  !c.skip.contains st.grp && ((st.grp == c.grp && decide (st.id < c.seq)) || st.seenByAt c.org c.at_)

/-- Whether a store writes a byte of another. -/
def Store.sharesByte (st : Store) (ks : List Nat) : Bool := st.bytes.any fun b => ks.contains b.1

/-- Makes the stores that `base` names visible to a reach, newest first, and with each the stores that come before it in
the coherence order of one of its bytes, `due` naming the bytes so far: an observer sees a byte's stores become visible
in that order (R68). -/
def markDown (base : Store → Bool) (r : Reach) (now : Nat) : List Store → List Nat → List Store
  | [], _ => []
  | st :: older, due =>
    if (base st || st.sharesByte due) && !st.seen.any (fun p => p.1 == r) then
      { st with seen := (r, now) :: st.seen } :: markDown base r now older (st.bytes.map (·.1) ++ due)
    else st :: markDown base r now older due

/-- `markDown` over the history, which is kept oldest first. -/
def Mem.mark (m : Mem) (base : Store → Bool) (r : Reach) (now : Nat) : Mem :=
  { m with hist := (markDown base r now m.hist.reverse []).reverse }

/-- A release takes effect: what it carries is visible to every observer of its reach (R72). -/
def Mem.markCarry (m : Mem) (now : Nat) (c : Carry) : Mem := m.mark c.covers c.reach now

/-! ## Damaged words (R405 to R407, R409) -/

/-- Whether two or more check bits of a word are off. -/
def dead (d : BitVec 8) : Bool := decide (2 ≤ popCount 8 d.toNat)

/-- A write of bytes meets a damaged word: a write of the whole word ends the damage; a partial one
corrects a single bit, or leaves the word uncorrectable and loses its own bytes there. -/
def guardWord (w : Nat × BitVec 8) (acc : Damage × List (Nat × Byte)) : Damage × List (Nat × Byte) :=
  let (d, bs) := acc
  let rest := { d with words := d.words.filter fun x => x.1 != w.1 }
  if !(bs.any fun b => wordKey b.1 == w.1) then acc
  else if (keysFrom 8 w.1).all fun k => bs.any fun b => b.1 == k then (rest, bs)
  else if dead w.2 then
    ({ d with news := d.news ++ [(w.1, 4)] }, bs.filter fun b => wordKey b.1 != w.1)
  else ({ rest with news := d.news ++ [(w.1, 1)] }, bs)

/-- A write over damage: the bytes that land, and the damage left; a write of all 64 bytes of a line
clears its poison. -/
def Damage.guard (d : Damage) (bs : List (Nat × Byte)) : Damage × List (Nat × Byte) :=
  let d := { d with poison := d.poison.filter fun l =>
    !(keysFrom 64 l).all fun k => bs.any fun b => b.1 == k }
  d.words.foldl (fun acc w => guardWord w acc) (d, bs)

/-- Ends the damage of the words and lines that start in `[k, k + n)`. -/
def Mem.heal (m : Mem) (k n : Nat) : Mem :=
  { m with damage := { m.damage with
      words := m.damage.words.filter fun w => decide (w.1 + 8 ≤ k ∨ k + n ≤ w.1),
      poison := m.damage.poison.filter fun l => !(decide (k ≤ l ∧ l + 64 ≤ k + n)) } }

/-! ## Encrypted lines (R396)

Bonded DRAM and CXL memory hold the traffic of a confidential context encrypted, one data unit a line.
Key handle 0 stands for no encryption. -/

def sealable (k : Nat) : Bool := decide (16 ≤ k / 2 ^ 60 ∧ k / 2 ^ 60 ≤ 24)

/-- The key handle of a byte's line. -/
def Mem.sealOf (m : Mem) (k : Nat) : Nat := (assocGet (k / 64 * 64) m.seals).getD 0

/-- What an agent with key `key` takes the line at `line` to hold, whose clear bytes are `bs`. -/
def Mem.decrypt (m : Mem) (key line : Nat) (bs : List Byte) : List Byte :=
  let t := m.sealOf line
  if t = key || !sealable line then bs
  else
    let c := if t = 0 then bs else Config.xtsEnc t line bs
    if key = 0 then c else Config.xtsDec key line c

/-- The bytes from `k` on, as an agent with key `key` reads them where `get` gives the clear bytes. -/
def Mem.openBytes (m : Mem) (key : Nat) (get : Nat → Byte) (n k : Nat) : List Byte :=
  (List.range ((k % 64 + n + 63) / 64)).flatMap (fun i =>
    let line := k / 64 * 64 + 64 * i
    m.decrypt key line ((keysFrom 64 line).map get)) |>.drop (k % 64) |>.take n

/-- A write by an agent with key `key`: every line that is not under that key is written whole, as the
agent sees it with the new bytes in it, and comes under that key. -/
def Mem.sealLines (m : Mem) (key : Nat) (bs : List (Nat × Byte)) : List (Nat × Byte) × Mem :=
  let lines := ((bs.map fun b => b.1 / 64 * 64).eraseDups).filter fun l => sealable l && m.sealOf l != key
  let old := lines.flatMap fun l =>
    (keysFrom 64 l).zip (m.decrypt key l ((keysFrom 64 l).map m.byte))
  (old.filter (fun o => !bs.any fun b => b.1 == o.1) ++ bs,
   { m with seals := lines.foldl (fun t l =>
       if key = 0 then t.filter fun e => e.1 != l else assocSet l key t) m.seals })

/-- A store performed at its slice: what its releases carry is visible before it is (R72), the bytes and the
full/empty bits change, and it takes its place in their coherence orders, visible to the reaches `rs` (R59, R68,
R70). -/
def Mem.perform (m : Mem) (id grp : Nat) (org : Obs) (rs : List Reach) (now : Nat)
    (bs : List (Nat × Byte)) (bits : List (Nat × Bool)) (carries : List Carry) : Mem :=
  let m := carries.foldl (Mem.markCarry · now) m
  let (dmg, bs) := m.damage.guard bs
  let bit (v : Bool) : Byte := if v then 1 else 0
  let st : Store := { id, grp, org, bytes := bs.map (fun b => (b.1, b.2, m.byte b.1))
                        ++ bits.map (fun b => (bitKey b.1, bit b.2, bit (m.isFull b.1))),
                      seen := rs.map fun r => (r, now), carries }
  let m1 := bits.foldl (fun m b => m.setFull b.1 b.2) (m.setBytes bs)
  { m1 with hist := m.hist ++ [st], damage := dmg }

/-- The latest performed store to a byte. -/
def Mem.lastTo (m : Mem) (k : Nat) : Option Nat :=
  (m.hist.reverse.find? fun st => st.writes k).map fun st => st.id

/-! ## The value of a read (R66 to R71, R73) -/

/-- How an agent reads: its observer and group, its acquire points, the latest store it has read from each
byte, the number of the read among the free choices, the instant at which it takes the stores of its own
core (R70), before which they bind it, and the name before which every store binds it (a walk after a FLUSH, R380). -/
structure Reader where
  obs : Obs
  grp : Nat
  acq : List Acq
  floor : List (Nat × Nat)
  n : Nat
  at_ : Nat
  upto : Nat
  deriving DecidableEq, Repr

/-- Whether an acquire point binds a reader to a store: a store visible then of an observer in its reach, or one that a
release carried whose store the acquire read (R73). -/
def Acq.binds (a : Acq) (o : Obs) (st : Store) : Bool :=
  st.seenByAt o a.at_ && (a.reach.has st.org || a.carried.any fun c => c.covers st)

/-- Whether a read of the bytes `ks` as one access cannot return a value earlier than this store (R67, R68, R70, R71,
R73). -/
def Reader.must (r : Reader) (ks : List Nat) (st : Store) : Bool :=
  decide (st.id < r.upto) || (st.org == r.obs && st.seenBy r.obs && (st.grp == r.grp || st.seenByAt r.obs r.at_))
    || r.acq.any (fun a => a.binds r.obs st)
    || ks.any fun k => st.writes k && assocGet k r.floor == some st.id

/-- Whether it may return it: a store of another observer that is visible, when the free choice takes it (R71). -/
def Reader.may (r : Reader) (st : Store) : Bool :=
  st.org != r.obs && st.seenBy r.obs && Config.loadSees r.n st.id

/-- The store that a read of byte `k` returns, of those in coherence order: the last one that the
reader must or does take, each store being taken whole by the one access that reads the bytes `ks` (R67). -/
def pickStore (r : Reader) (ks : List Nat) (k : Nat) : List Store → Option Store → Option Store
  | [], best => best
  | st :: later, best =>
    if st.writes k && (r.must ks st || r.may st) then pickStore r ks k later (some st)
    else pickStore r ks k later best

/-- The old byte of the first store of the history that wrote one. -/
def Mem.oldest (m : Mem) (k : Nat) : Option Byte :=
  (m.hist.findSome? fun st => st.bytes.find? fun b => b.1 == k).map (·.2.2)

/-- The value before every store of the history. -/
def Mem.initial (m : Mem) (k : Nat) : Byte := (m.oldest k).getD (m.byte k)

/-- A byte as a reader's access to `ks` sees it, with the store it returns. -/
def Mem.view (m : Mem) (r : Reader) (ks : List Nat) (k : Nat) : Byte × Option Nat :=
  match pickStore r ks k m.hist none with
  | some st => ((st.byteAt k).getD unlisted, some st.id)
  | none => (m.initial k, none)

/-- The full/empty bit of the word at `k`, likewise. -/
def Mem.bitView (m : Mem) (r : Reader) (ks : List Nat) (k : Nat) : Bool × Option Nat :=
  match pickStore r ks (bitKey k) m.hist none with
  | some st => ((st.byteAt (bitKey k)).getD unlisted != 0, some st.id)
  | none => (((m.oldest (bitKey k)).map (· != 0)).getD (m.isFull k), none)

/-- The store that an engine's reading of a line at instant `at_` returns for byte `k`: the last one visible to the
core at that instant or bound by an acquire point (R79, R80). -/
def lineStore (o : Obs) (acq : List Acq) (at_ k : Nat) : List Store → Option Store → Option Store
  | [], best => best
  | st :: later, best =>
    if st.writes k && (st.seenByAt o at_ || acq.any (fun a => a.binds o st)) then lineStore o acq at_ k later (some st)
    else lineStore o acq at_ k later best

/-- A byte of the line that an engine reads at instant `at_`. -/
def Mem.lineByte (m : Mem) (o : Obs) (acq : List Acq) (at_ k : Nat) : Byte :=
  match lineStore o acq at_ k m.hist none with
  | some st => (st.byteAt k).getD unlisted
  | none => m.initial k

end Sys2Proof.Machine
end

