-- ==== Sys2Proof/Machine/Alu.lean ====
section
/-! DEFINITION. The integer, bit-field and address functions on bit strings of width `w`
(06_tvf_arithmetic.md R141 to R146); both instruction forms use them. -/

namespace Sys2Proof.Machine

open Sys2Proof

/-! ## Arithmetic (R141) -/

def aluAdd (w a b : Nat) : Nat := low w (a + b)
def aluSub (w a b : Nat) : Nat := lowI w ((low w a : Int) - (low w b : Int))
def aluMul (w a b : Nat) : Nat := low w (a * b)
def aluMad (w a b c : Nat) : Nat := low w (a * b + c)
/-- `floor` division by 2^w of the signed product. -/
def aluMulHiS (w a b : Nat) : Nat := lowI w (sgn w a * sgn w b / (2 ^ w : Nat))
def aluMulHiU (w a b : Nat) : Nat := low w (low w a * low w b / 2 ^ w)
def sMin (w : Nat) : Int := -(2 ^ (w - 1) : Nat)
def sMax (w : Nat) : Int := (2 ^ (w - 1) : Nat) - 1
def aluAddSatS (w a b : Nat) : Nat := lowI w (clampI (sgn w a + sgn w b) (sMin w) (sMax w))
def aluSubSatS (w a b : Nat) : Nat := lowI w (clampI (sgn w a - sgn w b) (sMin w) (sMax w))
def aluAddSatU (w a b : Nat) : Nat := min (low w a + low w b) (2 ^ w - 1)
def aluSubSatU (w a b : Nat) : Nat := low w a - low w b
def aluMinS (w a b : Nat) : Nat := if sgn w a ≤ sgn w b then low w a else low w b
def aluMinU (w a b : Nat) : Nat := if low w a ≤ low w b then low w a else low w b
def aluMaxS (w a b : Nat) : Nat := if sgn w b ≤ sgn w a then low w a else low w b
def aluMaxU (w a b : Nat) : Nat := if low w b ≤ low w a then low w a else low w b
def aluNeg (w a : Nat) : Nat := lowI w (-(sgn w a))
def aluAbs (w a : Nat) : Nat := if sgn w a < 0 then lowI w (-(sgn w a)) else low w a

/-! ## Division (R142) -/

/-- Quotient and remainder, unsigned. -/
def aluDivU (w a b : Nat) : Nat × Nat :=
  if low w b = 0 then (2 ^ w - 1, low w a) else (low w a / low w b, low w a % low w b)

/-- Quotient and remainder, signed: truncated towards zero. -/
def aluDivS (w a b : Nat) : Nat × Nat :=
  if low w b = 0 then (2 ^ w - 1, low w a)
  else if sgn w a = sMin w ∧ sgn w b = -1 then (low w a, 0)
  else
    let q := Int.tdiv (sgn w a) (sgn w b)
    (lowI w q, lowI w (sgn w a - q * sgn w b))

/-! ## Logic, shifts and bits (R143) -/

def aluAnd (w a b : Nat) : Nat := low w (a &&& b)
def aluOr (w a b : Nat) : Nat := low w (a ||| b)
def aluXor (w a b : Nat) : Nat := low w (a ^^^ b)
def aluNot (w a : Nat) : Nat := 2 ^ w - 1 - low w a
def aluShl (w a n : Nat) : Nat := if w ≤ n then 0 else low w (a * 2 ^ n)
def aluShrU (w a n : Nat) : Nat := if w ≤ n then 0 else low w a / 2 ^ n
def aluShrS (w a n : Nat) : Nat := lowI w (sgn w a / (2 ^ (if w ≤ n then w - 1 else n) : Nat))
def aluRotl (w a n : Nat) : Nat :=
  let r := n % w
  low w (low w a * 2 ^ r + low w a / 2 ^ (w - r))
def aluRotr (w a n : Nat) : Nat :=
  let r := n % w
  low w (low w a / 2 ^ r + low w a * 2 ^ (w - r))
def aluClz (w a : Nat) : Nat := w - bitLen (low w a)
def aluCtz (w a : Nat) : Nat := ctzBits w a
def aluPopc (w a : Nat) : Nat := popCount w a
def aluBrev (w a : Nat) : Nat := revBits w a

/-! ## Bit fields (R144) -/

def bfField (w a pos len : Nat) : Nat := low w a / 2 ^ min pos w % 2 ^ min len w
def aluBfeU (w a pos len : Nat) : Nat := bfField w a pos len
def aluBfeS (w a pos len : Nat) : Nat :=
  let l := min len w
  if l = 0 then 0 else lowI w (sgn l (bfField w a pos len))
def aluBfi (w a b pos len : Nat) : Nat :=
  let p := min pos w
  let mk := (2 ^ min len w - 1) * 2 ^ p % 2 ^ w
  (low w a &&& (2 ^ w - 1 - mk)) ||| (low w (b * 2 ^ p) &&& mk)

/-! ## Width changes (R145) -/

def aluSext (v w a : Nat) : Nat :=
  if v = 0 then 0 else lowI w (sgn v a)

/-! ## Near addresses (R146) -/

/-- `nadd` and `nidx`: the offset advances within its 22 bits. -/
def nearAdd (p : Nat) (d : Int) : Nat :=
  p / 2 ^ 22 * 2 ^ 22 + lowI 22 ((p % 2 ^ 22 : Nat) + d)
def aluNadd (p d : Nat) : Nat := nearAdd p (sgn 64 d)
def aluNidx (p i k : Nat) : Nat := nearAdd p (sgn 64 i * (low 32 k : Nat))
def aluNmake (sl off : Nat) : Nat := low 64 (low 32 sl * 2 ^ 22 + low 22 off)
def aluNsplit (p : Nat) : Nat × Nat := (p / 2 ^ 22 % 2 ^ 14, p % 2 ^ 22)

/-! ## Elements of a word (R158, R152) -/

/-- Element `j` of width `e`. -/
def elemOf (e x j : Nat) : Nat := x / 2 ^ (e * j) % 2 ^ e

/-- Elements side by side, element 0 lowest. -/
def packElems (e : Nat) : List Nat → Nat
  | [] => 0
  | x :: xs => x % 2 ^ e + packElems e xs * 2 ^ e

/-- A two-element form: a scalar function on both halves. -/
def halves1 (f : Nat → Nat) (a : Nat) : Nat := packElems 16 [f (elemOf 16 a 0), f (elemOf 16 a 1)]
def halves2 (f : Nat → Nat → Nat) (a b : Nat) : Nat :=
  packElems 16 [f (elemOf 16 a 0) (elemOf 16 b 0), f (elemOf 16 a 1) (elemOf 16 b 1)]
def halves3 (f : Nat → Nat → Nat → Nat) (a b c : Nat) : Nat :=
  packElems 16 [f (elemOf 16 a 0) (elemOf 16 b 0) (elemOf 16 c 0),
    f (elemOf 16 a 1) (elemOf 16 b 1) (elemOf 16 c 1)]

end Sys2Proof.Machine
end

