-- ==== Sys2Proof/Machine/Fp.lean ====
section
/-! DEFINITION. Floating-point formats, exact values and the rounding functions
(04_number_formats.md R90 to R99). -/

namespace Sys2Proof.Machine

open Sys2Proof

/-! ## Formats (R90) -/

/-- A format: its exponent and fraction widths, bias, largest finite encoding, infinity encoding
and canonical NaN. -/
structure Fmt where
  ebits : Nat
  p : Nat
  bias : Nat
  maxEnc : Nat
  inf : Option Nat
  nan : Nat
  deriving DecidableEq, Repr

def fmtF64 : Fmt := ⟨11, 52, 1023, 0x7FEFFFFFFFFFFFFF, some 0x7FF0000000000000, 0x7FF8000000000000⟩
def fmtF32 : Fmt := ⟨8, 23, 127, 0x7F7FFFFF, some 0x7F800000, 0x7FC00000⟩
/-- The canonical NaN of bf16 has sixteen bits, exponent all ones and the top fraction bit: 0x7FC0. -/
def fmtBf16 : Fmt := ⟨8, 7, 127, 0x7F7F, some 0x7F80, 0x7FC0⟩
def fmtF16 : Fmt := ⟨5, 10, 15, 0x7BFF, some 0x7C00, 0x7E00⟩
def fmtE4m3 : Fmt := ⟨4, 3, 7, 0x7E, none, 0x7F⟩
def fmtE5m2 : Fmt := ⟨5, 2, 15, 0x7B, some 0x7C, 0x7E⟩

/-- The format of a floating type; f32 for every other type. -/
def fmtOf : Ty → Fmt
  | .f64 => fmtF64
  | .bf16 => fmtBf16
  | .f16 => fmtF16
  | .e4m3 => fmtE4m3
  | .e5m2 => fmtE5m2
  | _ => fmtF32

def Fmt.width (f : Fmt) : Nat := 1 + f.ebits + f.p
/-- The exponent of the unit of a subnormal. -/
def Fmt.qmin (f : Fmt) : Int := 1 - (f.bias : Int) - (f.p : Int)
def Fmt.isFp8 (f : Fmt) : Bool := f.width == 8
def Fmt.signBit (f : Fmt) (s : Bool) : Nat := if s then 2 ^ (f.width - 1) else 0

/-! ## Values -/

/-- A value: NaN, an infinity, or `± m × 2 ^ e`; a zero is `m = 0`. -/
inductive Fv where
  | nan
  | inf (s : Bool)
  | fin (s : Bool) (m : Nat) (e : Int)
  deriving DecidableEq, Repr

/-- The value that an encoding holds (R90); subnormals at their full value (R92). -/
def Fmt.decode (f : Fmt) (x : Nat) : Fv :=
  let s := x.testBit (f.width - 1)
  let mag := x % 2 ^ (f.width - 1)
  if mag ≤ f.maxEnc then
    let ex := mag / 2 ^ f.p
    let fr := mag % 2 ^ f.p
    if ex = 0 then .fin s fr f.qmin else .fin s (2 ^ f.p + fr) (f.qmin + ex - 1)
  else if f.inf = some mag then .inf s
  else .nan

/-- An exact result before rounding: NaN, an infinity, or a magnitude in
`[m × 2 ^ e, (m + 1) × 2 ^ e)` that equals `m × 2 ^ e` unless `more` is set. -/
inductive Ex where
  | nan
  | inf (s : Bool)
  | num (s : Bool) (m : Nat) (e : Int) (more : Bool)
  deriving DecidableEq, Repr

def Fv.ex : Fv → Ex
  | .nan => .nan
  | .inf s => .inf s
  | .fin s m e => .num s m e false

/-- A rounding mode; stochastic rounding with its 16 random bits (R93, R95). -/
inductive RMode where
  | rn | rz | up | dn
  | sr (rho : Nat)
  deriving DecidableEq, Repr

/-- Whether the magnitude `(n + (rem + more) / 2 ^ k)` goes to `n + 1` (R94, R95). -/
def roundsUp (md : RMode) (s : Bool) (n rem k : Nat) (more : Bool) : Bool :=
  match md with
  | .rn => decide (2 ^ k < 2 * rem) || (decide (2 * rem = 2 ^ k) && (more || n % 2 == 1))
  | .rz => false
  | .up => !s && (rem != 0 || more)
  | .dn => s && (rem != 0 || more)
  | .sr rho => decide (rho < rem * 65536 / 2 ^ k)

/-- `m × 2 ^ e` in units of `2 ^ q`, rounded to a whole number of units. -/
def toUnits (md : RMode) (s : Bool) (m : Nat) (e q : Int) (more : Bool) : Nat :=
  if q ≤ e then m * 2 ^ (e - q).toNat
  else
    let k := (q - e).toNat
    let n := m / 2 ^ k
    if roundsUp md s n (m % 2 ^ k) k more then n + 1 else n

/-- The overflow result (R96) with FMT.F8_SAT. -/
def Fmt.overflow (f : Fmt) (md : RMode) (sat s : Bool) : Nat :=
  let toInf := match md with
    | .rn => true
    | .rz => false
    | .up => !s
    | .dn => s
    | .sr _ => true
  if f.isFp8 && sat || !toInf then f.maxEnc + f.signBit s
  else match f.inf with
    | some i => i + f.signBit s
    | none => f.nan

/-- A conversion of an infinity (R99). -/
def Fmt.ofInf (f : Fmt) (sat s : Bool) : Nat :=
  if f.isFp8 && sat then f.maxEnc + f.signBit s
  else match f.inf with
    | some i => i + f.signBit s
    | none => f.nan

/-- The rounding functions of R94 and R95: the encoding of an exact result. -/
def Fmt.round (f : Fmt) (md : RMode) (sat : Bool) : Ex → Nat
  | .nan => f.nan
  | .inf s => f.ofInf sat s
  | .num s m e more =>
    if m = 0 ∧ more = false then f.signBit s
    else
      let q0 : Int := e + (topBit m : Int) - f.p
      let q := if q0 < f.qmin then f.qmin else q0
      let enc := (q - f.qmin).toNat * 2 ^ f.p + toUnits md s m e q more
      if f.maxEnc < enc then f.overflow md sat s else enc + f.signBit s

/-! ## Exact operations (R92, R98, R149) -/

/-- Sign of an exact zero sum of unlike signs (R92). -/
def zeroSign (md : RMode) : Bool := md == .dn

/-- Exact sum. -/
def exAdd (md : RMode) : Fv → Fv → Ex
  | .nan, _ => .nan
  | _, .nan => .nan
  | .inf a, .inf b => if a = b then .inf a else .nan
  | .inf a, _ => .inf a
  | _, .inf b => .inf b
  | .fin s m e, .fin t n g =>
    let q := min e g
    let a : Int := (m * 2 ^ (e - q).toNat : Nat)
    let b : Int := (n * 2 ^ (g - q).toNat : Nat)
    let x := (if s then -a else a) + (if t then -b else b)
    if x = 0 then .num (if s = t then s else zeroSign md) 0 q false
    else .num (decide (x < 0)) x.natAbs q false

def Fv.neg : Fv → Fv
  | .nan => .nan
  | .inf s => .inf (!s)
  | .fin s m e => .fin (!s) m e

def Fv.isZero : Fv → Bool
  | .fin _ m _ => m == 0
  | _ => false

/-- Exact product, as a value: a finite product is `m × 2 ^ e` again. -/
def fvMul : Fv → Fv → Fv
  | .nan, _ => .nan
  | _, .nan => .nan
  | .inf a, .inf b => .inf (a != b)
  | .inf a, .fin t n _ => if n = 0 then .nan else .inf (a != t)
  | .fin s m _, .inf b => if m = 0 then .nan else .inf (s != b)
  | .fin s m e, .fin t n g => .fin (s != t) (m * n) (e + g)

/-- Exact quotient with at least 70 bits and the rest in `more`. -/
def exDiv : Fv → Fv → Ex
  | .nan, _ => .nan
  | _, .nan => .nan
  | .inf _, .inf _ => .nan
  | .inf a, .fin t _ _ => .inf (a != t)
  | .fin s _ _, .inf b => .num (s != b) 0 0 false
  | .fin s m e, .fin t n g =>
    if n = 0 then (if m = 0 then .nan else .inf (s != t))
    else if m = 0 then .num (s != t) 0 0 false
    else
      let k := 72 + bitLen n - bitLen m
      .num (s != t) (m * 2 ^ k / n) (e - g - k) (m * 2 ^ k % n != 0)

/-- Exact square root with at least 70 bits. -/
def exSqrt : Fv → Ex
  | .nan => .nan
  | .inf s => if s then .nan else .inf false
  | .fin s m e =>
    if m = 0 then .num s 0 0 false
    else if s then .nan
    else
      let k0 := 144 - bitLen m
      let k := if (e - (k0 : Int)) % 2 = 0 then k0 else k0 + 1
      let n := m * 2 ^ k
      let r := isqrt n
      .num false r ((e - (k : Int)) / 2) (r * r != n)

/-- Exact reciprocal square root (R98). -/
def exRsqrt : Fv → Ex
  | .nan => .nan
  | .inf s => if s then .nan else .num false 0 0 false
  | .fin s m e =>
    if m = 0 then .inf s
    else if s then .nan
    else
      let m' := if e % 2 = 0 then m else 2 * m
      let e' := if e % 2 = 0 then e else e - 1
      let k := 80 + bitLen m'
      let r := isqrt (2 ^ (2 * k) / m')
      .num false r (-(e' / 2) - (k : Int)) (r * r * m' != 2 ^ (2 * k))

/-! ### exp2 and log2

Both are irrational but where they are exact, so a value with enough bits below the last place of the
result, rounded with `more` set, gives the correctly rounded result: 24-bit arguments have no result
within 2^-90 of a breakpoint of a format of at most 24 bits relative to the result. -/

/-- Fraction bits of the fixed-point series. -/
def serBits : Nat := 320

/-- `ln 2` in units of `2 ^ -serBits`, from the series of 1 / (k 2^k). -/
def ln2Terms : (n k : Nat) → Nat
  | 0, _ => 0
  | n + 1, k => 2 ^ serBits / (k * 2 ^ k) + ln2Terms n (k + 1)

/-- Terms of the exponential series from `t`, the `k`-th. -/
def expTerms (y : Nat) : (n k t : Nat) → Nat
  | 0, _, _ => 0
  | n + 1, k, t => t + expTerms y n (k + 1) (t * y / (2 ^ serBits * k))

/-- `2 ^ f` for `f` in units of `2 ^ -serBits`, below 1. -/
def exp2Frac (f : Nat) : Nat := expTerms (f * ln2Terms 330 1 / 2 ^ serBits) 80 1 (2 ^ serBits)

def exExp2 : Fv → Ex
  | .nan => .nan
  | .inf s => if s then .num false 0 0 false else .inf false
  | .fin s m e =>
    if m = 0 then .num false 1 0 false
    else if 12 ≤ e + (bitLen m : Int) then
      (if s then .num false 1 (-2200) true else .num false 1 2200 true)
    else
      -- the argument in units of 2^-serBits; every f32 value is a whole number of them
      let x : Int := (m * 2 ^ (e + serBits).toNat : Nat)
      let v := if s then -x else x
      let i := v / (2 ^ serBits : Nat)
      let f := (v % (2 ^ serBits : Nat)).toNat
      if f = 0 then .num false 1 i false
      else .num false (exp2Frac f) (i - serBits) true

/-- `n` bits of log2 of `y` in units of `2 ^ -512`, `1 ≤ y < 2`. -/
def log2Bits : (n y acc : Nat) → Nat
  | 0, _, acc => acc
  | n + 1, y, acc =>
    let z := y * y / 2 ^ 512
    if 2 ^ 513 ≤ z then log2Bits n (z / 2) (2 * acc + 1) else log2Bits n z (2 * acc)

def exLog2 : Fv → Ex
  | .nan => .nan
  | .inf s => if s then .nan else .inf false
  | .fin s m e =>
    if m = 0 then .inf true
    else if s then .nan
    else
      let t := topBit m
      let ex : Int := e + t
      if m = 2 ^ t then .num (decide (ex < 0)) ex.natAbs 0 false
      else
        let v : Int := ex * (2 ^ 140 : Nat) + log2Bits 140 (m * 2 ^ (512 - t)) 0
        if 0 ≤ v then .num false v.toNat (-140) true
        else .num true (-v - 1).toNat (-140) true

/-! ## Operations on encodings -/

/-- How a rounding operation rounds: its mode and FMT.F8_SAT. -/
structure RCtx where
  md : RMode
  sat : Bool
  deriving DecidableEq, Repr

def fpAdd (f : Fmt) (c : RCtx) (a b : Nat) : Nat :=
  f.round c.md c.sat (exAdd c.md (f.decode a) (f.decode b))
def fpSub (f : Fmt) (c : RCtx) (a b : Nat) : Nat :=
  f.round c.md c.sat (exAdd c.md (f.decode a) (f.decode b).neg)
def fpMul (f : Fmt) (c : RCtx) (a b : Nat) : Nat :=
  f.round c.md c.sat (fvMul (f.decode a) (f.decode b)).ex
def fpFma (f : Fmt) (c : RCtx) (a b d : Nat) : Nat :=
  f.round c.md c.sat (exAdd c.md (fvMul (f.decode a) (f.decode b)) (f.decode d))
def fpDiv (f : Fmt) (c : RCtx) (a b : Nat) : Nat :=
  f.round c.md c.sat (exDiv (f.decode a) (f.decode b))
def fpSqrt (f : Fmt) (c : RCtx) (a : Nat) : Nat := f.round c.md c.sat (exSqrt (f.decode a))
def fpRcp (f : Fmt) (c : RCtx) (a : Nat) : Nat :=
  f.round c.md c.sat (exDiv (.fin false 1 0) (f.decode a))
def fpRsq (f : Fmt) (c : RCtx) (a : Nat) : Nat := f.round c.md c.sat (exRsqrt (f.decode a))
def fpExp2 (f : Fmt) (c : RCtx) (a : Nat) : Nat := f.round c.md c.sat (exExp2 (f.decode a))
def fpLog2 (f : Fmt) (c : RCtx) (a : Nat) : Nat := f.round c.md c.sat (exLog2 (f.decode a))

/-- The integer that `± m × 2 ^ e` rounds to (R150, R155). -/
def roundInt (md : RMode) (s : Bool) (m : Nat) (e : Int) : Int :=
  let n := toUnits md s m e 0 false
  if s then -(n : Int) else n

/-- `frint` (R150): a zero result keeps the sign. -/
def fpRint (f : Fmt) (c : RCtx) (a : Nat) : Nat :=
  match f.decode a with
  | .nan => f.nan
  | .inf _ => a % 2 ^ f.width
  | .fin s m e =>
    if 0 ≤ e ∨ m = 0 then a % 2 ^ f.width
    else f.round c.md c.sat (.num s (toUnits c.md s m e 0 false) 0 false)

/-- Comparison of two numbers: `none` when a NaN takes part. -/
def fvCmp : Fv → Fv → Option Ordering
  | .nan, _ => none
  | _, .nan => none
  | .inf a, .inf b => some (if a = b then .eq else if a then .lt else .gt)
  | .inf a, _ => some (if a then .lt else .gt)
  | _, .inf b => some (if b then .gt else .lt)
  | .fin s m e, .fin t n g =>
    let q := min e g
    let a : Int := (m * 2 ^ (e - q).toNat : Nat)
    let b : Int := (n * 2 ^ (g - q).toNat : Nat)
    some (compare (if s then -a else a) (if t then -b else b))

/-- A value as a result: a NaN is the canonical one (R91). -/
def fpCanon (f : Fmt) (a : Nat) : Nat := if f.decode a == .nan then f.nan else a

/-- minimumNumber and maximumNumber (R97): −0 is less than +0. -/
def fpMin (f : Fmt) (a b : Nat) : Nat :=
  let x := f.decode a
  let y := f.decode b
  match fvCmp x y with
  | some .lt => a
  | some .gt => b
  | some .eq => if x.isZero && !a.testBit (f.width - 1) then b else a
  | none => if x == .nan then (if y == .nan then f.nan else b) else a

def fpMax (f : Fmt) (a b : Nat) : Nat :=
  let x := f.decode a
  let y := f.decode b
  match fvCmp x y with
  | some .lt => b
  | some .gt => a
  | some .eq => if x.isZero && a.testBit (f.width - 1) then b else a
  | none => if x == .nan then (if y == .nan then f.nan else b) else a

/-- R151: the sign operations; a NaN gives the canonical NaN. -/
def fpAbs (f : Fmt) (a : Nat) : Nat :=
  if f.decode a = .nan then f.nan else a % 2 ^ (f.width - 1)
def fpNeg (f : Fmt) (a : Nat) : Nat :=
  if f.decode a = .nan then f.nan else (a % 2 ^ f.width) ^^^ 2 ^ (f.width - 1)
def fpCopysign (f : Fmt) (a b : Nat) : Nat :=
  if f.decode a = .nan then f.nan
  else a % 2 ^ (f.width - 1) + f.signBit (f.decode b != .nan && b.testBit (f.width - 1))

/-- Conversion between floating formats (R155, R99). -/
def fpConv (g f : Fmt) (c : RCtx) (x : Nat) : Nat := f.round c.md c.sat (g.decode x).ex

/-- Conversion of an integer (R155). -/
def intToFp (w : Nat) (signed : Bool) (f : Fmt) (c : RCtx) (x : Nat) : Nat :=
  let v : Int := if signed then sgn w x else (low w x : Nat)
  f.round c.md c.sat (.num (decide (v < 0)) v.natAbs 0 false)

/-- Conversion to an integer of width `w` (R155, R99). -/
def fpToInt (g : Fmt) (w : Nat) (signed : Bool) (md : RMode) (x : Nat) : Nat :=
  let lo : Int := if signed then -(2 ^ (w - 1) : Nat) else 0
  let hi : Int := if signed then (2 ^ (w - 1) : Nat) - 1 else (2 ^ w : Nat) - 1
  match g.decode x with
  | .nan => 0
  | .inf s => lowI w (if s then lo else hi)
  | .fin s m e => lowI w (clampI (roundInt md s m e) lo hi)

/-- `cvt.scaled` (R156): one rounding of the exact product with an f32 scale. -/
def fpScaled (g f : Fmt) (c : RCtx) (x sc : Nat) : Nat :=
  f.round c.md c.sat (fvMul (g.decode x) (fmtF32.decode sc)).ex

/-- The value of an e8m0 scale as f32 (R102). -/
def e8m0ToF32 (x : Nat) : Nat :=
  if x % 256 = 255 then fmtF32.nan
  else fmtF32.round .rn true (.num false 1 ((x % 256 : Nat) - 127) false)

end Sys2Proof.Machine
end

