-- ==== Sys2Proof/Machine/Flags.lean ====
section
/-! DEFINITION. The one-bit results: carry and borrow (R141), the compare conditions (R127, R160),
the class test (R161), and the fields of FMT with the rounding mode that they give (R93, R100). -/

namespace Sys2Proof.Machine

open Sys2Proof

/-! ## Carry and borrow (R141) -/

def carryOf (w a b cin : Nat) : Bool := decide (2 ^ w ≤ low w a + low w b + cin)
def borrowOf (w a b bin : Nat) : Bool := decide (low w a < low w b + bin)
def aluAddc (w a b cin : Nat) : Nat := low w (low w a + low w b + cin)
def aluSubc (w a b bin : Nat) : Nat := lowI w ((low w a : Int) - (low w b : Int) - (bin : Int))

/-! ## Compare (R127, R160) -/

/-- A condition on an ordering; `none` is unordered, for which only `ne` and `uno` hold. -/
def Cond.holds (c : Cond) (o : Option Ordering) : Bool :=
  match c, o with
  | .eq, some .eq => true
  | .ne, some .eq => false
  | .ne, _ => true
  | .lt, some .lt => true
  | .le, some .lt => true
  | .le, some .eq => true
  | .gt, some .gt => true
  | .ge, some .gt => true
  | .ge, some .eq => true
  | .ord, some _ => true
  | .uno, none => true
  | _, _ => false

def cmpInt (w : Nat) (signed : Bool) (a b : Nat) : Ordering :=
  if signed then compare (sgn w a) (sgn w b) else compare (low w a) (low w b)

/-- The ordering of two operands of a type (R160). -/
def cmpTy (t : Ty) (signed : Bool) (a b : Nat) : Option Ordering :=
  if t.isFloat then fvCmp ((fmtOf t).decode a) ((fmtOf t).decode b)
  else some (cmpInt t.width signed a b)

/-! ## Class (R161) -/

/-- The class bit of a value. -/
def classBit (f : Fmt) (x : Nat) : Nat :=
  let s := x.testBit (f.width - 1)
  match f.decode x with
  | .nan => 8
  | .inf _ => if s then 0 else 7
  | .fin _ m _ =>
    if m = 0 then (if s then 3 else 4)
    else if x % 2 ^ (f.width - 1) / 2 ^ f.p = 0 then (if s then 2 else 5)
    else if s then 1 else 6

/-! ## FMT (R100) -/

def fmtRound (fmt : Word) : RMode :=
  match fmt.toNat % 4 with
  | 0 => .rn
  | 1 => .rz
  | 2 => .up
  | _ => .dn
def fmtSat (fmt : Word) : Bool := fmt.getLsbD 2
def fmtSr (fmt : Word) : Bool := fmt.getLsbD 3
def fmtScale (fmt : Word) : BitVec 2 := fmt.extractLsb' 4 2

/-- FMT with the fields of a write mask taken from a value (R226). -/
def fmtMerge (mask : BitVec 4) (v old : Word) : Word :=
  let m : Word := (if mask.getLsbD 0 then 3 else 0) ||| (if mask.getLsbD 1 then 4 else 0)
    ||| (if mask.getLsbD 2 then 8 else 0) ||| (if mask.getLsbD 3 then 0x30 else 0)
  (v &&& m) ||| (old &&& ~~~m)

/-- The mode of a rounding code that is not stochastic (R93). -/
def rndMode (fmt : Word) : Rnd → RMode
  | .rn => .rn
  | .rz => .rz
  | .up => .up
  | .dn => .dn
  | _ => fmtRound fmt

/-- Whether a conversion to a floating format rounds stochastically (R93, R157). -/
def rndStoch (fmt : Word) (r : Rnd) : Bool := r == .sr || (r == .fmt && fmtSr fmt)

/-- The rounding of an arithmetic instruction. -/
def arithCtx (fmt : Word) (r : Rnd) : RCtx := ⟨rndMode fmt r, fmtSat fmt⟩

/-- The rounding of a conversion, with the random bits of its thread when it is stochastic. -/
def convCtx (fmt : Word) (r : Rnd) (rho : Nat) : RCtx :=
  ⟨if rndStoch fmt r then .sr rho else rndMode fmt r, fmtSat fmt⟩

end Sys2Proof.Machine
end

