-- ==== Sys2Proof/Machine/NativeState.lean ====
section
/-! DEFINITION. The native registers of a group, its flags, and the landing of results (14_tbf_formats_timing.md R295,
R296, R298 to R300; 16_compiler_programs.md R339). -/

namespace Sys2Proof.Machine

open Sys2Proof

/-! ## Native registers (R295, R308) -/

/-- Vector register vC.N of a group's native state; zeros where nothing is written yet. -/
def vregGet (n : Native) (cl i : Nat) : List Word := (assocGet (cl * 128 + i) n.v).getD []
def vregSet (n : Native) (w cl i : Nat) (m : Mask) (new : List Word) : Native :=
  let old := vregGet n cl i
  let merged := (List.range w).map fun t => if m.getLsbD t then new.getD t 0 else old.getD t 0
  { n with v := assocSet (cl * 128 + i) merged n.v }
def sregGet (n : Native) (i : Nat) : Word := n.s.getD i 0
def sregSet (n : Native) (i : Nat) (x : Word) : Native := { n with s := n.s.set i x }
def kregGet (n : Native) (i : Nat) : Mask := n.k.getD i 0
def kregSet (n : Native) (i : Nat) (x : Mask) : Native := { n with k := n.k.set i x }
def setNative (g : Group) (f : Native → Native) : Group := { g with native := g.native.map f }

/-! ## Flags (R300) -/

def addFlag (n : Native) (f : Nat) (d : Int) : Native :=
  { n with flags := (n.flags.zipIdx).map fun p => if p.2 = f then ((p.1 : Int) + d).toNat else p.1 }

/-! ## Results (R298, R299) -/

/-- A result lands in its destination for the threads of its mask (R298, R309). A predicate carries its
bits in its first lane, FMT its value, and a seed the generator state made from it. A cluster that is gated keeps no
result (R296). -/
def landDst (g : Group) (d : Dst) (m : Mask) (xs : List Lane) : Group :=
  let x := xs.headD 0
  match d with
  | .v cl i wide => setNative g fun n =>
      if n.clmode != 0 && !n.clmode.getLsbD cl then n else
      let n := vregSet n g.width cl i m (xs.map loWord)
      if wide then vregSet n g.width cl (i + 1) m (xs.map hiWord) else n
  | .s i wide => setNative g fun n =>
      let n := sregSet n i (loWord x)
      if wide then sregSet n (i + 1) (hiWord x) else n
  | .k i => setNative g fun n => kregSet n i ((x &&& m) ||| (kregGet n i &&& ~~~m))
  | .cvctl => setNative g fun n => { n with cvctl := x.truncate 13 }
  | .tile i t => setNative g fun n => { n with t := assocSet i t n.t }
  | .fmt mask => { g with fmt := fmtMerge mask (loWord x) g.fmt }
  | .seed =>
    let w (i : Nat) : Word := loWord (getLane xs i)
    { g with gen := { x := w 0, y := w 1, z := w 2, w := w 3, v := w 4 }, rq := [],
             seed := if g.party.isSome then g.seed else getLane xs 5 }

/-- Whether two destinations share a register. -/
def Dst.meets (a b : Dst) : Bool :=
  match a, b with
  | .v c i w, .v d j x => c == d && decide (i ≤ j + x.toNat ∧ j ≤ i + w.toNat)
  | .s i w, .s j x => decide (i ≤ j + x.toNat ∧ j ≤ i + w.toNat)
  | .k i, .k j => i == j
  | .tile i _, .tile j _ => i == j
  | _, _ => false

/-- A destination's undefined value: free bits in every thread, and in every element of a tile. -/
def spoilt (g : Group) (count result : Nat) (d : Dst) : Dst × Mask × List Lane :=
  match d with
  | .tile i t =>
    let data := (t.data.zipIdx).map fun e =>
      BitVec.ofNat 32 ((Config.hazardBits g.uid count result e.2).toNat % 2 ^ t.desc.elem.width)
    (.tile i { t with data := data }, 0, [])
  | d => (d, fullMask g.width, (List.range g.width).map (Config.hazardBits g.uid count result))

/-- A fixed-latency result lands. Where a variable-latency write of the register is pending, the register's value is
undefined (R299): both writes leave free bits. -/
def landResult (g : Group) (p : Pend) (result : Nat) : Group :=
  match g.native with
  | none => g
  | some n =>
    if (n.var.any fun v => v.dsts.any fun d => d.1.meets p.dst) then
      let x := spoilt g n.count result p.dst
      setNative (landDst g x.1 x.2.1 x.2.2) fun n =>
        let var := n.var.map fun v =>
          let dsts := v.dsts.map fun d => if d.1.meets p.dst then spoilt g n.count result d.1 else d
          { v with dsts := dsts }
        { n with var := var }
    else landDst g p.dst p.mask p.vals

/-- What a read before its completion finds of a variable-latency result: per thread the old or the new value
(R300), by a free choice that writes the new one early. -/
def landEarly (g : Group) : Group :=
  match g.native with
  | none => g
  | some n => (n.var.zipIdx).foldl (fun g v => v.1.dsts.foldl (fun g d =>
      let new (t : Nat) : Bool := Config.readsNew g.uid n.count v.2 t
      match d.1 with
      | .v .. | .k _ => landDst g d.1 (d.2.1 &&& maskOf ((List.range g.width).filter new)) d.2.2
      | _ => if new 0 then landDst g d.1 d.2.1 d.2.2 else g) g) g

/-- Results whose bundle has come land in the order of their issue (R298, R299). -/
def landDue (g : Group) : Group :=
  match g.native with
  | none => g
  | some n =>
    let due := (n.pend.zipIdx).filter fun p => decide (p.1.land ≤ n.count)
    let g := due.foldl (fun g p => landResult g p.1 p.2) g
    landEarly (setNative g fun n => { n with pend := n.pend.filter fun p => decide (n.count < p.land) })

/-- The variable-latency operations that a group has issued complete: before a stop of it is recorded (R339). -/
def landVar (g : Group) : Group :=
  match g.native with
  | none => g
  | some n =>
    let g := n.var.foldl (fun g v => v.dsts.foldl (fun g d => landDst g d.1 d.2.1 d.2.2) g) g
    setNative g fun n => { n.var.foldl (fun n v => addFlag n v.flag (-1)) n with var := [] }

end Sys2Proof.Machine
end

