-- ==== Sys2Proof/Machine/Ops.lean ====
section
/-! DEFINITION. The named operations over the state: groups, launches, contexts and teams; near
addresses and their checks (R47 to R54); loads, store queues, atomics and orders (R69 to R76); the
dump buffer (R376); taking a trap and resuming from a stop (R23, R222, R345, R346, R434). -/

namespace Sys2Proof.Machine

open Sys2Proof

abbrev Out := Host.Outcome State Fault Refusal

/-! ## Parts of the state -/

def setCur (s : State) (f : Group → Group) : State := { s with cur := f s.cur }
def setMem (s : State) (f : Mem → Mem) : State := { s with mem := f s.mem }

/-- Replaces the elements that satisfy a test. -/
def modBy {α : Type} (p : α → Bool) (f : α → α) (xs : List α) : List α :=
  xs.map fun x => if p x then f x else x

/-- A held group by its name: the one taken up for issue or one of the others. -/
def groupOf (s : State) (u : Nat) : Option Group :=
  if s.cur.uid == u && s.cur.st != .free then some s.cur else s.others.find? fun g => g.uid == u

def modGroup (s : State) (u : Nat) (f : Group → Group) : State :=
  if s.cur.uid == u && s.cur.st != .free then { s with cur := f s.cur }
  else { s with others := modBy (fun g => g.uid == u) f s.others }

/-- Every held group. -/
def heldGroups (s : State) : List Group :=
  if s.cur.st == .free then s.others else s.cur :: s.others

def dropGroup (s : State) (u : Nat) : State :=
  if s.cur.uid == u && s.cur.st != .free then { s with cur := Group.free }
  else { s with others := s.others.filter fun g => g.uid != u }

/-- The key handle of a context's traffic: 0 where it is not encrypted (R396). -/
def ctxSeal (s : State) (c : Nat) : Nat :=
  match s.ctxs.find? fun x => x.id == c with
  | some x => if x.confidential then x.xtsKey else 0
  | none => 0

def launchOf (s : State) (u : Nat) : Option Launch := s.launches.find? fun l => l.uid == u
def modLaunch (s : State) (u : Nat) (f : Launch → Launch) : State :=
  { s with launches := modBy (fun l => l.uid == u) f s.launches }
def ctxOf (s : State) (c : Nat) : Option Ctx := s.ctxs.find? fun x => x.id == c
def modCtx (s : State) (c : Nat) (f : Ctx → Ctx) : State :=
  { s with ctxs := modBy (fun x => x.id == c) f s.ctxs }
def teamOf (s : State) (u : Nat) : Option Team := s.teams.find? fun t => t.uid == u
def modTeam (s : State) (u : Nat) (f : Team → Team) : State :=
  { s with teams := modBy (fun t => t.uid == u) f s.teams }
def cmdOf (s : State) (u : Nat) : Option Cmd := s.cmds.find? fun c => c.uid == u
def modCmd (s : State) (u : Nat) (f : Cmd → Cmd) : State :=
  { s with cmds := modBy (fun c => c.uid == u) f s.cmds }
def queueOf (s : State) (q : QRef) : Option Queue := s.front.queues.find? fun x => x.q == q
def modQueue (s : State) (q : QRef) (f : Queue → Queue) : State :=
  { s with front := { s.front with queues := modBy (fun x => x.q == q) f s.front.queues } }

/-- A fresh name. -/
def fresh (s : State) : Nat × State := (s.nextId, { s with nextId := s.nextId + 1 })
/-- The number of a fresh free choice. -/
def freeNo (s : State) : Nat × State := (s.free, { s with free := s.free + 1 })

/-- One of several, as the free choice numbered `n` takes it: what the spec leaves to a scheduler. -/
def pick {α : Type} (n : Nat) (xs : List α) : Option α := xs[Config.choice n % xs.length]?

/-- The object of a group's launch. -/
def groupWords (s : State) (g : Group) : List Word :=
  match launchOf s g.launch with
  | some l => l.words
  | none => []

def isBrace (s : State) (g : Group) : Bool :=
  match teamOf s g.team with
  | some t => t.brace
  | none => false

def coreObs (g : Group) : Obs := .core g.die g.core
/-- A group's reach at a scope code; a detached group's team scope is its own threads (R63). -/
def groupReach (s : State) (g : Group) (scope : Nat) : Reach := reachOf g.die g.core (isBrace s g) scope

/-- The logical slice number that a context maps to a core's slice (R55, R16). -/
def logicalCore (s : State) (ctx die core : Nat) : Nat :=
  match ctxOf s ctx with
  | some c =>
    match c.slices.find? fun e => !e.commons && e.die == die && e.index == core with
    | some e => e.slice
    | none => 0
  | none => 0

/-! ## Near addresses (R47 to R54) -/

/-- The key of offset `off` of a mapped slice. -/
def sliceKey (e : SliceEnt) (off : Nat) : Nat :=
  if e.commons then commonsKey e.die e.index off else coreKey e.die e.index off

/-- The window check of R52 for a context and, when it has one, a team: the key of the first byte. -/
def nearCheck (s : State) (ctx team a n : Nat) (write : Bool) : Option Nat :=
  if 2 ^ 36 ≤ a then none
  else
    let sl := a / 2 ^ 22
    let off := a % 2 ^ 22
    match ctxOf s ctx with
    | none => none
    | some c =>
      match c.slices.find? fun e => e.slice == sl with
      | none => none
      | some e =>
        if 2 ^ 22 < off + n then none
        else
          let inWin := c.windows.any fun w => w.slice == sl && decide (w.base * 256 ≤ off)
            && decide (off + n ≤ (w.limit + 1) * 256) && (w.write || !write)
          let inTeam := match teamOf s team with
            | some t => !e.commons && e.die == t.die && e.index == t.core
                && decide (t.regionOff ≤ off) && decide (off + n ≤ t.regionOff + t.regionLen)
            | none => false
          if inWin || inTeam then some (sliceKey e off) else none

def groupNear (s : State) (g : Group) (a n : Nat) (write : Bool) : Option Nat :=
  nearCheck s g.ctx g.team a n write

/-- The group that accesses memory for a group: for a party of a HERD its recruiter's (R223). -/
def accessGroup (s : State) (g : Group) : Group :=
  match g.party with
  | some pt => (groupOf s pt.group).getD g
  | none => g

/-- The near address of an own-slice offset (R53). -/
def localAddr (s : State) (g : Group) (off : Nat) : Nat :=
  let g := accessGroup s g
  logicalCore s g.ctx g.die g.core * 2 ^ 22 + off

/-! ## Orders (R72 to R74) -/

/-- Moves the acquire point of a group for a reach to an instant; `carried` are the releases that reads before it
synchronise with (R73). -/
def Group.acquire (g : Group) (r : Reach) (now : Nat) (carried : List Carry) : Group :=
  let old := g.acq.filter (·.reach == r)
  { g with acq := { reach := r, at_ := now, carried := (carried ++ old.flatMap (·.carried)).eraseDups }
             :: g.acq.filter (·.reach != r),
           early := none }

/-- The releases whose stores, or stores coherence-earlier than it, a group has read from a byte, and that synchronise
with an acquire of the group at reach `r` (R64, R73). -/
def readCarries (s : State) (r : Reach) (k : Nat) : List Carry :=
  match assocGet k s.cur.floor with
  | none => []
  | some id =>
    (s.mem.hist.filter fun st => st.writes k && decide (st.id ≤ id)).flatMap fun st =>
      st.carries.filter fun c => c.reach.has (coreObs s.cur) && r.has c.org

/-- Moves the acquire point for a reach, after reads of the bytes `ks` (R73). -/
def acquireOn (s : State) (r : Reach) (ks : List Nat) : State :=
  setCur s fun g => g.acquire r s.steps (ks.flatMap (readCarries s r))

/-- An acquire that no read of its own performs: the group's earlier reads synchronise (R73). -/
def acquireAt (s : State) (r : Reach) : State := acquireOn s r (s.cur.floor.map (·.1))

/-- What a release by a group now carries towards a reach (R72). -/
def carryNow (s : State) (g : Group) (r : Reach) : Carry :=
  { reach := r, org := coreObs g, at_ := s.steps, grp := g.uid, seq := s.nextId, skip := [] }

/-- A carry among others: a later one of the same group and reach covers what an earlier one does. -/
def addCarry (c : Carry) (cs : List Carry) : List Carry :=
  c :: cs.filter fun x => !(x.reach == c.reach && x.org == c.org && x.grp == c.grp && x.skip == c.skip)

/-- A release fence: every later store of the group carries what came before (R72). -/
def releaseAt (s : State) (r : Reach) : State :=
  setCur s fun g => { g with carry := addCarry (carryNow s g r) g.carry }

/-- The stores of a group's queue leave it in order and are visible to its core (R70). -/
def drainStores (now : Nat) (g : Group) : List QStore → Mem → Mem
  | [], m => m
  | q :: qs, m =>
    drainStores now g qs (m.perform q.id g.uid (coreObs g) [.one (coreObs g)] now q.bytes [] q.carries)

def drainQ (s : State) : State :=
  { s with mem := drainStores s.steps s.cur s.cur.storeQ s.mem, cur := { s.cur with storeQ := [] } }

/-- The same for any held group. -/
def drainGroup (s : State) (u : Nat) : State :=
  match groupOf s u with
  | some g =>
    modGroup { s with mem := drainStores s.steps g g.storeQ s.mem } u fun g => { g with storeQ := [] }
  | none => s

/-- Everything a group's core has seen becomes visible to a reach, the group's queue drained first. -/
def publish (s : State) (u : Nat) (r : Reach) : State :=
  match groupOf s u with
  | some g =>
    let s := drainGroup s u
    setMem s fun m => m.mark (fun st => st.seenBy (coreObs g)) r s.steps
  | none => s

/-- A sequentially consistent fence (R74). -/
def scFence (s : State) (r : Reach) : State := acquireAt (publish s s.cur.uid r) r

/-- The part of an order before an access, and the part after it, which read the bytes `ks` (R65, R74). -/
def orderBefore (s : State) (o : Order) (r : Reach) : State :=
  match o with
  | .seqCst => scFence s r
  | _ => s
def orderAfter (s : State) (o : Order) (r : Reach) (ks : List Nat) : State :=
  match o with
  | .acquire | .acqRel => acquireOn s r ks
  | .seqCst => scFence (acquireOn s r ks) r
  | _ => s

/-- The carries of a store with an order: those of earlier release fences, and its own release. -/
def storeCarries (s : State) (o : Order) (r : Reach) : List Carry :=
  match o with
  | .release | .acqRel | .seqCst => carryNow s s.cur r :: s.cur.carry
  | _ => s.cur.carry

/-! ## Loads and stores of a group -/

/-- The youngest match of a byte in a store queue (R70). -/
def queueByte (k : Nat) (q : List QStore) : Option Byte :=
  q.reverse.findSome? fun e => (e.bytes.reverse.find? fun b => b.1 == k).map (·.2)

/-- The instant at which a load takes the stores of its core: now, or a free one since the atomic or full/empty access
that it may have passed in the queue (R70). -/
def loadInstant (s : State) : Nat :=
  match s.cur.early with
  | none => s.steps
  | some t => t + Config.choice s.free % (s.steps + 1 - t)

/-- A load moves the instant of the loads that follow it, where it is one of the past (R70). -/
def loadsFrom (s : State) (t : Nat) : State := setCur s fun g => { g with early := g.early.map fun _ => t }

/-- The issuing group as a reader of memory. -/
def readerOf (s : State) (n at_ : Nat) : Reader :=
  { obs := coreObs s.cur, grp := s.cur.uid, acq := s.cur.acq, floor := s.cur.floor, n, at_, upto := 0 }

/-- A read of `k` that returned a store: the group's floor advances (R68). -/
def noteRead (s : State) (k : Nat) (id : Option Nat) : State :=
  match id with
  | some id => setCur s fun g => { g with floor := assocSet k id g.floor }
  | none => s

/-- One byte as the group reads it in an access to the bytes `ks`, numbered among the free choices (R68, R70, R71). -/
def loadByte (s : State) (n at_ : Nat) (ks : List Nat) (k : Nat) : Byte × State :=
  match queueByte k s.cur.storeQ with
  | some b => (b, s)
  | none =>
    let (b, id) := s.mem.view (readerOf s n at_) ks k
    (b, noteRead s k id)

/-- Bytes of one access to `ks`, each on its own where it is split (R67). -/
def loadBytes (n at_ : Nat) (split : Bool) (ks : List Nat) : List Nat → Nat → State → List Byte × State
  | [], _, s => ([], s)
  | k :: rest, i, s =>
    let (b, s) := if split then loadByte s (n + i) at_ [k] k else loadByte s n at_ ks k
    let (bs, s) := loadBytes n at_ split ks rest (i + 1) s
    (b :: bs, s)

/-- A load of `n` bytes: whole when naturally aligned, else byte by byte (R67). -/
def loadVal (s : State) (k n : Nat) : Nat × State :=
  let at_ := loadInstant s
  let (bs, s') := loadBytes s.free at_ (k % n != 0) (keysFrom n k) (keysFrom n k) 0 (loadsFrom s at_)
  (leNat bs, { s' with free := s.free + n })

/-- A peek of the word at `k`: a load of its bytes and its full/empty bit as one access (R76). -/
def peekVal (s : State) (k : Nat) : Nat × Bool × State :=
  let at_ := loadInstant s
  let ks := keysFrom 8 k ++ [bitKey k]
  let (bs, s') := loadBytes s.free at_ false ks (keysFrom 8 k) 0 (loadsFrom s at_)
  let (full, id) := s'.mem.bitView (readerOf s' s.free at_) ks k
  (leNat bs, full, { noteRead s' (bitKey k) id with free := s.free + 8 })

/-- A store enters the queue; a naturally aligned one whole, any other byte by byte (R67, R70). -/
def pushStore (s : State) (bs : List (Nat × Byte)) (cs : List Carry) : State :=
  let q : QStore := { id := s.nextId, bytes := bs, carries := cs }
  { s with cur := { s.cur with storeQ := s.cur.storeQ ++ [q] }, nextId := s.nextId + 1 }

def storeVal (s : State) (k n x : Nat) (cs : List Carry) : State :=
  if k % n = 0 then pushStore s (bytesAt n k x) cs
  else (bytesAt n k x).foldl (fun s b => pushStore s [b] cs) s

/-- Marks the latest store to each byte of a word visible to the reading core, with all that its
releases carry (R73, R75). -/
def touch (s : State) (ks : List Nat) : State :=
  let ids := ks.filterMap s.mem.lastTo
  setMem s fun m => m.mark (fun st => ids.contains st.id && !st.seenBy (coreObs s.cur))
    (.one (coreObs s.cur)) s.steps

/-- An atomic of `n` bytes at the slice: `f` gives the new value and the full/empty bit to leave, if it sets one, from
the old value, or none for an access that writes nothing (R59, R75, R76, R176). The answer is the old value. Later loads
may have taken their values while it stood in the queue (R70). -/
def slotAt (s : State) (k n : Nat) (o : Order) (r : Reach) (f : Nat → Option (Nat × Option Bool)) : Nat × State :=
  let s := orderBefore s o r
  let ks := keysFrom n k
  let s := touch (drainQ s) ks
  let old := leNat (ks.map s.mem.byte)
  let s := match f old with
    | some (new, bit) =>
      let cs := storeCarries s o r
      let id := s.nextId
      let bits := match bit with
        | some v => [(wordKey k, v)]
        | none => []
      let m := s.mem.perform id s.cur.uid (coreObs s.cur) [.one (coreObs s.cur)] s.steps (bytesAt n k new) bits cs
      let s := { s with nextId := id + 1, mem := m }
      setCur s fun g => { g with floor := (ks ++ bits.map (bitKey ·.1)).foldl (fun fl b => assocSet b id fl) g.floor }
    | none =>
      let note (fl : List (Nat × Nat)) (b : Nat) : List (Nat × Nat) :=
        match s.mem.lastTo b with
        | some id => assocSet b id fl
        | none => fl
      setCur s fun g => { g with floor := ks.foldl note g.floor }
  let s := setCur s fun g => { g with early := some (g.early.getD s.steps) }
  (old, orderAfter s o r ks)

/-- An atomic that leaves the full/empty bit alone (R58). -/
def atomicAt (s : State) (k n : Nat) (o : Order) (r : Reach) (f : Nat → Option Nat) : Nat × State :=
  slotAt s k n o r fun old => (f old).map fun v => (v, none)

/-! ## The front end's accesses through function addresses (R435) -/

/-- The key of a function address, when it names a target that exists. -/
def fnKey (a : Nat) : Option Nat :=
  let t := a / 2 ^ 60
  if a / 2 ^ 52 % 256 = 0 ∧ (t ≤ 7 ∨ t = 9) then some (targetKey t (a % 2 ^ 52)) else none

/-- The front end reads the newest bytes visible to it, in the clear under a key handle. -/
def feBytesAs (s : State) (key k n : Nat) : List Byte :=
  let r : Reader := ⟨.frontEnd, 0, [⟨.system, s.steps, []⟩], [], s.free, s.steps, 0⟩
  s.mem.openBytes key (fun b => (s.mem.view r [b] b).1) n k

def feBytes (s : State) (k n : Nat) : List Byte := feBytesAs s 0 k n

def feNat (s : State) (k n : Nat) : Nat := leNat (feBytes s k n)

/-- A write under a key handle, visible to the reach `r` and carrying the releases `cs`. -/
def putWith (s : State) (o : Obs) (r : Reach) (cs : List Carry) (key : Nat) (bs : List (Nat × Byte)) : State :=
  let (bs, m) := s.mem.sealLines key bs
  { s with mem := m.perform s.nextId 0 o [.one o, r] s.steps bs [] cs, nextId := s.nextId + 1 }

/-- A write under a key handle, visible to its own agent; to others it becomes so later (R71). -/
def putAs (s : State) (o : Obs) (key : Nat) (bs : List (Nat × Byte)) : State := putWith s o (.one o) [] key bs

/-- A write by the host or another package, which may be ordered after that agent's earlier ones (R72, R86). -/
def putOutside (s : State) (o : Obs) (bs : List (Nat × Byte)) : State :=
  putWith s o (.one o) (if Config.ordersHost s.free then [⟨.system, o, s.steps, 0, 0, []⟩] else []) 0 bs

/-- The front end writes bytes. -/
def feWrite (s : State) (bs : List (Nat × Byte)) : State := putAs s .frontEnd 0 bs

def feWriteNat (s : State) (k n x : Nat) : State := feWrite s (bytesAt n k x)

/-- Whether a write to a target outside the package fails: a free choice. -/
def writeFails (s : State) (k : Nat) : Bool × State :=
  if 16 + 8 ≤ k / 2 ^ 60 then
    let (n, s) := freeNo s
    (Config.remoteFails n, s)
  else (false, s)

/-- How an access to another package goes (R432, R433): whether it fails, or none while it waits for a port that
is down for less than 1 ms. -/
def remoteGo (s : State) (k : Nat) : Option Bool × State :=
  if k / 2 ^ 60 < 64 then (some false, s)
  else
    let mine := s.links.ports.filter fun p => !p.stopped && p.peer == k / 2 ^ 60 - 64
    if mine.any fun p => p.up then
      let (bad, s) := writeFails s k
      (some bad, s)
    else if mine.any fun p => p.downAt.isSome then (none, s)
    else (some true, s)

/-! ## The dump buffer (R376) -/

/-- Fields of a record as one number: (value, lowest bit). -/
def recNat (fs : List (Nat × Nat)) : Nat := fs.foldl (fun acc f => acc + f.1 * 2 ^ f.2) 0

/-- Bytes padded with zeros to a multiple of 16. -/
def pad16 (bs : List Byte) : List Byte := bs ++ List.replicate ((16 - bs.length % 16) % 16) 0

/-- A payload encrypted to the owner: nonce, 4 zero bytes, ciphertext, tag. -/
def sealPayload (key : Nat) (nonce payload : List Byte) : List Byte :=
  let (c, t) := Config.gcmSeal key nonce (pad16 payload)
  nonce ++ List.replicate 4 0 ++ c ++ t

def bytesKeyed (k : Nat) : List Byte → List (Nat × Byte)
  | [] => []
  | b :: bs => (k, b) :: bytesKeyed (k + 1) bs

def dropDump (s : State) : State :=
  { s with front := { s.front with droppedDumps := s.front.droppedDumps + 1 } }

/-- Writes one entry to a queue's dump buffer. -/
def dumpEntry (s : State) (q : QRef) (ctx seq type : Nat) (fired : Bool) (payload : List Byte) : State :=
  match queueOf s q with
  | none => dropDump s
  | some qu =>
    if qu.dump = 0 ∨ qu.dumpBytes < 4096 ∨ qu.dumpBytes % 16 ≠ 0 then dropDump s
    else match fnKey qu.dump with
      | none => dropDump s
      | some k =>
        let (bad, s) := writeFails s k
        if bad then dropDump s
        else
          let (n, s) := freeNo s
          let conf := match ctxOf s ctx with
            | some c => if c.confidential then some c.dumpKey else none
            | none => none
          let body := match conf with
            | some key => sealPayload key (Config.nonceOf n) payload
            | none => pad16 payload
          let hdr := natBytes 32 (recNat [(s.tick, 192), (ctx, 160), (seq, 128), (body.length, 64),
            (fired.toNat, 5), (conf.isSome.toNat, 4), (type, 0)])
          let cap := qu.dumpBytes - 64
          let wo := feNat s k 8
          let ro := feNat s (k + 8) 8
          let e := 32 + body.length
          let used := wo - ro
          let fr := cap - used
          let rest := cap - wo % cap
          if used ≤ cap ∧ e ≤ rest ∧ e ≤ fr then
            let s := feWrite s (bytesKeyed (k + 64 + wo % cap) (hdr ++ body))
            feWriteNat s k 8 (wo + e)
          else if used ≤ cap ∧ rest < e ∧ rest + e ≤ fr then
            let s := if 32 ≤ rest then
                feWrite s (bytesKeyed (k + 64 + wo % cap)
                  (natBytes 32 (recNat [(s.tick, 192), (ctx, 160), (rest - 32, 64), (4, 0)])
                    ++ List.replicate (rest - 32) 0))
              else s
            let s := feWrite s (bytesKeyed (k + 64) (hdr ++ body))
            feWriteNat s k 8 (wo + rest + e)
          else feWriteNat s (k + 16) 8 (feNat s (k + 16) 8 + 1)

/-! ## Stops, traps and resumption -/

/-- The number of a trap (R434); USER has none. -/
def Trap.num : Trap → Nat
  | .window => 1 | .alignment => 2 | .constRange => 3 | .farFault => 4 | .uncorrectable => 5
  | .uniformity => 6 | .divergenceDepth => 7 | .barrierScope => 8 | .format => 9
  | .copyFormat => 10 | .helperExit => 11 | .mismatch => 12 | .user _ => 0

/-- STOP and CODE of a trap (R346, R434). -/
def Trap.stop : Trap → Nat × Nat
  | .user c => (2, c.toNat)
  | t => (4, t.num)

/-- What a stop record says beside the group's own state (R346). -/
structure StopInfo where
  stop : Nat
  code : Nat
  ppc : Nat × Nat
  helper : Bool
  helperIter : Int
  recruiter : Nat
  deriving DecidableEq, Repr

/-- The portable PC of a group: in its top frame, or the side-table entry of its native bundle. -/
def ppcOf (g : Group) : Nat × Nat :=
  match g.native with
  | some n => n.ppc
  | none =>
    match g.frames with
    | f :: _ => (f.fn, g.off)
    | [] => (g.unit, g.off)

def stackDepth (g : Group) : Nat :=
  match g.native with
  | some n => n.stack.length
  | none => g.stack.length

/-- The TEAM value that records give a group: of a team, of a detached group, all ones for a task. -/
def teamNo (g : Group) : Nat :=
  if g.kind == .task then 0xFFFFFFFF else (g.teamIdx.getD 0 0).toNat

def groupNo (g : Group) : Nat := if g.kind == .team then g.gidx.toNat else 0xFFFF

/-- The 48 bytes of a stop record (R346). -/
def stopRecord (s : State) (g : Group) (i : StopInfo) : List Byte :=
  let (lp, st, it) := match g.native with
    | some n => match n.loop with
      | some (l, st, it) => (l, st, it)
      | none => (0, 0, 0)
    | none => (0, 0, 0)
  natBytes 48 (recNat [(it, 352), (lowI 32 i.helperIter, 320), (i.recruiter, 256), (g.ctx, 224),
    (teamNo g, 192), (groupNo g, 176), (i.stop, 168), (stackDepth g, 160), (i.ppc.1, 144),
    (i.ppc.2, 120), (logicalCore s g.ctx g.die g.core, 104), (g.slot, 99),
    ((lp != 0).toNat, 98), (i.helper.toNat, 97), (lp, 89), (st, 86), (i.code, 70),
    (g.active.toNat, 0)])

/-- Helpers that leave when a group stops: its own pack and those that borrow its slots (R221). -/
def releaseHelpers (s : State) (u : Nat) : State :=
  let go (p : Group) : Group := match p.party with
    | some pt => if pt.helper != 0 && (pt.group == u || (match pt.slot with
        | some (b, _) => b == u
        | none => false)) then { p with party := some { pt with release := true } } else p
    | none => p
  { s with cur := go s.cur, others := s.others.map go }

/-- The queue and sequence number of a launch. -/
def launchQ (s : State) (l : Nat) : QRef × Nat :=
  match launchOf s l with
  | some x => (x.hdr.q, x.seq.toNat)
  | none => ({ fn := 0, qid := 0 }, 0)

/-- A held group enters HALTED with a stop record in its queue's dump buffer (R23, R346); its variable-latency operations
complete first (R339). -/
def haltGroup (s : State) (u : Nat) (i : StopInfo) : State :=
  match groupOf s u with
  | none => s
  | some g =>
    let (q, seq) := launchQ s g.launch
    let rec_ := stopRecord s g i
    let s := dumpEntry s q g.ctx seq 2 false (rec_ ++ List.replicate 16 0)
    let s := modGroup s u fun g => { landVar g with st := .halted, stopCode := i.stop, stopPpc := i.ppc, stopRec := rec_, fast := false, stopReq := 0 }
    releaseHelpers s u

/-- A native group goes back to the bundle that it issued last. -/
def backUp (g : Group) : Group :=
  { g with native := g.native.map fun n => { n with clause := n.at_.1, bundle := n.at_.2 } }

/-- Taking a trap by the issuing group (R23, R88, R434): it enters HALTED at the trapping instruction
and its stop record is written; none of the instruction's effects has happened. -/
def takeTrap (s : State) (t : Trap) : State :=
  haltGroup (setCur s backUp) s.cur.uid
    { stop := t.stop.1, code := t.stop.2, ppc := ppcOf s.cur, helper := false, helperIter := 0, recruiter := 0 }

/-- Changes the range of one recruiter thread. -/
def modRange (h : Herd) (t : Nat) (f : Range → Range) : Herd :=
  { h with ranges := modBy (fun r => r.thread == t) f h.ranges }

/-- The failing iteration that a range reports is its lowest (R222). -/
def worseFault (old : Option HerdFault) (f : HerdFault) : Option HerdFault :=
  match old with
  | some o => if o.iter ≤ f.iter then some o else some f
  | none => some f

/-- Charges a fault to a range of a recruiter's HERD (R222). -/
def chargeFault (s : State) (group thread : Nat) (f : HerdFault) : State :=
  modGroup s group fun g => match g.herd with
    | some h => { g with herd := some (modRange h thread fun r => { r with fault := worseFault r.fault f }) }
    | none => g

/-- The commands a group has outstanding. -/
def cmdsBy (s : State) (u : Nat) : List Cmd :=
  s.cmds.filter fun c => match c.by_ with
    | .group x _ => x == u
    | .packet _ _ => false

/-- The errors of a group's tokens that it has not observed, in the order in which their commands were issued. -/
def tokErrs (g : Group) : List TokErr := sortBy (fun a b => decide (a.cmd ≤ b.cmd)) (g.ctrs.flatMap (·.errs))

/-- A party whose commands have all completed gives its slot back; an error it never observed is charged to its
range, at the iteration that issued the command (R200, R222). -/
def partyGone (s : State) (u : Nat) : State :=
  match groupOf s u with
  | none => s
  | some p =>
    match p.party with
    | none => s
    | some pt =>
      let s := (tokErrs p).foldl (fun s e =>
        chargeFault s pt.group pt.thread { trap := e.trap, iter := e.iter, ppc := e.ppc }) s
      let s := modGroup s pt.group fun g => match g.herd with
        | some h => { g with herd := some (modRange h pt.thread fun r => { r with out := r.out - 1 }) }
        | none => g
      dropGroup s u

/-- A party leaves its HERD: its stores are released at team scope (R85); it is gone once its commands
have completed. -/
def partyLeave (s : State) (u : Nat) : State :=
  match groupOf s u with
  | none => s
  | some p =>
    let s := publish s u (groupReach s p 2)
    if (cmdsBy s u).isEmpty then partyGone s u
    else modGroup s u fun g =>
      { g with st := .waiting, wait := none, fe := none,
               party := g.party.map fun pt => { pt with gone := true } }

/-- A trap in a helper function stops the party and marks its range (R222). -/
def partyTrap (s : State) (pt : Party) (t : Trap) (ppc : Nat × Nat) : State :=
  partyLeave (chargeFault s pt.group pt.thread { trap := t, iter := pt.iter, ppc }) s.cur.uid

/-- A trap at the issuing group or party, charged to a portable PC. -/
def raiseAt (s : State) (t : Trap) (ppc : Nat × Nat) : State :=
  match s.cur.party with
  | some pt => partyTrap s pt t ppc
  | none => haltGroup (setCur s backUp) s.cur.uid
      { stop := t.stop.1, code := t.stop.2, ppc, helper := false, helperIter := 0, recruiter := 0 }

/-- A trap at the issuing group or party. -/
def raise (s : State) (t : Trap) : State :=
  match s.cur.party with
  | some pt => partyTrap s pt t (ppcOf s.cur)
  | none => takeTrap s t

/-- Return from a stop (R23, R88, R345): the group goes READY at the PC that its stop names, its
earlier stores visible at package scope and its acquire point moved there. -/
def resumeGroup (s : State) (u : Nat) : State :=
  let s := publish s u .package
  modGroup s u fun g =>
    if g.st == .halted then
      { (g.acquire .package s.steps []) with st := .ready, stopCode := 0, stopRec := [], fast := false }
    else g

end Sys2Proof.Machine
end

