-- ==== Sys2Proof/Machine/Operands.lean ====
section
/-! DEFINITION. Operands and results of both forms: the immediates and values of the Value Form
(R128 to R130, R139), the vector, uniform and predicate operands of the Bundle Form (R295, R308 to
R310) and the results that land later (R298). -/

namespace Sys2Proof.Machine

open Sys2Proof

/-! ## Value Form -/

/-- An immediate as a value of a type (R129). -/
def immLane (t : Ty) : Opd → Lane
  | .val _ => 0
  | .imm v => lane (lowI t.width v.toInt)
  | .long1 w => if t == .i64 then lane (lowI 64 w.toInt) else lane (low t.width w.toNat)
  | .long2 lo hi => lane (low t.width (lo.toNat + hi.toNat * 2 ^ 32))

/-- The lanes of value `n` in the top frame; zeros where nothing is written yet
(notes/assumptions/4.md). -/
def valLanes (g : Group) (n : Nat) : List Lane :=
  match g.frames with
  | f :: _ => (assocGet n f.vals).getD []
  | [] => []

/-- What thread `t` reads for an operand of a type. -/
def opd (s : State) (ty : Ty) (o : Opd) (t : Nat) : Lane :=
  match o with
  | .val n => getLane (valLanes s.cur n.toNat) t
  | _ => immLane ty o

/-- `u(x)` of an operand: its bits of the type's width as a number (R139). -/
def opdN (s : State) (ty : Ty) (o : Opd) (t : Nat) : Nat := low ty.width (opd s ty o t).toNat

/-- The active threads in ascending order. -/
def actives (s : State) : List Nat := threadsOf s.cur.active s.cur.width

/-- The lowest-indexed active thread, whose operands stand for the group's. -/
def leader (s : State) : Nat := (actives s).headD 0

/-- The item of the issuing instruction: its length and the number of its first result. -/
def here (s : State) : Option Item :=
  match s.cur.frames with
  | f :: _ => itemAt (fnItems (groupWords s s.cur) f.fn) s.cur.off
  | [] => none
def hereLen (s : State) : Nat :=
  match here s with
  | some it => it.len
  | none => 1
def hereVal (s : State) : Nat :=
  match here s with
  | some it => it.val
  | none => 0

/-- New lanes where the mask has a thread, the old ones elsewhere. -/
def mergeLanes (w : Nat) (m : Mask) (new old : List Lane) : List Lane :=
  (List.range w).map fun t => if m.getLsbD t then getLane new t else getLane old t

def setFrame (g : Group) (f : Frame → Frame) : Group :=
  match g.frames with
  | x :: xs => { g with frames := f x :: xs }
  | [] => g

/-- Writes the lanes of value `n` for the threads of a mask. -/
def setVal (g : Group) (n : Nat) (m : Mask) (new : List Lane) : Group :=
  setFrame g fun f =>
    { f with vals := assocSet n (mergeLanes g.width m new ((assocGet n f.vals).getD [])) f.vals }

/-- Writes values `n`, `n + 1`, … -/
def setVals (g : Group) (m : Mask) : (n : Nat) → List (List Lane) → Group
  | _, [] => g
  | n, v :: vs => setVals (setVal g n m v) m (n + 1) vs

/-- The portable PC moves to the next instruction. -/
def advance (s : State) : State := setCur s fun g => { g with off := g.off + hereLen s }

/-- Writes results for the active threads and advances. -/
def finish (s : State) (rs : List (List Lane)) : State :=
  let n := hereVal s
  advance (setCur s fun g => setVals g g.active n rs)

/-- Writes results for every thread (R32) and advances. -/
def finishAll (s : State) (rs : List (List Lane)) : State :=
  let n := hereVal s
  advance (setCur s fun g => setVals g (fullMask g.width) n rs)

/-- One list per result from one list per thread. -/
def columns (w k : Nat) (f : Nat → List Lane) : List (List Lane) :=
  (List.range k).map fun j => (List.range w).map fun t => (f t).getD j 0

/-- An instruction that computes `k` results per thread; once for the group when it is uniform
(R139). -/
def perThread (s : State) (uni : Bool) (k : Nat) (f : Nat → List Lane) : State :=
  if uni then finishAll s (columns s.cur.width k fun _ => f (leader s))
  else finish s (columns s.cur.width k f)

/-- One result. -/
def perThread1 (s : State) (uni : Bool) (f : Nat → Nat) : State :=
  perThread s uni 1 fun t => [lane (f t)]

/-- The threads that perform an access: one for the uniform form (R167). -/
def accessors (s : State) (uni : Bool) : List Nat := if uni then [leader s] else actives s

/-- Runs an access for each thread in turn, collecting its results. -/
def eachThread (f : Nat → State → List Lane × State) : List Nat → State → List (Nat × List Lane) × State
  | [], s => ([], s)
  | t :: ts, s =>
    let (r, s) := f t s
    let (rs, s) := eachThread f ts s
    ((t, r) :: rs, s)

/-- Writes `k` results collected per thread, to every thread for the uniform form, and advances. -/
def finishEach (s : State) (uni : Bool) (k : Nat) (rs : List (Nat × List Lane)) : State :=
  if uni then finishAll s (columns s.cur.width k fun _ => ((rs.head?.map (·.2)).getD []))
  else finish s (columns s.cur.width k fun t => (assocGet t rs).getD [])

/-! ## Groups other than the issuing one -/

/-- Runs an operation with a held group in the place of the issuing one, and puts both back. -/
def asCur (s : State) (u : Nat) (f : State → State) : State :=
  if s.cur.uid == u && s.cur.st != .free then f s
  else match s.others.find? fun g => g.uid == u with
    | none => s
    | some g =>
      let old := s.cur
      let rest := s.others.filter fun x => x.uid != u
      let s1 := f { s with cur := g, others := if old.st == .free then rest else old :: rest }
      let back := if old.st == .free then Group.free
        else (s1.others.find? fun x => x.uid == old.uid).getD Group.free
      let rest := if old.st == .free then s1.others
        else s1.others.filter fun x => x.uid != old.uid
      { s1 with cur := back, others := if s1.cur.st == .free then rest else s1.cur :: rest }

/-- The result of an instruction that acts once for the group, delivered to every thread. -/
def finishU (s : State) (rs : List Lane) : State :=
  finishAll s (rs.map fun r => List.replicate s.cur.width r)

end Sys2Proof.Machine
end

