-- ==== Sys2Proof/Machine/Far.lean ====
section
/-! DEFINITION. Far addresses: the page-table walk, TLBs and ATS, fault records, parked lines
(19_far_translation_faults.md R378 to R387), and the rings that the device writes in a context's far
space (17_debug_profile.md R353). -/

namespace Sys2Proof.Machine

open Sys2Proof

/-! ## Damaged storage -/

/-- Whether a read of the 64-byte line of a key consumes an uncorrectable error: its line is poisoned,
or a word of it has two or more bits changed (R405 to R408). -/
def badLine (s : State) (k : Nat) : Bool :=
  s.mem.damage.poison.any (fun l => l == k / 64 * 64)
    || s.mem.damage.words.any fun w => w.1 / 64 == k / 64 && dead w.2

/-! ## Translation -/

/-- What a far access meets: memory, a fault that parks (R384), an ATS miss, or an end without hope
(R387). -/
inductive FarRes where
  | hit (key : Nat)
  | fault (level reason : Nat)
  | atsMiss
  | dead
  deriving DecidableEq, Repr

/-- A found translation: page size and the key of its first byte, with WRITE. -/
structure PageHit where
  size : Nat
  key : Nat
  write : Bool
  deriving DecidableEq, Repr

/-- The key of frame `addr` of a leaf's target (R379). -/
def leafKey (target pkg addr : Nat) : Nat :=
  if target = 10 then packageKey pkg addr else targetKey target addr

/-- Whether an entry read at a level is malformed (R379). -/
def pteMalformed (level e : Nat) : Bool :=
  let target := bitsOf e 63 60
  let leaf := bitOf e 1
  let contig := bitOf e 3
  let sva := bitOf e 4
  let addr := bitsOf e 51 12 * 4096
  bitsOf e 59 58 != 0 || bitsOf e 11 5 != 0 || decide (11 ≤ target)
    || (bitsOf e 57 52 != 0 && target != 10)
    || (sva && target != 9)
    || (!leaf && level == 0) || (leaf && decide (3 ≤ level))
    || (!leaf && decide (8 ≤ target))
    || (contig && level != 0)
    || (leaf && addr % (if level == 2 then 2 ^ 30 else if level == 1 then 2 ^ 21
          else if contig then 65536 else 4096) != 0)

/-- The size of the page that a leaf maps (R378). -/
def leafSize (level : Nat) (contig : Bool) : Nat :=
  if level = 2 then 2 ^ 30 else if level = 1 then 2 ^ 21 else if contig then 65536 else 4096

/-- An ATS translation of the page of an address (R383). -/
def atsWalk (pasid n va : Nat) (write : Bool) : Except FarRes PageHit :=
  match Config.ats n pasid (va / 4096) with
  | none => .error .atsMiss
  | some (host, w) =>
    if write && !w then .error .atsMiss
    else .ok { size := 4096, key := targetKey 9 (host / 4096 * 4096), write := w }

/-- The walk from the table at `key`, level by level (R378, R382). The spec does not say what an access past the 64 GB of a
die's bonded DRAM or past a CXL port's memory meets: every frame of 52 bits is memory here (DESIGN CHOICE,
notes/assumptions/67.md). -/
def walkFrom (s : State) (r : Reader) (pasid va : Nat) (write : Bool) :
    (level : Nat) → (key : Nat) → Except FarRes PageHit
  | level, key =>
    let idx := va / 2 ^ (12 + 9 * level) % 512
    let ek := key + 8 * idx
    if badLine s ek then .error .dead
    else
      let e := leNat ((keysFrom 8 ek).map fun k => (s.mem.view r (keysFrom 8 ek) k).1)
      if !bitOf e 0 then .error (.fault level 1)
      else if pteMalformed level e then .error (.fault level 3)
      else if bitOf e 4 then atsWalk pasid r.n va write
      else if bitOf e 1 then
        if write && !bitOf e 2 then .error (.fault level 2)
        else .ok { size := leafSize level (bitOf e 3), write := bitOf e 2,
                   key := leafKey (bitsOf e 63 60) (bitsOf e 57 52)
                     (bitsOf e 51 12 * 4096 / leafSize level (bitOf e 3) * leafSize level (bitOf e 3)) }
      else match level with
        | 0 => .error (.fault 0 3)
        | l + 1 => walkFrom s r pasid va write l (targetKey (bitsOf e 63 60) (bitsOf e 51 12 * 4096))

/-- The die whose FLUSH a walk for an observer follows: its own, die 0 for the front end (R380, R384). -/
def walkDie : Obs → Nat
  | .core d _ => d
  | _ => 0

/-- The walk of a context's table for an address (R378, R382, R383): it sees every table write that the die's last FLUSH
found made (R380, R386). -/
def walkFar (s : State) (o : Obs) (c : Ctx) (va : Nat) (write : Bool) : Except FarRes PageHit :=
  let r : Reader := { obs := o, grp := 0, acq := [], floor := [], n := s.free, at_ := s.steps,
                      upto := ((s.dies[walkDie o]?).map (·.flushId)).getD 0 }
  let root := c.ptRoot.toNat
  if root = 0 then
    if c.pasidEn then atsWalk c.pasid s.free va write else .error (.fault 4 4)
  else if 8 ≤ bitsOf root 63 60 ∨ bitsOf root 59 52 ≠ 0 ∨ bitsOf root 11 0 ≠ 0 then .error (.fault 4 3)
  else walkFrom s r c.pasid va write 4 (targetKey (bitsOf root 63 60) (bitsOf root 51 12 * 4096))

/-- A TLB of `n` entries takes one more (R381); the entry that gives way where it is full is free. -/
def tlbKeep (free : Nat) (own other : List TlbEnt) (n : Nat) (e : TlbEnt) : List TlbEnt :=
  e :: (if own.length < n then own else own.eraseIdx (Config.choice free % own.length)) ++ other

/-- Installs a page in a retriever's TLB and in its die's. -/
def tlbInstall (s : State) (die core : Nat) (e : TlbEnt) : State :=
  { s with free := s.free + 2, dies := (s.dies.zipIdx).map fun p =>
      if p.2 = die then
        let d := p.1
        let mine := d.tlb.filter (·.core == some core)
        let rest := d.tlb.filter (·.core != some core)
        let one := tlbKeep s.free mine rest 256 { e with core := some core }
        let shared := one.filter (·.core == none)
        { d with tlb := tlbKeep (s.free + 1) shared (one.filter (·.core != none)) 16384 { e with core := none } }
      else p.1 }

def tlbFind (s : State) (die core ctx va : Nat) : Option TlbEnt :=
  match s.dies[die]? with
  | none => none
  | some d =>
    let hit (e : TlbEnt) : Bool := e.ctx == ctx && decide (e.page ≤ va) && decide (va < e.page + e.size)
    match d.tlb.find? fun e => e.core == some core && hit e with
    | some e => some e
    | none => d.tlb.find? fun e => e.core == none && hit e

/-- Translates one far address for a retriever (R381). -/
def translate (s : State) (die core ctx va : Nat) (write : Bool) : FarRes × State :=
  if 2 ^ 57 ≤ va then (.dead, s)
  else match ctxOf s ctx with
    | none => (.dead, s)
    | some c =>
      match tlbFind s die core ctx va with
      | some e =>
        if write && !e.write then
          (.fault (if e.size = 2 ^ 30 then 2 else if e.size = 2 ^ 21 then 1 else 0) 2, s)
        else (.hit (e.key + (va - e.page)), s)
      | none =>
        match walkFar s (.core die core) c va write with
        | .error f => (f, { s with free := s.free + 1 })
        | .ok h =>
          let page := va / h.size * h.size
          let s := tlbInstall { s with free := s.free + 1 } die core
            { core := none, ctx, page, size := h.size, key := h.key, write := h.write }
          (.hit (h.key + (va - page)), s)

/-! ## Fault records (R384, R385) -/

def dieAt (s : State) (d : Nat) : Die := s.dies.getD d Die.reset
def modDie (s : State) (d : Nat) (f : Die → Die) : State :=
  { s with dies := (s.dies.zipIdx).map fun p => if p.2 = d then f p.1 else p.1 }

/-- Writes a fault record to a die's buffer, or counts it as not written. -/
def faultRecord (s : State) (die : Nat) (rec_ : Nat) : State :=
  let d := dieAt s die
  let n := bitsOf d.fbCtl.toNat 12 8
  if d.fbCtl.getLsbD 0 ∧ 6 ≤ n ∧ n ≤ 16 ∧ (d.fbWrite - d.fbRead).toNat < 2 ^ n then
    let k := targetKey die (bitsOf d.fbBase.toNat 51 12 * 4096 + 32 * (d.fbWrite.toNat % 2 ^ n))
    let s := feWriteNat s k 32 rec_
    modDie s die fun d => { d with fbWrite := d.fbWrite + 1 }
  else modDie s die fun d => { d with overflow := min (d.overflow + 1) (2 ^ 64 - 1) }

/-- What a fault record says of the access. -/
structure FaultSrc where
  ctx : Nat
  va : Nat
  ppc : Nat × Nat
  core : Nat
  slot : Nat
  counter : Nat
  write : Bool
  helper : Bool
  source : Nat
  deriving DecidableEq, Repr

def faultFields (s : State) (die level reason : Nat) (f : FaultSrc) : Nat :=
  let hide := match ctxOf s f.ctx with
    | some c => c.confidential
    | none => false
  recNat [((dieAt s die).gen.toNat, 224), (f.ctx, 192), (if hide then 0 else f.va / 4096 * 4096, 128),
    (if hide then 0 else f.ppc.1, 112), (if hide then 0 else f.ppc.2, 88), (f.core, 72),
    (f.slot, 67), (f.counter, 63), (level, 60), (reason, 56), (f.write.toNat, 55),
    (f.helper.toNat, 54), (f.source, 52)]

/-! ## The device's own accesses in a context's far space -/

/-- The key of a far address for the front end, by a walk of the context's table; only the retrievers reach other
packages (R432). -/
def farKey (s : State) (ctx va : Nat) (write : Bool) : FarRes × State :=
  if 2 ^ 57 ≤ va then (.dead, s)
  else match ctxOf s ctx with
    | none => (.dead, s)
    | some c =>
      match walkFar s .frontEnd c va write with
      | .error f => (f, { s with free := s.free + 1 })
      | .ok h =>
        (if 64 ≤ h.key / 2 ^ 60 then .dead else .hit (h.key + va % h.size), { s with free := s.free + 1 })

/-- Reads `n` bytes at a far address, page by page; the first failure stops it. -/
def farRead (s : State) (ctx : Nat) : (pages n va : Nat) → Except (FarRes × Nat) (List Byte)
  | 0, _, _ => .ok []
  | p + 1, n, va =>
    if n = 0 then .ok []
    else
      match (farKey s ctx va false).1 with
      | .hit k =>
        let m := min n (4096 - va % 4096)
        match farRead s ctx p (n - m) (va + m) with
        | .ok rest => .ok (feBytesAs s (ctxSeal s ctx) k m ++ rest)
        | .error e => .error e
      | f => .error (f, va)

def farReadN (s : State) (ctx n va : Nat) : Except (FarRes × Nat) (List Byte) :=
  farRead s ctx (n / 4096 + 2) n va

/-- Writes bytes at a far address that do not cross a page. -/
def farWrite (s : State) (ctx va : Nat) (bs : List Byte) : Except FarRes State :=
  match farKey s ctx va true with
  | (.hit k, s) => .ok (putAs s .frontEnd (ctxSeal s ctx) (bytesKeyed k bs))
  | (f, _) => .error f

/-- Bytes at a far address, cut at pages. -/
def farWriteAll (s : State) (ctx : Nat) : (pages va : Nat) → List Byte → Except FarRes State
  | 0, _, _ => .ok s
  | p + 1, va, bs =>
    if bs.isEmpty then .ok s
    else
      let m := 4096 - va % 4096
      match farWrite s ctx va (bs.take m) with
      | .ok s => farWriteAll s ctx p (va + m) (bs.drop m)
      | .error f => .error f

/-! ## Rings (R353) -/

/-- A record of the ring whose header stands at a fixed key (R353): the answer is the new LOST mark. -/
def ringAt (s : State) (key log size : Nat) (lost : Bool) (rec_ : Bool → List Byte) : Bool × State :=
  let w := feNat s key 4
  let r := feNat s (key + 4) 4
  if (w + 2 ^ 32 - r) % 2 ^ 32 < 2 ^ log then
    let s := feWrite s (bytesKeyed (key + 16 + size * (w % 2 ^ log)) (rec_ lost))
    (false, feWriteNat s key 4 (low 32 (w + 1)))
  else (true, feWriteNat s (key + 8) 8 (low 64 (feNat s (key + 8) 8 + 1)))

/-- A record of a context's ring; a header or record whose address does not translate drops it. The
rings are numbered 0 barrier, 1 trace, 2 sample. -/
def ctxRing (s : State) (ctx which base log size : Nat) (rec_ : Bool → List Byte) : State :=
  if base = 0 then s
  else match ctxOf s ctx with
    | none => s
    | some c =>
      let lost := c.lost.getD which false
      let setLost (s : State) (b : Bool) : State := modCtx s ctx fun c => { c with lost := c.lost.set which b }
      match farReadN s ctx 16 base with
      | .error _ => setLost s true
      | .ok h =>
        let w := leNat (h.take 4)
        let r := leNat ((h.drop 4).take 4)
        if (w + 2 ^ 32 - r) % 2 ^ 32 < 2 ^ log then
          match farWriteAll s ctx 3 (base + 16 + size * (w % 2 ^ log)) (rec_ lost) with
          | .error _ => setLost s true
          | .ok s =>
            match farWrite s ctx base (natBytes 4 (w + 1)) with
            | .ok s => setLost s false
            | .error _ => setLost s true
        else
          let d := leNat ((h.drop 8).take 8)
          match farWrite s ctx (base + 8) (natBytes 8 (d + 1)) with
          | .ok s => setLost s true
          | .error _ => setLost s true

end Sys2Proof.Machine
end

