-- ==== Sys2Proof/Machine/Errors.lean ====
section
/-! DEFINITION. Cores and clusters in use, the error log, freezes, and what the consumption of a damaged
word does to a group (22_reliability.md R405 to R417; 14_tbf_formats_timing.md R303). -/

namespace Sys2Proof.Machine

open Sys2Proof

/-! ## Cores and clusters -/

def Core.new (die core : Nat) : Core :=
  { die, core, lastAge := 0, hostAt := 0, hostBeats := 0, hostMask := 0, helperAt := 0, helperLanes := [], portUsed := false,
    lastHelper := (0, 0), frozenTo := none, mismatches := 0, offline := false, retry := false }
def coreOf (s : State) (die core : Nat) : Core :=
  (s.cores.find? fun c => c.die == die && c.core == core).getD (Core.new die core)
def modCore (s : State) (die core : Nat) (f : Core → Core) : State :=
  let rest := s.cores.filter fun c => !(c.die == die && c.core == core)
  { s with cores := f (coreOf s die core) :: rest }

def Cluster.new (die cluster : Nat) : Cluster :=
  { die, cluster, illegal := false, lastIllegal := none, offline := false }
def clusterOf (s : State) (die cluster : Nat) : Cluster :=
  (s.clusters.find? fun c => c.die == die && c.cluster == cluster).getD (Cluster.new die cluster)
def modCluster (s : State) (die cluster : Nat) (f : Cluster → Cluster) : State :=
  let rest := s.clusters.filter fun c => !(c.die == die && c.cluster == cluster)
  { s with clusters := f (clusterOf s die cluster) :: rest }

/-! ## The error log (R417) -/

/-- What an error record says. -/
structure ErrRec where
  ctx : Nat
  ppc : Nat × Nat
  die : Nat
  core : Nat
  addr : Nat
  struct : Nat
  cls : Nat
  synd : Nat
  deriving DecidableEq, Repr

/-- Writes a record to the error log ring and counts its class for the die. -/
def logError (s : State) (r : ErrRec) : State :=
  let hide := match ctxOf s r.ctx with
    | some c => c.confidential
    | none => false
  let bytes (_ : Bool) : List Byte := natBytes 32 (recNat [(s.tick, 192), (r.ctx, 160),
    (if hide then 0 else r.ppc.1 * 2 ^ 24 + r.ppc.2, 120), (r.die, 116), (r.core, 107),
    (if hide then 0 else r.addr, 64), (r.struct, 56), (r.cls, 48), (r.synd, 40)])
  let log := s.rel.errCtl.toNat % 32
  let s := if s.rel.errBase ≠ 0 ∧ 6 ≤ log ∧ log ≤ 16 then
      let (lost, s) := ringAt s (targetKey 0 (s.rel.errBase.toNat / 4096 * 4096)) log 32 s.rel.errLost bytes
      { s with rel := { s.rel with errLost := lost } }
    else s
  let row := (s.field.life.errors.getD r.die []).set (r.cls - 1)
    ((s.field.life.errors.getD r.die []).getD (r.cls - 1) 0 + 1)
  { s with field := { s.field with life := { s.field.life with errors := s.field.life.errors.set r.die row } } }

/-! ## Translation events (R286, R375) -/

/-- What a translation event says of its key: the first digest bytes, the function, BUDGET_M1. -/
structure XlatEv where
  ctx : Nat
  digest : List Byte
  fn : Nat
  budgetM1 : Nat
  reason : Nat
  deriving DecidableEq, Repr

/-- Counts a translation event and appends its record to the cluster's ring. -/
def xlatEvent (s : State) (die cluster : Nat) (e : XlatEv) : State :=
  let p := Config.clusterNo die cluster
  let hide := match ctxOf s e.ctx with
    | some c => c.confidential
    | none => false
  let row := s.front.xevCount.getD p []
  let s := { s with front := { s.front with
    xevCount := s.front.xevCount.set p (row.set (e.reason - 1) (row.getD (e.reason - 1) 0 + 1)) } }
  let ctl := (s.front.xevCtl.getD p 0).toNat
  let log := ctl % 32
  if bitOf ctl 5 ∧ 6 ≤ log ∧ log ≤ 16 then
    let base := (s.front.xevBase.getD p 0).toNat
    let bytes (_ : Bool) : List Byte := natBytes 16 (recNat [(s.tick, 64),
      (if hide then 0 else leNat (e.digest.take 4), 32), (if hide then 0 else e.fn, 16), (e.budgetM1, 8),
      (e.reason, 0)])
    if base = 0 then s
    else
      let (lost, s) := ringAt s (targetKey die (base % 2 ^ 52 / 4096 * 4096)) log 16
        (s.front.xevLost.getD p false) bytes
      { s with front := { s.front with xevLost := s.front.xevLost.set p lost } }
  else s

/-- The event of a translation. -/
def xlatTransEvent (s : State) (die cluster ctx : Nat) (t : Trans) (reason : Nat) : State :=
  xlatEvent s die cluster { ctx, digest := t.key.digest, fn := t.key.fn, budgetM1 := t.budget - 1, reason }

/-- Die, core, structure and address of the word of a key. -/
def whereIs (k : Nat) : Nat × Nat × Nat × Nat :=
  let r := k / 2 ^ 60
  let x := k % 2 ^ 60
  if r = 1 then (x / 2 ^ 22 / 512, x / 2 ^ 22 % 512, 1, x % 2 ^ 22)
  else if r = 2 then (x / 2 ^ 22 / 4, x / 2 ^ 22 % 4, 2, x % 2 ^ 22)
  else if r < 24 then (r - 16, 0, 7, x % 2 ^ 40)
  else (0, 0, 8, x % 2 ^ 40)

/-- A record about a word of memory. -/
def logWord (s : State) (ctx : Nat) (ppc : Nat × Nat) (k cls synd : Nat) : State :=
  let (die, core, struct, addr) := whereIs k
  logError s { ctx, ppc, die, core, addr, struct, cls, synd }

/-- Freezes a core for the 24 cycles of a corrected error (R303, R406). -/
def freezeCore (s : State) (die core : Nat) : State :=
  modCore s die core fun c => { c with frozenTo := some (s.cycle + 24) }

/-! ## Reads of damaged words by a group (R406 to R408) -/

/-- The damaged words that a read of `n` bytes at `k` meets. -/
def damageIn (s : State) (k n : Nat) : List (Nat × BitVec 8) :=
  s.mem.damage.words.filter fun w => decide (w.1 < k + n ∧ k < w.1 + 8)

/-- Corrects a word with one bit off for the issuing group's core: it is written back, and the core
freezes. -/
def correctWord (s : State) (w : Nat × BitVec 8) : State :=
  let s := setMem s fun m => { m with damage := { m.damage with
    words := m.damage.words.filter fun x => x.1 != w.1 } }
  freezeCore (logWord s s.cur.ctx (ppcOf s.cur) w.1 1 w.2.toNat) s.cur.die s.cur.core

/-- The reads of an instruction: corrects what can be corrected, and names a word that cannot. -/
def readWords (s : State) (ks : List (Nat × Nat)) : Option (Nat × BitVec 8) × State :=
  let ws := ks.flatMap fun k => damageIn s k.1 k.2
  match ws.find? fun w => dead w.2 with
  | some w => (some w, s)
  | none => (none, ws.eraseDups.foldl correctWord s)

/-- Consumption of an uncorrectable error by the issuing group (R408): the first one in the region's
instance takes it back to its entry; a second one, or one in a modulo-scheduled loop, traps. -/
def consume (s : State) (back : State → State) (log : State → Nat → State) : State :=
  let inLoop := match s.cur.native with
    | some n => n.loop.isSome
    | none => false
  if s.cur.consumed = 0 ∧ !inLoop then
    back (setCur (log s 2) fun g => { g with consumed := g.consumed + 1 })
  else raise (setCur (log s 3) fun g => { g with consumed := g.consumed + 1 }) .uncorrectable

/-- A native group returns to its region's entry (R408): the results in flight there land again at their bundle counts from
it, and those of the operations that issue again land anew (R298); a group that runs Value Form words executes its
instruction again, each instruction being a region of its own. -/
def toRegion (s : State) : State :=
  setCur s fun g =>
    match g.native with
    | none => g
    | some n =>
      { g with
        active := n.regActive, fmt := n.regFmt, gen := n.regGen, rq := n.regRq,
        native := some { n with
          clause := n.regClause, bundle := 0, stack := n.regStack, dset := none, target := none,
          cvctl := n.regCvctl, lc := n.regLc.1, trip := n.regLc.2,
          pend := n.regPend.map fun p => { p with
            land := p.land - n.regCount + n.count, born := p.born - n.regCount + n.count },
          again := true } }

/-- A group's access reads an uncorrectable word. -/
def consumeWord (s : State) (w : Nat × BitVec 8) : State :=
  consume s toRegion fun s cls => logWord s s.cur.ctx (ppcOf s.cur) w.1 cls w.2.toNat

/-- Runs an instruction's accesses unless they consume an uncorrectable error. -/
def reading (s : State) (ks : List (Nat × Nat)) (f : State → Out) : Out :=
  match readWords s ks with
  | (some w, s) => .next (consumeWord s w)
  | (none, s) => f s

/-- A retriever reads a line with single-bit errors: SRAM words are written back and freeze its core, a
DRAM word is corrected on the way (R405, R406). -/
def correctLine (s : State) (ctx : Nat) (ppc : Nat × Nat) (die core k : Nat) : State :=
  (damageIn s (k / 64 * 64) 64).foldl (fun s w =>
    let s := logWord s ctx ppc w.1 1 w.2.toNat
    if w.1 / 2 ^ 60 < 16 then
      freezeCore (setMem s fun m => { m with damage := { m.damage with
        words := m.damage.words.filter fun x => x.1 != w.1 } }) die core
    else s) s

/-- The record of a line that a retriever could not read (R409). -/
def logLine (s : State) (ctx : Nat) (ppc : Nat × Nat) (k : Nat) : State :=
  match (damageIn s (k / 64 * 64) 64).find? fun w => dead w.2 with
  | some w => logWord s ctx ppc w.1 3 w.2.toNat
  | none => logWord s ctx ppc (k / 64 * 64) 3 0

/-! ## Errors that writes met -/

/-- The context that maps the slice of a key. -/
def ctxOfKey (s : State) (k : Nat) : Nat :=
  let (die, idx, struct, _) := whereIs k
  match s.ctxs.find? fun c => c.slices.any fun e =>
      e.die == die && e.index == idx && (if e.commons then struct == 2 else struct == 1) with
  | some c => c.id
  | none => 0

/-- Logs the damaged words that writes have met: corrected ones freeze the core of their slice. -/
def logNews (s : State) : State :=
  let news := s.mem.damage.news
  let s := setMem s fun m => { m with damage := { m.damage with news := [] } }
  news.foldl (fun s w =>
    let s := logWord s (ctxOfKey s w.1) (0, 0) w.1 w.2 0
    let (die, core, struct, _) := whereIs w.1
    if w.2 = 1 ∧ struct = 1 then freezeCore s die core else s) s

/-! ## Saves asked for, offlined cores, mismatches (R400, R412 to R414) -/

/-- A save of a loaded context begins: its recruiters release their helpers (R225, R400). -/
def beginSave (s : State) (ctx : Nat) (unload mig : Bool) : State :=
  match ctxOf s ctx with
  | none => s
  | some c =>
    if c.st == .loaded then
      let s := modCtx s ctx fun c => { c with st := .saving, saveUnload := unload, saveMig := mig }
      let us := ((heldGroups s).filter fun g => g.ctx == ctx && g.herd.isSome).map (·.uid)
      us.foldl releaseHelpers s
    else s

/-- An offlined core issues nothing more: its groups stop, and their contexts are suspended (R413). -/
def offlineCore (s : State) (die core : Nat) : State :=
  let s := modCore s die core fun c => { c with offline := true }
  let s := logError s { ctx := 0, ppc := (0, 0), die, core, addr := 0, struct := 12, cls := 8, synd := 0 }
  let here := (heldGroups s).filter fun g => g.die == die && g.core == core
  let s := here.foldl (fun s g => modGroup s g.uid fun g =>
    if g.st == .active then { g with st := .halted, stopCode := 0, stopPpc := ppcOf g, fast := false } else g) s
  (here.map (·.ctx)).eraseDups.foldl (fun s c => beginSave s c false false) s

/-- A MISMATCH trap of the issuing group, counted for its core (R412 to R414). -/
def mismatchTrap (s : State) (struct : Nat) (ppc : Nat × Nat) : State :=
  let die := s.cur.die
  let core := s.cur.core
  let s := logError s { ctx := s.cur.ctx, ppc, die, core, addr := 0, struct, cls := 6, synd := 0 }
  let s := modCore (raiseAt s .mismatch ppc) die core fun c => { c with mismatches := c.mismatches + 1 }
  if (coreOf s die core).mismatches = 3 then offlineCore s die core else s

end Sys2Proof.Machine
end

