-- ==== Sys2Proof/Machine/NearMem.lean ====
section
/-! DEFINITION. Meanings of the near loads and stores and of constant loads (07_tvf_memory_sync.md R164
to R171). -/

namespace Sys2Proof.Machine

open Sys2Proof

/-- The checks of R166 for the accesses of an instruction, each an address, with their keys: alignment
to `al` bytes (none where it is 1), then the window check of `n` bytes. -/
def checkNear (s : State) (addrs : List (Nat × Nat)) (al n : Nat) (write : Bool) :
    Except Trap (List (Nat × Nat)) :=
  if addrs.all fun a => a.2 % al == 0 then
    addrs.mapM fun a => match groupNear s s.cur a.2 n write with
      | some k => .ok (a.1, k)
      | none => .error .window
  else .error .alignment

/-- The alignment that a load or store of `n` bytes must keep: its size unless it is relaxed. -/
def orderAlign (o : Order) (n : Nat) : Nat := if o == .relaxed then 1 else n

/-- A load of a whole access: an aligned 16-byte one as two halves (R67, R166). -/
def loadAccess (s : State) (k n : Nat) : Nat × State :=
  if n = 16 ∧ k % 16 = 0 then
    let (lo, s) := loadVal s k 8
    let (hi, s) := loadVal s (k + 8) 8
    (lo + hi * 2 ^ 64, s)
  else loadVal s k n

def storeAccess (s : State) (k n x : Nat) (cs : List Carry) : State :=
  if n = 16 ∧ k % 16 = 0 then storeVal (storeVal s k 8 (low 64 x) cs) (k + 8) 8 (x / 2 ^ 64) cs
  else storeVal s k n x cs

/-- Loads for the threads of an instruction; `addr` gives each thread's near address (R170). -/
def loadWith (o : LoadOp) (s : State) (addr : Nat → Nat) : Out :=
  let sz := o.ty.bytes
  let n := if o.pair then 2 * sz else sz
  match checkNear s ((accessors s o.uni).map fun t => (t, addr t)) (orderAlign o.order n) n false with
  | .error e => .next (raise s e)
  | .ok ks => reading s (ks.map fun k => (k.2, n)) fun s =>
    let r := groupReach s s.cur o.scope.toNat
    let s := orderBefore s o.order r
    let (rs, s) := eachThread (fun t s =>
      let (x, s) := loadAccess s ((assocGet t ks).getD 0) n
      ([lane (low (8 * sz) x), lane (low (8 * sz) (x / 2 ^ (8 * sz)))], s)) (ks.map (·.1)) s
    .next (finishEach (orderAfter s o.order r (ks.flatMap fun k => keysFrom n k.2)) o.uni (if o.pair then 2 else 1) rs)

/-- Stores likewise; the data of a pair stand side by side. -/
def storeWith (o : StoreOp) (s : State) (addr : Nat → Nat) : Out :=
  let sz := o.ty.bytes
  let n := if o.v2.isSome then 2 * sz else sz
  match checkNear s ((accessors s o.uni).map fun t => (t, addr t)) (orderAlign o.order n) n true with
  | .error e => .next (raise s e)
  | .ok ks =>
    let r := groupReach s s.cur o.scope.toNat
    let s1 := orderBefore s o.order r
    let cs := storeCarries s1 o.order r
    let datum (t : Nat) : Nat := opdN s o.ty o.v t
      + (match o.v2 with
         | some v => opdN s o.ty v t * 2 ^ (8 * sz)
         | none => 0)
    let s2 := ks.foldl (fun s k => storeAccess s k.2 n (datum k.1) cs) s1
    let s3 := if o.order == .seqCst then scFence s2 r else s2
    .next (finish s3 [])

/-- `ld.near` (R168, R170). -/
def execLdNear (o : LoadOp) (s : State) : Out :=
  loadWith o s fun t => opdN s .near o.p t

/-- `st.near` (R168, R170). -/
def execStNear (o : StoreOp) (s : State) : Out :=
  storeWith o s fun t => opdN s .near o.p t

/-- The near address of an own-slice access; an offset past 22 bits becomes an address that fails the
window check, after the alignment check of R166. -/
def localOr (s : State) (off : Opd) (t : Nat) : Nat :=
  let x := opdN s .i32 off t
  if x < 2 ^ 22 then localAddr s s.cur x else 2 ^ 36 + x

/-- `ld.local` (R53, R170). -/
def execLdLocal (o : LoadOp) (s : State) : Out :=
  loadWith o s fun t => localOr s o.p t

/-- `st.local` (R53, R170). -/
def execStLocal (o : StoreOp) (s : State) : Out :=
  storeWith o s fun t => localOr s o.p t

/-- `ld.const` (R171). -/
def execLdConst (o : LdConstOp) (s : State) : Out :=
  let (off, bytes, _) := constEntry (groupWords s s.cur) o.c.toNat
  let sz := o.ty.bytes
  if (accessors s o.uni).all fun t => decide (opdN s .i32 o.i t < bytes / sz) then
    .next (perThread1 s o.uni fun t =>
      objBytes (groupWords s s.cur) sz (off + sz * opdN s .i32 o.i t))
  else .next (raise s .constRange)

end Sys2Proof.Machine
end

