-- ==== Sys2Proof/Machine/Atomics.lean ====
section
/-! DEFINITION. Meanings of the atomics and of the full/empty accesses (07_tvf_memory_sync.md R172 to
R178; 02_memory_spaces.md R57 to R59). -/

namespace Sys2Proof.Machine

open Sys2Proof

/-- An atomic of every accessing thread in turn (R173, R174): `f` gives the new word of a thread from
the old one, `res` its results. -/
def atomicWith (s : State) (uni : Bool) (order : Order) (scope : BitVec 3) (sz k : Nat) (p : Opd)
    (f : Nat → Nat → Nat) (res : Nat → Nat → List Lane) : Out :=
  match checkNear s ((accessors s uni).map fun t => (t, opdN s .near p t)) sz sz true with
  | .error e => .next (raise s e)
  | .ok ks => reading s (ks.map fun k => (k.2, sz)) fun s =>
    let r := groupReach s s.cur scope.toNat
    let (rs, s') := eachThread (fun t s' =>
      let (old, s') := atomicAt s' ((assocGet t ks).getD 0) sz order r fun old => some (f t old)
      (res t old, s')) (ks.map (·.1)) s
    .next (finishEach s' uni k rs)

/-- An atomic with one datum; `f` works on bit strings of the width of TYPE. -/
def atomic2 (o : MemOp2) (s : State) (f : Nat → Nat → Nat → Nat) : Out :=
  atomicWith s o.uni o.order o.scope o.ty.bytes o.nres.toNat o.p
    (fun t old => f o.ty.width old (opdN s o.ty o.v t)) (fun _ old => [lane old])

/-- `atom.add` (R172, R173). -/
def execAtomAdd (o : MemOp2) (s : State) : Out :=
  atomic2 o s aluAdd

/-- `atom.min.s` (R172, R173). -/
def execAtomMinS (o : MemOp2) (s : State) : Out :=
  atomic2 o s aluMinS

/-- `atom.min.u` (R172, R173). -/
def execAtomMinU (o : MemOp2) (s : State) : Out :=
  atomic2 o s aluMinU

/-- `atom.max.s` (R172, R173). -/
def execAtomMaxS (o : MemOp2) (s : State) : Out :=
  atomic2 o s aluMaxS

/-- `atom.max.u` (R172, R173). -/
def execAtomMaxU (o : MemOp2) (s : State) : Out :=
  atomic2 o s aluMaxU

/-- `atom.and` (R172, R173). -/
def execAtomAnd (o : MemOp2) (s : State) : Out :=
  atomic2 o s aluAnd

/-- `atom.or` (R172, R173). -/
def execAtomOr (o : MemOp2) (s : State) : Out :=
  atomic2 o s aluOr

/-- `atom.xor` (R172, R173). -/
def execAtomXor (o : MemOp2) (s : State) : Out :=
  atomic2 o s aluXor

/-- `atom.swap` (R172, R173). -/
def execAtomSwap (o : MemOp2) (s : State) : Out :=
  atomic2 o s (fun _ _ v => v)

/-- `atom.fadd` (R172, R173). -/
def execAtomFadd (o : MemOp2) (s : State) : Out :=
  atomic2 o s (fun _ old v => fpAdd fmtF32 ⟨.rn, true⟩ old v)

/-- `atom.cas` (R173). -/
def execAtomCas (o : CasOp) (s : State) : Out :=
  atomicWith s o.uni o.order o.scope o.ty.bytes o.nres.toNat o.p
    (fun t old => if old = opdN s o.ty o.e t then opdN s o.ty o.n t else old)
    (fun t old => [lane old, laneB (old == opdN s o.ty o.e t)])

/-! ## Full/empty words -/

/-- One take at the slice, when the word is full (R58, R76): its data, or none. -/
def feTake (s : State) (k : Nat) (o : Order) (r : Reach) : Option Nat × State :=
  if s.mem.isFull k then
    let (old, s) := slotAt s k 8 o r fun old => some (old, some false)
    (some old, s)
  else (none, (atomicAt s k 8 o r fun _ => none).2)

/-- One give, when the word is empty. -/
def feGive (s : State) (k v : Nat) (o : Order) (r : Reach) : Bool × State :=
  if s.mem.isFull k then (false, (atomicAt s k 8 o r fun _ => none).2)
  else
    (true, (slotAt s k 8 o r fun _ => some (v, some true)).2)

/-- The non-blocking forms (R176): `f` performs one thread's access. -/
def feEach (s : State) (uni : Bool) (k : Nat) (p : Opd) (write : Bool)
    (f : Nat → Nat → State → List Lane × State) : Out :=
  match checkNear s ((accessors s uni).map fun t => (t, opdN s .near p t)) 8 8 write with
  | .error e => .next (raise s e)
  | .ok ks => reading s (ks.map fun k => (k.2, 8)) fun s =>
    let (rs, s') := eachThread (fun t s' => f t ((assocGet t ks).getD 0) s') (ks.map (·.1)) s
    .next (finishEach s' uni k rs)

/-- `fe.tryld` (R176). -/
def execFeTryld (o : MemOp1) (s : State) : Out :=
  feEach s o.uni o.nres.toNat o.p false fun _ k s' =>
    match feTake s' k o.order (groupReach s s.cur o.scope.toNat) with
    | (some x, s') => ([lane x, 1], s')
    | (none, s') => ([0, 0], s')

/-- `fe.tryst` (R176). -/
def execFeTryst (o : MemOp2) (s : State) : Out :=
  feEach s o.uni o.nres.toNat o.p true fun t k s' =>
    let (ok, s') := feGive s' k (opdN s o.ty o.v t) o.order (groupReach s s.cur o.scope.toNat)
    ([laneB ok], s')

/-- A peek of one thread: a load with its order (R76). -/
def fePeek (s : State) (k : Nat) (o : Order) (r : Reach) : Nat × Bool × State :=
  let (x, full, s) := peekVal (orderBefore s o r) k
  (x, full, orderAfter s o r (keysFrom 8 k ++ [bitKey k]))

/-- `fe.peek` (R176). -/
def execFePeek (o : MemOp1) (s : State) : Out :=
  feEach s o.uni o.nres.toNat o.p false fun _ k s' =>
    let (x, full, s') := fePeek s' k o.order (groupReach s s.cur o.scope.toNat)
    ([lane x, laneB full], s')

/-! ### The blocking forms (R177) -/

/-- One pass over the pending threads, in ascending order, of the issuing group. -/
def fePass (w : FeWait) (s : State) : FeWait × State :=
  (threadsOf w.pending 64).foldl (fun acc t =>
    let (w, s) := acc
    match groupNear s s.cur (getLane w.addrs t).toNat 8 w.give with
    | none => (w, s)
    | some k =>
      let r := groupReach s s.cur w.scope.toNat
      let done := { w with pending := w.pending &&& ~~~((1 : Mask) <<< t) }
      if w.give then
        if s.mem.isFull k then (w, s)
        else (done, (feGive s k (getLane w.data t).toNat w.order r).2)
      else if s.mem.isFull k then
        match feTake s k w.order r with
        | (some x, s) => ({ done with got := w.got ++ [(t, lane x)] }, s)
        | (none, s) => (w, s)
      else (w, s)) (w, s)

/-- A native access completes under the flag that counts it (R300): a take writes its result then, a give has none. -/
def feLand (g : Group) (w : FeWait) (d : Dst) (m : Mask) (xs : List Lane) : Group :=
  match w.flag with
  | some f => setNative g fun n => { n with
      var := n.var ++ [{ flag := f, dsts := if w.give then [] else [(d, m, xs)] }] }
  | none => g

/-- Delivers what a blocking access has taken, and lets the group go on. -/
def feDone (w : FeWait) (s : State) : State :=
  let g := s.cur
  let all := w.got.map (·.2)
  let m := if w.uni then fullMask g.width else maskOf (w.got.map (·.1))
  let vals := (List.range g.width).map fun t =>
    if w.uni then all.headD 0 else (assocGet t w.got).getD 0
  let g := { g with fe := none }
  match w.dst with
  | .value first n =>
    let g := if n = 0 then g else setVal g first m vals
    { s with cur := { g with off := g.off + hereLen s } }
  | .vreg cl n _ => { s with cur := feLand g w (.v cl n true) m vals }
  | .sreg n => { s with cur := feLand g w (.s n true) m vals }

/-- The words of the pending threads. -/
def feKeys (w : FeWait) (s : State) : List (Nat × Nat) :=
  (threadsOf w.pending 64).filterMap fun t =>
    (groupNear s s.cur (getLane w.addrs t).toNat 8 w.give).map fun k => (k, 8)

/-- A pass at issue or at an evaluation: the group goes on, or stays in WAITING (R43, R177). A pass that
consumes an uncorrectable error acts at the next evaluation instead, or traps (R407, R408). -/
def feStep (w : FeWait) (s : State) : State :=
  match readWords s (feKeys w s) with
  | (some d, s) =>
    let s := setCur s fun g => { g with
      fe := some w, st := .waiting, since := if g.st == .waiting then g.since else s.cycle }
    consume s id fun s cls => logWord s s.cur.ctx (ppcOf s.cur) d.1 cls d.2.toNat
  | (none, s) =>
  let (w, s) := fePass w s
  if w.pending = 0 then
    feDone w s
  else { s with cur := { s.cur with
    fe := some w, st := .waiting, since := if s.cur.st == .waiting then s.cur.since else s.cycle } }

def feBlock (s : State) (uni give : Bool) (order : Order) (scope : BitVec 3) (p : Opd)
    (data : List Lane) (nres : Nat) : Out :=
  match checkNear s ((accessors s uni).map fun t => (t, opdN s .near p t)) 8 8 give with
  | .error e => .next (raise s e)
  | .ok _ =>
    let addrs := (List.range s.cur.width).map fun t => opd s .near p t
    .next (feStep { give, uni, addrs, data, pending := maskOf (accessors s uni), got := [], order,
                    scope, dst := .value (hereVal s) nres, flag := none } s)

/-- `fe.ld` (R177, R178). -/
def execFeLd (o : MemOp1) (s : State) : Out :=
  feBlock s o.uni false o.order o.scope o.p [] 1

/-- `fe.st` (R177, R178). -/
def execFeSt (o : MemOp2) (s : State) : Out :=
  feBlock s o.uni true o.order o.scope o.p
    ((List.range s.cur.width).map fun t => opd s o.ty o.v t) 0

end Sys2Proof.Machine
end

