-- ==== Sys2Proof/Machine/Front.lean ====
section
/-! DEFINITION. The front end: function addresses, queue tables and control blocks, kicks, the Shepherd's
passes and unmaps, the front end's accesses in a context's far space, and the completion of a packet
(18_queues_launch.md R355 to R361, R365 to R370, R374, R435). -/

namespace Sys2Proof.Machine

open Sys2Proof

/-! ## Status codes (R370) -/

def Status.code : Status → Nat
  | .ok => 0 | .format => 1 | .verify => 2 | .placement => 3 | .placementCooperative => 4
  | .translationLimit => 5 | .sliceMap => 6 | .debugCtl => 7 | .args => 8 | .noProducer => 9
  | .farFault => 10 | .privilege => 11 | .timeout => 12 | .watchdog => 13 | .capacity => 14
  | .producerFailed => 15

/-! ## Queue tables (R355, R435) -/

def qtReg (s : State) (fn : Nat) : Nat := (s.front.qtBase.getD fn 0).toNat
def qtOn (s : State) (fn : Nat) : Bool := bitOf (qtReg s fn) 0
def qtKey (s : State) (fn : Nat) : Nat := targetKey 0 (bitsOf (qtReg s fn) 51 12 * 4096)

/-- The key of a queue's control block, when its table entry is VALID and names memory that exists. -/
def qcbKey (s : State) (q : QRef) : Option Nat :=
  if 17 ≤ q.fn ∨ 2 ^ 20 ≤ q.qid then none
  else
    let e := feNat s (qtKey s q.fn + 8 * q.qid) 8
    if bitOf e 0 then fnKey (e / 64 * 64) else none

/-- The 512 bits of a control block. -/
def qcbOf (s : State) (k : Nat) : Nat := feNat s k 64

def qcbEnabled (x : Nat) : Bool := bitOf x 9
def qcbPriority (x : Nat) : Nat := bitsOf x 7 4
def qcbAge (x : Nat) : Nat := bitsOf x 27 24
def qcbState (x : Nat) : Nat := bitsOf x 23 16
def qcbRead (x : Nat) : Nat := bitsOf x 255 224
def qcbWrite (x : Nat) : Nat := bitsOf x 223 192

/-- Writes STATE and AGE. -/
def setQcbState (s : State) (k st age : Nat) : State := feWriteNat s (k + 2) 2 (st + age * 256)

def setQcbEnabled (s : State) (k : Nat) (b : Bool) : State :=
  let x := feNat s (k + 1) 1
  feWriteNat s (k + 1) 1 (x / 4 * 4 + b.toNat * 2 + x % 2)

def setQcbPriority (s : State) (k p : Nat) : State :=
  feWriteNat s k 1 (feNat s k 1 % 16 + p * 16)

/-- The pending bit of a queue (R365, R435). -/
def pendingKey (s : State) (q : QRef) : Nat := qtKey s q.fn + 2 ^ 23 + q.qid / 8
def pendingBit (s : State) (q : QRef) : Bool := bitOf (feNat s (pendingKey s q) 1) (q.qid % 8)
def setPending (s : State) (q : QRef) (b : Bool) : State :=
  let x := feNat s (pendingKey s q) 1
  let m := 2 ^ (q.qid % 8)
  let y := if b then (if bitOf x (q.qid % 8) then x else x + m)
    else (if bitOf x (q.qid % 8) then x - m else x)
  feWriteNat s (pendingKey s q) 1 y

/-! ## Slots -/

def slotOf (s : State) (q : QRef) : Option Nat :=
  ((s.front.slots.zipIdx).find? fun p => p.1.q == some q).map (·.2)
def modSlot (s : State) (i : Nat) (f : Slot → Slot) : State :=
  { s with front := { s.front with
      slots := (s.front.slots.zipIdx).map fun p => if p.2 = i then f p.1 else p.1 } }

def startedOf (s : State) (q : QRef) : List Started := s.front.started.filter fun p => p.hdr.q == q
def modStarted (s : State) (q : QRef) (n : Nat) (f : Started → Started) : State :=
  { s with front := { s.front with
      started := modBy (fun p => p.hdr.q == q && p.hdr.n == n) f s.front.started } }

/-- A new queue record. -/
def Queue.new (q : QRef) : Queue :=
  { q, qcb := 0, ring := 0, ctxDesc := 0, dump := 0, dumpBytes := 0, limit := 0, sizeLog2 := 4,
    priv := false, ctx := 0, readIdx := 0, pendingSince := none, faulted := false }

def knowQueue (s : State) (q : QRef) : State :=
  if s.front.queues.any fun x => x.q == q then s
  else { s with front := { s.front with queues := s.front.queues ++ [Queue.new q] } }

/-- A queue that cannot be used is treated as FAULTED, and its control block says so (R356, R435). -/
def faultQueue (s : State) (q : QRef) (k : Option Nat) : State :=
  let s := match k with
    | some k => setQcbState s k 3 0
    | none => s
  modQueue s q fun x => { x with faulted := true, pendingSince := none }

/-! ## Mapping and unmapping (R366, R367) -/

def fnAddrOk (a : Nat) : Bool := (fnKey a).isSome

/-- Maps a queue to a slot. PRIVILEGED is honoured when the physical function wrote it: for a queue of a
virtual function, whose control block says nothing of its writer, that is a free value. -/
def mapQueue (s : State) (q : QRef) (slot : Nat) : State :=
  match qcbKey s q with
  | none => faultQueue s q none
  | some k =>
    let x := qcbOf s k
    let (n, s) := freeNo s
    let (bad, s) := writeFails s k
    if bad || !(fnAddrOk (bitsOf x 511 448)) || !(fnAddrOk (bitsOf x 447 384)) || !(fnAddrOk (bitsOf x 383 320))
        || decide (bitsOf x 3 0 < 4) || bitsOf x 511 448 % 256 != 0 then faultQueue s q (some k)
    else
      let s := modQueue s q fun z => { z with
        qcb := k, ring := bitsOf x 511 448, ctxDesc := bitsOf x 447 384, dump := bitsOf x 383 320,
        dumpBytes := bitsOf x 319 288, limit := bitsOf x 287 256, sizeLog2 := bitsOf x 3 0,
        priv := bitOf x 8 && (q.fn == 0 || Config.choice n % 2 == 1), ctx := bitsOf x 191 160,
        readIdx := BitVec.ofNat 32 (qcbRead x), pendingSince := none, faulted := false }
      let s := modSlot s slot fun _ =>
        { q := some q, kick := BitVec.ofNat 32 (qcbWrite x), mappedPass := s.front.pass }
      let s := modCtx s (bitsOf x 191 160) fun c =>
        if c.st == .faulted && c.firedAt.isNone then { c with st := .unloaded } else c
      setPending (setQcbState s k 1 0) q false

/-- Writes a queue back and frees its slot; `st` is the STATE it enters. -/
def unmapSlot (s : State) (slot : Nat) (st : Option Nat) : State :=
  match s.front.slots[slot]? with
  | some { q := some q, kick, .. } =>
    match queueOf s q with
    | none => modSlot s slot fun z => { z with q := none }
    | some qu =>
      let s := feWriteNat s (qu.qcb + 28) 4 qu.readIdx.toNat
      let s := feWriteNat s (qu.qcb + 24) 4 kick.toNat
      let nothing := decide (qu.readIdx = kick)
      let s := setQcbState s qu.qcb (st.getD (if nothing then 0 else 2)) 0
      let s := modQueue s q fun z => { z with pendingSince := if nothing then none else some s.tick }
      modSlot s slot fun z => { z with q := none }
  | _ => s

/-- Whether a known queue waits for a slot (R366). -/
def isPending (s : State) (q : QRef) : Bool :=
  match qcbKey s q with
  | none => false
  | some k =>
    let x := qcbOf s k
    qcbEnabled x && (slotOf s q).isNone && qcbState x != 3
      && (pendingBit s q || qcbRead x != qcbWrite x)

/-- Effective priority: PRIORITY and AGE of a queue without a slot, PRIORITY of a mapped one. -/
def effPrio (s : State) (q : QRef) : Nat :=
  match qcbKey s q with
  | none => 0
  | some k =>
    let x := qcbOf s k
    if (slotOf s q).isSome then qcbPriority x else qcbPriority x + qcbAge x

/-- Whether candidate `a` comes before `b`. -/
def candBefore (s : State) (a b : Queue) : Bool :=
  let ea := effPrio s a.q
  let eb := effPrio s b.q
  if ea != eb then decide (eb < ea)
  else
    let ta := a.pendingSince.getD s.tick
    let tb := b.pendingSince.getD s.tick
    if ta != tb then decide (ta < tb) else decide (a.q.qid < b.q.qid)

def bestCand (s : State) (fn : Nat) : Option Queue :=
  (s.front.queues.filter fun x => x.q.fn == fn && isPending s x.q).foldl
    (fun best x => match best with
      | none => some x
      | some b => if candBefore s x b then some x else best) none

/-- Whether nothing of a mapped queue is left to do. -/
def slotIdle (s : State) (q : QRef) (kick : BitVec 32) : Bool :=
  (match queueOf s q with
    | some x => x.readIdx == kick
    | none => true) && (startedOf s q).isEmpty

/-- The victim for a candidate of priority `e`: an idle queue, else the busy one of lowest priority below
`e`; of equals the higher QUEUE_ID. -/
def victimSlot (s : State) (fn e : Nat) : Option Nat :=
  let mine := (s.front.slots.zipIdx).filterMap fun p => match p.1.q with
    | some q => if q.fn = fn ∧ p.1.mappedPass + 2 ≤ s.front.pass then
        some (p.2, q, slotIdle s q p.1.kick, effPrio s q) else none
    | none => none
  let pick (xs : List (Nat × QRef × Bool × Nat)) : Option Nat :=
    (xs.foldl (fun best x => match best with
      | none => some x
      | some b => if x.2.2.2 < b.2.2.2 ∨ (x.2.2.2 = b.2.2.2 ∧ b.2.1.qid < x.2.1.qid) then some x else best)
      none).map (·.1)
  let idle := mine.filter fun x => x.2.2.1
  match (idle.foldl (fun best x => match best with
      | none => some x
      | some b => if b.2.1.qid < x.2.1.qid then some x else best) none).map (·.1) with
  | some i => some i
  | none => pick (mine.filter fun x => decide (x.2.2.2 < e))

/-- Maps the pending queues of a function while it finds room. -/
def passFn (fn : Nat) : (fuel : Nat) → State → State
  | 0, s => s
  | n + 1, s =>
    match bestCand s fn with
    | none => s
    | some c =>
      let held := (s.front.slots.filter fun x => x.q.any fun q => q.fn == fn).length
      let free := (pick s.free ((s.front.slots.zipIdx).filter fun p => p.1.q.isNone)).map (·.2)
      match free with
      | some i =>
        if held < s.front.slotQuota.getD fn 0 then passFn fn n (mapQueue { s with free := s.free + 1 } c.q i)
        else match victimSlot s fn (effPrio s c.q) with
          | some v => passFn fn n (mapQueue (unmapSlot s v none) c.q v)
          | none => s
      | none =>
        match victimSlot s fn (effPrio s c.q) with
        | some v => passFn fn n (mapQueue (unmapSlot s v none) c.q v)
        | none => s

/-- Every queue still pending gains 1 AGE, up to 15. -/
def ageFn (fn : Nat) (s : State) : State :=
  (s.front.queues.filter fun x => x.q.fn == fn && isPending s x.q).foldl (fun s x =>
    match qcbKey s x.q with
    | some k =>
      let y := qcbOf s k
      setQcbState s k 2 (min 15 (qcbAge y + 1))
    | none => s) s

/-- One pass of the Shepherd over all functions. -/
def shepherd (s : State) : State :=
  let s := { s with front := { s.front with pass := s.front.pass + 1 } }
  (List.range 17).foldl (fun s fn => ageFn fn (passFn fn 256 s)) s

/-- SHEPHERD_PASS (R366). -/
def execShepherdPass (s : State) : Out := .next (if s.boot == .running then shepherd s else s)

/-- UNMAP (R366, R367): the Shepherd takes a slot from its victim, at a packet boundary. -/
def execUnmap (slot : Nat) (s : State) : Out :=
  match s.front.slots[slot]? with
  | some { q := some q, .. } =>
    match bestCand s q.fn with
    | some c =>
      if victimSlot s q.fn (effPrio s c.q) = some slot then .next (unmapSlot s slot none) else .next s
    | none => .next s
  | _ => .next s

def ignoreKick (s : State) (fn : Nat) : State :=
  { s with front := { s.front with
      ignoredKicks := s.front.ignoredKicks.set fn (s.front.ignoredKicks.getD fn 0 + 1) } }

/-- KICK (R365). -/
def execKick (q : QRef) (idx : BitVec 32) (s : State) : Out :=
  if s.boot != .running || !qtOn s q.fn then .next (ignoreKick s q.fn)
  else match slotOf s q with
    | some i => .next (modSlot s i fun z => { z with kick := idx })
    | none =>
      match qcbKey s q with
      | none => .next (ignoreKick s q.fn)
      | some k =>
        if !qcbEnabled (qcbOf s k) then .next (ignoreKick s q.fn)
        else
          let s := feWriteNat (knowQueue s q) (k + 24) 4 idx.toNat
          let s := modQueue (setPending s q true) q fun z => { z with pendingSince := z.pendingSince.or (some s.tick) }
          .next (shepherd s)

/-- The queues of the functions' tables: an entry with no byte listed is not VALID (R355). -/
def tableQueues (s : State) : List QRef :=
  ((List.range 17).filter (qtOn s)).flatMap fun fn =>
    let base := qtKey s fn
    (((s.mem.bytes.filter fun c => decide (base ≤ c.1 ∧ c.1 < base + 2 ^ 23)).map fun c => (c.1 - base) / 8).eraseDups).map
      fun qid => { fn, qid }

/-- The queues of a context: those that the front end has mapped, and every other whose control block names it. -/
def ctxQueues (s : State) (ctx : Nat) : List QRef :=
  let known := (s.front.queues.filter fun x => x.ctx == ctx && x.qcb != 0).map (·.q)
  known ++ (tableQueues s).filter fun q => !known.contains q && (match qcbKey s q with
    | some k => bitsOf (qcbOf s k) 191 160 == ctx
    | none => false)

/-- The queues of a faulted context enter FAULTED and lose their slots (R374). -/
def faultQueues (s : State) (ctx : Nat) : State :=
  (ctxQueues s ctx).foldl (fun s q =>
    let s := match slotOf s q, queueOf s q with
      | some i, _ => unmapSlot s i (some 3)
      | none, some x => (match (if x.qcb = 0 then qcbKey s q else some x.qcb) with
        | some k => setQcbState s k 3 0
        | none => s)
      | none, none => (match qcbKey s q with
        | some k => setQcbState s k 3 0
        | none => s)
    modQueue s q fun z => { z with faulted := true, pendingSince := none }) s

/-! ## Far accesses of the front end (R358, R361, R384) -/

def ctxConfidential (s : State) (c : Nat) : Bool :=
  match ctxOf s c with
  | some c => c.confidential
  | none => false

/-- How a failed far access of the front end goes on: the page on which it parks, or none when the fault is
unresolvable. -/
def parkPage (s : State) (ctx va : Nat) (f : FarRes) : Option Nat :=
  match f with
  | .fault _ _ | .atsMiss =>
    if ctxConfidential s ctx || s.front.killed.contains (ctx, va / 4096) then none else some (va / 4096)
  | _ => none

/-- A read of the front end. -/
def frontRead (s : State) (ctx n va : Nat) : Except (Option Nat) (List Byte) :=
  match farReadN s ctx n va with
  | .ok bs => .ok bs
  | .error (f, at_) => .error (parkPage s ctx at_ f)

/-- The place of a write of the front end. -/
def frontKey (s : State) (ctx va : Nat) : Except (Option Nat) Nat × State :=
  match farKey s ctx va true with
  | (.hit k, s) =>
    let (bad, s) := writeFails s k
    (if bad then .error none else .ok k, s)
  | (f, s) => (.error (parkPage s ctx va f), s)

/-! ## Completion (R360) -/

/-- A dropped completion write, named in the dump buffer (R376). -/
def completionFault (s : State) (h : PktHdr) (ctx seq code : Nat) (a : BitVec 64) (isSig : Bool) : State :=
  dumpEntry s h.q ctx seq 5 false (natBytes 16 (recNat [(isSig.toNat, 80), (code, 64), (a.toNat, 0)]))

/-- Ends a started packet; the last one of a queue that has been disabled lets its STATE read IDLE. -/
def dropStarted (s : State) (h : PktHdr) : State :=
  let s := { s with front := { s.front with
    started := s.front.started.filter fun p => !(p.hdr.q == h.q && p.hdr.n == h.n) } }
  match queueOf s h.q with
  | some qu =>
    if (startedOf s h.q).isEmpty && (slotOf s h.q).isNone && !qcbEnabled (qcbOf s qu.qcb)
        && qcbState (qcbOf s qu.qcb) == 2 then setQcbState s qu.qcb 0 0
    else s
  | none => s

def parkStarted (s : State) (h : PktHdr) (work : PktWork) (page : Nat) : State :=
  modStarted s h.q h.n fun p => { p with work, parked := some ((dieAt s 0).gen.toNat, page) }

/-- The completion writes still to be made, the status record first. -/
def completeWrites (s : State) (h : PktHdr) (ctx : Nat) (st : Status) (seq : BitVec 32) (stat sig : Bool) :
    State :=
  let signal (s : State) : State :=
    if !sig then dropStarted s h
    else match frontKey s ctx h.sigAddr.toNat with
      | (.ok k, s) =>
        let key := ctxSeal s ctx
        let old := leNat (s.mem.openBytes key s.mem.byte 8 k)
        let new := if h.sigOp = 1 then h.sigVal.toNat else low 64 (old + 2 ^ 64 - h.sigVal.toNat)
        dropStarted (putAs s .frontEnd key (bytesAt 8 k new)) h
      | (.error (some page), s) => parkStarted s h (.completing st seq false true) page
      | (.error none, s) => dropStarted (completionFault s h ctx seq.toNat st.code h.sigAddr true) h
  if !stat then signal s
  else match frontKey s ctx h.statAddr.toNat with
    | (.ok k, s) => signal (putAs s .frontEnd (ctxSeal s ctx) (bytesAt 8 k (st.code + seq.toNat * 2 ^ 32)))
    | (.error (some page), s) => parkStarted s h (.completing st seq true sig) page
    | (.error none, s) => signal (completionFault s h ctx seq.toNat st.code h.statAddr false)

/-- A packet completes with a status; without its signal when the watchdog ends it (R45). -/
def completeWith (s : State) (h : PktHdr) (st : Status) (seq : BitVec 32) (signal : Bool) : State :=
  let ctx := match queueOf s h.q with
    | some qu => qu.ctx
    | none => 0
  completeWrites s h ctx st seq (h.statAddr != 0 && h.statAddr.toNat % 8 == 0)
    (signal && (h.sigOp == 1 || h.sigOp == 2) && h.sigAddr.toNat % 8 == 0)

def complete (s : State) (h : PktHdr) (st : Status) : State := completeWith s h st 0 true

end Sys2Proof.Machine
end

