-- ==== Sys2Proof/Machine/Dump.lean ====
section
/-! DEFINITION. The lifetime record as flash holds it, and the start of a dump with what it gathers
(23_field_life_dumps.md R419, R421, R423, R424). -/

namespace Sys2Proof.Machine

open Sys2Proof

/-! ## The lifetime record (R419) -/

def ageingBytes (a : Ageing) : List Byte :=
  natBytes 4 (min a.eol (2 ^ 32 - 1)) ++ natBytes 4 (min a.ppm (2 ^ 32 - 1)) ++ natBytes 4 (min a.f (2 ^ 32 - 1))
    ++ natBytes 4 (min a.f0 (2 ^ 32 - 1))

/-- The 2,104 bytes of a record; every counter stops at its maximum. -/
def lifeBytes (l : Life) : List Byte :=
  let table (rows cols n : Nat) (t : List (List Nat)) : List Byte :=
    (List.range rows).flatMap fun i => (List.range cols).flatMap fun j =>
      natBytes n (min ((t.getD i []).getD j 0) (2 ^ (8 * n) - 1))
  let body := natBytes 4 0x46544B42 ++ natBytes 4 (l.seq % 2 ^ 32) ++ natBytes 8 (min l.poweredS (2 ^ 64 - 1))
    ++ natBytes 4 (min l.cycles (2 ^ 32 - 1)) ++ List.replicate 44 0
    ++ table 9 9 8 l.errors ++ table 9 16 4 l.temp ++ table 16 8 4 l.volt
    ++ (List.range 16).flatMap fun i =>
      ageingBytes (l.ageing.getD i { f0 := 0, f := 0, ppm := 0, eol := 0xFFFFFFFF })
  body ++ sha384 body

/-- Whether a bank's DIGEST verifies. -/
def bankOk (b : List Byte) : Bool :=
  b.length == 2104 && b.take 4 == natBytes 4 0x46544B42 && sha384 (b.take 2056) == b.drop 2056

def bankSeq (b : List Byte) : Nat := leNat ((b.drop 4).take 4)

/-- The bank last written in full: its DIGEST verifies, and its SEQ is the higher. -/
def lastBank (s : State) : List Byte :=
  (s.field.banks.filter bankOk).foldl (fun best b => if best.isEmpty || decide (bankSeq best < bankSeq b) then b else best) []

/-! ## Dumps (R423) -/

/-- The records that a device ring holds: the last of those written, up to its size. -/
def ringRecords (s : State) (key log size : Nat) : List Byte :=
  let w := feNat s key 4
  (List.range (min w (2 ^ log))).flatMap fun i =>
    feBytes s (key + 16 + size * ((w - min w (2 ^ log) + i) % 2 ^ log)) size

def errorLogBytes (s : State) : List Byte :=
  let log := s.rel.errCtl.toNat % 32
  if s.rel.errBase ≠ 0 ∧ 6 ≤ log ∧ log ≤ 16 then
    ringRecords s (targetKey 0 (s.rel.errBase.toNat / 4096 * 4096)) log 32
  else []

/-- What FLUSH reads as. -/
def flushReg (d : Die) : Nat := d.busy.toNat + 2 * d.killOvf.toNat

def dieRegs (d : Die) : List Byte :=
  Config.dumpBits 1 [d.fbBase.toNat, d.fbCtl.toNat, d.fbWrite.toNat, d.fbRead.toNat, d.gen.toNat, flushReg d,
    d.killVa.toNat, d.overflow]

/-- QUEUE_ID with its function, READ_IDX and KICK_IDX of a mapped slot; no field for one that is not. -/
def slotBytes (s : State) (z : Slot) : List Byte :=
  match z.q with
  | some q =>
    let r := match queueOf s q with
      | some x => x.readIdx.toNat
      | none => 0
    Config.dumpBits 2 [q.fn, q.qid, r, z.kick.toNat]
  | none => Config.dumpBits 2 []

/-- The place of a state in the order that `CtxState` gives. -/
def ctxStateCode : CtxState → Nat
  | .unloaded => 0 | .loaded => 1 | .saving => 2 | .saved => 3 | .faulted => 4

/-- A context's part: identifier and state in the clear, and its records, sealed for a confidential one. -/
def ctxPart (c : Ctx) (n : Nat) : List Byte :=
  let recs := if c.confidential then sealPayload c.dumpKey (Config.nonceOf n) c.faultRecs else c.faultRecs
  Config.dumpBits 4 [c.id, ctxStateCode c.st, recs.length] ++ recs

/-- The offline map: cores by die and index, clusters by die and number. -/
def offlineMap (s : State) : List Byte :=
  Config.dumpBits 3 ((s.cores.filter (·.offline)).flatMap (fun c => [0, c.die, c.core])
    ++ (s.clusters.filter (·.offline)).flatMap fun c => [1, c.die, c.cluster])

/-- The sections of a dump in order. -/
def dumpBytesOf (s : State) (trigger : Nat) : List Byte :=
  let body := errorLogBytes s ++ s.dies.flatMap dieRegs ++ s.front.slots.flatMap (slotBytes s) ++ offlineMap s
    ++ lastBank s ++ ((s.ctxs.filter fun c => c.st != .unloaded && !(c.st == .saved && c.saveUnload)).zipIdx.flatMap fun p => ctxPart p.1 (s.free + p.2))
  let hdr (n : Nat) : List Byte := Config.dumpBits 0 [0x50444B42, trigger, s.tick % 2 ^ 64, n]
  hdr ((hdr 0).length + body.length) ++ body

/-- A trigger of a dump: it starts one, or is ignored while one is being written. -/
def startDump (s : State) (trigger : Nat) : State :=
  if s.field.writing.isSome then { s with field := { s.field with ignored := min (s.field.ignored + 1) 65535 } }
  else
    { s with free := s.free + s.ctxs.length,
             field := { s.field with writing := some (dumpBytesOf s trigger), done := false } }

end Sys2Proof.Machine
end

