-- ==== Sys2Proof/Machine/Boot.lean ====
section
/-! DEFINITION. Package reset, boot and the configuration record (24_package_links_power.md R429, R430; 02 R57;
23 R419; 18 R355). -/

namespace Sys2Proof.Machine

open Sys2Proof

/-! ## The configuration record (R430) -/

/-- The default configuration. -/
def Conf.dflts : Conf :=
  { powerW := 3400, teamPool := List.replicate 8 128, errinj := false, steer := true, dflt := true }

def confOf (b : List Byte) : Conf :=
  let flags := leNat ((b.drop 28).take 1)
  { powerW := leNat ((b.drop 8).take 4), teamPool := (List.range 8).map fun d => leNat ((b.drop (12 + 2 * d)).take 2),
    errinj := bitOf flags 0, steer := bitOf flags 1, dflt := false }

def confSeq (b : List Byte) : Nat := leNat ((b.drop 4).take 4)

/-- Whether a bank's record is valid. -/
def confOk (b : List Byte) : Bool :=
  let c := confOf b
  b.length == 3504 && Config.ed25519Ok (b.take 128) ((b.drop 128).take 64)
    && Config.mldsaOk (b.take 128) ((b.drop 192).take 3309)
    && b.take 4 == natBytes 4 0x47434B42
    && decide (leNat ((b.drop 28).take 1) < 4)
    && (((b.drop 29).take 99).all fun x => x == 0) && ((b.drop 3501).all fun x => x == 0)
    && decide (1000 ≤ c.powerW ∧ c.powerW ≤ 3600) && (c.teamPool.all fun n => decide (n ≤ 256))
    && decide (Config.rollbackFloor ≤ confSeq b)

/-- The configuration in force: the valid record of higher SEQ, else the defaults. -/
def confFrom (banks : List (List Byte)) : Conf :=
  match (banks.filter confOk).foldl (fun (best : Option (List Byte)) b => match best with
      | none => some b
      | some x => if confSeq x < confSeq b then some b else best) none with
  | some b => confOf b
  | none => Conf.dflts

/-! ## The lifetime record from flash (R419) -/

def tableOf (rows cols n : Nat) (b : List Byte) : List (List Nat) :=
  (List.range rows).map fun i => (List.range cols).map fun j => leNat ((b.drop (n * (cols * i + j))).take n)

def lifeOf (b : List Byte) : Life :=
  let at_ (o n : Nat) : Nat := leNat ((b.drop o).take n)
  { seq := at_ 4 4, poweredS := at_ 8 8, cycles := at_ 16 4, errors := tableOf 9 9 8 (b.drop 64),
    temp := tableOf 9 16 4 (b.drop 712), volt := tableOf 16 8 4 (b.drop 1288),
    ageing := (List.range 16).map fun i =>
      { eol := at_ (1800 + 16 * i) 4, ppm := at_ (1804 + 16 * i) 4, f := at_ (1808 + 16 * i) 4,
        f0 := at_ (1812 + 16 * i) 4 } }

/-! ## Reset and boot (R429) -/

/-- Memory after a package reset: what lies outside the package stays. -/
def Mem.afterReset (m : Mem) : Mem :=
  let out (k : Nat) : Bool := decide (24 * 2 ^ 60 ≤ k)
  { bytes := m.bytes.filter fun c => out c.1, full := [], hist := [],
    damage := { words := [], poison := m.damage.poison.filter out, news := [] },
    seals := m.seals.filter fun e => out e.1 }

/-- Slot quotas as the driver gives them: free, and 128 in all at most (R355). -/
def freeQuotas (n : Nat) : (fns left : Nat) → List Nat
  | 0, _ => []
  | f + 1, left =>
    let q := Config.choice (n + f) % (left + 1)
    q :: freeQuotas n f (left - q)

/-- PERST_ASSERT (R429): everything is at its reset value but flash and what lies outside the package; the counts of
the model itself go on, and so does the image that each key yields (R257). -/
def execPerstAssert (s : State) : Out :=
  .next { State.reset with
    steps := s.steps, free := s.free, nextId := s.nextId, mem := s.mem.afterReset, images := s.images,
    field := { State.reset.field with banks := s.field.banks } }

/-- Firmware is verified; the device boots, or stays in recovery. -/
def boot (s : State) (fw : FwImage) (banks : List (List Byte)) : State :=
  let bank := lastBank s
  let life := if bank.isEmpty then s.field.life else lifeOf bank
  let s := { s with field := { s.field with life := { life with cycles := min (life.cycles + 1) (2 ^ 32 - 1) } } }
  if !(Config.ed25519Ok fw.body fw.sigEd && Config.mldsaOk fw.body fw.sigMl) then { s with boot := .recovery }
  else
    { s with
      fw := { s.fw with version := fw.version, xlat := fw.xlat, layout := fw.layout,
                        measure := sha384 (s.fw.measure ++ sha384 fw.body) },
      conf := confFrom banks, mem := s.mem.afterReset,
      front := { s.front with slotQuota := freeQuotas s.free 17 128 }, free := s.free + 17,
      boot := .running }

/-- PERST_DEASSERT (R429, R430). -/
def execPerstDeassert (fw : FwImage) (banks : List (List Byte)) (s : State) : Out :=
  if s.boot == .inReset then .next (boot s fw banks) else .next s

end Sys2Proof.Machine
end

