-- ==== Sys2Proof/Machine/Image.lean ====
section
/-! DEFINITION. Reading a translation image: header, 32-byte units, side-table entries, live items and
the constant table, and the places that location descriptors name
(14_tbf_formats_timing.md R289, R295, R305, R306; 13_translator.md R267, R273). -/

namespace Sys2Proof.Machine

open Sys2Proof

/-! ## The image (R289) -/

def transOf (s : State) (u : Nat) : Option Trans := s.trans.find? fun t => t.uid == u

/-- The image that a group runs; empty when it runs Value Form words. -/
def imageOf (s : State) (g : Group) : List Word :=
  match g.native with
  | some n => match transOf s n.tr with
    | some t => t.image
    | none => []
  | none => []

/-- The 256 bits at a native offset. -/
def imgUnit (ws : List Word) (n : Nat) : Nat := wordsNat ((ws.drop (8 * n)).take 8)

def imgHdr (ws : List Word) : Nat := imgUnit ws 0
def imgConstOff (ws : List Word) : Nat := bitsOf (imgHdr ws) 223 192
def imgLiveOff (ws : List Word) : Nat := bitsOf (imgHdr ws) 191 160
def imgSideOff (ws : List Word) : Nat := bitsOf (imgHdr ws) 159 128
def imgSideCount (ws : List Word) : Nat := bitsOf (imgHdr ws) 127 108
def imgCodeUnits (ws : List Word) : Nat := bitsOf (imgHdr ws) 95 64
def imgSpillUnits (ws : List Word) : Nat := bitsOf (imgHdr ws) 63 48
def imgNc (ws : List Word) : Nat := 2 ^ bitsOf (imgHdr ws) 41 40
def imgBudget (ws : List Word) : Nat := bitsOf (imgHdr ws) 39 32 + 1

/-- Registers per cluster (R295). -/
def imgRegs (ws : List Word) : Nat := imgBudget ws / imgNc ws

/-- An entry of the native constant table. -/
def imgConst (ws : List Word) (k : Nat) : Nat := objBytes ws 8 (imgConstOff ws + 8 * k)

/-! ## Side table (R305, R306) -/

structure SideEnt where
  caller : Nat
  loopId : Nat
  stages : Nat
  live : Nat
  nlive : Nat
  ppc : Nat × Nat
  kind : Nat
  off : Nat
  deriving DecidableEq, Repr

def sideEnt (ws : List Word) (i : Nat) : SideEnt :=
  let x := objBytes ws 16 (imgSideOff ws + 16 * i)
  { caller := bitsOf x 127 108, loopId := bitsOf x 107 100, stages := bitsOf x 99 97, live := bitsOf x 95 76,
    nlive := bitsOf x 75 60, ppc := (bitsOf x 59 44, bitsOf x 43 20), kind := bitsOf x 19 16,
    off := bitsOf x 15 0 }

/-- The covering entry of a native offset: the last with NATIVE_OFF not above it (R352). -/
def covering (ws : List Word) (off : Nat) : Option SideEnt :=
  ((List.range (imgSideCount ws)).map (sideEnt ws)).foldl
    (fun best e => if e.off ≤ off then some e else best) none

/-- The entry that stands at a native offset. -/
def entryAt (ws : List Word) (off : Nat) : Option SideEnt :=
  ((List.range (imgSideCount ws)).map (sideEnt ws)).find? fun e => e.off == off

/-- The entry of a portable PC. -/
def entryOf (ws : List Word) (ppc : Nat × Nat) : Option SideEnt :=
  ((List.range (imgSideCount ws)).map (sideEnt ws)).find? fun e => e.ppc == ppc && e.kind % 2 == 1

structure LiveItem where
  value : Nat
  frame : Nat
  kind : Nat
  pay : Nat
  deriving DecidableEq, Repr

def liveItems (ws : List Word) (e : SideEnt) : List LiveItem :=
  (List.range e.nlive).map fun i =>
    let x := objBytes ws 8 (imgLiveOff ws + 8 * (e.live + i))
    { value := bitsOf x 47 24, frame := bitsOf x 23 16, kind := bitsOf x 15 13, pay := bitsOf x 12 0 }

/-! ## Spill area (R273, R320) -/

/-- The key of a byte of a group's spill area. -/
def spillKey (g : Group) (off : Nat) : Nat := coreKey g.die g.core (g.spillOff + off)

/-- The words of a class-V register's slot: thread `t` at four times its index. -/
def spillWords (s : State) (g : Group) (off : Nat) : List Word :=
  (List.range g.width).map fun t =>
    BitVec.ofNat 32 (leNat ((keysFrom 4 (spillKey g (off + 4 * t))).map s.mem.byte))

def spillStore (s : State) (g : Group) (off : Nat) (ws : List Word) : State :=
  setMem s fun m => (ws.zipIdx).foldl
    (fun m p => m.setBytes (bytesAt 4 (spillKey g (off + 4 * p.2)) p.1.toNat))
    (m.heal (spillKey g off) (4 * ws.length))

/-- A uniform slot's 8 bytes. -/
def spillU (s : State) (g : Group) (off : Nat) : Nat :=
  leNat ((keysFrom 8 (spillKey g off)).map s.mem.byte)

def spillUStore (s : State) (g : Group) (off n x : Nat) : State :=
  setMem s fun m => (m.heal (spillKey g off) 8).setBytes (bytesAt n (spillKey g off) x)

/-! ## Places of values (R306) -/

def wideTy (t : Ty) : Bool := decide (t.width = 64)

/-- Sets a vector register or pair of a group's native state for the threads of a mask. -/
def vset (g : Group) (cl n : Nat) (wide : Bool) (m : Mask) (xs : List Lane) : Group :=
  setNative g fun nt =>
    let nt := vregSet nt g.width cl n m (xs.map loWord)
    if wide then vregSet nt g.width cl (n + 1) m (xs.map hiWord) else nt

/-- Its lanes. -/
def vget (g : Group) (cl n : Nat) (wide : Bool) : List Lane :=
  match g.native with
  | none => []
  | some nt =>
    (List.range g.width).map fun t =>
      pairWord ((vregGet nt cl n).getD t 0) (if wide then (vregGet nt cl (n + 1)).getD t 0 else 0)

def uset (g : Group) (n : Nat) (wide : Bool) (x : Lane) : Group :=
  setNative g fun nt =>
    let nt := sregSet nt n (loWord x)
    if wide then sregSet nt (n + 1) (hiWord x) else nt

def uget (g : Group) (n : Nat) (wide : Bool) : Lane :=
  match g.native with
  | none => 0
  | some nt =>
    pairWord (sregGet nt n) (if wide then sregGet nt (n + 1) else 0)

/-- Puts the lanes of a value where a descriptor says. -/
def putLoc (s : State) (u : Nat) (ty : Ty) (uni : Bool) (kind pay : Nat) (xs : List Lane) : State :=
  match kind with
  | 1 => modGroup s u fun g => vset g (pay / 2 ^ 11) (pay % 128) (wideTy ty) (fullMask g.width) xs
  | 2 => modGroup s u fun g =>
      if pay / 2 ^ 12 = 0 then uset g (pay % 64) (wideTy ty) (xs.headD 0)
      else setNative g fun nt => kregSet nt (pay % 64)
        (maskOf ((List.range g.width).filter fun t => (getLane xs t).getLsbD 0))
  | 3 =>
    match groupOf s u with
    | none => s
    | some g =>
      if uni then spillUStore s g (8 * pay) 8 (xs.headD 0).toNat
      else if ty == .i1 then
        spillUStore s g (8 * pay) 8
          (maskOf ((List.range g.width).filter fun t => (getLane xs t).getLsbD 0)).toNat
      else
        let s := spillStore s g (8 * pay) (xs.map loWord)
        if wideTy ty then spillStore s g (8 * pay + 4 * g.width) (xs.map hiWord)
        else s
  | _ => s

/-- Reads the lanes of a value from its place; `none` where the place holds none. -/
def getLoc (s : State) (g : Group) (ws : List Word) (ty : Ty) (uni : Bool) (kind pay : Nat) :
    Option (List Lane) :=
  let bits (x : Nat) : List Lane := (List.range g.width).map fun t => laneB (x.testBit t)
  match kind with
  | 1 => some (vget g (pay / 2 ^ 11) (pay % 128) (wideTy ty))
  | 2 =>
    if pay / 2 ^ 12 = 0 then some (List.replicate g.width (uget g (pay % 64) (wideTy ty)))
    else match g.native with
      | some nt => some (bits (kregGet nt (pay % 64)).toNat)
      | none => none
  | 3 =>
    if uni then some (List.replicate g.width (lane (low (max 32 ty.width) (spillU s g (8 * pay)))))
    else if ty == .i1 then some (bits (spillU s g (8 * pay)))
    else
      let lo := spillWords s g (8 * pay)
      let hi := spillWords s g (8 * pay + 4 * g.width)
      some ((List.range g.width).map fun t =>
        pairWord (lo.getD t 0) (if wideTy ty then hi.getD t 0 else 0))
  | 4 => some (List.replicate g.width (lane (low ty.width (imgConst ws pay))))
  | _ => none

end Sys2Proof.Machine
end

