-- ==== Sys2Proof/Machine/Cache.lean ====
section
/-! DEFINITION. Translation caches and the translation store (13_translator.md R259 to R261, R286, R287; 20
R396). -/

namespace Sys2Proof.Machine

open Sys2Proof

def Trans.bytes (t : Trans) : Nat := 4 * t.image.length

/-- Whether a group runs a translation: its bundles, or, under an empty image, the words of its unit. -/
def runsTrans (s : State) (g : Group) (tr : Nat) : Bool :=
  match g.native with
  | some n => n.tr == tr
  | none => (launchOf s g.launch).any fun l => l.trs.any fun t =>
      t.1 == g.die && t.2.1 == g.core / 16 && t.2.2.1 == g.unit && t.2.2.2 == tr

/-- Whether a group resident on a cluster, or a saved one that stood there, runs a translation (R260). -/
def transInUse (s : State) (die cluster tr : Nat) : Bool :=
  (heldGroups s ++ s.ctxs.flatMap fun c => c.savedGroups).any fun g =>
    g.die == die && g.core / 16 == cluster && runsTrans s g tr

/-! ## A cluster's cache -/

def cacheEnts (s : State) (die cluster : Nat) : List CacheEnt :=
  s.cache.filter fun e => e.die == die && e.cluster == cluster

def transBytes (s : State) (tr : Nat) : Nat :=
  match transOf s tr with
  | some t => t.bytes
  | none => 0

/-- The least recently used entry that nothing uses. -/
def cacheVictim (s : State) (die cluster : Nat) : Option CacheEnt :=
  ((cacheEnts s die cluster).filter fun e => !transInUse s die cluster e.tr).foldl
    (fun (b : Option CacheEnt) e => match b with
      | some x => if e.used < x.used then some e else b
      | none => some e) none

/-- Evicts until `need` bytes fit the 2 MiB; `none` where everything left is in use. -/
def cacheRoom (s : State) (die cluster ctx need : Nat) : (fuel : Nat) → Option State
  | 0 => none
  | n + 1 =>
    if ((cacheEnts s die cluster).map fun e => transBytes s e.tr).sum + need ≤ 2097152 then some s
    else match cacheVictim s die cluster with
      | none => none
      | some e =>
        let s := { s with cache := s.cache.filter fun x => !(x.die == die && x.cluster == cluster && x.tr == e.tr) }
        let s := match transOf s e.tr with
          | some t => xlatTransEvent s die cluster (if t.owner = 0 then ctx else t.owner) t 3
          | none => s
        cacheRoom s die cluster ctx need n

/-- Puts a translation into a cluster's cache. -/
def cacheIn (s : State) (die cluster ctx : Nat) (t : Trans) : Option State :=
  (cacheRoom s die cluster ctx t.bytes ((cacheEnts s die cluster).length + 1)).map fun s =>
    { s with cache := { die, cluster, tr := t.uid, used := s.tick, valid := true, ill := [] } :: s.cache }

/-! ## The store -/

def storeVictim (s : State) : Option Trans :=
  (s.trans.filter (·.stored)).foldl (fun (b : Option Trans) t => match b with
    | some x => if t.used < x.used then some t else b
    | none => some t) none

/-- Evicts until `need` bytes fit the 4 GiB. -/
def storeRoom (s : State) (die cluster ctx need : Nat) : (fuel : Nat) → State
  | 0 => s
  | n + 1 =>
    if ((s.trans.filter (·.stored)).map Trans.bytes).sum + need ≤ 4294967296 then s
    else match storeVictim s with
      | none => s
      | some t =>
        let s := { s with trans := s.trans.map fun x => if x.uid = t.uid then { x with stored := false } else x }
        storeRoom (xlatTransEvent s die cluster (if t.owner = 0 then ctx else t.owner) t 4) die cluster ctx need n

/-- Marks a translation as written to the store, or as used from it. -/
def storeTouch (s : State) (tr : Nat) : State :=
  { s with trans := s.trans.map fun t => if t.uid = tr then { t with stored := true, used := s.tick } else t }

/-! ## Requests (R259) -/

def cached (s : State) (die cluster tr : Nat) : Bool := (cacheEnts s die cluster).any fun e => e.tr == tr

def cacheTouch (s : State) (die cluster tr : Nat) : State :=
  { s with cache := s.cache.map fun e =>
      if e.die = die ∧ e.cluster = cluster ∧ e.tr = tr then { e with used := s.tick } else e }

/-- A known translation in a cluster's cache: found there, copied in from the store, or translated again with
the same result; `none` while the cache cannot make room. -/
def ensureCached (s : State) (die cluster ctx : Nat) (t : Trans) : Option State :=
  if cached s die cluster t.uid then some (cacheTouch s die cluster t.uid)
  else (cacheIn s die cluster ctx t).map fun s =>
    if t.stored then storeTouch (xlatTransEvent s die cluster ctx t 2) t.uid
    else
      let s := storeRoom s die cluster ctx t.bytes s.trans.length
      storeTouch (xlatTransEvent s die cluster ctx t 1) t.uid

end Sys2Proof.Machine
end

