-- ==== Sys2Proof/Machine/Convert.lean ====
section
/-! DEFINITION. Stochastic bits (04_number_formats.md R107 to R110) and the meanings of the conversion
instructions (06_tvf_arithmetic.md R153 to R159). -/

namespace Sys2Proof.Machine

open Sys2Proof

/-! ## The generator (R107, R108) -/

/-- One step of the generator: its output and its next state. -/
def Gen.step (g : Gen) : Word × Gen :=
  let t := g.x ^^^ (g.x <<< 11)
  let w := g.w ^^^ (g.w >>> 19) ^^^ t ^^^ (t >>> 8)
  let v := g.v + 0x9E3779B9
  (w + v, { x := g.y, y := g.z, z := g.w, w, v })

/-- `n` outputs in order. -/
def genRun : (n : Nat) → Gen → List Word × Gen
  | 0, g => ([], g)
  | n + 1, g =>
    let (o, g) := g.step
    let (os, g) := genRun n g
    (o :: os, g)

/-- The state seeded from a seed, a team index and a group index. -/
def genSeed (seed : BitVec 64) (tm : BitVec 32) (g : BitVec 16) (i : BitVec 32) : Gen :=
  { x := seed.truncate 32 ^^^ i, y := (seed >>> 32).truncate 32, z := tm,
    w := g.zeroExtend 32 ^^^ 0xB5AD4ECE, v := 0 }

/-- Draws one 512-bit queue word: the oldest of the queue, or, when it is empty, the word that the
engine makes for the waiting bundle (R107, R109). -/
def drawWord (s : State) : List Word × State :=
  match s.cur.rq with
  | w :: ws => (w, setCur s fun g => { g with rq := ws })
  | [] =>
    let (w, gen) := genRun 16 s.cur.gen
    (w, setCur s fun g => { g with gen })

def drawWords : (n : Nat) → State → List (List Word) × State
  | 0, s => ([], s)
  | n + 1, s =>
    let (w, s) := drawWord s
    let (ws, s) := drawWords n s
    (w :: ws, s)

/-- The random bits of thread `t`: bits [15:0] of lane `t mod 16` in its beat's word (R109). -/
def rhoOf (ws : List (List Word)) (t : Nat) : Nat := ((ws.getD (t / 16) []).getD (t % 16) 0).toNat % 65536

/-- A conversion to a floating format: `f` gives the result of a thread under a rounding. It draws one
word per beat, or one for the uniform form, when it rounds stochastically (R157). -/
def convert (s : State) (uni : Bool) (r : Rnd) (f : RCtx → Nat → Nat) : State :=
  if rndStoch s.cur.fmt r then
    let (ws, s') := drawWords (if uni then 1 else (s.cur.width + 15) / 16) s
    let n := hereVal s
    if uni then
      let v := lane (f (convCtx s.cur.fmt r (rhoOf ws 0)) (leader s))
      let s' := setCur s' fun g => setVal g n (fullMask g.width) (List.replicate g.width v)
      setCur s' fun g => { g with off := g.off + hereLen s }
    else
      let vs := (List.range s.cur.width).map fun t => lane (f (convCtx s.cur.fmt r (rhoOf ws t)) t)
      let s' := setCur s' fun g => setVal g n g.active vs
      setCur s' fun g => { g with off := g.off + hereLen s }
  else perThread1 s uni fun t => f (convCtx s.cur.fmt r 0) t

/-- `cvt` (R153 to R155). -/
def execCvt (o : CvtOp) (s : State) : Out :=
  if o.ty.isFloat then
    .next (convert s o.uni o.rnd fun c t =>
      if o.src.isFloat then fpConv (fmtOf o.src) (fmtOf o.ty) c (opdN s o.src o.a t)
      else intToFp o.src.width o.ss (fmtOf o.ty) c (opdN s o.src o.a t))
  else
    .next (perThread1 s o.uni fun t =>
      fpToInt (fmtOf o.src) o.ty.width o.ds (rndMode s.cur.fmt o.rnd) (opdN s o.src o.a t))

/-- `cvt.scaled` (R156). -/
def execCvtScaled (o : CvtScaledOp) (s : State) : Out :=
  .next (convert s o.uni o.rnd fun c t =>
    fpScaled (fmtOf o.src) (fmtOf o.ty) c (opdN s o.src o.x t) (opdN s .f32 o.s t))

/-- `pack` (R158). -/
def execPack (o : PackOp) (s : State) : Out :=
  .next (perThread1 s o.uni fun t => packElems o.ty.width (o.xs.map fun x => opdN s o.ty x t))

/-- `unpack` (R158). -/
def execUnpack (o : Op2) (s : State) : Out :=
  .next (perThread1 s o.uni fun t =>
    elemOf o.ty.width (opdN s .i32 o.a t) (opdN s .i32 o.b t))

/-- `bitcast` (R159). -/
def execBitcast (o : Op1) (s : State) : Out :=
  .next (perThread1 s o.uni fun t => opdN s o.ty o.a t)

end Sys2Proof.Machine
end

