-- ==== Sys2Proof/Machine/Engine.lean ====
section
/-! DEFINITION. Engine commands: address patterns, issue checks, the units of a command and what each
reads and writes, tokens, and the meanings of the nine commands and `tok.test`
(08_tvf_engines.md R188 to R201). -/

namespace Sys2Proof.Machine

open Sys2Proof

/-! ## Address patterns (R190) -/

/-- Byte total N. -/
def Pat.total (p : Pat) : Nat := p.lv.foldl (fun n l => n * l.1) p.c0

/-- Offset of the outer levels for the run numbered `i`, level 1 fastest. -/
def lvOff : List (Nat × Int) → Nat → Int
  | [], _ => 0
  | (c, s) :: rest, i => ((i % (max c 1) : Nat) : Int) * s + lvOff rest (i / max c 1)

/-- The address of byte `j`. -/
def Pat.addr (p : Pat) (j : Nat) : Int :=
  (p.base : Int) + lvOff p.lv (j / max p.c0 1) + ((j % max p.c0 1 : Nat) : Int)

/-- Lowest and highest byte address. -/
def Pat.lo (p : Pat) : Int :=
  p.lv.foldl (fun a l => a + min 0 (l.2 * ((l.1 : Int) - 1))) (p.base : Int)
def Pat.hi (p : Pat) : Int :=
  p.lv.foldl (fun a l => a + max 0 (l.2 * ((l.1 : Int) - 1))) ((p.base : Int) + p.c0 - 1)

def Pat.granular (p : Pat) (g : Nat) : Bool :=
  p.base % g == 0 && p.c0 % g == 0 && p.lv.all fun l => l.2 % (g : Int) == 0

/-! ## Widths -/

/-- The width in bytes of an ELEM code (R191). -/
def elemBytes (e : BitVec 2) : Nat := if e == 0 || e == 2 then 4 else 8

/-- The combine of R195 on bit strings. -/
def combineVal (code : BitVec 4) (e : BitVec 2) (a b : Nat) : Nat :=
  let w := 8 * elemBytes e
  let f := if e == 2 then fmtF32 else fmtF64
  match code.toNat with
  | 1 => aluAdd w a b
  | 2 => aluMinS w a b
  | 3 => aluMinU w a b
  | 4 => aluMaxS w a b
  | 5 => aluMaxU w a b
  | 6 => aluAnd w a b
  | 7 => aluOr w a b
  | 8 => aluXor w a b
  | 9 => fpMin f a b
  | 10 => fpMax f a b
  | _ => b

/-! ## Issue checks (R192) -/

/-- What the issue checks need: format, byte total, and the near extents (lowest byte, length, write). -/
structure EngCheck where
  fmtOk : Bool
  total : Nat
  near : List (Int × Nat × Bool)
  deriving DecidableEq, Repr

def patExtent (p : Pat) (write : Bool) : List (Int × Nat × Bool) :=
  if p.near then [(p.lo, (p.hi - p.lo + 1).toNat, write)] else []

def align16 (x : Nat) : Nat := (x + 15) / 16 * 16

/-- Where the regions P, V, C, X of `csr.rows` start, and the end of the last one (R196). -/
def rowsLayout (n cap e br bc : Nat) (cols gath : Bool) : Nat × Nat × Nat × Nat :=
  let v := align16 (4 * (n + 1))
  let vEnd := v + cap * (br * bc * e)
  let c := align16 vEnd
  let cEnd := if cols then c + 4 * cap else vEnd
  let x := align16 cEnd
  let xEnd := if gath then x + cap * (bc * e) else cEnd
  (v, c, x, xEnd)

def engCheck : EngOp → EngCheck
  | .copy src dst =>
    { fmtOk := src.total == dst.total && decide (src.total ≤ 2 ^ 36)
        && (src.total == 0 || (src.granular 4 && dst.granular 4)),
      total := src.total, near := patExtent src false ++ patExtent dst true }
  | .reduce src dst _ e =>
    { fmtOk := src.total == dst.total && decide (src.total ≤ 2 ^ 36)
        && (src.total == 0 || (src.granular (elemBytes e) && dst.granular (elemBytes e))),
      total := src.total, near := patExtent src false ++ patExtent dst true }
  | .gather tbl idx n dst esz idx64 =>
    let g := if idx64 then 8 else 4
    { fmtOk := idx % g == 0 && tbl % g == 0 && dst % 4 == 0, total := n * esz,
      near := [((idx : Int), n * g, false), ((dst : Int), n * esz, true)] }
  | .scatter tbl idx n src esz idx64 _ _ =>
    let g := if idx64 then 8 else 4
    { fmtOk := idx % g == 0 && tbl % g == 0 && src % 4 == 0, total := n * esz,
      near := [((idx : Int), n * g, false), ((src : Int), n * esz, false)] }
  | .rows rp ci va xv _ n dst cap e rp64 gath cols br bc =>
    { fmtOk := rp % (if rp64 then 8 else 4) == 0 && ci % 4 == 0 && va % e == 0 && xv % 4 == 0
        && dst % 4 == 0,
      total := 4 * (n + 1), near := [((dst : Int), (rowsLayout n cap e br bc cols gath).2.2.2, true)] }
  | .isect a aNear na b bNear nb out cap key64 _ =>
    let g := if key64 then 8 else 4
    { fmtOk := a % g == 0 && b % g == 0 && out % g == 0, total := 16 + 8 * cap,
      near := [((out : Int), 16 + 8 * cap, true)]
        ++ (if aNear then [((a : Int), na * g, false)] else [])
        ++ (if bNear then [((b : Int), nb * g, false)] else []) }

/-- One near extent as a single access (R192); an extent of no bytes passes. -/
def extentOk (s : State) (ctx team : Nat) (e : Int × Nat × Bool) : Bool :=
  if e.2.1 = 0 then true
  else if e.1 < 0 then false
  else (nearCheck s ctx team e.1.toNat e.2.1 e.2.2).isSome

/-! ## Units of a command

A unit is one aligned 4-byte write of a copy, gather or walk, one element of a combine, and one
record or the count of `isect`. Each unit reads whole 64-byte lines first (R80); the lines that a
command has read are kept with it. A line is named by `2 * number` in near memory (its key) and by
`2 * number + 1` in far memory (its address). -/

/-- A source or destination of a unit. -/
structure EAddr where
  near : Bool
  a : Int
  deriving DecidableEq, Repr

/-- The near key of an address of the command's context, checked at issue. -/
def nearRaw (s : State) (ctx a : Nat) : Nat :=
  match ctxOf s ctx with
  | some c =>
    match c.slices.find? fun e => e.slice == a / 2 ^ 22 with
    | some e => sliceKey e (a % 2 ^ 22)
    | none => 0
  | none => 0

/-- The line that holds an address. -/
def lineOf (s : State) (c : Cmd) (e : EAddr) : Nat :=
  if e.near then 2 * (nearRaw s c.ctx e.a.toNat / 64) else 2 * (e.a.toNat / 64) + 1

/-- Whether a far byte address is faulting (R190). -/
def EAddr.faulting (e : EAddr) : Bool := !e.near && (decide (e.a < 0) || decide ((2 ^ 57 : Nat) ≤ e.a))

/-- A number of `n` bytes at an address, when its line has been read; else the line it needs. -/
def getE (s : State) (c : Cmd) (e : EAddr) (n : Nat) : Except EAddr Nat :=
  if e.faulting then .error e
  else match assocGet (lineOf s c e) c.fetched with
  | some bs => .ok (leNat ((bs.drop (e.a % 64).toNat).take n))
  | none => .error e

/-- What a unit does: a write of bytes, or a combine of one element. -/
structure UnitW where
  dst : EAddr
  n : Nat
  v : Nat
  comb : Option (BitVec 4 × BitVec 2)
  deriving DecidableEq, Repr

/-- The bounds of a matrix walk: its first row pointer and its count of entries (R196). -/
def rowsCount (s : State) (c : Cmd) (rp first n cap : Nat) (rp64 : Bool) : Except EAddr (Int × Nat) := do
  let g : Nat := if rp64 then 8 else 4
  let at_ (i : Nat) : EAddr := { near := false, a := (rp : Int) + (((first + i) * g : Nat) : Int) }
  let b ← getE s c (at_ 0) g
  let e ← getE s c (at_ n) g
  let lo := sgn (8 * g) b
  .ok (lo, (max 0 (min (sgn (8 * g) e - lo) cap)).toNat)

/-- The merge of `isect` over the lines read so far, with fuel for the keys left: the matches found,
or the line that it needs next (R197). -/
def isectRun (s : State) (c : Cmd) (ka kb : Nat → EAddr) (g : Nat) (signed : Bool) (na nb : Nat) :
    (fuel i j m : Nat) → List (Nat × Nat) → Except EAddr (Nat × List (Nat × Nat))
  | 0, _, _, m, acc => .ok (m, acc.reverse)
  | k + 1, i, j, m, acc =>
    if i < na ∧ j < nb then do
      let x ← getE s c (ka i) g
      let y ← getE s c (kb j) g
      match cmpInt (8 * g) signed x y with
      | .lt => isectRun s c ka kb g signed na nb k (i + 1) j m acc
      | .gt => isectRun s c ka kb g signed na nb k i (j + 1) m acc
      | .eq => isectRun s c ka kb g signed na nb k (i + 1) (j + 1) (m + 1) ((i, j) :: acc)
    else .ok (m, acc.reverse)

/-- What unit `j` of a command does, the line it still needs, or nothing when the command has no such
unit. -/
def unitOf (s : State) (c : Cmd) (j : Nat) : Except EAddr (Option UnitW) :=
  match c.op with
  | .copy src dst =>
    if 4 * j < src.total then do
      let v ← getE s c { near := src.near, a := src.addr (4 * j) } 4
      .ok (some { dst := { near := dst.near, a := dst.addr (4 * j) }, n := 4, v, comb := none })
    else .ok none
  | .reduce src dst code e =>
    let w := elemBytes e
    if w * j < src.total then do
      let v ← getE s c { near := true, a := src.addr (w * j) } w
      .ok (some { dst := { near := false, a := dst.addr (w * j) }, n := w, v, comb := some (code, e) })
    else .ok none
  | .gather tbl idx n dst esz idx64 =>
    if 4 * j < n * esz then do
      let g := if idx64 then 8 else 4
      let k := 4 * j / esz
      let p := 4 * j % esz
      let i ← getE s c { near := true, a := (idx + k * g : Nat) } g
      let v ← getE s c { near := false, a := (tbl : Int) + sgn (8 * g) i * esz + p } 4
      .ok (some { dst := { near := true, a := (dst + 4 * j : Nat) }, n := 4, v, comb := none })
    else .ok none
  | .scatter tbl idx n src esz idx64 code e =>
    let w := if code == 0 then 4 else elemBytes e
    if w * j < n * esz then do
      let g := if idx64 then 8 else 4
      let k := w * j / esz
      let p := w * j % esz
      let i ← getE s c { near := true, a := (idx + k * g : Nat) } g
      let lo ← getE s c { near := true, a := (src + w * j : Nat) } 4
      let hi ← if w = 8 then getE s c { near := true, a := (src + w * j + 4 : Nat) } 4 else .ok 0
      .ok (some { dst := { near := false, a := (tbl : Int) + sgn (8 * g) i * esz + p }, n := w,
                  v := lo + hi * 2 ^ 32, comb := if code == 0 then none else some (code, e) })
    else .ok none
  | .rows rp ci va xv first n dst cap e rp64 gath cols br bc =>
    let g : Nat := if rp64 then 8 else 4
    let (vo, co, xo, _) := rowsLayout n cap e br bc cols gath
    let far (a : Int) : EAddr := { near := false, a }
    let put (off v : Nat) : Option UnitW :=
      some { dst := { near := true, a := (dst + off : Nat) }, n := 4, v, comb := none }
    do
      let base ← getE s c (far ((rp : Int) + ((first * g : Nat) : Int))) g
      let b := sgn (8 * g) base
      if j ≤ n then
        let x ← getE s c (far ((rp : Int) + (((first + j) * g : Nat) : Int))) g
        .ok (put (4 * j) (lowI 32 (sgn (8 * g) x - b)))
      else
        let (_, cnt) ← rowsCount s c rp first n cap rp64
        let ve := br * bc * e
        let xe := bc * e
        let u := j - (n + 1)
        if u < cnt * (ve / 4) then
          let x ← getE s c (far ((va : Int) + b * ve + 4 * u)) 4
          .ok (put (vo + 4 * u) x)
        else
          let u := u - cnt * (ve / 4)
          if cols ∧ u < cnt then
            let x ← getE s c (far ((ci : Int) + (b + u) * 4)) 4
            .ok (put (co + 4 * u) x)
          else
            let u := if cols then u - cnt else u
            if gath ∧ u < cnt * (xe / 4) then
              let k := 4 * u / xe
              let q ← getE s c (far ((ci : Int) + (b + k) * 4)) 4
              let x ← getE s c (far ((xv : Int) + q * xe + 4 * u % xe)) 4
              .ok (put (xo + 4 * u) x)
            else .ok none
  | .isect a aNear na b bNear nb out cap key64 signed =>
    let g : Nat := if key64 then 8 else 4
    do
      let (m, rs) ← isectRun s c (fun i => { near := aNear, a := (a : Int) + ((i * g : Nat) : Int) })
        (fun i => { near := bNear, a := (b : Int) + ((i * g : Nat) : Int) }) g signed na nb (na + nb) 0 0 0 []
      if j = 0 then
        .ok (some { dst := { near := true, a := (out : Int) }, n := 16, v := low 32 m, comb := none })
      else if j ≤ min m cap then
        let (x, y) := rs.getD (j - 1) (0, 0)
        .ok (some { dst := { near := true, a := (out + 16 + 8 * (j - 1) : Nat) }, n := 8,
                    v := low 32 x + low 32 y * 2 ^ 32, comb := none })
      else .ok none

/-- The first byte that unit `j` of a command writes, for the commands whose units may meet in one; an error where it
waits for an index (R193 to R195). -/
def unitDst (s : State) (c : Cmd) (j : Nat) : Except EAddr (Option Int) :=
  match c.op with
  | .copy src dst => .ok (if 4 * j < src.total then some (dst.addr (4 * j)) else none)
  | .reduce src dst _ e =>
    .ok (if elemBytes e * j < src.total then some (dst.addr (elemBytes e * j)) else none)
  | .scatter tbl idx n _ esz idx64 code e =>
    let w := if code == 0 then 4 else elemBytes e
    let g := if idx64 then 8 else 4
    if w * j < n * esz then do
      let i ← getE s c { near := true, a := (idx + w * j / esz * g : Nat) } g
      .ok (some ((tbl : Int) + sgn (8 * g) i * esz + (w * j % esz : Nat)))
    else .ok none
  | .gather .. | .rows .. | .isect .. => .ok none

/-- Whether a unit writes where another does, or may do so as far as is known yet. -/
def overlaps (s : State) (c : Cmd) (j : Nat) (w : UnitW) : Bool :=
  match unitDst s c j with
  | .ok (some a) => decide (a < w.dst.a + w.n) && decide (w.dst.a < a + w.n)
  | .ok none => false
  | .error _ => true

/-- An earlier unit of the command that writes a byte of the unit and is not done (R193, R194). -/
def waitsFor (s : State) (c : Cmd) (j : Nat) (w : UnitW) : Bool :=
  (List.range j).any fun i => !c.done.contains i && overlaps s c i w

/-- The first unit not done, when there is one: the command completes when there is none. -/
def nextUnit (s : State) (c : Cmd) : (fuel i : Nat) → Option Nat
  | 0, i => some i
  | k + 1, i =>
    if c.cut then none
    else if c.done.contains i then nextUnit s c k (i + 1)
    else match unitOf s c i with
      | .ok none => none
      | _ => some i

/-! ## Completion (R81, R198, R199) -/

def setCtr (g : Group) (cn : Nat) (f : Ctr → Ctr) : Group :=
  { g with ctrs := (g.ctrs.zipIdx).map fun p => if p.2 = cn then f p.1 else p.1 }

/-- A party that had left with commands outstanding is gone with its last one. -/
def partyIdle (s : State) (u : Nat) : State :=
  match groupOf s u with
  | some g =>
    if (g.party.any fun pt => pt.gone) && (cmdsBy s u).isEmpty then
      partyGone s u
    else s
  | none => s

/-- The command completes its token: its release over the writes it has made (R81, R82), then the counter of its
group; the release of its launch will carry its writes (R87). -/
def completeCmd (s : State) (c : Cmd) : State :=
  let s := match c.rel with
    | some r => setMem s fun m => m.mark (fun st => st.grp == c.uid) r s.steps
    | none => s
  match c.by_ with
  | .group u cn =>
    let s := { s with cmds := s.cmds.filter fun x => x.uid != c.uid }
    let s := modLaunch s c.launch fun l => { l with
      ends := { reach := .package, org := .frontEnd, at_ := 0, grp := c.uid, seq := s.nextId, skip := [] } :: l.ends }
    let s := modGroup s u fun g => setCtr g cn fun t =>
      { t with done := t.issued,
               errs := ((c.err.map fun e => { seq := t.issued, trap := e, ppc := c.ppc, cmd := c.uid, iter := c.iter }).toList
                 ++ t.errs) }
    partyIdle s u
  | .packet _ _ => s

/-- Whether the units of a command cannot be told without the number at an address: a bound of a matrix walk, or a
key of `isect`. -/
def EngOp.hangsOn (op : EngOp) (e : EAddr) : Bool :=
  match op with
  | .rows rp _ _ _ first n _ _ _ rp64 _ _ _ _ =>
    let g : Nat := if rp64 then 8 else 4
    !e.near && (e.a == ((rp + first * g : Nat) : Int) || e.a == ((rp + (first + n) * g : Nat) : Int))
  | .isect .. => true
  | _ => false

/-- Records an unresolvable fault or an uncorrectable line, and gives the unit up; where the read that failed leaves no
later unit known, these too (R199). -/
def failUnit (s : State) (u j : Nat) (t : Trap) : State :=
  modCmd s u fun c =>
    let cut := match unitOf s c j with
      | .error e => c.op.hangsOn e
      | .ok _ => false
    { c with err := c.err.or (some t), done := j :: c.done, cut := c.cut || cut }

/-- Lines that the retriever of a core keeps parked, which count against its lines in flight (R198, R384). -/
def parkedLines (s : State) (die core : Nat) : Nat :=
  ((s.cmds.filter fun c => c.die == die && c.core == core).flatMap fun c =>
    (c.parked.map fun p => (c.uid, p.line)).eraseDups).length

/-- Parks one half of a unit's work on a far page (R384), with a fault record for the first line of the
command parked on the page in this generation. -/
def parkUnit (s : State) (c : Cmd) (u va : Nat) (write : Bool) (f : FarRes) : State :=
  let page := va / 4096
  let gen := (dieAt s c.die).gen.toNat
  let (who, slot, ctr, helper) := match c.by_ with
    | .group g cn => match groupOf s g with
      | some g => (logicalCore s c.ctx c.die c.core, g.slot, cn, g.party.isSome)
      | none => (logicalCore s c.ctx c.die c.core, 0, cn, false)
    | .packet _ _ => (0xFFFF, 0, 0, false)
  let src : FaultSrc := { ctx := c.ctx, va, ppc := c.ppc, core := who, slot, counter := ctr, write, helper,
                          source := match c.by_ with | .group _ _ => 0 | .packet _ _ => 2 }
  let seen := c.parked.any fun p => p.page == page && p.gen == gen
  let conf := match ctxOf s c.ctx with
    | some x => x.confidential
    | none => false
  let (n, s) := freeNo s
  let s := match f with
    | .fault l r => if seen && !conf then s else faultRecord s c.die (faultFields s c.die l r src)
    | _ => s
  if conf then failUnit s c.uid (u / 2) .farFault
  else modCmd s c.uid fun c =>
    { c with parked := c.parked ++
        [{ unit := u, page, order := n, gen, line := va / 64, pri := if f == .atsMiss then some n else none }] }

/-- The instant at which a line is read: a free one since the command's earliest (R79, R80). -/
def lineInstant (s : State) (c : Cmd) : Nat := c.from_ + Config.choice s.free % (s.steps + 1 - c.from_)

/-- Reads the line that unit `j` needs next (R80). -/
def fetchUnit (s : State) (u j : Nat) : State :=
  match cmdOf s u with
  | none => s
  | some c =>
    match unitOf s c j with
    | .ok _ => s
    | .error e =>
      if e.faulting then failUnit s u j .farFault
      else
        let (res, s) := if e.near then (FarRes.hit (nearRaw s c.ctx e.a.toNat), s)
          else translate s c.die c.core c.ctx e.a.toNat false
        match res with
        | .hit k =>
          if badLine s k then failUnit (logLine s c.ctx c.ppc k) u j .uncorrectable
          else
            let s := correctLine s c.ctx c.ppc c.die c.core k
            match remoteGo s k with
            | (none, s) => s
            | (some true, s) => failUnit s u j .farFault
            | (some false, s) =>
              let at_ := lineInstant s c
              let bs := s.mem.openBytes (ctxSeal s c.ctx) (s.mem.lineByte (.core c.die c.core) c.acq at_) 64 (k / 64 * 64)
              { (modCmd s u fun x => { x with fetched := assocSet (lineOf s c e) bs x.fetched }) with
                free := s.free + 1 }
        | .dead => failUnit s u j .farFault
        | f => parkUnit s c (2 * j) e.a.toNat false f

/-- The destination address of unit `i` of a command that writes 4-byte pieces of a pattern. -/
def pieceAt (op : EngOp) (i : Nat) : Option Int :=
  match op with
  | .copy _ dst => if 4 * i < dst.total then some (dst.addr (4 * i)) else none
  | .gather _ _ n dst esz _ => if 4 * i < n * esz then some ((dst + 4 * i : Nat) : Int) else none
  | .rows _ _ _ _ _ n dst _ _ _ _ _ _ _ => if i ≤ n then some ((dst + 4 * i : Nat) : Int) else none
  | _ => none

/-- Whether the units near `j` together write `[a, a + len)` (R407, R409). -/
def coversAll (op : EngOp) (j : Nat) (a : Int) (len : Nat) : Bool :=
  (List.range (len / 4)).all fun q =>
    (List.range 33).any fun d => pieceAt op (j + d - 16) == some (a + (4 * q : Nat))

/-- Ends the damage of the word or line at `k` that a command writes as a whole. -/
def healCovered (m : Mem) (op : EngOp) (j : Nat) (a : Int) (k : Nat) : Mem :=
  let m := if coversAll op j (a - (k % 8 : Nat)) 8 then m.heal (k / 8 * 8) 8 else m
  if coversAll op j (a - (k % 64 : Nat)) 64 then m.heal (k / 64 * 64) 64 else m

/-- The keys of the `n` bytes of a unit's destination, which may lie on two far pages. -/
def dstKeys (s : State) (c : Cmd) (e : EAddr) (n : Nat) : FarRes × List Nat × State :=
  if e.near then (.hit 0, keysFrom n (nearRaw s c.ctx e.a.toNat), s)
  else
    let a := e.a.toNat
    let m := min n (4096 - a % 4096)
    match translate s c.die c.core c.ctx a true with
    | (.hit k, s) =>
      if m = n then (.hit k, keysFrom n k, s)
      else match translate s c.die c.core c.ctx (a + m) true with
        | (.hit k', s) => (.hit k, keysFrom m k ++ keysFrom (n - m) k', s)
        | (f, s) => (f, [], s)
    | (f, s) => (f, [], s)

/-- The far byte whose page a destination waits for: the second page's, where the first translates. -/
def dstFault (s : State) (c : Cmd) (e : EAddr) (n : Nat) : Nat :=
  let a := e.a.toNat
  let m := min n (4096 - a % 4096)
  match (translate s c.die c.core c.ctx a true).1 with
  | .hit _ => a + m
  | _ => a

/-- Performs the write or combine of unit `j` once its lines are read and no earlier unit that writes
there is left. It is visible to no observer yet: the release flag or time makes it so (R71, R81). -/
def writeUnit (s : State) (u j : Nat) : State :=
  match cmdOf s u with
  | none => s
  | some c =>
    match unitOf s c j with
    | .ok (some w) =>
      if c.done.contains j || waitsFor s c j w then s
      else if w.dst.faulting || { w.dst with a := w.dst.a + w.n - 1 }.faulting then failUnit s u j .farFault
      else
        let va := dstFault s c w.dst w.n
        let (res, ks, s) := dstKeys s c w.dst w.n
        match res with
        | .hit _ =>
          let k := ks.headD 0
          match remoteGo s k with
          | (none, s) => s
          | (some true, s) => failUnit s u j .farFault
          | (some false, s) =>
          if w.comb.isSome && ks.any (badLine s) then
            failUnit (logLine s c.ctx c.ppc ((ks.find? (badLine s)).getD k)) u j .uncorrectable
          else
            let key := ctxSeal s c.ctx
            let old := leNat (ks.flatMap (s.mem.openBytes key s.mem.byte 1))
            let v := match w.comb with
              | some (code, e) => combineVal code e old w.v
              | none => w.v
            let me : Obs := .core c.die c.core
            let (bs, m) := (healCovered s.mem c.op j w.dst.a k).sealLines key
              (ks.zip ((bytesAt w.n 0 v).map (·.2)))
            let m := m.perform s.nextId u me [] s.steps bs [] c.carries
            modCmd { s with mem := m, nextId := s.nextId + 1 } u fun x => { x with done := j :: x.done }
        | .dead => failUnit s u j .farFault
        | f => parkUnit s c (2 * j + 1) va true f
    | _ => s

/-- One piece of a command's work: an even number reads for a unit, an odd one writes it. -/
def workUnit (s : State) (u n : Nat) : State :=
  match cmdOf s u with
  | none => s
  | some c =>
    if c.cut || (c.parked.any fun p => p.unit == n) || decide (Config.linesInFlight ≤ parkedLines s c.die c.core) then s
    else if n % 2 = 0 then fetchUnit s u (n / 2) else writeUnit s u (n / 2)

/-- Whether every unit of a command is done and none is parked. -/
def cmdFinished (s : State) (c : Cmd) : Bool :=
  c.parked.isEmpty && (nextUnit s c (c.done.length + 1) 0).isNone

/-! ## Issue (R188, R192, R198) -/

/-- The counter that a command of a group takes: one with no command outstanding, rather one with no
error held; which of them is a free choice. -/
def freeCtr (n : Nat) (g : Group) : Option Nat :=
  let idle := (g.ctrs.zipIdx).filter fun p => p.1.done == p.1.issued
  let clean := idle.filter fun p => p.1.errs.isEmpty
  (pick n (if clean.isEmpty then idle else clean)).map (·.2)

/-- A token handle (R326). -/
def handleOf (cn : Nat) (seq : BitVec 28) : Word := BitVec.ofNat 32 (cn + 16 * seq.toNat)

/-- How a command fares at issue. -/
inductive Issued where
  | trap (t : Trap)
  /-- no counter or no room in the retriever: the instruction waits (R198) -/
  | wait
  | done (h : Word) (s : State)
  deriving Repr

/-- Whether a far base of a command has a nonzero bit in [63:57] (R62, R199). -/
def EngOp.badBase : EngOp → Bool
  | .copy src dst => bad src || bad dst
  | .reduce _ dst _ _ => bad dst
  | .gather tbl .. => tooFar tbl
  | .scatter tbl .. => tooFar tbl
  | .rows rp ci va xv _ _ _ _ _ _ gath cols _ _ =>
    tooFar rp || tooFar va || ((gath || cols) && tooFar ci) || (gath && tooFar xv)
  | .isect a aNear _ b bNear _ _ _ _ _ => (!aNear && tooFar a) || (!bNear && tooFar b)
where
  tooFar (a : Nat) : Bool := decide (2 ^ 57 ≤ a)
  bad (p : Pat) : Bool := !p.near && tooFar p.base

/-- Issues a command of the group taken up for issue on a given counter or on a free one. The release of its acquire
flag is the issuing group's: the group's later stores carry it, and so do the command's writes (R72, R79; DEDUCED,
notes/assumptions/68.md). -/
def issueCmd (s : State) (op : EngOp) (acq rel : Option Nat) (ctr : Option Nat) : Issued :=
  let g := s.cur
  let ck := engCheck op
  if !ck.fmtOk then .trap .copyFormat
  else if ck.total != 0 && !(ck.near.all fun e => extentOk s g.ctx g.team e) then .trap .window
  else
    let room := decide ((s.cmds.filter fun c => c.die == g.die && c.core == g.core).length < 64)
    let cn := match ctr with
      | some n => match g.ctrs[n]? with
        | some c => if c.done == c.issued then some n else none
        | none => none
      | none => freeCtr s.free g
    match cn, room with
    | some cn, true =>
      let s := drainQ { s with free := s.free + 1 }
      let g := s.cur
      let reach (c : Nat) : Reach := groupReach s g (if c ≤ 2 then 3 else c)
      let acqs := match acq with
        | some c => { reach := reach c, at_ := s.steps, carried := [] } :: g.acq
        | none => g.acq
      let carries := match acq with
        | some c => addCarry (carryNow s g (reach c)) g.carry
        | none => g.carry
      let from_ := if acq.isSome then s.steps else g.acq.foldl (fun t a => min t a.at_) s.steps
      let iter := match g.party with
        | some pt => pt.iter
        | none => 0
      let seq := ((g.ctrs.getD cn { done := 0, issued := 0, errs := [] }).issued + 1)
      let cmd : Cmd := { uid := s.nextId, by_ := .group g.uid cn, die := g.die, core := g.core,
                         ctx := g.ctx, launch := g.launch, ppc := ppcOf g, op, acq := acqs,
                         rel := rel.map reach, carries, fetched := [], done := [], parked := [],
                         err := if op.badBase && ck.total != 0 then some .farFault else none, team := g.team, from_, iter, cut := false }
      let s := { s with nextId := s.nextId + 1 }
      let s := setCur s fun g => { (setCtr g cn fun t => { t with issued := seq }) with
        carry := carries, unseen := (cmd.uid, cn, seq) :: g.unseen }
      let s := match g.party, rel with
        | some pt, some _ => modGroup s pt.group fun r => { r with
            herd := r.herd.map fun h => { h with cmds := cmd.uid :: h.cmds } }
        | _, _ => s
      let s := if ck.total = 0 then completeCmd s cmd else { s with cmds := s.cmds ++ [cmd] }
      .done (handleOf cn seq) s
    | _, _ => .wait

/-- The Value Form's engine instruction: the token goes to its result. -/
def engine (s : State) (op : EngOp) (fl : EngFlags) (nres : Nat) : Out :=
  match issueCmd s op (fl.acq.map (·.toNat)) (fl.rel.map (·.toNat)) none with
  | .trap t => .next (raise s t)
  | .wait => .next s
  | .done h s => .next (finishU s ([h.zeroExtend 64].take nres))

/-- A pattern's operands, as the group's leader holds them. -/
def patOf (s : State) (p : Pattern) (near : Bool) : Pat :=
  let t := leader s
  { base := opdN s (if near then .near else .far) p.base t, near, c0 := opdN s .i32 p.c0 t,
    lv := p.lv.map fun l => (opdN s .i32 l.1 t, sgn 64 (opdN s .i64 l.2 t)) }

/-- `copy.in` (R191, R193). -/
def execCopyIn (o : CopyOp) (s : State) : Out :=
  engine s (.copy (patOf s o.src false) (patOf s o.dst true)) o.fl o.nres.toNat

/-- `copy.out` (R191, R193). -/
def execCopyOut (o : CopyOp) (s : State) : Out :=
  engine s (.copy (patOf s o.src true) (patOf s o.dst false)) o.fl o.nres.toNat

/-- `copy.near` (R191, R193). -/
def execCopyNear (o : CopyOp) (s : State) : Out :=
  engine s (.copy (patOf s o.src true) (patOf s o.dst true)) o.fl o.nres.toNat

/-- `reduce.far` (R195). -/
def execReduceFar (o : ReduceOp) (s : State) : Out :=
  engine s (.reduce (patOf s o.src true) (patOf s o.dst false) o.combine o.elem) o.fl o.nres.toNat

/-- `gather` (R194). -/
def execGather (o : GatherOp) (s : State) : Out :=
  let t := leader s
  engine s (.gather (opdN s .far o.tbl t) (opdN s .near o.idx t) (opdN s .i32 o.n t)
    (opdN s .near o.buf t) (2 ^ (o.esz.toNat + 2)) o.idx64) o.fl o.nres.toNat

/-- `scatter` (R194, R195). -/
def execScatter (o : GatherOp) (s : State) : Out :=
  let t := leader s
  engine s (.scatter (opdN s .far o.tbl t) (opdN s .near o.idx t) (opdN s .i32 o.n t)
    (opdN s .near o.buf t) (2 ^ (o.esz.toNat + 2)) o.idx64 o.combine o.elem) o.fl o.nres.toNat

/-- The resolved walk of `csr.rows` and `bsr.blocks`. -/
def rowsOf (s : State) (o : RowsOp) : EngOp :=
  let t := leader s
  .rows (opdN s .far o.rp t) (opdN s .far o.ci t) (opdN s .far o.va t) (opdN s .far o.xv t)
    (opdN s .i64 o.first t) (opdN s .i32 o.n t) (opdN s .near o.dst t) (opdN s .i32 o.cap t)
    (if o.esz8 then 8 else 4) o.rp64 o.gath o.cols (2 ^ o.brc.toNat) (2 ^ o.bcc.toNat)

/-- `csr.rows` (R196). -/
def execCsrRows (o : RowsOp) (s : State) : Out := engine s (rowsOf s o) o.fl o.nres.toNat

/-- `bsr.blocks` (R196). -/
def execBsrBlocks (o : RowsOp) (s : State) : Out := engine s (rowsOf s o) o.fl o.nres.toNat

/-- Whether an operand's type is near, from the function's values. -/
def opdNear (s : State) (o : Opd) : Bool :=
  match o, s.cur.frames with
  | .val n, f :: _ =>
    ((valTypes (groupWords s s.cur) (fnItems (groupWords s s.cur) f.fn)).getD n.toNat (.void, none)).1 == .near
  | _, _ => false

/-- `isect` (R197). -/
def execIsect (o : IsectOp) (s : State) : Out :=
  let t := leader s
  engine s (.isect (opdN s .far o.a t) (opdNear s o.a) (opdN s .i32 o.na t) (opdN s .far o.b t)
    (opdNear s o.b) (opdN s .i32 o.nb t) (opdN s .near o.out t) (opdN s .i32 o.cap t) o.key64 o.signed)
    o.fl o.nres.toNat

/-! ## Observing a token (R81, R200) -/

/-- Whether the token of a handle has completed. -/
def tokenDone (g : Group) (h : Word) : Bool :=
  match g.ctrs[h.toNat % 16]? with
  | some c => decide ((c.done - BitVec.ofNat 28 (h.toNat / 16)).toNat < 2 ^ 27)
  | none => false

/-- The error of a completed token, held until the token is observed. -/
def tokenErr (g : Group) (h : Word) : Option TokErr :=
  match g.ctrs[h.toNat % 16]? with
  | some c => c.errs.find? fun e => e.seq == BitVec.ofNat 28 (h.toNat / 16)
  | none => none

/-- The token of a generation on a counter counts as observed: its error is gone. -/
def clearErr (g : Group) (cn : Nat) (seq : BitVec 28) : Group :=
  { (setCtr g cn fun c => { c with errs := c.errs.filter fun e => e.seq != seq }) with
    unseen := g.unseen.filter fun x => !(x.2.1 == cn && x.2.2 == seq) }

/-- A group observes a token. -/
def observed (g : Group) (h : Word) : Group := clearErr g (h.toNat % 16) (BitVec.ofNat 28 (h.toNat / 16))

/-- The acquire at core scope of an observed token (R81). -/
def tokenAcquire (s : State) (h : Word) : State :=
  acquireOn (setCur s (observed · h)) (groupReach s s.cur 3) []

/-- `tok.test` (R200). -/
def execTokTest (_uni : Bool) (t : Opd) (s : State) : Out :=
  let h : Word := (opd s .tok t (leader s)).truncate 32
  if tokenDone s.cur h then
    match tokenErr s.cur h with
    | some e => .next (raiseAt (setCur s (observed · h)) e.trap e.ppc)
    | none => .next (finishU (tokenAcquire s h) [1])
  else .next (finishU s [0])

end Sys2Proof.Machine
end

