-- ==== Sys2Proof/Machine/Place.lean ====
section
/-! DEFINITION. What groups hold of a core and how a group comes to be: residency, team pool and tile
limits (01_execution_model.md R17 to R20; 02 R49, R50), a new group's state (R16, R23, R32, R101,
R108), and the stores that creations, triggers and barriers carry (03 R72, R77, R83, R84). -/

namespace Sys2Proof.Machine

open Sys2Proof

/-! ## Carried stores -/

/-- The stores of a group numbered below `seq` leave its queue (R70). -/
def drainUpTo (s : State) (u seq : Nat) : State :=
  match groupOf s u with
  | some g =>
    let out := g.storeQ.takeWhile fun q => decide (q.id < seq)
    let s := { s with mem := drainStores s.steps g out s.mem }
    modGroup s u fun g => { g with storeQ := g.storeQ.drop out.length }
  | none => s

/-- Everything that releases carry becomes visible to a reach (R72, R77, R83, R84). -/
def applyCarries (s : State) (cs : List Carry) (r : Reach) : State :=
  let s := cs.foldl (fun s c => drainUpTo s c.grp c.seq) s
  setMem s fun m => m.mark (fun st => cs.any fun c => c.covers st) r s.steps

/-! ## Resources of a core (R17 to R19, R49, R273) -/

def Group.claim (g : Group) : Claim :=
  { die := g.die, core := g.core, slot := g.slot, budget := g.budget, width := g.width,
    tiles := g.tilesHeld, spillOff := g.spillOff, spillLen := g.spillLen }

/-- Everything held on a core: by the groups of its teams, ended ones included (R18), and by the
detached groups. -/
def claimsOn (s : State) (die core : Nat) : List Claim :=
  let own := s.teams.flatMap fun t => t.held
  let det := ((heldGroups s).filter fun g => g.kind == .spawned || g.kind == .task).map Group.claim
  (own ++ det).filter fun c => c.die == die && c.core == core

/-- The register footprint of a group in bytes (R17). -/
def footprint (budget width : Nat) : Nat := budget * width * 4

def Claim.bytes (c : Claim) : Nat := footprint c.budget c.width

/-- Whether `n` more groups of one footprint and tile count fit a core beside what it holds (R17). -/
def coreFits (die : Nat) (cs : List Claim) (n budget width tiles : Nat) : Bool :=
  decide (cs.length + n ≤ Config.contextMax die
    ∧ (cs.map Claim.bytes).sum + n * footprint budget width ≤ Config.slowFile die
    ∧ (cs.map (·.tiles)).sum + n * tiles ≤ Config.tileRegs die)

/-- Hardware barriers in use on a core (R14, R19). -/
def barriersOn (s : State) (die core : Nat) : Nat :=
  ((s.teams.filter fun t => t.die == die && t.core == core).map (·.nbar)).sum

/-- Start and bytes of a die's team pool (R49). -/
def poolBytes (s : State) (die : Nat) : Nat := s.conf.teamPool.getD die 0 * 4096
def poolBase (s : State) (die : Nat) : Nat := Config.sysArea die - poolBytes s die

/-- Areas taken from a core's team pool: offset and bytes. -/
def areasOn (s : State) (die core : Nat) : List (Nat × Nat) :=
  ((s.teams.filter fun t => t.die == die && t.core == core).map fun t => (t.regionOff, t.regionLen))
    ++ (claimsOn s die core).map fun c => (c.spillOff, c.spillLen)

/-- Whether `len` bytes of the pool at `o` lie beside the areas taken. -/
def poolOk (base size len : Nat) (taken : List (Nat × Nat)) (o : Nat) : Bool :=
  decide (base ≤ o ∧ o + len ≤ base + size)
    && taken.all fun a => a.2 == 0 || decide (o + len ≤ a.1 ∨ a.1 + a.2 ≤ o)

/-- A place of the pool that holds `len` bytes beside the areas taken, in 256-byte steps: a free one, or the lowest
where that one is taken. -/
def poolFind (n i base size len : Nat) (taken : List (Nat × Nat)) : Option Nat :=
  let o := base + 256 * (Config.carve n i % (size / 256))
  if len = 0 then some base
  else if poolOk base size len taken o then some o
  else ((base :: taken.map fun a => (a.1 + a.2 + 255) / 256 * 256).filter (poolOk base size len taken)).min?

/-- Group contexts of a core that nothing holds, lowest first. -/
def freeSlots (s : State) (die core : Nat) : List Nat :=
  let used := (claimsOn s die core).map (·.slot)
  (List.range (Config.contextMax die)).filter fun n => !used.contains n

/-! ## Cores in use -/

/-- Whether a core takes groups: neither it nor its cluster is offline (R413, R416). -/
def coreUsable (s : State) (die core : Nat) : Bool :=
  decide (core < Config.coresOf die) && !(coreOf s die core).offline
    && !(clusterOf s die (core / 16)).offline

/-- Whether a context maps a core's slice (R55). -/
def coreMapped (s : State) (ctx die core : Nat) : Bool :=
  match ctxOf s ctx with
  | some c => c.slices.any fun e => !e.commons && e.die == die && e.index == core
  | none => false

/-! ## Translations in force -/

/-- The translation of a unit for a core: that of its cluster, or, for a task group elsewhere, that of
its generation; at the budget of the translation that spawns or posts it (R36, R258, R371). The newest
translation of a unit stands first. -/
def unitTrans (s : State) (l : Launch) (die core unit : Nat) (req : Option Nat) : Option Trans :=
  let fits (t : Nat × Nat × Nat × Nat) : Bool :=
    t.2.2.1 == unit && (match req, transOf s t.2.2.2 with
      | some b, some x => x.key.budget == b
      | _, _ => true)
  let on (t : Nat × Nat × Nat × Nat) : Bool := t.1 == die && t.2.1 == core / 16
  let gen (t : Nat × Nat × Nat × Nat) : Bool := Config.isGale t.1 == Config.isGale die
  let any (t : Nat × Nat × Nat × Nat) : Bool := t.2.2.1 == unit
  let pick := (l.trs.find? fun t => on t && fits t).or ((l.trs.find? fun t => gen t && fits t).or
    ((l.trs.find? fun t => on t && any t).or (l.trs.find? fun t => gen t && any t)))
  match pick with
  | some t => transOf s t.2.2.2
  | none => none

def kernelIn (l : Launch) : Kernel := kernelOf l.words l.body.kernel.toNat

/-- The wait of a launch's next team on a cluster begins (R285). -/
def Launch.waitAnew (l : Launch) (die cluster now : Nat) : Launch :=
  { l with waits := (die, cluster, now) :: l.waits.filter fun x => !(x.1 == die && x.2.1 == cluster) }

/-- A request for translations reaches a cluster (R259). -/
def Launch.ask (l : Launch) (die cluster now : Nat) : Launch :=
  { l with asked := (die, cluster, now) :: l.asked.filter fun x => !(x.1 == die && x.2.1 == cluster) }

/-- Whether a launch's next team has waited 4,096 cycles on a cluster (R285). -/
def Launch.waitedLong (l : Launch) (die cluster now : Nat) : Bool :=
  l.waits.any fun x => x.1 == die && x.2.1 == cluster && decide (x.2.2 + 4096 ≤ now)

/-- Whether a launch still has teams waiting for a cluster. -/
def teamsWait (l : Launch) (die cluster : Nat) : Bool :=
  l.places.any fun p => p.die == die && p.cluster == cluster && p.count != 0

/-! ## A new group -/

/-- Free bits in every word of an area of a core's slice: a spill area has no defined contents when its group starts
(R50, R320). -/
def freshArea (s : State) (die core off len : Nat) : State :=
  let n := len / 8
  setMem { s with free := s.free + n } fun m => m.setBytes ((List.range n).flatMap fun i =>
    bytesAt 8 (coreKey die core (off + 8 * i)) (Config.freeBits (s.free + i)).toNat)

/-- What a new group is given. -/
structure Seat where
  kind : GKind
  die : Nat
  core : Nat
  slot : Nat
  spillOff : Nat
  team : Nat
  teamIdx : List (BitVec 32)
  gidx : BitVec 16
  /-- team index for the generator (R108) -/
  seedTeam : BitVec 32
  unit : Nat
  args : List (List Lane)
  uniform : Bool
  threads : Mask
  /-- the budget in the key of its translation, where a translation of the launch creates it (R258) -/
  req : Option Nat
  deriving DecidableEq, Repr

/-- The native side of a group at the first clause of its unit. -/
def Native.start (tr : Nat) : Native :=
  { tr, clause := 1, bundle := 0, count := 0, v := [], s := List.replicate 64 0,
    k := List.replicate 8 0, t := [], flags := List.replicate 12 0, pend := [], var := [], lc := 0, trip := 0,
    cvctl := 0, dset := none, clmode := 0, woken := [], stack := [], target := none, regClause := 1,
    regActive := 0, regStack := [], regFmt := 4, regGen := .zero, regRq := [], regPend := [],
    regCvctl := 0, regLc := (0, 0), regCount := 0, inHerd := false,
    ppc := (0, 0), loop := none, stalled := false, at_ := (1, 0), again := false, passed := false }

/-- The frame of a function entered with its parameters. -/
def Frame.enter (fn : Nat) (args : List (List Lane)) (m : Mask) : Frame :=
  { fn, vals := (args.zipIdx).map fun p => (p.2, p.1), tiles := [], base := 0, callMask := m,
    retMask := 0, rets := [], retOff := 0, dst := 0, nres := 0 }

/-- The word offset of the first instruction of a block. -/
def blockStart (its : List Item) (b : Nat) : Nat :=
  match blockItem its b with
  | some it => it.off + it.len
  | none => 0

/-- Puts the parameters of a native unit where the side-table entry of its first bundle lists them
(R281, R305). -/
def enterNative (s : State) (u : Nat) (words img : List Word) (fn : Nat) (uniform : Bool)
    (args : List (List Lane)) : State :=
  match entryAt img 2 with
  | none => s
  | some e =>
    let tys := fnParams words fn
    (liveItems img e).foldl (fun s it =>
      if it.frame = 0 then
        match args[it.value]? with
        | some xs => putLoc s u (tys.getD it.value (.void, none)).1 uniform it.kind it.pay xs
        | none => s
      else s) s

/-- Starts the stall sampler of a context on a core with its first group there (R351). -/
def startSampler (s : State) (ctx die core : Nat) : State :=
  match ctxOf s ctx with
  | some c =>
    if c.debugCtl.getLsbD 2 && !(s.samplers.any fun x => x.ctx == ctx && x.die == die && x.core == core) then
      { s with samplers := { ctx, die, core, start := s.cycle, fired := 0, last := none } :: s.samplers }
    else s
  | none => s

/-- A context leaves FREE for READY with a new group (R23, R32, R101, R108): FMT and generator at
their start values, every queue empty, the acquire point at its start (R71). -/
def newGroup (s : State) (l : Launch) (st : Seat) : Nat × State :=
  let (u, s) := fresh s
  let k := kernelIn l
  let tr := unitTrans s l st.die st.core st.unit st.req
  let s := match tr with
    | some t => (ensureCached s st.die (st.core / 16) l.ctx t).getD s
    | none => s
  let w := k.width
  let native := match tr with
    | some t => if t.image.isEmpty then none else some (Native.start t.uid)
    | none => none
  let g : Group :=
    { Group.free with
      uid := u, kind := st.kind, st := .ready, die := st.die, core := st.core, slot := st.slot,
      age := u, ctx := l.ctx, launch := l.uid, team := st.team, teamIdx := st.teamIdx,
      gidx := st.gidx, width := w, active := st.threads, exited := fullMask w &&& ~~~st.threads,
      unit := st.unit, off := blockStart (fnItems l.words st.unit) 0,
      frames := [Frame.enter st.unit st.args st.threads],
      gen := genSeed l.body.seed st.seedTeam st.gidx 0, seed := l.body.seed,
      acq := [{ reach := .system, at_ := s.steps, carried := [] }], native, spillOff := st.spillOff,
      spillLen := (match tr with | some t => t.spillUnits * 256 | none => 0),
      budget := (match tr with | some t => t.budget | none => 8), tilesHeld := k.tiles }
  let s := { (freshArea s st.die st.core st.spillOff g.spillLen) with others := g :: s.others }
  let s := match tr with
    | some t => if t.image.isEmpty then s else enterNative s u l.words t.image st.unit st.uniform st.args
    | none => s
  (u, startSampler s l.ctx st.die st.core)

/-- A detached group's resources on a core: its slot and spill area (R34, R37). A cluster whose cache cannot make room for
the translation takes no such group (R260, notes/assumptions/71.md). -/
def detachedSeat (s : State) (l : Launch) (die core unit : Nat) (req : Option Nat) : Option (Nat × Nat) :=
  let k := kernelIn l
  let tr := unitTrans s l die core unit req
  let (budget, spill) := match tr with
    | some t => (t.budget, t.spillUnits * 256)
    | none => (8, 0)
  if (tr.all fun t => (ensureCached s die (core / 16) l.ctx t).isSome) && coreUsable s die core && coreMapped s l.ctx die core && coreFits die (claimsOn s die core) 1 budget k.width k.tiles then
    match pick s.free (freeSlots s die core), poolFind s.free 1 (poolBase s die) (poolBytes s die) spill (areasOn s die core) with
    | some slot, some off => some (slot, off)
    | _, _ => none
  else none

end Sys2Proof.Machine
end

