-- ==== Sys2Proof/Machine/Load.lean ====
section
/-! DEFINITION. Loading a context: its descriptor, slice map and window table, and the isobar chain that a
first load begins (18_queues_launch.md R358; 02 R51, R54 to R56; 17 R344; 20 R388 to R392, R396). -/

namespace Sys2Proof.Machine

open Sys2Proof

/-! ## The isobar chain (R388 to R390) -/

def Isobar.fresh : Isobar :=
  { h := List.replicate 48 0, lastConfig := [], launches := 0, checkedAll := true, detAll := true,
    result := false, receipts := 0 }

/-- One extension: H := SHA-384(H ‖ header ‖ body) (R389). -/
def Isobar.extend (i : Isobar) (type : Nat) (body : List Byte) : Isobar :=
  { i with h := sha384 (i.h ++ natBytes 8 (type + body.length * 2 ^ 32) ++ body) }

def extend (s : State) (ctx type : Nat) (body : List Byte) : State :=
  modCtx s ctx fun c => { c with isobar := c.isobar.extend type body }

/-- The body of a CONFIG record: firmware version, XLAT_VERSION and the generation of every die (R390). -/
def configBody (s : State) : List Byte :=
  natBytes 4 s.fw.version.toNat ++ natBytes 4 s.fw.xlat.toNat
    ++ (List.range 8).map fun d => BitVec.ofNat 8 (Config.genCode d)

/-- The CONFIG record of a load: at the first, and wherever its body is not that of the last one. -/
def extendConfig (s : State) (ctx : Nat) : State :=
  let b := configBody s
  modCtx s ctx fun c =>
    if c.isobar.lastConfig == b then c
    else { c with isobar := { c.isobar.extend 1 b with lastConfig := b } }

/-! ## The descriptor (R358) -/

/-- The descriptor's fields in a context's record; what the device keeps of the context beside them stays. -/
def Ctx.describe (c : Ctx) (fn d : Nat) : Ctx :=
  { c with
    fn, saveArea := bitsOf d 1023 960, sampleRing := bitsOf d 959 896, traceRing := bitsOf d 895 832,
    barrierRing := bitsOf d 831 768, debugCtl := BitVec.ofNat 64 (bitsOf d 767 704),
    ptRoot := BitVec.ofNat 64 (bitsOf d 575 512), taskQuota := bitsOf d 511 480, pasid := bitsOf d 479 460,
    pasidEn := bitOf d 459, confidential := bitOf d 458, sampleLog2 := bitsOf d 415 411,
    traceLog2 := bitsOf d 410 406, barrierLog2 := bitsOf d 405 401 }

def Ctx.new (id : Nat) : Ctx :=
  { id, fn := 0, st := .unloaded, saveArea := 0, sampleRing := 0, traceRing := 0, barrierRing := 0,
    sampleLog2 := 4, traceLog2 := 4, barrierLog2 := 4, debugCtl := 0, ptRoot := 0, taskQuota := 0, pasid := 0,
    pasidEn := false, confidential := false, slices := [], windows := [], launchCount := 0,
    isobar := .fresh, dumpKey := 0, xtsKey := 0, saveUnload := false, saveMig := false, faultRecs := [],
    firedAt := none, lost := [false, false, false], savedGroups := [], savedTeams := [], savedTasks := [], savedRecs := [],
    savedBytes := [], savedFull := [], savedSlices := [], savedWindows := [],
    savedLayout := 0, savedXlat := 0 }

/-- The descriptor that a mapped queue names. -/
def descriptorOf (s : State) (qu : Queue) : Nat :=
  match fnKey qu.ctxDesc with
  | some k => feNat s k 128
  | none => 0

/-- Reads the descriptor of a queue's context while the context is off the device; the page tables that
it names serve the packet's completion writes whether or not the load succeeds (R360). A confidential
context gets its keys here, before the first read of its load (R396). -/
def describe (s : State) (qu : Queue) : State :=
  let s := if s.ctxs.any fun c => c.id == qu.ctx then s else { s with ctxs := s.ctxs ++ [Ctx.new qu.ctx] }
  let k := s.nextId
  modCtx { s with nextId := k + 2 } qu.ctx fun c =>
    if c.st == .unloaded then
      let c := c.describe qu.q.fn (descriptorOf s qu)
      if c.confidential && c.xtsKey == 0 then { c with xtsKey := k, dumpKey := k + 1 } else c
    else c

/-- Whether the descriptor is well-formed. -/
def descOk (d : Nat) : Bool :=
  let ring (addr log : Nat) : Bool := addr == 0 || decide (4 ≤ log ∧ log ≤ 20)
  bitsOf d 457 448 == 0 && bitsOf d 400 0 == 0
    && ring (bitsOf d 959 896) (bitsOf d 415 411) && ring (bitsOf d 895 832) (bitsOf d 410 406)
    && ring (bitsOf d 831 768) (bitsOf d 405 401)

/-! ## The slice map (R54, R55) -/

/-- The entries of a table of `n`-byte entries, numbered. -/
def tableEnts (n : Nat) : (fuel i : Nat) → List Byte → List (Nat × Nat)
  | 0, _, _ => []
  | f + 1, i, bs => if bs.isEmpty then [] else (i, leNat (bs.take n)) :: tableEnts n f (i + 1) (bs.drop n)

def sliceEnt (i e : Nat) : SliceEnt :=
  { slice := i, die := bitsOf e 23 20, commons := bitsOf e 19 18 == 1, index := bitsOf e 8 0 }

/-- Whether one valid entry is in order. -/
def sliceEntOk (i e : Nat) : Bool :=
  let die := bitsOf e 23 20
  let kind := bitsOf e 19 18
  let index := bitsOf e 8 0
  bitsOf e 30 24 == 0 && bitsOf e 17 9 == 0 && decide (die ≤ 7)
    && (if i < 16256 then kind == 0 && decide (index < Config.coresOf die)
        else if i < 16288 then kind == 1 && decide (index < 4) else false)

/-- Whether no physical slice stands twice. -/
def slicesApart : List SliceEnt → Bool
  | [] => true
  | e :: es => !(es.any fun x => x.die == e.die && x.commons == e.commons && x.index == e.index) && slicesApart es

/-- The slice map, when R55 accepts it. -/
def sliceMap (bs : List Byte) : Option (List SliceEnt) :=
  let ents := (tableEnts 4 16384 0 bs).filter fun e => bitOf e.2 31
  let es := ents.map fun e => sliceEnt e.1 e.2
  if ents.all (fun e => sliceEntOk e.1 e.2) && slicesApart es then some es else none

/-! ## The window table (R51) -/

/-- The windows in force, of slices that the map holds. -/
def windowsOf (s : State) (es : List SliceEnt) (bs : List Byte) : List Window :=
  (tableEnts 8 16384 0 bs).filterMap fun e =>
    let base := bitsOf e.2 13 0
    let limit := bitsOf e.2 45 32
    match es.find? fun x => x.slice == e.1 with
    | none => none
    | some x =>
      let top := if x.commons then 2 ^ 22 else poolBase s x.die
      if bitOf e.2 63 && bitsOf e.2 61 46 == 0 && bitsOf e.2 31 14 == 0
          && decide (base ≤ limit ∧ (limit + 1) * 256 ≤ top) then
        some { slice := e.1, write := bitOf e.2 62, base, limit }
      else none

/-! ## The load -/

inductive LoadRes where
  | ok
  | refused (st : Status)
  | parked (page : Nat)
  deriving DecidableEq, Repr

/-- DEBUG_CTL as R344 wants it. -/
def debugOk (d : Nat) : Bool := bitsOf d 7 4 == 0 && !(bitOf d 2 && decide (bitsOf d 39 20 < 16))

/-- Puts a context on the device (R358); its first load begins the chain (R388). -/
def putCtx (s : State) (id : Nat) (es : List SliceEnt) (ws : List Window) : State :=
  extendConfig (modCtx s id fun c => { c with st := .loaded, slices := es, windows := ws, firedAt := none }) id

/-- Loads the context of a queue that is off the device (R358); the cases stand in the rule's order. -/
def loadCtx (s : State) (qu : Queue) : LoadRes × State :=
  let s := describe s qu
  match ctxOf s qu.ctx with
  | none => (.ok, s)
  | some c =>
    if c.st != .unloaded then (.ok, s)
    else
      let d := descriptorOf s qu
      if !descOk d then (.refused .format, s)
      else match frontRead s qu.ctx 65536 (bitsOf d 703 640), frontRead s qu.ctx 131072 (bitsOf d 639 576) with
        | .error (some p), _ => (.parked p, s)
        | .error none, _ => (.refused .farFault, s)
        | .ok _, .error (some p) => (.parked p, s)
        | .ok _, .error none => (.refused .farFault, s)
        | .ok sm, .ok wt =>
          match sliceMap sm with
          | none => (.refused .sliceMap, s)
          | some es =>
            if !debugOk c.debugCtl.toNat then (.refused .debugCtl, s)
            else (.ok, putCtx s qu.ctx es (windowsOf s es wt))

/-- Leaves a packet's start until the flush that ends the park of its read (R384). -/
def parkStart (s : State) (i : Instr) (page : Nat) : State :=
  { s with front := { s.front with
      starting := s.front.starting ++ [(i, (dieAt s 0).gen.toNat, page)] } }

/-- Starts a packet that is no launch: its context is loaded first (R358). -/
def withCtx (s : State) (h : PktHdr) (i : Instr) (f : Queue → State → State) : Out :=
  match queueOf s h.q with
  | none => .next s
  | some qu =>
    match loadCtx s qu with
    | (.ok, s) => .next (f qu s)
    | (.refused st, s) => .next (complete s h st)
    | (.parked p, s) => .next (parkStart s i p)

end Sys2Proof.Machine
end

