-- ==== Sys2Proof/Machine/FlowGraph.lean ====
section
/-! DEFINITION. The view of a function body that the verifier works on: its items with their failures, its
blocks, reachability, dominance, uses and liveness (05_tvf_language_encoding.md R125 to R133, R436). -/

namespace Sys2Proof.Machine

open Sys2Proof

/-! ## Items -/

/-- One item of a body under verification: its word offset and length, the first value number that it
defines, its opcode, its BLOCK arguments or its instruction, what is wrong with its words, and its results. -/
structure VItem where
  off : Nat
  len : Nat
  val : Nat
  ext : Bool
  opc : Nat
  blk : Option Nat
  ins : Option Instr
  bads : List Bad
  types : List VTy
  /-- where words were put right so that the rest could be read (R136) -/
  mended : List Loc
  /-- blocks that a terminator's words name, where its instruction cannot be read -/
  tgts : List Nat
  deriving DecidableEq, Repr

/-- The byte of the body at which a failure of an item lies (R436). -/
def VItem.byte (it : VItem) (l : Loc) : Nat :=
  let h := 4 * it.off
  match l with
  | .hdr b => h + b
  | .hdr2 b => if it.ext then h + 4 + b else h
  | .word k b => h + 4 + (if it.ext then 4 else 0) + 4 * k + b

/-- The argument types of a BLOCK marker, or where they fail (R131, R132). -/
def markerTypes : (k : Nat) → List ROpd → List VTy × List Bad
  | _, [] => ([], [])
  | k, .op (.imm v) :: rest =>
    let bad (r : Nat) : List Bad := [⟨r, .word k 0⟩]
    let res := if v.toNat / 64 = 0 then [] else bad 7
    match Ty.ofCode (BitVec.ofNat 6 v.toNat) with
    | some .tile =>
      match rest with
      | d :: rest' =>
        let (ts, bs) := markerTypes (k + 2) rest'
        match descOf (k + 1) d with
        | .ok dd => ((.tile, some dd) :: ts, res ++ (if dd.ok then [] else [⟨6, .word (k + 1) 0⟩]) ++ bs)
        | .error e => ((.tile, none) :: ts, res ++ e :: bs)
      | [] => ([(.tile, none)], res ++ [⟨9, .hdr 0⟩])
    | some t =>
      let (ts, bs) := markerTypes (k + 1) rest
      ((t, none) :: ts, res ++ (if t == .void || t == .batch then bad 6 else []) ++ bs)
    | none =>
      let (ts, bs) := markerTypes (k + 1) rest
      ((.void, none) :: ts, bad 6 ++ bs)
  | k, .op o :: rest =>
    let (ts, bs) := markerTypes (k + o.words) rest
    ((.void, none) :: ts, ⟨7, .word k 0⟩ :: bs)
  | k, .sym _ _ :: rest =>
    let (ts, bs) := markerTypes (k + 1) rest
    ((.void, none) :: ts, ⟨7, .word k 0⟩ :: bs)

/-- The words that a header says its item takes (R125, R126). -/
def itemLen (ws : List Word) : Nat :=
  match ws with
  | [] => 0
  | h :: rest =>
    let n := h.toNat / 2 ^ 12 % 16
    if h.getLsbD 8 then
      match rest with
      | e :: _ => 2 + n + 16 * (e.toNat / 2 ^ 28)
      | [] => 2 + n
    else 1 + n

/-- A BLOCK marker as an item. -/
def markerItem (off len val blk : Nat) (ext : Bool) (r : Raw) : VItem :=
  let (ts, bs) := markerTypes 0 r.ops
  let own : List Bad :=
    (if r.ty == 0 then [] else [.type]) ++ (if r.uni then [.uniform] else [])
      ++ (if r.nres == 0 then [] else [.count]) ++ (if r.mod == 0 then [] else [.modifier])
      ++ (if r.ty2 == 0 then [] else [.type2]) ++ (if r.mod2 == 0 then [] else [.modifier2])
  { off, len, val, ext, opc := 0x3FE, blk := some blk, ins := none, bads := own ++ bs, types := ts,
    mended := [], tgts := [] }

/-- The operand words with a plain word put for each that breaks R128, and where those stand. -/
def looseOps : (n k : Nat) → List Word → List ROpd × List Bad
  | 0, _, _ => ([], [])
  | _ + 1, _, [] => ([], [.count])
  | n + 1, k, w :: ws =>
    let kind := w.toNat / 2 ^ 30
    let cnt := w.toNat % 4
    let own : List Bad :=
      if kind = 0 then (if w.toNat / 2 ^ 24 % 64 = 0 then [] else [⟨7, .word k 0⟩])
      else if kind = 2 then
        (if w.toNat / 4 % 2 ^ 28 = 0 ∧ (cnt = 1 ∨ cnt = 2) then [] else [⟨7, .word k 0⟩])
      else if kind = 3 then (if w.toNat / 2 ^ 24 % 16 = 0 then [] else [⟨7, .word k 0⟩])
      else []
    let one (o : ROpd) : List ROpd × List Bad :=
      let (os, bs) := looseOps n (k + 1) ws
      (o :: os, own ++ bs)
    if kind = 1 then one (.op (.imm (w.truncate 30)))
    else if kind = 3 then one (.sym (BitVec.ofNat 2 (w.toNat / 2 ^ 28)) (w.truncate 24))
    else if kind = 2 ∧ cnt = 1 then
      match n, ws with
      | m + 1, lo :: ws' =>
        let (os, bs) := looseOps m (k + 2) ws'
        (.op (.long1 lo) :: os, own ++ bs)
      | _, _ => ([], own ++ [.count])
    else if kind = 2 ∧ cnt = 2 then
      match n, ws with
      | m + 2, lo :: hi :: ws' =>
        let (os, bs) := looseOps m (k + 3) ws'
        (.op (.long2 lo hi) :: os, own ++ bs)
      | _, _ => ([], own ++ [.count])
    else if kind = 2 ∧ cnt = 3 then
      match n, ws with
      | m + 3, lo :: hi :: _ :: ws' =>
        let (os, bs) := looseOps m (k + 4) ws'
        (.op (.long2 lo hi) :: os, own ++ bs)
      | _, _ => ([], own ++ [.count])
    else one (.op (.val (w.truncate 24)))

/-- The fields of an item's words, and what is wrong with its words as such (R125, R126, R128). -/
def looseRaw (h : Word) (rest : List Word) (len : Nat) : Raw × List Bad :=
  let ext := h.getLsbD 8
  let e := rest.headD 0
  let (ops, bs) := if ext then looseOps (len - 2) 0 rest.tail else looseOps (len - 1) 0 rest
  ({ opc := BitVec.ofNat 10 (h.toNat / 2 ^ 22), ty := BitVec.ofNat 6 (h.toNat / 2 ^ 16),
     uni := h.getLsbD 11, nres := BitVec.ofNat 2 (h.toNat / 2 ^ 9), mod := BitVec.ofNat 8 h.toNat,
     ty2 := if ext then BitVec.ofNat 6 (e.toNat / 2 ^ 22) else 0,
     mod2 := if ext then BitVec.ofNat 16 e.toNat else 0, ops },
   (if ext && e.toNat / 2 ^ 16 % 64 != 0 then [⟨8, .hdr2 2⟩] else []) ++ bs)

/-- An operand list with the operand at word `k` put anew. -/
def putOpd (x : ROpd) : (at_ k : Nat) → List ROpd → List ROpd
  | _, _, [] => []
  | at_, k, o :: os =>
    if k = at_ then x :: os
    else o :: putOpd x (at_ + (match o with | .op p => p.words | .sym _ _ => 1)) k os

/-- The opcodes of the terminators (R131). -/
def termCode (c : Nat) : Bool := [0x146, 0x200, 0x201, 0x202, 0x203, 0x205, 0x206].contains c

/-- The opcodes whose operand count rests on the kinds in MOD2 (R183, R186). -/
def waitCode (c : Nat) : Bool := [0x144, 0x145, 0x146].contains c

/-- Ways to put right what stands at a place of an instruction. -/
def patches (r : Raw) (l : Loc) : List Raw :=
  let codes : List (BitVec 6) := [0x00, 0x01, 0x04, 0x05, 0x0A, 0x10, 0x12, 0x13, 0x20]
  match l with
  | .hdr 0 =>
    let ns : List (BitVec 2) := [1, 0, 2]
    { r with mod := 0 } :: ns.flatMap fun n => [{ r with nres := n }, { r with mod := 0, nres := n }]
  | .hdr 1 => [{ r with uni := false }]
  | .hdr 2 => codes.map fun c => { r with ty := c }
  | .hdr2 0 =>
    if waitCode r.opc.toNat then []
    else [{ r with mod2 := r.mod2 &&& 1 }, { r with mod2 := 0 }] ++ codes.map fun c => { r with ty2 := c }
  | .hdr2 2 => codes.map fun c => { r with ty2 := c }
  | .hdr2 _ => [{ r with mod2 := r.mod2 &&& 1 }, { r with mod2 := 0 }] ++ codes.map fun c => { r with ty2 := c }
  | .word k _ =>
    if termCode r.opc.toNat then []
    else ([.op (.val 0), .sym 0 0, .sym 1 0, .sym 2 0, .sym 3 0, .op (.imm 0)] : List ROpd).map fun x =>
      { r with ops := putOpd x 0 k r.ops }
  | _ => []

/-- Whether a failure at a place leaves what a rule at another place says open: a type decides the rest. -/
def hides (l : Loc) (b : Bad) : Bool := b.loc == l || l == .hdr 2 || l == .hdr2 2

/-- A raw instruction read as far as it can be: the decoder's reason and those that come to light once that one is put
right, the places put right, and the instruction that is left. -/
def readLoose : (fuel : Nat) → Raw → List Bad × List Loc × Option Instr
  | 0, _ => ([], [], none)
  | n + 1, r =>
    match ofRaw r with
    | .ok i => ((i.rules.filter fun p => !p.1).map (·.2), [], some i)
    | .error b =>
      let ps := patches r b.loc
      let helps (r' : Raw) : Bool := match ofRaw r' with
        | .error e => e.loc != b.loc
        | .ok _ => true
      let mends (r' : Raw) : Bool := match ofRaw r' with
        | .error _ => false
        | .ok _ => true
      match (ps.find? mends).or (ps.find? helps) with
      | some r' =>
        let (bs, ls, i) := readLoose n r'
        (b :: bs.filter (fun x => !hides b.loc x), b.loc :: ls, i)
      | none => ([b], [b.loc], none)

/-- An instruction as an item. -/
def insItem (ws : List Word) (off len val : Nat) (ext : Bool) (r : Raw) (own : List Bad) : VItem :=
  let unknown : List VTy := (List.range r.nres.toNat).map fun _ => (((Ty.ofCode r.ty).getD .void), none)
  let (bads, mended, ins) := readLoose 8 r
  let tgts := if termCode r.opc.toNat then r.ops.filterMap fun o => match o with
      | .sym 0 k => some k.toNat
      | _ => none
    else []
  let it : VItem :=
    { off, len, val, ext, opc := r.opc.toNat, blk := none, ins, bads := own ++ bads, types := unknown, mended, tgts }
  match ins with
  | none => it
  | some i =>
    if !mended.isEmpty then it
    else
      let rets := match i with
        | .call o => (fnInfo ws o.fn.toNat).rets
        | _ => []
      let ts := resTypes rets i
      { it with types := match i with
          | .call o => if ts.length = o.nres.toNat then ts else unknown
          | _ => ts }

/-- A cut-off instruction: COUNT, and what else its header word breaks at its first byte (R136). -/
def cutItem (ws all : List Word) (off len val : Nat) (ext : Bool) (blk : Option Nat) : VItem :=
  let (r, _) := looseRaw (all.headD 0) (all.tail ++ List.replicate len 0) len
  let it := insItem ws off len val ext r []
  { it with
    len := all.length, blk, ins := none, types := [],
    bads := .count :: if blk.isSome then [] else it.bads.filter fun b => it.byte b.loc == 4 * off }

/-- The items of a body. -/
def vscan (ws : List Word) : (fuel : Nat) → List Word → (off val blk : Nat) → List VItem
  | 0, _, _, _, _ => []
  | _ + 1, [], _, _, _ => []
  | n + 1, w :: rest, off, val, blk =>
    let all := w :: rest
    let len := itemLen all
    let ext := w.getLsbD 8
    let marker := w.toNat / 2 ^ 22 == 0x3FE
    if all.length < len then
      [cutItem ws all off len val ext (if marker then some blk else none)]
    else
      let (r, own) := looseRaw w rest len
      let it : VItem :=
        if marker then
          let m := markerItem off len val blk ext r
          { m with bads := own ++ m.bads }
        else insItem ws off len val ext r own
      it :: vscan ws n (all.drop len) (off + len) (val + it.types.length) (if marker then blk + 1 else blk)

def vitems (ws : List Word) (fn : Nat) : List VItem :=
  let body := fnBody ws fn
  vscan ws body.length body 0 0 0

/-! ## Operands with their places -/

/-- An operand with its place: operand word, requirement, its position among those of its kind, and
whether it stands among a terminator's block-target operands. -/
structure OpUse where
  word : Nat
  opd : Opd
  need : Option Sys2Proof.Need
  pos : Nat
  deriving DecidableEq, Repr

/-- A block target with its place. -/
structure TgtUse where
  word : Nat
  blk : Nat
  args : List (Nat × Opd)
  deriving DecidableEq, Repr

def placeOpds : (k : Nat) → List Opd → List (Nat × Opd)
  | _, [] => []
  | k, o :: os => (k, o) :: placeOpds (k + o.words) os

def placeNeeds : (k p : Nat) → List (Opd × Sys2Proof.Need) → List OpUse
  | _, _, [] => []
  | k, p, (o, n) :: os => { word := k, opd := o, need := some n, pos := p } :: placeNeeds (k + o.words) (p + 1) os

def TgtUse.of (k : Nat) (t : Target) : TgtUse := { word := k, blk := t.blk.toNat, args := placeOpds (k + 1) t.args }

def placeTargets : (k : Nat) → List Target → List TgtUse
  | _, [] => []
  | k, t :: ts => TgtUse.of k t :: placeTargets (k + t.words) ts

/-- The targets of a `switch`: a case value stands before each but the first. -/
def placeCases : (k : Nat) → List (BitVec 30 × Target) → List TgtUse
  | _, [] => []
  | k, (_, t) :: cs => TgtUse.of (k + 1) t :: placeCases (k + 1 + t.words) cs

/-- The operand words before the operands: a symbol or a descriptor. -/
def leadWords (i : Instr) : Nat :=
  match i with
  | .ldConst _ | .call _ | .spawn _ | .taskpost _ => 1
  | .herd _ | .herdAdd _ | .herdMin _ | .herdMax _ | .herdOr _ => 1
  | _ => if i.desc.isSome then 1 else 0

def Instr.uses (i : Instr) : List OpUse := placeNeeds (leadWords i) 0 i.needs

/-- The words of the operands with requirements. -/
def needWords (i : Instr) : Nat := leadWords i + opdWords (i.needs.map (·.1))

/-- Operands passed to a function. -/
def Instr.passUses (i : Instr) : List (Nat × Opd) := placeOpds (needWords i) i.passes

def Instr.targetUses (i : Instr) : List TgtUse :=
  match i with
  | .switch o => TgtUse.of o.v.words o.dflt :: placeCases (o.v.words + o.dflt.words) o.cases
  | _ => placeTargets (needWords i) i.targets

/-- Every operand of an instruction with its word. -/
def Instr.allOpds (i : Instr) : List (Nat × Opd) :=
  (Instr.uses i).map (fun u => (u.word, u.opd)) ++ Instr.passUses i ++ (Instr.targetUses i).flatMap (·.args)

def Opd.num : Opd → Option Nat
  | .val n => some n.toNat
  | _ => none

/-- The value numbers that an instruction uses. -/
def Instr.vals (i : Instr) : List Nat := (Instr.allOpds i).filterMap fun p => Opd.num p.2

def isTerm : Instr → Bool
  | .br _ | .brc _ | .brU _ | .switch _ | .ret _ | .exit | .yield _ => true
  | _ => false

/-! ## Blocks -/

/-- A function body: its items, and the index of each block's marker. -/
structure Body where
  items : List VItem
  marks : List Nat
  deriving DecidableEq, Repr

def Body.of (ws : List Word) (fn : Nat) : Body :=
  let its := vitems ws fn
  { items := its, marks := (its.zipIdx).filterMap fun p => p.1.blk.map fun _ => p.2 }

def Body.item (b : Body) (i : Nat) : Option VItem := b.items[i]?
def Body.ins (b : Body) (i : Nat) : Option Instr := (b.item i).bind (·.ins)

/-- The block that item `i` belongs to. -/
def Body.blockAt (b : Body) (i : Nat) : Nat := (b.marks.filter (· ≤ i)).length - 1

/-- The item indices of a block's instructions. -/
def Body.inside (b : Body) (blk : Nat) : List Nat :=
  match b.marks[blk]? with
  | none => []
  | some m =>
    let e := b.marks.getD (blk + 1) b.items.length
    (List.range (e - (m + 1))).map (m + 1 + ·)

/-- The successors of a block: the targets of its instructions. -/
def Body.succ (b : Body) (blk : Nat) : List Nat :=
  (b.inside blk).flatMap fun i => match b.ins i with
    | some x => (Instr.targets x).map fun t => t.blk.toNat
    | none => ((b.item i).map (·.tgts)).getD []

def Body.blocks (b : Body) : List Nat := List.range b.marks.length

/-- Everything that a set reaches through a successor function. -/
def reachSet (succ : Nat → List Nat) : (fuel : Nat) → (work seen : List Nat) → List Nat
  | 0, _, seen => seen
  | _ + 1, [], seen => seen
  | n + 1, x :: work, seen =>
    if seen.contains x then reachSet succ n work seen
    else reachSet succ n (succ x ++ work) (x :: seen)

def Body.reach (b : Body) (from_ : List Nat) : List Nat :=
  let edges := (b.blocks.map fun k => (b.succ k).length).sum
  reachSet b.succ (edges + from_.length + b.marks.length + 1) from_ []

/-- The blocks that block 0 reaches without passing block `d`; a block outside it that 0 does reach is
dominated by `d`. -/
def Body.avoid (b : Body) (d : Nat) : List Nat :=
  let succ (x : Nat) : List Nat := (b.succ x).filter (· != d)
  let edges := (b.blocks.map fun k => (b.succ k).length).sum
  if d = 0 then [] else reachSet succ (edges + b.marks.length + 2) [0] []

/-- Whether block `d` dominates block `x`. -/
def Body.dom (b : Body) (d x : Nat) : Bool := d == x || !(b.avoid d).contains x

/-- Whether item `i` dominates item `j` and precedes it. -/
def Body.before (b : Body) (i j : Nat) : Bool :=
  let bi := b.blockAt i
  let bj := b.blockAt j
  if bi = bj then decide (i < j) else b.dom bi bj

/-- The item that defines a value. -/
def Body.defOf (b : Body) (v : Nat) : Option Nat :=
  (b.items.zipIdx).findSome? fun p =>
    if p.1.val ≤ v ∧ v < p.1.val + p.1.types.length then some p.2 else none

def Body.valTypes (b : Body) : List VTy := b.items.flatMap (·.types)

/-! ## Liveness -/

/-- Values that an item uses and defines. -/
def VItem.uses (it : VItem) : List Nat :=
  match it.ins with
  | some i => Instr.vals i
  | none => []
def VItem.defs (it : VItem) : List Nat := (List.range it.types.length).map (it.val + ·)

/-- Live before an item, from what is live after it. -/
def VItem.liveIn (it : VItem) (out : List Nat) : List Nat :=
  (it.uses ++ out.filter fun v => !it.defs.contains v).eraseDups

/-- Live at the start of a block's instructions, from what is live at its end. -/
def Body.liveThrough (b : Body) (blk : Nat) (out : List Nat) : List Nat :=
  (b.inside blk).reverse.foldl (fun l i => match b.item i with
    | some it => it.liveIn l
    | none => l) out

/-- What a table gives a block at its start, its arguments taken away. -/
def Body.liveOut (b : Body) (tab : List (List Nat)) (blk : Nat) : List Nat :=
  ((b.succ blk).flatMap fun k =>
    let args := match b.marks[k]? with
      | some m => match b.item m with
        | some it => it.defs
        | none => []
      | none => []
    (tab.getD k []).filter fun v => !args.contains v).eraseDups

def Body.liveRound (b : Body) (tab : List (List Nat)) : List (List Nat) :=
  b.blocks.map fun k => b.liveThrough k (b.liveOut tab k)

def Body.liveIter (b : Body) : (fuel : Nat) → List (List Nat) → List (List Nat)
  | 0, t => t
  | n + 1, t =>
    let t' := b.liveRound t
    if (t'.map (·.length)) == (t.map (·.length)) then t' else b.liveIter n t'

/-- The values live at the start of each block's instructions. -/
def Body.liveTab (b : Body) : List (List Nat) :=
  b.liveIter (b.valTypes.length * b.marks.length + 2) (b.blocks.map fun _ => [])

/-- The values live before and after an item. -/
def Body.liveAt (b : Body) (tab : List (List Nat)) (i : Nat) : List Nat × List Nat :=
  let blk := b.blockAt i
  let after := (b.inside blk).filter fun j => decide (i < j)
  let out := after.reverse.foldl (fun l j => match b.item j with
    | some it => it.liveIn l
    | none => l) (b.liveOut tab blk)
  match b.item i with
  | some it => (if it.blk.isSome then out else it.liveIn out, out)
  | none => (out, out)

/-! ## Paths between items -/

/-- The items that may run right after item `i`. -/
def Body.next (b : Body) (i : Nat) : List Nat :=
  match b.ins i with
  | some x =>
    if isTerm x then (Instr.targets x).filterMap fun t => b.marks[t.blk.toNat]?
    else if i + 1 < b.items.length then [i + 1] else []
  | none =>
    if (b.item i).any fun it => termCode it.opc then ((b.item i).map (·.tgts)).getD [] |>.filterMap fun k => b.marks[k]?
    else if i + 1 < b.items.length then [i + 1] else []

/-- The items on paths from just after item `i` that pass none of the items that `stop` names; those
where a path stops are among them. -/
def Body.pathsFrom (b : Body) (i : Nat) (stop : Nat → Bool) : List Nat :=
  let succ (x : Nat) : List Nat := if stop x then [] else b.next x
  let edges := ((List.range b.items.length).map fun k => (b.next k).length).sum
  reachSet succ (2 * edges + b.items.length + 2) (b.next i) []

/-! ## Mandatory drain points (R281) -/

def isHerd : Instr → Bool
  | .herd _ | .herdAdd _ | .herdMin _ | .herdMax _ | .herdOr _ => true
  | _ => false

/-- The word offsets, in a function of a unit, of the mandatory drain points: every block that a later block
targets, what follows each operation that waits, and the entry of the unit's own function. -/
def mandatory (ws : List Word) (fn : Nat) (own : Bool) : List Nat :=
  let b := Body.of ws fn
  let at_ (i : Nat) : List Nat := match b.item i with
    | some it => [it.off]
    | none => []
  let heads := b.blocks.filter fun k =>
    (own && k == 0) || b.blocks.any fun j => decide (k < j) && (b.succ j).contains k
  let waits := (List.range b.items.length).filter fun i => match b.ins i with
    | some (.waitAny _) | some (.waitAll _) | some (.barWait _ _) | some (.barSync _) | some (.mwait _)
    | some (.feLd _) | some (.feSt _) => true
    | some x => isHerd x
    | none => false
  heads.flatMap (fun k => match b.marks[k]? with
    | some m => at_ m
    | none => []) ++ waits.flatMap fun i => at_ (i + 1)

end Sys2Proof.Machine
end

