-- ==== Sys2Proof/Machine/Lanes.lean ====
section
/-! DEFINITION. The group operations of the Value Form (09_tvf_control_group_helpers.md R211 to R215;
04_number_formats.md R105): every source of every thread is read before any result is written, and
inactive threads take no part. -/

namespace Sys2Proof.Machine

open Sys2Proof

/-- The source thread of thread `t` (R212). -/
def xlaneSrc (m : XMode) (t n : Nat) : Int :=
  match m with
  | .get => n
  | .mix => (Nat.xor t n : Nat)
  | .rise => (t : Int) - n
  | .fall => (t : Int) + n

/-- Value and success of thread `t`, for sources `x` and amounts `n` of every thread. -/
def xlanePick (w : Nat) (act : Mask) (m : XMode) (x : List Lane) (n : Nat → Nat) (t : Nat) : List Lane :=
  let src := xlaneSrc m t (n t)
  if 0 ≤ src ∧ src < w ∧ act.getLsbD src.toNat then [getLane x src.toNat, 1] else [getLane x t, 0]

/-- `xlane` (R212). -/
def execXlane (o : XlaneOp) (s : State) : Out :=
  let x := (List.range s.cur.width).map fun t => opd s o.ty o.x t
  .next (finish s (columns s.cur.width o.nres.toNat
    (xlanePick s.cur.width s.cur.active o.mode x fun t => opdN s .i32 o.n t)))

/-- The active threads whose predicate holds. -/
def pollMask (s : State) (p : Opd) : Mask :=
  maskOf ((actives s).filter fun t => (opd s .i1 p t).getLsbD 0)

def toActives (s : State) (v : Lane) : State := finish s [List.replicate s.cur.width v]

/-- `lanes.any` (R213). -/
def execLanesAny (p : Opd) (s : State) : Out := .next (toActives s (laneB (pollMask s p != 0)))

/-- `lanes.all` (R213). -/
def execLanesAll (p : Opd) (s : State) : Out := .next (toActives s (laneB (pollMask s p == s.cur.active)))

/-- `lanes.mask` (R213). -/
def execLanesMask (p : Opd) (s : State) : Out := .next (toActives s (pollMask s p))

/-- `rdfirst` (R213). -/
def execRdfirst (ty : Ty) (x : Opd) (s : State) : Out := .next (toActives s (opd s ty x (leader s)))

/-- One level of the tree of R105. -/
def treeLevel (f : Nat → Nat → Nat) : List (Option Nat) → List (Option Nat)
  | a :: b :: rest =>
    (match a, b with
     | some x, some y => some (f x y)
     | some x, none => some x
     | none, y => y) :: treeLevel f rest
  | xs => xs

/-- The reduction of `2 ^ depth` leaves. -/
def treeFold (f : Nat → Nat → Nat) : (depth : Nat) → List (Option Nat) → Option Nat
  | 0, xs => xs.headD none
  | n + 1, xs => treeFold f n (treeLevel f xs)

/-- The reduction of the active threads' values. -/
def groupReduce (w : Nat) (act : Mask) (f : Nat → Nat → Nat) (x : Nat → Nat) : Nat :=
  (treeFold f (Nat.log2 w)
    ((List.range w).map fun t => if act.getLsbD t then some (x t) else none)).getD 0

/-- The combines of R214. -/
def addOf (fmt : Word) (ty : Ty) (rnd : Rnd) (a b : Nat) : Nat :=
  if ty.isFloat then fpAdd (fmtOf ty) (arithCtx fmt rnd) a b else aluAdd ty.width a b
def minOf (ty : Ty) (signed : Bool) (a b : Nat) : Nat :=
  if ty.isFloat then fpMin (fmtOf ty) a b
  else if signed then aluMinS ty.width a b else aluMinU ty.width a b
def maxOf (ty : Ty) (signed : Bool) (a b : Nat) : Nat :=
  if ty.isFloat then fpMax (fmtOf ty) a b
  else if signed then aluMaxS ty.width a b else aluMaxU ty.width a b

/-- A value that a reduction may give unchanged: a floating NaN is the canonical one (R91). -/
def canonOf (ty : Ty) (x : Nat) : Nat := if ty.isFloat then fpCanon (fmtOf ty) x else x

def reduceTo (s : State) (ty : Ty) (x : Opd) (f : Nat → Nat → Nat) : State :=
  toActives s (lane (groupReduce s.cur.width s.cur.active f fun t => canonOf ty (opdN s ty x t)))

/-- `grp.add` (R214). -/
def execGrpAdd (o : GrpAddOp) (s : State) : Out := .next (reduceTo s o.ty o.x (addOf s.cur.fmt o.ty o.rnd))

/-- `grp.min` (R214). -/
def execGrpMin (o : GrpMinMaxOp) (s : State) : Out := .next (reduceTo s o.ty o.x (minOf o.ty o.signed))

/-- `grp.max` (R214). -/
def execGrpMax (o : GrpMinMaxOp) (s : State) : Out := .next (reduceTo s o.ty o.x (maxOf o.ty o.signed))

/-- The lower active threads with an equal key, and whether there is none. -/
def conflictPick (act : Mask) (k : Nat → Nat) (t : Nat) : List Lane :=
  let m := maskOf ((List.range t).filter fun i => act.getLsbD i && k i == k t)
  [m, laneB (m == 0)]

/-- `conflict` (R215). -/
def execConflict (o : ConflictOp) (s : State) : Out :=
  .next (finish s (columns s.cur.width o.nres.toNat (conflictPick s.cur.active fun t => opdN s o.ty o.k t)))

end Sys2Proof.Machine
end

