-- ==== Sys2Proof/Machine/Herd.lean ====
section
/-! DEFINITION. HERD: recruitment, claims, iterations, forced release, the join, and the meanings of the
five HERD instructions (09_tvf_control_group_helpers.md R216 to R225; 03 R85). A party to a HERD, the
recruiter's own claims among them, is a group of one thread of its own (R223). -/

namespace Sys2Proof.Machine

open Sys2Proof

/-! ## Combining (R220) -/

/-- The value type and the operation of a reduction: 1 add, 2 min, 3 max, 4 or. -/
def herdCombine (h : Herd) (a b : Lane) : Lane :=
  let w := h.ty.width
  let f := fmtOf h.ty
  let x := a.toNat
  let y := b.toNat
  lane (match h.red with
    | 1 => if h.ty.isFloat then fpAdd f (arithCtx h.fmt h.rnd) x y else aluAdd w x y
    | 2 => if h.ty.isFloat then fpMin f x y else if h.signed then aluMinS w x y else aluMinU w x y
    | 3 => if h.ty.isFloat then fpMax f x y else if h.signed then aluMaxS w x y else aluMaxU w x y
    | 4 => aluOr w x y
    | _ => 0)

/-- The identity of a reduction. -/
def herdIdentity (h : Herd) : Lane :=
  let w := h.ty.width
  let f := fmtOf h.ty
  lane (match h.red with
    | 2 => if h.ty.isFloat then f.ofInf false false else if h.signed then 2 ^ (w - 1) - 1 else 2 ^ w - 1
    | 3 => if h.ty.isFloat then f.ofInf false true else if h.signed then 2 ^ (w - 1) else 0
    | _ => 0)

/-! ## Ranges and claims (R218, R220, R221) -/

/-- Chunks of a range. -/
def Range.chunks (r : Range) : Nat := ((r.hi - r.lo).toNat + r.chunk - 1) / r.chunk

/-- The next claim of a range: a remainder first, then the lowest unclaimed chunk, as chunk, next
iteration and carried partial; none while the range holds a fault. -/
def Range.claim (r : Range) : Option (Nat × Int × Option Lane × Range) :=
  if r.fault.isSome then none
  else
    let low := r.rems.foldl (fun best m => match best with
      | none => some m
      | some b => if m.chunk < b.chunk then some m else some b) (none : Option Rem)
    match low with
    | some m => some (m.chunk, m.next, m.partial_, { r with rems := r.rems.filter fun x => x.chunk != m.chunk })
    | none =>
      if r.next < r.chunks then
        some (r.next, r.lo + ((r.next * r.chunk : Nat) : Int), none, { r with next := r.next + 1 })
      else none

def herdOf (s : State) (u : Nat) : Option Herd :=
  match groupOf s u with
  | some g => g.herd
  | none => none

def rangeOf (h : Herd) (t : Nat) : Option Range := h.ranges.find? fun r => r.thread == t

def modHerd (s : State) (u : Nat) (f : Herd → Herd) : State :=
  modGroup s u fun g => { g with herd := g.herd.map f }

def modParty (s : State) (u : Nat) (f : Party → Party) : State :=
  modGroup s u fun g => { g with party := g.party.map f }

/-- The generator team and group of a group (R108): a task group has its own. -/
def seedIds (g : Group) : BitVec 32 × BitVec 16 :=
  if g.kind == .task then (0xFFFFFFFF, 0xFFFF) else (g.teamIdx.getD 0 0, g.gidx)

/-- Enters the helper function for an iteration (R101, R223): FMT of the HERD, a generator seeded with
the iteration, the iteration index and the captured values of the recruiter. -/
def startIter (s : State) (u : Nat) (i : Int) : State :=
  match groupOf s u with
  | none => s
  | some p =>
    match p.party with
    | none => s
    | some pt =>
      match groupOf s pt.group with
      | none => s
      | some rg =>
        match rg.herd with
        | none => s
        | some h =>
          let args := [lane (lowI 32 i)] :: h.caps.map fun c => [getLane c pt.thread]
          let ids := seedIds rg
          modGroup s u fun g =>
            { g with
              st := .active, active := 1, exited := 0, stack := [], fmt := h.fmt, rq := [],
              gen := genSeed rg.seed ids.1 ids.2 (BitVec.ofNat 32 (lowI 32 i)), wait := none, fe := none,
              frames := [Frame.enter h.fn args 1], unit := h.fn,
              off := blockStart (fnItems (groupWords s g) h.fn) 0,
              native := g.native.map fun n =>
                { Native.start n.tr with
                  v := assocSet 0 [BitVec.ofNat 32 (lowI 32 i)] [], count := n.count },
              party := some { pt with iter := i, begun := false } }

/-- Leaves with the rest of the chunk in hand as a remainder (R221). -/
def leaveWithRest (s : State) (u : Nat) : State :=
  match groupOf s u with
  | none => s
  | some p =>
    match p.party with
    | none => s
    | some pt =>
      let s := match pt.chunk with
        | some c => modHerd s pt.group fun h => modRange h pt.thread fun r =>
            { r with rems := { chunk := c, next := pt.iter, partial_ := pt.partial_ } :: r.rems }
        | none => s
      partyLeave (modParty s u fun pt => { pt with chunk := none }) u

/-- A party claims and starts, idles (a recruiter whose helpers are still out, to which a remainder may
come back), or leaves (R220, R221). -/
def claimNext (s : State) (u : Nat) : State :=
  match groupOf s u with
  | none => s
  | some p =>
    match p.party with
    | none => s
    | some pt =>
      match herdOf s pt.group with
      | none => dropGroup s u
      | some h =>
        match rangeOf h pt.thread with
        | none => dropGroup s u
        | some r =>
          if pt.release then partyLeave s u
          else match r.claim with
            | some (c, i, q, r') =>
              let s := modHerd s pt.group fun h => modRange h pt.thread fun _ => r'
              let stop := min r.hi (r.lo + (((c + 1) * r.chunk : Nat) : Int))
              let s := modParty s u fun pt => { pt with chunk := some c, stop, partial_ := q }
              startIter s u i
            | none =>
              if pt.helper = 0 ∧ 1 < r.out then s
              else partyLeave s u

/-- An iteration of a party has ended with a value (R220 to R222). -/
def iterDone (s : State) (u : Nat) (v : Lane) : State :=
  match groupOf s u with
  | none => s
  | some p =>
    match p.party with
    | none => s
    | some pt =>
      match herdOf s pt.group with
      | none => s
      | some h =>
        match rangeOf h pt.thread, pt.chunk with
        | some r, some c =>
          let q := match pt.partial_ with
            | some a => herdCombine h a v
            | none => if h.red != 0 && h.ty.isFloat then lane (fpCanon (fmtOf h.ty) v.toNat) else v
          if pt.stop ≤ pt.iter + 1 then
            let s := modHerd s pt.group fun h => modRange h pt.thread fun r =>
              { r with partials := assocSet c q r.partials }
            claimNext (modParty s u fun pt => { pt with chunk := none, partial_ := none, begun := false }) u
          else
            let s := modParty s u fun pt =>
              { pt with iter := pt.iter + 1, partial_ := some q, begun := false }
            if pt.release || r.fault.isSome then leaveWithRest s u else startIter s u (pt.iter + 1)
        | _, _ => s

/-! ## Recruitment (R218, R219) -/

/-- Slots already lent to helpers. -/
def lentSlots (s : State) : List (Nat × Nat) :=
  s.others.filterMap fun p => match p.party with
    | some pt => if pt.gone then none else pt.slot
    | none => none

/-- Helper contexts of a core in use. -/
def helperAreas (s : State) (die core : Nat) : List Nat :=
  s.others.filterMap fun p => match p.party with
    | some pt => if pt.helper != 0 && pt.die == die && pt.core == core then some pt.area else none
    | none => none
def helpersOn (s : State) (die core : Nat) : Nat := (helperAreas s die core).length

/-- The lowest helper context of a core that no helper holds. -/
def freeArea (s : State) (die core : Nat) : Nat :=
  let used := helperAreas s die core
  ((List.range (Config.helperContexts die)).find? fun m => !used.contains m).getD 0

/-- Where a recruiter's own run of helper function `fn` spills: the area that its group's translation reserves (R276). -/
def ownSpillOff (s : State) (g : Group) (fn : Nat) : Nat :=
  match g.native with
  | none => g.spillOff
  | some n => match transOf s n.tr with
    | some t => g.spillOff + (assocGet fn t.areas).getD 0
    | none => g.spillOff

/-- Idle slots of a recruiting group: its own, then those of the other groups of its team, oldest
first, each as group and thread. -/
def idleSlots (s : State) (g : Group) : List (Nat × Nat) :=
  let lent := lentSlots s
  let mates := (heldGroups s).filter fun x =>
    x.party.isNone && x.uid != g.uid && g.kind == .team && x.kind == .team && x.team == g.team
  let slots (x : Group) : List (Nat × Nat) :=
    ((List.range x.width).filter fun t => !x.active.getLsbD t || (x.st == .waiting)).map fun t => (x.uid, t)
  ((g :: mates).flatMap slots).filter fun p => !lent.contains p

/-- Slots handed out so far and helpers per recruiter. -/
structure Recruit where
  slots : List (Nat × Nat)
  took : List (Nat × (Nat × Nat))
  used : List (Nat × Nat)
  deriving DecidableEq, Repr

/-- Whether the core of a slot has a helper context left, counting those just handed out. -/
def ctxLeft (s : State) (r : Recruit) (slot : Nat × Nat) : Bool :=
  match groupOf s slot.1 with
  | none => false
  | some x =>
    let now := (r.used.filter fun c => c == (x.die, x.core)).length
    decide (helpersOn s x.die x.core + now < Config.helperContexts x.die)

/-- Hands one slot whose core has a helper context to a recruiter. -/
def recruitOne (s : State) (t : Nat) (r : Recruit) : Recruit :=
  match pick (s.free + r.took.length) (r.slots.filter (ctxLeft s r)) with
  | none => r
  | some slot =>
    let core := match groupOf s slot.1 with
      | some x => (x.die, x.core)
      | none => (0, 0)
    { slots := r.slots.filter (· != slot), took := r.took ++ [(t, slot)], used := core :: r.used }

/-- Round robin over the recruiters, at most 15 rounds. -/
def recruitRounds (s : State) (want : List (Nat × Nat)) : (fuel : Nat) → Recruit → Recruit
  | 0, r => r
  | n + 1, r =>
    let r' := want.foldl (fun r w =>
      if (r.took.filter fun x => x.1 == w.1).length < w.2 then recruitOne s w.1 r else r) r
    recruitRounds s want n r'

/-- REASON of the count word (R219). -/
def herdReason (off : Bool) (k wanted got : Nat) (slotsLeft : Bool) : Nat :=
  if off then 3
  else if got = wanted then (if 15 < k - 1 then 5 else 0)
  else if slotsLeft then 2 else 1

/-- The party of a recruiter thread (helper 0) or of a helper, as a group of its own. -/
def partyGroup (s : State) (g : Group) (t helper : Nat) (slot : Option (Nat × Nat)) (tr : Option Trans) :
    Nat × State :=
  let (u, s) := fresh s
  let host := match slot with
    | some (b, _) => (groupOf s b).getD g
    | none => g
  let m := freeArea s host.die host.core
  let h := match g.herd with
    | some h => h.fn
    | none => 0
  let off := if helper = 0 then ownSpillOff s g h
    else Config.sysArea host.die + 2048 * Config.contextMax host.die + 4096 * m
  let p : Group :=
    { Group.free with
      uid := u, kind := .party, st := .active, die := host.die, core := host.core, slot := g.slot,
      age := u, ctx := g.ctx, launch := g.launch, team := g.team,
      teamIdx := [if g.kind == .task then g.teamIdx.getD t 0 else g.teamIdx.getD 0 0],
      gidx := g.gidx, width := 1, active := 1, seed := g.seed,
      acq := [{ reach := .system, at_ := s.steps, carried := [] }],
      native := (match tr with
        | some x => if x.image.isEmpty then none else some (Native.start x.uid)
        | none => none),
      spillOff := off,
      party := some { group := g.uid, thread := t, helper, slot, area := m, die := host.die, core := host.core,
                      chunk := none, iter := 0, stop := 0, partial_ := none, begun := false,
                      release := false, gone := false } }
  let s := { s with others := s.others ++ [p] }
  (u, if helper = 0 then s else freshArea s host.die host.core off 4096)

/-- What a HERD names: helper function, reduction, and each recruiter's operands. -/
structure HerdArgs where
  helper : Nat
  fn : Nat
  caps : List (List Lane)
  ty : Ty
  red : Nat
  signed : Bool
  rnd : Rnd
  nres : Nat
  lo : Nat → Int
  hi : Nat → Int
  chunk : Nat → Nat

/-- The translation under which the parties of the issuing group's HERD run a helper function (R256). -/
def herdTrans (s : State) (fn : Nat) : Option Trans :=
  (launchOf s s.cur.launch).bind fun l => unitTrans s l s.cur.die s.cur.core fn none

/-- Whether the cluster's cache can hold the helper translation of a HERD, which else waits (R260,
notes/assumptions/71.md). -/
def herdRoom (s : State) (helper : Nat) : Bool :=
  (herdTrans s (helperEntry (groupWords s s.cur) helper).1).all fun t =>
    (ensureCached s s.cur.die (s.cur.core / 16) s.cur.ctx t).isSome

/-- The issue of a HERD by the issuing group (R85, R218): release, recruitment, and every party's
first claim. -/
def herdIssue (s : State) (a : HerdArgs) (dst : Nat) (native : Bool) : State :=
  let s := drainQ s
  let g := s.cur
  let off := (launchOf s g.launch).all fun l => !(kernelIn l).helpers || l.body.helpersOff
  let tr := herdTrans s a.fn
  let s := match tr with
    | some t => (ensureCached s g.die (g.core / 16) g.ctx t).getD s
    | none => s
  let mk (t : Nat) : Range :=
    { thread := t, lo := a.lo t, hi := a.hi t, chunk := max 1 (min (a.chunk t) 65536), next := 0,
      partials := [], rems := [], fault := none, helpers := 0, reason := 0, out := 0 }
  let ranges := (threadsOf g.active g.width).map mk
  let want := if off then [] else ranges.map fun r => (r.thread, min 15 (r.chunks - 1))
  let rec_ := recruitRounds s want 15 { slots := idleSlots s g, took := [], used := [] }
  let ranges := ranges.map fun r =>
    let got := (rec_.took.filter fun x => x.1 == r.thread).length
    { r with helpers := got, out := if r.chunks = 0 then 0 else got + 1,
             reason := herdReason off r.chunks (min 15 (r.chunks - 1)) got (!rec_.slots.isEmpty) }
  let s := { s with free := s.free + rec_.took.length }
  let h : Herd :=
    { helper := a.helper, fn := a.fn, caps := a.caps, ty := a.ty, red := a.red, signed := a.signed,
      rnd := a.rnd, nres := a.nres, fmt := g.fmt, ranges, dst, native, cmds := [], phase := if native then 0 else 2 }
  let c := carryNow s g (groupReach s g 2)
  let s := setCur s fun g => { g with herd := some h }
  let begin_ (s : State) (t helper : Nat) (slot : Option (Nat × Nat)) : State :=
    let (u, s) := partyGroup s g t helper slot tr
    let s := match groupOf s u with
      | some p => applyCarries s [c] (.one (coreObs p))
      | none => s
    claimNext s u
  let s := (ranges.filter fun r => r.chunks != 0).foldl (fun s r => begin_ s r.thread 0 none) s
  let step (acc : State × List (Nat × Nat)) (x : Nat × (Nat × Nat)) : State × List (Nat × Nat) :=
    let n := (assocGet x.1 acc.2).getD 0 + 1
    (begin_ acc.1 x.1 n (some x.2), assocSet x.1 n acc.2)
  (rec_.took.foldl step (s, [])).1

/-! ## The join (R85, R219, R220, R222) -/

/-- Whether every party of a HERD has left. -/
def herdQuiet (h : Herd) : Bool := h.ranges.all fun r => r.out == 0

/-- The reduction of a range in chunk order. -/
def herdResult (h : Herd) (r : Range) : Lane :=
  match r.partials.map (·.2) with
  | [] => herdIdentity h
  | p :: ps => ps.foldl (herdCombine h) p

def countWord (r : Range) : Lane := lane (r.helpers + 256 * r.reason)

/-- The fault that the group traps with: of the lowest recruiter thread. -/
def herdFault (h : Herd) : Option (Nat × HerdFault) :=
  h.ranges.findSome? fun r => r.fault.map fun f => (r.thread, f)

/-- The results of the join for thread `t`: reduction, then count word; the count word alone for the
plain form. -/
def herdLanes (h : Herd) (t : Nat) : List Lane :=
  match rangeOf h t with
  | some r => if h.red = 0 then [countWord r] else [herdResult h r, countWord r]
  | none => []

/-- The join of the issuing group's HERD: the writes of the parties' released commands are visible to its core, and it
acquires (R85). -/
def herdJoinCur (s : State) (h : Herd) : State :=
  let s := setMem s fun m => m.mark (fun st => h.cmds.contains st.grp) (.one (coreObs s.cur)) s.steps
  let s := acquireOn s (groupReach s s.cur 2) []
  let s := setCur s fun g => { g with herd := none }
  match herdFault h with
  | some (t, f) =>
    haltGroup s s.cur.uid { stop := f.trap.stop.1, code := f.trap.stop.2, ppc := f.ppc, helper := true,
                            helperIter := f.iter, recruiter := t }
  | none =>
    if h.native then
      let two := wideTy h.ty
      setCur s fun g =>
        let m := maskOf (h.ranges.map (·.thread))
        let red := (List.range g.width).map fun t => (herdLanes { h with red := max h.red 1 } t).headD 0
        let cnt := (List.range g.width).map fun t => (herdLanes { h with red := 0 } t).headD 0
        let g := if h.red = 0 then g else vset g 0 0 two m red
        vset g 0 2 false m cnt
    else finish s (columns s.cur.width h.nres (herdLanes h))

/-! ## Meanings -/

def herdWith (o : HerdOp) (red : Nat) (s : State) : State :=
  let (fn, _) := helperEntry (groupWords s s.cur) o.h.toNat
  let tys := ((fnParams (groupWords s s.cur) fn).drop 1).map (·.1)
  let caps := (o.caps.zipIdx).map fun p =>
    (List.range s.cur.width).map fun t => opd s (tys.getD p.2 .i32) p.1 t
  herdIssue s { helper := o.h.toNat, fn, caps, ty := o.ty, red, signed := o.signed, rnd := o.rnd,
                nres := o.nres.toNat, lo := fun t => sgn 32 (opdN s .i32 o.lo t),
                hi := fun t => sgn 32 (opdN s .i32 o.hi t), chunk := fun t => opdN s .i32 o.chunk t }
    (hereVal s) false

/-- `herd` (R218). -/
def execHerd (o : HerdOp) (s : State) : Out := .next (herdWith o 0 s)

/-- `herd.add` (R218, R220). -/
def execHerdAdd (o : HerdOp) (s : State) : Out := .next (herdWith o 1 s)

/-- `herd.min` (R218, R220). -/
def execHerdMin (o : HerdOp) (s : State) : Out := .next (herdWith o 2 s)

/-- `herd.max` (R218, R220). -/
def execHerdMax (o : HerdOp) (s : State) : Out := .next (herdWith o 3 s)

/-- `herd.or` (R218, R220). -/
def execHerdOr (o : HerdOp) (s : State) : Out := .next (herdWith o 4 s)

/-- HERD_JOIN (R85, R220, R222): once every party of the group's HERD has left. -/
def execHerdJoin (g : Nat) (s : State) : Out :=
  .next (asCur s g fun s => match s.cur.herd with
    | some h => if h.phase = 2 ∧ herdQuiet h ∧ s.cur.st = .active then herdJoinCur s h else s
    | none => s)

end Sys2Proof.Machine
end

