-- ==== Sys2Proof/Machine/Sync.lean ====
section
/-! DEFINITION. Fences and team barriers (07_tvf_memory_sync.md R179 to R182; 03 R72 to R74, R77) with
the records of the barrier checker (17_debug_profile.md R348, R354). -/

namespace Sys2Proof.Machine

open Sys2Proof

/-- `fence` (R179). -/
def execFence (o : FenceOp) (s : State) : Out :=
  let r := groupReach s s.cur o.scope.toNat
  .next (advance (match o.order with
    | .relaxed => s
    | .acquire => acquireAt s r
    | .release => releaseAt s r
    | .acqRel => releaseAt (acquireAt s r) r
    | .seqCst => scFence s r))

/-! ## Barrier checker (R348) -/

def ppcNat (p : Nat × Nat) : Nat := p.1 * 2 ^ 24 + p.2

/-- A record of the barrier checker; none for a confidential context (R354). -/
def barrierRecord (s : State) (g : Group) (mask : Mask) (kind b phase : Nat) : State :=
  match ctxOf s g.ctx with
  | some c =>
    if c.debugCtl.getLsbD 1 && !c.confidential then
      ctxRing s g.ctx 0 c.barrierRing c.barrierLog2 32 fun _ =>
        natBytes 32 (recNat [(mask.toNat, 192), (s.tick, 128), (ppcNat (ppcOf g), 88), (groupNo g, 72),
          (teamNo g, 40), (b, 35), (kind, 32), (phase, 0)])
    else s
  | none => s

/-! ## Phases (R181) -/

def barrierOf (t : Team) (b : Nat) : Barrier := t.bars.getD b { done := 0, arr := [], carries := [] }
def setBarrier (t : Team) (b : Nat) (f : Barrier → Barrier) : Team :=
  { t with bars := (t.bars.zipIdx).map fun p => if p.2 = b then f p.1 else p.1 }

/-- A_g − C, modulo 2^32. -/
def Barrier.ahead (x : Barrier) (g : Nat) : Nat := (x.arr.getD g 0 - x.done).toNat

/-- Whether phase C is complete: every group has ended or has arrived. -/
def Barrier.ready (x : Barrier) (ended : List Bool) : Bool :=
  (ended.zipIdx).all fun p => p.1 || decide (1 ≤ x.ahead p.2 ∧ x.ahead p.2 ≤ 2 ^ 31)

/-- C counts every phase that is complete; a group is at most two ahead. -/
def Barrier.settle (x : Barrier) (ended : List Bool) : (fuel : Nat) → Barrier
  | 0 => x
  | n + 1 => if x.ready ended then ({ x with done := x.done + 1 } : Barrier).settle ended n else x

def settleTeam (t : Team) : Team :=
  if t.ended.all (· == true) then t
  else { t with bars := t.bars.map fun b => b.settle t.ended 3 }

/-- Whether phase `p` has completed. -/
def phaseDone (t : Team) (b : Nat) (p : Word) : Bool :=
  decide (((barrierOf t b).done - p - 1).toNat < 2 ^ 31)

/-- The release of an arrival: it leaves out the writes of commands whose tokens the group has not observed (R77). -/
def arrivalCarry (s : State) (g : Group) : Carry :=
  { carryNow s g (groupReach s g 2) with skip := g.unseen.map (·.1) }

/-- The arrival of a group: its phase is joined, and its release carried (R77). -/
def arriveAt (s : State) (g : Group) (b : Nat) : State :=
  let c := arrivalCarry s g
  modTeam s g.team fun t => settleTeam (setBarrier t b fun x =>
    { x with arr := x.arr.set g.gidx.toNat (x.arr.getD g.gidx.toNat 0 + 1),
             carries := x.carries ++ [(x.arr.getD g.gidx.toNat 0, c)] })

/-- The phase that the group's next arrival joins, and whether it is already two ahead. -/
def nextPhase (s : State) (g : Group) (b : Nat) : Word × Bool :=
  match teamOf s g.team with
  | some t =>
    let x := barrierOf t b
    (x.arr.getD g.gidx.toNat 0, decide (2 ≤ x.ahead g.gidx.toNat))
  | none => (0, false)

/-- The acquire of a completed wait for phase `p`: all that the arrivals of that phase and of earlier
ones carry is visible to the group's core (R77). -/
def barrierAcquire (s : State) (b : Nat) (p : Word) : State :=
  let cs := match teamOf s s.cur.team with
    | some t => ((barrierOf t b).carries.filter fun c => decide ((p - c.1).toNat < 2 ^ 31)).map (·.2)
    | none => []
  let r := groupReach s s.cur 2
  setCur (applyCarries s cs (.one (coreObs s.cur))) fun g => g.acquire r s.steps cs

/-- The group waits, keeping its place at the instruction (R23, R43). -/
def waitOn (s : State) (conds : List CondV) (dst : WaitDst) : State :=
  setCur s fun g => { g with
    st := .waiting, since := s.cycle,
    wait := some { conds, all := true, deadline := none, dst, parked := [] } }

/-- Whether a thread that has not exited is outside the active mask. -/
def divergent (g : Group) : Bool := (fullMask g.width &&& ~~~g.exited &&& ~~~g.active) != 0

def noteArrival (s : State) (b : Nat) (phase : Word) : State :=
  if divergent s.cur then barrierRecord s s.cur s.cur.active 1 b phase.toNat else s

/-- Whether the group has no barriers (R35, R182). -/
def noBarriers (g : Group) : Bool := g.kind == .spawned || g.kind == .task

/-- Waits for phase `p` of a barrier, or goes on at once (R181). -/
def awaitPhase (s : State) (b : Nat) (p : Word) : State :=
  match teamOf s s.cur.team with
  | some t => if phaseDone t b p then advance (barrierAcquire s b p) else waitOn s [.barrier b p] .nothing
  | none => advance s

/-- `bar.arrive` (R181, R182). -/
def execBarArrive (nres : BitVec 2) (b : BitVec 30) (s : State) : Out :=
  if noBarriers s.cur then .next (raise s .barrierScope)
  else
    let (p, two) := nextPhase s s.cur b.toNat
    let s := noteArrival s b.toNat p
    if two then .next (waitOn s [.barrier b.toNat (p - 2)] (.arrive b.toNat none))
    else .next (finishU (arriveAt s s.cur b.toNat) ([lane p.toNat].take nres.toNat))

/-- `bar.wait` (R181, R182). -/
def execBarWait (b : BitVec 30) (phase : Opd) (s : State) : Out :=
  if noBarriers s.cur then .next (raise s .barrierScope)
  else .next (awaitPhase s b.toNat (loWord (opd s .i32 phase (leader s))))

/-- `bar.sync` (R181, R182). -/
def execBarSync (b : BitVec 30) (s : State) : Out :=
  if noBarriers s.cur then .next (raise s .barrierScope)
  else
    let (p, two) := nextPhase s s.cur b.toNat
    let s := noteArrival s b.toNat p
    if two then .next (waitOn s [.barrier b.toNat (p - 2)] (.sync b.toNat))
    else .next (awaitPhase (arriveAt s s.cur b.toNat) b.toNat p)

/-! ## A group that ends (R77, R181, R348) -/

/-- The phases on which another group of the team waits and which the group has not joined. -/
def unjoined (s : State) (g : Group) : List (Nat × Word) :=
  match teamOf s g.team with
  | none => []
  | some t =>
    ((heldGroups s).filter fun x => x.kind == .team && x.team == g.team && x.uid != g.uid).flatMap fun x =>
      match x.wait with
      | some w => w.conds.filterMap fun c => match c with
          | .barrier b p =>
            if decide ((p - (barrierOf t b).arr.getD g.gidx.toNat 0).toNat < 2 ^ 31) then some (b, p) else none
          | _ => none
      | none => []

/-- Counts the issuing group as ended for its team's barriers; its exit performs the release. -/
def endBarriers (s : State) (mask : Mask) : State :=
  let g := s.cur
  if g.kind != .team then s
  else
    let s := (unjoined s g).eraseDups.foldl (fun s p => barrierRecord s g mask 2 p.1 p.2.toNat) s
    let c := arrivalCarry s g
    modTeam s g.team fun t =>
      let t := { t with
        ended := t.ended.set g.gidx.toNat true,
        bars := t.bars.map fun b => { b with carries := b.carries ++ [(b.done, c)] } }
      settleTeam t

end Sys2Proof.Machine
end

