-- ==== Sys2Proof/Machine/Control.lean ====
section
/-! DEFINITION. Branches, reconvergence, calls, returns, exits and the creation of work
(09_tvf_control_group_helpers.md R202 to R210; 01_execution_model.md R28 to R36; 03 R83, R84). -/

namespace Sys2Proof.Machine

open Sys2Proof

/-! ## Reconvergence (R29 to R31) -/

/-- The threads of a mask that still run in the top frame: neither exited nor returned. -/
def liveIn (g : Group) (m : Mask) : Mask :=
  match g.frames with
  | f :: _ => m &&& ~~~g.exited &&& ~~~f.retMask
  | [] => m &&& ~~~g.exited

def topItems (ws : List Word) (g : Group) : List Item :=
  match g.frames with
  | f :: _ => fnItems ws f.fn
  | [] => []

/-- Results of a call, handed to the caller's frame for the threads that returned (R206). -/
def deliverRets (g : Group) (dst : Nat) (m : Mask) (rets : List (List Lane)) : Group := setVals g m dst rets

/-- The running path of a group has ended: at its reconvergence point, or with no thread left in it.
The deferred paths of the top entry run in turn; then the entry is popped, restoring mask and FMT; when
a function's paths have all ended, its caller goes on; when nothing is left, the group has ended. -/
def pathEnd (ws : List Word) : (fuel : Nat) → Group → Group
  | 0, g => g
  | n + 1, g =>
    match g.frames with
    | [] => { g with active := 0 }
    | f :: callers =>
      match (if f.base < g.stack.length then g.stack else []) with
      | e :: rest =>
        match e.todo with
        | (m, off) :: todo =>
          let g := { g with stack := { e with todo } :: rest }
          let m := liveIn g m
          if m = 0 then pathEnd ws n g
          else
            let g := { g with active := m, off, fmt := e.fmt }
            match e.rpc with
            | some b => if off = blockStart (topItems ws g) b then pathEnd ws n g else g
            | none => g
        | [] =>
          let g := { g with active := liveIn g e.full, fmt := e.fmt, stack := rest }
          match e.rpc with
          | none => pathEnd ws n g
          | some b =>
            let g := { g with off := blockStart (topItems ws g) b }
            if g.active = 0 then pathEnd ws n g
            else match rest with
              | e' :: _ => if f.base < rest.length ∧ e'.rpc = some b then pathEnd ws n g else g
              | [] => g
      | [] =>
        match callers with
        | [] => { g with active := 0 }
        | c :: cs =>
          let back := f.callMask &&& ~~~g.exited
          let g := { g with frames := c :: cs, active := back, off := f.retOff }
          let g := deliverRets g f.dst (back &&& f.retMask) f.rets
          if back = 0 then pathEnd ws n g else g

/-- Steps enough for any group. -/
def pathFuel (g : Group) : Nat :=
  g.frames.length + (g.stack.map fun e => e.todo.length + 1).sum + 1

def endPath (s : State) : State :=
  let ws := groupWords s s.cur
  setCur s fun g => pathEnd ws (pathFuel g) g

/-- The active threads stand at the start of a block: the path goes on there, or ends when the block
is its reconvergence point. -/
def enterBlock (s : State) (b : Nat) : State :=
  let ws := groupWords s s.cur
  setCur s fun g =>
    let g := { g with off := blockStart (topItems ws g) b }
    match g.frames, g.stack with
    | f :: _, e :: _ => if f.base < g.stack.length ∧ e.rpc = some b then pathEnd ws (pathFuel g) g else g
    | _, _ => g

/-! ## Block arguments (R132, R203) -/

def tileVal (g : Group) (o : Opd) : Option Tile :=
  match o, g.frames with
  | .val n, f :: _ => assocGet n.toNat f.tiles
  | _, _ => none

/-- Every operand after a target, evaluated for every thread before any thread moves. -/
def argVals (s : State) (its : List Item) (t : Target) : List ArgV :=
  match blockItem its t.blk.toNat with
  | some it =>
    ((it.types (groupWords s s.cur)).zip t.args).map fun p =>
      if p.1.1 = .tile then .tile (tileVal s.cur p.2)
      else .lanes ((List.range s.cur.width).map fun i => opd s p.1.1 p.2 i)
  | none => []

def setTile (g : Group) (n : Nat) (t : Tile) : Group :=
  setFrame g fun f => { f with tiles := assocSet n t f.tiles }

/-- Gives the threads of a mask their arguments. -/
def putArgs (g : Group) (m : Mask) : (n : Nat) → List ArgV → Group
  | _, [] => g
  | n, .lanes xs :: rest => putArgs (setVal g n m xs) m (n + 1) rest
  | n, .tile (some t) :: rest => putArgs (setTile g n t) m (n + 1) rest
  | n, .tile none :: rest => putArgs g m (n + 1) rest

def blockVal (its : List Item) (b : Nat) : Nat :=
  match blockItem its b with
  | some it => it.val
  | none => 0

/-- Gives the threads that take each position their arguments. -/
def passAll (s : State) (parts : List (Mask × Target)) : State :=
  let its := topItems (groupWords s s.cur) s.cur
  let vals := parts.map fun p => (p.1, blockVal its p.2.blk.toNat, argVals s its p.2)
  setCur s fun g => vals.foldl (fun g v => putArgs g v.1 v.2.1 v.2.2) g

/-! ## Branches (R203 to R205) -/

/-- The threads of each target block, in the order given. -/
def byBlock (parts : List (Mask × Target)) : List (Nat × Mask) :=
  parts.foldl (fun acc p =>
    let b := p.2.blk.toNat
    if acc.any (fun x => x.1 == b) then acc.map fun x => if x.1 = b then (b, x.2 ||| p.1) else x
    else acc ++ [(b, p.1)]) []

/-- Moves the active threads: the positions in the order in which their blocks run. -/
def branchTo (s : State) (parts : List (Mask × Target)) : State :=
  let parts := parts.filter fun p => p.1 != 0
  match byBlock parts with
  | [] => s
  | (b, _) :: [] => enterBlock (passAll s parts) b
  | (b, m) :: rest =>
    if 160 ≤ s.cur.stack.length then raise s .divergenceDepth
    else
      let its := topItems (groupWords s s.cur) s.cur
      let e : StackEnt := { full := s.cur.active, todo := rest.map fun x => (x.2, blockStart its x.1),
                            rpc := ipdom its (blockOf its s.cur.off 0), fmt := s.cur.fmt }
      let s := passAll s parts
      enterBlock (setCur s fun g => { g with stack := e :: g.stack, active := m }) b

/-- The active threads whose i1 operand is 1. -/
def trueMask (s : State) (c : Opd) : Mask :=
  maskOf ((actives s).filter fun t => (opd s .i1 c t).getLsbD 0)

/-- `br` (R203). -/
def execBr (t : Target) (s : State) : Out := .next (branchTo s [(s.cur.active, t)])

/-- `brc` (R203). -/
def execBrc (o : BrcOp) (s : State) : Out :=
  let m := trueMask s o.c
  .next (branchTo s [(m, o.t), (s.cur.active &&& ~~~m, o.f)])

/-- `br.u` (R204). -/
def execBrU (o : BrcOp) (s : State) : Out :=
  let m := trueMask s o.c
  if m = 0 then .next (branchTo s [(s.cur.active, o.f)])
  else if m = s.cur.active then .next (branchTo s [(s.cur.active, o.t)])
  else .next (raise s .uniformity)

/-- A case value as i32. -/
def caseWord (v : BitVec 30) : Word := v.signExtend 32

/-- `switch` (R205): positions in ascending signed case value, the default last. -/
def execSwitch (o : SwitchOp) (s : State) : Out :=
  let val (t : Nat) : Word := loWord (opd s .i32 o.v t)
  let hit (v : BitVec 30) : Mask := maskOf ((actives s).filter fun t => val t == caseWord v)
  let sorted := sortBy (fun a b => decide (a.1.toInt ≤ b.1.toInt)) o.cases
  let parts := sorted.map fun c => (hit c.1, c.2)
  let taken := parts.foldl (fun m p => m ||| p.1) 0
  .next (branchTo s (parts ++ [(s.cur.active &&& ~~~taken, o.dflt)]))

/-! ## Triggers and exits (R28, R84, R207, R210) -/

/-- Triggers for the threads `m` of a team's group, with the release that the trigger performs; one by threads that have
all triggered before performs its release and nothing else (R84, R210). -/
def triggerFor (s : State) (m : Mask) : State :=
  let g := s.cur
  let c := carryNow s g .package
  let new := if g.kind == .team then m &&& ~~~g.trig else 0
  let s := setCur s fun g => { g with trig := g.trig ||| new, carry := addCarry c g.carry }
  if new != 0 then
    modLaunch s g.launch fun l =>
      { l with trigs := l.trigs + (threadsOf new 64).length, releases := c :: l.releases }
  else s

def triggerNow (s : State) : State := triggerFor s s.cur.active

/-- `dep.trigger` (R210). -/
def execDepTrigger (s : State) : Out := .next (advance (triggerNow s))

/-- What an exit of the threads `m` performs: the triggers of those that have not triggered (R84), and, with the group's
last thread, its arrivals at barriers (R77). -/
def exitReleases (s : State) (m : Mask) (all : Bool) : State :=
  let s := if s.cur.kind == .team && m &&& ~~~s.cur.trig != 0 then triggerFor s m else s
  if all then endBarriers s m else s

/-- Ends the active threads (R28). An exit of the last threads that an errored token may still trap performs its releases
with the group's end, once no such token is left (R88, R200). -/
def endThreads (s : State) : State :=
  let m := s.cur.active
  let all := (s.cur.exited ||| m) == fullMask s.cur.width
  let due := all && (!(cmdsBy s s.cur.uid).isEmpty || !(tokErrs s.cur).isEmpty)
  let s := if due then s else exitReleases s m all
  let s := setCur s fun g => { g with exited := g.exited ||| m, lastExit := m, exitDue := due }
  if all then setCur s fun g => { g with active := 0 } else s

/-- `exit` (R207, R223). -/
def execExit (s : State) : Out :=
  match s.cur.party with
  | some _ => .next (raise s .helperExit)
  | none =>
    let s := endThreads s
    .next (if s.cur.active = 0 then s else endPath (setCur s fun g => { g with active := 0 }))

/-! ## Calls and returns (R206) -/

/-- `call` (R206). -/
def execCall (o : CallOp) (s : State) : Out :=
  let ws := groupWords s s.cur
  let tys := (fnParams ws o.fn.toNat).map (·.1)
  let args := (o.args.zipIdx).map fun p =>
    (List.range s.cur.width).map fun t => opd s (tys.getD p.2 .i32) p.1 t
  let f : Frame := { Frame.enter o.fn.toNat args s.cur.active with
                     base := s.cur.stack.length, retOff := s.cur.off + hereLen s,
                     dst := hereVal s, nres := o.nres.toNat }
  .next (setCur s fun g => { g with frames := f :: g.frames, off := blockStart (fnItems ws o.fn.toNat) 0 })

/-- The values of a `ret` for every thread. -/
def retLanes (s : State) (args : List Opd) (rets : List Ty) : List (List Lane) :=
  (args.zipIdx).map fun p => (List.range s.cur.width).map fun t => opd s (rets.getD p.2 .i32) p.1 t

/-- `ret` (R206): to the caller, at the end of a helper iteration, or as `exit`. -/
def execRet (args : List Opd) (s : State) : Out :=
  match s.cur.frames with
  | [] => .next s
  | f :: callers =>
    let vs := retLanes s args (fnInfo (groupWords s s.cur) f.fn).rets
    match callers with
    | [] =>
      match s.cur.party with
      | some _ => .next (iterDone s s.cur.uid ((vs.headD []).headD 0))
      | none =>
        let s := endThreads s
        .next (if s.cur.active = 0 then s else endPath (setCur s fun g => { g with active := 0 }))
    | _ :: _ =>
      let m := s.cur.active
      let w := s.cur.width
      let keep := (List.range vs.length).map fun j => mergeLanes w m (vs.getD j []) (f.rets.getD j [])
      let s := setCur s fun g =>
        { setFrame g (fun f => { f with retMask := f.retMask ||| m, rets := keep }) with active := 0 }
      .next (endPath s)

/-! ## Spawn and tasks (R34 to R36, R83, R208, R209) -/

/-- Creates a detached group beside the issuing one: the status of R34. The detached groups of one task group share its
first thread's team index (R16, R108; DESIGN CHOICE, notes/assumptions/69.md). -/
def spawnGroup (s : State) (unit : Nat) (args : List Lane) : Nat × State :=
  let s := drainQ s
  let g := s.cur
  match launchOf s g.launch with
  | none => (1, s)
  | some l =>
    if !(kernelIn l).coop && teamsWait l g.die (g.core / 16) then (1, s)
    else match detachedSeat s l g.die g.core unit (some g.budget) with
      | none => (1, s)
      | some (slot, off) =>
        let tm : BitVec 32 := g.teamIdx.getD 0 0
        let w := (kernelIn l).width
        let (_, s) := newGroup { s with free := s.free + 1 } l
          { kind := .spawned, die := g.die, core := g.core, slot, spillOff := off, team := 0,
            teamIdx := [tm], gidx := 0xFFFF, seedTeam := tm, unit,
            args := args.map fun a => List.replicate w a, uniform := false, threads := fullMask w,
            req := some g.budget }
        (0, modLaunch s l.uid fun l => { l with dets := l.dets + 1 })

/-- `spawn` (R208). -/
def execSpawn (o : SpawnOp) (s : State) : Out :=
  let tys := (fnParams (groupWords s s.cur) o.fn.toNat).map (·.1)
  let args := (o.args.zipIdx).map fun p => opd s (tys.getD p.2 .i32) p.1 (leader s)
  let (st, s') := spawnGroup s o.fn.toNat args
  .next (finish s' (columns s.cur.width o.nres.toNat fun _ => [lane st]))

/-- The slice-map entry of a data address (R36, R209). -/
def homeOf (s : State) (ctx p : Nat) : Option SliceEnt :=
  if 2 ^ 36 ≤ p then none
  else match ctxOf s ctx with
    | some c => c.slices.find? fun e => e.slice == p / 2 ^ 22
    | none => none

/-- The team index that a record carries for a thread of the issuing group (R16). -/
def teamIdxAt (g : Group) (t : Nat) : BitVec 32 := g.teamIdx.getD t (g.teamIdx.getD 0 0)

/-- Posts one record; the status of R36. A commons slice's home core is a free choice among the die's, of those whose
slices the context maps where it maps one (R55). -/
def postTask (s : State) (fn t p : Nat) (args : List Lane) : Nat × State :=
  let g := s.cur
  match ctxOf s g.ctx, homeOf s g.ctx p with
  | some c, some e =>
    let out := (s.launches.filter fun l => l.ctx == g.ctx).map (·.tasks)
    if c.taskQuota ≤ out.sum then (1, s)
    else
      let (n, s) := freeNo s
      let usable := (List.range (Config.coresOf e.die)).filter fun k =>
        coreUsable s e.die k && coreMapped s g.ctx e.die k
      let among := if usable.isEmpty then List.range (Config.coresOf e.die) else usable
      let core := if e.commons then among.getD (Config.choice n % max 1 among.length) 0 else e.index
      let r : Task := { fn, p := lane p, args, teamIdx := teamIdxAt g t, die := e.die, core,
                        launch := g.launch, at_ := s.cycle, carry := carryNow s g .package,
                        budget := g.budget }
      let s := { s with tasks := s.tasks ++ [r] }
      (0, modLaunch s g.launch fun l => { l with tasks := l.tasks + 1 })
  | _, _ => (1, s)

/-- Posts for threads in turn; `arg` gives a thread's data address and values. -/
def postAll (s : State) (fn : Nat) (arg : Nat → Nat × List Lane) :
    List Nat → List (Nat × List Lane) × State
  | ts => eachThread (fun t s =>
      let (st, s) := postTask s fn t (arg t).1 (arg t).2
      ([lane st], s)) ts s

/-- `taskpost` (R209). -/
def execTaskpost (o : TaskpostOp) (s : State) : Out :=
  let tys := (fnParams (groupWords s s.cur) o.fn.toNat).map (·.1)
  let ts := accessors s o.uni
  let arg (t : Nat) : Nat × List Lane :=
    (opdN s .near o.p t, (o.args.zipIdx).map fun p => opd s (tys.getD (p.2 + 1) .i32) p.1 t)
  if ts.all fun t => (homeOf s s.cur.ctx (arg t).1).isSome then
    let (rs, s) := postAll s o.fn.toNat arg ts
    .next (finishEach s o.uni o.nres.toNat rs)
  else .next (raise s .window)

end Sys2Proof.Machine
end

