-- ==== Sys2Proof/Machine/Wait.lean ====
section
/-! DEFINITION. Waits, yields and their evaluation (01_execution_model.md R39 to R43;
07_tvf_memory_sync.md R177, R183 to R187; 10_tvf_tiles_matrix.md R244; 03 R78). -/

namespace Sys2Proof.Machine

open Sys2Proof

/-- The group goes on at its next instruction; a native group stands there already. -/
def goOn (s : State) : State := if s.cur.native.isSome then s else advance s

/-! ## Issue checks (R182, R184) -/

/-- The trap of one condition's operands. -/
def condTrap (s : State) : CondV → Option Trap
  | .fullWord a | .emptyWord a =>
    if a.toNat % 8 ≠ 0 then some .alignment
    else if (groupNear s s.cur a.toNat 8 false).isNone then some .window else none
  | .sig a _ _ =>
    if a.toNat % 8 ≠ 0 then some .alignment
    else if 2 ^ 57 ≤ a.toNat then some .farFault else none
  | _ => none

def isBarrierCond : CondV → Bool
  | .barrier _ _ => true
  | _ => false

/-- The first trap of a wait at issue. -/
def waitTrap (s : State) (conds : List CondV) : Option Trap :=
  if noBarriers s.cur && conds.any isBarrierCond then some .barrierScope
  else conds.findSome? (condTrap s)

/-! ## Judging conditions (R185) -/

/-- The deadline of a time-out (R39, R184). -/
def deadlineOf (s : State) (timeout : Nat) : Option Nat :=
  if timeout = 0xFFFFFFFF then none else some (s.tick + timeout)

/-- Whether a batch of the group has completed (R243, R244). -/
def batchDone (g : Group) (n : Word) : Bool := decide ((g.batchesDone - n).toNat < 2 ^ 31)

/-- A relaxed read of a full/empty word's bit at its slice: the trap it raises, or the bit; none when
the read consumed an error and is made again at the next evaluation (R407, R408). -/
def lookFull (s : State) (a : Lane) : Except Trap (Option Bool) × State :=
  match groupNear s s.cur a.toNat 8 false with
  | none => (.ok none, s)
  | some k =>
    match readWords s [(k, 8)] with
    | (some d, s) =>
      let first := s.cur.consumed = 0
      let s := logWord s s.cur.ctx (ppcOf s.cur) d.1 (if first then 2 else 3) d.2.toNat
      let s := setCur s fun g => { g with consumed := g.consumed + 1 }
      (if first then .ok none else .error .uncorrectable, s)
    | (none, s) =>
      let s := touch s (keysFrom 8 k)
      (.ok (some (s.mem.isFull k)), (loadVal s k 8).2)

def sigHolds (cmp : SigCmp) (x v : Nat) : Bool :=
  match cmp with
  | .eq => x == v
  | .ne => x != v
  | .lt => decide (x < v)
  | .ge => decide (v ≤ x)

/-- Parks the signal read of condition `i` on its page, with a fault record for the first of the wait
on the page in the generation (R185). -/
def parkSignal (s : State) (w : Wait) (i va : Nat) (f : FarRes) : State :=
  let g := s.cur
  let page := va / 4096
  let gen := (dieAt s g.die).gen.toNat
  let seen := w.parked.any fun p => p.page == page && p.gen == gen
  let src : FaultSrc :=
    { ctx := g.ctx, va, ppc := ppcOf g, core := logicalCore s g.ctx g.die g.core, slot := g.slot,
      counter := 0, write := false, helper := false, source := 1 }
  let (n, s) := freeNo s
  let s := match f with
    | .fault l r => if seen then s else faultRecord s g.die (faultFields s g.die l r src)
    | _ => s
  let p : Parked := { unit := i, page, order := n, gen, line := va / 64, pri := if f == .atsMiss then some n else none }
  setCur s fun g => { g with wait := g.wait.map fun w => { w with parked := w.parked ++ [p] } }

/-- One reading of a signal word by the core's retriever: the trap it raises, or whether the condition
holds. -/
def readSignal (s : State) (w : Wait) (i va : Nat) (cmp : SigCmp) (v : Nat) : Except Trap Bool × State :=
  if w.parked.any fun p => p.unit == i then (.ok false, s)
  else
    let conf := match ctxOf s s.cur.ctx with
      | some c => c.confidential
      | none => false
    match translate s s.cur.die s.cur.core s.cur.ctx va false with
    | (.hit k, s) =>
      if badLine s k then (.error .uncorrectable, s)
      else
        match remoteGo s k with
        | (none, s) => (.ok false, s)
        | (some true, s) => (.error .farFault, s)
        | (some false, s) =>
          let (x, s) := loadVal s k 8
          let key := ctxSeal s s.cur.ctx
          let x := if s.mem.sealOf k = key || !sealable k then x else leNat (s.mem.openBytes key s.mem.byte 8 k)
          (.ok (sigHolds cmp x v), s)
    | (.dead, s) => (.error .farFault, s)
    | (f, s) => if conf then (.error .farFault, s) else (.ok false, parkSignal s w i va f)

/-- Whether condition `i` holds now. -/
def judgeOne (s : State) (w : Wait) (i : Nat) (c : CondV) : Except Trap Bool × State :=
  match c with
  | .token h => (.ok (tokenDone s.cur h), s)
  | .fullWord a =>
    let (b, s) := lookFull s a
    (b.map fun x => x == some true, s)
  | .emptyWord a =>
    let (b, s) := lookFull s a
    (b.map fun x => x == some false, s)
  | .barrier b p =>
    (.ok (match teamOf s s.cur.team with
      | some t => phaseDone t b p
      | none => false), s)
  | .matrix n => (.ok (batchDone s.cur n), s)
  | .sig a cmp v => readSignal s w i a.toNat cmp v.toNat

/-- The conditions in order; a read that parks is there for those after it (R185). -/
def judgeAll (w : Wait) : List (CondV × Nat) → State → Except Trap (List Bool) × State
  | [], s => (.ok [], s)
  | (c, i) :: rest, s =>
    match judgeOne s (s.cur.wait.getD w) i c with
    | (.error t, s) => (.error t, s)
    | (.ok b, s) =>
      match judgeAll w rest s with
      | (.ok bs, s) => (.ok (b :: bs), s)
      | e => e

/-- The first completed token of a wait that holds an error, with the error (R200). -/
def tokenFault (g : Group) (w : Wait) : Option (Word × TokErr) :=
  w.conds.findSome? fun c => match c with
    | .token h => if tokenDone g h then (tokenErr g h).map fun e => (h, e) else none
    | _ => none

/-- A matrix operation without a D in a batch whose completion a wait observes (R414). -/
def batchFault (g : Group) (w : Wait) : Option MmaJob :=
  w.conds.findSome? fun c => match c with
    | .matrix n =>
      if batchDone g n then g.jobs.find? fun j => j.failed && (match j.batch with
        | some b => decide ((n - b).toNat < 2 ^ 31)
        | none => false)
      else none
    | _ => none

/-- The order that a met condition performs (R78). -/
def condAcquire (s : State) (c : CondV) : State :=
  match c with
  | .token h => tokenAcquire s h
  | .barrier b p => barrierAcquire s b p
  | _ => s

/-- What an evaluation finds. -/
inductive Judged where
  | trapped (s : State)
  | unmet (s : State)
  | ended (r : Nat) (s : State)
  deriving Repr

def bitsNat : List Bool → Nat
  | [] => 0
  | b :: bs => b.toNat + 2 * bitsNat bs

/-- One evaluation of the wait of the issuing group (R40, R41, R185). -/
def judge (s : State) (w : Wait) : Judged :=
  match tokenFault s.cur w with
  | some (h, e) =>
    .trapped (raiseAt (setCur s fun g => { observed (backUp g) h with wait := none }) e.trap e.ppc)
  | none =>
    match batchFault s.cur w with
    | some j =>
      .trapped (mismatchTrap (setCur s fun g =>
        { backUp g with wait := none, jobs := g.jobs.filter fun x => x.no != j.no }) 13 j.ppc)
    | none =>
    match judgeAll w w.conds.zipIdx s with
    | (.error t, s) => .trapped (raise (setCur s fun g => { backUp g with wait := none }) t)
    | (.ok bs, s) =>
      let test := if w.all then bs.all (· == true) else bs.any (· == true)
      let late := match w.deadline with
        | some d => decide (d ≤ s.tick)
        | none => false
      if test || late then
        let met := (w.conds.zip bs).filterMap fun p => if p.2 then some p.1 else none
        let s := match w.dst with
          | .arrive _ _ | .sync _ => s
          | _ => met.foldl condAcquire s
        .ended (bitsNat bs + if test then 0 else 16) (setCur s fun g => { g with wait := none })
      else .unmet s

/-! ## The end of a wait -/

/-- Delivers the result of an ended wait to the issuing group. -/
def waitDone (s : State) (r : Nat) : WaitDst → State
  | .value _ n => finishU s ([lane r].take n)
  | .nothing => goOn s
  | .cont blk args =>
    let its := topItems (groupWords s s.cur) s.cur
    let all := ArgV.lanes (List.replicate s.cur.width (lane r)) :: args
    enterBlock (setCur s fun g => putArgs g g.active (blockVal its blk) all) blk
  | .arrive b dest =>
    let (p, _) := nextPhase s s.cur b
    let s := arriveAt s s.cur b
    match dest with
    | some d => setCur s fun g => uset g d false (p.zeroExtend 64)
    | none =>
      if s.cur.native.isSome then s
      else
        let n := match here s with
          | some it => (it.types (groupWords s s.cur)).length
          | none => 0
        finishU s ([lane p.toNat].take n)
  | .sync b =>
    let (p, _) := nextPhase s s.cur b
    awaitPhase (arriveAt s s.cur b) b p
  | .base d _ => setCur s fun g => uset g d false (lane r)

/-- Whether a group that has not met its wait is PARKED, and not WAITING. -/
def WaitDst.parks : WaitDst → Bool
  | .cont _ _ => true
  | .base _ y => y
  | _ => false

/-- The issuing group's wait is under way: at its issue, or when a group resumed in it issues again. -/
def waitIssue (s : State) (w : Wait) : State :=
  let s := setCur s fun g => { g with wait := some w }
  if w.dst.parks then setCur s fun g => { g with st := .parked, fast := false, since := s.cycle }
  else match judge s w with
    | .trapped s => s
    | .unmet s => setCur s fun g => { g with st := .waiting, since := s.cycle }
    | .ended r s => waitDone s r w.dst

/-- Checks the operands of a wait at issue and begins it (R184). -/
def startWait (s : State) (conds : List CondV) (all : Bool) (timeout : Nat) (dst : WaitDst) : State :=
  match waitTrap s conds with
  | some t => raise s t
  | none => waitIssue s { conds, all, deadline := deadlineOf s timeout, dst, parked := [] }

/-- Operands of Value Form conditions, as the group's leader holds them. -/
def condVal (s : State) : CondOp → CondV
  | .token t => .token (loWord (opd s .tok t (leader s)))
  | .fullWord p => .fullWord (opd s .near p (leader s))
  | .emptyWord p => .emptyWord (opd s .near p (leader s))
  | .barrier b p => .barrier b.toNat (loWord (opd s .i32 p (leader s)))
  | .matrix m => .matrix (loWord (opd s .batch m (leader s)))
  | .sig a cmp v => .sig (opd s .far a (leader s)) cmp (opd s .i64 v (leader s))

/-- `wait.any` (R183 to R185). -/
def execWaitAny (o : WaitOp) (s : State) : Out :=
  .next (startWait s (o.conds.map (condVal s)) false (opdN s .i32 o.timeout (leader s))
    (.value (hereVal s) o.nres.toNat))

/-- `wait.all` (R183 to R185). -/
def execWaitAll (o : WaitOp) (s : State) : Out :=
  .next (startWait s (o.conds.map (condVal s)) true (opdN s .i32 o.timeout (leader s))
    (.value (hereVal s) o.nres.toNat))

/-- The arguments of a yield's continuation after its first (R186). -/
def contArgs (s : State) (t : Target) : List ArgV :=
  let its := topItems (groupWords s s.cur) s.cur
  argVals s its { t with args := .imm 0 :: t.args } |>.drop 1

/-- `yield` (R186, R187). -/
def execYield (o : YieldOp) (s : State) : Out :=
  .next (startWait s (o.conds.map (condVal s)) o.all (opdN s .i32 o.timeout (leader s))
    (.cont o.cont.blk.toNat (contArgs s o.cont)))

/-- `mwait` (R244). -/
def execMwait (m : Opd) (s : State) : Out :=
  .next (startWait s [.matrix (loWord (opd s .batch m (leader s)))] true 0xFFFFFFFF .nothing)

/-! ## WAIT_EVALUATION (R40, R43) -/

/-- A group whose wait has ended: ACTIVE when its image is in the fast file, else READY (R23). A party of a HERD runs in
a helper context or with its recruiter's group, and takes no active slot (R224). -/
def wakeUp (g : Group) : Group :=
  match g.st with
  | .waiting => { g with st := if g.fast || g.party.isSome then .active else .ready }
  | .parked => { g with st := if g.party.isSome then .active else .ready }
  | _ => g

/-- Whether two groups are blocked on one word in one direction. -/
def sameWord (s : State) (g h : Group) : Bool :=
  match g.fe, h.fe with
  | some a, some b =>
    let keys (g : Group) (w : FeWait) : List (Option Nat) :=
      (threadsOf w.pending 64).map fun t => groupNear s g (getLane w.addrs t).toNat 8 w.give
    a.give == b.give && (keys g a).any fun k => k.isSome && (keys h b).contains k
  | _, _ => false

/-- An evaluation of the issuing group's blocked access; it goes on when no thread is pending. -/
def feEvaluate (s : State) : State :=
  match s.cur.fe with
  | some w => setCur (feStep w s) fun g => if g.fe.isNone then wakeUp g else g
  | none => s

/-- One evaluation of a waiting or parked group. -/
def evaluate (s : State) (u : Nat) : State :=
  asCur s u fun s =>
    match s.cur.wait with
    | some w =>
      match judge s w with
      | .trapped s => s
      | .unmet s => s
      | .ended r s => waitDone (setCur s wakeUp) r w.dst
    | none => s

/-- WAIT_EVALUATION (R40, R43): of several groups of a core blocked on one word the oldest is served first; groups of
different cores are served in the order of their evaluations (R59). -/
def execWaitEvaluation (u : Nat) (s : State) : Out :=
  match groupOf s u with
  | none => .next s
  | some g =>
    if g.st != .waiting && g.st != .parked then .next s
    else if g.fe.isSome then
      let first := sortBy (fun (a b : Group) => decide (a.age ≤ b.age)) ((heldGroups s).filter fun h =>
        h.st == .waiting && h.die == g.die && h.core == g.core && decide (h.age < g.age) && sameWord s g h)
      .next ((first.map (·.uid) ++ [u]).foldl (fun s u => asCur s u feEvaluate) s)
    else .next (evaluate s u)

end Sys2Proof.Machine
end

