-- ==== Sys2Proof/Machine/Tiles.lean ====
section
/-! DEFINITION. Tiles: their elements, their accesses to near memory, conversions and single elements,
and the meanings of the tile instructions (10_tvf_tiles_matrix.md R231 to R238). -/

namespace Sys2Proof.Machine

open Sys2Proof

/-! ## Tiles and their elements -/

def TileDesc.count (d : TileDesc) : Nat := d.rows * d.cols
def TileDesc.bytes (d : TileDesc) : Nat := d.elem.width / 8

def Tile.zero (d : TileDesc) : Tile := { desc := d, data := List.replicate (TileDesc.count d) 0 }

/-- Element (r, c). -/
def Tile.get (t : Tile) (r c : Nat) : Nat := (t.data.getD (r * t.desc.cols + c) 0).toNat

/-- The tile of an operand; zeros where nothing is written yet. -/
def tileOpd (s : State) (d : TileDesc) (o : Opd) : Tile := (tileVal s.cur o).getD (Tile.zero d)

/-- The descriptor of an operand's type. -/
def descOpd (s : State) (o : Opd) : TileDesc :=
  match o, s.cur.frames with
  | .val n, f :: _ =>
    ((valTypes (groupWords s s.cur) (fnItems (groupWords s s.cur) f.fn)).getD n.toNat (.void, none)).2.getD
      { elem := .i8, colsM1 := 0, rowsM1 := 0 }
  | _, _ => { elem := .i8, colsM1 := 0, rowsM1 := 0 }

/-- Gives a tile result and advances. -/
def finishTile (s : State) (t : Tile) : State :=
  let n := hereVal s
  advance (setCur s fun g => setTile g n t)

/-- An element's word from a datum. -/
def elemWord (e : Elem) (x : Nat) : Word := BitVec.ofNat 32 (low e.width x)

/-- `tile.zero` (R235). -/
def execTileZero (d : TileDesc) (s : State) : Out := .next (finishTile s (Tile.zero d))

/-- A tile with every element equal (R235). -/
def Tile.fill (d : TileDesc) (x : Nat) : Tile :=
  { desc := d, data := List.replicate (TileDesc.count d) (elemWord d.elem x) }

/-- `tile.fill` (R235). -/
def execTileFill (o : TileFillOp) (s : State) : Out :=
  .next (finishTile s (Tile.fill o.d (opdN s o.d.elem.ty o.v (leader s))))

/-! ## Loads and stores (R236) -/

/-- The addresses of the elements in row-major order. -/
def elemAddrs (d : TileDesc) (p ld : Nat) (tr : Bool) : List Nat :=
  (List.range (TileDesc.count d)).map fun i =>
    let r := i / d.cols
    let c := i % d.cols
    if tr then p + c * ld + r * TileDesc.bytes d else p + r * ld + c * TileDesc.bytes d

/-- The checks of R236: the keys of the elements. -/
def tileKeys (s : State) (d : TileDesc) (p ld : Nat) (tr write : Bool) : Except Trap (List Nat) :=
  let w := TileDesc.bytes d
  if p % w != 0 || ld % w != 0 then .error .alignment
  else
    let as_ := elemAddrs d p ld tr
    let hi := as_.foldl max p + w
    match groupNear s s.cur p (hi - p) write with
    | some k => .ok (as_.map fun a => k + (a - p))
    | none => .error .window

/-- Loads the elements in order. -/
def loadElems (w : Nat) : List Nat → State → List Word × State
  | [], s => ([], s)
  | k :: ks, s =>
    let (x, s) := loadVal s k w
    let (xs, s) := loadElems w ks s
    (BitVec.ofNat 32 x :: xs, s)

/-- A tile load by the issuing group; `f` takes the tile. -/
def tileLoad (s : State) (d : TileDesc) (p ld : Nat) (tr : Bool) (f : State → Tile → State) : Out :=
  match tileKeys s d p ld tr false with
  | .error e => .next (raise s e)
  | .ok ks => reading s (ks.map fun k => (k, TileDesc.bytes d)) fun s =>
    let (xs, s) := loadElems (TileDesc.bytes d) ks s
    .next (f s { desc := d, data := xs })

/-- A tile store; `f` goes on after it. -/
def tileStore (s : State) (t : Tile) (p ld : Nat) (tr : Bool) (f : State → State) : Out :=
  match tileKeys s t.desc p ld tr true with
  | .error e => .next (raise s e)
  | .ok ks =>
    .next (f ((ks.zip t.data).foldl (fun s k =>
      storeVal s k.1 (TileDesc.bytes t.desc) k.2.toNat s.cur.carry) s))

/-- `tile.load` (R236). -/
def execTileLoad (o : TileLoadOp) (s : State) : Out :=
  tileLoad s o.d (opdN s .near o.p (leader s)) (opdN s .i32 o.ld (leader s)) o.tr finishTile

/-- `tile.store` (R236). -/
def execTileStore (o : TileStoreOp) (s : State) : Out :=
  tileStore s { tileOpd s o.d o.x with desc := o.d } (opdN s .near o.p (leader s))
    (opdN s .i32 o.ld (leader s)) o.tr advance

/-! ## Conversions (R237) -/

/-- One element from one format to another under the computation of R155. -/
def elemConv (src dst : Elem) (ss ds : Bool) (fmt : Word) (r : Rnd) (rho x : Nat) : Nat :=
  let c := convCtx fmt r rho
  if dst.ty.isFloat then
    if src.ty.isFloat then fpConv (fmtOf src.ty) (fmtOf dst.ty) c x
    else intToFp src.width ss (fmtOf dst.ty) c x
  else fpToInt (fmtOf src.ty) dst.width ds (rndMode fmt r) x

/-- Converts a tile, drawing a word for every 16 elements where it rounds stochastically. -/
def tileConvert (s : State) (t : Tile) (d : TileDesc) (r : Rnd) (ss ds : Bool) : Tile × State :=
  let (ws, s') := if d.elem.ty.isFloat && rndStoch s.cur.fmt r
    then drawWords ((TileDesc.count d + 15) / 16) s else ([], s)
  ({ desc := d,
     data := (t.data.zipIdx).map fun p =>
       elemWord d.elem (elemConv t.desc.elem d.elem ss ds s.cur.fmt r (rhoOf ws p.2) p.1.toNat) }, s')

/-- `tile.cvt` (R237). -/
def execTileCvt (o : TileCvtOp) (s : State) : Out :=
  let (t, s) := tileConvert s (tileOpd s (descOpd s o.x) o.x) o.d o.rnd o.ss o.ds
  .next (finishTile s t)

/-! ## Single elements (R238) -/

/-- What thread `t` extracts: its element, or 0 outside the tile. -/
def tileAt (t : Tile) (r c : Nat) : Nat := if r < t.desc.rows ∧ c < t.desc.cols then Tile.get t r c else 0

/-- `tile.extract` (R238). -/
def execTileExtract (o : TileExtractOp) (s : State) : Out :=
  let x := tileOpd s (descOpd s o.x) o.x
  .next (perThread1 s false fun t => tileAt x (opdN s .i32 o.r t) (opdN s .i32 o.c t))

/-- One thread's insertion. -/
def Tile.put (t : Tile) (r c v : Nat) : Tile :=
  if r < t.desc.rows ∧ c < t.desc.cols then
    { t with data := t.data.set (r * t.desc.cols + c) (elemWord t.desc.elem v) }
  else t

/-- `tile.insert` (R238). -/
def execTileInsert (o : TileInsertOp) (s : State) : Out :=
  .next (finishTile s ((actives s).foldl (fun y t =>
    Tile.put y (opdN s .i32 o.r t) (opdN s .i32 o.c t) (opdN s o.d.elem.ty o.v t)) (tileOpd s o.d o.x)))

end Sys2Proof.Machine
end

