-- ==== Sys2Proof/Machine/Matrix.lean ====
section
/-! DEFINITION. Matrix operations, their exact sums, batches and the meanings of the matrix instructions
(10_tvf_tiles_matrix.md R239 to R245; 04_number_formats.md R102 to R104; 22 R414). -/

namespace Sys2Proof.Machine

open Sys2Proof

/-! ## Exact block sums (R103, R104) -/

/-- A partial exact sum: NaN seen, +∞ seen, −∞ seen, and the finite part. -/
structure Acc where
  nan : Bool
  pinf : Bool
  ninf : Bool
  m : Int
  e : Int
  deriving DecidableEq, Repr

def Acc.zero : Acc := { nan := false, pinf := false, ninf := false, m := 0, e := 0 }

def Acc.add (a : Acc) : Fv → Acc
  | .nan => { a with nan := true }
  | .inf s => if s then { a with ninf := true } else { a with pinf := true }
  | .fin s m e =>
    let q := min a.e e
    let x : Int := (m * 2 ^ (e - q).toNat : Nat)
    { a with m := a.m * ((2 ^ (a.e - q).toNat : Nat) : Int) + (if s then -x else x), e := q }

/-- The sum as a value; a zero sum is +0. -/
def Acc.fv (a : Acc) : Fv :=
  if a.nan || (a.pinf && a.ninf) then .nan
  else if a.pinf then .inf false
  else if a.ninf then .inf true
  else .fin (decide (a.m < 0)) a.m.natAbs a.e

/-- The dense index that compressed row `q` of column `j` stands for (R242), or `q` itself. -/
def MmaJob.dense (x : MmaJob) (q j : Nat) : Nat :=
  if x.keep = 0 then q
  else 64 * (q / x.keep) + (match x.m with | some t => Tile.get t q j % 64 | none => 0)

/-- The exact sum of a floating block. -/
def MmaJob.fsum (x : MmaJob) (i j : Nat) : Fv :=
  ((List.range x.b.desc.rows).foldl (fun a q =>
    Acc.add a (fvMul ((fmtOf x.a.desc.elem.ty).decode (Tile.get x.a i (x.dense q j)))
      ((fmtOf x.b.desc.elem.ty).decode (Tile.get x.b q j)))) Acc.zero).fv

/-- The exact sum of an integer block. -/
def MmaJob.isum (x : MmaJob) (i j : Nat) : Int :=
  (List.range x.b.desc.rows).foldl (fun acc q =>
    let av := Tile.get x.a i (x.dense q j)
    let bv := Tile.get x.b q j
    acc + (if x.signA then sgn 8 av else (av : Int)) * (if x.signB then sgn 8 bv else (bv : Int))) 0

def nearest : RCtx := { md := .rn, sat := false }

/-- An element of D (R240, R241). -/
def MmaJob.elem (x : MmaJob) (c : Tile) (i j : Nat) : Nat :=
  match x.kind with
  | 0 =>
    let scale (v : Nat) : Nat := if x.fmtE8 then e8m0ToF32 v else v
    let sa := scale (match x.sa with | some t => Tile.get t i 0 | none => 0)
    let q := fpMul fmtF32 nearest sa (scale x.sb.toNat)
    let p := fmtF32.round .rn false (x.fsum i j).ex
    fpAdd fmtF32 nearest (Tile.get c i j) (fpMul fmtF32 nearest p q)
  | 3 => lowI 32 ((Tile.get c i j : Int) + x.isum i j)
  | _ => fmtF32.round .rn false (exAdd .rn (fmtF32.decode (Tile.get c i j)) (x.fsum i j))

/-- The whole of D. -/
def MmaJob.result (x : MmaJob) (c : Tile) : Tile :=
  { desc := x.desc,
    data := (List.range (TileDesc.count x.desc)).map fun n =>
      BitVec.ofNat 32 (x.elem c (n / x.desc.cols) (n % x.desc.cols)) }

/-! ## Opening and closing (R243) -/

/-- Operations whose D is still to come. -/
def openJobs (g : Group) : List MmaJob := g.jobs.filter fun j => !j.failed

/-- The number of the operation of which an operand is the D still to come. -/
def pendingD (g : Group) (dst : Nat) (tbf : Bool) : Option Nat :=
  ((openJobs g).reverse.find? fun j =>
    j.dst == dst && j.tbf == tbf && j.depth == g.frames.length).map (·.no)

/-- Whether a block-scaled operation traps with FORMAT: FMT names another scale format than its
operands' (R240). -/
def scaleBad (s : State) (sfmt : BitVec 2) (sa : Option Tile) : Bool :=
  sfmt == 0 && (match sa with
    | some t => (t.desc.elem == .i8) != (fmtScale s.cur.fmt == 1)
    | none => false)

/-- Opens a matrix operation of the issuing group; it waits while 64 are incomplete. -/
def openMma (s : State) (x : MmaJob) (sfmt : BitVec 2) (next : State → State) : State :=
  if scaleBad s sfmt x.sa then raise s .format
  else if 64 ≤ (openJobs s.cur).length then s
  else
    let x := { x with
      no := s.nextId, depth := s.cur.frames.length, ppc := ppcOf s.cur,
      fmtE8 := if sfmt == 0 then fmtScale s.cur.fmt == 1 else sfmt == 2 }
    next (setCur { s with nextId := s.nextId + 1 } fun g => { g with jobs := g.jobs ++ [x] })

/-- A Value Form operation with its operands read. -/
def mmaJob (s : State) (kind keep : Nat) (d : TileDesc) (a b c : Opd) (m sa : Option Opd) : MmaJob :=
  let tile (o : Opd) : Tile := tileOpd s (descOpd s o) o
  { kind, fmtE8 := false, signA := false, signB := false, keep, a := tile a, b := tile b,
    c := tileOpd s d c, m := m.map tile, sa := sa.map tile, sb := 0,
    cFrom := (match c with | .val n => pendingD s.cur n.toNat false | _ => none),
    desc := d, no := 0, depth := 0, dst := hereVal s, tbf := false, ppc := (0, 0),
    batch := none, failed := false }

/-- The scalar scale of an operation. -/
def scaleOpd (s : State) (sb : Opd) : Word :=
  match sb with
  | .val n => loWord (getLane (valLanes s.cur n.toNat) (leader s))
  | o => loWord (immLane .i32 o)

/-- `mma.f8s` (R240). -/
def execMmaF8s (o : MmaF8sOp) (s : State) : Out :=
  .next (openMma s { mmaJob s 0 0 o.d o.a o.b o.c none (some o.sa) with sb := scaleOpd s o.sb } o.sfmt advance)

/-- `mma.bf16` (R241). -/
def execMmaBf16 (o : MmaOp) (s : State) : Out :=
  .next (openMma s (mmaJob s 1 0 o.d o.a o.b o.c none none) 1 advance)

/-- `mma.f16` (R241). -/
def execMmaF16 (o : MmaOp) (s : State) : Out :=
  .next (openMma s (mmaJob s 2 0 o.d o.a o.b o.c none none) 1 advance)

/-- `mma.i8` (R241). -/
def execMmaI8 (o : MmaI8Op) (s : State) : Out :=
  .next (openMma s { mmaJob s 3 0 o.d o.a o.b o.c none none with signA := o.sa, signB := o.sb } 1 advance)

/-- `mma.sp` (R242). -/
def execMmaSp (o : MmaSpOp) (s : State) : Out :=
  let keep := 16 * (o.keep.toNat + 1)
  let x := mmaJob s o.form.toNat keep o.d o.a o.b o.c (some o.m) (o.scales.map (·.1))
  let x := { x with
    sb := (match o.scales with | some p => scaleOpd s p.2 | none => 0),
    signA := o.form == 3 && o.s2.getLsbD 0, signB := o.form == 3 && o.s2.getLsbD 1 }
  .next (openMma s x (if o.form == 0 then o.s2 else 1) advance)

/-- Batches that have nothing left to do complete, oldest first (R243). -/
def settleBatches (g : Group) : (fuel : Nat) → Group
  | 0 => g
  | n + 1 =>
    if g.batchesDone = g.mfences then g
    else if (openJobs g).any fun j => j.batch == some (g.batchesDone + 1) then g
    else settleBatches { g with batchesDone := g.batchesDone + 1 } n

/-- Closes the open operations into a batch: its value, or none while 8 batches are incomplete. -/
def closeBatch (s : State) : Option (Word × State) :=
  let g := s.cur
  if 8 ≤ (g.mfences - g.batchesDone).toNat then none
  else
    let n := g.mfences + 1
    let g := { g with
      mfences := n,
      jobs := g.jobs.map fun j => if j.batch.isNone then { j with batch := some n } else j }
    some (n, { s with cur := settleBatches g 9 })

/-- `mfence` (R243). -/
def execMfence (s : State) : Out :=
  match closeBatch s with
  | none => .next s
  | some (n, s) => .next (finishU s [n.zeroExtend 64])

/-! ## BATCH_COMPLETE -/

/-- Writes a tile into the frame that stood at a depth, or into a native tile register. -/
def writeD (g : Group) (j : MmaJob) (t : Tile) : Group :=
  if j.tbf then setNative g fun n => { n with t := assocSet j.dst t n.t }
  else
    let up := g.frames.length - j.depth
    { g with frames := (g.frames.zipIdx).map fun p =>
        if p.2 = up then { p.1 with tiles := assocSet j.dst t p.1.tiles } else p.1 }

/-- Executes one operation: its D goes to its destination and to the operations that take it as their C.
The operations named in `mism` once have had a checksum mismatch and were computed again; those named
twice write no D (R414). -/
def runJob (mism : List Nat) (s : State) (no : Nat) : State :=
  match s.cur.jobs.find? fun j => j.no == no with
  | none => s
  | some j =>
    let bad := mism.count no
    let log (s : State) (cls : Nat) : State :=
      logError s { ctx := s.cur.ctx, ppc := j.ppc, die := s.cur.die, core := s.cur.core, addr := 0,
                   struct := 13, cls, synd := 0 }
    if 2 ≤ bad then
      setCur s fun g => { g with jobs := modBy (fun x => x.no == no) (fun x => { x with failed := true }) g.jobs }
    else
      let s := if bad = 1 then log s 5 else s
      let t := j.result j.c
      setCur s fun g =>
        { writeD g j t with
          jobs := (g.jobs.filter fun x => x.no != no).map fun x =>
            if x.cFrom == some no then { x with c := t, cFrom := none } else x }

/-- BATCH_COMPLETE (R243, R245): the oldest incomplete batch of a group has executed; with none, the oldest of its open
operations. A frozen core's engine stands still (R303). -/
def execBatchComplete (u : Nat) (mism : List Nat) (s : State) : Out :=
  match groupOf s u with
  | none => .next s
  | some g =>
    if (coreOf s g.die g.core).frozenTo.isSome then .next s
    else if g.batchesDone = g.mfences then .next (asCur s u fun s => match openJobs s.cur with
      | j :: _ => runJob mism s j.no
      | [] => s)
    else .next (asCur s u fun s =>
      let n := s.cur.batchesDone + 1
      let s := (((openJobs s.cur).filter fun j => j.batch == some n).map (·.no)).foldl (runJob mism) s
      setCur s fun g => settleBatches g 9)

end Sys2Proof.Machine
end

