-- ==== Sys2Proof/Machine/Special.lean ====
section
/-! DEFINITION. FMT, seeds, identity, time, traps, breakpoints and markers
(09_tvf_control_group_helpers.md R226 to R230; 17_debug_profile.md R345; 04 R100, R108). -/

namespace Sys2Proof.Machine

open Sys2Proof

/-- Whether a write of FMT traps with FORMAT. -/
def fmtBad (mask : BitVec 4) (v : Word) : Bool :=
  decide (64 ≤ v.toNat) || (mask.getLsbD 3 && v.getLsbD 5)

/-- `setfmt` (R226). -/
def execSetfmt (o : SetfmtOp) (s : State) : Out :=
  let v := loWord (opd s .i32 o.v (leader s))
  if fmtBad o.mask v then .next (raise s .format)
  else .next (advance (setCur s fun g => { g with fmt := fmtMerge o.mask v g.fmt }))

/-- `getfmt` (R226). -/
def execGetfmt (uni : Bool) (s : State) : Out :=
  .next (perThread1 s uni fun _ => s.cur.fmt.toNat)

/-- Reseeds the group, or the current helper iteration alone (R223, R227). -/
def reseed (s : State) (v : BitVec 64) : State :=
  match s.cur.party with
  | some pt =>
    let ids := match groupOf s pt.group with
      | some g => seedIds g
      | none => (0, 0)
    setCur s fun g => { g with gen := genSeed v ids.1 ids.2 (BitVec.ofNat 32 (lowI 32 pt.iter)), rq := [] }
  | none =>
    let ids := seedIds s.cur
    setCur s fun g => { g with gen := genSeed v ids.1 ids.2 0, seed := v, rq := [] }

/-- `rng.seed` (R227). -/
def execRngSeed (v : Opd) (s : State) : Out :=
  .next (advance (reseed s (opd s .i64 v (leader s))))

/-- The group whose identity the issuing group reads: a party reads its recruiter's (R223). -/
def identOf (s : State) : Group :=
  match s.cur.party with
  | some pt => (groupOf s pt.group).getD s.cur
  | none => s.cur

/-- The identity index `k` of thread `t` (R16, R228). -/
def identity (s : State) (k t : Nat) : Nat :=
  let g := identOf s
  let l := launchOf s g.launch
  let tm := if g.kind == .team then teamOf s g.team else none
  let me := match s.cur.party with
    | some pt => pt.thread
    | none => t
  match k with
  | 0 => me
  | 1 => groupNo g
  | 2 => (teamIdxAt g me).toNat
  | 3 => logicalCore s g.ctx g.die g.core
  | 4 => (match l with | some l => l.seq.toNat | none => 0)
  | 5 => g.width
  | 6 => (match tm with | some x => x.size | none => 0)
  | 7 => (match l with | some l => l.body.teams.toNat | none => 0)
  | 8 => (match tm with
    | some x =>
      if x.regionLen = 0 then (Config.emptyRegion x.uid).toNat
      else logicalCore s g.ctx x.die x.core * 2 ^ 22 + x.regionOff
    | none => 0)
  | 9 => (match s.cur.party with | some pt => pt.helper | none => 0)
  | _ => 0

/-- `id` (R228). -/
def execId (o : IdOp) (s : State) : Out :=
  .next (perThread1 s o.uni (identity s o.idx.toNat))

/-- `clock` (R229). -/
def execClock (uni : Bool) (s : State) : Out := .next (perThread1 s uni fun _ => low 64 s.tick)

/-- A stop at the issuing group after which it resumes at the next instruction (R230, R345). -/
def stopAfter (s : State) (stop code : Nat) (next : Group → Group) : State :=
  let u := s.cur.uid
  let s := haltGroup s u { stop, code, ppc := ppcOf s.cur, helper := false, helperIter := 0, recruiter := 0 }
  modGroup s u next

/-- `trap` (R230). -/
def execTrap (code : BitVec 30) (s : State) : Out :=
  match s.cur.party with
  | some _ => .next (raise s (.user (code.truncate 16)))
  | none => .next (stopAfter s 2 (code.toNat % 65536) fun g => { g with off := g.off + hereLen s })

/-- Whether `brk` stops the group: its context's debug flag is set, and it runs no helper. -/
def brkStops (s : State) : Bool :=
  s.cur.party.isNone && (match ctxOf s s.cur.ctx with
    | some c => c.debugCtl.getLsbD 0
    | none => false)

/-- `brk` (R230). -/
def execBrk (code : BitVec 30) (s : State) : Out :=
  if brkStops s then .next (stopAfter s 1 (code.toNat % 65536) fun g => { g with off := g.off + hereLen s })
  else .next (advance s)

/-- `mark` (R230). -/
def execMark (_code : BitVec 30) (s : State) : Out := .next (advance s)

end Sys2Proof.Machine
end

