-- ==== Sys2Proof/Machine/NativeReg.lean ====
section
/-! DEFINITION. Operands and results of the Bundle Form: operand codes, captured values, latencies, and
the results that land later (14_tbf_formats_timing.md R295 to R300; 15_tbf_operations.md R308, R309,
R313). Every slot operation acts on the group taken up for issue, at the bundle that its count names. -/

namespace Sys2Proof.Machine

open Sys2Proof

/-- The native side of the issuing group. -/
def nat (s : State) : Native :=
  match s.cur.native with
  | some n => n
  | none => Native.start 0

def setNat (s : State) (f : Native → Native) : State := setCur s fun g => setNative g f

/-! ## Operands -/

/-- Captured value `i` for the iteration's thread (R276, R308). -/
def captured (s : State) (i : Nat) : Lane :=
  match s.cur.party with
  | some pt => match herdOf s pt.group with
    | some h => getLane (h.caps.getD i []) pt.thread
    | none => 0
  | none => 0

/-- An operand code of the VA and VM slots for thread `t`; `bc` is the register that BP broadcasts to
the slot. -/
def opcode (s : State) (cl : Nat) (code : BitVec 8) (bc : Option (BitVec 6)) (wide : Bool) (t : Nat) : Lane :=
  let c := code.toNat
  if c < 128 then getLane (vget s.cur cl c wide) t
  else if c = 128 then
    match bc with
    | some r => uget s.cur r.toNat wide
    | none => 0
  else if c ≤ 136 then captured s (c - 129)
  else lane (lowI 64 (sgn 6 (c % 64)))

/-- The same as a number of `w` bits. -/
def opcodeN (s : State) (cl : Nat) (code : BitVec 8) (bc : Option (BitVec 6)) (w t : Nat) : Nat :=
  low w (opcode s cl code bc (decide (w = 64)) t).toNat

/-- A vector register as a number of `w` bits. -/
def vregN (s : State) (cl n w t : Nat) : Nat := low w (getLane (vget s.cur cl n (decide (w = 64))) t).toNat

/-- A uniform register or pair as a number of `w` bits. -/
def uregN (s : State) (n w : Nat) : Nat := low w (uget s.cur n (decide (w = 64))).toNat

def kbit (s : State) (k t : Nat) : Bool := (kregGet (nat s) k).getLsbD t

/-! ## Latencies (R298) -/

inductive LatClass where
  | intAdd | intMul | fpAdd | fp64 | fpDiv | fpDiv64 | conv | unif | xmv | cross
  deriving DecidableEq, Repr

def LatClass.cycles (gale : Bool) : LatClass → Nat
  | .intAdd => 2
  | .intMul => 4
  | .fpAdd => if gale then 4 else 5
  | .fp64 => 6
  | .fpDiv => if gale then 14 else 18
  | .fpDiv64 => 28
  | .conv => 3
  | .unif => 2
  | .xmv => 3
  | .cross => 6

/-- Beats of a bundle of the issuing group: those of its kernel's width (R12); a helper's has one (R224). -/
def beatsOf (s : State) : Nat :=
  if s.cur.party.any fun pt => pt.helper != 0 then 1 else
  match launchOf s s.cur.launch with
  | some l => max 1 ((kernelIn l).width / 16)
  | none => max 1 (s.cur.width / 16)

/-- Bundles from the issue to the landing: ceil(L / B). -/
def landAfter (s : State) (l : LatClass) : Nat :=
  (l.cycles (Config.isGale s.cur.die) + beatsOf s - 1) / beatsOf s

/-! ## Results -/

/-- Puts a result in flight that lands `k` bundles on. -/
def pendIn (s : State) (k slot : Nat) (d : Dst) (m : Mask) (xs : List Lane) : State :=
  setNat s fun n => { n with
    pend := n.pend ++ [{ land := n.count + k, born := n.count, slot, dst := d, mask := m, vals := xs }] }

def pend (s : State) (slot : Nat) (l : LatClass) (d : Dst) (m : Mask) (xs : List Lane) : State :=
  pendIn s (landAfter s l) slot d m xs

/-- A vector result for the active threads. -/
def pendV (s : State) (slot : Nat) (l : LatClass) (cl d w : Nat) (f : Nat → Nat) : State :=
  pend s slot l (.v cl d (decide (w = 64))) s.cur.active
    ((List.range s.cur.width).map fun t => lane (low w (f t)))

/-- A predicate result for the active threads. -/
def pendK (s : State) (slot : Nat) (l : LatClass) (k : Nat) (f : Nat → Bool) : State :=
  pend s slot l (.k k) s.cur.active [maskOf ((List.range s.cur.width).filter f)]

/-- A uniform result. -/
def pendU (s : State) (slot : Nat) (l : LatClass) (d : Nat) (wide : Bool) (x : Nat) : State :=
  pend s slot l (.s d wide) 0 [lane x]

/-- A tile result, which every later bundle reads (R323). -/
def pendTile (s : State) (n : Nat) (t : Tile) : State := pendIn s 1 9 (.tile n t) 0 []

/-- A tile register; a single zero element where nothing is written yet. -/
def tileReg (s : State) (n : Nat) : Tile :=
  (assocGet n (nat s).t).getD (Tile.zero { elem := .i8, colsM1 := 0, rowsM1 := 0 })

/-! ## Variable latency (R300) -/

/-- An operation under a flag: its results are written when it completes. -/
def varOp (s : State) (flag : Nat) (ds : List (Dst × Mask × List Lane)) : State :=
  setNat s fun n => { addFlag n flag 1 with var := n.var ++ [{ flag, dsts := ds }] }

/-- A blocking full/empty access begins under its flag (R177, R300). -/
def feBegin (s : State) (w : FeWait) (flag : Nat) : State :=
  feStep { w with flag := some flag } (setNat s fun n => addFlag n flag 1)

/-- The flags that the clause in hand sets: of its VM slot and of its uniform slot. -/
def clauseFlags (s : State) : Nat × Nat :=
  let x := imgUnit (imageOf s s.cur) (nat s).at_.1
  (bitsOf x 15 12, bitsOf x 19 16)

end Sys2Proof.Machine
end

