-- ==== Sys2Proof/Machine/NativeAlu.lean ====
section
/-! DEFINITION. Meanings of the vector ALU functions of slots VA0 and VA1: each computes the Value Form
instruction of its row for the active threads (15_tbf_operations.md R310 to R313). -/

namespace Sys2Proof.Machine

open Sys2Proof

/-- Slot order of a VA field within a bundle (R299). -/
def Va.slot (f : Va) : Nat := if f.va1 then 2 else 1
/-- Integer width of TY (R311). -/
def Va.w (f : Va) : Nat := 8 * 2 ^ (f.ty.toNat % 4)
/-- Bits of the X field. -/
def Va.xs (f : Va) (h l : Nat) : Nat := bitsOf f.x.toNat h l

/-- Operands A and B of thread `t` at a width, and the third register. -/
def vaA (s : State) (f : Va) (w t : Nat) : Nat := opcodeN s f.cl.toNat f.a f.bc w t
def vaB (s : State) (f : Va) (w t : Nat) : Nat := opcodeN s f.cl.toNat f.b f.bc w t
def vaC (s : State) (f : Va) (w t : Nat) : Nat := vregN s f.cl.toNat f.x.toNat w t

/-- A result of `w` bits for each active thread. -/
def vaPut (s : State) (f : Va) (l : LatClass) (w : Nat) (g : Nat → Nat) : State :=
  pendV s (Va.slot f) l f.cl.toNat f.d.toNat w g

/-- A function of A and B at the integer width. -/
def vaInt (f : Va) (l : LatClass) (s : State) (g : Nat → Nat → Nat → Nat) : Out :=
  let w := Va.w f
  .next (vaPut s f l w fun t => g w (vaA s f w t) (vaB s f w t))

/-- The latency of a division at an integer width (R313). -/
def divLat (f : Va) : LatClass := if f.ty == 3 then .fpDiv64 else .fpDiv

/-- The scalar format of TY, and whether it is a packed pair (R311). -/
def Va.fmt (f : Va) : Fmt :=
  match f.ty.toNat with
  | 0 => fmtF16 | 1 => fmtBf16 | 2 => fmtE4m3 | 3 => fmtE5m2 | 4 => fmtF16 | 5 => fmtBf16
  | 7 => fmtF64 | _ => fmtF32
def Va.pair (f : Va) : Bool := decide (f.ty.toNat < 2)
/-- The width of a floating register operand. -/
def Va.fw (f : Va) : Nat := if Va.pair f then 32 else (Va.fmt f).width
def fpLat (f : Va) : LatClass := if f.ty == 7 then .fp64 else .fpAdd

def rndOf (c : Nat) : Rnd := (Rnd.ofCode c).getD .rn

/-- Floating functions of one, two and three operands, on pairs too. -/
def vaFp1 (f : Va) (l : LatClass) (s : State) (g : Nat → Nat) : Out :=
  .next (vaPut s f l (Va.fw f) fun t =>
    if Va.pair f then halves1 g (vaA s f 32 t) else g (vaA s f (Va.fw f) t))
def vaFp2 (f : Va) (l : LatClass) (s : State) (g : Nat → Nat → Nat) : Out :=
  .next (vaPut s f l (Va.fw f) fun t =>
    if Va.pair f then halves2 g (vaA s f 32 t) (vaB s f 32 t)
    else g (vaA s f (Va.fw f) t) (vaB s f (Va.fw f) t))
def vaFma (f : Va) (r : Rnd) (s : State) : Out :=
  let g := fpFma (Va.fmt f) (arithCtx s.cur.fmt r)
  .next (vaPut s f (fpLat f) (Va.fw f) fun t =>
    if Va.pair f then halves3 g (vaA s f 32 t) (vaB s f 32 t) (vaC s f 32 t)
    else g (vaA s f (Va.fw f) t) (vaB s f (Va.fw f) t) (vaC s f (Va.fw f) t))

/-- IADD (R312): `add`, `sub`. -/
def execIadd (f : Va) (s : State) : Out :=
  vaInt f .intAdd s (if f.x.getLsbD 0 then aluSub else aluAdd)

/-- IMUL (R312): `mul`, `mul.hi.s`, `mul.hi.u`. -/
def execImul (f : Va) (s : State) : Out :=
  vaInt f .intMul s (match Va.xs f 1 0 with | 0 => aluMul | 1 => aluMulHiS | _ => aluMulHiU)

/-- IMAD (R312): `mad`. -/
def execImad (f : Va) (s : State) : Out :=
  let w := Va.w f
  .next (vaPut s f .intMul w fun t => aluMad w (vaA s f w t) (vaB s f w t) (vaC s f w t))

/-- IDIV (R312): `div.s`, `div.u`, `rem.s`, `rem.u`. -/
def execIdiv (f : Va) (s : State) : Out :=
  vaInt f (divLat f) s fun w a b =>
    let r := if f.x.getLsbD 0 then aluDivS w a b else aluDivU w a b
    if f.x.getLsbD 1 then r.2 else r.1

/-- ISAT (R312): the saturating additions and subtractions. -/
def execIsat (f : Va) (s : State) : Out :=
  vaInt f .intAdd s (match Va.xs f 1 0 with
    | 0 => aluAddSatU | 1 => aluAddSatS | 2 => aluSubSatU | _ => aluSubSatS)

/-- ICC (R312): `add.cc`, `sub.cc`, with the carry or borrow in kN. -/
def execIcc (f : Va) (s : State) : Out :=
  let w := Va.w f
  let sub := f.x.getLsbD 3
  let s' := vaPut s f .intAdd w fun t => (if sub then aluSub else aluAdd) w (vaA s f w t) (vaB s f w t)
  .next (pendK s' (Va.slot f) .intAdd (Va.xs f 2 0) fun t =>
    if sub then borrowOf w (vaA s f w t) (vaB s f w t) 0 else carryOf w (vaA s f w t) (vaB s f w t) 0)

/-- ICCI (R312): `addc`, `subc`. -/
def execIcci (f : Va) (s : State) : Out :=
  let w := Va.w f
  let sub := f.x.getLsbD 6
  let cin (t : Nat) : Nat := (kbit s (Va.xs f 5 3) t).toNat
  let s' := vaPut s f .intAdd w fun t =>
    (if sub then aluSubc else aluAddc) w (vaA s f w t) (vaB s f w t) (cin t)
  .next (pendK s' (Va.slot f) .intAdd (Va.xs f 2 0) fun t =>
    if sub then borrowOf w (vaA s f w t) (vaB s f w t) (cin t)
    else carryOf w (vaA s f w t) (vaB s f w t) (cin t))

/-- IMINMAX (R312). -/
def execIminmax (f : Va) (s : State) : Out :=
  vaInt f .intAdd s (match Va.xs f 1 0 with
    | 0 => aluMinU | 1 => aluMinS | 2 => aluMaxU | _ => aluMaxS)

/-- ILOGIC (R312). -/
def execIlogic (f : Va) (s : State) : Out :=
  vaInt f .intAdd s (match Va.xs f 1 0 with
    | 0 => aluAnd | 1 => aluOr | 2 => aluXor | _ => fun w a _ => aluNot w a)

/-- ISHIFT (R312): B is read as u32. -/
def execIshift (f : Va) (s : State) : Out :=
  let w := Va.w f
  let g := match Va.xs f 2 0 with
    | 0 => aluShl | 1 => aluShrU | 2 => aluShrS | 3 => aluRotl | _ => aluRotr
  .next (vaPut s f .intAdd w fun t => g w (vaA s f w t) (vaB s f 32 t))

/-- IUNARY (R312). -/
def execIunary (f : Va) (s : State) : Out :=
  vaInt f .intAdd s fun w a _ => match Va.xs f 2 0 with
    | 0 => aluClz w a | 1 => aluCtz w a | 2 => aluPopc w a | 3 => aluBrev w a
    | 4 => aluNeg w a | _ => aluAbs w a

/-- Position and length of a bit-field control word (R312). -/
def ctlPos (c : Nat) : Nat := c % 256
def ctlLen (c : Nat) : Nat := c / 256 % 256

/-- IBFE (R312): `bfe.u`, `bfe.s` under a control word. -/
def execIbfe (f : Va) (s : State) : Out :=
  let w := Va.w f
  .next (vaPut s f .intAdd w fun t =>
    let c := vaB s f 32 t
    (if f.x.getLsbD 0 then aluBfeS else aluBfeU) w (vaA s f w t) (ctlPos c) (ctlLen c))

/-- IBFC (R312): builds a control word. -/
def execIbfc (f : Va) (s : State) : Out :=
  .next (vaPut s f .intAdd 32 fun t => min (vaA s f 32 t) 64 + 256 * min (vaB s f 32 t) 64)

/-- IBFI (R312): `bfi` under the control word of the third register. -/
def execIbfi (f : Va) (s : State) : Out :=
  let w := Va.w f
  .next (vaPut s f .intAdd w fun t =>
    let c := vaC s f 32 t
    aluBfi w (vaA s f w t) (vaB s f w t) (ctlPos c) (ctlLen c))

/-- IEXT (R312): `zext`, `sext`, `trunc`. -/
def execIext (f : Va) (s : State) : Out :=
  let w := Va.w f
  let v := 8 * 2 ^ Va.xs f 3 2
  .next (vaPut s f .intAdd w fun t => match Va.xs f 1 0 with
    | 0 => low w (vaA s f v t) | 1 => aluSext v w (vaA s f v t) | _ => low w (vaA s f v t))

/-- NADR (R312): `nadd`, `nmake` and the two results of `nsplit`. -/
def execNadr (f : Va) (s : State) : Out :=
  .next (match Va.xs f 1 0 with
    | 0 => vaPut s f .intAdd 64 fun t => aluNadd (vaA s f 64 t) (vaB s f 64 t)
    | 1 => vaPut s f .intAdd 64 fun t => aluNmake (vaA s f 32 t) (vaB s f 32 t)
    | 2 => vaPut s f .intAdd 32 fun t => (aluNsplit (vaA s f 64 t)).1
    | _ => vaPut s f .intAdd 32 fun t => (aluNsplit (vaA s f 64 t)).2)

/-- NIDX (R312): `nidx`. -/
def execTbfNidx (f : Va) (s : State) : Out :=
  .next (vaPut s f .intMul 64 fun t => aluNidx (vaA s f 64 t) (vaB s f 64 t) (vaC s f 32 t))

/-- ICMP (R312): `cmp` on integers and addresses into kN. -/
def execIcmp (f : Va) (s : State) : Out :=
  let w := Va.w f
  let c := (Cond.ofCode (Va.xs f 2 0)).getD .eq
  .next (pendK s (Va.slot f) .intAdd (f.d.toNat % 8) fun t =>
    Cond.holds c (some (cmpInt w (f.x.getLsbD 3) (vaA s f w t) (vaB s f w t))))

/-- SEL (R312): `sel`. -/
def execTbfSel (f : Va) (s : State) : Out :=
  let w := Va.w f
  .next (vaPut s f .intAdd w fun t => if kbit s (Va.xs f 2 0) t then vaA s f w t else vaB s f w t)

/-- MOV (R312). -/
def execMov (f : Va) (s : State) : Out :=
  vaInt f .intAdd s fun _ a _ => a

/-- FADD (R312): `fadd`, `fsub` and their pair forms. -/
def execTbfFadd (f : Va) (s : State) : Out :=
  vaFp2 f (fpLat f) s ((if f.x.getLsbD 3 then fpSub else fpAdd) (Va.fmt f) (arithCtx s.cur.fmt (rndOf (Va.xs f 2 0))))

/-- FMUL (R312): `fmul`, `fmul.x2`. -/
def execTbfFmul (f : Va) (s : State) : Out :=
  vaFp2 f (fpLat f) s (fpMul (Va.fmt f) (arithCtx s.cur.fmt (rndOf (Va.xs f 2 0))))

/-- FMARN (R312): `fma`, `fma.x2`. -/
def execFmarn (f : Va) (s : State) : Out :=
  vaFma f .rn s

/-- FMARZ (R312): `fma`, `fma.x2`. -/
def execFmarz (f : Va) (s : State) : Out :=
  vaFma f .rz s

/-- FMAUP (R312): `fma`, `fma.x2`. -/
def execFmaup (f : Va) (s : State) : Out :=
  vaFma f .up s

/-- FMADN (R312): `fma`, `fma.x2`. -/
def execFmadn (f : Va) (s : State) : Out :=
  vaFma f .dn s

/-- FMAF (R312): `fma`, `fma.x2`. -/
def execFmaf (f : Va) (s : State) : Out :=
  vaFma f .fmt s

/-- FSPEC (R312): `fsqrt`, `frcp`, `frsq`, `exp2`, `log2`, `frint`. -/
def execFspec (f : Va) (s : State) : Out :=
  let c := arithCtx s.cur.fmt (rndOf (Va.xs f 2 0))
  let g := match Va.xs f 5 3 with
    | 0 => fpSqrt | 1 => fpRcp | 2 => fpRsq | 3 => fpExp2 | 4 => fpLog2 | _ => fpRint
  let l := if Va.xs f 5 3 = 5 then fpLat f else divLat { f with ty := if f.ty == 7 then 3 else 0 }
  vaFp1 f l s (g (Va.fmt f) c)

/-- FDIV (R312): `fdiv`. -/
def execTbfFdiv (f : Va) (s : State) : Out :=
  vaFp2 f (divLat { f with ty := if f.ty == 7 then 3 else 0 }) s
    (fpDiv (Va.fmt f) (arithCtx s.cur.fmt (rndOf (Va.xs f 2 0))))

/-- FMISC (R312): `fmin`, `fmax`, `fabs`, `fneg`, `fcopysign`, `fclass`. -/
def execFmisc (f : Va) (s : State) : Out :=
  match Va.xs f 2 0 with
  | 0 => vaFp2 f (fpLat f) s (fpMin (Va.fmt f))
  | 1 => vaFp2 f (fpLat f) s (fpMax (Va.fmt f))
  | 2 => vaFp1 f (fpLat f) s (fpAbs (Va.fmt f))
  | 3 => vaFp1 f (fpLat f) s (fpNeg (Va.fmt f))
  | 4 => vaFp2 f (fpLat f) s (fpCopysign (Va.fmt f))
  | _ => .next (pendK s (Va.slot f) (fpLat f) (f.d.toNat % 8) fun t =>
      (vaB s f 32 t).testBit (classBit (Va.fmt f) (vaA s f (Va.fw f) t)))

/-- FCMP (R312): floating `cmp` into kN. -/
def execFcmp (f : Va) (s : State) : Out :=
  let c := (Cond.ofCode (Va.xs f 2 0)).getD .eq
  .next (pendK s (Va.slot f) (fpLat f) (f.d.toNat % 8) fun t =>
    Cond.holds c (fvCmp ((Va.fmt f).decode (vaA s f (Va.fw f) t)) ((Va.fmt f).decode (vaB s f (Va.fw f) t))))

end Sys2Proof.Machine
end

