-- ==== Sys2Proof/Machine/NativeUniform.lean ====
section
/-! DEFINITION. Meanings of the uniform slot: each executes once per bundle, on s registers
(15_tbf_operations.md R314, R315, R324, R326). -/

namespace Sys2Proof.Machine

open Sys2Proof

def Us.xs (f : Us) (h l : Nat) : Nat := bitsOf f.x.toNat h l
/-- Operands A and B at a width. -/
def usA (s : State) (f : Us) (w : Nat) : Nat := uregN s f.a.toNat w
def usB (s : State) (f : Us) (w : Nat) : Nat := uregN s f.b.toNat w

/-- A uniform result of `w` bits. -/
def usPut (s : State) (d w x : Nat) : State := pendU s 0 .unif d (decide (w = 64)) (low w x)

/-- The value of integer function `fn` at width `w` (R312, R314), with its carry or borrow out. -/
def usInt (s : State) (fn : Nat) (f : Us) (w : Nat) : Nat × Option Bool :=
  let a := usA s f w
  let b := usB s f w
  let c (v : Nat) : Nat := uregN s (Us.xs f 5 0) v
  let sub := f.x.getLsbD 12
  let cin := uregN s (Us.xs f 11 6) 1
  match fn with
  | 1 => ((if f.x.getLsbD 0 then aluSub else aluAdd) w a b, none)
  | 2 => ((match Us.xs f 1 0 with | 0 => aluMul | 1 => aluMulHiS | _ => aluMulHiU) w a b, none)
  | 3 => (aluMad w a b (c w), none)
  | 5 => ((match Us.xs f 1 0 with
      | 0 => aluAddSatU | 1 => aluAddSatS | 2 => aluSubSatU | _ => aluSubSatS) w a b, none)
  | 6 => if sub then (aluSub w a b, some (borrowOf w a b 0)) else (aluAdd w a b, some (carryOf w a b 0))
  | 7 => if sub then (aluSubc w a b cin, some (borrowOf w a b cin))
      else (aluAddc w a b cin, some (carryOf w a b cin))
  | 8 => ((match Us.xs f 1 0 with | 0 => aluMinU | 1 => aluMinS | 2 => aluMaxU | _ => aluMaxS) w a b, none)
  | 9 => (match Us.xs f 1 0 with
      | 0 => aluAnd w a b | 1 => aluOr w a b | 2 => aluXor w a b | _ => aluNot w a, none)
  | 10 => ((match Us.xs f 2 0 with
      | 0 => aluShl | 1 => aluShrU | 2 => aluShrS | 3 => aluRotl | _ => aluRotr) w a (usB s f 32), none)
  | 11 => (match Us.xs f 2 0 with
      | 0 => aluClz w a | 1 => aluCtz w a | 2 => aluPopc w a | 3 => aluBrev w a
      | 4 => aluNeg w a | _ => aluAbs w a, none)
  | 12 => ((if f.x.getLsbD 0 then aluBfeS else aluBfeU) w a (ctlPos (usB s f 32)) (ctlLen (usB s f 32)), none)
  | 13 => (min (usA s f 32) 64 + 256 * min (usB s f 32) 64, none)
  | 14 => (aluBfi w a b (ctlPos (c 32)) (ctlLen (c 32)), none)
  | _ =>
    let v := 8 * 2 ^ Us.xs f 3 2
    ((match Us.xs f 1 0 with
      | 1 => aluSext v w (usA s f v)
      | _ => low w (usA s f v)), none)

/-- The integer functions (R314). -/
def execUsInteger (fn : BitVec 4) (ty : BitVec 2) (f : Us) (s : State) : Out :=
  let w := 8 * 2 ^ ty.toNat
  let (x, cc) := usInt s fn.toNat f w
  let s := usPut s f.d.toNat w x
  .next (match cc with
    | some b => usPut s (Us.xs f 5 0) 32 b.toNat
    | none => s)

/-- UNADR (R314): as NADR. -/
def execUnadr (f : Us) (s : State) : Out :=
  .next (match Us.xs f 1 0 with
    | 0 => usPut s f.d.toNat 64 (aluNadd (usA s f 64) (usB s f 64))
    | 1 => usPut s f.d.toNat 64 (aluNmake (usA s f 32) (usB s f 32))
    | 2 => usPut s f.d.toNat 32 (aluNsplit (usA s f 64)).1
    | _ => usPut s f.d.toNat 32 (aluNsplit (usA s f 64)).2)

/-- UNIDX (R314): as NIDX. -/
def execUnidx (f : Us) (s : State) : Out :=
  .next (usPut s f.d.toNat 64 (aluNidx (usA s f 64) (usB s f 64) (uregN s (Us.xs f 5 0) 32)))

/-- UCMP (R314). -/
def execUcmp (f : Us) (s : State) : Out :=
  let w := 8 * 2 ^ Us.xs f 5 4
  let c := (Cond.ofCode (Us.xs f 2 0)).getD .eq
  .next (usPut s f.d.toNat 32 (Cond.holds c (some (cmpInt w (f.x.getLsbD 3) (usA s f w) (usB s f w)))).toNat)

/-- USEL (R314). -/
def execUsel (f : Us) (s : State) : Out :=
  let w := if f.x.getLsbD 6 then 64 else 32
  .next (usPut s f.d.toNat w (if uregN s (Us.xs f 5 0) 32 ≠ 0 then usA s f w else usB s f w))

/-- UMOV (R314). -/
def execUmov (f : Us) (s : State) : Out :=
  let w := if f.x.getLsbD 0 then 64 else 32
  .next (usPut s f.d.toNat w (usA s f w))

/-- UMOVI (R314). -/
def execUmovi (d : BitVec 6) (imm : BitVec 26) (s : State) : Out :=
  .next (usPut s d.toNat 32 (lowI 32 imm.toInt))

/-- ULDK (R314). -/
def execUldk (d : BitVec 6) (wide : Bool) (k : BitVec 20) (s : State) : Out :=
  .next (usPut s d.toNat (if wide then 64 else 32) (imgConst (imageOf s s.cur) k.toNat))

/-- UID (R228, R314): a pair for TEAM_BASE. -/
def execUid (f : Us) (s : State) : Out :=
  let k := Us.xs f 7 0
  .next (usPut s f.d.toNat (if k = 8 then 64 else 32) (identity s k (leader s)))

/-- UCLOCK (R229, R314). -/
def execUclock (f : Us) (s : State) : Out := .next (usPut s f.d.toNat 64 s.tick)

/-- UGETFMT (R226, R314). -/
def execUgetfmt (f : Us) (s : State) : Out := .next (usPut s f.d.toNat 32 s.cur.fmt.toNat)

/-- USETFMT (R226, R314). -/
def execUsetfmt (f : Us) (s : State) : Out :=
  let mask : BitVec 4 := BitVec.ofNat 4 (Us.xs f 3 0)
  let v : Word := BitVec.ofNat 32 (usA s f 32)
  if fmtBad mask v then .next (raise s .format)
  else .next (pend s 0 .unif (.fmt mask) 0 [v.zeroExtend 64])

/-- URSEED (R227, R314). -/
def execUrseed (f : Us) (s : State) : Out :=
  let v : BitVec 64 := lane (usA s f 64)
  let g := (reseed s v).cur.gen
  .next (pend s 0 .unif .seed 0 ([g.x, g.y, g.z, g.w, g.v].map (fun x : Word => (x.zeroExtend 64 : Lane)) ++ [v]))

/-- UCVSET (R315). -/
def execUcvset (f : Us) (s : State) : Out := .next (pend s 0 .unif .cvctl 0 [lane (Us.xs f 12 0)])

/-! ## TSHAPE (R324) -/

/-- The byte image of a tile under its shape. -/
def Tile.image (t : Tile) : List Byte := t.data.flatMap fun x => natBytes (TileDesc.bytes t.desc) x.toNat

/-- A tile under a new shape: an element that reaches past the old image reads zero. -/
def Tile.reshape (t : Tile) (d : TileDesc) : Tile :=
  let img := Tile.image t
  let b := TileDesc.bytes d
  { desc := d,
    data := (List.range (TileDesc.count d)).map fun i =>
      if (i + 1) * b ≤ img.length then BitVec.ofNat 32 (leNat ((img.drop (i * b)).take b)) else 0 }

/-- TSHAPE (R324). -/
def execTshape (tn : BitVec 4) (elem : BitVec 4) (colsM1 rowsM1 : BitVec 7) (s : State) : Out :=
  match Elem.ofCode elem.toNat with
  | some e => .next (pendTile s tn.toNat (Tile.reshape (tileReg s tn.toNat) { elem := e, colsM1, rowsM1 }))
  | none => .next s

/-! ## Predicates -/

/-- PLOGIC (R314). -/
def execPlogic (f : Us) (s : State) : Out :=
  let a := kregGet (nat s) (f.a.toNat % 8)
  let b := kregGet (nat s) (f.b.toNat % 8)
  let r := match Us.xs f 1 0 with
    | 0 => a &&& b
    | 1 => a ||| b
    | 2 => a ^^^ b
    | _ => ~~~a
  .next (pend s 0 .unif (.k (f.d.toNat % 8)) s.cur.active [r])

/-- KFROMS (R314). -/
def execKfroms (f : Us) (s : State) : Out :=
  let k := f.d.toNat % 8
  if f.x.getLsbD 0 then
    .next (pend s 0 .unif (.k k) (BitVec.allOnes 64) [uget s.cur f.a.toNat true])
  else
    .next (pend s 0 .unif (.k k) s.cur.active [if usA s f 32 ≠ 0 then BitVec.allOnes 64 else 0])

/-- STOK (R314). -/
def execStok (f : Us) (s : State) : Out :=
  .next (usPut s f.d.toNat 64 (kregGet (nat s) (f.a.toNat % 8)).toNat)

/-! ## Memory (R314; the `uni` forms of R168 to R178) -/

def umemBytes (f : Umem) : Nat := 2 ^ f.size.toNat

/-- The near address of a uniform access. -/
def umemAddr (s : State) (f : Umem) : Nat :=
  if f.loc then
    let x := uregN s f.a.toNat 32
    if x < 2 ^ 22 then localAddr s s.cur x else 2 ^ 36 + x
  else uregN s f.a.toNat 64

/-- Destinations of `n` bytes from register `d`: a pair for each 8 bytes. -/
def umemDsts (d n x : Nat) : List (Dst × Mask × List Lane) :=
  if n ≤ 4 then [(.s d false, 0, [lane x])]
  else if n = 8 then [(.s d true, 0, [lane x])]
  else [(.s d true, 0, [lane (low 64 x)]), (.s (d + 2) true, 0, [lane (x / 2 ^ 64)])]

/-- `n` bytes of data from register `d`. -/
def umemData (s : State) (d n : Nat) : Nat :=
  if n ≤ 4 then uregN s d (8 * n)
  else if n = 8 then uregN s d 64
  else uregN s d 64 + uregN s (d + 2) 64 * 2 ^ 64

/-- ULD (R170, R314). -/
def execUld (f : Umem) (s : State) : Out :=
  let n := umemBytes f
  match checkNear s [(0, umemAddr s f)] (orderAlign f.order n) n false with
  | .error e => .next (raise s e)
  | .ok ks => reading s (ks.map fun k => (k.2, n)) fun s =>
    let r := groupReach s s.cur f.scope.toNat
    let s := orderBefore s f.order r
    let (x, s) := loadAccess s ((assocGet 0 ks).getD 0) n
    .next (varOp (orderAfter s f.order r (ks.flatMap fun k => keysFrom n k.2)) (clauseFlags s).2 (umemDsts f.d.toNat n x))

/-- UST (R170, R314). -/
def execUst (f : Umem) (s : State) : Out :=
  let n := umemBytes f
  match checkNear s [(0, umemAddr s f)] (orderAlign f.order n) n true with
  | .error e => .next (raise s e)
  | .ok ks =>
    let r := groupReach s s.cur f.scope.toNat
    let s := orderBefore s f.order r
    let s := storeAccess s ((assocGet 0 ks).getD 0) n (umemData s f.d.toNat n) (storeCarries s f.order r)
    .next (varOp (if f.order == .seqCst then scFence s r else s) (clauseFlags s).2 [])

/-- The atomic functions by the low nibble of their opcode (R134, R173): the new word from the old one,
the datum and, for a cas, the new value. -/
def atomFn (fn w old v new : Nat) : Nat :=
  match fn with
  | 0 => aluAdd w old v
  | 1 => aluMinS w old v
  | 2 => aluMinU w old v
  | 3 => aluMaxS w old v
  | 4 => aluMaxU w old v
  | 5 => aluAnd w old v
  | 6 => aluOr w old v
  | 7 => aluXor w old v
  | 8 => v
  | 9 => if old = v then new else old
  | _ => fpAdd fmtF32 ⟨.rn, true⟩ old v

/-- UATOM (R173, R314). -/
def execUatom (f : Umem) (s : State) : Out :=
  let n := umemBytes f
  match checkNear s [(0, umemAddr s f)] n n true with
  | .error e => .next (raise s e)
  | .ok ks => reading s (ks.map fun k => (k.2, n)) fun s =>
    let r := groupReach s s.cur f.scope.toNat
    let v := umemData s f.d.toNat n
    let new := umemData s f.b.toNat n
    let (old, s) := atomicAt s ((assocGet 0 ks).getD 0) n f.order r fun old =>
      some (atomFn f.fn.toNat (8 * n) old v new)
    .next (varOp s (clauseFlags s).2 (umemDsts f.d.toNat n old))

/-- UFE (R176 to R178, R314): success or the full bit goes to the second register. -/
def execUfe (f : Umem) (s : State) : Out :=
  let fn := f.fn.toNat
  let give := fn = 1 ∨ fn = 3
  let a := umemAddr s f
  match checkNear s [(0, a)] 8 8 give with
  | .error e => .next (raise s e)
  | .ok ks =>
    let k := (assocGet 0 ks).getD 0
    let r := groupReach s s.cur f.scope.toNat
    let v := uget s.cur f.d.toNat true
    let two (s : State) (x : Nat) (b : Bool) : State :=
      varOp s (clauseFlags s).2 [(.s f.d.toNat true, 0, [lane x]), (.s f.b.toNat false, 0, [laneB b])]
    match fn with
    | 0 | 1 => .next (feBegin s { give, uni := true, addrs := [lane a], data := [v], pending := 1, got := [],
                                  order := f.order, scope := f.scope, dst := .sreg f.d.toNat, flag := none }
        (clauseFlags s).2)
    | 2 => reading s [(k, 8)] fun s =>
      match feTake s k f.order r with
      | (some x, s) => .next (two s x true)
      | (none, s) => .next (two s 0 false)
    | 3 => reading s [(k, 8)] fun s =>
      let (ok, s) := feGive s k v.toNat f.order r
      .next (varOp s (clauseFlags s).2 [(.s f.b.toNat false, 0, [laneB ok])])
    | _ => reading s [(k, 8)] fun s =>
      let (x, full, s) := fePeek s k f.order r
      .next (two s x full)

/-- Where a slot of the uniform part stands in the group's spill area (R273). -/
def uniSlot (s : State) (slot : BitVec 13) : Nat :=
  (match transOf s (nat s).tr with
   | some t => t.uniOff
   | none => 0) + 8 * slot.toNat

/-- USPILL (R314): the slot counts from the start of the uniform spill area. -/
def execUspill (r : BitVec 6) (wide : Bool) (slot : BitVec 13) (s : State) : Out :=
  let n := if wide then 8 else 4
  .next (varOp (spillUStore s s.cur (uniSlot s slot) n (uregN s r.toNat (8 * n))) (clauseFlags s).2 [])

/-- UFILL (R314). -/
def execUfill (r : BitVec 6) (wide : Bool) (slot : BitVec 13) (s : State) : Out :=
  let off := uniSlot s slot
  reading s [(spillKey s.cur off, 8)] fun s =>
    .next (varOp s (clauseFlags s).2 [(.s r.toNat wide, 0, [lane (spillU s s.cur off)])])

/-! ## Tokens, barriers, triggers, markers, batches -/

/-- UTOKT (R200, R314). -/
def execUtokt (f : Us) (s : State) : Out :=
  let h : Word := BitVec.ofNat 32 (usA s f 32)
  if tokenDone s.cur h then
    match tokenErr s.cur h with
    | some e => .next (raiseAt (setCur s fun g => observed g h) e.trap e.ppc)
    | none => .next (usPut (tokenAcquire s h) f.d.toNat 32 1)
  else .next (usPut s f.d.toNat 32 0)

/-- UBAR (R181, R314). -/
def execUbar (f : Us) (s : State) : Out :=
  let b := Us.xs f 4 0
  if noBarriers s.cur then .next (raise s .barrierScope)
  else
    let (p, two) := nextPhase s s.cur b
    let s := noteArrival s b p
    if two then .next (waitOn s [.barrier b (p - 2)] (.arrive b (some f.d.toNat)))
    else .next (usPut (arriveAt s s.cur b) f.d.toNat 32 p.toNat)

/-- UTRIG (R210, R314). -/
def execUtrig (s : State) : Out := .next (triggerNow s)

/-- UMARK (R230, R314): the issue of its bundle compares cycles (R349). -/
def execUmark (_code : BitVec 16) (s : State) : Out := .next s

/-- MFENCE (R243, R326). -/
def execTbfMfence (d : BitVec 6) (s : State) : Out :=
  match closeBatch s with
  | none => .next s
  | some (n, s) => .next (usPut s d.toNat 32 n.toNat)

end Sys2Proof.Machine
end

