-- ==== Sys2Proof/Machine/NativeVm.lean ====
section
/-! DEFINITION. Meanings of the VM slot: vector memory, full/empty accesses, spill and fill, moves, group
operations, tiles and matrix operations; and of the CV slot (15_tbf_operations.md R316 to R325). -/

namespace Sys2Proof.Machine

open Sys2Proof

/-! ## Near memory (R317 to R319) -/

/-- Destinations of `n` bytes per thread from register `d`: a pair for each 8 bytes. -/
def vmemDsts (cl d n : Nat) (m : Mask) (x : Nat → Nat) (w : Nat) : List (Dst × Mask × List Lane) :=
  let lanes (f : Nat → Nat) : List Lane := (List.range w).map fun t => lane (f t)
  if n ≤ 4 then [(.v cl d false, m, lanes x)]
  else if n = 8 then [(.v cl d true, m, lanes x)]
  else [(.v cl d true, m, lanes fun t => low 64 (x t)),
        (.v cl (d + 2) true, m, lanes fun t => x t / 2 ^ 64)]

/-- `n` bytes of thread `t` from register `d`. -/
def vmemData (s : State) (cl d n t : Nat) : Nat :=
  if n ≤ 4 then vregN s cl d (8 * n) t
  else if n = 8 then vregN s cl d 64 t
  else vregN s cl d 64 t + vregN s cl (d + 2) 64 t * 2 ^ 64

/-- The near address of thread `t`. -/
def vmemAddr (s : State) (f : Vmem) (t : Nat) : Nat :=
  if f.loc then
    let x := opcodeN s f.cl.toNat f.ad f.bc 32 t
    if x < 2 ^ 22 then localAddr s s.cur x else 2 ^ 36 + x
  else opcodeN s f.cl.toNat f.ad f.bc 64 t

/-- A number that each thread has collected. -/
def oneOf (rs : List (Nat × List Lane)) (i t : Nat) : Nat := (((assocGet t rs).getD []).getD i 0).toNat

/-- VLD (R170, R317). -/
def execVld (f : Vmem) (s : State) : Out :=
  let n := 2 ^ f.size.toNat
  match checkNear s ((actives s).map fun t => (t, vmemAddr s f t)) (orderAlign f.order n) n false with
  | .error e => .next (raise s e)
  | .ok ks => reading s (ks.map fun k => (k.2, n)) fun s =>
    let r := groupReach s s.cur f.scope.toNat
    let s := orderBefore s f.order r
    let (rs, s) := eachThread (fun t s =>
      let (x, s) := loadAccess s ((assocGet t ks).getD 0) n
      ([lane (low 64 x), lane (x / 2 ^ 64)], s)) (ks.map (·.1)) s
    .next (varOp (orderAfter s f.order r (ks.flatMap fun k => keysFrom n k.2)) (clauseFlags s).1
      (vmemDsts f.cl.toNat f.dv.toNat n s.cur.active
        (fun t => oneOf rs 0 t + oneOf rs 1 t * 2 ^ 64) s.cur.width))

/-- VST (R170, R317). -/
def execVst (f : Vmem) (s : State) : Out :=
  let n := 2 ^ f.size.toNat
  match checkNear s ((actives s).map fun t => (t, vmemAddr s f t)) (orderAlign f.order n) n true with
  | .error e => .next (raise s e)
  | .ok ks =>
    let r := groupReach s s.cur f.scope.toNat
    let s1 := orderBefore s f.order r
    let cs := storeCarries s1 f.order r
    let s2 := ks.foldl (fun s' k =>
      storeAccess s' k.2 n (vmemData s f.cl.toNat f.dv.toNat n k.1) cs) s1
    .next (varOp (if f.order == .seqCst then scFence s2 r else s2) (clauseFlags s).1 [])

/-- VLDK (R171, R317): the entry gives the constant's place in the translation and its element count. -/
def execVldk (f : Vldk) (s : State) : Out :=
  let n := 2 ^ f.size.toNat
  let img := imageOf s s.cur
  let e := imgConst img f.k.toNat
  let idx (t : Nat) : Nat := opcodeN s f.cl.toNat f.ad f.bc 32 t
  if (actives s).all fun t => decide (idx t < e / 2 ^ 32) then
    .next (varOp s (clauseFlags s).1
      (vmemDsts f.cl.toNat f.dv.toNat n s.cur.active
        (fun t => objBytes img n (e % 2 ^ 32 + n * idx t)) s.cur.width))
  else .next (raise s .constRange)

/-- VATOM (R173, R318). -/
def execVatom (f : Vatom) (s : State) : Out :=
  let n := if f.w64 then 8 else 4
  let cl := f.cl.toNat
  match checkNear s ((actives s).map fun t => (t, vregN s cl f.ap.toNat 64 t)) n n true with
  | .error e => .next (raise s e)
  | .ok ks => reading s (ks.map fun k => (k.2, n)) fun s =>
    let r := groupReach s s.cur f.scope.toNat
    let cas := f.fn == 9
    let v (t : Nat) : Nat := if cas then vregN s cl f.d.toNat (8 * n) t else vregN s cl f.v.toNat (8 * n) t
    let (rs, s') := eachThread (fun t s' =>
      let (old, s') := atomicAt s' ((assocGet t ks).getD 0) n f.order r fun old =>
        some (atomFn f.fn.toNat (8 * n) old (v t) (vregN s cl f.v.toNat (8 * n) t))
      ([lane old], s')) (ks.map (·.1)) s
    .next (varOp s' (clauseFlags s).1
      (if f.nores then [] else vmemDsts cl f.d.toNat n s.cur.active (oneOf rs 0) s.cur.width))

/-- VFE (R176, R177, R319). -/
def execVfe (f : Vfe) (s : State) : Out :=
  let cl := f.cl.toNat
  let fn := f.fn.toNat
  let give := decide (fn = 1 ∨ fn = 3)
  let addr (t : Nat) : Nat := opcodeN s cl f.ad f.bc 64 t
  let data (t : Nat) : Nat := vregN s cl f.d.toNat 64 t
  match checkNear s ((actives s).map fun t => (t, addr t)) 8 8 give with
  | .error e => .next (raise s e)
  | .ok ks =>
    if fn ≤ 1 then
      let w := s.cur.width
      .next (feBegin s { give, uni := false, addrs := (List.range w).map fun t => lane (addr t),
                         data := (List.range w).map fun t => lane (data t), pending := s.cur.active, got := [],
                         order := f.order, scope := f.scope, dst := .vreg cl f.d.toNat none, flag := none }
        (clauseFlags s).1)
    else reading s (ks.map fun k => (k.2, 8)) fun s =>
      let r := groupReach s s.cur f.scope.toNat
      let one (t : Nat) (s' : State) : List Lane × State :=
        let k := (assocGet t ks).getD 0
        match fn with
        | 2 => match feTake s' k f.order r with
          | (some x, s') => ([lane x, 1], s')
          | (none, s') => ([0, 0], s')
        | 3 =>
          let (ok, s') := feGive s' k (data t) f.order r
          ([0, laneB ok], s')
        | _ =>
          let (x, full, s') := fePeek s' k f.order r
          ([lane x, laneB full], s')
      let (rs, s') := eachThread one (ks.map (·.1)) s
      let vals := if fn = 3 then []
        else vmemDsts cl f.d.toNat 8 s.cur.active (oneOf rs 0) s.cur.width
      let ok : List (Dst × Mask × List Lane) := if f.kv then
          [(.k f.k.toNat, s.cur.active, [maskOf ((actives s).filter fun t => oneOf rs 1 t == 1)])] else []
      .next (varOp s' (clauseFlags s).1 (vals ++ ok))

/-! ## Spill, fill and moves (R320, R321) -/

/-- VSPILL (R320). -/
def execVspill (f : Vspill) (s : State) : Out :=
  let n := nat s
  let off := 8 * f.slot.toNat
  let put (s : State) (i : Nat) : State :=
    spillStore s s.cur (off + 4 * s.cur.width * i)
      ((List.range s.cur.width).map fun t => (vregGet n f.cl.toNat (f.d.toNat + i)).getD t 0)
  let s' := put s 0
  .next (varOp (if f.w64 then put s' 1 else s') (clauseFlags s).1 [])

/-- VFILL (R320). -/
def execVfill (f : Vspill) (s : State) : Out :=
  let off := 8 * f.slot.toNat
  let w := s.cur.width
  reading s [(spillKey s.cur off, if f.w64 then 8 * w else 4 * w)] fun s =>
    let lo := spillWords s s.cur off
    let hi := spillWords s s.cur (off + 4 * w)
    .next (varOp s (clauseFlags s).1 [(.v f.cl.toNat f.d.toNat f.w64, fullMask w,
      (List.range w).map fun t => pairWord (lo.getD t 0) (if f.w64 then hi.getD t 0 else 0))])

def bits64 (w64 : Bool) : Nat := if w64 then 64 else 32

/-- XMV (R321). -/
def execXmv (f : XmvF) (s : State) : Out :=
  .next (pendV s 3 .xmv f.cl.toNat f.d.toNat (bits64 f.w64)
    (vregN s f.scl.toNat f.src.toNat (bits64 f.w64)))

/-- VTOS (R213, R321). -/
def execVtos (f : VtosF) (s : State) : Out :=
  .next (pendU s 3 .cross f.s.toNat f.w64 (vregN s f.cl.toNat f.src.toNat (bits64 f.w64) (leader s)))

/-! ## Group operations (R322) -/

/-- VXLANE (R212, R322). -/
def execVxlane (f : VxlaneF) (s : State) : Out :=
  let cl := f.cl.toNat
  let w := s.cur.width
  let x := (List.range w).map fun t => lane (vregN s cl f.x.toNat (bits64 f.w64) t)
  let pick := xlanePick w s.cur.active f.mode x fun t => opcodeN s cl f.n f.bc 32 t
  let s' := pendV s 3 .cross cl f.d.toNat (bits64 f.w64) fun t => ((pick t).getD 0 0).toNat
  .next (if f.kv then pendK s' 3 .cross f.k.toNat fun t => (pick t).getD 1 0 == 1 else s')

/-- VLANES (R213, R322). -/
def execVlanes (f : VlanesF) (s : State) : Out :=
  let m := kregGet (nat s) f.k.toNat &&& s.cur.active
  .next (match f.fn.toNat with
    | 0 => pendK s 3 .cross (f.d.toNat % 8) fun _ => m != 0
    | 1 => pendK s 3 .cross (f.d.toNat % 8) fun _ => m == s.cur.active
    | _ => pendV s 3 .cross f.cl.toNat f.d.toNat 64 fun _ => m.toNat)

/-- The Value Form type of a TY code (R311). -/
def tyOfCode (c : Nat) : Ty :=
  match c with
  | 0 => .i8 | 1 => .i16 | 2 => .i32 | 3 => .i64 | 4 => .f16 | 5 => .bf16 | 6 => .f32 | _ => .f64

/-- VGRP (R214, R322). -/
def execVgrp (f : VgrpF) (s : State) : Out :=
  let ty := tyOfCode f.ty.toNat
  let g := match f.fn.toNat with
    | 0 => addOf s.cur.fmt ty (rndOf f.rnd.toNat)
    | 1 => minOf ty f.signed
    | _ => maxOf ty f.signed
  let r := groupReduce s.cur.width s.cur.active g fun t => canonOf ty (vregN s f.cl.toNat f.x.toNat ty.width t)
  .next (pendV s 3 .cross f.cl.toNat f.d.toNat ty.width fun _ => r)

/-- VCONF (R215, R322). -/
def execVconf (f : VconfF) (s : State) : Out :=
  let pick := conflictPick s.cur.active (vregN s f.cl.toNat f.key.toNat (8 * 2 ^ f.wc.toNat))
  let s' := pendV s 3 .cross f.cl.toNat f.d.toNat 64 fun t => ((pick t).getD 0 0).toNat
  .next (if f.kv then pendK s' 3 .cross f.k.toNat fun t => (pick t).getD 1 0 == 1 else s')

/-! ## Tiles (R323) -/

/-- TLD (R236, R323). -/
def execTld (f : TmemF) (s : State) : Out :=
  tileLoad s (tileReg s f.tn.toNat).desc (uregN s f.a.toNat 64) (uregN s f.pitch.toNat 32) f.tr fun s' t =>
    varOp s' (clauseFlags s).1 [(.tile f.tn.toNat t, 0, [])]

/-- TST (R236, R323). -/
def execTst (f : TmemF) (s : State) : Out :=
  tileStore s (tileReg s f.tn.toNat) (uregN s f.a.toNat 64) (uregN s f.pitch.toNat 32) f.tr fun s' =>
    varOp s' (clauseFlags s).1 []

/-- TZERO (R235, R323). -/
def execTzero (tn : BitVec 4) (s : State) : Out :=
  .next (pendTile s tn.toNat (Tile.zero (tileReg s tn.toNat).desc))

/-- TFILL (R235, R323). -/
def execTfill (tn : BitVec 4) (r : BitVec 6) (s : State) : Out :=
  .next (pendTile s tn.toNat (Tile.fill (tileReg s tn.toNat).desc (uregN s r.toNat 32)))

/-- TEXT (R238, R323). -/
def execText (f : TelemF) (s : State) : Out :=
  let x := tileReg s f.tn.toNat
  .next (pendV s 3 .cross f.cl.toNat f.d.toNat 32 fun t =>
    tileAt x (vregN s f.cl.toNat f.r.toNat 32 t) (vregN s f.cl.toNat f.c.toNat 32 t))

/-- TINS (R238, R323). -/
def execTins (f : TelemF) (s : State) : Out :=
  let cl := f.cl.toNat
  .next (pendTile s f.tn.toNat ((actives s).foldl (fun y t =>
    Tile.put y (vregN s cl f.r.toNat 32 t) (vregN s cl f.c.toNat 32 t) (vregN s cl f.d.toNat 32 t))
    (tileReg s f.tn.toNat)))

/-- TCOPY (R323). -/
def execTcopy (td ts : BitVec 4) (s : State) : Out := .next (pendTile s td.toNat (tileReg s ts.toNat))

/-! ## Matrix operations (R325) -/

/-- A native operation with its tile registers read. -/
def natJob (s : State) (kind keep : Nat) (f : TmmaF) : MmaJob :=
  let from_ := pendingD s.cur f.tc.toNat true
  let c := tileReg s f.tc.toNat
  let desc := match (openJobs s.cur).find? fun j => some j.no == from_ with
    | some j => j.desc
    | none => c.desc
  { kind, fmtE8 := false, signA := kind == 3 && f.sfmt.getLsbD 0, signB := kind == 3 && f.sfmt.getLsbD 1,
    keep, a := tileReg s f.ta.toNat, b := tileReg s f.tb.toNat, c,
    m := if keep = 0 then none else some (tileReg s f.tm.toNat),
    sa := if kind = 0 then some (tileReg s f.ts.toNat) else none,
    sb := sregGet (nat s) f.sb.toNat, cFrom := from_, desc, no := 0, depth := 0,
    dst := f.td.toNat, tbf := true, ppc := (0, 0), batch := none, failed := false }

/-- MMAF8S (R240, R325). -/
def execMmaf8s (f : TmmaF) (s : State) : Out := .next (openMma s (natJob s 0 0 f) f.sfmt id)

/-- MMABF16 (R241, R325). -/
def execMmabf16 (f : TmmaF) (s : State) : Out := .next (openMma s (natJob s 1 0 f) 1 id)

/-- MMAF16 (R241, R325). -/
def execMmaf16 (f : TmmaF) (s : State) : Out := .next (openMma s (natJob s 2 0 f) 1 id)

/-- MMAI8 (R241, R325). -/
def execMmai8 (f : TmmaF) (s : State) : Out := .next (openMma s (natJob s 3 0 f) 1 id)

/-- MMASP (R242, R325). -/
def execMmasp (form keep : BitVec 2) (f : TmmaF) (s : State) : Out :=
  .next (openMma s (natJob s form.toNat (16 * (keep.toNat + 1)) f) (if form == 0 then f.sfmt else 1) id)

/-! ## Conversions (R315, R316) -/

/-- The fields of CVCTL. -/
def cvSrc (c : BitVec 13) : Ty := tyOf (bitsOf c.toNat 7 4)
def cvDst (c : BitVec 13) : Ty := tyOf (bitsOf c.toNat 3 0)
def cvRnd (c : BitVec 13) : Rnd := rndOf (bitsOf c.toNat 10 8)

/-- A conversion of every active thread, which draws a word per beat when it rounds stochastically. -/
def natConvert (s : State) (f : CvF) (dst : Ty) (stoch : Bool) (g : (rho t : Nat) → Nat) : Out :=
  let (ws, s') := if stoch then drawWords ((s.cur.width + 15) / 16) s else ([], s)
  .next (pendV s' 4 .conv f.cl.toNat f.d.toNat dst.width fun t => g (rhoOf ws t) t)

/-- CVT (R155, R316). -/
def execCvtOp (f : CvF) (s : State) : Out :=
  let c := (nat s).cvctl
  let src := cvSrc c
  let dst := cvDst c
  let x (t : Nat) : Nat := vregN s f.cl.toNat f.a.toNat src.width t
  let fmt := s.cur.fmt
  natConvert s f dst (dst.isFloat && rndStoch fmt (cvRnd c)) fun rho t =>
    if dst.isFloat then
      if src.isFloat then fpConv (fmtOf src) (fmtOf dst) (convCtx fmt (cvRnd c) rho) (x t)
      else intToFp src.width (c.getLsbD 11) (fmtOf dst) (convCtx fmt (cvRnd c) rho) (x t)
    else fpToInt (fmtOf src) dst.width (c.getLsbD 12) (rndMode fmt (cvRnd c)) (x t)

/-- CVTS (R156, R316). -/
def execCvts (f : CvF) (s : State) : Out :=
  let c := (nat s).cvctl
  let src := cvSrc c
  let dst := cvDst c
  let fmt := s.cur.fmt
  natConvert s f dst (rndStoch fmt (cvRnd c)) fun rho t =>
    fpScaled (fmtOf src) (fmtOf dst) (convCtx fmt (cvRnd c) rho)
      (vregN s f.cl.toNat f.a.toNat src.width t) (vregN s f.cl.toNat (f.a.toNat + 1) 32 t)

/-- The element of a format. -/
def elemOfTy : Ty → Elem
  | .i16 => .i16 | .i32 => .i32 | .e4m3 => .e4m3 | .e5m2 => .e5m2 | .f16 => .f16 | .bf16 => .bf16
  | .f32 => .f32 | _ => .i8

/-- TCVT (R237, R316). -/
def execTcvt (td ts : BitVec 4) (s : State) : Out :=
  let c := (nat s).cvctl
  let x := tileReg s ts.toNat
  let (t, s) := tileConvert s x { x.desc with elem := elemOfTy (cvDst c) } (cvRnd c) (c.getLsbD 11) (c.getLsbD 12)
  .next (pendTile s td.toNat t)

end Sys2Proof.Machine
end

