-- ==== Sys2Proof/Machine/NativeOther.lean ====
section
/-! DEFINITION. Meanings of the EN and BR slots: engine commands from operand blocks, branches, the native
reconvergence stack, exits, waits, and the creation of work (15_tbf_operations.md R327 to R335). -/

namespace Sys2Proof.Machine

open Sys2Proof

/-! ## Operand blocks (R327) -/

/-- Reads operands from uniform registers from `r`: `true` for 64 bits on the next even pair. -/
def readBlock (s : State) : (r : Nat) → List Bool → List Nat
  | _, [] => []
  | r, false :: ws => uregN s r 32 :: readBlock s (r + 1) ws
  | r, true :: ws => uregN s (r + r % 2) 64 :: readBlock s (r + r % 2 + 2) ws

/-- The widths of a pattern's operands. -/
def patWidths (levels : Nat) : List Bool :=
  [true, false] ++ (List.range (levels - 1)).flatMap fun _ => [false, true]

/-- Counts and strides of the outer levels. -/
def pairLevels : List Nat → List (Nat × Int)
  | c :: st :: rest => (c, sgn 64 st) :: pairLevels rest
  | _ => []

def blockPat (xs : List Nat) (near : Bool) : Pat :=
  { base := xs.getD 0 0, near, c0 := xs.getD 1 0, lv := pairLevels (xs.drop 2) }

/-- Issues an EN command: the token handle lands in sBASE. -/
def enIssue (f : EnF) (s : State) (op : EngOp) : Out :=
  let m := f.mod.toNat
  let acq := if bitOf m 7 then some (bitsOf m 6 4) else none
  let rel := if bitOf m 3 then some (bitsOf m 2 0) else none
  match issueCmd s op acq rel (some f.cn.toNat) with
  | .trap t => .next (raise s t)
  | .wait => .next s
  | .done h s => .next (pendU s 5 .unif f.base.toNat false h.toNat)

/-- MOD2 of the block. -/
def enMod2 (s : State) (f : EnF) : Nat := uregN s f.base.toNat 32

/-- The source and destination patterns of the block, with the space of each. -/
def enPats (s : State) (f : EnF) (srcNear dstNear : Bool) : Pat × Pat :=
  let m := enMod2 s f
  let sw := patWidths (bitsOf m 2 0)
  let xs := readBlock s (f.base.toNat + 2) (sw ++ patWidths (bitsOf m 5 3))
  (blockPat (xs.take sw.length) srcNear, blockPat (xs.drop sw.length) dstNear)

/-- EN_COPY_IN (R193, R327). -/
def execEnCopyIn (f : EnF) (s : State) : Out :=
  let (a, b) := enPats s f false true
  enIssue f s (.copy a b)

/-- EN_COPY_OUT (R193, R327). -/
def execEnCopyOut (f : EnF) (s : State) : Out :=
  let (a, b) := enPats s f true false
  enIssue f s (.copy a b)

/-- EN_COPY_NEAR (R193, R327). -/
def execEnCopyNear (f : EnF) (s : State) : Out :=
  let (a, b) := enPats s f true true
  enIssue f s (.copy a b)

/-- EN_REDUCE_FAR (R195, R327). -/
def execEnReduceFar (f : EnF) (s : State) : Out :=
  let (a, b) := enPats s f true false
  let m := enMod2 s f
  enIssue f s (.reduce a b (BitVec.ofNat 4 (bitsOf m 9 6)) (BitVec.ofNat 2 (bitsOf m 11 10)))

/-- The block of a gather or scatter: table, index stream, count, buffer. -/
def enTable (s : State) (f : EnF) : List Nat := readBlock s (f.base.toNat + 2) [true, true, false, true]

/-- EN_GATHER (R194, R327). -/
def execEnGather (f : EnF) (s : State) : Out :=
  let x := enTable s f
  let m := enMod2 s f
  enIssue f s (.gather (x.getD 0 0) (x.getD 1 0) (x.getD 2 0) (x.getD 3 0) (2 ^ (bitsOf m 2 0 + 2)) (bitOf m 3))

/-- EN_SCATTER (R194, R195, R327). -/
def execEnScatter (f : EnF) (s : State) : Out :=
  let x := enTable s f
  let m := enMod2 s f
  enIssue f s (.scatter (x.getD 0 0) (x.getD 1 0) (x.getD 2 0) (x.getD 3 0) (2 ^ (bitsOf m 2 0 + 2)) (bitOf m 3)
    (BitVec.ofNat 4 (bitsOf m 8 5)) (BitVec.ofNat 2 (bitsOf m 10 9)))

/-- The walk that a block describes (R196). -/
def enRows (s : State) (f : EnF) : EngOp :=
  let x := readBlock s (f.base.toNat + 2) [true, true, true, true, true, false, true, false]
  let m := enMod2 s f
  .rows (x.getD 0 0) (x.getD 1 0) (x.getD 2 0) (x.getD 3 0) (x.getD 4 0) (x.getD 5 0) (x.getD 6 0) (x.getD 7 0)
    (if bitOf m 0 then 8 else 4) (bitOf m 1) (bitOf m 2) (bitOf m 3) (2 ^ bitsOf m 6 4) (2 ^ bitsOf m 9 7)

/-- EN_CSR_ROWS (R196, R327). -/
def execEnCsrRows (f : EnF) (s : State) : Out := enIssue f s (enRows s f)

/-- EN_BSR_BLOCKS (R196, R327). -/
def execEnBsrBlocks (f : EnF) (s : State) : Out := enIssue f s (enRows s f)

/-- The spaces of the streams of an `isect`: the types of the operands of the Value Form instruction at
the bundle's portable PC (R191). -/
def isectNear (s : State) : Bool × Bool :=
  let ws := groupWords s s.cur
  let (fn, off) := ppcOf s.cur
  let its := fnItems ws fn
  let near (o : Opd) : Bool :=
    match o with
    | .val n => ((valTypes ws its).getD n.toNat (.void, none)).1 == .near
    | _ => false
  match itemAt its off with
  | some it => match it.kind with
    | .ins (.isect o) => (near o.a, near o.b)
    | _ => (false, false)
  | none => (false, false)

/-- EN_ISECT (R197, R327). -/
def execEnIsect (f : EnF) (s : State) : Out :=
  let x := readBlock s (f.base.toNat + 2) [true, false, true, false, true, false]
  let m := enMod2 s f
  let (na, nb) := isectNear s
  enIssue f s (.isect (x.getD 0 0) na (x.getD 1 0) (x.getD 2 0) nb (x.getD 3 0) (x.getD 4 0) (x.getD 5 0)
    (bitOf m 0) (bitOf m 1))

/-! ## Branches (R328, R329) -/

/-- The group continues at a clause header. -/
def goTo (s : State) (t : BitVec 15) : State := setNat s fun n => { n with clause := t.toNat, bundle := 0 }

/-- JMP (R328). -/
def execJmp (tgt : BitVec 15) (s : State) : Out := .next (goTo s tgt)

/-- UBR (R329). -/
def execUbr (k : BitVec 3) (tgt : BitVec 15) (s : State) : Out :=
  let m := kregGet (nat s) k.toNat &&& s.cur.active
  if m = s.cur.active then .next (goTo s tgt)
  else if m = 0 then .next s
  else .next (raise s .uniformity)

/-- LOOP (R328). -/
def execLoop (r : BitVec 6) (s : State) : Out := .next (setNat s fun n => { n with lc := sregGet n r.toNat, trip := sregGet n r.toNat })

/-- LEND (R328). -/
def execLend (tgt : BitVec 15) (s : State) : Out :=
  let lc := (nat s).lc - 1
  let s := setNat s fun n => { n with lc }
  .next (if lc ≠ 0 then goTo s tgt else s)

/-! ## The reconvergence stack (R330 to R332) -/

/-- Threads that have not exited. -/
def liveMask (g : Group) : Mask := fullMask g.width &&& ~~~g.exited

/-- The running path below a stack (R330). -/
def pathOf (g : Group) (st : List NatEnt) : Mask := st.foldl (fun m e => m &&& ~~~e.mask) (liveMask g)

/-- A stack entry as it spills (R330). -/
def NatEnt.bits (e : NatEnt) : Nat :=
  e.mask.toNat * 2 ^ 64 + e.dpc.toNat * 2 ^ 48 + e.rpc.toNat * 2 ^ 32 + e.fmt.toNat % 64

/-- Where entry `n`, counted from the bottom and beyond the 32 in hardware, stands in the group's stack area (R30, R49). -/
def stackKey (g : Group) (n : Nat) : Nat :=
  coreKey g.die g.core (Config.sysArea g.die + 2048 * g.slot + 16 * (n - 32))

/-- Changes the stack; a top entry beyond the 32 in hardware is written to the stack area (R30). -/
def setStack (s : State) (st : List NatEnt) : State :=
  let s := setNat s fun n => { n with stack := st }
  match st with
  | e :: rest =>
    if 32 ≤ rest.length then
      let k := stackKey s.cur rest.length
      setMem s fun m => (m.heal k 16).setBytes (bytesAt 16 k e.bits)
    else s
  | [] => s

/-- Reads the top entry, which may meet damage where it has spilled (R30, R407). -/
def withTop (s : State) (f : State → Out) : Out :=
  let d := (nat s).stack.length
  if 32 < d then reading s [(stackKey s.cur (d - 1), 16)] f else f s

/-- DSET (R328). -/
def execDset (rpc : BitVec 15) (s : State) : Out := .next (setNat s fun n => { n with dset := some rpc })

/-- DBR (R331). -/
def execDbr (k : BitVec 3) (tgt : BitVec 15) (s : State) : Out :=
  let n := nat s
  let yes := kregGet n k.toNat &&& s.cur.active
  let no := s.cur.active &&& ~~~yes
  let rpc := n.dset.getD 0
  let clear (s : State) : State := setNat s fun n => { n with dset := none }
  let run (s : State) (st : List NatEnt) : Out := .next (setCur (setStack (clear s) st) fun g => { g with active := yes })
  if no = 0 then .next (clear s)
  else if yes = 0 then .next (goTo (clear s) tgt)
  else withTop s fun s =>
    let new : NatEnt := { mask := no, dpc := tgt, rpc, fmt := s.cur.fmt }
    match n.stack with
    | e :: rest =>
      if e.rpc = rpc then run s ({ e with mask := e.mask ||| no, dpc := tgt } :: rest)
      else if 160 ≤ n.stack.length then .next (raise s .divergenceDepth)
      else run s (new :: n.stack)
    | [] => run s [new]

/-- Swaps to the deferred path of the top entry. -/
def swapTop (s : State) (e : NatEnt) (rest : List NatEnt) : State :=
  let act := e.mask &&& liveMask s.cur
  let s := setStack (goTo s e.dpc) ({ e with mask := pathOf s.cur rest &&& ~~~act } :: rest)
  setCur s fun g => { g with active := act, fmt := e.fmt }

/-- Pops the top entry: the path below goes on at its reconvergence point. -/
def popTop (s : State) (e : NatEnt) (rest : List NatEnt) : State :=
  let s := setNat (goTo s e.rpc) fun n => { n with stack := rest }
  setCur s fun g => { g with active := pathOf s.cur rest, fmt := e.fmt }

/-- A group with no thread left in its path: the top entries swap or pop until one has a thread (R207). -/
def nextPath (s : State) : List NatEnt → State
  | [] => s
  | e :: rest =>
    if s.cur.active ≠ 0 then s
    else if e.mask &&& liveMask s.cur ≠ 0 then swapTop s e rest
    else
      let s := popTop s e rest
      if s.cur.active ≠ 0 then s else nextPath s rest

/-- JOIN (R332). -/
def execJoin (rpc : BitVec 15) (s : State) : Out :=
  withTop s fun s => match (nat s).stack with
  | e :: rest =>
    if e.rpc = rpc then
      .next (if e.mask &&& liveMask s.cur ≠ 0 then swapTop s e rest
        else let s := popTop s e rest; nextPath s (nat s).stack)
    else .next (goTo s rpc)
  | [] => .next (goTo s rpc)

/-- JOINP (R332). -/
def execJoinp (rpc : BitVec 15) (s : State) : Out :=
  withTop s fun s => match (nat s).stack with
  | e :: rest =>
    if e.rpc = rpc then .next (let s := popTop s e rest; nextPath s (nat s).stack)
    else .next (goTo s rpc)
  | [] => .next (goTo s rpc)

/-! ## Ends and stops -/

/-- EXIT (R207, R223). -/
def execTbfExit (s : State) : Out :=
  match s.cur.party with
  | some _ => .next (raise s .helperExit)
  | none =>
    let s := endThreads s
    if s.cur.exited = fullMask s.cur.width then .next s
    else
      let s := setCur s fun g => { g with active := 0 }
      .next (nextPath s (nat s).stack)

/-- The group continues at the clause after the one in hand (R291, R328). -/
def endClause (s : State) : State :=
  let c := (nat s).at_.1
  setNat s fun n => { n with clause := c + 2 + bitsOf (imgUnit (imageOf s s.cur) c) 23 20, bundle := 0, passed := false }

/-- TRAP (R230, R328, R345): the group stops before the bundle; when it resumes, the bundle ends its clause. -/
def execTbfTrap (brk : Bool) (code : BitVec 16) (s : State) : Out :=
  let pass (g : Group) : Group := setNative (backUp g) fun n => { n with passed := true }
  if (nat s).passed then .next (endClause s)
  else if brk then
    if brkStops s then .next (stopAfter s 1 code.toNat pass) else .next (endClause s)
  else match s.cur.party with
    | some _ => .next (raise s (.user code))
    | none => .next (stopAfter s 2 code.toNat pass)

/-! ## Waits (R333) -/

/-- The conditions of a block: kinds and operands from register `r`. -/
def blockConds (s : State) : (n kinds r : Nat) → List CondV
  | 0, _, _ => []
  | n + 1, kinds, r =>
    let e := r + r % 2
    let next := blockConds s n (kinds / 16)
    match kinds % 16 with
    | 0 => .token (BitVec.ofNat 32 (uregN s r 32)) :: next (r + 1)
    | 1 => .fullWord (lane (uregN s e 64)) :: next (e + 2)
    | 2 => .emptyWord (lane (uregN s e 64)) :: next (e + 2)
    | 3 => .barrier (uregN s r 32 % 32) (BitVec.ofNat 32 (uregN s (r + 1) 32)) :: next (r + 2)
    | 4 => .matrix (BitVec.ofNat 32 (uregN s r 32)) :: next (r + 1)
    | 5 =>
      let v := e + 3 + (e + 3) % 2
      .sig (lane (uregN s e 64)) ((SigCmp.ofCode (uregN s (e + 2) 32)).getD .eq) (lane (uregN s v 64)) :: next (v + 2)
    | _ => []

/-- Begins the wait of a condition block. -/
def blockWait (s : State) (base : Nat) (isYield : Bool) : State :=
  let h := uregN s base 32
  startWait s (blockConds s 4 (h % 65536) (base + 2)) (bitOf h 16) (uregN s (base + 1) 32) (.base base isYield)

/-- WAITC (R333). -/
def execWaitc (base : BitVec 6) (s : State) : Out := .next (blockWait s base.toNat false)

/-- YIELD (R333): the continuation is the next clause, where the group stands already. -/
def execTbfYield (base : BitVec 6) (s : State) : Out := .next (blockWait s base.toNat true)

/-! ## Spawn and tasks (R334) -/

/-- SPAWN (R208, R334). -/
def execTbfSpawn (base : BitVec 6) (s : State) : Out :=
  let fn := uregN s base.toNat 16
  let tys := (fnParams (groupWords s s.cur) fn).map (·.1)
  let args := (readBlock s (base.toNat + 2) (tys.map wideTy)).map lane
  let (st, s') := spawnGroup s fn args
  .next (pendIn s' 1 9 (.s base.toNat false) 0 [lane st])

/-- Values of the staging block for thread `t`, one class-V slot each from byte `off` (R273, R334). -/
def stageRead (s : State) (off : Nat) : List Bool → (t : Nat) → List Lane
  | [], _ => []
  | wide :: ws, t =>
    let w := s.cur.width
    let size := if wide then 8 * w else 4 * w
    let lo := (spillWords s s.cur off).getD t 0
    let hi := if wide then (spillWords s s.cur (off + 4 * w)).getD t 0 else 0
    pairWord lo hi :: stageRead s (off + size) ws t

/-- TPOST (R209, R334). -/
def execTpost (base : BitVec 6) (s : State) : Out :=
  let fn := uregN s base.toNat 16
  let off := 8 * uregN s (base.toNat + 1) 32
  let reg := uregN s (base.toNat + 2) 9
  let tys := (fnParams (groupWords s s.cur) fn).map (·.1)
  let vals (t : Nat) : List Lane := stageRead s off (tys.map wideTy) t
  let arg (t : Nat) : Nat × List Lane := ((getLane (vals t) 0).toNat, (vals t).drop 1)
  if (actives s).all fun t => (homeOf s s.cur.ctx (arg t).1).isSome then
    let (rs, s) := postAll s fn arg (actives s)
    .next (pendIn s 1 9 (.v (reg / 128) (reg % 128) false) s.cur.active
      ((List.range s.cur.width).map fun t => ((assocGet t rs).getD []).getD 0 0))
  else .next (raise s .window)

/-! ## Helpers (R335) -/

/-- A register named by 9 bits, cluster and N. -/
def reg9 (s : State) (x : Nat) (wide : Bool) (t : Nat) : Lane := getLane (vget s.cur (x / 128) (x % 128) wide) t

/-- HERD (R218, R335). -/
def execTbfHerd (base : BitVec 6) (s : State) : Out :=
  let b := base.toNat
  let h := uregN s b 32
  let rg := uregN s (b + 1) 32
  let ws := groupWords s s.cur
  let (fn, _) := helperEntry ws (bitsOf h 15 0)
  let tys := ((fnParams ws fn).drop 1).map (·.1)
  let cap (i : Nat) : Nat := bitsOf (uregN s (b + 2 + i / 3) 32) (9 * (i % 3) + 8) (9 * (i % 3))
  let caps := (List.range (bitsOf h 19 16)).map fun i =>
    (List.range s.cur.width).map fun t => reg9 s (cap i) (wideTy (tys.getD i .i32)) t
  let num (x t : Nat) : Nat := low 32 (reg9 s x false t).toNat
  .next (herdIssue s
    { helper := bitsOf h 15 0, fn, caps, ty := tyOfCode (bitsOf h 25 23), red := bitsOf h 22 20,
      signed := bitOf h 26, rnd := rndOf (bitsOf h 29 27), nres := 2,
      lo := fun t => sgn 32 (num (bitsOf rg 8 0) t), hi := fun t => sgn 32 (num (bitsOf rg 17 9) t),
      chunk := fun t => num (bitsOf rg 26 18) t } 0 true)

def setPhase (s : State) (p : Nat) : State :=
  setCur s fun g => { g with herd := g.herd.map fun h => { h with phase := p } }

/-- CALL (R335): the recruiter runs its claims; the group's next bundle follows them. -/
def execTbfCall (s : State) : Out := .next (setPhase s 1)

/-- RET (R335): ends the iteration with the value in v0.0. -/
def execTbfRet (s : State) : Out :=
  match s.cur.party with
  | some pt =>
    let wide := match herdOf s pt.group with
      | some h => h.red != 0 && wideTy h.ty
      | none => false
    .next (iterDone s s.cur.uid (getLane (vget s.cur 0 0 wide) 0))
  | none => .next s

/-- HJOIN (R335): waits for the join. -/
def execHjoin (s : State) : Out := .next (setPhase s 2)

/-- NOP of every slot (R292). -/
def execTbfNop (s : State) : Out := .next s

end Sys2Proof.Machine
end

