-- ==== Sys2Proof/Machine/NativeCheck.lean ====
section
/-! DEFINITION. What makes a bundle illegal beside its encoding, and what makes it wait: registers, clusters,
captures, tile shapes, flags, snapshot registers and placement rules (14 R291, R293, R296, R297, R299,
R300, R302; 15 R337). -/

namespace Sys2Proof.Machine

open Sys2Proof

/-! ## Registers that an operation names -/

/-- A vector register read or written, a uniform register, a captured value, a tile. -/
inductive Use where
  | vr (cl n : Nat) (wide : Bool)
  | vw (cl n : Nat) (wide : Bool)
  | sr (n : Nat) (wide : Bool)
  | cap (i : Nat)
  | tile (n : Nat)
  /-- a tile of a chain of matrix operations, which waits for none of them -/
  | chain (n : Nat)
  /-- the cluster that a field names -/
  | clus (cl : Nat)
  /-- the broadcast operand in a slot at which BP does not aim -/
  | noPort
  deriving DecidableEq, Repr

/-- What an operand code names. -/
def codeUse (cl : Nat) (c : BitVec 8) (bc : Option (BitVec 6)) (wide : Bool) : List Use :=
  let c := c.toNat
  if c < 128 then [.vr cl c wide]
  else if c = 128 then (match bc with | some r => [.sr r.toNat wide] | none => [.noPort])
  else if c ≤ 136 then [.cap (c - 129)]
  else []

/-- The uses of a VA field: widths of A, of B (none when it is ignored), of the third register and of D. -/
def vaUse (f : Va) (a : Bool) (b : Option Bool) (c : Option Bool) (d : Option Bool) : List Use :=
  let cl := f.cl.toNat
  .clus cl :: codeUse cl f.a f.bc a
    ++ (match b with | some w => codeUse cl f.b f.bc w | none => [])
    ++ (match c with | some w => [.vr cl f.x.toNat w] | none => [])
    ++ (match d with | some w => [.vw cl f.d.toNat w] | none => [])

/-- The uses of a US field likewise. -/
def usUse (f : Us) (a b c d : Option Bool) : List Use :=
  (match a with | some w => [.sr f.a.toNat w] | none => [])
    ++ (match b with | some w => [.sr f.b.toNat w] | none => [])
    ++ (match c with | some w => [.sr (Us.xs f 5 0) w] | none => [])
    ++ (match d with | some w => [.sr f.d.toNat w] | none => [])

/-- Data of `n` bytes in registers from `d`. -/
def dataUse (reg : Nat → Bool → Use) (d n : Nat) : List Use :=
  if n ≤ 4 then [reg d false] else if n = 8 then [reg d true] else [reg d true, reg (d + 2) true]

/-- The tiles of every matrix operation. -/
def mmaUse (f : TmmaF) : List Use :=
  [.tile f.ta.toNat, .tile f.tb.toNat, .chain f.tc.toNat, .chain f.td.toNat]

/-- The registers, captures and tiles that a slot operation names. -/
def uses : Instr → List Use
  | .iadd f | .imul f | .idiv f | .isat f | .icc f | .icci f | .iminmax f | .ilogic f | .tbfSel f =>
    let w := f.ty == 3
    vaUse f w (some w) none (some w)
  | .imad f => let w := f.ty == 3; vaUse f w (some w) (some w) (some w)
  | .ishift f => let w := f.ty == 3; vaUse f w (some false) none (some w)
  | .iunary f | .mov f => let w := f.ty == 3; vaUse f w none none (some w)
  | .ibfe f => let w := f.ty == 3; vaUse f w (some false) none (some w)
  | .ibfc f => vaUse f false (some false) none (some false)
  | .ibfi f => let w := f.ty == 3; vaUse f w (some w) (some false) (some w)
  | .iext f => vaUse f (decide (Va.xs f 3 2 = 3)) none none (some (f.ty == 3))
  | .nadr f => match Va.xs f 1 0 with
    | 0 => vaUse f true (some true) none (some true)
    | 1 => vaUse f false (some false) none (some true)
    | _ => vaUse f true none none (some false)
  | .tbfNidx f => vaUse f true (some true) (some false) (some true)
  | .icmp f => let w := f.ty == 3; vaUse f w (some w) none none
  | .tbfFadd f | .tbfFmul f | .tbfFdiv f => let w := f.ty == 7; vaUse f w (some w) none (some w)
  | .fmarn f | .fmarz f | .fmaup f | .fmadn f | .fmaf f =>
    let w := f.ty == 7
    vaUse f w (some w) (some w) (some w)
  | .fspec f => let w := f.ty == 7; vaUse f w none none (some w)
  | .fmisc f =>
    let w := f.ty == 7
    match Va.xs f 2 0 with
    | 2 | 3 => vaUse f w none none (some w)
    | 5 => vaUse f w (some false) none none
    | _ => vaUse f w (some w) none (some w)
  | .fcmp f => let w := f.ty == 7; vaUse f w (some w) none none
  | .usInteger fn ty f =>
    let w := ty == 3
    match fn.toNat with
    | 3 => usUse f (some w) (some w) (some w) (some w)
    | 6 => usUse f (some w) (some w) none (some w)
    | 10 | 12 => usUse f (some w) (some false) none (some w)
    | 11 => usUse f (some w) none none (some w)
    | 13 => usUse f (some false) (some false) none (some false)
    | 14 => usUse f (some w) (some w) (some false) (some w)
    | 15 => usUse f (some (decide (Us.xs f 3 2 = 3))) none none (some w)
    | _ => usUse f (some w) (some w) none (some w)
  | .unadr f => match Us.xs f 1 0 with
    | 0 => usUse f (some true) (some true) none (some true)
    | 1 => usUse f (some false) (some false) none (some true)
    | _ => usUse f (some true) none none (some false)
  | .unidx f => usUse f (some true) (some true) (some false) (some true)
  | .ucmp f =>
    let w := decide (Us.xs f 5 4 = 3)
    usUse f (some w) (some w) none (some false)
  | .usel f => let w := f.x.getLsbD 6; usUse f (some w) (some w) none (some w)
  | .umov f => let w := f.x.getLsbD 0; usUse f (some w) none none (some w)
  | .uldk d wide _ => [.sr d.toNat wide]
  | .uid f => usUse f none none none (some (decide (Us.xs f 7 0 = 8)))
  | .uclock f | .stok f => usUse f none none none (some true)
  | .urseed f => usUse f (some true) none none none
  | .kfroms f => usUse f (some (f.x.getLsbD 0)) none none none
  | .uld f =>
    .sr f.a.toNat (!f.loc) :: dataUse .sr f.d.toNat (umemBytes f)
  | .ust f => .sr f.a.toNat (!f.loc) :: dataUse .sr f.d.toNat (umemBytes f)
  | .uatom f => .sr f.a.toNat (!f.loc) :: dataUse .sr f.d.toNat (umemBytes f)
      ++ (if f.fn == 9 then dataUse .sr f.b.toNat (umemBytes f) else [])
  | .ufe f => [.sr f.a.toNat (!f.loc), .sr f.d.toNat true]
  | .uspill r w _ | .ufill r w _ => [.sr r.toNat w]
  | .tshape tn _ _ _ => [.tile tn.toNat]
  | .vld f => codeUse f.cl.toNat f.ad f.bc (!f.loc) ++ dataUse (.vw f.cl.toNat) f.dv.toNat (2 ^ f.size.toNat)
  | .vst f => codeUse f.cl.toNat f.ad f.bc (!f.loc) ++ dataUse (.vr f.cl.toNat) f.dv.toNat (2 ^ f.size.toNat)
  | .vldk f => codeUse f.cl.toNat f.ad f.bc false ++ dataUse (.vw f.cl.toNat) f.dv.toNat (2 ^ f.size.toNat)
  | .vatom f =>
    [.vr f.cl.toNat f.ap.toNat true, .vr f.cl.toNat f.v.toNat f.w64, .vr f.cl.toNat f.d.toNat f.w64]
  | .vfe f => codeUse f.cl.toNat f.ad f.bc true ++ [.vr f.cl.toNat f.d.toNat true]
  | .vspill f => [.vr f.cl.toNat f.d.toNat f.w64]
  | .vfill f => [.vw f.cl.toNat f.d.toNat f.w64]
  | .xmv f => [.vr f.scl.toNat f.src.toNat f.w64, .vw f.cl.toNat f.d.toNat f.w64]
  | .vtos f => [.vr f.cl.toNat f.src.toNat f.w64, .sr f.s.toNat f.w64]
  | .vxlane f => [.vr f.cl.toNat f.x.toNat f.w64, .vw f.cl.toNat f.d.toNat f.w64]
      ++ codeUse f.cl.toNat f.n f.bc false
  | .vlanes f => .clus f.cl.toNat :: if f.fn.toNat = 2 then [.vw f.cl.toNat f.d.toNat true] else []
  | .vgrp f =>
    let w := f.ty == 3 || f.ty == 7
    [.vr f.cl.toNat f.x.toNat w, .vw f.cl.toNat f.d.toNat w]
  | .vconf f => [.vr f.cl.toNat f.key.toNat (f.wc == 3), .vw f.cl.toNat f.d.toNat true]
  | .tld f | .tst f => [.tile f.tn.toNat, .sr f.a.toNat true]
  | .tzero tn | .tfill tn _ => [.tile tn.toNat]
  | .text f => [.tile f.tn.toNat, .vr f.cl.toNat f.r.toNat false, .vr f.cl.toNat f.c.toNat false,
      .vw f.cl.toNat f.d.toNat false]
  | .tins f => [.tile f.tn.toNat, .vr f.cl.toNat f.r.toNat false, .vr f.cl.toNat f.c.toNat false,
      .vr f.cl.toNat f.d.toNat false]
  | .tcopy a b | .tcvt a b => [.tile a.toNat, .tile b.toNat]
  | .mmaf8s f => mmaUse f ++ [.tile f.ts.toNat]
  | .mmabf16 f | .mmaf16 f | .mmai8 f => mmaUse f
  | .mmasp form _ f => mmaUse f ++ [.tile f.tm.toNat]
      ++ (if form == 0 then [.tile f.ts.toNat] else [])
  | .enCopyIn f | .enCopyOut f | .enCopyNear f | .enGather f | .enScatter f | .enCsrRows f | .enBsrBlocks f
  | .enIsect f | .enReduceFar f => [.sr f.base.toNat true]
  | .tbfYield b | .waitc b => [.sr b.toNat true]
  | _ => []

/-- The widths of CVT operands come from CVCTL. -/
def cvUses (c : BitVec 13) : Instr → List Use
  | .cvtOp f => [.vr f.cl.toNat f.a.toNat (wideTy (cvSrc c)), .vw f.cl.toNat f.d.toNat (wideTy (cvDst c))]
  | .cvts f => [.vr f.cl.toNat f.a.toNat false, .vr f.cl.toNat (f.a.toNat + 1) false,
      .vw f.cl.toNat f.d.toNat false]
  | _ => []

/-- The registers that a HERD's or a TPOST's block names (R334, R335). -/
def blockUses (s : State) : Instr → List Use
  | .tbfHerd base =>
    let b := base.toNat
    let h := uregN s b 32
    let rg := uregN s (b + 1) 32
    let ws := groupWords s s.cur
    let tys := ((fnParams ws (helperEntry ws (bitsOf h 15 0)).1).drop 1).map (·.1)
    let at9 (x : Nat) (w : Bool) : Use := .vr (x / 128) (x % 128) w
    [at9 (bitsOf rg 8 0) false, at9 (bitsOf rg 17 9) false, at9 (bitsOf rg 26 18) false]
      ++ (List.range (bitsOf h 19 16)).map fun i =>
        at9 (bitsOf (uregN s (b + 2 + i / 3) 32) (9 * (i % 3) + 8) (9 * (i % 3))) (wideTy (tys.getD i .i32))
  | .tpost base => let r := uregN s (base.toNat + 2) 9; [.vw (r / 128) (r % 128) false]
  | _ => []

/-- Tile registers of the group's kernel: those of its translation's key (R232, R295). -/
def tilesOf (s : State) : Nat :=
  match transOf s (nat s).tr with
  | some t => min t.key.tiles (Config.tileRegs s.cur.die)
  | none => 0

/-- Whether a use breaks a rule: a register out of range, an odd pair, a cluster outside CLMODE or read
within 40 cycles of its waking, a captured value that the HERD does not pass. -/
def useBad (s : State) (img : List Word) (u : Use) : Bool :=
  let n := nat s
  let odd (r : Nat) (w : Bool) : Bool := w && r % 2 == 1
  let vec (cl r : Nat) (w : Bool) : Bool :=
    decide (imgRegs img ≤ r + w.toNat) || odd r w || !n.clmode.getLsbD cl
  match u with
  | .vr cl r w => vec cl r w || n.woken.any fun k => k.1 == cl && decide (s.cycle < k.2 + 40)
  | .vw cl r w => vec cl r w
  | .sr r w => odd r w
  | .cap i => match s.cur.party with
    | some pt => match herdOf s pt.group with
      | some h => decide (h.caps.length ≤ i)
      | none => true
    | none => true
  | .tile t | .chain t => decide (tilesOf s ≤ t)
  | .clus cl => !n.clmode.getLsbD cl
  | .noPort => true

/-! ## Conversions and tile shapes (R154, R316, R323, R239) -/

/-- Whether CVCTL names a pair and a code that R154 accepts; `scaled` for CVTS. -/
def cvctlOk (c : BitVec 13) (scaled : Bool) : Bool :=
  let sf := bitsOf c.toNat 7 4
  let df := bitsOf c.toNat 3 0
  let isInt (x : Nat) : Bool := decide (2 ≤ x ∧ x ≤ 5)
  let isFp (x : Nat) : Bool := decide (8 ≤ x ∧ x ≤ 13)
  let r := bitsOf c.toNat 10 8
  let codes := decide (r ≤ 5) && !(r == 4 && isInt df)
  if scaled then
    codes && (cvDst c == .e4m3 || cvDst c == .e5m2) && (cvSrc c == .f32 || cvSrc c == .bf16 || cvSrc c == .f16)
      && !c.getLsbD 11 && !c.getLsbD 12
  else
    codes && ((isInt sf && isFp df && !c.getLsbD 12) || (isFp sf && isInt df && !c.getLsbD 11)
      || (isFp sf && isFp df && sf != df && !c.getLsbD 11 && !c.getLsbD 12))

/-- Whether the tiles of a matrix operation have the shapes of R239. -/
def mmaShapeOk (x : MmaJob) (sfmt : BitVec 2) : Bool :=
  let kb := if x.kind = 0 ∨ x.kind = 3 then 128 else 64
  let kc := if x.keep = 0 then kb else kb * x.keep / 64
  let m := x.a.desc.rows
  let n := x.b.desc.cols
  let fp8 (e : Elem) : Bool := e == .e4m3 || e == .e5m2
  let elem (e : Elem) : Bool := match x.kind with
    | 0 => fp8 e | 1 => e == .bf16 | 2 => e == .f16 | _ => e == .i8
  elem x.a.desc.elem && elem x.b.desc.elem && x.a.desc.cols == kb && x.b.desc.rows == kc
    && x.desc.rows == m && x.desc.cols == n && x.desc.elem == (if x.kind = 3 then .i32 else .f32)
    && (match x.m with | some t => t.desc.rows == kc && t.desc.cols == n && t.desc.elem == .i8 | none => true)
    && (match x.sa with
        | some t => t.desc.rows == m && t.desc.cols == 1 && (match sfmt.toNat with
            | 1 => t.desc.elem == .f32
            | 2 => t.desc.elem == .i8
            | 0 => t.desc.elem == .f32 || t.desc.elem == .i8
            | _ => false)
        | none => true)

/-! ## Illegal operations in their place (R337) -/

/-- The clause headers of an image, by native offset. -/
def clauseStarts (img : List Word) : (fuel : Nat) → (n : Nat) → List Nat
  | 0, _ => []
  | k + 1, n =>
    if n < 1 + imgCodeUnits img then
      n :: clauseStarts img k (n + 2 + bitsOf (imgUnit img n) 23 20)
    else []

def isClause (img : List Word) (t : Nat) : Bool := (clauseStarts img (imgCodeUnits img) 1).contains t

/-- The opcode of the branch slot of a bundle. -/
def brOpcode (img : List Word) (off : Nat) : Nat := bitsOf (imgUnit img off) 79 74

/-- Operations of variable latency of the VM slot and of the uniform slot (R300). -/
def varVm : Instr → Bool
  | .vld _ | .vst _ | .vldk _ | .vatom _ | .vfe _ | .vspill _ | .vfill _ | .tst _ | .tld _ => true
  | _ => false

def varUs : Instr → Bool
  | .uld _ | .ust _ | .uatom _ | .ufe _ | .uspill _ _ _ | .ufill _ _ _ => true
  | _ => false

/-- What an operation needs beside its registers: among others, a DSET stands immediately before a DBR of its clause, and
a DBR after a DSET (R331). -/
def placeBad (s : State) (img : List Word) (c : Clause) (i : Instr) : Bool :=
  let n := nat s
  let at1 := n.at_.1 + 1 + n.at_.2
  (varVm i && c.setf0 == 15) || (varUs i && c.setf1 == 15) || match i with
  | .jmp t | .join t | .joinp t => !isClause img t.toNat
  | .dset t => !isClause img t.toNat || decide (c.bundles ≤ n.at_.2 + 1) || brOpcode img (at1 + 1) != 4
  | .ubr _ t | .lend t => !isClause img t.toNat
  | .dbr _ t => !isClause img t.toNat || n.at_.2 == 0 || brOpcode img (at1 - 1) != 3
  | .tbfYield _ => n.at_.2 + 1 != c.bundles
  | .tbfCall => match s.cur.herd with
    | some h => h.phase != 0 || !h.native
    | none => true
  | .hjoin => s.cur.herd.isNone
  | .tbfRet => s.cur.party.isNone
  | .cvtOp _ => !cvctlOk n.cvctl false
  | .cvts _ => !cvctlOk n.cvctl true
  | .tcvt _ ts => !cvctlOk n.cvctl false || (tileReg s ts.toNat).desc.elem != elemOfTy (cvSrc n.cvctl)
      || wideTy (cvSrc n.cvctl) || wideTy (cvDst n.cvctl)
  | .tshape _ e cm rm => match Elem.ofCode e.toNat with
    | some e => !TileDesc.ok { elem := e, colsM1 := cm, rowsM1 := rm }
    | none => true
  | .mmaf8s f => !mmaShapeOk (natJob s 0 0 f) f.sfmt
  | .mmabf16 f => !mmaShapeOk (natJob s 1 0 f) 1
  | .mmaf16 f => !mmaShapeOk (natJob s 2 0 f) 1
  | .mmai8 f => !mmaShapeOk (natJob s 3 0 f) 1
  | .mmasp form k f => !mmaShapeOk (natJob s form.toNat (16 * (k.toNat + 1)) f) f.sfmt
  | _ => false

def slotsOf (b : Bundle) : List Instr := [b.br, b.us, b.va0, b.va1, b.vm, b.cv, b.en]

/-- Whether a bundle is NATIVE_ILLEGAL at its place. -/
def bundleBad (s : State) (img : List Word) (c : Clause) (b : Bundle) : Bool :=
  let n := nat s
  let waiting := n.pend.filter fun p => decide (p.slot < 9) && decide (n.count < p.land)
  (slotsOf b).any (fun i => placeBad s img c i || (uses i ++ cvUses n.cvctl i ++ blockUses s i).any (useBad s img))
    || (b.drain && !waiting.isEmpty)
    || (b.va1 != .tbfNop && !Config.isGale s.cur.die)

/-- Whether a clause header is illegal for the group's die (R293). -/
def clauseBad (s : State) (img : List Word) (c : Clause) : Bool :=
  decide (1 + imgCodeUnits img < (nat s).at_.1 + 1 + c.bundles)
    || (!Config.isGale s.cur.die && (c.clmode.getLsbD 2 || c.clmode.getLsbD 3))

/-! ## Bundles that wait (R198, R243, R300, R323, R327) -/

/-- Whether an operation cannot issue yet. -/
def opWaits (s : State) (i : Instr) : Bool :=
  let g := s.cur
  let busy (f : EnF) : Bool :=
    (match g.ctrs[f.cn.toNat]? with | some c => c.done != c.issued | none => false)
      || decide (64 ≤ (s.cmds.filter fun c => c.die == g.die && c.core == g.core).length)
  let pendTiles := ((openJobs g).filter (·.tbf)).map (·.dst)
  ((uses i).any fun u => match u with
      | .tile t => pendTiles.contains t
      | _ => false)
  || (match i with
      | .enCopyIn f | .enCopyOut f | .enCopyNear f | .enGather f | .enScatter f | .enCsrRows f
      | .enBsrBlocks f | .enIsect f | .enReduceFar f => busy f
      | .mmaf8s _ | .mmabf16 _ | .mmaf16 _ | .mmai8 _ | .mmasp _ _ _ => decide (64 ≤ (openJobs g).length)
      | .tbfMfence _ => decide (8 ≤ (g.mfences - g.batchesDone).toNat)
      | .tbfHerd base => !herdRoom s (bitsOf (uregN s base.toNat 32) 15 0)
      | _ => false)

/-- Whether a bundle would raise a flag's count above 63 (R300). -/
def flagsFull (s : State) (c : Clause) (b : Bundle) : Bool :=
  let adds (f : Nat) : Nat := (varVm b.vm && c.setf0 == f).toNat + (varUs b.us && c.setf1 == f).toNat
  (List.range 12).any fun f => adds f != 0 && decide (63 < (nat s).flags.getD f 0 + adds f)

/-- Whether a flag of the clause's wait mask has an operation pending (R291). -/
def flagsWait (n : Native) (c : Clause) : Bool :=
  (List.range 12).any fun f => bitOf c.waitMask f && n.flags.getD f 0 != 0

end Sys2Proof.Machine
end

