-- ==== Sys2Proof/Machine/Sched.lean ====
section
/-! DEFINITION. Scheduling on a core: which groups may issue, issue opportunities and helper beats,
activation and demotion, effective drain points and the stops made there, group ends, freezes, scheduler
repairs, and the operations whose latency varies (01_execution_model.md R22 to R28, R45; 09 R220 to R225;
14 R300 to R304; 13 R288; 22 R415, R416; 03 R70, R71; 04 R107). -/

namespace Sys2Proof.Machine

open Sys2Proof

/-! ## Drain points (R302, R304) -/

/-- The native offset of the bundle that a native group issues next. -/
def nextOff (n : Native) : Nat := n.clause + 1 + n.bundle

/-- Whether a group stands before an effective drain point, with no batch incomplete (R245). A group that
runs Value Form words has one before every instruction (notes/assumptions/16.md). -/
def atDrain (s : State) (g : Group) : Bool :=
  (cmdsBy s g.uid).isEmpty && g.batchesDone == g.mfences && (match g.native with
    | some n => bitOf (imgUnit (imageOf s g) (nextOff n)) 0 && n.flags.all (· == 0)
    | none => true)

/-- Whether a native group stands before a kernel iteration of a modulo-scheduled loop. -/
def atIter (s : State) (g : Group) : Bool :=
  match g.native with
  | some n => bitOf (imgUnit (imageOf s g) (nextOff n)) 2
  | none => false

/-- The portable PC of the bundle before which a native group stops, and its loop (R304, R306). -/
def stopPlace (s : State) (g : Group) : Group :=
  match g.native with
  | none => g
  | some n =>
    let img := imageOf s g
    let x := imgUnit img n.clause
    let last := bitsOf x 78 76
    let ppc := match covering img (nextOff n) with
      | some e => e.ppc
      | none => n.ppc
    let loop := if atIter s g && bitOf x 79
      then some (bitsOf x 75 68, last, low 32 ((n.trip - n.lc).toNat + 2 ^ 32 - last)) else none
    { g with native := some { n with ppc, loop } }

/-- Parties of a HERD that are out, as helpers or as the recruiter's own. -/
def partiesOf (s : State) (u : Nat) : List Group :=
  (heldGroups s).filter fun p => match p.party with
    | some pt => pt.group == u && !pt.gone
    | none => false

/-- The commands that the parties of a group's HERD have outstanding, those that have left too. -/
def packCmds (s : State) (u : Nat) : List Cmd :=
  ((heldGroups s).filter fun p => p.party.any fun pt => pt.group == u).flatMap fun p => cmdsBy s p.uid

/-- Whether a recruiter stands at its HERD with no helper out, no iteration begun and no command outstanding (R201,
R225). -/
def herdStill (s : State) (g : Group) : Bool :=
  g.herd.isSome && (cmdsBy s g.uid).isEmpty && g.batchesDone == g.mfences && (packCmds s g.uid).isEmpty && (partiesOf s g.uid).all fun p => match p.party with
    | some pt => pt.helper == 0 && !pt.begun
    | none => true

/-! ## Stops that are asked for (R45, R345, R400) -/

def ctxSaving (s : State) (c : Nat) : Bool :=
  match ctxOf s c with
  | some c => c.st == .saving
  | none => false

/-- Whether the watchdog or a machine check is ending a context's launches. -/
def ctxFired (s : State) (c : Nat) : Bool :=
  match ctxOf s c with
  | some c => c.firedAt.isSome
  | none => false

def mustStop (s : State) (g : Group) : Bool := g.stopReq != 0 || ctxSaving s g.ctx || ctxFired s g.ctx

/-- Whether a save of a migratable context is what stops a group: it does not stop inside a loop (R304). -/
def migrating (s : State) (c : Nat) : Bool :=
  match ctxOf s c with
  | some c => c.st == .saving && c.saveMig
  | none => false

/-- Whether a native group stands before a mandatory drain point of its unit (R281). -/
def atMandatory (s : State) (g : Group) : Bool :=
  match g.native with
  | none => true
  | some n => match entryAt (imageOf s g) (nextOff n) with
    | some e => (mandatory (groupWords s g) e.ppc.1 (e.caller == 0xFFFFF && e.ppc.1 == g.unit)).contains e.ppc.2
    | none => false

/-- Whether an ACTIVE group asked to stop stands where it stops. -/
def stopsHere (s : State) (g : Group) : Bool :=
  let mig := migrating s g.ctx && g.stopReq == 0
  if g.herd.any (fun h => h.phase != 0) then herdStill s g
  else (atDrain s g && (!mig || atMandatory s g)) || (atIter s g && (cmdsBy s g.uid).isEmpty
    && g.batchesDone == g.mfences && !mig)

/-- A group stops for a save or for the watchdog: HALTED with no stop record (R45, R400). -/
def stopQuiet (s : State) (u code : Nat) : State :=
  let s := modGroup s u fun g =>
    { g with st := .halted, stopCode := code, stopPpc := ppcOf g, stopRec := [], fast := false, stopReq := 0 }
  releaseHelpers s u

/-- Whether a native group stands before the bundle that it issues next, not in a wait that a bundle began. -/
def atBundle (g : Group) : Bool := (g.st == .active || g.st == .ready) && g.wait.isNone && g.fe.isNone

/-- A group stops on a request, with its record when software asked for it (R45, R345, R346, R400). The results due at
the bundle before which it stops have landed (R302). -/
def stopNow (s : State) (g : Group) : State :=
  let s := if atBundle g then modGroup s g.uid fun g => landDue (stopPlace s g) else s
  let ppc := ppcOf ((groupOf s g.uid).getD g)
  match g.stopReq with
  | 0 => stopQuiet s g.uid 0
  | 3 => haltGroup s g.uid { stop := 3, code := 0, ppc, helper := false, helperIter := 0, recruiter := 0 }
  | c => stopQuiet s g.uid c

/-- Asks a group to stop: at once when it is not ACTIVE, else at its next effective drain point. -/
def askStop (s : State) (u code : Nat) : State :=
  match groupOf s u with
  | none => s
  | some g =>
    if g.party.isSome || g.st == .halted then s
    else
      let s := releaseHelpers (modGroup s u fun g => { g with stopReq := code }) u
      match groupOf s u with
      | some g => if g.st == .active then s else stopNow s g
      | none => s

/-- Whether a restored group stands where it moves to the translation in force (R282). -/
def movesHere (s : State) (g : Group) : Bool :=
  g.moves && g.st == .active && g.herd.isNone && atDrain s g && atMandatory s g

/-! ## Which groups may issue (R22, R24) -/

def coreFrozen (s : State) (die core : Nat) : Bool := (coreOf s die core).frozenTo.isSome

/-- Whether the core of a group issues at all. -/
def coreIssues (s : State) (die core : Nat) : Bool :=
  !coreFrozen s die core && !(coreOf s die core).offline
    && !(clusterOf s die (core / 16)).offline && !(clusterOf s die (core / 16)).illegal

/-- Whether a group stalls for its translation: its cluster's copy is invalid (R288). -/
def stalledNative (s : State) (g : Group) : Bool :=
  g.native.any fun n => n.stalled || s.cache.any fun e =>
    e.die == g.die && e.cluster == g.core / 16 && e.tr == n.tr && !e.valid

/-- The ACTIVE groups whose images stand in a core's fast file. -/
def activeOn (s : State) (die core : Nat) : List Group :=
  (heldGroups s).filter fun g => g.party.isNone && g.die == die && g.core == core && g.fast && g.st == .active

def readyOn (s : State) (die core : Nat) : List Group :=
  (heldGroups s).filter fun g => g.party.isNone && g.die == die && g.core == core && g.st == .ready

/-- Whether a group stands where it is demoted (R26): a READY group exists, and of the ACTIVE groups it has issued the most
bundles, 4,096 at least, the older of two, and is at an effective drain point. -/
def demotes (s : State) (g : Group) : Bool :=
  g.st == .active && g.party.isNone && g.herd.isNone && decide (4096 ≤ g.bundles) && g.active != 0
    && !(readyOn s g.die g.core).isEmpty && atDrain s g
    && (activeOn s g.die g.core).all fun x =>
      decide (x.bundles < g.bundles ∨ (x.bundles = g.bundles ∧ g.age ≤ x.age))

/-- Whether a group takes part in the issue order of its core. A recruiter at the join of its HERD takes
part through its own parties. -/
def eligible (s : State) (die core : Nat) (g : Group) : Bool :=
  g.party.isNone && g.die == die && g.core == core && g.st == .active && g.active != 0
    && !stalledNative s g && !(mustStop s g && stopsHere s g) && !movesHere s g && !demotes s g
    && !(g.herd.any fun h => h.phase == 2 && (partiesOf s g.uid).all fun p => match p.party with
      | some pt => pt.helper != 0
      | none => true)

/-- The eligible groups of a core by age, from the group after the one that issued last. -/
def issueOrder (s : State) (die core : Nat) : List Nat :=
  let gs := sortBy (fun a b => decide (a.age ≤ b.age)) ((heldGroups s).filter (eligible s die core))
  let last := (coreOf s die core).lastAge
  ((gs.filter fun g => decide (last < g.age)) ++ gs.filter fun g => decide (g.age ≤ last)).map (·.uid)

/-- Takes a held group up for issue. -/
def takeUp (s : State) (u : Nat) : State :=
  if s.cur.uid == u && s.cur.st != .free then s
  else match s.others.find? fun g => g.uid == u with
    | none => s
    | some g =>
      let rest := s.others.filter fun x => x.uid != u
      { s with cur := g, others := if s.cur.st == .free then rest else s.cur :: rest }

/-- ISSUE_OPPORTUNITY (R24): the group first in order is taken up; at the next step it, or the first
group after it whose bundle is ready, issues. -/
def execIssueOpportunity (die core : Nat) (u : Upset) (s : State) : Out :=
  if !coreIssues s die core then .next s
  else match issueOrder s die core with
    | [] => .next s
    | g :: _ => .next { takeUp s g with issuing := true, upset := u }

/-- Whether a lane of a core is idle in this cycle: no host beat has an active thread on it, and no helper beat has issued
on it (R224). -/
def laneIdle (s : State) (die core lane : Nat) : Bool :=
  let c := coreOf s die core
  let host := decide (c.hostAt ≤ s.cycle ∧ s.cycle < c.hostAt + c.hostBeats)
    && c.hostMask.getLsbD (16 * (s.cycle - c.hostAt) + lane)
  !host && !(c.helperAt == s.cycle && c.helperLanes.contains lane)

/-- The lane of a helper: that of its borrowed slot. -/
def helperLane (pt : Party) : Nat :=
  match pt.slot with
  | some (_, t) => t % 16
  | none => 0

/-- The place of a helper in the competition: the age of its recruiter's group, then its index. -/
def helperKey (s : State) (pt : Party) : Nat × Nat :=
  ((match groupOf s pt.group with | some g => g.age | none => 0), pt.helper)

def keyLe (a b : Nat × Nat) : Bool := decide (a.1 < b.1 ∨ (a.1 = b.1 ∧ a.2 ≤ b.2))

/-- The helpers of a core that could issue a beat in this cycle, in the order of their competition: round robin from the one
that issued last (R224). -/
def helperOrder (s : State) (die core : Nat) : List Nat :=
  let last := (coreOf s die core).lastHelper
  let ps := (heldGroups s).filterMap fun g => g.party.bind fun pt =>
    if pt.helper != 0 && !pt.gone && pt.chunk.isSome && g.die == die && g.core == core && g.st == .active
        && !(pt.release && !pt.begun) && !stalledNative s g && laneIdle s die core (helperLane pt) then
      some (helperKey s pt, g.uid) else none
  let ps := sortBy (fun a b => keyLe a.1 b.1) ps
  ((ps.filter fun p => !keyLe p.1 last) ++ ps.filter fun p => keyLe p.1 last).map (·.2)

/-- HELPER_BEAT (R224): a helper with an idle lane issues its next bundle, or the first in order whose bundle is ready does;
one released before it began an iteration hands its chunk back and leaves (R221). -/
def execHelperBeat (u : Nat) (up : Upset) (s : State) : Out :=
  match groupOf s u with
  | none => .next s
  | some g =>
    match g.party with
    | none => .next s
    | some pt =>
      if pt.helper == 0 || pt.gone || g.st != .active then .next s
      else if pt.release && !pt.begun then .next (leaveWithRest s u)
      else if !coreIssues s g.die g.core || stalledNative s g then .next s
      else if pt.chunk.isNone then .next (claimNext s u)
      else if !(helperOrder s g.die g.core).contains u then .next s
      else .next { takeUp s u with issuing := true, upset := up }

/-! ## Activation and demotion (R23, R25, R26) -/

/-- Groups of a core whose images stand in its fast file. -/
def fastOn (s : State) (die core : Nat) : List Group :=
  (heldGroups s).filter fun g => g.party.isNone && g.die == die && g.core == core && g.fast

def Group.bytes (g : Group) : Nat := footprint g.budget g.width

/-- ACTIVATION (R17, R25): the oldest READY group of a core takes an active slot; its woken clusters are ready (R296). -/
def execActivation (u : Nat) (s : State) : Out :=
  match groupOf s u with
  | none => .next s
  | some g =>
    let on := fastOn s g.die g.core
    if g.st == .ready && !mustStop s g && coreUsable s g.die g.core
        && (readyOn s g.die g.core).all (fun x => decide (g.age ≤ x.age))
        && decide (on.length < Config.activeMax g.die
          ∧ (on.map Group.bytes).sum + Group.bytes g ≤ Config.fastFile g.die) then
      .next (modGroup s u fun g => setNative { g with st := .active, fast := true, bundles := 0 } fun n => { n with woken := [] })
    else .next s

/-- DEMOTION (R26). -/
def execDemotion (u : Nat) (s : State) : Out :=
  match groupOf s u with
  | none => .next s
  | some g =>
    if demotes s g then
      .next (releaseHelpers (modGroup s u fun g => { g with st := .ready, fast := false }) u)
    else .next s

/-- WAITING_DEMOTION (R23): after 256 cycles in WAITING while a READY group exists, once the group's batches have
completed (R245); helpers that borrow its slots leave (R221). -/
def execWaitingDemotion (u : Nat) (s : State) : Out :=
  match groupOf s u with
  | none => .next s
  | some g =>
    if g.st == .waiting && g.party.isNone && g.fast && decide (g.since + 256 ≤ s.cycle)
        && g.batchesDone == g.mfences && !(readyOn s g.die g.core).isEmpty then
      .next (releaseHelpers (modGroup s u fun g => { g with fast := false }) u)
    else .next s

/-! ## The end of a group (R18, R23, R200) -/

/-- Counts an ended group for its launch: a detached group, the records of a task group, or a team whose
last group has ended; the launch's release will carry its stores (R87). -/
def countEnd (s : State) (g : Group) : State :=
  let s := modLaunch s g.launch fun l => { l with ends := carryNow s g .package :: l.ends }
  match g.kind with
  | .spawned => modLaunch s g.launch fun l => { l with dets := l.dets - 1 }
  | .task => modLaunch s g.launch fun l => { l with tasks := l.tasks - g.teamIdx.length }
  | .team =>
    if (heldGroups s).any (fun x => x.kind == .team && x.team == g.team) then s
    else modLaunch { s with teams := s.teams.filter fun t => t.uid != g.team } g.launch fun l =>
      { l with ended := l.ended + 1 }
  | .party => s

/-- The issuing group ends; a token error that it never observed traps it at its exit instead, that of the command issued
first (R200). An exit that such an error could still trap performs its releases here (R88). -/
def endCur (s : State) : State :=
  let g := s.cur
  if g.party.isSome || g.st != .active || g.active != 0 || g.exited != fullMask g.width
      || !(cmdsBy s g.uid).isEmpty then s
  else match tokErrs g with
    | e :: _ =>
      raiseAt (setCur s fun g =>
        { backUp g with
          active := g.lastExit, exited := g.exited &&& ~~~g.lastExit, exitDue := false,
          ctrs := g.ctrs.map fun c => { c with errs := c.errs.filter fun x => x.cmd != e.cmd } })
        e.trap e.ppc
    | [] =>
      let s := if g.exitDue then exitReleases s g.lastExit true else s
      countEnd (dropGroup (drainQ s) g.uid) g

/-- GROUP_END (R23). -/
def execGroupEnd (u : Nat) (s : State) : Out := .next (asCur s u endCur)

/-! ## Freezes and scheduler repairs (R303, R415, R416) -/

/-- FREEZE_END (R303, R406). -/
def execFreezeEnd (die core : Nat) (s : State) : Out :=
  match (coreOf s die core).frozenTo with
  | some t =>
    if t ≤ s.cycle then .next (modCore s die core fun c => { c with frozenTo := none }) else .next s
  | none => .next s

/-- A context enters FAULTED: every group of its launches stops (R45, R416). -/
def faultContext (s : State) (c : Nat) : State :=
  let s := faultQueues (modCtx s c fun x => { x with st := .faulted, firedAt := x.firedAt.or (some s.cycle) }) c
  let us := ((heldGroups s).filter fun g => g.ctx == c && g.party.isNone).map (·.uid)
  let s := us.foldl releaseHelpers s
  us.foldl (fun s u => askStop s u 5) s

/-- A machine check (R416): the cluster goes offline with its groups HALTED and their contexts FAULTED,
the function's vector 0 is signalled, and a dump starts (R423). -/
def machineCheck (s : State) (die cluster ctx : Nat) (ppc : Nat × Nat) : State :=
  let s := logError s { ctx, ppc, die, core := cluster * 16, addr := 0, struct := 11, cls := 9, synd := 0 }
  let s := modCluster s die cluster fun c => { c with offline := true, illegal := false }
  let here := (heldGroups s).filter fun g => g.die == die && g.core / 16 == cluster
  let s := here.foldl (fun s g => if g.party.isSome then s
    else if g.st == .halted then s else stopQuiet s g.uid 5) s
  let s := (here.map (·.ctx)).eraseDups.foldl faultContext s
  startDump { s with rel := { s.rel with msix := 0 :: s.rel.msix } } 1

/-- SCHEDULER_ILLEGAL_STATE (R415): the cluster stops issuing; the second one within 100,000 ticks is a
machine check. -/
def execSchedulerIllegalState (die cluster : Nat) (s : State) : Out :=
  let c := clusterOf s die cluster
  if c.offline || decide (Config.clustersOf die ≤ cluster) || s.boot != .running then .next s
  else
    let again := match c.lastIllegal with
      | some t => decide (s.tick < t + 100000)
      | none => false
    let s := modCluster s die cluster fun c => { c with illegal := true, lastIllegal := some s.tick }
    .next (if again then machineCheck s die cluster 0 (0, 0) else s)

/-- SCHEDULER_REBUILT (R415). -/
def execSchedulerRebuilt (die cluster : Nat) (s : State) : Out :=
  if (clusterOf s die cluster).illegal then
    .next (logError (modCluster s die cluster fun c => { c with illegal := false })
      { ctx := 0, ppc := (0, 0), die, core := cluster * 16, addr := 0, struct := 11, cls := 7, synd := 0 })
  else .next s

/-! ## Illegal bundles (R288) -/

/-- A bundle of the issuing group is NATIVE_ILLEGAL: the cluster's copy is invalid, the group stands at its
region's entry, and every group of the cluster that runs the translation stalls; the second time at one
bundle is a machine check. -/
def nativeIllegal (s : State) : State :=
  match s.cur.native with
  | none => s
  | some n =>
    let g := s.cur
    let cl := g.core / 16
    let off := n.at_.1 + 1 + n.at_.2
    let here (e : CacheEnt) : Bool := e.die == g.die && e.cluster == cl && e.tr == n.tr
    let note (s : State) (reason : Nat) : State := match transOf s n.tr with
      | some t => xlatTransEvent s g.die cl g.ctx t reason
      | none => s
    let s := note s 7
    if s.cache.any (fun e => here e && e.ill.contains off) then
      let s := note s 9
      machineCheck (setCur s fun g => backUp g) g.die cl g.ctx (ppcOf g)
    else
      let mark (e : CacheEnt) : CacheEnt := { e with valid := false, ill := off :: e.ill }
      let new : CacheEnt :=
        { die := g.die, cluster := cl, tr := n.tr, used := s.tick, valid := false, ill := [off] }
      let ents := if s.cache.any here then modBy here mark s.cache else new :: s.cache
      let s := toRegion { s with cache := ents }
      let stall (x : Group) : Group :=
        if x.die == g.die && x.core / 16 == cl && x.native.any (fun k => k.tr == n.tr) then
          setNative x fun k => { k with stalled := true } else x
      { s with cur := stall s.cur, others := s.others.map stall }

/-- TRANSLATION_REGENERATED (R288): the same bytes are installed again, and the stalled groups go on. -/
def execTranslationRegenerated (die cluster tr : Nat) (s : State) : Out :=
  let go (x : Group) : Group :=
    if x.die == die && x.core / 16 == cluster && x.native.any (fun k => k.tr == tr) then
      setNative x fun k => { k with stalled := false } else x
  if s.cache.any (fun e => e.die == die && e.cluster == cluster && e.tr == tr && !e.valid) then
    .next { s with
      cache := modBy (fun e => e.die == die && e.cluster == cluster && e.tr == tr)
        (fun e => { e with valid := true }) s.cache,
      cur := go s.cur, others := s.others.map go }
  else .next s

/-! ## Latencies that vary (R198, R300) -/

/-- TOKEN_COMPLETE (R198, R199): the retriever works on the units named, and completes the command's token
when every unit is done. -/
def execTokenComplete (cmd : Nat) (units : List Nat) (s : State) : Out :=
  match cmdOf s cmd with
  | none => .next s
  | some c =>
    if coreFrozen s c.die c.core then .next s
    else
      let s := units.foldl (fun s n => workUnit s cmd n) s
      match cmdOf s cmd with
      | none => .next s
      | some c => .next (match c.by_ with
        | .group _ _ => if cmdFinished s c then completeCmd s c else s
        | .packet _ _ => s)

/-- VARIABLE_LATENCY_COMPLETE (R300): operation `op` of those under way writes its results. -/
def execVariableLatencyComplete (u op : Nat) (s : State) : Out :=
  match groupOf s u with
  | none => .next s
  | some g =>
    if coreFrozen s g.die g.core then .next s
    else match g.native with
      | none => .next s
      | some n =>
        match n.var[op]? with
        | none => .next s
        | some v => .next (modGroup s u fun g =>
            let g := v.dsts.foldl (fun g d => landDst g d.1 d.2.1 d.2.2) g
            setNative g fun n => { addFlag n v.flag (-1) with var := n.var.eraseIdx op })

/-! ## Stores on their way (R70, R71) -/

/-- STORE_LEAVES_QUEUE (R70): the oldest store of a group's queue becomes visible to its core. -/
def execStoreLeavesQueue (u : Nat) (s : State) : Out :=
  match groupOf s u with
  | none => .next s
  | some g =>
    match g.storeQ with
    | [] => .next s
    | q :: qs =>
      .next (modGroup { s with mem := drainStores s.steps g [q] s.mem } u fun g => { g with storeQ := qs })

/-- STORE_BECOMES_VISIBLE (R71, R72): a store visible to its own core becomes visible to another observer,
with all that its releases carry. -/
def execStoreBecomesVisible (store : Nat) (o : Obs) (s : State) : Out :=
  .next (setMem s fun m => m.mark (fun st => st.id == store && !st.seenBy o) (.one o) s.steps)

/-- RANDOM_BIT_QUEUE_REFILL (R107): one word of 16 outputs, while the queue holds fewer than 8. -/
def execRandomBitQueueRefill (u : Nat) (s : State) : Out :=
  .next (modGroup s u fun g =>
    if g.rq.length < 8 then
      let (w, gen) := genRun 16 g.gen
      { g with rq := g.rq ++ [w], gen }
    else g)

end Sys2Proof.Machine
end

