-- ==== Sys2Proof/Machine/Packets.lean ====
section
/-! DEFINITION. The packets that are no launches (18_queues_launch.md R361, R362; 20 R390, R393, R394;
17 R345). -/

namespace Sys2Proof.Machine

open Sys2Proof

/-- NOP (R361). -/
def execNop (h : PktHdr) (s : State) : Out := withCtx s h (.nop h) fun _ s => complete s h .ok

/-- SIGNAL (R361). -/
def execSignal (h : PktHdr) (s : State) : Out := withCtx s h (.signal h) fun _ s => complete s h .ok

/-- MEASURE (R390): a USER record. -/
def execMeasure (h : PktHdr) (value : List Byte) (tag : BitVec 16) (s : State) : Out :=
  withCtx s h (.measure h value tag) fun qu s =>
    complete (extend s qu.ctx 6 (natBytes 8 tag.toNat ++ value)) h .ok

/-! ## RECEIPT (R393, R394) -/

/-- `n` bytes, cut or filled with zeros. -/
def fitBytes (n : Nat) (bs : List Byte) : List Byte := (bs ++ List.replicate n 0).take n

/-- CERT_ID: the first 8 bytes of the digest of both certificate chains. -/
def certId : Nat := leNat ((sha384 (Config.certChain 0 ++ Config.certChain 1)).take 8)

/-- The 128 signed bytes of a receipt. -/
def receiptBody (s : State) (c : Ctx) (nonce : List Byte) : List Byte :=
  let i := c.isobar
  let some_ := decide (0 < i.launches)
  natBytes 40 (recNat [(s.tick, 256), (i.launches, 192), (i.receipts + 1, 160), (c.id, 128), (certId, 64),
      (i.result.toNat, 51), (c.confidential.toNat, 50), ((some_ && i.detAll).toNat, 49),
      ((some_ && i.checkedAll).toNat, 48), (1, 32), (0x43524B42, 0)])
    ++ fitBytes 32 nonce ++ fitBytes 48 i.h ++ List.replicate 8 0

/-- A receipt of 3,504 bytes. -/
def receiptOf (s : State) (c : Ctx) (nonce : List Byte) : List Byte :=
  let b := receiptBody s c nonce
  fitBytes 3504 (b ++ fitBytes 64 (Config.ed25519Sign b) ++ fitBytes 3309 (Config.mldsaSign b))

/-- Writes bytes in a context's far space, page by page, until one cannot be written. -/
def frontPut (ctx : Nat) : (pages va : Nat) → List Byte → State → Option (Option Nat) × State
  | 0, _, _, s => (none, s)
  | p + 1, va, bs, s =>
    if bs.isEmpty then (none, s)
    else match frontKey s ctx va with
      | (.ok k, s) =>
        let m := 4096 - va % 4096
        frontPut ctx p (va + m) (bs.drop m) (putAs s .frontEnd (ctxSeal s ctx) (bytesKeyed k (bs.take m)))
      | (.error e, s) => (some e, s)

/-- RECEIPT (R393): H is taken at the instant at which the receipt can be written. -/
def execReceipt (h : PktHdr) (nonce : List Byte) (out : BitVec 64) (outBytes : BitVec 32) (s : State) : Out :=
  let i : Instr := .receipt h nonce out outBytes
  withCtx s h i fun qu s =>
    match ctxOf s qu.ctx with
    | none => s
    | some c =>
      match frontPut qu.ctx 3 out.toNat (receiptOf s c nonce) s with
      | (some (some page), s) => parkStart s i page
      | (r, s) =>
        let s := modCtx s qu.ctx fun c => { c with isobar := { c.isobar with receipts := c.isobar.receipts + 1 } }
        complete s h (if r.isSome then .farFault else .ok)

/-! ## TIMESTAMP (R361) -/

/-- The writes still to be made of a time stamp: the start's count, then the completion's. -/
def stampGo (s : State) (h : PktHdr) (ctx : Nat) (a : BitVec 64) (start : Option Nat) : State :=
  let put (s : State) (k t : Nat) : State := putAs s .frontEnd (ctxSeal s ctx) (bytesAt 8 k (low 64 t))
  let second (s : State) : State :=
    match frontKey s ctx (a.toNat + 8) with
    | (.ok k, s) => complete (put s k s.tick) h .ok
    | (.error (some p), s) => parkStarted s h (.stamp a none) p
    | (.error none, s) => complete s h .ok
  match start with
  | none => second s
  | some t =>
    match frontKey s ctx a.toNat with
    | (.ok k, s) => second (put s k t)
    | (.error (some p), s) => parkStarted s h (.stamp a (some t)) p
    | (.error none, s) => second s

/-- TIMESTAMP (R361). -/
def execTimestamp (h : PktHdr) (a : BitVec 64) (s : State) : Out :=
  withCtx s h (.timestamp h a) fun qu s => stampGo s h qu.ctx a (some s.tick)

/-! ## QUEUE_CTRL (R345, R361) -/

def ctxDebug (s : State) (c : Nat) : Bool :=
  match ctxOf s c with
  | some c => c.debugCtl.getLsbD 0
  | none => false

/-- The check of HALT_CONTEXT and RESUME_CONTEXT; `f` is done where both may be. -/
def ctrl (s : State) (h : PktHdr) (i : Instr) (f : Nat → State → State) : Out :=
  match queueOf s h.q with
  | none => .next s
  | some qu =>
    if !qu.priv then .next (complete s h .privilege)
    else withCtx s h i fun qu s =>
      if ctxDebug s qu.ctx then complete (f qu.ctx s) h .ok else complete s h .debugCtl

/-- HALT_CONTEXT (R345): every group of the context is asked to stop. -/
def execHaltContext (h : PktHdr) (s : State) : Out :=
  ctrl s h (.haltContext h) fun c s =>
    (((heldGroups s).filter fun g => g.ctx == c && g.party.isNone).map (·.uid)).foldl (fun s u => askStop s u 3) s

/-- RESUME_CONTEXT (R23, R345): the groups stopped by a halt request, a `trap` or a `brk` go on. -/
def execResumeContext (h : PktHdr) (s : State) : Out :=
  ctrl s h (.resumeContext h) fun c s =>
    (((heldGroups s).filter fun g => g.ctx == c && g.st == .halted && decide (1 ≤ g.stopCode ∧ g.stopCode ≤ 3)).map
      (·.uid)).foldl resumeGroup s

/-- DISABLE_QUEUE (R361): completes, then the queue loses its slot and ENABLED. -/
def execDisableQueue (h : PktHdr) (s : State) : Out :=
  withCtx s h (.disableQueue h) fun qu s =>
    let s := complete s h .ok
    let s := match slotOf s h.q with
      | some i => unmapSlot s i (some (if (startedOf s h.q).isEmpty then 0 else 2))
      | none => s
    modQueue (setQcbEnabled s qu.qcb false) h.q fun z => { z with pendingSince := none }

/-- SET_PRIORITY (R361). -/
def execSetPriority (h : PktHdr) (prio : BitVec 8) (s : State) : Out :=
  withCtx s h (.setPriority h prio) fun qu s => complete (setQcbPriority s qu.qcb prio.toNat) h .ok

/-! ## COPY (R362) -/

/-- The compute die whose bonded DRAM a far address maps: none elsewhere, and `none` for a fault. -/
def homeDie (s : State) (ctx va : Nat) (write : Bool) : Option (Option Nat) :=
  match (farKey s ctx va write).1 with
  | .hit k => some (if 16 ≤ k / 2 ^ 60 ∧ k / 2 ^ 60 < 24 then some (k / 2 ^ 60 - 16) else none)
  | _ => none

/-- The die whose core 0 performs a COPY packet (R362). -/
def copyDie (s : State) (ctx src dst : Nat) : Nat :=
  match homeDie s ctx dst true with
  | none => 0
  | some (some d) => d
  | some none =>
    match homeDie s ctx src false with
    | some (some d) => d
    | _ => 0

/-- COPY (R80, R193, R361, R362). -/
def execCopy (h : PktHdr) (src dst count : BitVec 64) (s : State) : Out :=
  withCtx s h (.copy h src dst count) fun qu s =>
    if count == 0 then complete s h .ok
    else
      let die := copyDie s qu.ctx src.toNat dst.toNat
      let (u, s) := fresh s
      let pat (a : BitVec 64) : Pat := { base := a.toNat, near := false, c0 := count.toNat, lv := [] }
      let c : Cmd :=
        { uid := u, by_ := .packet h.q h.n, die, core := 0, ctx := qu.ctx, launch := 0, ppc := (0, 0),
          op := .copy (pat src) (pat dst),
          acq := (pktReach h.acq.toNat).toList.map fun r => { reach := r, at_ := s.steps, carried := [] },
          rel := pktReach h.rel.toNat, carries := [], fetched := [], done := [], parked := [],
          err := none, team := 0, from_ := s.steps, iter := 0, cut := false }
      let s := { s with cmds := s.cmds ++ [c] }
      modStarted s h.q h.n fun p => { p with work := .copy u }

/-- The header of a started packet. -/
def startedAt (s : State) (q : QRef) (n : Nat) : Option Started :=
  s.front.started.find? fun p => p.hdr.q == q && p.hdr.n == n

/-- COPY_PACKET_COMPLETE (R362): its release, then its completion area. -/
def execCopyPacketComplete (q : QRef) (n : Nat) (s : State) : Out :=
  match startedAt s q n with
  | none => .next s
  | some p =>
    match p.work with
    | .copy u =>
      match cmdOf s u with
      | none => .next s
      | some c =>
        if cmdFinished s c then
          let s := completeCmd s c
          let s := { s with cmds := s.cmds.filter fun x => x.uid != u }
          .next (complete s p.hdr (match c.err with | some _ => .farFault | none => .ok))
        else .next s
    | _ => .next s

/-! ## BARRIER_AND and WAIT_SIGNAL (R361) -/

/-- One read of a signal word; a word on the page that the packet is parked on is not read. -/
def pollWord (s : State) (ctx : Nat) (p : Started) (a : BitVec 64) : Except (Option Nat) Nat :=
  match p.parked with
  | some (_, page) =>
    if a.toNat / 4096 = page then .error (some page) else (frontRead s ctx 8 a.toNat).map leNat
  | none => (frontRead s ctx 8 a.toNat).map leNat

/-- Records the page that a read has newly parked on. -/
def pollPark (s : State) (p : Started) (rs : List (Except (Option Nat) Nat)) : State :=
  if p.parked.isSome then s
  else match rs.findSome? fun r => (match r with | .error e => e | .ok _ => none) with
    | some page => parkStarted s p.hdr p.work page
    | none => s

def readDead (r : Except (Option Nat) Nat) : Bool :=
  match r with
  | .error none => true
  | _ => false

/-- One reading of the signal words of a waiting packet; it completes where its condition holds. -/
def poll (s : State) (p : Started) : State :=
  let ctx := match queueOf s p.hdr.q with
    | some qu => qu.ctx
    | none => 0
  let s := { s with free := s.free + 1 }
  match p.work with
  | .barrier addrs =>
    let rs := addrs.map (pollWord s ctx p)
    if rs.any readDead then complete s p.hdr .farFault
    else if rs.all (fun r => match r with | .ok x => x == 0 | .error _ => false) then complete s p.hdr .ok
    else pollPark s p rs
  | .wait a v cmp _ =>
    let r := pollWord s ctx p a
    if readDead r then complete s p.hdr .farFault
    else match r with
      | .ok x => if sigHolds cmp x v.toNat then complete s p.hdr .ok else s
      | .error _ => pollPark s p [r]
  | _ => s

/-- BARRIER_AND (R361). -/
def execBarrierAnd (h : PktHdr) (addrs : List (BitVec 64)) (s : State) : Out :=
  withCtx s h (.barrierAnd h addrs) fun _ s =>
    let p : Started := { hdr := h, work := .barrier addrs, parked := none }
    poll (modStarted s h.q h.n fun _ => p) p

/-- WAIT_SIGNAL (R361). -/
def execWaitSignal (h : PktHdr) (a v : BitVec 64) (cmp : SigCmp) (timeout : BitVec 32) (s : State) : Out :=
  withCtx s h (.waitSignal h a v cmp timeout) fun _ s =>
    let dl := if timeout == 0xFFFFFFFF then none else some (s.tick + timeout.toNat)
    let p : Started := { hdr := h, work := .wait a v cmp dl, parked := none }
    poll (modStarted s h.q h.n fun _ => p) p

/-- SIGNAL_POLL (R361). -/
def execSignalPoll (q : QRef) (n : Nat) (s : State) : Out :=
  match startedAt s q n with
  | some p => .next (poll s p)
  | none => .next s

/-- WAIT_SIGNAL_TIMEOUT (R361). -/
def execWaitSignalTimeout (q : QRef) (n : Nat) (s : State) : Out :=
  match startedAt s q n with
  | some p =>
    match p.work with
    | .wait _ _ _ (some d) => if d ≤ s.tick then .next (complete s p.hdr .timeout) else .next s
    | _ => .next s
  | none => .next s

end Sys2Proof.Machine
end

