-- ==== Sys2Proof/Machine/Verify.lean ====
section
/-! DEFINITION. The verifier (05_tvf_language_encoding.md R118 to R137, R436; 10 R232, R233, R244): every
rule that an object breaks, with its place, and the record of the lowest. -/

namespace Sys2Proof.Machine

open Sys2Proof

/-! ## Records -/

def noVal : Nat := 0xFFFFFF
def noFn : Nat := 0xFFFF

/-- A failure outside every body, where `ok` does not hold. -/
def outside (ok : Bool) (reason off : Nat) : List VerifyRec :=
  if ok then [] else [{ offset := off, reason, fn := noFn, value := noVal }]

/-- The record that is reported: the lowest offset, and there the lowest reason (R136). -/
def lowest : List VerifyRec → Option VerifyRec
  | [] => none
  | r :: rest =>
    match lowest rest with
    | none => some r
    | some b => if r.offset < b.offset ∨ (r.offset = b.offset ∧ r.reason ≤ b.reason) then some r else some b

def up16 (x : Nat) : Nat := (x + 15) / 16 * 16

/-! ## Header (R118) -/

def objCpSize (ws : List Word) : Nat := wd ws 10
def objDbgOff (ws : List Word) : Nat := wd ws 11
def objDbgSize (ws : List Word) : Nat := wd ws 12

/-- The end of the function-table part: its entries or its last body. -/
def fnEnd (ws : List Word) : Nat :=
  (List.range (objFnCount ws)).foldl (fun m k => max m ((fnInfo ws k).bodyOff + 4 * (fnInfo ws k).words))
    (64 + 16 * objFnCount ws)

/-- The header's failures (R118). For a CP_SIZE too small to hold CP_COUNT entries the spec names neither the reason nor the
field: DESIGN CHOICE, HEADER at CP_SIZE, byte 40 (unsafe: notes/assumptions/70.md). -/
def headerFails (ws : List Word) : List VerifyRec :=
  let f (ok : Bool) (off : Nat) : List VerifyRec := outside ok 1 off
  f (wd ws 0 == 0x31465654) 0 ++ f (wd ws 1 % 65536 == 0) 4 ++ f (wd ws 1 / 65536 == 1) 6
    ++ f (wd ws 2 == (if objDbgSize ws = 0 then 0 else 1)) 8
    ++ f (objSize ws - 48 == up16 (objDbgOff ws + objDbgSize ws)) 12
    ++ f (objFnOff ws == 64) 16 ++ f (objFnCount ws != 0) 20
    ++ f (objKnOff ws == up16 (fnEnd ws)) 24
    ++ f (objHlOff ws == up16 (objKnOff ws + 32 * objKnCount ws)) 28
    ++ f (objCpOff ws == up16 (objHlOff ws + 8 * objHlCount ws)) 36
    ++ f (decide (8 * objCpCount ws ≤ objCpSize ws)) 40
    ++ f (objDbgOff ws == up16 (objCpOff ws + objCpSize ws)) 44
    ++ f (wd ws 13 == 0 && wd ws 14 == 0 && wd ws 15 == 0) 52

/-- The bytes between the end of a part and the next are zero. -/
def gapFails (ws : List Word) : List VerifyRec :=
  let gap (a b : Nat) : List VerifyRec :=
    match (List.range (b - a)).find? fun i => objBytes ws 1 (a + i) != 0 with
    | some i => outside false 1 (a + i)
    | none => []
  gap (fnEnd ws) (objKnOff ws) ++ gap (objKnOff ws + 32 * objKnCount ws) (objHlOff ws)
    ++ gap (objHlOff ws + 8 * objHlCount ws) (objCpOff ws) ++ gap (objCpOff ws + objCpSize ws) (objDbgOff ws)
    ++ gap (objDbgOff ws + objDbgSize ws) (objSize ws - 48)

/-! ## Debug records (R124) -/

/-- The records of the debug section, (offset, type, length), and whether they fill it. -/
def dbgRecs (ws : List Word) : (fuel off end_ : Nat) → List (Nat × Nat × Nat) × List VerifyRec
  | 0, _, _ => ([], [])
  | n + 1, off, e =>
    if e ≤ off then ([], [])
    else
      let w := objBytes ws 4 off
      let len := w % 2 ^ 24
      if len < 4 ∨ len % 4 ≠ 0 ∨ e < off + len then ([], outside false 3 off)
      else
        let (rs, fs) := dbgRecs ws n (off + len) e
        ((off, w / 2 ^ 24, len) :: rs, fs)

def dbgAll (ws : List Word) : List (Nat × Nat × Nat) × List VerifyRec :=
  dbgRecs ws (objDbgSize ws / 4 + 1) (objDbgOff ws) (objDbgOff ws + objDbgSize ws)

/-- Whether an offset names a string of the pool. Whether it may point into the middle of one the spec does not say:
DESIGN CHOICE, it may at a character, and not inside a character's bytes (unsafe: notes/assumptions/70.md). -/
def nameIn (ws : List Word) (recs : List (Nat × Nat × Nat)) (n : Nat) : Bool :=
  recs.any fun r => r.2.1 == 1 && decide (n < r.2.2 - 4)
    && (let b := objBytes ws 1 (r.1 + 4 + n); decide (b < 0x80 ∨ 0xC0 ≤ b))

def nameOk (ws : List Word) (recs : List (Nat × Nat × Nat)) (n : Nat) : Bool := n == 0xFFFFFFFF || nameIn ws recs n

/-- Well-formed UTF-8, from a state of continuation bytes still wanted and the range of the next byte. -/
def utf8 : List Nat → (more lo hi : Nat) → Bool
  | [], more, _, _ => more == 0
  | b :: bs, 0, _, _ =>
    if b < 0x80 then utf8 bs 0 0x80 0xBF
    else if 0xC2 ≤ b ∧ b ≤ 0xDF then utf8 bs 1 0x80 0xBF
    else if b = 0xE0 then utf8 bs 2 0xA0 0xBF
    else if b = 0xED then utf8 bs 2 0x80 0x9F
    else if 0xE1 ≤ b ∧ b ≤ 0xEF then utf8 bs 2 0x80 0xBF
    else if b = 0xF0 then utf8 bs 3 0x90 0xBF
    else if b = 0xF4 then utf8 bs 3 0x80 0x8F
    else if 0xF1 ≤ b ∧ b ≤ 0xF3 then utf8 bs 3 0x80 0xBF
    else false
  | b :: bs, m + 1, lo, hi => decide (lo ≤ b ∧ b ≤ hi) && utf8 bs m 0x80 0xBF

/-- Failures of the debug records' own contents; `sizes` gives each function's values and blocks. That an item's function
index, value number or block index out of range, or a string offset outside the pool, breaks R124 is a DESIGN CHOICE, with
reason TABLE (unsafe: notes/assumptions/70.md). -/
def debugFails (ws : List Word) (sizes : List (Nat × Nat)) : List VerifyRec :=
  let (recs, fs) := dbgAll ws
  let pools := recs.filter fun r => r.2.1 == 1
  fs ++ (pools.drop 1).flatMap (fun r => outside false 3 (r.1 + 3))
    ++ (pools.take 1).flatMap (fun r =>
      let bs := (List.range (r.2.2 - 4)).map fun i => objBytes ws 1 (r.1 + 4 + i)
      outside ((bs.isEmpty || bs.getLast? == some 0) && utf8 bs 0 0x80 0xBF) 3 (r.1 + 4))
    ++ (recs.filter fun r => r.2.1 == 2 || r.2.1 == 3).flatMap fun r =>
      if (r.2.2 - 4) % 8 ≠ 0 then outside false 3 r.1
      else (List.range ((r.2.2 - 4) / 8)).flatMap fun i =>
        let a := r.1 + 4 + 8 * i
        let x := objBytes ws 8 a
        outside (decide (x % 65536 < objFnCount ws)) 3 a
          ++ (match sizes[x % 65536]? with
              | some z => outside (decide (bitsOf x 39 16 < if r.2.1 = 2 then z.1 else z.2)) 3 (a + 2)
              | none => [])
          ++ outside (nameIn ws recs (x / 2 ^ 40)) 3 (a + 5)

/-! ## Function, helper and constant tables (R119, R122, R123) -/

/-- A result type of a function. -/
def retOk (c : Nat) : Bool :=
  match Ty.ofCode (BitVec.ofNat 6 c) with
  | some t => t.isV
  | none => false

def bodyRange (ws : List Word) (k : Nat) : Nat × Nat :=
  ((fnInfo ws k).bodyOff, (fnInfo ws k).bodyOff + 4 * (fnInfo ws k).words)

/-- A function table entry's failures (R119). Of two bodies that overlap the spec does not say which entry breaks the rule:
DESIGN CHOICE, the later (unsafe: notes/assumptions/70.md). -/
def fnFails (ws : List Word) (recs : List (Nat × Nat × Nat)) (k : Nat) : List VerifyRec :=
  let a := 64 + 16 * k
  let f := wd ws (a / 4 + 2)
  let n := bitsOf f 7 6
  let (lo, hi) := bodyRange ws k
  let t (ok : Bool) (b : Nat) : List VerifyRec := outside ok 3 (a + b)
  let clash := (List.range k).any fun j => decide (lo < (bodyRange ws j).2 ∧ (bodyRange ws j).1 < hi)
  let helped := (List.range (objHlCount ws)).any fun h => (helperEntry ws h).1 == k
  t (lo % 16 == 0 && decide (64 + 16 * objFnCount ws ≤ lo ∧ hi ≤ objSize ws - 48) && !clash) 0
    ++ t (decide (2 ≤ (fnInfo ws k).words ∧ (fnInfo ws k).words ≤ 2 ^ 24)) 4
    ++ t (bitsOf f 3 0 == 0 && decide (bitsOf f 5 4 ≤ 1) && n != 3 && (bitsOf f 5 4 != 1 || helped)) 8
    ++ t (if n = 0 then bitsOf f 13 8 == 0 else retOk (bitsOf f 13 8)) 9
    ++ t (if n < 2 then bitsOf f 19 14 == 0 else retOk (bitsOf f 19 14)) 9
    ++ t (bitsOf f 31 20 == 0) 10 ++ t (nameOk ws recs (wd ws (a / 4 + 3))) 12

/-- A helper entry's failures (R122); of two entries of one function the later is reported (DESIGN CHOICE, as at `fnFails`). -/
def helperFails (ws : List Word) (h : Nat) : List VerifyRec :=
  let a := objHlOff ws + 8 * h
  let x := objBytes ws 8 a
  let fn := x % 65536
  let again := (List.range h).any fun j => (helperEntry ws j).1 == fn
  outside (decide (fn < objFnCount ws) && (fnInfo ws fn).helper && !again) 3 a
    ++ outside (decide (bitsOf x 19 16 ≤ 8) && x / 2 ^ 20 == 0) 3 (a + 2)

/-- A constant entry's failures (R123); of two whose data overlap the later is reported (DESIGN CHOICE, as at `fnFails`). -/
def constFails (ws : List Word) (c : Nat) : List VerifyRec :=
  let a := objCpOff ws + 8 * c
  let x := objBytes ws 8 a
  let off := x % 2 ^ 32
  let len := bitsOf x 55 32
  let e := Ty.ofCode (BitVec.ofNat 6 (bitsOf x 61 56))
  let num := match e with
    | some t => t.isInt || t.isFloat
    | none => false
  let size := match e with
    | some t => max 1 t.bytes
    | none => 1
  let range (j : Nat) : Nat × Nat :=
    let y := objBytes ws 8 (objCpOff ws + 8 * j)
    (y % 2 ^ 32, y % 2 ^ 32 + bitsOf y 55 32)
  let clash := (List.range c).any fun j => decide (off < (range j).2 ∧ (range j).1 < off + len)
  outside (off % 16 == 0 && decide (8 * objCpCount ws ≤ off ∧ off < objCpSize ws) && !clash) 3 a
    ++ outside (decide (1 ≤ len ∧ off + len ≤ objCpSize ws) && len % size == 0) 3 (a + 4)
    ++ outside (num && bitsOf x 63 62 == 0) 3 (a + 7)

/-! ## Bodies -/

/-- A function under verification: its number, its body and its facts. -/
structure FnView where
  fn : Nat
  base : Nat
  body : Body
  types : List VTy
  kernel : Bool
  ret : List Ty
  deriving DecidableEq, Repr

def FnView.of (ws : List Word) (k : Nat) : FnView :=
  let b := Body.of ws k
  { fn := k, base := (fnInfo ws k).bodyOff, body := b, types := b.valTypes,
    kernel := (List.range (objKnCount ws)).any fun i => (kernelOf ws i).fn == k, ret := (fnInfo ws k).rets }

/-- A failure at a place of an item. -/
def FnView.fail (f : FnView) (it : VItem) (l : Loc) (reason : Nat) (value : Nat) : VerifyRec :=
  { offset := f.base + it.byte l, reason, fn := f.fn, value }

/-- The parameters of a function: the arguments of its entry block. -/
def paramsOf (ws : List Word) (k : Nat) : List VTy :=
  match (vitems ws k).head? with
  | some it => if it.blk.isSome then it.types else []
  | none => []

/-- Whether a value counts as uniform (R32). -/
def FnView.uniform (f : FnView) (v : Nat) : Bool :=
  match f.body.defOf v with
  | none => false
  | some i =>
    match f.body.item i with
    | none => false
    | some it =>
      match it.ins with
      | none => f.kernel && i == 0
      | some x => x.encUni || (match x with
          | .const _ | .rdfirst _ _ => true
          | _ => false)

/-- Whether operand `j` of an instruction must be uniform (R32, R167, R188, R208, R226, R227, R231). -/
def wantsUni (i : Instr) (j : Nat) : Bool :=
  i.encUni || match i with
    | .barWait _ _ | .waitAny _ | .waitAll _ | .yield _ => true
    | .copyIn _ | .copyOut _ | .copyNear _ | .gather _ | .scatter _ | .csrRows _ | .bsrBlocks _ | .isect _
    | .reduceFar _ => true
    | .spawn _ | .setfmt _ | .rngSeed _ => true
    | .tileFill _ => true
    | .tileLoad _ => true
    | .tileStore _ => decide (j < 2)
    | .mmaF8s _ => j == 4
    | .mmaSp _ => j == 5
    | _ => false

def meetsTile (d : TileDesc) (rows cols : Nat) (es : List Elem) : Bool :=
  d.rows == rows && d.cols == cols && es.contains d.elem

/-- Whether a tile fits operand `j` of an instruction (R234, R239). -/
def tileFits (i : Instr) (j : Nat) (d : TileDesc) : Bool :=
  let dense (o : TileDesc) (k : Nat) (es : List Elem) : Bool :=
    match j with
    | 0 => meetsTile d o.rows k es
    | 1 => meetsTile d k o.cols es
    | _ => d == o
  let scale (s : BitVec 2) : List Elem := if s = 1 then [.f32] else if s = 2 then [.i8] else [.f32, .i8]
  match i with
  | .tileStore o => d == o.d
  | .tileCvt o => d.rows == o.d.rows && d.cols == o.d.cols
  | .tileInsert o => d == o.d
  | .mmaF8s o => if j = 3 then meetsTile d o.d.rows 1 (scale o.sfmt) else dense o.d 128 [.e4m3, .e5m2]
  | .mmaBf16 o => dense o.d 64 [.bf16]
  | .mmaF16 o => dense o.d 64 [.f16]
  | .mmaI8 o => dense o.d 128 [.i8]
  | .mmaSp o =>
    let kb := if o.form = 0 ∨ o.form = 3 then 128 else 64
    let kc := kb * (16 * (o.keep.toNat + 1)) / 64
    let es : List Elem :=
      if o.form = 0 then [.e4m3, .e5m2] else if o.form = 1 then [.bf16] else if o.form = 2 then [.f16] else [.i8]
    match j with
    | 0 => meetsTile d o.d.rows kb es
    | 1 => meetsTile d kc o.d.cols es
    | 2 => meetsTile d kc o.d.cols [.i8]
    | 3 => d == o.d
    | _ => meetsTile d o.d.rows 1 (scale o.s2)
  | _ => true

/-- The element of the scale tile of a matrix operation, when its operand is a known tile. -/
def scaleElem (f : FnView) (i : Instr) : Option Elem :=
  let sa := match i with
    | .mmaF8s o => some o.sa
    | .mmaSp o => o.scales.map fun (p : Opd × Opd) => p.1
    | _ => none
  (sa.bind Opd.num).bind fun v => (f.types[v]?).bind fun t => t.2.map fun (d : TileDesc) => d.elem

/-- Whether a value's type meets an operand's requirement, and the reason where it does not. -/
def needFits (f : FnView) (i : Instr) (u : OpUse) (t : VTy) : Option Nat :=
  let chk (b : Bool) : Option Nat := if b then none else some 11
  match u.need with
  | none => none
  | some n =>
    match n with
    | .is ty | .value ty => chk (t.1 == ty)
    | .offset => chk (t.1 == .i32)
    | .literal _ | .within _ _ => some 12
    | .narrower w => chk (t.1 == .i1 || (t.1.isInt && decide (t.1.width < w)))
    | .wider w => chk (t.1.isInt && decide (w < t.1.width))
    | .sameWidth w => chk (t.1.isData && t.1.width == w)
    | .stream => chk t.1.isAddr
    | .addr ty => if t.1 == ty then none else some 0x15
    | .tile => match t.2 with
      | some d => chk (tileFits i u.pos d)
      | none => some 11
    | .scale (some ty) => chk (t.1 == ty)
    | .scale none => chk (match scaleElem f i with
      | some e => t.1 == (if e == .f32 then Ty.f32 else Ty.i8)
      | none => t.1 == .f32 || t.1 == .i8)
    | .chunk => chk (t.1 == .i32)

/-- Failures of a value used at a word of an item: number, dominance, uniformity. -/
def FnView.useFails (f : FnView) (idx : Nat) (it : VItem) (word v : Nat) (uni : Bool) : List VerifyRec :=
  let bad (r : Nat) : VerifyRec := f.fail it (.word word 0) r v
  match f.body.defOf v with
  | none => [bad 13]
  | some d =>
    (if f.body.before d idx || !(f.body.reach [0]).contains (f.body.blockAt idx) then [] else [bad 13])
      ++ (match f.types[v]? with
          | some _ => if uni && !f.uniform v then [bad 10] else []
          | none => [])

/-- An operand that is held once for the group: a token, a batch or a tile. -/
def groupNeed : Option Sys2Proof.Need → Bool
  | some (.is t) => t == .tok || t == .batch || t == .tile
  | some (.value t) => t == .tok || t == .batch || t == .tile
  | some .tile => true
  | _ => false

/-- Failures of an operand that has a requirement. -/
def FnView.operandFails (f : FnView) (idx : Nat) (it : VItem) (i : Instr) (u : OpUse) : List VerifyRec :=
  match Opd.num u.opd with
  | some v =>
    f.useFails idx it u.word v (wantsUni i u.pos && !groupNeed u.need)
      ++ (match f.types[v]? with
          | some t => match needFits f i u t with
            | some r => [f.fail it (.word u.word 0) r v]
            | none => []
          | none => [])
  | none =>
    match u.need with
    | some n =>
      let ok := n.immOk u.opd && (match n, scaleElem f i with
        | .scale none, some e => immOk (if e == .f32 then .f32 else .i8) u.opd
        | _, _ => true)
      if ok then [] else [f.fail it (.word u.word 0) 12 noVal]
    | none => []

/-! ### Block targets (R132, R186) -/

/-- Failures of the arguments of a target against the types that its block declares. -/
def FnView.argFails (f : FnView) (idx : Nat) (it : VItem) (sym blk : Nat) : List VTy → List (Nat × Opd) → List VerifyRec
  | [], [] => []
  | [], _ :: _ => [f.fail it (.word sym 0) 14 blk]
  | _ :: _, [] => [f.fail it (.word sym 0) 14 blk]
  | t :: ts, (w, o) :: rest =>
    (match Opd.num o with
     | some v => f.useFails idx it w v false
        ++ (match f.types[v]? with
            | some x => if x == t then [] else [f.fail it (.word w 0) 14 v]
            | none => [])
     | none => if immOk t.1 o && t.1 != .tile then [] else [f.fail it (.word w 0) 12 noVal])
      ++ f.argFails idx it sym blk ts rest

def FnView.targetFails (f : FnView) (idx : Nat) (it : VItem) (yields : Bool) (t : TgtUse) : List VerifyRec :=
  let at_ (r : Nat) : List VerifyRec := [f.fail it (.word t.word 0) r t.blk]
  (if t.blk = 0 then at_ 15 else [])
  ++ match f.body.marks[t.blk]? with
    | none => at_ 16
    | some m =>
      match f.body.item m with
      | none => []
      | some mark =>
        if yields then
          match mark.types with
          | (.i32, _) :: ts => f.argFails idx it t.word t.blk ts t.args
          | _ => at_ 14
        else f.argFails idx it t.word t.blk mark.types t.args

/-! ### Calls and what is like them (R132, R206 to R209, R216, R217) -/

/-- A parameter type that `spawn` and `taskpost` take (R208). -/
def sendTy (t : VTy) : Bool := t.1.isData

/-- Whether an operand passes for a parameter. A value number beyond the function's values has no type that could
disagree: DESIGN CHOICE, since the spec does not say whether such an operand breaks SIGNATURE beside DOMINANCE, DOMINANCE at
its word alone is reported (unsafe: notes/assumptions/70.md). -/
def FnView.passes (f : FnView) (t : VTy) (o : Opd) : Bool :=
  match Opd.num o with
  | some v => (f.types[v]?).all (· == t)
  | none => true

def FnView.passAll (f : FnView) (ts : List VTy) (os : List Opd) : Bool :=
  ts.length == os.length && (ts.zip os).all fun p => f.passes p.1 p.2

/-- Failures of the symbol and of the signature of an instruction. -/
def FnView.linkFails (f : FnView) (ws : List Word) (it : VItem) (i : Instr) : List VerifyRec :=
  let sig (b : Bool) : List VerifyRec := if b then [] else [f.fail it (.hdr 0) 0x16 noVal]
  let sym (b : Bool) (k : List VerifyRec) : List VerifyRec := if b then k else [f.fail it (.word 0 0) 16 noVal]
  let imms (ts : List VTy) (us : List (Nat × Opd)) : List VerifyRec :=
    (ts.zip us).flatMap fun p => match Opd.num p.2.2 with
      | some _ => []
      | none => if immOk p.1.1 p.2.2 then [] else [f.fail it (.word p.2.1 0) 12 noVal]
  let herd (o : HerdOp) (plain : Bool) : List VerifyRec :=
    sym (decide (o.h.toNat < objHlCount ws)) (
      let (fn, n) := helperEntry ws o.h.toNat
      let ps := paramsOf ws fn
      let info := fnInfo ws fn
      (if o.caps.length = n then [] else [f.fail it (.hdr 0) 0x13 noVal])
        ++ sig (ps.length == n + 1 && (ps.head?.map (·.1)) == some .i32
          && (if plain then info.rets.isEmpty else info.rets == [o.ty])
          && (ps.drop 1).all (fun t => t.1 != .tok && t.1 != .batch && t.1 != .tile)
          && (o.caps.length != n || f.passAll (ps.drop 1) o.caps))
        ++ imms (ps.drop 1) (Instr.passUses i))
  match i with
  | .ldConst o =>
    sym (decide (o.c.toNat < objCpCount ws))
      (if (constEntry ws o.c.toNat).2.2 == o.ty then [] else [f.fail it (.hdr 2) 6 noVal])
  | .call o =>
    sym (decide (o.fn.toNat < objFnCount ws)) (
      let info := fnInfo ws o.fn.toNat
      let ps := paramsOf ws o.fn.toNat
      sig (o.nres.toNat == info.rets.length && o.ty == info.rets.headD .void && f.passAll ps o.args
          && ps.all (fun t => t.1 != .tile && t.1 != .batch))
        ++ imms ps (Instr.passUses i))
  | .ret args =>
    sig (args.length == f.ret.length && f.passAll (f.ret.map fun t => (t, none)) args && !f.kernel)
      ++ imms (f.ret.map fun t => (t, none)) (Instr.passUses i)
  | .spawn o =>
    sym (decide (o.fn.toNat < objFnCount ws)) (
      let info := fnInfo ws o.fn.toNat
      let ps := paramsOf ws o.fn.toNat
      sig (!info.helper && info.rets.isEmpty && decide (ps.length ≤ 8) && ps.all sendTy && f.passAll ps o.args)
        ++ imms ps (Instr.passUses i))
  | .taskpost o =>
    sym (decide (o.fn.toNat < objFnCount ws)) (
      let info := fnInfo ws o.fn.toNat
      let ps := paramsOf ws o.fn.toNat
      sig (!info.helper && info.rets.isEmpty && (ps.head?.map (·.1)) == some .near
          && decide (ps.length ≤ 9) && (ps.drop 1).all sendTy && f.passAll (ps.drop 1) o.args)
        ++ imms (ps.drop 1) (Instr.passUses i))
  | .herd o => herd o true
  | .herdAdd o | .herdMin o | .herdMax o | .herdOr o => herd o false
  | _ => []

/-- The value number that stands where an immediate is required (R136), none for any other failing word. -/
def FnView.wrongValue (f : FnView) (ws : List Word) (it : VItem) (b : Bad) : Nat :=
  match b.loc with
  | .word _ _ =>
    let w := wd ws ((f.base + it.byte b.loc) / 4)
    if b.reason = 12 ∧ w < 2 ^ 24 then w else noVal
  | _ => noVal

/-- TYPE of `tile.extract` is the element type of its tile, else the tile does not fit it (R234). -/
def FnView.extractFails (f : FnView) (it : VItem) : Instr → List VerifyRec
  | .tileExtract o =>
    match Opd.num o.x with
    | some v => match (f.types[v]?).bind fun (t : VTy) => t.2 with
      | some d => if d.elem.ty == o.ty then [] else [f.fail it (.word 0 0) 11 v]
      | none => []
    | none => []
  | _ => []

/-- Failures of one item. -/
def FnView.itemFails (f : FnView) (ws : List Word) (idx : Nat) (it : VItem) : List VerifyRec :=
  it.bads.map (fun b => f.fail it b.loc b.reason (f.wrongValue ws it b))
    ++ List.filter (fun r => !it.mended.any fun l => f.base + it.byte l == r.offset) (match it.ins with
        | none => []
        | some i =>
          f.extractFails it i ++ (Instr.uses i).flatMap (f.operandFails idx it i)
            ++ (Instr.passUses i).flatMap (fun p => match Opd.num p.2 with
                | some v => f.useFails idx it p.1 v (wantsUni i 99)
                | none => [])
            ++ (Instr.targetUses i).flatMap
                (f.targetFails idx it (match i with | .yield _ => true | _ => false))
            ++ f.linkFails ws it i
            ++ (match i with
                | .tileCvt o =>
                  match ((Opd.num o.x).bind fun v => (f.types[v]?).bind (·.2)) with
                  | some d => (if cvtPair d.elem.ty o.d.elem.ty then [] else [f.fail it (.word 0 3) 6 noVal])
                      ++ (if o.ss && !d.elem.ty.isInt then [f.fail it (.hdr 0) 8 noVal] else [])
                  | none => []
                | _ => []))

/-! ### Block structure (R131) -/

def FnView.blockFails (f : FnView) : List VerifyRec :=
  let live := f.body.reach [0]
  (match f.body.items.head? with
   | some it => if it.blk.isSome then [] else [f.fail it (.hdr 0) 5 noVal]
   | none => [])
    ++ f.body.blocks.flatMap fun b =>
      let ins := f.body.inside b
      let mark := (f.body.marks[b]?).bind f.body.item
      let at_ (r : Nat) (v : Nat) (it : Option VItem) : List VerifyRec :=
        match it with
        | some it => [f.fail it (.hdr 0) r v]
        | none => []
      (if live.contains b then [] else at_ 17 b mark)
        ++ (if ins.isEmpty then at_ 15 b mark
            else ins.flatMap fun j =>
              match f.body.item j with
              | none => []
              | some it =>
                let last := some j == ins.getLast?
                if termCode it.opc != last then [f.fail it (.hdr 0) 15 b] else [])

/-! ### Continuations of a yield (R42, R133) -/

/-- Uses in a continuation of values that it was not passed (R42, R436). Where the continuation loops back through the value's
definition the spec does not say whether a use after that counts: DESIGN CHOICE, every use of the value in a block that
the continuation reaches counts, since it starts with the value undefined (unsafe: notes/assumptions/70.md). -/
def FnView.yieldFails (f : FnView) (tab : List (List Nat)) : List VerifyRec :=
  (f.body.items.filterMap (·.ins)).flatMap fun i =>
    match i with
    | .yield o =>
      let c := o.cont.blk.toNat
      let own := match (f.body.marks[c]?).bind f.body.item with
        | some it => it.defs
        | none => []
      let bad := (tab.getD c []).filter fun v => !own.contains v
      let zone := f.body.reach [c]
      let uses := (f.body.items.zipIdx).flatMap fun p =>
        if zone.contains (f.body.blockAt p.2) then
          match p.1.ins with
          | some x => (Instr.allOpds x).filterMap fun u => match Opd.num u.2 with
            | some v => if bad.contains v then some (f.fail p.1 (.word u.1 0) 20 v) else none
            | none => none
          | none => []
        else []
      (lowest uses).toList
    | _ => []

/-! ### Matrix operations (R244) -/

def isMatrix : Instr → Bool
  | .mmaF8s _ | .mmaBf16 _ | .mmaF16 _ | .mmaI8 _ | .mmaSp _ => true
  | _ => false

def isFence : Instr → Bool
  | .mfence => true
  | _ => false

/-- The operand of a matrix operation that is its C. -/
def matC : Instr → Option Opd
  | .mmaF8s o => some o.c
  | .mmaBf16 o | .mmaF16 o => some o.c
  | .mmaI8 o => some o.c
  | .mmaSp o => some o.c
  | _ => none

/-- The position of C among the operands of a matrix operation. -/
def matCPos : Instr → Nat
  | .mmaSp _ => 3
  | _ => 2

/-- The fence whose batch an `mwait` waits for. -/
def FnView.waitFence (f : FnView) (w : Nat) : Option Nat :=
  match f.body.ins w with
  | some (.mwait m) => (Opd.num m).bind f.body.defOf
  | _ => none

/-- Whether the `mwait` at item `w` completes the operation at item `o`: a path leads there, and its fence lies on every
one (R244). -/
def FnView.completes (f : FnView) (o w : Nat) : Bool :=
  match f.waitFence w with
  | some fc => !(f.body.pathsFrom o (fun j => j == fc)).contains w
      && (f.body.pathsFrom o (fun _ => false)).contains w
  | none => false

def FnView.waits (f : FnView) : List Nat :=
  (List.range f.body.items.length).filter fun i => match f.body.ins i with
    | some (.mwait _) => true
    | _ => false

def FnView.matOps (f : FnView) : List Nat :=
  (List.range f.body.items.length).filter fun i => (f.body.ins i).any isMatrix

/-- Uses of a matrix result that no `mwait` completes: a completing one dominates the use, and stands between the operation
and the use, on the batch that closed that run of it (R133). -/
def FnView.resultFails (f : FnView) (o : Nat) : List VerifyRec :=
  match f.body.item o with
  | none => []
  | some op =>
    (f.body.items.zipIdx).flatMap fun p =>
      match p.1.ins with
      | none => []
      | some x =>
        let asC := if isMatrix x then ((Instr.uses x)[matCPos x]?).map (·.word) else none
        (Instr.allOpds x).filterMap fun u =>
          match Opd.num u.2 with
          | some v =>
            if v = op.val && asC != some u.1
                && !(f.waits.any fun w => f.body.before w p.2 && f.completes o w
                  && !(f.body.pathsFrom o (fun j => j == w)).contains p.2) then
              some (f.fail p.1 (.word u.1 0) 18 v)
            else none
          | none => none

/-- What ends a path that must have passed a fence, and one that must have passed a wait. -/
def endsOp : Instr → Bool
  | .call _ | .ret _ | .exit | .yield _ => true
  | _ => false
def endsBatch : Instr → Bool
  | .ret _ | .exit | .yield _ => true
  | _ => false

/-- Whether a path from the fence `fc` meets item `x` before any wait on it or on a later batch of the path:
a search over items with the fences passed. -/
def FnView.batchPaths (f : FnView) : (fuel : Nat) → (work seen : List (Nat × List Nat)) → List Nat
  | 0, _, seen => seen.map (·.1)
  | _ + 1, [], seen => seen.map (·.1)
  | n + 1, (x, passed) :: work, seen =>
    if seen.contains (x, passed) then f.batchPaths n work seen
    else
      let stop := (f.waitFence x).any fun c => passed.contains c
      let passed' := if (f.body.ins x).any isFence && !passed.contains x then
        sortBy (fun a b => decide (a ≤ b)) (x :: passed) else passed
      let nexts := if stop then [] else (f.body.next x).map fun y => (y, passed')
      f.batchPaths n (nexts ++ work) ((x, passed) :: seen)

def FnView.pathFails (f : FnView) : List VerifyRec :=
  let at_ (js : List Nat) (p : Instr → Bool) : List VerifyRec :=
    js.filterMap fun j => match f.body.item j with
      | some it => if it.ins.any p then some (f.fail it (.hdr 0) 18 noVal) else none
      | none => none
  f.matOps.flatMap (fun o =>
      f.resultFails o ++ at_ (f.body.pathsFrom o fun j => (f.body.ins j).any isFence) endsOp)
    ++ ((List.range f.body.items.length).filter fun i => (f.body.ins i).any isFence).flatMap fun c =>
      at_ (f.batchPaths (f.body.items.length * f.body.items.length * 8 + 64)
        ((f.body.next c).map fun y => (y, [c])) []) endsBatch

/-! ## Across functions (R133, R232, R233) -/

/-- The functions that instructions of a body name. -/
def linkOf (ws : List Word) : Instr → Option Nat
  | .call o => some o.fn.toNat
  | .spawn o => some o.fn.toNat
  | .taskpost o => some o.fn.toNat
  | .herd o | .herdAdd o | .herdMin o | .herdMax o | .herdOr o => some (helperEntry ws o.h.toNat).1
  | _ => none

def isCall : Instr → Bool
  | .call _ => true
  | _ => false
def isPost : Instr → Bool
  | .spawn _ | .taskpost _ => true
  | _ => false

/-- The functions that function `k` names through instructions that `p` picks. -/
def linksFrom (ws : List Word) (fs : List FnView) (p : Instr → Bool) (k : Nat) : List Nat :=
  match fs.find? fun f => f.fn == k with
  | some f => (f.body.items.filterMap (·.ins)).filterMap fun i => if p i then linkOf ws i else none
  | none => []

def linkReach (ws : List Word) (fs : List FnView) (p : Instr → Bool) (from_ : List Nat) : List Nat :=
  let edges := (fs.map fun f => f.body.items.length).sum
  reachSet (linksFrom ws fs p) (edges + from_.length + fs.length + 2) from_ []

/-- What no helper may hold. -/
def notInHelper : Instr → Bool
  | .spawn _ | .barArrive _ _ | .barWait _ _ | .barSync _ | .yield _ => true
  | .tileZero _ | .tileFill _ | .tileLoad _ | .tileStore _ | .tileCvt _ | .tileExtract _ | .tileInsert _ => true
  | .mfence | .mwait _ => true
  | i => isHerd i || isMatrix i

/-- The first item of a function that a test picks, reported with a reason at its header. -/
def FnView.each (f : FnView) (reason : Nat) (p : Instr → Bool) : List VerifyRec :=
  f.body.items.filterMap fun it =>
    if it.ins.any p then some (f.fail it (.hdr 0) reason noVal) else none

def crossFails (ws : List Word) (fs : List FnView) : List VerifyRec :=
  let inHelp := linkReach ws fs isCall ((List.range (objFnCount ws)).filter fun k => (fnInfo ws k).helper)
  let dets := ((List.range (objKnCount ws)).filter fun k => (kernelOf ws k).det).map fun k => (kernelOf ws k).fn
  let inDet := linkReach ws fs (fun i => isCall i || isHerd i || isPost i) dets
  fs.flatMap fun f =>
    (if inHelp.contains f.fn then f.each 19 notInHelper else [])
      ++ (if inDet.contains f.fn then f.each 24 (fun i => match i with | .atomFadd _ => true | _ => false) else [])
      ++ f.each 23 (fun i => isCall i && match linkOf ws i with
          | some g => (linkReach ws fs isCall [g]).contains f.fn
          | none => false)

/-! ### Tiles held (R232) -/

def FnView.isTile (f : FnView) (v : Nat) : Bool :=
  match f.types[v]? with
  | some t => t.1 == .tile
  | none => false

/-- The values that count as one with another: a matrix result with a C that has no use after it, and an
insert's result with its operand on the same condition. -/
def FnView.joined (f : FnView) (tab : List (List Nat)) : List (Nat × Nat) :=
  (f.body.items.zipIdx).filterMap fun p =>
    match p.1.ins with
    | none => none
    | some i =>
      let src := match i with
        | .tileInsert o => Opd.num o.x
        | _ => (matC i).bind Opd.num
      src.bind fun c => if (f.body.liveAt tab p.2).2.contains c then none else some (p.1.val, c)

/-- The value that stands for a tile value among those joined to it. -/
def rootOf (js : List (Nat × Nat)) : (fuel : Nat) → Nat → Nat
  | 0, v => v
  | n + 1, v => match assocGet v js with
    | some c => rootOf js n c
    | none => v

/-- The tile values held at an item. -/
def FnView.heldAt (f : FnView) (tab : List (List Nat)) (i : Nat) : List Nat :=
  let (inn, out) := f.body.liveAt tab i
  let own := match f.body.item i with
    | some it => it.uses ++ it.defs
    | none => []
  let engine := f.matOps.flatMap fun o =>
    if (f.body.pathsFrom o fun j => f.completes o j).contains i then
      match f.body.ins o with
      | some x => (Instr.uses x).filterMap fun u => Opd.num u.opd
      | none => []
    else []
  ((inn ++ out ++ own ++ engine).eraseDups).filter f.isTile

/-- The tile registers that a function needs. -/
def needTiles (fs : List FnView) : (fuel : Nat) → Nat → Nat
  | 0, _ => 0
  | n + 1, k =>
    match fs.find? fun f => f.fn == k with
    | none => 0
    | some f =>
      let tab := f.body.liveTab
      let js := f.joined tab
      (List.range f.body.items.length).foldl (fun m i =>
        let held := ((f.heldAt tab i).map (rootOf js js.length)).eraseDups.length
        let callee := match f.body.ins i with
          | some (.call o) => needTiles fs n o.fn.toNat
          | _ => 0
        max m (held + callee)) 0

/-! ## Kernel descriptors (R120, R121, R232) -/

/-- The end of the last parameter in the argument block, rounded up to 8 (R121). -/
def argEnd : (off : Nat) → List VTy → Nat
  | off, [] => (off + 7) / 8 * 8
  | off, t :: ts =>
    let n := max 1 t.1.bytes
    argEnd ((off + n - 1) / n * n + n) ts

def kernelFails (ws : List Word) (fs : List FnView) (recs : List (Nat × Nat × Nat)) (k : Nat) : List VerifyRec :=
  let a := objKnOff ws + 32 * k
  let kn := kernelOf ws k
  let w (i : Nat) : Nat := wd ws (a / 4 + i)
  let t (ok : Bool) (b : Nat) : List VerifyRec := outside ok 4 (a + b)
  let ps := paramsOf ws kn.fn
  let reach := linkReach ws fs (fun i => isCall i || isPost i) [kn.fn]
  t (decide (kn.fn < objFnCount ws) && !(fnInfo ws kn.fn).helper && (fnInfo ws kn.fn).rets.isEmpty
      && ps.all fun p => p.1.isData) 0
    ++ t (bitsOf (w 0) 17 16 != 3 && (kn.brace || decide (kn.team ≤ 16))) 2
    ++ t (bitsOf (w 0) 31 28 == 0 && reach.all fun g => decide (needTiles fs (fs.length + 1) g ≤ kn.tiles)) 3
    ++ t (kn.sram % 256 == 0 && decide (kn.sram ≤ 0x100000)) 4
    ++ t (kn.budget == 0 || decide (8 ≤ kn.budget ∧ kn.budget ≤ 256)) 8
    ++ t (bitsOf (w 2) 15 9 == 0) 9 ++ t (decide (1 ≤ kn.minGroups ∧ kn.minGroups ≤ 32)) 10
    ++ t (bitsOf (w 2) 31 24 == 0) 11 ++ t (bitsOf (w 3) 31 4 == 0) 12
    ++ t (nameOk ws recs (w 4)) 16 ++ t (kn.argBytes == argEnd 0 ps) 20 ++ t (w 6 == 0 && w 7 == 0) 24

/-! ## The whole object -/

def FnView.fails (f : FnView) (ws : List Word) : List VerifyRec :=
  let tab := f.body.liveTab
  (f.body.items.zipIdx).flatMap (fun p => f.itemFails ws p.2 p.1)
    ++ f.blockFails ++ f.yieldFails tab ++ f.pathFails

/-- What the verifier finds in an object whose digest agrees: nothing, or the lowest failure. A header or a
function table that is wrong stands before everything that it frames. -/
def verifyObject (ws : List Word) : Option VerifyRec :=
  match lowest (headerFails ws) with
  | some r => some r
  | none =>
    let (recs, _) := dbgAll ws
    match lowest ((List.range (objFnCount ws)).flatMap (fnFails ws recs)) with
    | some r => some r
    | none =>
      let fs := (List.range (objFnCount ws)).map (FnView.of ws)
      lowest (gapFails ws ++ fs.flatMap (fun f => f.fails ws) ++ crossFails ws fs
        ++ (List.range (objKnCount ws)).flatMap (kernelFails ws fs recs)
        ++ (List.range (objHlCount ws)).flatMap (helperFails ws)
        ++ (List.range (objCpCount ws)).flatMap (constFails ws) ++ debugFails ws (fs.map fun f => (f.types.length, f.body.marks.length)))

end Sys2Proof.Machine
end

