-- ==== Sys2Proof/Machine/Xlat.lean ====
section
/-! DEFINITION. Stages 2 to 4 of a translation: inlining, intervals, linear scan, spill slots, budgets, and the
units of a launch with their requested budgets (13_translator.md R256, R258, R263 to R276, R283, R284; 01 R19;
15 R334). -/

namespace Sys2Proof.Machine

open Sys2Proof

/-! ## The inlined unit (R256, R263) -/

/-- A value of a unit: the inlined instance of its function, and its number there. -/
abbrev VKey := Nat × Nat

/-- Register classes (R266). -/
inductive RClass where
  | u | p | t | v
  deriving DecidableEq, Repr

structure UVal where
  key : VKey
  ty : VTy
  cls : RClass
  size : Nat
  /-- defined by `const` or `id`: made again instead of kept (R272) -/
  remat : Bool
  deriving DecidableEq, Repr

/-- An item of a unit; `child` is the instance that a `call` inlines, `blk` the block of a BLOCK marker (none for a return
marker). -/
structure UItem where
  node : Nat
  inst : Nat
  off : Nat
  marker : Bool
  blk : Option Nat
  ins : Option Instr
  reads : List VKey
  defs : List VKey
  child : Nat
  deriving DecidableEq, Repr

/-- A unit: items in layout, edges between its blocks, counts of blocks and instances, values in definition
order, and the function of each instance. -/
structure TUnit where
  items : List UItem
  edges : List (Nat × Nat)
  nodes : Nat
  vals : List UVal
  insts : List Nat
  deriving DecidableEq, Repr

def classOf (t : Ty) (uni : Bool) : RClass :=
  if uni || t == .tok || t == .batch then .u else if t == .i1 then .p else if t == .tile then .t else .v

def UVal.of (key : VKey) (t : VTy) (uni remat : Bool) : UVal :=
  let c := classOf t.1 uni
  { key, ty := t, cls := c, size := if t.1.width = 64 ∧ (c = .u ∨ c = .v) then 2 else 1, remat }

/-- Whether the results of an instruction are uniform (R32). -/
def resUni (i : Instr) : Bool :=
  i.encUni || match i with
    | .const _ | .rdfirst _ _ => true
    | _ => false

def TUnit.push (u : TUnit) (it : UItem) (vs : List UVal) : TUnit :=
  { u with items := u.items ++ [it], vals := u.vals ++ vs }

/-- Progress through a body: the unit, the block in hand, first and last blocks of the function's blocks, and
the blocks that end in `ret`. -/
structure InlSt where
  u : TUnit
  cur : Nat
  firsts : List Nat
  lasts : List Nat
  rets : List Nat
  deriving DecidableEq, Repr

/-- Lays out a function: the unit, its first block and the blocks that end in `ret`. -/
def inlineFn (ws : List Word) : (fuel fn inst : Nat) → (inner kernel : Bool) → TUnit → TUnit × Nat × List Nat
  | 0, _, _, _, _, u => (u, 0, [])
  | n + 1, fn, inst, inner, kernel, u =>
    let b := Body.of ws fn
    let key (v : Nat) : VKey := (inst, v)
    let item (st : InlSt) (it : VItem) : InlSt :=
      let defs := it.defs.map key
      match it.blk with
      | some blk =>
        let own := inner && blk == 0
        let vs := (it.defs.zip it.types).map fun p => UVal.of (key p.1) p.2 (kernel && blk == 0) false
        let u := st.u
        let node := u.nodes
        let u := { u with nodes := node + 1 }
        let u := u.push { node, inst, off := it.off, marker := true, blk := some blk, ins := none, reads := [],
                          defs := if own then [] else defs, child := 0 } (if own then [] else vs)
        { st with u, cur := node, firsts := st.firsts ++ [node],
                  lasts := if blk = 0 then st.lasts else st.lasts ++ [st.cur] }
      | none =>
        match it.ins with
        | none => st
        | some i =>
          let reads := (Instr.vals i).map key
          let remat := match i with
            | .const _ | .id _ => true
            | _ => false
          let vs := (it.defs.zip it.types).map fun p => UVal.of (key p.1) p.2 (resUni i) remat
          match i with
          | .call o =>
            let child := st.u.insts.length
            let ps := paramsOf ws o.fn.toNat
            let pk := (List.range ps.length).map fun v => (child, v)
            let u := st.u.push { node := st.cur, inst, off := it.off, marker := false, blk := none, ins := some i, reads,
                                 defs := pk, child }
              ((pk.zip ps).map fun p => UVal.of p.1 p.2 false false)
            let (u, entry, rets) :=
              inlineFn ws n o.fn.toNat child true false { u with insts := u.insts ++ [o.fn.toNat] }
            let node := u.nodes
            let u := { u with nodes := node + 1,
                              edges := u.edges ++ (st.cur, entry) :: rets.map fun r => (r, node) }
            let u := u.push { node, inst, off := it.off, marker := true, blk := none, ins := none, reads := [], defs,
                              child := 0 } vs
            { st with u, cur := node }
          | _ =>
            let u := st.u.push { node := st.cur, inst, off := it.off, marker := false, blk := none, ins := some i, reads,
                                 defs, child := 0 } vs
            let isRet := match i with
              | .ret _ => true
              | _ => false
            { st with u, rets := if isRet then st.rets ++ [st.cur] else st.rets }
    let st := b.items.foldl item { u, cur := 0, firsts := [], lasts := [], rets := [] }
    let lasts := st.lasts ++ [st.cur]
    let edges := b.blocks.flatMap fun k =>
      (b.succ k).map fun j => (lasts.getD k 0, st.firsts.getD j 0)
    ({ st.u with edges := st.u.edges ++ edges }, st.firsts.headD 0, st.rets)

/-- The unit of a function; the parameters of a kernel's entry function are uniform (R32). -/
def inlined (ws : List Word) (fn : Nat) : TUnit :=
  let kernel := (List.range (objKnCount ws)).any fun k => (kernelOf ws k).fn == fn
  (inlineFn ws (objFnCount ws + 1) fn 0 false kernel
    { items := [], edges := [], nodes := 0, vals := [], insts := [fn] }).1

/-! ## Liveness and intervals (R264, R265) -/

def TUnit.succ (u : TUnit) (n : Nat) : List Nat := (u.edges.filter fun e => e.1 == n).map (·.2)

/-- Live before an item, from what is live after it. -/
def UItem.liveIn (it : UItem) (out : List VKey) : List VKey :=
  (it.reads ++ out.filter fun v => !it.defs.contains v).eraseDups

def TUnit.inside (u : TUnit) (n : Nat) : List UItem := u.items.filter fun it => it.node == n

def TUnit.liveOut (u : TUnit) (tab : List (List VKey)) (n : Nat) : List VKey :=
  ((u.succ n).flatMap fun k => tab.getD k []).eraseDups

def TUnit.liveRound (u : TUnit) (tab : List (List VKey)) : List (List VKey) :=
  (List.range u.nodes).map fun n => (u.inside n).reverse.foldl (fun l it => it.liveIn l) (u.liveOut tab n)

def TUnit.liveIter (u : TUnit) : (fuel : Nat) → List (List VKey) → List (List VKey)
  | 0, t => t
  | n + 1, t =>
    let t' := u.liveRound t
    if t'.map (fun l => l.length) == t.map (fun l => l.length) then t' else u.liveIter n t'

/-- The values live at the start of each block. -/
def TUnit.liveTab (u : TUnit) : List (List VKey) :=
  u.liveIter (u.vals.length * u.nodes + 2) (List.replicate u.nodes [])

/-- The captured operands of a HERD. -/
def capsOf (i : Instr) : List Opd :=
  match i with
  | .herd o | .herdAdd o | .herdMin o | .herdMax o | .herdOr o => o.caps
  | _ => []

/-- The items that are HERDs, with the values that they capture (R276). -/
def TUnit.herds (u : TUnit) : List (Nat × List VKey) :=
  (u.items.zipIdx).filterMap fun p => match p.1.ins with
    | some i => if isHerd i then some (p.2, (capsOf i).filterMap fun o => (Opd.num o).map fun v => (p.1.inst, v))
      else none
    | none => none

/-- The operand whose tile register a matrix result or an inserted tile takes (R268). -/
def tileSrc (i : Instr) : Option Opd :=
  match i with
  | .mmaF8s o => some o.c
  | .mmaBf16 o | .mmaF16 o => some o.c
  | .mmaI8 o => some o.c
  | .mmaSp o => some o.c
  | .tileInsert o => some o.x
  | _ => none

/-- A value with its interval, its place in the definition order, whether its interval holds the read position
of a HERD (R269), and the values that its preference rests on (R268, R270). -/
structure Ival where
  v : UVal
  d : Nat
  e : Nat
  rank : Nat
  frame : Bool
  reads : List VKey
  tile : Option VKey
  deriving DecidableEq, Repr

def TUnit.intervals (u : TUnit) : List Ival :=
  let tab := u.liveTab
  let its := u.items.zipIdx
  let lasts := (List.range u.nodes).map fun n =>
    ((its.filter fun p => p.1.node == n).getLast?.map (·.2)).getD 0
  let outs := (List.range u.nodes).map (u.liveOut tab)
  let herds := u.herds
  (u.vals.zipIdx).map fun p =>
    let v := p.1
    let (it, k) := (its.find? fun q => q.1.defs.contains v.key).getD (⟨0, 0, 0, true, none, none, [], [], 0⟩, 0)
    let d := 2 * k + 1
    let rs := (its.filter fun q => q.1.reads.contains v.key).map fun q => 2 * q.2
    let os := ((List.range u.nodes).filter fun n => (outs.getD n []).contains v.key).map fun n => 2 * lasts.getD n 0
    let hs := (herds.filter fun h => h.2.contains v.key).map fun h => 2 * h.1 + 1
    let e := (rs ++ os ++ hs).foldl max d
    { v, d, e, rank := p.2, frame := herds.any fun h => decide (d ≤ 2 * h.1 ∧ 2 * h.1 ≤ e), reads := it.reads,
      tile := (it.ins.bind tileSrc).bind fun o => (Opd.num o).map fun n => (it.inst, n) }

/-! ## Linear scan (R267 to R271) -/

/-- The cluster count at a budget (R267). -/
def clustersAt (budget die : Nat) : Nat :=
  let top := min (Config.regClusters die) (budget / 16)
  if 4 ≤ top then 4 else if 2 ≤ top then 2 else 1

/-- Allocatable registers of a class; a register of class V counts on through the clusters, `per` to each. -/
def classRegs (c : RClass) (nc per tiles : Nat) : List Nat :=
  match c with
  | .u => List.range 62
  | .p => List.range 7
  | .t => List.range tiles
  | .v => (List.range (nc * per)).filter fun r => r != per - 2 && r != per - 1

/-- Scratch registers of a class (R266). -/
def scratchOf : RClass → Nat
  | .u | .v => 2
  | .p => 1
  | .t => 0

/-- A scan of one class under way. -/
structure Scan where
  free : List Nat
  active : List (Ival × List Nat)
  loc : List (VKey × List Nat)
  mem : List Ival
  deriving DecidableEq, Repr

/-- The legal register or pair that a value would take from a pool, the preferred one (R269, R270). -/
def choose (per : Nat) (all : List Ival) (loc : List (VKey × List Nat)) (x : Ival) (pool : List Nat) :
    Option (List Nat) :=
  let pool := if x.v.cls = .v ∧ x.frame then pool.filter fun r => decide (8 ≤ r) else pool
  let regs := sortBy (fun a b => decide (a ≤ b)) pool
  let even (r : Nat) : Bool :=
    if x.v.cls = .v then r % per % 2 == 0 && decide (r % per + 1 < per) else r % 2 == 0
  let opts : List (List Nat) :=
    if x.v.size = 1 then regs.map fun r => [r]
    else (regs.filter fun r => even r && regs.contains (r + 1)).map fun r => [r, r + 1]
  let place (k : VKey) : Option (List Nat) := (loc.find? fun p => p.1 == k).map (·.2)
  match x.v.cls with
  | .v =>
    let first := x.reads.find? fun k => all.any fun y => y.v.key == k && y.v.cls == .v
    let near := (first.bind place).bind fun rs => opts.find? fun o => o.headD 0 / per == rs.headD 0 / per
    near.or opts.head?
  | .t =>
    let own := x.tile.bind fun k => match all.find? fun y => y.v.key == k with
      | some y => if y.e < x.d then (place k).bind fun rs => opts.find? fun o => o == rs else none
      | none => none
    own.or opts.head?
  | _ => opts.head?

/-- Whether sending a value to memory would leave an item with more operands in memory than the class's
scratch holds (R271). -/
def rejectedVictim (u : TUnit) (all mem : List Ival) (x : Ival) : Bool :=
  u.items.any fun it =>
    it.reads.contains x.v.key
      && decide (scratchOf x.v.cls
        < (((all.filter fun y => y.v.cls == x.v.cls && it.reads.contains y.v.key
              && (y.v.key == x.v.key || mem.any fun m => m.v.key == y.v.key)).map fun y => y.v.size).sum))

/-- Whether `a` stands after `b` in the order of victims: the larger end, then the later definition. -/
def laterEnd (a b : Ival) : Bool := decide (b.e < a.e ∨ (b.e = a.e ∧ b.rank < a.rank))

def scanStep (u : TUnit) (per : Nat) (all : List Ival) (st : Option Scan) (x : Ival) : Option Scan :=
  match st with
  | none => none
  | some s =>
    let (gone, kept) := s.active.partition fun (a : Ival × List Nat) => decide (a.1.e < x.d)
    let free := s.free ++ gone.flatMap fun (a : Ival × List Nat) => a.2
    match choose per all s.loc x free with
    | some rs =>
      some { s with free := free.filter fun r => !rs.contains r, active := kept ++ [(x, rs)],
                    loc := s.loc ++ [(x.v.key, rs)] }
    | none =>
      let fits := kept.filter fun (a : Ival × List Nat) => (choose per all s.loc x (free ++ a.2)).isSome
      let cands := (fits ++ [(x, [])]).filter fun (a : Ival × List Nat) => !rejectedVictim u all s.mem a.1
      let best := cands.foldl (fun (b : Option (Ival × List Nat)) (a : Ival × List Nat) => match b with
        | none => some a
        | some c => if laterEnd a.1 c.1 then some a else some c) none
      if x.v.cls = .t then none
      else match best with
        | none => none
        | some (y, rs) =>
          if y.v.key = x.v.key then some { s with free, active := kept, mem := s.mem ++ [x] }
          else
            let free := free ++ rs
            let loc := s.loc.filter fun (p : VKey × List Nat) => p.1 != y.v.key
            match choose per all loc x free with
            | none => none
            | some got =>
              some { free := free.filter fun r => !got.contains r,
                     active := (kept.filter fun (a : Ival × List Nat) => a.1.v.key != y.v.key) ++ [(x, got)],
                     loc := loc ++ [(x.v.key, got)], mem := s.mem ++ [y] }

def scanClass (u : TUnit) (nc per tiles : Nat) (all : List Ival) (c : RClass) : Option Scan :=
  let mine := sortBy (fun a b => decide (a.d < b.d ∨ (a.d = b.d ∧ a.rank ≤ b.rank)))
    (all.filter fun x => x.v.cls == c)
  mine.foldl (scanStep u per all) (some { free := classRegs c nc per tiles, active := [], loc := [], mem := [] })

/-- An allocation: registers of the values that have some, and the values in memory, in the order in which
they were sent there, class by class in the order of R266's table. -/
structure Alloc where
  nc : Nat
  per : Nat
  loc : List (VKey × List Nat)
  mem : List Ival
  deriving DecidableEq, Repr

def allocAt (u : TUnit) (all : List Ival) (die tiles budget : Nat) : Option Alloc :=
  let nc := clustersAt budget die
  let per := budget / nc
  let go (c : RClass) : Option Scan := scanClass u nc per tiles all c
  match go .u, go .p, go .t, go .v with
  | some a, some b, some c, some d =>
    some { nc, per, loc := a.loc ++ b.loc ++ c.loc ++ d.loc, mem := a.mem ++ b.mem ++ c.mem ++ d.mem }
  | _, _, _, _ => none

/-! ## Budgets (R276, R283, R284) -/

/-- The first budget from `b` on, in steps of 8, at which allocation succeeds (R271). -/
def raiseTo (u : TUnit) (all : List Ival) (die tiles : Nat) : (fuel b : Nat) → Option (Nat × Alloc)
  | 0, _ => none
  | n + 1, b =>
    if 256 < b then none
    else match allocAt u all die tiles b with
      | some a => some (b, a)
      | none => raiseTo u all die tiles n (b + 8)

/-- Groups that a core of the die holds at a budget (R17). -/
def residentAt (die width budget : Nat) : Nat := min (Config.contextMax die) (Config.slowFile die / (budget * width * 4))

/-- The budget that R283 or R284 selects, before R271 raises it. -/
def pickBudget (u : TUnit) (all : List Ival) (die tiles width minGroups req : Nat) : Nat :=
  let lo := if u.herds.isEmpty then 8 else 16
  if req ≠ 0 then max req lo
  else
    let steps := ((List.range 32).map fun i => 8 * (i + 1)).filter fun b => decide (lo ≤ b)
    let clean (b : Nat) : Bool := match allocAt u all die tiles b with
      | some a => a.mem.isEmpty
      | none => false
    let b0 := (steps.find? clean).getD 256
    if minGroups ≤ residentAt die width b0 then b0
    else (steps.reverse.find? fun b => decide (minGroups ≤ residentAt die width b)).getD lo

/-! ## Spill area (R273, R276, R334) -/

def upTo (x n : Nat) : Nat := (x + n - 1) / n * n

/-- Offsets of the class-V slots, and where the vector part ends. -/
def vecSlots (width : Nat) : List Ival → (off : Nat) → List (VKey × Nat) × Nat
  | [], off => ([], off)
  | x :: xs, off =>
    let n := 4 * width * x.v.size
    let a := upTo off n
    let (ss, e) := vecSlots width xs (a + n)
    ((x.v.key, a) :: ss, e)

/-- The slots of the values in memory, where the uniform part starts, and the bytes of the area before staging. -/
def spillSlots (width : Nat) (mem : List Ival) : List (VKey × Nat) × Nat × Nat :=
  let kept := mem.filter fun x => !x.v.remat
  let (vs, e) := vecSlots width (kept.filter fun x => x.v.cls == .v) 0
  let us := ((kept.filter fun x => x.v.cls != .v).zipIdx).map fun p => (p.1.v.key, e + 8 * p.2)
  (vs ++ us, e, e + 8 * us.length)

/-- The staging block of a unit: the largest post (R334). -/
def stagingBytes (ws : List Word) (width : Nat) (u : TUnit) : Nat :=
  (u.items.filterMap (·.ins)).foldl (fun m i => match i with
    | .taskpost o => max m (((paramsOf ws o.fn.toNat).map fun t => 4 * width * (if t.1.width = 64 then 2 else 1)).sum)
    | _ => m) 0

/-- Barriers that a unit uses: one more than the highest number, 0 with none (R19). -/
def barrierUse (u : TUnit) : Nat :=
  let cond (m : Nat) (c : CondOp) : Nat := match c with
    | .barrier b _ => max m (b.toNat + 1)
    | _ => m
  (u.items.filterMap (·.ins)).foldl (fun m i => match i with
    | .barArrive _ b | .barSync b => max m (b.toNat + 1)
    | .barWait b _ => max m (b.toNat + 1)
    | .waitAny o | .waitAll o => o.conds.foldl cond m
    | .yield o => o.conds.foldl cond m
    | _ => m) 0

/-! ## A unit's plan -/

/-- What stages 2 to 4 fix of a translation. -/
structure Plan where
  u : TUnit
  budget : Nat
  spillUnits : Nat
  barriers : Nat
  /-- helper functions with the offset of the area reserved for them (R276) -/
  areas : List (Nat × Nat)
  /-- where the uniform part of the spill area starts (R273) -/
  uniOff : Nat
  alloc : Alloc
  slots : List (VKey × Nat)
  deriving DecidableEq, Repr

/-- A plan, or the budget at which the unit fails with LIMIT. -/
inductive PlanRes where
  | ok (p : Plan)
  | limit (budget : Nat)
  deriving DecidableEq, Repr

/-- Where areas of some lengths in 256-byte units stand, one after the other from `at_`. -/
def areasFrom : (at_ : Nat) → List (Nat × Nat) → List (Nat × Nat)
  | _, [] => []
  | at_, (f, n) :: rest => (f, 256 * at_) :: areasFrom (at_ + n) rest

/-- The plan of a unit; `helpers` are its helper functions with the 256-byte units that each one's area takes of its
spill area (R276). -/
def planWith (ws : List Word) (k : Kernel) (die fn req : Nat) (helpers : List (Nat × Nat)) (helper : Bool) : PlanRes :=
  let u := inlined ws fn
  let all := u.intervals
  match raiseTo u all die k.tiles 33 (pickBudget u all die k.tiles k.width k.minGroups req) with
  | none => .limit 256
  | some (b, a) =>
    let (slots, uniOff, bytes) := spillSlots k.width a.mem
    let own := (upTo (bytes + stagingBytes ws k.width u) 256) / 256
    let units := own + (helpers.map (·.2)).sum
    if 256 < units ∨ (helper ∧ 16 < units) then .limit b
    else .ok { u, budget := b, spillUnits := units, barriers := barrierUse u, areas := areasFrom own helpers, uniOff,
               alloc := a, slots }

/-- The helper functions that a unit's HERDs name, each once, in ascending helper index. -/
def unitHelpers (ws : List Word) (u : TUnit) : List Nat :=
  let named := (u.items.filterMap (·.ins)).filterMap fun i => match i with
    | .herd o | .herdAdd o | .herdMin o | .herdMax o | .herdOr o => some o.h.toNat
    | _ => none
  ((sortBy (fun a b => decide (a ≤ b)) named).map fun h => (helperEntry ws h).1).eraseDups

/-- The plan of a unit under the key fields of a launch (R257, R258): a helper's budget is 8. -/
def planOf (ws : List Word) (k : Kernel) (die fn req : Nat) : PlanRes :=
  let helper := (fnInfo ws fn).helper
  let helpers := if helper then [] else (unitHelpers ws (inlined ws fn)).map fun h =>
    (h, match planWith ws k die h 8 [] true with
        | .ok p => p.spillUnits
        | .limit _ => 0)
  planWith ws k die fn (if helper then 8 else req) helpers helper

/-! ## The units of a launch (R258, R371) -/

/-- What a unit reaches: the targets of `spawn` and `taskpost` at its own budget, and its helpers at 8. -/
def unitTargets (ws : List Word) (p : Plan) : List (Nat × Nat) :=
  ((p.u.items.filterMap (·.ins)).filterMap fun i => match i with
    | .spawn o => some (o.fn.toNat, p.budget)
    | .taskpost o => some (o.fn.toNat, p.budget)
    | _ => none) ++ (unitHelpers ws p.u).map fun h => (h, 8)

def unitsFrom (ws : List Word) (k : Kernel) (die : Nat) :
    (fuel : Nat) → (work seen : List (Nat × Nat)) → List (Nat × Nat)
  | 0, _, seen => seen
  | _ + 1, [], seen => seen
  | n + 1, x :: work, seen =>
    if seen.contains x then unitsFrom ws k die n work seen
    else match planOf ws k die x.1 x.2 with
      | .ok p => unitsFrom ws k die n (work ++ unitTargets ws p) (seen ++ [x])
      | .limit _ => unitsFrom ws k die n work (seen ++ [x])

/-- The units of a launch on a generation, each with the BUDGET of its key, the kernel entry first. -/
def unitsOf (ws : List Word) (k : Kernel) (die budget : Nat) : List (Nat × Nat) :=
  let n := objFnCount ws
  unitsFrom ws k die (34 * n * (n + 1) * 8 + 8) [(k.fn, budget)] []

/-- Whether a unit of a launch holds a `taskpost` (R371). -/
def postsTasks (ws : List Word) (us : List (Nat × Nat)) : Bool :=
  us.any fun x => ((inlined ws x.1).items.filterMap (·.ins)).any fun i => match i with
    | .taskpost _ => true
    | _ => false

/-- A unit and its BUDGET as one number. -/
def unitCode (x : Nat × Nat) : Nat := x.1 + 65536 * x.2
def codeUnit (n : Nat) : Nat × Nat := (n % 65536, n / 65536)

end Sys2Proof.Machine
end

