-- ==== Sys2Proof/Machine/Lower.lean ====
section
/-! DEFINITION. Stage 4 of a translation: the places of values, the edges of a unit with what they pass, the parallel
copies with their placement, order and broken cycles, and the linear list of native operations with its spill stores,
fills, values made again and captures (13_translator.md R262, R272 to R277; 16 R339). -/

namespace Sys2Proof.Machine

open Sys2Proof

/-! ## Places (R272, R273, R281) -/

/-- Where a value stands: a register of class V by cluster and number, of U, P or T by number, a spill slot by its byte
offset; a `const` and an `id` in memory stand nowhere and are made again. -/
inductive VPlace where
  | v (cl n : Nat)
  | s (n : Nat)
  | k (n : Nat)
  | t (n : Nat)
  | slot (off : Nat)
  | konst (x : Nat)
  | ident (idx : Nat)
  deriving DecidableEq, Repr

/-- The location descriptor of a place: KIND and PAYLOAD (R306); the payload of a constant is the translator's. -/
def VPlace.desc : VPlace → Nat × Option Nat
  | .v cl n => (1, some (cl * 2 ^ 11 + n))
  | .s n => (2, some n)
  | .k n => (2, some (2 ^ 12 + n))
  | .slot off => (3, some (off / 8))
  | .konst _ => (4, none)
  | .t n => (5, some n)
  | .ident i => (6, some i)

/-- Whether a place is in memory: the value is filled or made again before each read (R272). -/
def VPlace.inMem : VPlace → Bool
  | .slot _ | .konst _ | .ident _ => true
  | _ => false

def TUnit.val (u : TUnit) (k : VKey) : Option UVal := u.vals.find? fun x => x.key == k

/-- The instruction that defines a value. -/
def TUnit.maker (u : TUnit) (k : VKey) : Option Instr := (u.items.find? fun it => it.defs.contains k).bind (·.ins)

/-- An immediate operand as the bits of a value of `w` bits (R128, R129). -/
def Opd.bits (w : Nat) : Opd → Nat
  | .val _ => 0
  | .imm v => low w (lowI 64 v.toInt)
  | .long1 lo => low w lo.toNat
  | .long2 lo hi => low w (lo.toNat + hi.toNat * 2 ^ 32)

/-- The place that a plan gives a value. -/
def Plan.place (p : Plan) (k : VKey) : Option VPlace :=
  match p.u.val k with
  | none => none
  | some x =>
    match (p.alloc.loc.find? fun q => q.1 == k), (p.slots.find? fun q => q.1 == k) with
    | some q, _ =>
      let r := q.2.headD 0
      some (match x.cls with
        | .v => .v (r / p.alloc.per) (r % p.alloc.per)
        | .u => .s r
        | .p => .k r
        | .t => .t r)
    | none, some q => some (.slot q.2)
    | none, none => match p.u.maker k with
      | some (.const o) => some (.konst (Opd.bits o.ty.width o.a))
      | some (.id o) => some (.ident o.idx.toNat)
      | _ => none

/-! ## Edges (R263, R274) -/

/-- An edge of the inlined graph: its blocks, and the arguments of its target with the operands of its branch. -/
structure TEdge where
  src : Nat
  dst : Nat
  args : List (VKey × Nat × Opd)
  deriving DecidableEq, Repr

def TUnit.marker (u : TUnit) (inst blk : Nat) : Option UItem :=
  u.items.find? fun it => it.marker && it.inst == inst && it.blk == some blk

/-- A number that stands for what an item gives without a value of its own: the phase that a `bar.sync` joins, and the
result of a `yield`, which its continuation receives first (R181, R186). -/
def UItem.hidden (it : UItem) : VKey := (it.inst, 0x800000 + it.off % 0x800000)

/-- The edges that leave an item: to block targets, into an inlined callee, and from its `ret` to the return marker. -/
def TUnit.edgesAt (u : TUnit) (it : UItem) : List TEdge :=
  let pass (m : UItem) (defs : List VKey) (os : List Opd) : TEdge :=
    { src := it.node, dst := m.node, args := defs.zip (os.map fun o => (it.inst, o)) }
  match it.ins with
  | none => []
  | some (.call o) => ((u.marker it.child 0).map fun m => pass m it.defs o.args).toList
  | some (.ret os) =>
    match u.items.find? fun c => !c.marker && c.child == it.inst && it.inst != 0 with
    | some c => ((u.items.find? fun m => m.marker && m.blk.isNone && m.inst == c.inst && m.off == c.off).map fun m =>
        pass m m.defs os).toList
    | none => []
  | some (.yield o) => ((u.marker it.inst o.cont.blk.toNat).map fun m =>
      pass m m.defs (.val (BitVec.ofNat 24 it.hidden.2) :: o.cont.args)).toList
  | some i => i.targets.filterMap fun t => (u.marker it.inst t.blk.toNat).map fun m => pass m m.defs t.args

def TUnit.edgesOf (u : TUnit) : List TEdge := u.items.flatMap u.edgesAt

/-- Incoming edges of a block, two for a branch that names it twice. -/
def TUnit.into (u : TUnit) (n : Nat) : List TEdge := (u.edgesOf).filter fun e => e.dst == n
def TUnit.outOf (u : TUnit) (n : Nat) : List TEdge := (u.edgesOf).filter fun e => e.src == n

/-! ## Parallel copies (R274, R339) -/

/-- Where the copy of an edge stands. -/
inductive CopyAt where
  | target | source | edgeBlock
  deriving DecidableEq, Repr

/-- R274: at the target's start when the edge is its only incoming one, else before the source's terminator when it is the
source's only outgoing one, else in a new edge block. -/
def TUnit.copyAt (u : TUnit) (e : TEdge) : CopyAt :=
  if (u.into e.dst).length = 1 then .target
  else if (u.outOf e.src).length = 1 then .source
  else .edgeBlock

/-- The scratch registers of a class (R266), the first of a pair first. -/
def Plan.scratch (p : Plan) : RClass → List VPlace
  | .v => [.v 0 (p.alloc.per - 2), .v 0 (p.alloc.per - 1)]
  | .u => [.s 62, .s 63]
  | .p => [.k 7]
  | .t => []

/-- The scratch register in which each argument of a block that lives in memory arrives (R274, R339), as far as the
scratch registers of its class reach. -/
def Plan.landing (p : Plan) (used : List VPlace) : List VKey → List (VKey × VPlace)
  | [] => []
  | k :: ks =>
    match p.u.val k, p.place k with
    | some x, some (.slot _) =>
      let free := (p.scratch x.cls).filter fun q => !used.contains q
      if x.size ≤ free.length then (k, free.headD (.k 7)) :: p.landing (used ++ free.take x.size) ks
      else p.landing used ks
    | _, _ => p.landing used ks

/-- The arguments of a block in memory, with the scratch registers that they arrive in. -/
def Plan.arrivals (p : Plan) (n : Nat) : List (VKey × VPlace) :=
  match p.u.items.find? fun it => it.node == n && it.marker with
  | some m => p.landing [] m.defs
  | none => []

/-- Where a value stands at a block's first bundle: an argument in memory in scratch, any other at its place (R339). -/
def Plan.startPlace (p : Plan) (n : Nat) (k : VKey) : Option VPlace :=
  match (p.arrivals n).find? fun a => a.1 == k with
  | some a => some a.2
  | none => p.place k

/-- What a move reads: a place, or an immediate. -/
inductive MoveSrc where
  | place (p : VPlace)
  | imm (x : Nat)
  deriving DecidableEq, Repr

structure Move where
  dst : VPlace
  src : MoveSrc
  size : Nat
  deriving DecidableEq, Repr

/-- Whether two places of `a` and `b` registers share one. -/
def VPlace.meets (a : Nat) (x : VPlace) (b : Nat) (y : VPlace) : Bool :=
  let near (m n : Nat) : Bool := decide (m < n + b ∧ n < m + a)
  match x, y with
  | .v c m, .v d n => c == d && near m n
  | .s m, .s n => near m n
  | _, _ => x == y

/-- Whether a move writes what another still reads. -/
def Move.blocks (x y : Move) : Bool :=
  match y.src with
  | .place q => x.dst.meets x.size y.size q
  | .imm _ => false

/-- The moves of an edge in ascending argument index; one between equal locations is omitted. -/
def Plan.movesOf (p : Plan) (e : TEdge) : List Move :=
  (e.args.filterMap fun a =>
    let x := p.u.val a.1
    let size := (x.map (·.size)).getD 1
    match p.startPlace e.dst a.1, a.2.2 with
    | some d, .val n => (p.place (a.2.1, n.toNat)).map fun s => (⟨d, .place s, size⟩ : Move)
    | some d, o => some ⟨d, .imm (Opd.bits ((x.map fun x => x.ty.1.width).getD 32) o), size⟩
    | none, _ => none).filter fun m => m.src != .place m.dst

/-- Emits the moves of a parallel copy: one whose destination is still the source of a pending move is postponed, and a
cycle that remains is broken through a scratch register (R274). -/
def Plan.orderMoves (p : Plan) : (fuel : Nat) → List Move → List Move
  | 0, _ => []
  | _ + 1, [] => []
  | n + 1, m :: ms =>
    let all := m :: ms
    match all.find? fun x => !(all.any fun y => y != x && x.blocks y) with
    | some x => x :: p.orderMoves n (all.filter (· != x))
    | none =>
      match ms.find? m.blocks with
      | none => all
      | some y =>
        let via := (p.scratch (match y.dst with | .v _ _ => .v | .k _ => .p | _ => .u)).headD (.k 7)
        ⟨via, y.src, y.size⟩ :: p.orderMoves n (all.map fun z => if z == y then { y with src := .place via } else z)

/-- The copy of an edge as it is emitted. -/
def Plan.copyOf (p : Plan) (e : TEdge) : List Move :=
  let ms := p.movesOf e
  p.orderMoves (2 * ms.length + 2) ms

/-- Whether an edge has a block of its own: its copy stands there and is not empty. -/
def Plan.hasEdgeBlock (p : Plan) (e : TEdge) : Bool := p.u.copyAt e == .edgeBlock && !(p.copyOf e).isEmpty

/-! ## The linear list (R272, R276, R277) -/

/-- An operation of the list: an item's own, a spill store after a definition, a fill before a read, a value made again
before a read, a move. -/
inductive LOp where
  | item (off : Nat) (it : UItem)
  | store (k : VKey) (slot : Nat)
  | fill (k : VKey) (slot : Nat)
  | again (k : VKey)
  | move (m : Move)
  deriving DecidableEq, Repr

/-- What stands before a read of a value in memory. -/
def Plan.refill (p : Plan) (k : VKey) : List LOp :=
  match p.place k with
  | some (.slot off) => [.fill k off]
  | some (.konst _) | some (.ident _) => [.again k]
  | _ => []

/-- What stands after a definition of a value in memory. -/
def Plan.save (p : Plan) (k : VKey) : List LOp :=
  match p.place k with
  | some (.slot off) => [.store k off]
  | _ => []

/-- The values that an item itself reads: those that an edge passes on are read by its copy. -/
def UItem.ownReads (it : UItem) : List VKey :=
  match it.ins with
  | some i =>
    if (match i with | .call _ | .ret _ => true | _ => false) then []
    else
      let passed := (Instr.targetUses i).flatMap (·.args) |>.filterMap fun a => Opd.num a.2
      it.reads.filter fun k => !passed.contains k.2
        || ((Instr.uses i).any fun x => Opd.num x.opd == some k.2)
        || ((Instr.passUses i).any fun x => Opd.num x.2 == some k.2)
  | none => []

/-- The values that a copy reads from memory. -/
def Plan.copyFills (p : Plan) (e : TEdge) : List LOp :=
  (e.args.filterMap fun a => (Opd.num a.2.2).map fun n => ((a.2.1, n) : VKey)).eraseDups.flatMap p.refill

/-- A copy with the fills that its moves need. -/
def Plan.copyList (p : Plan) (e : TEdge) : List LOp := p.copyFills e ++ (p.copyOf e).map .move

/-- The list of an item. -/
def Plan.itemList (p : Plan) (k : Nat) (it : UItem) : List LOp :=
  let outs := p.u.edgesAt it
  let here := outs.filter fun e => p.u.copyAt e == .source
  let isCall := it.child != 0
  if it.marker then
    ((p.u.into it.node).filter fun e => p.u.copyAt e == .target && !((p.u.items.any fun c => c.node == e.src && c.child != 0))).flatMap
      (fun e => p.copyList e) ++ it.defs.flatMap p.save
  else
    it.ownReads.eraseDups.flatMap p.refill
      ++ (if isCall then outs.flatMap p.copyList ++ [.item k it] ++ it.defs.flatMap p.save
          else here.flatMap p.copyList ++ [.item k it] ++ it.defs.flatMap p.save)

/-- The list of a block: its items in order. -/
def Plan.nodeList (p : Plan) (n : Nat) : List LOp :=
  ((p.u.items.zipIdx).filter fun q => q.1.node == n).flatMap fun q => p.itemList q.2 q.1

/-- The list of an edge's own block. -/
def Plan.edgeList (p : Plan) (e : TEdge) : List LOp := if p.hasEdgeBlock e then p.copyList e else []

/-- Stores and fills of a list, with their slots. -/
def spillsOf (l : List LOp) : List (Bool × Nat) := l.filterMap fun o => match o with
  | .store _ s => some (true, s)
  | .fill _ s => some (false, s)
  | _ => none

end Sys2Proof.Machine
end

