-- ==== Sys2Proof/Machine/Symbolic.lean ====
section
/-! DEFINITION. What a block of a unit computes, as terms over the values that it starts with: the term of every value, its
effects in order, and its operations that stand once per group (13_translator.md R262, R263, R277, R278; 15 R312 to R335). -/

namespace Sys2Proof.Machine

open Sys2Proof

/-! ## Terms -/

/-- A term for a thread's bits: unknown, a number, a value of the unit with its width, the low or high half or the low bits
of a term, two terms side by side (a pair of registers, or two operands), a function of up to three operands. -/
inductive Sym where
  | junk
  | con (n : Nat)
  | leaf (k : VKey) (w : Nat) (uni : Bool)
  | half (hi : Bool) (x : Sym)
  | low (w : Nat) (x : Sym)
  | pair (lo hi : Sym)
  | op (code w : Nat) (a b c : Sym)
  deriving DecidableEq, Repr

namespace Sym

def width : Sym → Nat
  | .junk => 32
  | .con n => if n < 2 ^ 32 then 32 else 64
  | .leaf _ w _ => w
  | .half _ _ => 32
  | .low w _ => w
  | .pair _ _ => 64
  | .op _ w _ _ _ => w

/-- Whether every thread has the same bits (R32). -/
def uni : Sym → Bool
  | .junk => false
  | .con _ => true
  | .leaf _ _ u => u
  | .half _ x => x.uni
  | .low _ x => x.uni
  | .pair a b => a.uni && b.uni
  | .op _ _ a b c => a.uni && b.uni && c.uni

/-- Whether a term holds an unknown. -/
def bad : Sym → Bool
  | .junk => true
  | .con _ | .leaf _ _ _ => false
  | .half _ x => x.bad
  | .low _ x => x.bad
  | .pair a b => a.bad || b.bad
  | .op _ _ a b c => a.bad || b.bad || c.bad

/-- The 32 bits of a register that holds the low or the high half of a term. -/
def part (hi : Bool) : Sym → Sym
  | .con n => .con (if hi then n / 2 ^ 32 % 2 ^ 32 else n % 2 ^ 32)
  | .pair a b => if hi then b else a
  | .junk => .junk
  | x => if x.width ≤ 32 then (if hi then .con 0 else x) else .half hi x

/-- The low bits of a term. -/
def trim (w : Nat) (x : Sym) : Sym :=
  if x.width ≤ w then (match x with | .con n => .con (n % 2 ^ w) | _ => x)
  else if w < 32 then (match x.part false with
    | .con n => .con (n % 2 ^ w)
    | .low v y => if v ≤ w then .low v y else .low w y
    | .junk => .junk
    | y => if y.width ≤ w then y else .low w y)
  else if w < 64 then x.part false
  else x

/-- The 64 bits of two registers. -/
def join (lo hi : Sym) : Sym :=
  match lo, hi with
  | .con a, .con b => .con (a % 2 ^ 32 + b * 2 ^ 32)
  | .half false x, .half true y => if x = y then x else .pair lo hi
  | .junk, _ => .junk
  | _, .junk => .junk
  | _, _ => .pair lo hi

end Sym

/-! ## Functions (R311, R312) -/

/-- The code of a function of R312: F, TY and the bits of X that are no register. -/
def fcode (f ty x : Nat) : Nat := f * 2 ^ 16 + ty * 2 ^ 12 + x

/-- A function of operands, with the equations that lowering uses: a selection of 1 and 0 by a bit is the bit, a control word
of two numbers is a number, a field put at the low end of zero is the field, and logic of two bits is predicate logic. -/
def Sym.app (code w : Nat) (args : List Sym) : Sym :=
  let a : Sym := args.getD 0 (.con 0)
  let b : Sym := args.getD 1 (.con 0)
  let c : Sym := match args.drop 2 with
    | [] => .con 0
    | [x] => x
    | x :: y :: _ => .pair x y
  let f := code / 2 ^ 16
  let bit (x : Sym) : Bool := x.width == 1
  if args.any Sym.bad then .junk
  else if f = 0x13 ∧ b = .con 1 ∧ c = .con 0 ∧ bit a then a
  else match f, a, b, c with
    | 0x0D, .con x, .con y, _ => .con (min (x % 2 ^ 32) 64 + 256 * min (y % 2 ^ 32) 64)
    | 0x0E, .con 0, y, .con ctl => if ctl % 256 = 0 ∧ y.width ≤ ctl / 256 then y else .op code w a b c
    | 0x09, x, y, _ =>
      let k := code % 4
      if bit x ∧ bit y ∧ k < 3 then .op (fcode 0x4E 0 k) 1 x y (.con 0)
      else if bit x ∧ y = .con 1 ∧ k = 2 then .op (fcode 0x4E 0 3) 1 x (.con 0) (.con 0)
      else .op code w a b c
    | _, _, _, _ => .op code w a b c

/-- TY of an integer type, and of a floating one (R311). -/
def tyInt (t : Ty) : Nat := match t with | .i8 => 0 | .i16 => 1 | .i64 | .near | .far => 3 | _ => 2
def tyFp (t : Ty) : Nat :=
  match t with | .e4m3 => 2 | .e5m2 => 3 | .f16 => 4 | .bf16 => 5 | .f64 => 7 | _ => 6
def tyPair (t : Ty) : Nat := if t == .bf16 then 1 else 0
def tyWidth (w : Nat) : Nat := if w ≤ 8 then 0 else if w ≤ 16 then 1 else if w ≤ 32 then 2 else 3

/-- Whether an instruction of a row of R312 is a floating one, which FMT may bear on (R100). -/
def fpCode (code : Nat) : Bool := decide (0x15 ≤ code / 2 ^ 16 ∧ code / 2 ^ 16 ≤ 0x1F)

/-- The function that a pure instruction is carried out by, with the width of its first result. -/
def rowOf : Instr → Option (Nat × Nat)
  | .add o => some (fcode 0x01 (tyInt o.ty) 0, o.ty.width) | .sub o => some (fcode 0x01 (tyInt o.ty) 1, o.ty.width)
  | .mul o => some (fcode 0x02 (tyInt o.ty) 0, o.ty.width) | .mulHiS o => some (fcode 0x02 (tyInt o.ty) 1, o.ty.width)
  | .mulHiU o => some (fcode 0x02 (tyInt o.ty) 2, o.ty.width) | .mad o => some (fcode 0x03 (tyInt o.ty) 0, o.ty.width)
  | .divS o => some (fcode 0x04 (tyInt o.ty) 1, o.ty.width) | .divU o => some (fcode 0x04 (tyInt o.ty) 0, o.ty.width)
  | .remS o => some (fcode 0x04 (tyInt o.ty) 3, o.ty.width) | .remU o => some (fcode 0x04 (tyInt o.ty) 2, o.ty.width)
  | .addSatS o => some (fcode 0x05 (tyInt o.ty) 1, o.ty.width) | .addSatU o => some (fcode 0x05 (tyInt o.ty) 0, o.ty.width)
  | .subSatS o => some (fcode 0x05 (tyInt o.ty) 3, o.ty.width) | .subSatU o => some (fcode 0x05 (tyInt o.ty) 2, o.ty.width)
  | .addCc o => some (fcode 0x01 (tyInt o.ty) 0, o.ty.width) | .subCc o => some (fcode 0x01 (tyInt o.ty) 1, o.ty.width)
  | .addc o => some (fcode 0x07 (tyInt o.ty) 0, o.ty.width) | .subc o => some (fcode 0x07 (tyInt o.ty) 64, o.ty.width)
  | .minS o => some (fcode 0x08 (tyInt o.ty) 1, o.ty.width) | .minU o => some (fcode 0x08 (tyInt o.ty) 0, o.ty.width)
  | .maxS o => some (fcode 0x08 (tyInt o.ty) 3, o.ty.width) | .maxU o => some (fcode 0x08 (tyInt o.ty) 2, o.ty.width)
  | .and o => some (fcode 0x09 (tyInt o.ty) 0, o.ty.width) | .or o => some (fcode 0x09 (tyInt o.ty) 1, o.ty.width)
  | .xor o => some (fcode 0x09 (tyInt o.ty) 2, o.ty.width) | .not o => some (fcode 0x09 (tyInt o.ty) 3, o.ty.width)
  | .shl o => some (fcode 0x0A (tyInt o.ty) 0, o.ty.width) | .shrU o => some (fcode 0x0A (tyInt o.ty) 1, o.ty.width)
  | .shrS o => some (fcode 0x0A (tyInt o.ty) 2, o.ty.width) | .rotl o => some (fcode 0x0A (tyInt o.ty) 3, o.ty.width)
  | .rotr o => some (fcode 0x0A (tyInt o.ty) 4, o.ty.width)
  | .clz o => some (fcode 0x0B (tyInt o.ty) 0, o.ty.width) | .ctz o => some (fcode 0x0B (tyInt o.ty) 1, o.ty.width)
  | .popc o => some (fcode 0x0B (tyInt o.ty) 2, o.ty.width) | .brev o => some (fcode 0x0B (tyInt o.ty) 3, o.ty.width)
  | .neg o => some (fcode 0x0B (tyInt o.ty) 4, o.ty.width) | .abs o => some (fcode 0x0B (tyInt o.ty) 5, o.ty.width)
  | .nadd _ => some (fcode 0x10 3 0, 64) | .nmake _ => some (fcode 0x10 3 1, 64)
  | .nidx _ => some (fcode 0x11 3 0, 64)
  | .cmp o => some (if o.ty.isFloat then fcode 0x1F (tyFp o.ty) o.cond.code
      else fcode 0x12 (tyInt o.ty) (o.cond.code + (if o.signed then 8 else 0)), 1)
  | .sel o => some (fcode 0x13 (tyWidth o.ty.width) 0, o.ty.width)
  | .fadd o => some (fcode 0x15 (tyFp o.ty) o.rnd.code, o.ty.width)
  | .fsub o => some (fcode 0x15 (tyFp o.ty) (o.rnd.code + 8), o.ty.width)
  | .fmul o => some (fcode 0x16 (tyFp o.ty) o.rnd.code, o.ty.width)
  | .fma o => some (fcode (0x17 + min o.rnd.code 4) (tyFp o.ty) 0, o.ty.width)
  | .fsqrt o => some (fcode 0x1C (tyFp o.ty) o.rnd.code, o.ty.width)
  | .frcp o => some (fcode 0x1C (tyFp o.ty) (o.rnd.code + 8), o.ty.width)
  | .frsq o => some (fcode 0x1C (tyFp o.ty) (o.rnd.code + 16), o.ty.width)
  | .exp2 o => some (fcode 0x1C (tyFp o.ty) (o.rnd.code + 24), o.ty.width)
  | .log2 o => some (fcode 0x1C (tyFp o.ty) (o.rnd.code + 32), o.ty.width)
  | .frint o => some (fcode 0x1C (tyFp o.ty) (o.rnd.code + 40), o.ty.width)
  | .fdiv o => some (fcode 0x1D (tyFp o.ty) o.rnd.code, o.ty.width)
  | .fmin o => some (fcode 0x1E (tyFp o.ty) 0, o.ty.width) | .fmax o => some (fcode 0x1E (tyFp o.ty) 1, o.ty.width)
  | .fabs o => some (fcode 0x1E (tyFp o.ty) 2, o.ty.width) | .fneg o => some (fcode 0x1E (tyFp o.ty) 3, o.ty.width)
  | .fcopysign o => some (fcode 0x1E (tyFp o.ty) 4, o.ty.width) | .fclass o => some (fcode 0x1E (tyFp o.ty) 5, 1)
  | .faddX2 o => some (fcode 0x15 (tyPair o.ty) o.rnd.code, 32)
  | .fsubX2 o => some (fcode 0x15 (tyPair o.ty) (o.rnd.code + 8), 32)
  | .fmulX2 o => some (fcode 0x16 (tyPair o.ty) o.rnd.code, 32)
  | .fmaX2 o => some (fcode (0x17 + min o.rnd.code 4) (tyPair o.ty) 0, 32)
  | .fminX2 o => some (fcode 0x1E (tyPair o.ty) 0, 32) | .fmaxX2 o => some (fcode 0x1E (tyPair o.ty) 1, 32)
  | .fabsX2 o => some (fcode 0x1E (tyPair o.ty) 2, 32) | .fnegX2 o => some (fcode 0x1E (tyPair o.ty) 3, 32)
  | .pand _ => some (fcode 0x4E 0 0, 1) | .por _ => some (fcode 0x4E 0 1, 1) | .pxor _ => some (fcode 0x4E 0 2, 1)
  | .pnot _ => some (fcode 0x4E 0 3, 1)
  | .getfmt _ => some (fcode 0x49 0 0, 32)
  | _ => none

/-- CVCTL of a conversion (R315). -/
def ctlBits (src dst : Ty) (r : Rnd) (ss ds : Bool) : Nat :=
  (if ds then 4096 else 0) + (if ss then 2048 else 0) + 256 * r.code + 16 * (src.code.toNat % 16) + dst.code.toNat % 16

/-- Whether a conversion to a floating format may draw random bits (R95, R109). -/
def mayDraw (dst : Ty) (r : Rnd) : Bool := dst.isFloat && (r == .sr || r == .fmt)

/-! ## Effects (R278) -/

/-- The operations whose order is kept, by kind (R278's Effects row). -/
inductive EfKind where
  | load | store | ldConst | atom | fe | barrier | wait | engine | spawn | post | herd | call | hjoin | setfmt | seed | clock
  | tokTest | trigger | mark | fence | stop | draw
  | tileLoad | tileStore | tileZero | tileFill | tileExtract | tileInsert | tileCvt | mma | none_
  deriving DecidableEq, Repr

/-- One effect: its kind and codes, its operands, what it leaves in consecutive registers, and its item. -/
structure Ef where
  kind : EfKind
  code : List Nat
  args : List Sym
  res : List Sym
  item : Nat
  deriving DecidableEq, Repr

/-- Whether an effect is visible outside the group (R280). -/
def Ef.visible (e : Ef) : Bool :=
  match e.kind with
  | .store | .atom | .barrier | .engine | .spawn | .post | .trigger | .herd | .tileStore => true
  | .fe => e.code.getD 1 0 != 4
  | _ => false

/-- Whether a mandatory drain point follows it (R281). -/
def Ef.drainAfter (e : Ef) : Bool :=
  match e.kind with
  | .wait | .hjoin => true
  | .fe => decide (e.code.getD 1 0 ≤ 1)
  | _ => false

/-- What a block computes: the terms of values, the functions that have a value's name, effects, operations that stand once
per group, and the version of FMT. -/
structure Blk where
  env : List (VKey × Sym)
  defs : List (Sym × Sym)
  effs : List Ef
  once : List Sym
  fmt : Nat
  deriving DecidableEq, Repr

/-- A term under the names that values give. -/
def named (defs : List (Sym × Sym)) (x : Sym) : Sym := ((defs.find? fun d => d.1 == x).map (·.2)).getD x

def Blk.term (b : Blk) (k : VKey) : Sym := ((b.env.find? fun e => e.1 == k).map (·.2)).getD .junk

def Blk.opd (b : Blk) (inst w : Nat) : Opd → Sym
  | .val n => b.term (inst, n.toNat)
  | o => .con (Opd.bits w o)

def leafOf (u : TUnit) (k : VKey) : Sym :=
  match u.val k with
  | some x => .leaf k x.ty.1.width (x.cls == .u)
  | none => .leaf k 32 true

/-- The term of a value at the start of a block: what a `const` or an `id` is, wherever it stands (R272); no operation of
the Bundle Form gives the thread index, which stays a value of its own. -/
def startTerm (u : TUnit) (k : VKey) : Sym :=
  match u.maker k with
  | some (.const o) => .con (Opd.bits o.ty.width o.a)
  | some (.id o) => if o.idx = 0 then leafOf u k
    else .op (fcode 0x47 0 o.idx.toNat) o.ty.width (.con 0) (.con 0) (.con 0)
  | _ => leafOf u k

/-- Gives a value its term: a function that has no name yet takes the value's. -/
def Blk.bind (u : TUnit) (b : Blk) (k : VKey) (x : Sym) : Blk :=
  match x with
  | .op _ _ _ _ _ =>
    match b.defs.find? fun d => d.1 == x with
    | some d => { b with env := (k, d.2) :: b.env }
    | none =>
      let l := leafOf u k
      { b with env := (k, l) :: b.env, defs := (x, l) :: b.defs }
  | _ => { b with env := (k, x) :: b.env }

/-- The registers that hold a value. -/
def Sym.regs (x : Sym) : List Sym := if x.width = 64 then [x.part false, x.part true] else [x]

/-- Adds an effect whose results are values of their own; `shape` says what it leaves in registers. -/
def Blk.effect (u : TUnit) (b : Blk) (it : Nat) (kind : EfKind) (code : List Nat) (args : List Sym) (ks : List VKey)
    (shape : List Sym → List Sym) : Blk :=
  let ls := ks.map (leafOf u)
  { b with env := ks.zip ls ++ b.env, effs := b.effs ++ [{ kind, code, args, res := shape ls, item := it }] }

def needBits : Sys2Proof.Need → Nat
  | .is t | .value t | .literal t | .addr t => t.width
  | .scale (some t) => t.width
  | .sameWidth w | .narrower w | .wider w => w
  | .stream => 64
  | _ => 32

/-- The operands of an instruction with requirements. -/
def Blk.needed (b : Blk) (inst : Nat) (i : Instr) : List Sym := i.needs.map fun p => b.opd inst (needBits p.2) p.1

def Blk.condArgs (b : Blk) (inst : Nat) (cs : List CondOp) : List Sym :=
  cs.flatMap fun c => (condNeeds c).map fun p => b.opd inst (needBits p.2) p.1

/-- A wait: its kinds and, where there are several, whether it is all-of (R183, R333). -/
def waitCodes (cs : List CondOp) (all : Bool) (yields : Nat) : List Nat :=
  [(kindBits cs).toNat, if cs.length = 1 then 0 else all.toNat, yields]

def addrOf (inst : Nat) (b : Blk) (p : Opd) (loc : Bool) : Sym := b.opd inst (if loc then 32 else 64) p

/-- The data of a store as its registers are read: one or two, a pair of narrow elements as one of 64 bits. -/
def dataArgs (n : Nat) (xs : List Sym) : List Sym :=
  match xs with
  | [x, y] => if n ≤ 4 then [Sym.join x y] else [x, y]
  | _ => xs

/-- An engine command: OP, MOD, MOD2 and the spaces of its streams, with its operands (R191, R327). -/
def Blk.engine (u : TUnit) (b : Blk) (k : Nat) (it : UItem) (op : Nat) (i : Instr) : Blk :=
  let near (o : Opd) : Nat := match o with
    | .val n => ((u.val (it.inst, n.toNat)).map fun x => (x.ty.1 == .near).toNat).getD 0
    | _ => 0
  let spaces := match i with
    | .isect o => [near o.a, near o.b]
    | _ => []
  b.effect u k .engine ([op, i.encMod.toNat, i.encExt.2.toNat] ++ spaces) (b.needed it.inst i) it.defs fun ls => ls

/-- A matrix operation: kind, KEEP, SFMT or signs, and the descriptor of its result (R239, R325). -/
def Blk.matrix (u : TUnit) (b : Blk) (k : Nat) (it : UItem) (kind keep s2 : Nat) (d : TileDesc) (xs : List Opd)
    (sb : Option Opd) : Blk :=
  let args := xs.map (b.opd it.inst 0) ++ (sb.map (b.opd it.inst (if s2 = 2 then 8 else 32))).toList
  b.effect u k .mma [kind, keep, s2, d.word.toNat] args it.defs fun ls => ls

def descWord (d : TileDesc) : Nat := d.word.toNat

/-- An operation that stands once per group, with what it gives besides (R277). -/
def Blk.single (u : TUnit) (b : Blk) (defs : List VKey) (code w : Nat) (args : List Sym) (second : Nat) : Blk :=
  let x := Sym.app code w args
  let b := { b with once := x :: b.once }
  match defs with
  | [] => b
  | [k] => b.bind u k x
  | k :: k2 :: _ => (b.bind u k x).bind u k2 (Sym.app (code + second) 1 args)

/-- What an instruction adds to a block. -/
def Blk.instr (ws : List Word) (u : TUnit) (b : Blk) (k : Nat) (it : UItem) (i : Instr) : Blk :=
  let inst := it.inst
  let args := b.needed inst i
  let fm : Sym := .con b.fmt
  let d0 := it.defs.headD (0, 0)
  let d1 := it.defs.getD 1 (0, 0)
  let one (x : Sym) : Blk := if it.defs.isEmpty then b else b.bind u d0 x
  let eff (kind : EfKind) (code : List Nat) (args : List Sym) (shape : List Sym → List Sym) : Blk :=
    b.effect u k kind code args it.defs shape
  let regs (ls : List Sym) : List Sym := ls.flatMap Sym.regs
  let atom (fn : Nat) (o : Order) (sc : BitVec 3) (ty : Ty) (uni : Bool) (nres : BitVec 2) : Blk :=
    eff .atom [uni.toNat, fn, ty.bytes, o.code, sc.toNat, if uni then 0 else (nres != 0).toNat] args regs
  let mem1 (fn : Nat) (o : MemOp2) : Blk := atom fn o.order o.scope o.ty o.uni o.nres
  let fe (fn : Nat) (o : Order) (sc : BitVec 3) (uni : Bool) : Blk :=
    eff .fe [uni.toNat, fn, o.code, sc.toNat] args regs
  let ext (code : Nat) (o : Op1) (s : Bool) : Blk :=
    let x := args.getD 0 .junk
    let v := x.width
    if v = 1 then one (Sym.app (fcode 0x13 (tyWidth o.ty.width) 0) o.ty.width
        [x, .con (if s then low o.ty.width (2 ^ 64 - 1) else 1), .con 0])
    else if s then one (Sym.app (fcode 0x0F (tyWidth o.ty.width) (code + 4 * tyWidth v)) o.ty.width [x])
    else one (if o.ty.width = 64 then Sym.join (x.trim 32) (.con 0) else x)
  let ctl (x y : Sym) : Sym := Sym.app (fcode 0x0D 2 0) 32 [x, y]
  let conv (src dst : Ty) (r : Rnd) (ss ds scaled uni : Bool) : Blk :=
    let c := ctlBits src dst r ss ds
    if mayDraw dst r then eff .draw [scaled.toNat, c, uni.toNat] (args ++ [fm]) regs
    else one (Sym.app (fcode (if scaled then 0x62 else 0x61) 0 0 + c * 2 ^ 32) dst.width (args ++ [fm]))
  let herd (red : Nat) (o : HerdOp) : Blk :=
    let caps := o.caps.map (b.opd inst 32)
    let b := b.effect u k .herd [o.h.toNat, o.caps.length, red, if red = 0 then 0 else
        (if o.ty.isFloat then tyFp o.ty else tyInt o.ty), o.signed.toNat, if red = 1 then o.rnd.code else 0]
      (args ++ caps) [] fun _ => []
    let b := b.effect u k .call [] [] [] fun _ => []
    b.effect u k .hjoin [] [] it.defs fun ls =>
      let val := if red = 0 then [.junk, .junk] else match ls with
        | x :: _ => if x.width = 64 then x.regs else [x, .junk]
        | [] => [.junk, .junk]
      val ++ [ls.getD (if red = 0 then 0 else 1) .junk]
  match i with
  | .ldNear o | .ldLocal o =>
    let loc := match i with | .ldLocal _ => true | _ => false
    eff .load [o.uni.toNat, loc.toNat, o.ty.bytes * (if o.pair then 2 else 1), o.order.code, o.scope.toNat] args regs
  | .stNear o | .stLocal o =>
    let loc := match i with | .stLocal _ => true | _ => false
    let n := o.ty.bytes
    eff .store [o.uni.toNat, loc.toNat, n * (if o.v2.isSome then 2 else 1), o.order.code, o.scope.toNat]
      (args.headD .junk :: dataArgs n ((args.drop 1).map fun x => x.trim (8 * n))) regs
  | .ldConst o =>
    let (off, bytes, _) := constEntry ws o.c.toNat
    eff .ldConst [o.ty.bytes, bytes / o.ty.bytes, objBytes ws bytes off] args regs
  | .atomAdd o => mem1 0 o | .atomMinS o => mem1 1 o | .atomMinU o => mem1 2 o | .atomMaxS o => mem1 3 o
  | .atomMaxU o => mem1 4 o | .atomAnd o => mem1 5 o | .atomOr o => mem1 6 o | .atomXor o => mem1 7 o
  | .atomSwap o => mem1 8 o | .atomFadd o => mem1 10 o
  | .atomCas o =>
    let b := b.effect u k .atom [o.uni.toNat, 9, o.ty.bytes, o.order.code, o.scope.toNat,
        if o.uni then 0 else (o.nres != 0).toNat] args (it.defs.take 1) regs
    if it.defs.length < 2 then b
    else b.bind u d1 (Sym.app (fcode 0x12 (tyInt o.ty) 0) 1 [b.term d0, args.getD 1 .junk])
  | .feLd o => fe 0 o.order o.scope o.uni | .feSt o => fe 1 o.order o.scope o.uni
  | .feTryld o => fe 2 o.order o.scope o.uni | .feTryst o => fe 3 o.order o.scope o.uni
  | .fePeek o => fe 4 o.order o.scope o.uni
  | .barArrive _ n => eff .barrier [n.toNat] [] regs
  | .barSync n =>
    let l : Sym := .leaf it.hidden 32 true
    let arrive : Ef := { kind := .barrier, code := [n.toNat], args := [], res := [l], item := k }
    let b : Blk := { b with effs := b.effs ++ [arrive] }
    b.effect u k .wait (waitCodes [.barrier n (.imm 0)] true 0) [.con 0xFFFFFFFF, .con n.toNat, l] [] regs
  | .barWait n _ => eff .wait (waitCodes [.barrier n (.imm 0)] true 0) (.con 0xFFFFFFFF :: args) regs
  | .mwait m => eff .wait (waitCodes [.matrix m] true 0) (.con 0xFFFFFFFF :: args) regs
  | .waitAny o | .waitAll o =>
    eff .wait (waitCodes o.conds (match i with | .waitAll _ => true | _ => false) 0) args regs
  | .yield o =>
    let l : Sym := .leaf it.hidden 32 true
    { b with env := (it.hidden, l) :: b.env,
             effs := b.effs ++ [{ kind := .wait, code := waitCodes o.conds o.all 1, args, res := [l], item := k }] }
  | .copyIn _ => b.engine u k it 1 i | .copyOut _ => b.engine u k it 2 i | .copyNear _ => b.engine u k it 3 i
  | .gather _ => b.engine u k it 4 i | .scatter _ => b.engine u k it 5 i | .csrRows _ => b.engine u k it 6 i
  | .bsrBlocks _ => b.engine u k it 7 i | .isect _ => b.engine u k it 8 i | .reduceFar _ => b.engine u k it 9 i
  | .tokTest _ _ => eff .tokTest [] args regs
  | .spawn o => eff .spawn [o.fn.toNat] (((paramsOf ws o.fn.toNat).zip o.args).map fun p => b.opd inst p.1.1.width p.2) regs
  | .taskpost o => eff .post [o.fn.toNat, o.uni.toNat]
      (args ++ (((paramsOf ws o.fn.toNat).drop 1).zip o.args).map fun p => b.opd inst p.1.1.width p.2) regs
  | .depTrigger => eff .trigger [] [] regs
  | .herd o => herd 0 o | .herdAdd o => herd 1 o | .herdMin o => herd 2 o | .herdMax o => herd 3 o | .herdOr o => herd 4 o
  | .setfmt o =>
    let b := eff .setfmt [o.mask.toNat] args fun _ => [.con (b.fmt + 1)]
    { b with fmt := b.fmt + 1 }
  | .rngSeed _ => eff .seed [] args regs
  | .clock _ => eff .clock [] [] regs
  | .mark c => eff .mark [c.toNat] [] regs
  | .mfence => eff .fence [] [] regs
  | .trap c => eff .stop [0, c.toNat] [] regs
  | .brk c => eff .stop [1, c.toNat] [] regs
  | .tileZero d => eff .tileZero [descWord d] [] id
  | .tileFill o => eff .tileFill [descWord o.d] args id
  | .tileLoad o => eff .tileLoad [o.tr.toNat, descWord o.d] args id
  | .tileStore o => eff .tileStore [o.tr.toNat] args id
  | .tileCvt o => eff .tileCvt [ctlBits .void o.d.elem.ty o.rnd o.ss o.ds, descWord o.d] args id
  | .tileExtract _ => eff .tileExtract [] args regs
  | .tileInsert o => eff .tileInsert [descWord o.d] args id
  | .mmaF8s o => b.matrix u k it 0 0 o.sfmt.toNat o.d [o.a, o.b, o.c, o.sa] (some o.sb)
  | .mmaBf16 o => b.matrix u k it 1 0 0 o.d [o.a, o.b, o.c] none
  | .mmaF16 o => b.matrix u k it 2 0 0 o.d [o.a, o.b, o.c] none
  | .mmaI8 o => b.matrix u k it 3 0 (o.sa.toNat + 2 * o.sb.toNat) o.d [o.a, o.b, o.c] none
  | .mmaSp o => b.matrix u k it o.form.toNat (16 * (o.keep.toNat + 1)) o.s2.toNat o.d
      ([o.a, o.b, o.m, o.c] ++ (o.scales.map (·.1)).toList) (o.scales.map (·.2))
  | .xlane o => b.single u it.defs (fcode 0x30 0 o.mode.code) (max 32 o.ty.width) args 8
  | .grpAdd o => b.single u it.defs (fcode 0x32 (if o.ty.isFloat then tyFp o.ty else tyInt o.ty) o.rnd.code) o.ty.width
      (args ++ if o.ty.isFloat then [fm] else []) 0
  | .grpMin o => b.single u it.defs (fcode 0x32 (if o.ty.isFloat then tyFp o.ty else tyInt o.ty)
      (64 + (if o.signed then 8 else 0))) o.ty.width (args ++ if o.ty.isFloat then [fm] else []) 0
  | .grpMax o => b.single u it.defs (fcode 0x32 (if o.ty.isFloat then tyFp o.ty else tyInt o.ty)
      (128 + (if o.signed then 8 else 0))) o.ty.width (args ++ if o.ty.isFloat then [fm] else []) 0
  | .conflict o => b.single u it.defs (fcode 0x33 (tyWidth o.ty.width) 0) 64 args 8
  | .lanesAny _ => b.single u it.defs (fcode 0x31 0 0) 1 args 0
  | .lanesAll _ => b.single u it.defs (fcode 0x31 0 1) 1 args 0
  | .lanesMask _ => b.single u it.defs (fcode 0x31 0 2) 64 args 0
  | .rdfirst ty _ =>
    let x := args.getD 0 .junk
    one (if x.uni then x else Sym.app (fcode 0x2B 0 0) (max 32 ty.width) [x])
  | .id _ | .const _ => { b with env := (d0, startTerm u d0) :: b.env }
  | .bitcast _ => one (args.getD 0 .junk)
  | .sext o => ext 1 o true
  | .zext o => ext 0 o false
  | .trunc o => one ((args.getD 0 .junk).trim o.ty.width)
  | .nsplit _ =>
    let b := b.bind u d0 (Sym.app (fcode 0x10 2 2) 32 args)
    b.bind u d1 (Sym.app (fcode 0x10 2 3) 32 args)
  | .bfeU o => one (Sym.app (fcode 0x0C (tyInt o.ty) 0) o.ty.width [args.getD 0 .junk, ctl (args.getD 1 .junk) (args.getD 2 .junk)])
  | .bfeS o => one (Sym.app (fcode 0x0C (tyInt o.ty) 1) o.ty.width [args.getD 0 .junk, ctl (args.getD 1 .junk) (args.getD 2 .junk)])
  | .bfi o => one (Sym.app (fcode 0x0E (tyInt o.ty) 0) o.ty.width
      [args.getD 0 .junk, args.getD 1 .junk, ctl (args.getD 2 .junk) (args.getD 3 .junk)])
  | .unpack o =>
    let w := o.ty.width
    one ((Sym.app (fcode 0x0C 2 0) 32 [args.getD 0 .junk, .con (w * Opd.bits 32 o.b + 256 * w)]).trim w)
  | .pack o =>
    let w := o.ty.width
    one ((args.zipIdx).foldl (fun acc x => if x.2 = 0 then x.1
      else Sym.app (fcode 0x0E 2 0) 32 [acc, x.1, .con (w * x.2 + 256 * w)]) (.con 0))
  | .cvt o => conv o.src o.ty o.rnd o.ss o.ds false o.uni
  | .cvtScaled o => conv o.src o.ty o.rnd false false true o.uni
  | .addCc o | .subCc o =>
    match rowOf i with
    | some (c, w) =>
      (b.bind u d0 (Sym.app c w args)).bind u d1
        (Sym.app (fcode 0x06 (tyInt o.ty) (if c % 2 = 1 then 8 else 0)) 1 args)
    | none => b
  | .addc _ | .subc _ =>
    match rowOf i with
    | some (c, w) => (b.bind u d0 (Sym.app c w args)).bind u d1 (Sym.app (c + 2 ^ 24) 1 args)
    | none => b
  | .fence _ => { b with effs := b.effs ++ [{ kind := .none_, code := [], args := [], res := [], item := k }] }
  | _ =>
    match rowOf i with
    | some (c, w) => one (Sym.app c w (args ++ if fpCode c || c / 2 ^ 16 = 0x49 then [fm] else []))
    | none => b

/-- What an item adds to a block; calls, returns and exits are edges and ends. -/
def Blk.item (ws : List Word) (u : TUnit) (b : Blk) (q : UItem × Nat) : Blk :=
  match q.1.ins with
  | some (.call _) | some (.ret _) | some .exit | none => b
  | some i => b.instr ws u q.2 q.1 i

/-- A block from the terms that it starts with and the names that functions have already. -/
def TUnit.blockFrom (u : TUnit) (ws : List Word) (n : Nat) (env : List (VKey × Sym)) (defs : List (Sym × Sym)) : Blk :=
  ((u.items.zipIdx).filter fun q => q.1.node == n).foldl (Blk.item ws u)
    ⟨env, defs, [], [], 4096 * n⟩

/-- A block from the terms that it starts with. -/
def TUnit.block (u : TUnit) (ws : List Word) (n : Nat) (env : List (VKey × Sym)) : Blk := u.blockFrom ws n env []

/-- The terms of a unit's values where nothing more is known of them. -/
def startEnv (u : TUnit) : List (VKey × Sym) := u.vals.map fun v => (v.key, startTerm u v.key)

end Sys2Proof.Machine
end

