-- ==== Sys2Proof/Machine/SlotTerms.lean ====
section
/-! DEFINITION. What the slots of a bundle do in terms: the locations that an operation reads, what it writes and when, its
effect and its spill store or fill (15_tbf_operations.md R308 to R335; 14 R298 to R300). -/

namespace Sys2Proof.Machine

open Sys2Proof

/-! ## Locations -/

/-- Numbers of locations: a vector register is its cluster and number, spill slots stand at their bytes. -/
def locV (cl n : Nat) : Nat := 128 * cl + n
def locS (n : Nat) : Nat := 512 + n
def locK (n : Nat) : Nat := 576 + n
def locT (n : Nat) : Nat := 600 + n
def locShape (n : Nat) : Nat := 616 + n
def locCv : Nat := 640
def locFmt : Nat := 641
def locLc : Nat := 642
def locSlot (off : Nat) : Nat := 1024 + off

/-- The locations of a place that holds `size` registers. -/
def VPlace.locs (width size : Nat) (cls : RClass) : VPlace → List Nat
  | .v c n => (List.range size).map fun i => locV c (n + i)
  | .s n => (List.range size).map fun i => locS (n + i)
  | .k n => [locK n]
  | .t n => [locT n]
  | .slot off => (List.range (if cls == .p then 2 else size)).map fun i => locSlot (off + (if cls == .v then 4 * width * i else 4 * i))
  | .konst _ | .ident _ => []

/-! ## States of terms -/

/-- A fixed-latency result in flight: the bundles until it lands, at least and at most. -/
structure Flight where
  loc : Nat
  val : Sym
  lo : Nat
  hi : Nat
  deriving DecidableEq, Repr

/-- A variable-latency result not yet waited for. -/
structure Late where
  loc : Nat
  val : Sym
  flag : Nat
  deriving DecidableEq, Repr

structure TState where
  regs : List (Nat × Sym)
  fly : List Flight
  late : List Late
  deriving DecidableEq, Repr

/-- What a location holds for the bundle that issues; unknown where a result may or may not have landed. -/
def TState.get (t : TState) (l : Nat) : Sym :=
  if t.fly.any fun f => f.loc == l && f.lo == 0 then .junk
  else ((t.regs.find? fun r => r.1 == l).map (·.2)).getD .junk

def TState.put (t : TState) (l : Nat) (x : Sym) : TState :=
  { t with regs := (l, x) :: t.regs.filter fun r => r.1 != l }

/-- One bundle on: what must have landed has. -/
def TState.tick (t : TState) : TState :=
  let fly := t.fly.map fun f => { f with lo := f.lo - 1, hi := f.hi - 1 }
  let due := fly.filter fun f => f.hi == 0
  due.foldl (fun t f => t.put f.loc f.val) { t with fly := fly.filter fun f => f.hi != 0 }

/-- The flags of a clause's wait mask are waited for. -/
def TState.await (t : TState) (mask : Nat) : TState :=
  let due := t.late.filter fun l => bitOf mask l.flag
  due.foldl (fun t l => t.put l.loc l.val) { t with late := t.late.filter fun l => !bitOf mask l.flag }

/-- The state once everything in flight has landed. -/
def TState.settled (t : TState) : TState :=
  let t := t.late.foldl (fun t l => t.put l.loc l.val) { t with late := [] }
  t.fly.foldl (fun t f => t.put f.loc f.val) { t with fly := [] }

/-! ## What an operation does -/

/-- What a bundle is read under: the image, the plan, the group's width, whether it runs on Gale, the beats of a bundle at
least and at most, the flags of its clause, and the captured values of a helper. -/
structure SlotEnv where
  ws : List Word
  img : List Word
  p : Plan
  width : Nat
  gale : Bool
  beatsLo : Nat
  beatsHi : Nat
  flag0 : Nat
  flag1 : Nat
  caps : List Sym
  defs : List (Sym × Sym)
  bc : Nat × Nat
  deriving DecidableEq, Repr

/-- When results stand. -/
inductive When where
  | fixed (l : LatClass)
  | next
  | flag (f : Nat)
  | now
  deriving DecidableEq, Repr

/-- An operation in terms: reads, writes of its own with their time, writes at once, an effect with the locations of its
results, an operation that stands once per group, a spill store or fill with its slot, and whether it is none that a
translation holds. -/
structure Act where
  reads : List Nat
  out : List (Nat × Sym)
  when : When
  now : List (Nat × Sym)
  eff : Option (EfKind × List Nat × List Sym)
  dest : List Nat
  once : Option Sym
  spill : Option (Bool × Nat)
  bad : Bool
  deriving DecidableEq, Repr

def Act.none : Act :=
  { reads := [], out := [], when := .now, now := [], eff := .none, dest := [], once := .none, spill := .none, bad := false }
def Act.wrong : Act := { Act.none with bad := true }

/-- A term read with the locations that it was read from. -/
abbrev Rd := Sym × List Nat

/-- A register, or a pair, at a width. -/
def TState.reg (t : TState) (l w : Nat) : Rd :=
  if w = 64 then (Sym.join (t.get l) (t.get (l + 1)), [l, l + 1]) else ((t.get l).trim w, [l])

/-- An operand code (R308); `slot` is BP's TARGET of the slot that reads. -/
def opcodeRd (e : SlotEnv) (t : TState) (slot cl : Nat) (c : BitVec 8) (w : Nat) : Rd :=
  let n := c.toNat
  if n < 128 then t.reg (locV cl n) w
  else if n = 128 then if e.bc.2 = slot then t.reg (locS e.bc.1) w else (.junk, [])
  else if n ≤ 136 then (match e.caps[n - 129]? with | some x => (x.trim w, []) | none => (.junk, []))
  else if 192 ≤ n then (.con (lowI w (BitVec.ofNat 6 n).toInt), [])
  else (.junk, [])

/-- Reads that give operands, put together. -/
def rdArgs (rs : List Rd) : List Sym × List Nat := (rs.map (·.1), rs.flatMap (·.2))

/-- A result of a term in a register, or in a pair for 64 bits. -/
def regOut (e : SlotEnv) (l w : Nat) (x : Sym) : List (Nat × Sym) :=
  let x := named e.defs x
  if w = 64 then [(l, x.part false), (l + 1, x.part true)] else [(l, x)]

def fmtRd (t : TState) : Rd := (t.get locFmt, [])

/-- A function of R312 on operands that are read at a width: the reads, the main result with its width, whether it goes to a
predicate, and the carry. `k` reads a predicate or carry operand, `c` the third register. -/
def rowAct (t : TState) (f ty x : Nat) (a b : Nat → Rd) (c : Nat → Rd) (k : Nat → Rd) :
    List Nat × Sym × Nat × Bool × Option Sym :=
  let w := 8 * 2 ^ (ty % 4)
  let go (code rw : Nat) (rs : List Rd) : List Nat × Sym × Nat × Bool × Option Sym :=
    let (as, ls) := rdArgs rs
    (ls, Sym.app code rw as, rw, false, none)
  let pred (code : Nat) (rs : List Rd) : List Nat × Sym × Nat × Bool × Option Sym :=
    let (as, ls) := rdArgs rs
    (ls, Sym.app code 1 as, 1, true, none)
  let fw := if ty < 2 then 32 else match ty with | 2 | 3 => 8 | 4 | 5 => 16 | 7 => 64 | _ => 32
  let fm := fmtRd t
  match f with
  | 0x01 => go (fcode f ty (x % 2)) w [a w, b w]
  | 0x02 | 0x04 | 0x05 | 0x08 => go (fcode f ty (x % 4)) w [a w, b w]
  | 0x03 => go (fcode f ty 0) w [a w, b w, c w]
  | 0x06 =>
    let (as, ls) := rdArgs [a w, b w]
    (ls, Sym.app (fcode 0x01 ty (x / 8 % 2)) w as, w, false, some (Sym.app (fcode 0x06 ty (8 * (x / 8 % 2))) 1 as))
  | 0x07 =>
    let (as, ls) := rdArgs [a w, b w, k 1]
    let code := fcode 0x07 ty (64 * (x / 64 % 2))
    (ls, Sym.app code w as, w, false, some (Sym.app (code + 2 ^ 24) 1 as))
  | 0x09 => if x % 4 = 3 then go (fcode f ty 3) w [a w] else go (fcode f ty (x % 4)) w [a w, b w]
  | 0x0A => go (fcode f ty (x % 8)) w [a w, b 32]
  | 0x0B => go (fcode f ty (x % 8)) w [a w]
  | 0x0C => go (fcode f ty (x % 2)) w [a w, b 32]
  | 0x0D => go (fcode f 2 0) 32 [a 32, b 32]
  | 0x0E => go (fcode f ty 0) w [a w, b w, c 32]
  | 0x0F =>
    let v := 8 * 2 ^ (x / 4 % 4)
    let y := a v
    if x % 4 = 1 then go (fcode f ty (1 + 4 * (x / 4 % 4))) w [y]
    else (y.2, if w = 64 then Sym.join (y.1.trim 32) (.con 0) else y.1.trim w, w, false, none)
  | 0x10 =>
    match x % 4 with
    | 0 => go (fcode f 3 0) 64 [a 64, b 64]
    | 1 => go (fcode f 3 1) 64 [a 32, b 32]
    | m => go (fcode f 2 m) 32 [a 64]
  | 0x11 => go (fcode f 3 0) 64 [a 64, b 64, c 32]
  | 0x12 => pred (fcode f ty (x % 16)) [a w, b w]
  | 0x13 => go (fcode f ty 0) w [k 1, a w, b w]
  | 0x14 => let y := a w; (y.2, y.1.trim w, w, false, none)
  | 0x15 => go (fcode f ty (x % 16)) fw [a fw, b fw, fm]
  | 0x16 | 0x1D => go (fcode f ty (x % 8)) fw [a fw, b fw, fm]
  | 0x17 | 0x18 | 0x19 | 0x1A | 0x1B => go (fcode f ty 0) fw [a fw, b fw, c fw, fm]
  | 0x1C => go (fcode f ty (x % 64)) fw [a fw, fm]
  | 0x1E =>
    match x % 8 with
    | 2 | 3 => go (fcode f ty (x % 8)) fw [a fw, fm]
    | 5 => pred (fcode f ty 5) [a fw, b 32, fm]
    | m => go (fcode f ty m) fw [a fw, b fw, fm]
  | 0x1F => pred (fcode f ty (x % 8)) [a fw, b fw, fm]
  | _ => ([], .junk, 32, false, none)

/-- The latency of a VA function (R313). -/
def rowLat (f ty x : Nat) : LatClass :=
  if f = 0x02 ∨ f = 0x03 ∨ f = 0x11 then .intMul
  else if f = 0x04 then (if ty = 3 then .fpDiv64 else .fpDiv)
  else if f < 0x15 then .intAdd
  else if (f = 0x1C ∧ x / 8 % 8 ≠ 5) ∨ f = 0x1D then (if ty = 7 then .fpDiv64 else .fpDiv)
  else if ty = 7 then .fp64 else .fpAdd

/-! ## VA and US slots -/

/-- A VA operation. -/
def vaAct (e : SlotEnv) (t : TState) (slot : Nat) (i : Instr) : Act :=
  match i.vaFn with
  | none => if i == .tbfNop then .none else .wrong
  | some (f, v) =>
    let cl := v.cl.toNat
    let x := v.x.toNat
    let kIn := if f = 0x07 then x / 8 % 8 else x % 8
    let (reads, main, w, isK, cc) := rowAct t f v.ty.toNat x (opcodeRd e t slot cl v.a) (opcodeRd e t slot cl v.b)
      (fun w => t.reg (locV cl x) w) (fun _ => (t.get (locK kIn), [locK kIn]))
    let out := if isK then [(locK (v.d.toNat % 8), named e.defs main)] else regOut e (locV cl v.d.toNat) w main
    { Act.none with
      reads, when := .fixed (rowLat f v.ty.toNat x),
      out := out ++ (match cc with | some y => [(locK (x % 8), named e.defs y)] | none => []) }

/-- Writes under the uniform-slot latency. -/
def usOut (reads : List Nat) (out : List (Nat × Sym)) : Act := { Act.none with reads, out, when := .fixed .unif }

/-- Data registers of `n` bytes from location `l`, as the memory operations read them. -/
def dataRd (t : TState) (l n : Nat) : List Rd :=
  if n ≤ 4 then [t.reg l (8 * n)] else if n = 8 then [t.reg l 64] else [t.reg l 64, t.reg (l + 2) 64]
def dataLocs (l n : Nat) : List Nat := if n ≤ 4 then [l] else (List.range (n / 4)).map (l + ·)

/-- An effect whose results stand in locations at a time. -/
def effAct (kind : EfKind) (code : List Nat) (rs : List Rd) (dest : List Nat) (when : When) : Act :=
  let (as, reads) := rdArgs rs
  { Act.none with reads, when, eff := some (kind, code, as), dest }

/-- A US operation (R314). -/
def usAct (e : SlotEnv) (t : TState) (i : Instr) : Act :=
  let s (n : BitVec 6) (w : Nat) : Rd := t.reg (locS n.toNat) w
  let k (n : Nat) : Rd := (t.get (locK n), [locK n])
  let memEff (kind : EfKind) (f : Umem) (code : List Nat) (data : List Rd) (dest : List Nat) : Act :=
    effAct kind code (s f.a (if f.loc then 32 else 64) :: data) dest (.flag e.flag1)
  match i with
  | .tbfNop => .none
  | .usInteger fn ty f =>
    let fnn := fn.toNat
    let sub := (f.x.getLsbD 12).toNat
    let x := if fnn = 6 then 8 * sub else if fnn = 7 then 64 * sub else Us.xs f 6 0
    let (reads, main, w, _, cc) := rowAct t fnn ty.toNat x (s f.a) (s f.b)
      (fun w => t.reg (locS (Us.xs f 5 0)) w) (fun w => t.reg (locS (Us.xs f 11 6)) w)
    usOut reads (regOut e (locS f.d.toNat) w main
      ++ (match cc with | some y => [(locS (Us.xs f 5 0), named e.defs y)] | none => []))
  | .unadr f =>
    let (reads, main, w, _, _) := rowAct t 0x10 3 (Us.xs f 1 0) (s f.a) (s f.b) (s f.b) (s f.b)
    usOut reads (regOut e (locS f.d.toNat) w main)
  | .unidx f =>
    let (reads, main, w, _, _) := rowAct t 0x11 3 0 (s f.a) (s f.b) (fun w => t.reg (locS (Us.xs f 5 0)) w) (s f.b)
    usOut reads (regOut e (locS f.d.toNat) w main)
  | .ucmp f =>
    let (reads, main, _, _, _) := rowAct t 0x12 (Us.xs f 5 4) (Us.xs f 3 0) (s f.a) (s f.b) (s f.b) (s f.b)
    usOut reads (regOut e (locS f.d.toNat) 32 main)
  | .usel f =>
    let wide := f.x.getLsbD 6
    let (reads, main, w, _, _) := rowAct t 0x13 (if wide then 3 else 2) 0 (s f.a) (s f.b) (s f.b)
      (fun w => t.reg (locS (Us.xs f 5 0)) w)
    usOut reads (regOut e (locS f.d.toNat) w main)
  | .umov f => let y := s f.a (if f.x.getLsbD 0 then 64 else 32)
    usOut y.2 (regOut e (locS f.d.toNat) (if f.x.getLsbD 0 then 64 else 32) y.1)
  | .umovi d v => usOut [] [(locS d.toNat, .con (lowI 32 v.toInt))]
  | .uldk d wide n =>
    let c := imgConst e.img n.toNat
    usOut [] (regOut e (locS d.toNat) (if wide then 64 else 32) (.con (if wide then c else c % 2 ^ 32)))
  | .uid f =>
    let n := Us.xs f 7 0
    let w := if n = 8 then 64 else 32
    if n = 0 then .wrong else usOut [] (regOut e (locS f.d.toNat) w (Sym.app (fcode 0x47 0 n) w []))
  | .uclock f => effAct .clock [] [] [locS f.d.toNat, locS f.d.toNat + 1] (.fixed .unif)
  | .ugetfmt f => usOut [] (regOut e (locS f.d.toNat) 32 (Sym.app (fcode 0x49 0 0) 32 [t.get locFmt]))
  | .usetfmt f => effAct .setfmt [Us.xs f 3 0] [s f.a 32] [locFmt] (.fixed .unif)
  | .urseed f => effAct .seed [] [s f.a 64] [] (.fixed .unif)
  | .ucvset f => usOut [] [(locCv, .con (Us.xs f 12 0))]
  | .tshape tn el cm rm =>
    let d := el.toNat * 2 ^ 26 + cm.toNat * 128 + rm.toNat
    let same := t.get (locShape tn.toNat) == .con d
    { Act.none with now := (locShape tn.toNat, .con d) :: if same then [] else [(locT tn.toNat, .junk)] }
  | .plogic f =>
    let m := Us.xs f 1 0
    let (as, reads) := rdArgs (if m = 3 then [k (f.a.toNat % 8)] else [k (f.a.toNat % 8), k (f.b.toNat % 8)])
    usOut reads [(locK (f.d.toNat % 8), named e.defs (Sym.app (fcode 0x4E 0 m) 1 as))]
  | .kfroms f =>
    if f.x.getLsbD 0 then
      let y := s f.a 64
      usOut y.2 [(locK (f.d.toNat % 8), match y.1 with | .op c _ x _ _ => if c = fcode 0x50 0 0 then x else .junk | _ => .junk)]
    else
      let y := s f.a 32
      usOut y.2 [(locK (f.d.toNat % 8), if y.1.width = 1 then y.1 else .junk)]
  | .stok f => let y := k (f.a.toNat % 8)
    usOut y.2 (regOut e (locS f.d.toNat) 64 (Sym.app (fcode 0x50 0 0) 64 [y.1]))
  | .uld f => memEff .load f [1, f.loc.toNat, umemBytes f, f.order.code, f.scope.toNat] []
      (dataLocs (locS f.d.toNat) (umemBytes f))
  | .ust f => memEff .store f [1, f.loc.toNat, umemBytes f, f.order.code, f.scope.toNat]
      (dataRd t (locS f.d.toNat) (umemBytes f)) []
  | .uatom f =>
    let w := 8 * umemBytes f
    memEff .atom f [1, f.fn.toNat, umemBytes f, f.order.code, f.scope.toNat, 0]
      (s f.d w :: if f.fn == 9 then [s f.b w] else []) (dataLocs (locS f.d.toNat) (umemBytes f))
  | .ufe f =>
    let n := f.fn.toNat
    memEff .fe f [1, n, f.order.code, f.scope.toNat] (if n = 1 ∨ n = 3 then [s f.d 64] else [])
      ((if n = 1 ∨ n = 3 then [] else [locS f.d.toNat, locS f.d.toNat + 1]) ++ if 2 ≤ n then [locS f.b.toNat] else [])
  | .uspill r wide slot =>
    let off := e.p.uniOff + 8 * slot.toNat
    { Act.none with
      reads := if wide then [locS r.toNat, locS r.toNat + 1] else [locS r.toNat],
      now := (locSlot off, t.get (locS r.toNat)) :: if wide then [(locSlot (off + 4), t.get (locS r.toNat + 1))] else [],
      when := .flag e.flag1, spill := some (true, off) }
  | .ufill r wide slot =>
    let off := e.p.uniOff + 8 * slot.toNat
    { Act.none with
      reads := locSlot off :: if wide then [locSlot (off + 4)] else [],
      out := (locS r.toNat, t.get (locSlot off)) :: if wide then [(locS r.toNat + 1, t.get (locSlot (off + 4)))] else [],
      when := .flag e.flag1, spill := some (false, off) }
  | .utokt f => effAct .tokTest [] [s f.a 32] [locS f.d.toNat] (.fixed .unif)
  | .ubar f => effAct .barrier [Us.xs f 4 0] [] [locS f.d.toNat] (.fixed .unif)
  | .utrig => effAct .trigger [] [] [] .now
  | .umark c => effAct .mark [c.toNat] [] [] .now
  | .tbfMfence d => effAct .fence [] [] [locS d.toNat] (.fixed .unif)
  | _ => .wrong

/-! ## VM and CV slots -/

/-- The descriptor word that a shape register is known to hold. -/
def TState.shape (t : TState) (n : Nat) : Nat :=
  match t.get (locShape n) with
  | .con d => d
  | _ => 0

def tileRd (t : TState) (n : BitVec 4) : Rd := (t.get (locT n.toNat), [locT n.toNat])

/-- A matrix operation: its result stands in TD under the shape of TC. -/
def mmaAct (t : TState) (kind keep s2 : Nat) (f : TmmaF) (tiles : List (BitVec 4)) (sb : Bool) : Act :=
  let d := t.shape f.tc.toNat
  { effAct .mma [kind, keep, s2, d] (tiles.map (tileRd t) ++ if sb then [t.reg (locS f.sb.toNat) 32] else [])
      [locT f.td.toNat] .now with now := [(locShape f.td.toNat, .con d)] }

/-- A VM operation (R317 to R325). -/
def vmAct (e : SlotEnv) (t : TState) (i : VmOp) : Act :=
  let ad (cl : BitVec 2) (c : BitVec 8) (w : Nat) : Rd := opcodeRd e t 3 cl.toNat c w
  let v (cl : BitVec 2) (n : BitVec 7) (w : Nat) : Rd := t.reg (locV cl.toNat n.toNat) w
  let at_ (cl : BitVec 2) (n : BitVec 7) : Nat := locV cl.toNat n.toNat
  let wide (b : Bool) : Nat := if b then 64 else 32
  let single (code w : Nat) (rs : List Rd) (d : Nat) (second : Option Nat) (isK : Bool) : Act :=
    let (as, reads) := rdArgs rs
    let x := Sym.app code w as
    { Act.none with
      reads, when := .fixed .cross, once := some x,
      out := (if isK then [(d, named e.defs x)] else regOut e d w x)
        ++ (match second with | some k => [(locK k, named e.defs (Sym.app (code + 8) 1 as))] | none => []) }
  match i with
  | .nop => .none
  | .vld f =>
    let n := 2 ^ f.size.toNat
    effAct .load [0, f.loc.toNat, n, f.order.code, f.scope.toNat] [ad f.cl f.ad (wide !f.loc)]
      (dataLocs (at_ f.cl f.dv) n) (.flag e.flag0)
  | .vst f =>
    let n := 2 ^ f.size.toNat
    effAct .store [0, f.loc.toNat, n, f.order.code, f.scope.toNat]
      (ad f.cl f.ad (wide !f.loc) :: dataRd t (at_ f.cl f.dv) n) [] (.flag e.flag0)
  | .vldk f =>
    let n := 2 ^ f.size.toNat
    let c := imgConst e.img f.k.toNat
    effAct .ldConst [n, c / 2 ^ 32, objBytes e.img (n * (c / 2 ^ 32)) (c % 2 ^ 32)] [ad f.cl f.ad 32]
      (dataLocs (at_ f.cl f.dv) n) (.flag e.flag0)
  | .vatom f =>
    let w := wide f.w64
    effAct .atom [0, f.fn.toNat, w / 8, f.order.code, f.scope.toNat, (!f.nores).toNat]
      (v f.cl f.ap 64 :: if f.fn == 9 then [v f.cl f.d w, v f.cl f.v w] else [v f.cl f.v w])
      (if f.nores then [] else dataLocs (at_ f.cl f.d) (w / 8)) (.flag e.flag0)
  | .vfe f =>
    let n := f.fn.toNat
    effAct .fe [0, n, f.order.code, f.scope.toNat] (ad f.cl f.ad 64 :: if n = 1 ∨ n = 3 then [v f.cl f.d 64] else [])
      ((if n = 1 ∨ n = 3 then [] else dataLocs (at_ f.cl f.d) 8) ++ if f.kv then [locK f.k.toNat] else [])
      (.flag e.flag0)
  | .vspill f =>
    let off := 8 * f.slot.toNat
    let l := at_ f.cl f.d
    { Act.none with
      reads := if f.w64 then [l, l + 1] else [l],
      now := (locSlot off, t.get l) :: if f.w64 then [(locSlot (off + 4 * e.width), t.get (l + 1))] else [],
      when := .flag e.flag0, spill := some (true, off) }
  | .vfill f =>
    let off := 8 * f.slot.toNat
    let hi := locSlot (off + 4 * e.width)
    let l := at_ f.cl f.d
    { Act.none with
      reads := locSlot off :: if f.w64 then [hi] else [],
      out := (l, t.get (locSlot off)) :: if f.w64 then [(l + 1, t.get hi)] else [],
      when := .flag e.flag0, spill := some (false, off) }
  | .xmv f =>
    let y := v f.scl f.src (wide f.w64)
    { Act.none with
      reads := y.2, when := .fixed .xmv, out := regOut e (at_ f.cl f.d) (wide f.w64) y.1, bad := f.cl == f.scl }
  | .vtos f =>
    let y := v f.cl f.src (wide f.w64)
    let x := if y.1.uni then y.1 else Sym.app (fcode 0x2B 0 0) (wide f.w64) [y.1]
    { Act.none with reads := y.2, when := .fixed .cross, out := regOut e (locS f.s.toNat) (wide f.w64) x }
  | .vxlane f => single (fcode 0x30 0 f.mode.code) (wide f.w64) [v f.cl f.x (wide f.w64), ad f.cl f.n 32] (at_ f.cl f.d)
      (if f.kv then some f.k.toNat else none) false
  | .vlanes f =>
    let n := f.fn.toNat
    let p : Rd := (t.get (locK f.k.toNat), [locK f.k.toNat])
    single (fcode 0x31 0 n) (if n = 2 then 64 else 1) [p] (if n = 2 then at_ f.cl f.d else locK (f.d.toNat % 8)) none (n != 2)
  | .vgrp f =>
    let ty := f.ty.toNat
    let w := if ty = 3 ∨ ty = 7 then 64 else if ty = 0 then 8 else if ty = 1 ∨ ty = 4 ∨ ty = 5 then 16 else 32
    single (fcode 0x32 ty (64 * f.fn.toNat + 8 * f.signed.toNat + f.rnd.toNat)) w
      (v f.cl f.x w :: if 4 ≤ ty then [fmtRd t] else []) (at_ f.cl f.d) none false
  | .vconf f => single (fcode 0x33 f.wc.toNat 0) 64 [v f.cl f.key (8 * 2 ^ f.wc.toNat)] (at_ f.cl f.d)
      (if f.kv then some f.k.toNat else none) false
  | .tld f => effAct .tileLoad [f.tr.toNat, t.shape f.tn.toNat] [t.reg (locS f.a.toNat) 64, t.reg (locS f.pitch.toNat) 32]
      [locT f.tn.toNat] (.flag e.flag0)
  | .tst f => effAct .tileStore [f.tr.toNat]
      [t.reg (locS f.a.toNat) 64, t.reg (locS f.pitch.toNat) 32, tileRd t f.tn] [] (.flag e.flag0)
  | .tzero tn => effAct .tileZero [t.shape tn.toNat] [] [locT tn.toNat] .now
  | .tfill tn r => effAct .tileFill [t.shape tn.toNat] [t.reg (locS r.toNat) 32] [locT tn.toNat] .now
  | .text f => effAct .tileExtract [] [tileRd t f.tn, v f.cl f.r 32, v f.cl f.c 32] [at_ f.cl f.d] (.fixed .cross)
  | .tins f => effAct .tileInsert [t.shape f.tn.toNat] [tileRd t f.tn, v f.cl f.d 32, v f.cl f.r 32, v f.cl f.c 32]
      [locT f.tn.toNat] .now
  | .tcopy d s => { Act.none with
      reads := [locT s.toNat],
      now := [(locT d.toNat, t.get (locT s.toNat)), (locShape d.toNat, t.get (locShape s.toNat))] }
  | .mmaf8s f => mmaAct t 0 0 f.sfmt.toNat f [f.ta, f.tb, f.tc, f.ts] true
  | .mmabf16 f => mmaAct t 1 0 0 f [f.ta, f.tb, f.tc] false
  | .mmaf16 f => mmaAct t 2 0 0 f [f.ta, f.tb, f.tc] false
  | .mmai8 f => mmaAct t 3 0 f.sfmt.toNat f [f.ta, f.tb, f.tc] false
  | .mmasp form k f =>
    mmaAct t form.toNat (16 * (k.toNat + 1)) f.sfmt.toNat f ([f.ta, f.tb, f.tm, f.tc] ++ if form == 0 then [f.ts] else [])
      (form == 0)

/-- A CV operation (R316): CVCTL is known, or no translation holds it. -/
def cvAct (e : SlotEnv) (t : TState) (i : CvOp) : Act :=
  let conv (scaled : Bool) (f : CvF) (c : Nat) : Act :=
    let ctl : BitVec 13 := BitVec.ofNat 13 c
    let l := locV f.cl.toNat f.a.toNat
    let w := (cvDst ctl).width
    let rs := t.reg l (cvSrc ctl).width :: (if scaled then [t.reg (l + 1) 32] else []) ++ [fmtRd t]
    let d := locV f.cl.toNat f.d.toNat
    if mayDraw (cvDst ctl) (cvRnd ctl) then
      effAct .draw [scaled.toNat, c, 0] rs (if w = 64 then [d, d + 1] else [d]) (.fixed .conv)
    else
      let (as, reads) := rdArgs rs
      { Act.none with
        reads, when := .fixed .conv,
        out := regOut e d w (Sym.app (fcode (if scaled then 0x62 else 0x61) 0 0 + c * 2 ^ 32) w as) }
  match i, t.get locCv with
  | .nop, _ => .none
  | .cvt f, .con c => conv false f c
  | .cvts f, .con c => conv true f c
  | .tcvt td ts, .con c =>
    let d := t.shape ts.toNat
    let d' := (elemOfTy (cvDst (BitVec.ofNat 13 c))).code * 2 ^ 26 + d % 2 ^ 26
    { effAct .tileCvt [c - 16 * (c / 16 % 16), d'] [tileRd t ts] [locT td.toNat] .now with
      now := [(locShape td.toNat, .con d')] }
  | _, _ => .wrong

/-! ## EN and BR slots -/

/-- Operands of a block from register `r` (R327). -/
def blockRd (t : TState) : (r : Nat) → List Bool → List Rd
  | _, [] => []
  | r, false :: ws => t.reg (locS r) 32 :: blockRd t (r + 1) ws
  | r, true :: ws => t.reg (locS (r + r % 2)) 64 :: blockRd t (r + r % 2 + 2) ws

/-- A number that a uniform register is known to hold. -/
def TState.num (t : TState) (r : Nat) : Option Nat :=
  match t.get (locS r) with
  | .con n => some n
  | _ => none

/-- The widths of the operands of an engine command under its MOD2 (R191). -/
def enWidths (op m : Nat) : List Bool :=
  if op ≤ 3 ∨ op = 9 then patWidths (bitsOf m 2 0) ++ patWidths (bitsOf m 5 3)
  else if op ≤ 5 then [true, true, false, true]
  else if op ≤ 7 then [true, true, true, true, true, false, true, false]
  else [true, false, true, false, true, false]

/-- An engine command; the spaces of the streams of an `isect` are those of the expected one. -/
def enAct (t : TState) (op : Nat) (f : EnF) (spaces : List Nat) : Act :=
  match t.num f.base.toNat with
  | some m =>
    if 2 ^ 16 ≤ m then .wrong
    else effAct .engine ([op, f.mod.toNat, m] ++ spaces) (blockRd t (f.base.toNat + 2) (enWidths op m)) [locS f.base.toNat]
      (.fixed .unif)
  | none => .wrong

def enOf : EnOp → Option (Nat × EnF)
  | .nop => none
  | .copyIn f => some (1, f) | .copyOut f => some (2, f) | .copyNear f => some (3, f) | .gather f => some (4, f)
  | .scatter f => some (5, f) | .csrRows f => some (6, f) | .bsrBlocks f => some (7, f) | .isect f => some (8, f)
  | .reduceFar f => some (9, f)

/-- The widths of the operands of the conditions of a block, by kind (R183, R333). -/
def kindWidths (k : Nat) : List Bool :=
  match k with
  | 1 | 2 => [true]
  | 3 => [false, false]
  | 5 => [true, false, true]
  | _ => [false]

/-- A condition block (R333). -/
def waitAct (t : TState) (base yields : Nat) : Act :=
  match t.num base with
  | some h =>
    match kindsOf (BitVec.ofNat 16 h) with
    | some ks =>
      if 2 ^ 17 ≤ h then .wrong
      else effAct .wait [h % 65536, if ks.length = 1 then 0 else h / 65536, yields]
        (t.reg (locS (base + 1)) 32 :: blockRd t (base + 2) (ks.flatMap kindWidths)) [locS base] .next
    | none => .wrong
  | none => .wrong

/-- The terms of a staging block, one class-V slot each (R334). -/
def stageRd (e : SlotEnv) (t : TState) : (off : Nat) → List Ty → List Rd
  | _, [] => []
  | off, ty :: ts =>
    if ty.width = 64 then
      (Sym.join (t.get (locSlot off)) (t.get (locSlot (off + 4 * e.width))), [locSlot off, locSlot (off + 4 * e.width)])
        :: stageRd e t (off + 8 * e.width) ts
    else ((t.get (locSlot off)).trim (max 1 ty.width), [locSlot off]) :: stageRd e t (off + 4 * e.width) ts

def tyWide (t : VTy) : Bool := decide (t.1.width = 64)

/-- A BR operation that is an effect; no captured value of a HERD stands in the helper frame (R276). -/
def brAct (e : SlotEnv) (t : TState) (i : BrOp) : Act :=
  match i with
  | .waitc b => waitAct t b.toNat 0
  | .yield b => waitAct t b.toNat 1
  | .spawn b =>
    match t.num b.toNat with
    | some fn => effAct .spawn [fn] (blockRd t (b.toNat + 2) ((paramsOf e.ws fn).map tyWide)) [locS b.toNat] .next
    | none => .wrong
  | .tpost b =>
    match t.num b.toNat, t.num (b.toNat + 1), t.num (b.toNat + 2) with
    | some fn, some off, some r =>
      effAct .post [fn, 0] (stageRd e t (8 * off) ((paramsOf e.ws fn).map (·.1))) [r % 512] .next
    | _, _, _ => .wrong
  | .herd b =>
    match t.num b.toNat, t.num (b.toNat + 1) with
    | some h, some rg =>
      let n := bitsOf h 19 16
      let red := bitsOf h 22 20
      let tys := ((paramsOf e.ws (helperEntry e.ws (bitsOf h 15 0)).1).drop 1).map (·.1)
      let cap (i : Nat) : Rd :=
        match t.num (b.toNat + 2 + i / 3) with
        | some w =>
          let l := bitsOf w (9 * (i % 3) + 8) (9 * (i % 3))
          if l < 8 then (.junk, []) else t.reg l (if wideTy (tys.getD i .i32) then 64 else 32)
        | none => (.junk, [])
      let a := effAct .herd [bitsOf h 15 0, n, red, if red = 0 then 0 else bitsOf h 25 23,
          if red = 2 ∨ red = 3 then bitsOf h 26 26 else 0, if red = 1 then bitsOf h 29 27 else 0]
        ([t.reg (bitsOf rg 8 0) 32, t.reg (bitsOf rg 17 9) 32, t.reg (bitsOf rg 26 18) 32] ++ (List.range n).map cap)
        [] .now
      { a with bad := decide (2 ^ 30 ≤ h ∨ 2 ^ 27 ≤ rg) }
    | _, _ => .wrong
  | .call => { effAct .call [] [] [] .now with now := (List.range 8).map fun n => (locV 0 n, .junk) }
  | .hjoin => effAct .hjoin [] [] [locV 0 0, locV 0 1, locV 0 2] .next
  | .trap brk code => effAct .stop [brk.toNat, code.toNat] [] [] .now
  | .loop r => { Act.none with reads := [locS r.toNat], now := [(locLc, t.get (locS r.toNat))] }
  | _ => .none

end Sys2Proof.Machine
end

