-- ==== Sys2Proof/Machine/Schedule.lean ====
section
/-! DEFINITION. Stage 5 and the mandatory part of stage 6 held against an image, block by block: the bundles of a block carry
out its list under R278, those of an edge its copy under R274, and regions, drain points and side-table entries stand as R280,
R281, R305, R306 and R339 say (13_translator.md R262 to R282; 14 R289 to R306). -/

namespace Sys2Proof.Machine

open Sys2Proof

/-! ## What an image is held against -/

structure Walk where
  ws : List Word
  img : List Word
  p : Plan
  tab : List (List VKey)
  width : Nat
  gale : Bool
  helper : Bool
  /-- blocks that branch per thread, with the block where their paths meet (R29, R331) -/
  meets : List (Nat × Nat)
  /-- the vector registers and predicates of the unit's values, its helper frame among them, and scratch -/
  placed : List Nat
  bodies : List Body
  deriving DecidableEq, Repr

/-- The values of a helper that it reads by the codes of captured values (R276, R308). -/
def Walk.captured (w : Walk) (k : VKey) : Bool :=
  w.helper && k.1 == 0 && decide (1 ≤ k.2 ∧ k.2 < (paramsOf w.ws (w.p.u.insts.headD 0)).length)

def Walk.caps (w : Walk) : List Sym :=
  if w.helper then ((List.range (paramsOf w.ws (w.p.u.insts.headD 0)).length).drop 1).map fun v => leafOf w.p.u (0, v)
  else []

def Walk.clause (w : Walk) (c : Nat) : Option Clause :=
  if c < 1 + imgCodeUnits w.img then (match decodeClause (imgUnit w.img c) with | .ok x => some x | .error _ => none)
  else none

def Walk.bundle (w : Walk) (off : Nat) : Option RawBundle :=
  match readBundle (imgUnit w.img off) with
  | .ok b => some b
  | .error _ => none

def Walk.locsOf (w : Walk) (k : VKey) (pl : VPlace) : List Nat :=
  match w.p.u.val k with
  | some x => pl.locs w.width x.size x.cls
  | none => []

/-- The contents of the registers of a value at a place; a predicate in memory is the mask of its threads (R273). -/
def valueParts (u : TUnit) (k : VKey) (pl : VPlace) (x : Sym) : List Sym :=
  match u.val k, pl with
  | some v, .slot _ =>
    if v.cls == .p then
      let m := Sym.app (fcode 0x50 0 0) 64 [x]
      [m.part false, m.part true]
    else if v.size = 2 then [x.part false, x.part true] else [x]
  | some v, _ => if v.size = 2 then [x.part false, x.part true] else [x]
  | none, _ => [x]

/-- Whether a value stands at a place. -/
def Walk.holds (w : Walk) (t : TState) (k : VKey) (pl : VPlace) (x : Sym) : Bool :=
  pl.locs w.width 1 .u == [] || (!x.bad && (w.locsOf k pl).map t.get == valueParts w.p.u k pl x)

/-! ## A block under way -/

/-- What is left of a block, and its region: locations read with what they held at its entry, locations written in it;
locations read since the last DBR; the item before which a drain point is due; whether a visible effect has just ended
the region; the pending reconvergence point; the clauses passed. -/
structure BSt where
  t : TState
  effs : List Ef
  all : List Ef
  once : List Sym
  spills : List (Bool × Nat)
  seen : List Nat
  own : List Nat
  look : List Nat
  due : Option Nat
  shut : Bool
  dset : Option Nat
  clauses : List Nat
  regionId : Nat
  deriving DecidableEq, Repr

/-- Puts results in flight or waited for; one that would land on a pending variable-latency result, or whose order of landing
is open, is none that a translation emits (R299). -/
def Walk.write (w : Walk) (t : TState) (beats : Nat × Nat) (when : When) (outs : List (Nat × Sym)) : Option TState :=
  outs.foldlM (fun t o =>
    match when with
    | .now => some (t.put o.1 o.2)
    | .flag f =>
      if f = 15 || (t.fly.any fun x => x.loc == o.1) || (t.late.any fun x => x.loc == o.1) then none
      else some { t.put o.1 .junk with late := t.late ++ [⟨o.1, o.2, f⟩] }
    | .fixed l =>
      let hi := (l.cycles w.gale + beats.1 - 1) / beats.1
      let lo := (l.cycles w.gale + beats.2 - 1) / beats.2
      if (t.late.any fun x => x.loc == o.1) || (t.fly.any fun x => x.loc == o.1 && x.lo != x.hi && decide (lo < x.hi)) then none
      else some { t with fly := t.fly ++ [⟨o.1, o.2, lo, hi⟩] }
    | .next =>
      if t.late.any fun x => x.loc == o.1 then none else some { t with fly := t.fly ++ [⟨o.1, o.2, 1, 1⟩] }) t

/-- Beats of a bundle, at least and at most: a helper runs at one, its recruiter at the group's (R223, R335). -/
def Walk.beats (w : Walk) : Nat × Nat :=
  let b := max 1 (w.width / 16)
  (if w.helper then 1 else b, b)

def Walk.scratchLocs (w : Walk) : List Nat :=
  [locV 0 (w.p.alloc.per - 2), locV 0 (w.p.alloc.per - 1), locK 7, locS 62, locS 63]

/-- The registers of the value that has a slot; the mask of a predicate is a pair (R273). -/
def Walk.slotSize (w : Walk) (off : Nat) : Option Nat :=
  (w.p.slots.find? fun s : VKey × Nat => s.2 == off).map fun s =>
    match w.p.u.val s.1 with
    | some x => if x.cls == .p then 2 else x.size
    | none => 1

/-- Carries out an operation: its effect is the next one expected, one that stands once per group is expected, a spill store
or fill is in the list, a fill into scratch (R272, R277, R278). -/
def Walk.act (w : Walk) (b : BSt) (a : Act) : Option BSt :=
  if a.bad then none
  else
    let once := match a.once with
      | none => some b.once
      | some x => if b.once.contains x && !x.bad then some (b.once.erase x) else none
    let spills := match a.spill with
      | none => some b.spills
      | some x => match w.slotSize x.2 with
        | some n =>
          let own := x.1 || a.out.all fun o => w.scratchLocs.contains o.1
          if a.reads.length == n && own && b.spills.contains x then some (b.spills.erase x) else none
        | none => some b.spills
    let eff := match a.eff with
      | none => some (b.effs, [], none)
      | some (kind, code, args) => match b.effs with
        | e :: rest => if e.kind == kind && e.code == code && e.args == args && !(args.any Sym.bad) then
            some (rest, e.res, some e) else none
        | [] => none
    match once, spills, eff with
    | some once, some spills, some (effs, res, done) =>
      let outs := a.out ++ (a.dest.zipIdx).map fun d => (d.1, res.getD d.2 .junk)
      let t := a.now.foldl (fun t o => t.put o.1 o.2) b.t
      (w.write t w.beats a.when outs).map fun t => { b with
        t, once, spills, effs,
        own := b.own ++ outs.map (·.1) ++ a.now.map (·.1),
        shut := b.shut || done.any Ef.visible,
        due := match done with
          | some e => if e.drainAfter && e.code.getD 2 0 != 1 && !((effs.head?).any fun x => x.item == e.item) then some (e.item + 1)
            else b.due
          | none => b.due }
    | _, _, _ => none

/-- The operations of a bundle in slot order (R299, R336). -/
def Walk.actsOf (w : Walk) (c : Clause) (b : RawBundle) (t : TState) (defs : List (Sym × Sym)) (effs : List Ef) : List Act :=
  let e : SlotEnv :=
    { ws := w.ws, img := w.img, p := w.p, width := w.width, gale := w.gale, beatsLo := w.beats.1, beatsHi := w.beats.2,
      flag0 := c.setf0, flag1 := c.setf1, caps := w.caps, defs, bc := (b.sreg.toNat, b.target) }
  let spaces := ((effs.find? fun x => x.kind == .engine).map fun x => x.code.drop 3).getD []
  [usAct e t b.us, vaAct e t 1 b.va0, vaAct e t 2 b.va1, vmAct e t b.vm, cvAct e t b.cv,
   (match enOf b.en with | some (op, f) => enAct t op f spaces | none => .none), brAct e t b.br]

/-! ## Side-table entries (R281, R305, R306, R339) -/

/-- The inlined instances of an entry's frames, its own first, with the word offset in each. -/
def entryFrames (img : List Word) (u : TUnit) : (fuel : Nat) → SideEnt → Option (List (Nat × Nat))
  | 0, _ => none
  | n + 1, e =>
    if e.caller = 0xFFFFF then if u.insts.head? = some e.ppc.1 then some [(0, e.ppc.2)] else none
    else if imgSideCount img ≤ e.caller then none
    else
      let c := sideEnt img e.caller
      match entryFrames img u n c with
      | some (p :: ps) =>
        match u.items.find? fun it => it.inst == p.1 && it.off == c.ppc.2 && it.child != 0 with
        | some it => if u.insts[it.child]? = some e.ppc.1 then some ((it.child, e.ppc.2) :: p :: ps) else none
        | none => none
      | _ => none

/-- The inlined instances of an entry's frames, its own first. -/
def entryChain (img : List Word) (u : TUnit) (e : SideEnt) : List Nat :=
  ((entryFrames img u (imgSideCount img + 1) e).getD []).map (·.1)

/-- The item at which an entry stands. -/
def Walk.itemOf (w : Walk) (e : SideEnt) : Option (Nat × List (Nat × Nat)) :=
  match entryFrames w.img w.p.u (imgSideCount w.img + 1) e with
  | some ((inst, off) :: rest) =>
    ((w.p.u.items.zipIdx).find? fun q => q.1.inst == inst && q.1.off == off && !(q.1.marker && q.1.blk.isNone)).map fun q =>
      (q.2, (inst, off) :: rest)
  | _ => none

/-- What is live at an item: after a marker, before an instruction. -/
def TUnit.liveAt (u : TUnit) (tab : List (List VKey)) (k : Nat) : List VKey :=
  match u.items[k]? with
  | none => []
  | some it =>
    let rest := (u.items.zipIdx).filter fun p => p.1.node == it.node
      && decide (if it.marker then k < p.2 else k ≤ p.2)
    rest.reverse.foldl (fun l p => p.1.liveIn l) (u.liveOut tab it.node)

/-- The values whose definitions dominate a word offset of a frame, in ascending number (R306). -/
def Body.dominating (b : Body) (off : Nat) (after : Bool) : List Nat :=
  match (b.items.zipIdx).find? fun q => q.1.off == off with
  | none => []
  | some (it, q) =>
    (b.items.zipIdx).flatMap fun d =>
      if (b.before d.2 q && d.2 != q) || (d.2 == q && (it.blk.isSome || after)) then d.1.defs else []

/-- The bits that a location descriptor leaves zero (R306). -/
def payOk (kind pay : Nat) : Bool :=
  match kind with
  | 0 | 7 => pay == 0
  | 1 => pay / 2 ^ 7 % 16 == 0
  | 2 => pay / 2 ^ 6 % 64 == 0
  | 5 => decide (pay < 16)
  | 6 => decide (pay < 256)
  | _ => true

/-- An entry's pool items as a list of (frame, value), and their reserved bits. -/
def Walk.itemsOk (w : Walk) (e : SideEnt) : Bool :=
  (imgLiveOff w.img + 8 * (e.live + e.nlive) ≤ imgConstOff w.img || e.nlive == 0)
    && (List.range e.nlive).all (fun i => objBytes w.img 8 (imgLiveOff w.img + 8 * (e.live + i)) / 2 ^ 48 == 0)
    && (liveItems w.img e).all (fun it => payOk it.kind it.pay && (it.kind != 7 || e.kind / 8 % 2 == 1))
    && (match w.itemOf e with
        | none => false
        | some (_, fs) =>
          (liveItems w.img e).map (fun it => (it.frame, it.value))
            == (fs.zipIdx).flatMap fun f =>
              ((w.bodies[f.1.1]?).map fun b => (b.dominating f.1.2 false).map fun v => (f.2, v)).getD [])

/-- Whether an entry at item `q` names every live value at its location, where the value stands, and no other value as
live; at a block's first bundle an argument in memory stands in scratch (R339). -/
def Walk.entryHeld (w : Walk) (e : SideEnt) (q : Nat) (fs : List (Nat × Nat)) (blk : Blk) (t : TState) (start : Option Nat) :
    Bool :=
  let live := (w.p.u.liveAt w.tab q).filter fun k => !w.captured k
  let items := liveItems w.img e
  live.all (fun k =>
    match (match start with | some n => w.p.startPlace n k | none => w.p.place k) with
    | none => (w.p.u.val k).isNone
    | some pl =>
      let (kind, pay) := pl.desc
      w.holds t k pl (blk.term k)
        && items.any fun it => (fs[it.frame]?).map (·.1) == some k.1 && it.value == k.2 && it.kind == kind
          && (match pl with
              | .konst x => low (max 1 (((w.p.u.val k).map fun v => v.ty.1.width).getD 64)) (imgConst w.img it.pay) == x
              | _ => pay == some it.pay))
  && items.all fun it => it.kind == 0 || (match fs[it.frame]? with
      | some f => (w.p.u.liveAt w.tab q).contains (f.1, it.value)
      | none => false)

/-- Whether a bundle can trap: surely, or in some runs of it (R305). -/
def Act.mustTrap (a : Act) : Bool :=
  match a.eff with
  | some (k, code, _) => match k with
    | .load | .store | .ldConst | .atom | .fe | .engine | .post | .setfmt | .tokTest | .stop | .tileLoad | .tileStore => true
    | .wait => (kindsOf (BitVec.ofNat 16 (code.headD 0))).any fun ks => ks.any fun x => x != 3 && x != 4
    | _ => false
  | .none => false

def Act.mayTrap (a : Act) : Bool := a.eff.isSome

def brTraps : BrOp → Bool
  | .ubr _ _ => true
  | _ => false

def brMayTrap : BrOp → Bool
  | .ubr _ _ | .dbr _ _ | .exit | .ret | .hjoin | .herd _ | .spawn _ => true
  | _ => false

/-! ## Bundles -/

def Walk.sole (w : Walk) (n : Nat) : Bool := (w.p.u.into n).length == 1

/-- The blocks that paths from `from_` reach before `dst`. -/
def Walk.region (w : Walk) (dst : Nat) (from_ : List Nat) : List Nat :=
  let u := w.p.u
  reachSet (fun x => (u.succ x).filter (· != dst)) (u.edges.length * 2 + u.nodes + 2) (from_.filter (· != dst)) []

def switches (it : UItem) : Bool := match it.ins with | some (.switch _) => true | _ => false

/-- Whether a block lies between a `switch` and where its paths meet: it writes no register that the later dispatch steps of
the `switch` may hold a block position in (R331). -/
def Walk.guarded (w : Walk) (n : Nat) : Bool :=
  w.meets.any fun m => m.1 != n && (w.p.u.items.any fun it => it.node == m.1 && switches it)
    && (w.region m.2 (w.p.u.succ m.1)).contains n

/-- One bundle of a block or of an edge's own block: the drain point and the entry that stand there, its reads and writes
against its region, and its operations. `term` is the item of the block's terminator, where it stands after the others. -/
def Walk.step (w : Walk) (n : Nat) (blk : Blk) (term : Nat) (edge : Bool) (start : Bool) (c : Nat) (cl : Clause) (i : Nat) (b : BSt) :
    Option (BSt × RawBundle) :=
  match w.bundle (c + 1 + i) with
  | none => none
  | some bu =>
    let t := b.t.tick
    let t := if i = 0 then t.await cl.waitMask else t
    let opens := i == 0 && cl.regionEntry
    let b := if opens then { b with seen := [], own := [], shut := false, regionId := cl.regionId } else b
    let acts := w.actsOf cl bu t blk.defs b.effs
    let ent := entryAt w.img (c + 1 + i)
    let must := acts.any Act.mustTrap || brTraps bu.br
    let may := acts.any Act.mayTrap || brMayTrap bu.br
    let bits : Bool := match ent with
      | none => !bu.drain && !must && b.due.isNone
      | some e =>
        match w.itemOf e with
        | none => false
        | some (q, fs) =>
          let left := b.effs.length
          (e.kind % 2 == 1) == bu.drain && (!must || e.kind / 2 % 2 == 1) && (may || e.kind / 2 % 2 == 0)
            && e.kind / 8 % 2 == 0
            && (e.kind / 4 % 2 == 1) == ((w.p.u.items[q]?).any fun it => it.child != 0)
            && ((w.p.u.items[q]?).map (·.node)) == some n
            && b.effs.all (fun x => decide (q ≤ x.item)) && (b.all.filter fun x => decide (q ≤ x.item)).length == left
            && (!edge || q == term)
            && (e.kind / 2 % 2 == 0 || !(acts.any fun a => a.eff.isSome) || (b.effs.head?).any fun x => x.item == q)
            && (match b.due with | some d => bu.drain && q == d | none => true)
            && w.entryHeld e q fs blk (if bu.drain then t else t.settled) (if start then some n else none)
    let reads := acts.flatMap (·.reads)
    let seen := b.seen ++ reads.filter fun l => !b.own.contains l
    let wrote := acts.flatMap fun a => a.out.map (·.1) ++ a.dest ++ a.now.map (·.1)
    if cl.loopId != 0 || !bits || (bu.drain && !t.fly.isEmpty) || b.shut || (!opens && cl.regionId != b.regionId)
        || (!opens && wrote.any fun l => seen.contains l)
        || bu.stage != 0 || bu.iterBoundary || (bu.marker != (match bu.us with | .umark _ => true | _ => false))
        || (wrote.any fun l => (decide (l < 512) || (decide (576 ≤ l) && decide (l < 584))) && !w.placed.contains l
            && w.guarded n)
        || (match bu.br with | .dset r => b.dset.any (· != r.toNat) | .dbr _ _ => b.dset.isNone | _ => false) then none
    else
      let t := if bu.drain then (t.put locCv .junk).put locLc .junk else t
      let b := { b with t, seen, look := b.look ++ reads, due := none }
      (acts.foldlM (fun b a => w.act b a) b).map fun b =>
        ({ b with clauses := if i = 0 then c :: b.clauses else b.clauses,
                  dset := match bu.br with | .dset r => some r.toNat | _ => b.dset }, bu)

/-- Whether a bundle holds an operation beside its branch. -/
def busyBundle (b : RawBundle) : Bool :=
  b.us != .tbfNop || b.va0 != .tbfNop || b.va1 != .tbfNop || b.vm != .nop || b.cv != .nop || b.en != .nop

/-- Where a clause that only goes on to another leads: no entry stands in it. -/
def Walk.passes (w : Walk) (c : Nat) : Option Nat :=
  match w.clause c with
  | none => none
  | some cl =>
    let offs := (List.range cl.bundles).map (c + 1 + ·)
    let bs := offs.filterMap w.bundle
    if cl.loopId != 0 || cl.sideIndex != 0xFFFFF || bs.length != cl.bundles || bs.any busyBundle
        || (bs.dropLast.any fun b => b.br != .nop) then none
    else match bs.getLast?.map fun b : RawBundle => b.br with
      | some (.jmp t) | some (.join t) | some (.joinp t) => some t.toNat
      | _ => none

/-! ## Edges (R274) -/

/-- Whether a block's start is met: every value live into it stands at its place, every argument where the copy leaves
it, and FMT is what the source leaves. -/
def Walk.arrives (w : Walk) (e : TEdge) (blk : Blk) (t : TState) : Bool :=
  let t := t.settled
  let live := (w.tab.getD e.dst []).filter fun k => !(e.args.any fun a => a.1 == k) && !w.captured k
  let want (k : VKey) : Nat := ((w.p.u.val k).map fun x => x.ty.1.width).getD 32
  live.all (fun k => match w.p.place k with | some pl => w.holds t k pl (blk.term k) | none => false)
    && e.args.all (fun a => match w.p.startPlace e.dst a.1 with
        | some pl => w.holds t a.1 pl (blk.opd a.2.1 (want a.1) a.2.2)
        | none => false)
    && t.get locFmt == .con blk.fmt

/-- A join that a path passes: its operand, and whether it is a JOINP. -/
abbrev Joined := Nat × Bool

/-- How the paths of a block leave it: the edge, the clause and bundle, the state, whether it is the path that runs last, the
joins that brought it there. -/
structure Leave where
  edge : TEdge
  c : Nat
  i : Nat
  b : BSt
  final : Bool
  joins : List Joined
  deriving DecidableEq, Repr

/-- Whether a way from a block that branches per thread to where its paths meet must end in a join (R331, R332). -/
def Walk.needsJoin (w : Walk) (src dst : Nat) : Bool :=
  w.meets.any fun m => m.2 == dst && (m.1 == src || (w.region dst ((w.p.u.succ m.1))).contains src)

/-- Whether clause `c` can be the start of an edge's target; `starts` are the starts known so far. -/
def Walk.isStart (w : Walk) (starts : List (Nat × Nat)) (e : TEdge) (blk : Blk) (b : BSt) (joins : List Joined) (c : Nat) :
    Bool :=
  (!joins.isEmpty || !w.needsJoin e.src e.dst) && match starts.find? fun s => s.1 == e.dst with
    | some s => s.2 == c && (w.sole e.dst || w.arrives e blk b.t)
    | none => w.sole e.dst || ((w.passes c).isNone && w.arrives e blk b.t)

/-- Follows an edge from a place to its target's start, through its own block where it has one: the start, what has been
carried out, the joins on the way, and whether the edge has a block of its own. -/
def Walk.follow (w : Walk) (starts : List (Nat × Nat)) (blk : Blk) (term : Nat) (e : TEdge) (own : Bool) :
    (fuel : Nat) → (c i : Nat) → (b : BSt) → (joins : List Joined) → (moved : Bool) → Option (Nat × BSt × List Joined × Bool)
  | 0, _, _, _, _, _ => none
  | f + 1, c, i, b, joins, moved =>
    if i = 0 && b.spills.isEmpty && b.due.isNone && w.isStart starts e blk b joins c then some (c, b, joins, moved)
    else match w.clause c with
      | none => none
      | some cl =>
        match w.step e.src blk term true false c cl i b with
        | none => none
        | some (b, bu) =>
          if busyBundle bu && (!own || (!moved && !(i == 0 && cl.regionEntry))) then none
          else
            let moved := moved || busyBundle bu
            match bu.br with
            | .jmp t => w.follow starts blk term e own f t.toNat 0 b joins moved
            | .join t => w.follow starts blk term e own f t.toNat 0 b ((t.toNat, false) :: joins) moved
            | .joinp t => w.follow starts blk term e own f t.toNat 0 b ((t.toNat, true) :: joins) moved
            | .nop => if i + 1 < cl.bundles then w.follow starts blk term e own f c (i + 1) b joins moved
                else w.follow starts blk term e own f (c + 1 + cl.bundles) 0 b joins moved
            | _ => none

/-! ## Blocks -/

/-- The predicate that decides a branch: itself, or its complement, which swaps the edges. -/
def decides (t : TState) (k : BitVec 3) (x : Sym) : Option Bool :=
  let y := t.get (locK k.toNat)
  if x.bad then none else if y == x then some true
  else if y == Sym.app (fcode 0x4E 0 3) 1 [x] then some false else none

/-- What is left to carry out on an edge. -/
def Walk.onEdge (w : Walk) (e : TEdge) (b : BSt) : BSt :=
  { b with effs := [], once := [], spills := spillsOf (w.p.edgeList e) }

/-- Whether bundles beside a branch may stand on an edge: in its own block, or where a `yield` leaves its result. -/
def Walk.ownBlock (w : Walk) (e : TEdge) (q : Option UItem) : Bool :=
  w.p.hasEdgeBlock e || (match q.bind (·.ins) with | some (.yield _) => true | _ => false)

/-- A number that a term is, where it compares `x` for equality with numbers and selects: with `v` for `x`. -/
def Sym.pick (defs : List (Sym × Sym)) (x : Sym) (v : Nat) : (fuel : Nat) → Sym → Option Nat
  | 0, _ => none
  | f + 1, t =>
    if t = x then some v
    else match t with
      | .con n => some n
      | .leaf _ _ _ => ((defs.find? fun d => d.2 == t).map (·.1)).bind (Sym.pick defs x v f)
      | .op code _ a b c =>
        match code / 2 ^ 16, Sym.pick defs x v f a, Sym.pick defs x v f b, Sym.pick defs x v f c with
        | 0x12, some p, some q, _ => if code % 16 = 0 then some (p == q).toNat else if code % 16 = 1 then some (p != q).toNat
            else none
        | 0x13, some k, some p, some q => some (if k = 0 then q else p)
        | 0x4E, some p, some q, _ => match code % 4 with
          | 0 => some (p * q)
          | 1 => some (max p q)
          | 2 => some (p != q).toNat
          | _ => some (1 - p)
        | _, _, _, _ => none
      | _ => none

def Sym.numbers : Sym → List Nat
  | .con n => [n]
  | .half _ x => x.numbers
  | .low _ x => x.numbers
  | .pair a b => a.numbers ++ b.numbers
  | .op _ _ a b c => a.numbers ++ b.numbers ++ c.numbers
  | _ => []

/-- The blocks of a `switch` in the order in which they run, with the case values that go to each; a block that only the
default reaches is last (R205). -/
def switchBlocks (o : SwitchOp) : List (Nat × List Nat) :=
  let sorted := sortBy (fun a b : BitVec 30 × Target => decide (a.1.toInt ≤ b.1.toInt)) o.cases
  let ns := (sorted.map fun c => c.2.blk.toNat).eraseDups
  let all := if ns.contains o.dflt.blk.toNat then ns else ns ++ [o.dflt.blk.toNat]
  all.map fun n => (n, (o.cases.filter fun c => c.2.blk.toNat == n).map fun c => (c.1.signExtend 32).toNat)

/-- Whether the predicate of a dispatch step is true for just the threads of the `n`th block: for every case value, every
number that it compares with, and one other, which stands for all others. -/
def picks (blk : Blk) (o : SwitchOp) (x : Sym) (n : Nat) (k : Sym) : Bool :=
  let blocks := switchBlocks o
  let known := blocks.flatMap (·.2) ++ k.numbers ++ (blk.defs.flatMap fun d => d.1.numbers)
  let other := ((List.range (known.length + 1)).find? fun v => !known.contains v).getD 0
  match blocks[n]? with
  | none => false
  | some (b, vs) => (other :: known).all fun v =>
      let here := vs.contains v || (b == o.dflt.blk.toNat && !(blocks.any fun q => q.2.contains v))
      Sym.pick blk.defs x v 64 k == some here.toNat

/-- The state of threads that wait at a deferred path: scratch and CVCTL may have changed, results have landed or not. -/
def Walk.deferred (w : Walk) (b : BSt) : BSt :=
  let t := (locCv :: locLc :: w.scratchLocs).foldl (fun t l => t.put l .junk) b.t
  { b with look := [], t := { t with fly := t.fly.map fun f => { f with lo := 0 } } }

/-- The edge to the `n`th block of a `switch`, where every position that names the block passes the same arguments. -/
def Walk.caseEdge (w : Walk) (q : UItem × Nat) (out : List TEdge) (o : SwitchOp) (n : Nat) : Option TEdge :=
  match (switchBlocks o)[n]? with
  | none => none
  | some (b, _) =>
    match (w.p.u.marker q.1.inst b).map (·.node) with
    | none => none
    | some d => match (out.filter fun e => e.dst == d).eraseDups with
      | [e] => some e
      | _ => none

/-- Where a block's paths leave it, from a bundle on; `chain` holds the paths that a `switch` has dispatched. -/
def Walk.blockRun (w : Walk) (starts : List (Nat × Nat)) (n : Nat) (blk : Blk) (q : UItem × Nat) :
    (fuel : Nat) → (c i : Nat) → (b : BSt) → (chain : List Leave) → Option (List Leave × BSt)
  | 0, _, _, _, _ => none
  | f + 1, c, i, b, chain =>
    let out := (w.p.u.outOf n).eraseDups
    let ended (b : BSt) : Bool := b.effs.isEmpty && b.once.isEmpty && b.spills.isEmpty && b.due.isNone
    let ways := match q.1.ins with
      | some (.switch o) => (switchBlocks o).length
      | _ => 1
    let single : Option TEdge := match q.1.ins, out with
      | some (.br _), [e] | some (.call _), [e] | some (.ret _), [e] => some e
      | some (.switch o), _ => if chain.length + 1 = ways ∧ ways ≤ 2 then w.caseEdge q out o chain.length else none
      | _, _ => none
    let inside : Bool := match entryAt w.img (c + 1) with
      | some e => (w.itemOf e).any fun x => ((w.p.u.items[x.1]?).map (·.node)) == some n
      | none => false
    let spent : Bool := 2 < ways && chain.length == ways && (w.passes c).isSome
      && (w.clause c).any fun cl => (w.bundle (c + cl.bundles)).any fun x => match x.br with
        | .joinp t => b.dset == some t.toNat
        | _ => false
    let last : Option TEdge :=
      if i = 0 && ended b && !b.clauses.isEmpty && !inside then single.filter fun e => w.isStart starts e blk b [] c else none
    match last with
    | some e => some (chain ++ [⟨e, c, 0, b, true, []⟩], b)
    | none =>
      if spent then some (chain, b)
      else match w.clause c with
      | none => none
      | some cl =>
        match w.step n blk q.2 false (b.clauses.isEmpty && i == 0) c cl i b with
        | none => none
        | some (b, bu) =>
          let (nc, ni) := if i + 1 < cl.bundles then (c, i + 1) else (c + 1 + cl.bundles, 0)
          let away (t : BitVec 15) (joins : List Joined) : Option (List Leave × BSt) :=
            if ended b then single.map fun e => (chain ++ [⟨e, t.toNat, 0, b, true, joins⟩], b) else none
          let two (yes no : Nat × Nat) (per : Bool) (how : Option Bool) : Option (List Leave × BSt) :=
            match w.p.u.outOf n, how with
            | [e0, e1], some h =>
              let (ey, en) := if h then (e0, e1) else (e1, e0)
              if ended b then some ([⟨ey, yes.1, yes.2, b, false, []⟩,
                ⟨en, no.1, no.2, if per then w.deferred b else b, true, []⟩], b) else none
            | _, _ => none
          match bu.br, q.1.ins with
          | .jmp t, _ => away t []
          | .join t, _ => away t [(t.toNat, false)]
          | .joinp t, _ => away t [(t.toNat, true)]
          | .ubr k t, some (.brU o) => two (t.toNat, 0) (nc, ni) false (decides b.t k (blk.opd q.1.inst 1 o.c))
          | .dbr k t, some (.brc o) => two (nc, ni) (t.toNat, 0) true (decides b.t k (blk.opd q.1.inst 1 o.c))
          | .dbr k t, some (.switch o) =>
            match w.caseEdge q out o chain.length with
            | some e =>
              if ended b && (chain.isEmpty || b.look.all fun l => !w.placed.contains l) && picks blk o (blk.opd q.1.inst 32 o.v) chain.length (b.t.get (locK k.toNat)) then
                w.blockRun starts n blk q f t.toNat 0 (w.deferred b)
                  (chain ++ [⟨e, nc, ni, b, chain.length + 1 == ways, []⟩])
              else none
            | none => none
          | .exit, some .exit => if ended b then some ([], b) else none
          | .ret, some (.ret os) =>
            let ok := match os with
              | [] => true
              | o :: _ =>
                let x := blk.opd q.1.inst 64 o
                !x.bad && (x.regs.zipIdx).all fun p => b.t.get (locV 0 p.2) == p.1
            if ended b && w.helper && out.isEmpty && ok then some ([], b) else none
          | .yield _, some (.yield _) =>
            match out with
            | [e] => if ended b && ni == 0 then some ([⟨e, nc, 0, b, true, []⟩], b) else none
            | _ => none
          | .nop, _ | .loop _, _ | .dset _, _ | .waitc _, _ | .spawn _, _ | .tpost _, _ | .herd _, _ | .call, _ | .hjoin, _ =>
            w.blockRun starts n blk q f nc ni b chain
          | .trap _ _, _ => w.blockRun starts n blk q f (c + 1 + cl.bundles) 0 b chain
          | _, _ => none

end Sys2Proof.Machine
end

