-- ==== Sys2Proof/Machine/Pipelined.lean ====
section
/-! DEFINITION. Software-pipelined loops of an image (13_translator.md R279; 14 R304): several iterations of the loop's block are
under way at once, so the bundles are carried out against the block repeated, and what stands at an iteration boundary is put
relative to the newest iteration and must come back there one iteration later. -/

namespace Sys2Proof.Machine

open Sys2Proof

/-! ## Which loops (R279) -/

def loopBars : Instr → Bool
  | .call _ | .waitAny _ | .waitAll _ | .barArrive _ _ | .barWait _ _ | .barSync _ | .mwait _ | .yield _
  | .herd _ | .herdAdd _ | .herdMin _ | .herdMax _ | .herdOr _ | .spawn _ | .taskpost _
  | .atomAdd _ | .atomMinS _ | .atomMinU _ | .atomMaxS _ | .atomMaxU _ | .atomAnd _ | .atomOr _ | .atomXor _ | .atomSwap _
  | .atomCas _ | .atomFadd _ | .feLd _ | .feSt _ | .feTryld _ | .feTryst _ | .fePeek _
  | .copyIn _ | .copyOut _ | .copyNear _ | .gather _ | .scatter _ | .csrRows _ | .bsrBlocks _ | .isect _ | .reduceFar _
  | .tokTest _ _ | .mmaF8s _ | .mmaBf16 _ | .mmaF16 _ | .mmaI8 _ | .mmaSp _ | .mfence | .trap _ | .brk _ => true
  | _ => false

/-- Whether a loop is eligible for modulo scheduling: one block whose terminator targets itself, with no operation that
R279 bars. -/
def TUnit.eligible (u : TUnit) (n : Nat) : Bool :=
  (u.outOf n).any (fun e => e.dst == n)
    && (u.items.filter fun it => it.node == n).all fun it => !(it.ins.any loopBars)

/-! ## The block repeated -/

/-- A term with its values renamed. -/
def Sym.rename (f : VKey → VKey) : Sym → Sym
  | .leaf k w u => .leaf (f k) w u
  | .half h x => .half h (x.rename f)
  | .low w x => .low w (x.rename f)
  | .pair a b => .pair (a.rename f) (b.rename f)
  | .op code w a b c => .op code w (a.rename f) (b.rename f) (c.rename f)
  | x => x

def TState.map (g : Nat → Sym → Sym) (t : TState) : TState :=
  { regs := t.regs.map fun r => (r.1, g r.1 r.2), fly := t.fly.map fun f => { f with val := g f.loc f.val },
    late := t.late.map fun l => { l with val := g l.loc l.val } }

/-- The name of a value of the block in one of its iterations. -/
def iterKey (own : List VKey) (j : Nat) (k : VKey) : VKey := if own.contains k then (k.1 + 2 ^ 32 * (j + 1), k.2) else k

/-- Whether a term is one of an iteration. -/
def Sym.ofIter : Sym → Bool
  | .leaf k _ _ => decide (2 ^ 32 ≤ k.1)
  | .half _ x => x.ofIter
  | .low _ x => x.ofIter
  | .pair a b => a.ofIter || b.ofIter
  | .op _ _ a b c => a.ofIter || b.ofIter || c.ofIter
  | _ => false

/-- A block in iteration `j`: its values and effects under the names of that iteration. -/
def Blk.inIter (own : List VKey) (j : Nat) (b : Blk) : Blk :=
  let f := Sym.rename (iterKey own j)
  { b with
    env := b.env.map (fun e => (e.1, f e.2)), defs := b.defs.map (fun d => (f d.1, f d.2)), once := b.once.map f,
    effs := b.effs.map fun e => { e with args := e.args.map f, res := e.res.map f, item := e.item + 2 ^ 32 * j } }

/-- What an edge passes to its target's arguments. -/
def Walk.passed (w : Walk) (blk : Blk) (e : TEdge) : List (VKey × Sym) :=
  e.args.map fun a => (a.1, blk.opd a.2.1 (((w.p.u.val a.1).map fun x => x.ty.1.width).getD 32) a.2.2)

/-- The iterations of a loop from the terms that the first one starts with; each passes its successor's arguments on, and a
function has one name in all of them. -/
def Walk.iterate (w : Walk) (n : Nat) (self : TEdge) (own : List VKey) :
    (count j : Nat) → (env : List (VKey × Sym)) → (defs : List (Sym × Sym)) → List Blk
  | 0, _, _, _ => []
  | m + 1, j, env, defs =>
    let blk := (w.p.u.blockFrom w.ws n env defs).inIter own j
    let next := w.passed blk self ++ (startEnv w.p.u).filter fun e => !own.contains e.1
    blk :: w.iterate n self own m (j + 1) next blk.defs

/-- Iterations looked at, and the one that is the newest at a boundary: at most eight stages are under way. -/
def pipeSpan : Nat := 20
def pipeBase : Nat := 9

/-- A loop: its block and edges, its clauses' identifier, the values of the block, those that live through it or enter it, and
its iterations. -/
structure Pipe where
  n : Nat
  id : Nat
  self : TEdge
  away : TEdge
  own : List VKey
  thru : List VKey
  blks : List Blk
  defs : List (Sym × Sym)
  deriving DecidableEq, Repr

def Walk.pipe (w : Walk) (n id : Nat) (self away : TEdge) (env : List (VKey × Sym)) : Pipe :=
  let own := (w.p.u.items.filter fun it => it.node == n).flatMap (·.defs)
  let blks := w.iterate n self own pipeSpan 0 env []
  { n, id, self, away, own, thru := w.tab.getD n [], blks, defs := ((blks.getLast?).map (·.defs)).getD [] }

def Pipe.term (p : Pipe) (j : Nat) (k : VKey) : Sym := ((p.blks[j]?).map fun b => b.term k).getD .junk

/-- Whether the branch of an iteration goes on with the next one, as a term and the value that it then has. -/
def Walk.goesOn (w : Walk) (p : Pipe) (j : Nat) : Sym × Bool :=
  match p.blks[j]?, (w.p.u.items.filter fun it => it.node == p.n).getLast? with
  | some b, some it => match it.ins with
    | some (.brU o) => (b.opd it.inst 1 o.c, (w.p.u.outOf p.n).head? == some p.self)
    | _ => (.junk, false)
  | _, _ => (.junk, false)

/-! ## What stands at a boundary -/

/-- A term as one of the registers that hold it: whole, its halves, or the halves of a predicate's mask. -/
def Sym.piece (i : Nat) (x : Sym) : Sym :=
  match i with
  | 0 => x
  | 1 => x.part false
  | 2 => x.part true
  | i => (Sym.app (fcode 0x50 0 0) 64 [x]).part (i == 4)

/-- What a register holds whatever the iteration: a term, or a piece of a value as it stands `back` iterations before the
newest. -/
inductive Stays where
  | same (x : Sym)
  | iter (k : VKey) (piece : Nat) (back : Int)
  deriving DecidableEq, Repr

/-- The term that a register holds when iteration `d` is the newest. -/
def Pipe.symOf (p : Pipe) (d : Nat) : Stays → Sym
  | .same x => x
  | .iter k i back =>
    let j : Int := d - back
    if j < 0 then .junk else (p.term j.toNat k).piece i

/-- The values to which a location may belong: those placed there first. -/
def Walk.ownersOf (w : Walk) (p : Pipe) (l : Nat) : List VKey :=
  let all := p.own ++ p.thru
  let at_ := all.filter fun k => (w.p.place k).any fun pl => (w.locsOf k pl).contains l
  at_ ++ all.filter fun k => !at_.contains k

/-- The pieces of a value that registers hold. -/
def Walk.piecesOf (w : Walk) (k : VKey) : List Nat :=
  match w.p.u.val k with
  | some x => if x.cls == .p then [0, 3, 4] else if x.size = 2 then [1, 2] else [0]
  | none => [0]

/-- What a term at location `l` is, relative to iteration `d`, the newest. -/
def Walk.relOf (w : Walk) (p : Pipe) (d l : Nat) (x : Sym) : Option Stays :=
  let js := (List.range (d + 1)).reverse ++ (List.range (pipeSpan - d - 1)).map (d + 1 + ·)
  let found := (w.ownersOf p l).findSome? fun k =>
    if p.thru.contains k && !p.own.contains k then
      ((w.piecesOf k).find? fun i => (p.term d k).piece i == x).map fun i => Stays.iter k i 0
    else js.findSome? fun j =>
      ((w.piecesOf k).find? fun i => (p.term j k).piece i == x).map fun i => Stays.iter k i (d - j)
  if x.bad then none else if found.isSome then found else if x.ofIter then none else some (.same x)

/-- A sum modulo 2^32 of terms with factors; a number is a multiple of 1. -/
abbrev Lin := List (Sym × Int)

def Lin.neg (x : Lin) : Lin := x.map fun t => (t.1, -t.2)

def Lin.isZero (x : Lin) : Bool :=
  ((x.map (·.1)).eraseDups).all fun a => ((x.filter fun t => t.1 == a).foldl (fun s t => s + t.2) 0) % 2 ^ 32 == 0

/-- A 32-bit term as a sum, through the names of its functions and the sums outside the loop. -/
def Sym.lin (u : TUnit) (defs : List (Sym × Sym)) : (fuel : Nat) → Sym → Lin
  | 0, x => [(x, 1)]
  | f + 1, x =>
    match x with
    | .con n => [(.con 1, n)]
    | .leaf k _ _ =>
      match defs.find? fun d => d.2 == x with
      | some d => Sym.lin u defs f d.1
      | none =>
        let opd (o : Opd) : Sym := match o with
          | .val n => startTerm u (k.1, n.toNat)
          | o => .con (Opd.bits 32 o)
        match u.maker k with
        | some (.add o) => if o.ty == .i32 then Sym.lin u defs f (opd o.a) ++ Sym.lin u defs f (opd o.b) else [(x, 1)]
        | some (.sub o) => if o.ty == .i32 then Sym.lin u defs f (opd o.a) ++ Lin.neg (Sym.lin u defs f (opd o.b)) else [(x, 1)]
        | _ => [(x, 1)]
    | .op code w a b _ =>
      if w ≠ 32 then [(x, 1)]
      else if code = fcode 0x01 2 0 then Sym.lin u defs f a ++ Sym.lin u defs f b
      else if code = fcode 0x01 2 1 then Sym.lin u defs f a ++ Lin.neg (Sym.lin u defs f b)
      else if code = fcode 0x0B 2 4 then Lin.neg (Sym.lin u defs f a)
      else [(x, 1)]
    | _ => [(x, 1)]

/-- The difference that a 32-bit comparison asks to be other than zero, and whether it asks for the opposite. -/
def Sym.differs (u : TUnit) (defs : List (Sym × Sym)) : (fuel : Nat) → Sym → Option (Lin × Bool)
  | 0, _ => none
  | f + 1, x =>
    match x with
    | .leaf _ _ _ => ((defs.find? fun d => d.2 == x).map (·.1)).bind (Sym.differs u defs f)
    | .op code _ a b _ =>
      if code / 2 ^ 12 = 0x122 ∧ code % 8 ≤ 1 then
        some (Sym.lin u defs 64 a ++ Lin.neg (Sym.lin u defs 64 b), code % 8 == 0)
      else if code / 2 ^ 16 = 0x4E ∧ code % 4 = 3 then (Sym.differs u defs f a).map fun r => (r.1, !r.2)
      else none
    | _ => none

/-- What the loop counter must be when iteration `d` is the newest: one more than the difference that is other than zero when
the loop goes on, with its sign (R304, R328). -/
def Walk.counts (w : Walk) (p : Pipe) (d : Nat) (neg : Bool) : Option Lin :=
  let (x, on) := w.goesOn p d
  match Sym.differs w.p.u p.defs 8 x with
  | some (l, eq) => if eq == on then none else some ((.con 1, 1) :: if neg then Lin.neg l else l)
  | none => none

/-- A loop under way: what is left to carry out, the newest iteration, whether that is the last, and the loop counter. -/
structure PipeSt where
  b : BSt
  d : Nat
  out : Bool
  lc : Option Lin
  deriving DecidableEq, Repr

/-- Whether the loop counter is as it must be, and with which sign. -/
def Walk.counting (w : Walk) (p : Pipe) (s : PipeSt) : Option Bool :=
  match s.lc with
  | none => none
  | some l => [false, true].find? fun neg => (w.counts p s.d neg).any fun m => Lin.isZero (l ++ Lin.neg m)

/-- What stands at a boundary in every iteration: registers, results in flight with their bundles to landing, results waited
for with their flags, the effects, the operations that stand once per group and the spills still to come, and the sign of the
loop counter. -/
structure PipeInv where
  c : Nat
  i : Nat
  regs : List (Nat × Stays)
  fly : List (Nat × Option Stays × Nat × Nat)
  late : List (Nat × Option Stays × Nat)
  left : Nat
  once : List (Nat × Int)
  spills : List (Bool × Nat)
  lc : Option Bool
  deriving DecidableEq, Repr

def PipeInv.owed (v : PipeInv) : List Nat := v.fly.map (·.1) ++ v.late.map (·.1)

/-- An arrival at a boundary, relative to its newest iteration. -/
def Walk.arrival (w : Walk) (p : Pipe) (c i : Nat) (s : PipeSt) : Option PipeInv :=
  let t := s.b.t
  let once := s.b.once.mapM fun x => (List.range pipeSpan).findSome? fun (j : Nat) =>
    ((p.blks[j]?).bind fun b => b.once.idxOf? x).map fun q => (q, (s.d : Int) - j)
  let owed := t.fly.map (·.loc) ++ t.late.map (·.loc)
  if owed.eraseDups.length ≠ owed.length then none
  else once.map fun once =>
    { c, i, left := s.b.effs.length, once, spills := s.b.spills, lc := w.counting p s,
      regs := t.regs.filterMap (fun r => (w.relOf p s.d r.1 r.2).map fun x => (r.1, x)),
      fly := t.fly.map (fun f => (f.loc, w.relOf p s.d f.loc f.val, f.lo, f.hi)),
      late := t.late.map fun l => (l.loc, w.relOf p s.d l.loc l.val, l.flag) }

/-- What a register holds apart from results still to come. -/
def TState.raw (t : TState) (l : Nat) : Sym := ((t.regs.find? fun r => r.1 == l).map (·.2)).getD .junk

/-- What holds at a boundary both so far and at another arrival. -/
def Walk.meetAt (w : Walk) (p : Pipe) (v : PipeInv) (s : PipeSt) : Option PipeInv :=
  match w.arrival p v.c v.i s with
  | none => none
  | some a =>
    let t := s.b.t
    let keep (r : Option Stays) (x : Sym) : Option Stays := r.filter fun r => !x.bad && p.symOf s.d r == x
    let rel (l : Nat) : Option Stays := (v.regs.find? fun r => r.1 == l).map (·.2)
    let fly := v.fly.map fun f => match t.fly.find? fun g => g.loc == f.1 with
      | some g => (f.1, keep f.2.1 g.val, min f.2.2.1 g.lo, max f.2.2.2 g.hi)
      | none => (f.1, keep f.2.1 (t.raw f.1), 0, f.2.2.2)
    let late := v.late.map fun f => match t.late.find? fun g => g.loc == f.1 with
      | some g => (f.1, keep f.2.1 g.val, f.2.2)
      | none => (f.1, keep f.2.1 (t.raw f.1), f.2.2)
    let newFly := t.fly.filter fun g => !v.owed.contains g.loc
    let newLate := t.late.filter fun g => !v.owed.contains g.loc
    let mixed := (t.fly.any fun g => v.late.any fun f => f.1 == g.loc)
      || (t.late.any fun g => (v.fly.any fun f => f.1 == g.loc) || v.late.any fun f => f.1 == g.loc && f.2.2 != g.flag)
    if a.left ≠ v.left ∨ a.once ≠ v.once ∨ !a.spills.isPerm v.spills ∨ mixed then none
    else some { v with
      regs := v.regs.filter (fun r => (keep (some r.2) (t.raw r.1)).isSome),
      fly := fly ++ newFly.map (fun g => (g.loc, keep (rel g.loc) g.val, 0, g.hi)),
      late := late ++ newLate.map (fun g => (g.loc, keep (rel g.loc) g.val, g.flag)),
      lc := if v.lc == a.lc then v.lc else none }

/-- The loop under way at a boundary, with iteration `pipeBase` the newest. -/
def Walk.resumeAt (w : Walk) (p : Pipe) (v : PipeInv) : PipeSt :=
  let sym (r : Option Stays) : Sym := (r.map (p.symOf pipeBase)).getD .junk
  let effs := (p.blks.take (pipeBase + 1)).flatMap (·.effs)
  let once := v.once.filterMap fun o =>
    (p.blks[((pipeBase : Int) - o.2).toNat]?).bind fun b => b.once[o.1]?
  { d := pipeBase, out := false, lc := v.lc.bind (w.counts p pipeBase),
    b := { t := { regs := v.regs.map (fun r => (r.1, p.symOf pipeBase r.2)),
                  fly := v.fly.map (fun f => ⟨f.1, sym f.2.1, f.2.2.1, f.2.2.2⟩),
                  late := v.late.map (fun f => ⟨f.1, sym f.2.1, f.2.2⟩) },
           effs := effs.drop (effs.length - v.left), all := [], once, spills := v.spills, seen := [], own := [], look := [],
           due := none, shut := false, dset := none, clauses := [], regionId := 0 } }

/-! ## The bundles of a loop -/

/-- The side-table entry of a bundle of a loop: an iteration boundary's names the loop and its stages (R304, R305). -/
def Walk.pipeEntry (w : Walk) (p : Pipe) (cl : Clause) (off : Nat) (bu : RawBundle) (must may : Bool) : Bool :=
  match entryAt w.img off with
  | none => !must && !bu.iterBoundary
  | some e =>
    let it := (w.itemOf e).bind fun q => w.p.u.items[q.1]?
    e.kind % 2 == 0 && (!must || e.kind / 2 % 2 == 1) && (may || e.kind / 2 % 2 == 0) && e.kind / 4 % 2 == 0
      && (e.kind / 8 % 2 == 1) == bu.iterBoundary
      && it.any (fun q => q.node == p.n && (!bu.iterBoundary || q.marker))
      && (!bu.iterBoundary || (e.loopId == p.id && e.stages == cl.stagesM1))

/-- One bundle of a loop: its operations in turn, and the stage of what may trap (R304). -/
def Walk.pipeStep (w : Walk) (p : Pipe) (c i : Nat) (cl : Clause) (s : PipeSt) : Option (PipeSt × RawBundle) :=
  match w.bundle (c + 1 + i) with
  | none => none
  | some bu =>
    let t := s.b.t.tick
    let t := if i = 0 then t.await cl.waitMask else t
    let acts := w.actsOf cl bu t p.defs s.b.effs
    match acts.foldlM (fun b a => w.act b a) { s.b with t } with
    | none => none
    | some b =>
      let done := s.b.effs.take (s.b.effs.length - b.effs.length)
      let traps := acts.any Act.mustTrap
      let stage := done.all fun e => bu.stage + e.item / 2 ^ 32 == s.d
      let lc : Option Lin := match bu.br with
        | .loop r => if (t.get (locS r.toNat)).bad then none else some (Sym.lin w.p.u p.defs 64 (t.get (locS r.toNat)))
        | .lend _ => s.lc.map ((.con 1, -1) :: ·)
        | _ => s.lc
      if bu.drain || (bu.iterBoundary && !cl.loopKernel) || (bu.marker != (match bu.us with | .umark _ => true | _ => false))
          || (if cl.loopKernel && traps then !stage || decide (cl.stagesM1 < bu.stage) else bu.stage != 0)
          || !w.pipeEntry p cl (c + 1 + i) bu (traps || brTraps bu.br) (acts.any Act.mayTrap || brMayTrap bu.br) then none
      else some ({ s with lc, b := { b with clauses := if i = 0 then c :: b.clauses else b.clauses } }, bu)

/-- How a branch decides whether the newest iteration is followed by another: whether it is taken then. -/
def Walk.pipeDecides (w : Walk) (p : Pipe) (old s : PipeSt) (br : BrOp) : Option (Nat × Bool) :=
  let (x, on) := w.goesOn p s.d
  match br with
  | .ubr k t => (decides s.b.t k x).map fun h => (t.toNat, h == on)
  | .lend t => if (w.counting p old).isSome then some (t.toNat, true) else none
  | _ => none

/-- Where the bundles of a loop lead: arrivals at boundaries, and the clauses after the loop. -/
def Walk.pipeGo (w : Walk) (p : Pipe) : (fuel : Nat) → (c i : Nat) → (fresh : Bool) → PipeSt →
    Option (List (Nat × Nat × PipeSt) × List (Nat × PipeSt))
  | 0, _, _, _, _ => none
  | f + 1, c, i, fresh, s =>
    match w.clause c with
    | none => none
    | some cl =>
      if cl.loopId ≠ p.id then
        if i = 0 && s.out && s.b.effs.isEmpty && s.b.once.isEmpty && s.b.spills.isEmpty then some ([], [(c, s)]) else none
      else if !fresh && (w.bundle (c + 1 + i)).any (·.iterBoundary) then
        if s.out then none else some ([(c, i, s)], [])
      else match w.pipeStep p c i cl s with
        | none => none
        | some (s', bu) =>
          let (nc, ni) := if i + 1 < cl.bundles then (c, i + 1) else (c + 1 + cl.bundles, 0)
          match bu.br with
          | .nop | .loop _ => w.pipeGo p f nc ni false s'
          | .jmp t => w.pipeGo p f t.toNat 0 false s'
          | .ubr _ _ | .lend _ =>
            if s.out || decide (pipeSpan ≤ s.d + 2) then none
            else match w.pipeDecides p s s' bu.br, p.blks[s.d + 1]? with
              | some (t, taken), some next =>
                let more : PipeSt := { s' with
                  d := s.d + 1,
                  b := { s'.b with effs := s'.b.effs ++ next.effs, once := s'.b.once ++ next.once,
                                   spills := s'.b.spills ++ spillsOf (w.p.edgeList p.self) ++ spillsOf (w.p.nodeList p.n) } }
                let stop : PipeSt := { s' with out := true }
                match w.pipeGo p f t 0 false (if taken then more else stop), w.pipeGo p f nc ni false (if taken then stop else more) with
                | some (a, x), some (a', x') => some (a ++ a', x ++ x')
                | _, _ => none
              | _, _ => none
          | _ => none

/-- What is known of a loop: what holds at its boundaries, those to go through from, the ways out by where they began, each in
the terms of the block, and the clauses passed. -/
structure PipeTour where
  invs : List PipeInv
  todo : List (Nat × Nat)
  exits : List ((Nat × Nat) × Nat × TState)
  clauses : List Nat
  deriving DecidableEq, Repr

/-- A state at a way out in the terms of the block, of whose iterations `d` is the last. -/
def Walk.outward (w : Walk) (p : Pipe) (blk : Blk) (s : PipeSt) : TState :=
  s.b.t.map fun l x =>
    let own := (w.ownersOf p l).findSome? fun k =>
      ((w.piecesOf k).find? fun i => (p.term s.d k).piece i == x).map fun i => (blk.term k).piece i
    if x.bad then .junk else match own with
      | some y => y
      | none => if x.ofIter then .junk else x

/-- The results of going through from a place: each arrival at a boundary must agree with what holds there. -/
def Walk.pipeJoin (w : Walk) (p : Pipe) (blk : Blk) (src : Nat × Nat) (steady : Bool)
    (res : List (Nat × Nat × PipeSt) × List (Nat × PipeSt)) (r : PipeTour) : Option PipeTour :=
  let r := { r with
    exits := r.exits.filter (fun e => e.1 != src) ++ res.2.map (fun x => (src, x.1, w.outward p blk x.2)),
    clauses := res.1.flatMap (·.2.2.b.clauses) ++ res.2.flatMap (·.2.b.clauses) ++ r.clauses }
  res.1.foldlM (fun r a =>
    let (c, i, s) := a
    if steady && s.d != pipeBase + 1 then none
    else match r.invs.find? fun v => v.c == c && v.i == i with
      | none => (w.arrival p c i s).map fun v => { r with invs := v :: r.invs, todo := (c, i) :: r.todo }
      | some v => (w.meetAt p v s).map fun v' =>
        if v' = v then r
        else { r with invs := v' :: r.invs.filter (fun x => x != v), todo := (c, i) :: r.todo.filter (fun x => x != (c, i)) }) r

/-- Whether the entry of a boundary describes the oldest iteration (R306): every value live at the block's start is at its
location, or, where it is of the block, marked as in flight. -/
def Walk.oldestHeld (w : Walk) (p : Pipe) (v : PipeInv) : Bool :=
  let t := (w.resumeAt p v).b.t
  match w.clause v.c, entryAt w.img (v.c + 1 + v.i) with
  | some cl, some e =>
    match w.itemOf e with
    | none => false
    | some (q, fs) =>
      let items := liveItems w.img e
      let live := w.p.u.liveAt w.tab q
      live.all (fun k => w.captured k || items.any fun it =>
          (fs[it.frame]?).map (·.1) == some k.1 && it.value == k.2 && it.kind != 0 && (it.kind != 7 || p.own.contains k))
        && items.all fun it => it.kind == 0 || it.kind == 7 || match fs[it.frame]? with
          | none => false
          | some f =>
            let k : VKey := (f.1, it.value)
            live.contains k && (w.captured k || match w.p.place k with
              | none => false
              | some pl =>
                let x := p.term (pipeBase - cl.stagesM1) k
                pl.desc.1 == it.kind && (w.holds t k pl x || w.holds t.settled k pl x)
                  && (match pl with
                      | .konst x => low (max 1 (((w.p.u.val k).map fun v => v.ty.1.width).getD 64)) (imgConst w.img it.pay) == x
                      | _ => pl.desc.2 == some it.pay))
  | _, _ => false

/-- Goes through a loop from its boundaries until nothing changes. -/
def Walk.pipeTour (w : Walk) (p : Pipe) (blk : Blk) : (fuel : Nat) → PipeTour → Option PipeTour
  | 0, _ => none
  | f + 1, r =>
    match r.todo with
    | [] => some r
    | (c, i) :: todo =>
      match r.invs.find? fun v => v.c == c && v.i == i with
      | none => none
      | some v =>
        match w.pipeGo p (2 * imgCodeUnits w.img + 2) c i true (w.resumeAt p v) with
        | none => none
        | some res => match w.pipeJoin p blk (c, i) true res { r with todo } with
          | none => none
          | some r => w.pipeTour p blk f r

def mergeFly (a b : List Flight) : List Flight :=
  b.foldl (fun acc f =>
    if acc.any fun g => g.loc == f.loc then acc.map fun g => if g.loc = f.loc then { g with hi := max g.hi f.hi } else g
    else acc ++ [{ f with val := .junk, lo := 0 }]) a

def mergeLate (a b : List Late) : List Late :=
  b.foldl (fun acc l => if acc.any fun g => g.loc == l.loc && g.flag == l.flag then acc else acc ++ [{ l with val := .junk }]) a

/-- What holds on every way out of a loop: where the ways differ in what is in flight, it may have landed or not. -/
def joinStates (ts : List TState) : Option TState :=
  match ts with
  | [] => none
  | [t] => some t
  | t :: rest =>
    let ended (l : Nat) : Sym := if rest.all fun x => x.settled.raw l == t.settled.raw l then t.settled.raw l else .junk
    some { regs := t.regs.filter (fun r => rest.all fun x => x.raw r.1 == r.2),
           fly := (ts.foldl (fun acc x => mergeFly acc x.fly) []).map (fun f => { f with val := ended f.loc }),
           late := (ts.foldl (fun acc x => mergeLate acc x.late) []).map fun l => { l with val := ended l.loc } }

/-- The state at the start of a block with several incoming edges. -/
def Walk.startState (w : Walk) (n : Nat) (fly : List Flight) (late : List Late) : TState :=
  let u := w.p.u
  let args := ((u.items.find? fun it => it.node == n && it.marker).map (·.defs)).getD []
  let ks := (w.tab.getD n [] ++ args).filter fun k => !w.captured k
  let regs := (locFmt, Sym.con (4096 * n)) :: ks.flatMap fun k => match w.p.startPlace n k with
    | some pl => (w.locsOf k pl).zip (valueParts u k pl (startTerm u k))
    | none => []
  let at_ (l : Nat) : Sym := ((regs.find? fun r => r.1 == l).map (·.2)).getD .junk
  { regs := regs.filter (fun r => !(late.any fun x => x.loc == r.1)),
    fly := fly.map fun f => { f with val := at_ f.loc, lo := 0 },
    late := late.map fun x => { x with val := at_ x.loc } }

/-- Whether the loop counter is right at a loop's start, where `env` and `t` are what is known there, and with which sign. -/
def Walk.countsFrom (w : Walk) (n id : Nat) (self away : TEdge) (t : TState) (env : List (VKey × Sym)) : Option Bool :=
  let p := w.pipe n id self away env
  let l := (t.get locLc).rename (iterKey p.own 0)
  if l.bad then none
  else [false, true].find? fun neg =>
    (w.counts p 0 neg).any fun m => Lin.isZero (Sym.lin w.p.u p.defs 64 l ++ Lin.neg m)

/-- A pipelined loop from clause `c`: every iteration carries out its block, and the ways out meet at one clause. The answer is
the way to the block after it. -/
def Walk.loopRun (w : Walk) (n : Nat) (c id : Nat) (t : TState) (env : List (VKey × Sym)) : Option (List Leave × BSt) :=
  let u := w.p.u
  let blk := u.block w.ws n (startEnv u)
  match (u.outOf n).partition (fun e => e.dst == n) with
  | ([self], [away]) =>
    let p := w.pipe n id self away (startEnv u)
    match p.blks.head? with
    | none => none
    | some b0 =>
      let t0 := (w.startState n t.fly t.late).map fun _ x => x.rename (iterKey p.own 0)
      let s : PipeSt :=
        { d := 0, out := false, lc := (w.countsFrom n id self away t env).bind (w.counts p 0),
          b := { t := t0, effs := b0.effs, all := [], once := b0.once, spills := spillsOf (w.p.nodeList n), seen := [], own := [],
                 look := [], due := none, shut := false, dset := none, clauses := [], regionId := 0 } }
      if !u.eligible n || blk.fmt != 4096 * n then none
      else match w.pipeGo p (2 * imgCodeUnits w.img + 2) c 0 false s with
        | none => none
        | some res =>
          match (w.pipeJoin p blk (0, 0) false res { invs := [], todo := [], exits := [], clauses := [] }).bind
              (w.pipeTour p blk 256) with
          | none => none
          | some r =>
            match r.exits.map (·.2.1) |>.eraseDups, joinStates (r.exits.map (·.2.2)) with
            | [x], some t =>
              if r.invs.isEmpty || !r.invs.all (w.oldestHeld p) then none
              else
                let b : BSt := { t, effs := [], all := blk.effs, once := [], spills := [], seen := [], own := [], look := [],
                                 due := none, shut := false, dset := none, clauses := r.clauses, regionId := 2 ^ 16 }
                some ([⟨away, x, 0, b, true, []⟩], b)
            | _, _ => none
  | _ => none

end Sys2Proof.Machine
end

