-- ==== Sys2Proof/Machine/ImageCheck.lean ====
section
/-! DEFINITION. A whole image held against its plan: every block and every edge, the joins of divergent paths, the drain
points that every path passes, the clause headers and the side table (13_translator.md R262 to R282; 14 R289 to R306; 15 R330
to R332). -/

namespace Sys2Proof.Machine

open Sys2Proof

/-! ## All blocks -/

/-- A block that branches per thread: its reconvergence point, the block where its paths meet, and its paths' targets, each
with whether it runs last. -/
structure Fork where
  node : Nat
  rpc : Nat
  meet : Nat
  paths : List (Nat × Bool)
  deriving DecidableEq, Repr

/-- What is known so far: starts, what may be in flight at the start of blocks with several incoming edges, blocks to go
through, blocks that branch per thread, edges with their joins, blocks that an edge block standing later targets, clauses. -/
structure Tour where
  starts : List (Nat × Nat)
  flying : List (Nat × List Flight × List Late)
  queue : List (Nat × TState × List (VKey × Sym))
  forks : List Fork
  joins : List (Nat × Nat × List Joined × Bool)
  drains : List Nat
  clauses : List Nat
  deriving DecidableEq, Repr

def Walk.lastItem (w : Walk) (n : Nat) : Option (UItem × Nat) := ((w.p.u.items.zipIdx).filter fun q => q.1.node == n).getLast?

/-- Whether every path to where a fork's paths meet passes a join at its reconvergence point: a JOINP on the path that runs
last, a JOIN on any other; a block that paths of both kinds share is one for which no fixed choice is right, unless the fork
stands in a loop of its own paths (R331, R332). -/
def Walk.joinsOk (w : Walk) (forks : List Fork) (joins : List (Nat × Nat × List Joined × Bool)) : Bool :=
  forks.all fun f => joins.all fun j =>
    let (src, dst, js, final) := j
    let by_ := f.paths.filter fun p => p.1 != f.meet && (w.region f.meet [p.1]).contains src
    let loops := f.paths.any fun p => (w.region f.meet [p.1]).contains f.node
    let kinds := if src = f.node then [final] else (by_.map (·.2)).eraseDups
    dst != f.meet || kinds.isEmpty || (js.any fun x => x.1 == f.rpc && (kinds.contains x.2 || loops))
      && (kinds.length == 1 || loops)

/-- Whether a pipelined loop is entered by one edge alone, so that what is known there is known at its start. -/
def Walk.loneLoop (w : Walk) (d c : Nat) : Bool :=
  (w.clause c).any (fun cl => cl.loopId != 0) && ((w.p.u.into d).filter fun e => e.src != d).length == 1

/-- One way out of a block. -/
def Walk.takeLeave (w : Walk) (n : Nat) (blk : Blk) (q : UItem × Nat) (o : Option Tour) (l : Leave) : Option Tour :=
  match o with
  | none => none
  | some r =>
    let own := w.ownBlock l.edge (some q.1)
    match w.follow r.starts blk q.2 l.edge own (imgCodeUnits w.img + 1) l.c l.i (w.onEdge l.edge l.b) l.joins false with
    | none => none
    | some (c, b, joins, moved) =>
      let d := l.edge.dst
      let owned := !w.p.hasEdgeBlock l.edge || moved
      if !owned then none
      else
        let r := { r with
          starts := if r.starts.any fun s => s.1 == d then r.starts else (d, c) :: r.starts,
          clauses := b.clauses ++ r.clauses,
          joins := (n, d, joins, l.final) :: r.joins,
          drains := if moved && decide (c < l.c) then d :: r.drains else r.drains }
        if w.sole d || w.loneLoop d c then
          let env := w.passed blk l.edge ++ blk.env
          let inFmt := b.t.fly.any fun f => f.loc == locFmt
          let t := b.t.put locFmt (if inFmt then .junk else .con (4096 * d))
          let t := { t with fly := t.fly.map fun f => if f.loc = locFmt then { f with val := .con (4096 * d) } else f }
          some { r with queue := (d, t, env) :: r.queue.filter fun x => x.1 != d }
        else
          let old := r.flying.find? fun x => x.1 == d
          let (fly, late) := match old with
            | some (_, f, g) => (mergeFly f b.t.fly, mergeLate g b.t.late)
            | none => (mergeFly [] b.t.fly, mergeLate [] b.t.late)
          if old == some (d, fly, late) then some r
          else some { r with
            flying := (d, fly, late) :: r.flying.filter fun x => x.1 != d,
            queue := (d, w.startState d fly late, startEnv w.p.u) :: r.queue.filter fun x => x.1 != d }

/-- Goes through the blocks until nothing is left to do. -/
def Walk.tour (w : Walk) : (fuel : Nat) → Tour → Option Tour
  | 0, _ => none
  | f + 1, r =>
    match r.queue with
    | [] => some r
    | (n, t, env) :: queue =>
      match r.starts.find? (fun s => s.1 == n), w.lastItem n with
      | some (_, c), some q =>
        match w.clause c with
        | none => none
        | some cl =>
          let blk := w.p.u.block w.ws n (if cl.loopId ≠ 0 then startEnv w.p.u else env)
          let r := { r with queue }
          let res := if cl.loopId ≠ 0 then w.loopRun n c cl.loopId t env
            else if !cl.regionEntry then none
            else w.blockRun r.starts n blk q (imgCodeUnits w.img + 1) c 0
              { t, effs := blk.effs, all := blk.effs, once := blk.once, spills := spillsOf (w.p.nodeList n), seen := [], own := [], look := [],
                due := none, shut := false, dset := none, clauses := [], regionId := cl.regionId } []
          match res with
          | none => none
          | some (ls, b) =>
            let forks := match b.dset, w.meets.find? fun m => m.1 == n with
              | some x, some m => [({ node := n, rpc := x, meet := m.2, paths := ls.map fun l => (l.edge.dst, l.final) } : Fork)]
              | _, _ => []
            let r := { r with clauses := b.clauses ++ r.clauses, forks := forks ++ r.forks }
            match ls.foldl (w.takeLeave n blk q) (some r) with
            | none => none
            | some r => w.tour f r
      | _, _ => none

/-! ## Drain points on every path (R281, R302) -/

/-- A swap that a JOIN makes (R332): its operand, where the deferred threads resume, and the clauses that they come to before
the operand, whose joins swap to no earlier place. -/
structure Swap where
  rpc : Nat
  dpc : Nat
  reach : List Nat
  deriving DecidableEq, Repr

/-- Where a clause may go on: behind it, at the targets of its branches, and by a swap. -/
def Walk.clauseNext (w : Walk) (swaps : List Swap) (c : Nat) (cl : Clause) : List Nat :=
  let bs := (List.range cl.bundles).filterMap fun i => w.bundle (c + 1 + i)
  let outs := bs.flatMap fun b => match b.br with
    | .jmp t | .ubr _ t | .dbr _ t | .lend t | .joinp t => [t.toNat]
    | .join t => t.toNat :: (swaps.filter fun x => x.rpc == t.toNat && !x.reach.contains c).map (·.dpc)
    | _ => []
  match bs.getLast?.map fun b : RawBundle => b.br with
  | some (.jmp _) | some (.join _) | some (.joinp _) | some .exit | some .ret => outs
  | _ => (c + 1 + cl.bundles) :: outs

/-- The swaps that the DSETs and DBRs of an image prepare. -/
def Walk.swaps (w : Walk) (cs : List (Nat × Clause)) : List Swap :=
  let next (r x : Nat) : List Nat :=
    if x = r then [] else match w.clause x with
      | some cl => w.clauseNext [] x cl
      | none => []
  cs.flatMap fun x =>
    let bs := (List.range x.2.bundles).filterMap fun i => w.bundle (x.1 + 1 + i)
    (bs.zip (bs.drop 1)).filterMap fun p => match p.1.br, p.2.br with
      | .dset r, .dbr _ d =>
        some { rpc := r.toNat, dpc := d.toNat, reach := reachSet (next r.toNat) (8 * imgCodeUnits w.img + 8) [d.toNat] [] }
      | _, _ => none

/-- Bundles since the last drain point or iteration boundary: the most before a clause, and the most after it; none where
more than 2,048 run without one. -/
def Walk.runLength (w : Walk) (c : Nat) (cl : Clause) (before : Nat) : Option Nat :=
  (List.range cl.bundles).foldlM (fun (k : Nat) i => match w.bundle (c + 1 + i) with
    | none => none
    | some b => if b.drain || b.iterBoundary then some 1 else if 2048 ≤ k then none else some (k + 1)) before

def Walk.runRound (w : Walk) (cs : List (Nat × Clause)) (swaps : List Swap) (tab : List (Nat × Nat)) : Option (List (Nat × Nat)) :=
  cs.foldlM (fun tab x => do
    let n ← w.runLength x.1 x.2 (((tab.find? fun p => p.1 == x.1).map (·.2)).getD 0)
    some ((w.clauseNext swaps x.1 x.2).foldl (fun tab c =>
      match tab.find? fun p => p.1 == c with
      | some p => if p.2 < n then (c, n) :: tab.filter (fun q => q.1 != c) else tab
      | none => (c, n) :: tab) tab)) tab

def Walk.runsOk (w : Walk) (cs : List (Nat × Clause)) (swaps : List Swap) : (fuel : Nat) → List (Nat × Nat) → Bool
  | 0, _ => false
  | f + 1, tab => match w.runRound cs swaps tab with
    | none => false
    | some tab' => if tab'.all fun p => tab.contains p then true else w.runsOk cs swaps f tab'

/-! ## The whole image (R289, R290, R305) -/

/-- The clauses of an image in layout order. -/
def Walk.clauses (w : Walk) : (fuel : Nat) → (c : Nat) → Option (List (Nat × Clause))
  | 0, _ => none
  | f + 1, c =>
    if c = 1 + imgCodeUnits w.img then some []
    else match w.clause c with
      | none => none
      | some cl => (w.clauses f (c + 1 + cl.bundles)).map fun l => (c, cl) :: l

/-- What the headers of clauses hold beside the code: the clusters of the plan, the first side-table entry, the region of
the clause before where none opens, and the marks of a pipelined loop. -/
def Walk.headersOk (w : Walk) (ents : List SideEnt) : (prev : Nat) → List (Nat × Clause) → Bool
  | _, [] => true
  | prev, (c, cl) :: rest =>
    let mine := (ents.zipIdx).filter fun e => decide (c < e.1.off ∧ e.1.off ≤ c + cl.bundles)
    let marks := (List.range cl.bundles).any fun i => (w.bundle (c + 1 + i)).any fun b => b.marker
    cl.clmode.toNat == 2 ^ w.p.alloc.nc - 1
      && cl.sideIndex == ((mine.head?).map (·.2)).getD 0xFFFFF
      && (cl.regionEntry != (cl.regionId == prev))
      && (cl.loopKernel || cl.stagesM1 == 0) && (!cl.loopKernel || cl.loopId != 0) && (marks || cl.markCycle == 0)
      && w.headersOk ents cl.regionId rest

/-- Whether the header is that of the plan, and the parts of the image stand in it in order (R289). -/
def imgFormOk (p : Plan) (img : List Word) : Bool :=
  let h := imgHdr img
  let side := imgSideOff img
  let live := imgLiveOff img
  let const := imgConstOff img
  bitsOf h 31 0 == 0x31464254 && imgBudget img == p.budget && imgNc img == p.alloc.nc && imgSpillUnits img == p.spillUnits
    && bitsOf h 255 224 == 0 && bitsOf h 107 96 == 0 && bitsOf h 47 42 == 0
    && side % 16 == 0 && live % 16 == 0 && const % 16 == 0
    && decide (32 * (imgCodeUnits img + 1) ≤ side ∧ side + 16 * imgSideCount img ≤ live ∧ live ≤ const ∧ const ≤ 4 * img.length)

/-- Whether an entry is well formed: its reserved bit, its loop fields, and the items of its pool. -/
def Walk.entryForm (w : Walk) (i : Nat) (e : SideEnt) : Bool :=
  let x := objBytes w.img 16 (imgSideOff w.img + 16 * i)
  let iter := e.kind / 8 % 2 == 1
  bitsOf x 96 96 == 0 && e.kind != 0 && (iter || (e.loopId == 0 && e.stages == 0)) && w.itemsOk e

/-- The block where the paths of a block of the unit meet (R29). -/
def TUnit.meet (u : TUnit) (n : Nat) : Option Nat :=
  let pd := pdoms ((List.range u.nodes).map u.succ)
  let strict := (pd.getD n []).filter (· != n)
  strict.find? fun d => strict.all fun x => (pd.getD d []).contains x

/-- The blocks of a unit that start with a mandatory drain point (R281). -/
def TUnit.drainNodes (u : TUnit) : List Nat :=
  0 :: (u.edges.filter fun e => decide (e.2 < e.1)).map (·.2)

/-- Whether a unit runs a helper translation in its frame, or is one (R276). -/
def TUnit.frames (u : TUnit) : Bool := u.items.any fun it => match it.ins with
  | some (.herd _) | some (.herdAdd _) | some (.herdMin _) | some (.herdMax _) | some (.herdOr _) => true
  | _ => false

def Walk.of (ws : List Word) (k : Kernel) (die fn : Nat) (p : Plan) (img : List Word) : Walk :=
  let forks := (p.u.items.filter fun it => match it.ins with | some (.brc _) | some (.switch _) => true | _ => false).map (·.node)
  let helper := (fnInfo ws fn).helper
  let places := p.u.vals.flatMap fun v => match p.place v.key with
    | some pl => pl.locs k.width v.size v.cls
    | none => []
  let w : Walk :=
    { ws, img, p, tab := p.u.liveTab, width := k.width, gale := Config.isGale die, helper,
      meets := forks.filterMap fun n => (p.u.meet n).map fun m => (n, m), placed := [], bodies := p.u.insts.map (Body.of ws) }
  { w with placed := w.scratchLocs ++ places ++ if helper || p.u.frames then (List.range 8).map (locV 0) else [] }

/-- The state in which a group enters a unit: a kernel's parameters stand at their places, a helper's index in v0.0. -/
def Walk.entryState (w : Walk) : TState :=
  let t := w.startState 0 [] []
  let t := t.put locCv (.con 0)
  if w.helper then t.put (locV 0 0) (leafOf w.p.u (0, 0)) else t

/-- Whether a finished translation is one of its plan's: stages 2 to 4 and the mandatory entries as they are fixed, the
bundles within the constraints of stage 5. -/
def Walk.ok (w : Walk) : Bool :=
  let ents := (List.range (imgSideCount w.img)).map (sideEnt w.img)
  let u := w.p.u
  imgFormOk w.p w.img
    && (ents.zip (ents.drop 1)).all (fun p => decide (p.1.off < p.2.off))
    && ((ents.zipIdx).all fun e => w.entryForm e.2 e.1)
    && (match w.clauses (imgCodeUnits w.img + 1) 1 with
        | none => false
        | some cs =>
          w.headersOk ents 0 cs
            && ents.all (fun e => cs.any fun x => decide (x.1 < e.off ∧ e.off ≤ x.1 + x.2.bundles))
            && w.runsOk cs (w.swaps cs) (2048 * cs.length + 2) [(1, 0)]
            && (match w.tour (64 * (u.nodes + u.edges.length + 1))
                  { starts := [(0, 1)], flying := [], queue := [(0, w.entryState, startEnv u)], forks := [],
                    joins := [], drains := [], clauses := [] } with
                | none => false
                | some r =>
                  let start (n : Nat) : Nat := ((r.starts.find? fun s => s.1 == n).map (·.2)).getD 0
                  (List.range u.nodes).all (fun n => r.starts.any fun s => s.1 == n)
                    && cs.all (fun x => r.clauses.contains x.1 || (w.passes x.1).isSome)
                    && r.forks.all (fun f => f.rpc == start f.meet || (w.passes f.rpc).any fun x =>
                        x == start f.meet || (w.passes x).any fun y => y == start f.meet || (w.passes y) == some (start f.meet))
                    && w.joinsOk r.forks r.joins
                    && (u.drainNodes ++ r.drains).all (fun n => (w.clause (start n)).any (fun cl => cl.loopId != 0)
                        || match entryAt w.img (start n + 1) with
                        | some e => (e.kind % 2 == 1 || e.kind / 8 % 2 == 1) && (w.itemOf e).any fun x =>
                            (u.items[x.1]?).any fun it => it.node == n && it.marker
                        | none => false)
                    && (u.items.zipIdx).all (fun q => q.1.child == 0 || ents.any fun e =>
                        e.kind / 4 % 2 == 1 && ((w.itemOf e).map (·.1)) == some q.2)))

/-- Whether an image is a translation of a unit under its plan; an empty one stands for groups that run the unit's Value
Form words. -/
def imageOk (ws : List Word) (k : Kernel) (die fn : Nat) (p : Plan) (img : List Word) : Bool :=
  img.isEmpty || (Walk.of ws k die fn p img).ok

end Sys2Proof.Machine
end

