-- ==== Sys2Proof/Machine/Teams.lean ====
section
/-! DEFINITION. Placing teams and task groups on cores
(01_execution_model.md R13, R14, R18, R19, R37; 02 R49, R50; 03 R83, R84; 05 R121). -/

namespace Sys2Proof.Machine

open Sys2Proof

/-! ## Arguments of a kernel (R121) -/

/-- The parameters in the argument block from byte `off`. -/
def argLanes (args : List Byte) : (off : Nat) → List VTy → List Lane
  | _, [] => []
  | off, (t, _) :: ts =>
    let n := max 1 t.bytes
    let a := (off + n - 1) / n * n
    lane (leNat ((args.drop a).take n)) :: argLanes args (a + n) ts

def kernelArgs (l : Launch) : List (List Lane) :=
  let k := kernelIn l
  (argLanes l.args 0 (fnParams l.words k.fn)).map fun x => List.replicate k.width x

/-! ## What a team needs (R13, R14, R17 to R19, R273) -/

structure Need where
  /-- the core of each group, in group order -/
  cores : List Nat
  budget : Nat
  width : Nat
  tiles : Nat
  barriers : Nat
  sram : Nat
  spill : Nat
  deriving DecidableEq, Repr

/-- What a team with a translation needs on a core, or on the brace that starts there. -/
def teamNeed (k : Kernel) (budget spillUnits barriers core : Nat) : Need :=
  { cores := (List.range k.team).map fun g => if k.brace then core / 2 * 2 + g % 2 else core,
    budget, width := k.width, tiles := k.tiles, barriers, sram := k.sram, spill := spillUnits * 256 }

/-- The slot and spill area of each group in turn, beside areas and slots already taken. -/
def seatGo (s : State) (die spill : Nat) :
    List Nat → (areas : List (Nat × Nat × Nat)) → (slots : List (Nat × Nat)) → Option (List (Nat × Nat × Nat))
  | [], _, _ => some []
  | c :: cs, areas, slots =>
    let slot := pick (s.free + slots.length) ((freeSlots s die c).filter fun n => !slots.contains (c, n))
    let taken := (areas.filter fun a => a.1 == c).map (·.2)
    match slot, poolFind s.free (slots.length + 1) (poolBase s die) (poolBytes s die) spill (areasOn s die c ++ taken) with
    | some n, some off =>
      (seatGo s die spill cs ((c, off, spill) :: areas) ((c, n) :: slots)).map ((c, n, off) :: ·)
    | _, _ => none

/-- Where a team can stand at once: its region's offset and the seats of its groups. `slow` is false where
slow-file space does not count (R285). -/
def teamFits (s : State) (die : Nat) (n : Need) (slow : Bool) : Option (Nat × List (Nat × Nat × Nat)) :=
  let home := n.cores.headD 0
  let room := n.cores.eraseDups.all fun c =>
    coreFits die (if slow then claimsOn s die c else (claimsOn s die c).map fun x => { x with budget := 0 })
      (n.cores.filter (· == c)).length (if slow then n.budget else 0) n.width n.tiles
  if room && decide (barriersOn s die home + n.barriers ≤ Config.hardBarriers) then
    match poolFind s.free 0 (poolBase s die) (poolBytes s die) n.sram (areasOn s die home) with
    | some off => (seatGo s die n.spill n.cores [(home, off, n.sram)] []).map fun seats => (off, seats)
    | none => none
  else none

/-- Whether the cores of a team take groups of a context. -/
def coresServe (s : State) (ctx die : Nat) (cores : List Nat) : Bool :=
  cores.all fun c => coreUsable s die c && coreMapped s ctx die c

/-! ## TEAM_PLACEMENT (R18) -/

/-- The releases of a producer's threads (R84). -/
def producerReleases (s : State) (l : Launch) : List Carry :=
  if l.producer = 0 then []
  else match launchOf s l.producer with
    | some p => p.releases
    | none => []

/-- Creates the groups of a placed team; they take ages in ascending index. -/
def seatTeam (s : State) (l : Launch) (die team : Nat) (idx : BitVec 32) (args : List (List Lane)) :
    List ((Nat × Nat × Nat) × Nat) → State
  | [] => s
  | ((core, slot, off), g) :: rest =>
    let k := kernelIn l
    let (u, s) := newGroup s l
      { kind := .team, die, core, slot, spillOff := off, team, teamIdx := [idx], gidx := BitVec.ofNat 16 g,
        seedTeam := idx, unit := k.fn, args, uniform := true, threads := fullMask k.width,
        req := none }
    let s := applyCarries s (producerReleases s l) (.one (.core die core))
    let s := match groupOf s u with
      | some x => modTeam s team fun t => { t with held := t.held ++ [Group.claim x] }
      | none => s
    seatTeam s l die team idx args rest

/-- Places the next team of a launch on a core or brace. -/
def placeTeam (s : State) (l : Launch) (p : Place) (die core : Nat) (tr : Trans) : State :=
  let k := kernelIn l
  let n := teamNeed k tr.budget tr.spillUnits tr.barriers core
  match teamFits s die n true with
  | none => s
  | some (off, seats) =>
    let home := n.cores.headD 0
    let (u, s) := fresh { s with free := s.free + k.team }
    let bar : Barrier := { done := 0, arr := List.replicate k.team 0, carries := [] }
    let idx : BitVec 32 := BitVec.ofNat 32 p.first
    let t : Team :=
      { uid := u, launch := l.uid, ctx := l.ctx, idx, die, core := home, brace := k.brace, size := k.team,
        regionOff := off, regionLen := k.sram, nbar := tr.barriers, bars := List.replicate 32 bar,
        ended := List.replicate k.team false, held := [] }
    let s := setMem { s with teams := s.teams ++ [t] } fun m => m.clear (coreKey die home off) k.sram
    let s := seatTeam s l die u idx (kernelArgs l) seats.zipIdx
    modLaunch s l.uid fun l => { l.waitAnew die (core / 16) s.cycle with
      placed := l.placed + 1,
      places := l.places.map fun q => if q = p then { q with first := q.first + 1, count := q.count - 1 } else q }

/-- The oldest waiting team of a launch on a cluster. -/
def nextPlace (l : Launch) (die cluster : Nat) : Option Place :=
  l.places.find? fun p => p.die == die && p.cluster == cluster && p.count != 0

def ctxLive (s : State) (c : Nat) : Bool :=
  match ctxOf s c with
  | some c => c.st == .loaded && c.firedAt.isNone
  | none => false

/-- Whether the next team of a launch on a cluster can be placed on one of its cores. -/
def placeable (s : State) (l : Launch) (die cluster : Nat) : Bool :=
  l.stage == .running && ctxLive s l.ctx && (nextPlace l die cluster).isSome
    && (List.range 16).any fun i =>
      let c := 16 * cluster + i
      match unitTrans s l die c (kernelIn l).fn none with
      | some tr => coresServe s l.ctx die (teamNeed (kernelIn l) 0 0 0 c).cores
          && (teamFits s die (teamNeed (kernelIn l) tr.budget tr.spillUnits tr.barriers c) true).isSome
      | none => false

/-- TEAM_PLACEMENT (R15, R18): the cluster scheduler places the launch's oldest waiting team of a cluster on
the core `core mod 512` of die `core / 512`, or on its brace; a team that arrived earlier at the cluster and can be placed
goes before it. -/
def execTeamPlacement (launch core : Nat) (s : State) : Out :=
  match launchOf s launch with
  | none => .next s
  | some l =>
    let die := core / 512
    let c := core % 512
    match nextPlace l die (c / 16), unitTrans s l die c (kernelIn l).fn none with
    | some p, some tr =>
      if l.stage == .running && ctxLive s l.ctx
          && (s.launches.all fun x => decide (l.arrived ≤ x.arrived) || !placeable s x die (c / 16))
          && coresServe s l.ctx die (teamNeed (kernelIn l) 0 0 0 c).cores
          && (teamFits s die (teamNeed (kernelIn l) tr.budget tr.spillUnits tr.barriers c) true).isSome then
        match ensureCached s die (c / 16) l.ctx tr with
        | some s => .next (placeTeam s l p die c tr)
        | none => .next s
      else .next s
    | _, _ => .next s

/-! ## Tasks (R37) -/

/-- TASK_GROUP_FORM (R37): W records of one home core and function, or those there 256 cycles after the
first arrived. -/
def execTaskGroupForm (launch die core fn : Nat) (s : State) : Out :=
  match launchOf s launch with
  | none => .next s
  | some l =>
    let w := (kernelIn l).width
    let mine (t : Task) : Bool := t.launch == launch && t.die == die && t.core == core && t.fn == fn
    let recs := (s.tasks.filter mine).take w
    match recs with
    | [] => .next s
    | r :: _ =>
      if recs.length = w ∨ r.at_ + 256 ≤ s.cycle then
        let rest := (s.tasks.filter fun t => !mine t) ++ (s.tasks.filter mine).drop w
        .next { s with tasks := rest, taskGroups := s.taskGroups ++ [{ uid := s.nextId, recs }],
                       nextId := s.nextId + 1 }
      else .next s

/-- Whether a formed task group is the first of its home core. -/
def taskFirst (s : State) (t : TaskGroup) : Bool :=
  match t.recs with
  | [] => false
  | r :: _ =>
    ((s.taskGroups.find? fun x => x.recs.any fun q => q.die == r.die && q.core == r.core).map (·.uid)) == some t.uid

/-- TASK_GROUP_START (R16, R36, R37, R83, R108): a formed task group takes a FREE context and its spill area
on its home core. -/
def execTaskGroupStart (task : Nat) (s : State) : Out :=
  match s.taskGroups.find? fun t => t.uid == task with
  | none => .next s
  | some t =>
    match t.recs with
    | [] => .next s
    | r :: _ =>
      match launchOf s r.launch with
      | none => .next s
      | some l =>
        if !taskFirst s t || !ctxLive s l.ctx || l.stage != .running then .next s
        else match detachedSeat s l r.die r.core r.fn (some r.budget) with
          | none => .next s
          | some (slot, off) =>
            let n := t.recs.length
            let nargs := (fnParams l.words r.fn).length
            let args := (List.range nargs).map fun i => t.recs.map fun q =>
              if i = 0 then q.p else q.args.getD (i - 1) 0
            let s := { s with taskGroups := s.taskGroups.filter fun x => x.uid != task }
            let (_, s) := newGroup { s with free := s.free + 1 } l
              { kind := .task, die := r.die, core := r.core, slot, spillOff := off, team := 0,
                teamIdx := t.recs.map (·.teamIdx), gidx := 0xFFFF, seedTeam := 0xFFFFFFFF, unit := r.fn, args,
                uniform := false, threads := maskOf (List.range n),
                req := some r.budget }
            .next (applyCarries s (t.recs.map (·.carry)) (.one (.core r.die r.core)))

end Sys2Proof.Machine
end

