-- ==== Sys2Proof/Machine/Translate.lean ====
section
/-! DEFINITION. TRANSLATION_COMPLETE: the verify outcome, the key, the cache and the store, the image against its plan,
the reports to the Collie, and pressure translations (13_translator.md R256 to R262, R281, R285 to R287; 05 R135; 14 R289, R305, R306). -/

namespace Sys2Proof.Machine

open Sys2Proof

/-! ## Keys (R257, R258) -/

def keyOf (s : State) (l : Launch) (die : Nat) (x : Nat × Nat) : TKey :=
  let k := kernelIn l
  { digest := l.digest, xlat := s.fw.xlat, fn := x.1, budget := x.2, tiles := k.tiles, minGroups := k.minGroups,
    gen := Config.genCode die, width := k.width, checked := l.checked }

/-- The owner of a launch's translations: a confidential context finds its own alone (R396). -/
def ownerOf (s : State) (ctx : Nat) : Nat := if ctxConfidential s ctx then ctx else 0

def findTrans (s : State) (key : TKey) (owner : Nat) : Option Trans :=
  s.trans.find? fun t => t.key == key && t.owner == owner

/-! ## Reports -/

def setReport (s : State) (launch die cluster unit : Nat) (r : Report) : State :=
  modLaunch s launch fun l => { l with
    reports := l.reports.map fun x => if x.1 = die ∧ x.2.1 = cluster ∧ x.2.2.1 = unit then (die, cluster, unit, r) else x }

/-- The outcome of verifying a launch's object, kept under its digest (R135). -/
def verdictOf (s : State) (l : Launch) : Option VerifyRec × State :=
  match s.verdicts.find? fun v => v.1 == l.digest with
  | some v => (v.2, s)
  | none =>
    let v := verifyObject l.words
    (v, { s with verdicts := (l.digest, v) :: s.verdicts })

/-- A cluster reports VERIFY for a launch, with one event (R287). -/
def reportVerify (s : State) (l : Launch) (die cluster : Nat) (r : VerifyRec) : State :=
  let s := xlatEvent s die cluster { ctx := l.ctx, digest := l.digest, fn := r.fn, budgetM1 := 0, reason := 5 }
  modLaunch s l.uid fun l => { l with
    reports := l.reports.map fun x => if x.1 = die ∧ x.2.1 = cluster then (die, cluster, x.2.2.1, .verify) else x }

/-- A pressure translation that fails is dropped: the old translations stay in force (R285). -/
def dropPress (s : State) (launch die cluster : Nat) : State :=
  modLaunch s launch fun l => { l.waitAnew die cluster s.cycle with
    press := l.press.filter fun p => !(p.1 == die && p.2.1 == cluster),
    reports := l.reports.filter fun x => !(x.1 == die && x.2.1 == cluster) }

/-- A unit fails with LIMIT at a budget (R259, R271, R285, R287). -/
def reportLimit (s : State) (l : Launch) (die cluster : Nat) (x : Nat × Nat) (budget : Nat) : State :=
  let s := xlatEvent s die cluster
    { ctx := l.ctx, digest := l.digest, fn := x.1, budgetM1 := budget - 1, reason := 8 }
  if l.press.any fun p => p.1 == die && p.2.1 == cluster then dropPress s l.uid die cluster
  else setReport s l.uid die cluster (unitCode x) .limit

/-- The translations of a cluster's finished units come into force, the newest first. -/
def install (s : State) (launch die cluster : Nat) : State :=
  match launchOf s launch with
  | none => s
  | some l =>
    let mine := l.reports.filter fun x => x.1 == die && x.2.1 == cluster
    if mine.isEmpty || !(mine.all fun x => x.2.2.2 == .ready) then s
    else
      let new := mine.filterMap fun x =>
        (findTrans s (keyOf s l die (codeUnit x.2.2.1)) (ownerOf s l.ctx)).map fun t =>
          (die, cluster, (codeUnit x.2.2.1).1, t.uid)
      modLaunch s launch fun l => { l with trs := new ++ l.trs.filter fun t => !new.contains t }

/-- The budgets of a finished pressure request: its event, and its translations for the teams to come; a team
that no longer fits the core drops it with LIMIT (R271, R285). -/
def finishPress (s : State) (launch die cluster b core : Nat) : State :=
  match launchOf s launch with
  | none => s
  | some l =>
    let mine := l.reports.filter fun x => x.1 == die && x.2.1 == cluster
    if !(mine.all fun x => x.2.2.2 == .ready) then s
    else match findTrans s (keyOf s l die ((kernelIn l).fn, b)) (ownerOf s l.ctx) with
      | none => s
      | some t =>
        let k := kernelIn l
        let fits := t.budget == b || (teamFits s die (teamNeed k t.budget t.spillUnits t.barriers core) true).isSome
        if fits then
          dropPress (install (xlatTransEvent s die cluster l.ctx t 6) launch die cluster) launch die cluster
        else reportLimit s l die cluster (k.fn, b) t.budget

/-- A translation of a cluster is ready. -/
def reportReady (s : State) (launch die cluster unit : Nat) : State :=
  let s := setReport s launch die cluster unit .ready
  match launchOf s launch with
  | none => s
  | some l =>
    match l.press.find? fun p => p.1 == die && p.2.1 == cluster with
    | some p => finishPress s launch die cluster p.2.2.1 p.2.2.2
    | none => install s launch die cluster

/-! ## PRESSURE_TRANSLATION (R285) -/

/-- The groups of a launch on a core. -/
def groupsOf (s : State) (launch die core : Nat) : Nat :=
  ((heldGroups s).filter fun g => g.party.isNone && g.launch == launch && g.die == die && g.core == core).length

/-- The largest multiple of 8 below the budget at which a team fits a core of the cluster with everything else free
there, with that core: a free one of those where there is such a budget. -/
def pressBudget (s : State) (l : Launch) (die cluster : Nat) (tr : Trans) : Option (Nat × Nat) :=
  let k := kernelIn l
  let cores := ((List.range 16).map (cluster * 16 + ·)).filter fun c =>
    (!k.brace || c % 2 == 0) && coresServe s l.ctx die (teamNeed k 0 0 0 c).cores
      && (teamFits s die (teamNeed k tr.budget tr.spillUnits tr.barriers c) false).isSome
  let steps := ((List.range 32).map fun i => 8 * (i + 1)).filter fun b => decide (b < tr.budget)
  pick s.free (cores.filterMap fun c => (steps.reverse.find? fun b =>
    (teamFits s die (teamNeed k b tr.spillUnits tr.barriers c) true).isSome).map fun b => (b, c))

/-- PRESSURE_TRANSLATION (R285): the cluster asks its translator for the launch's units at a lower budget. -/
def execPressureTranslation (launch die cluster : Nat) (s : State) : Out :=
  match launchOf s launch with
  | none => .next s
  | some l =>
    match nextPlace l die cluster, unitTrans s l die (cluster * 16) (kernelIn l).fn none with
    | some _, some tr =>
      let few := (List.range 16).all fun i =>
        decide (groupsOf s launch die (cluster * 16 + i) < (kernelIn l).minGroups)
      if l.stage == .running && l.waitedLong die cluster s.cycle && few
          && !(l.press.any fun p => p.1 == die && p.2.1 == cluster) then
        match pressBudget s l die cluster tr with
        | some (b, core) =>
          let units := (unitsOf l.words (kernelIn l) die b).map unitCode
          .next (modLaunch { s with free := s.free + 1 } launch fun l => { l.ask die cluster s.steps with
            press := (die, cluster, b, core) :: l.press,
            reports := (l.reports.filter fun r => !(r.1 == die && r.2.1 == cluster))
              ++ units.map fun u => (die, cluster, u, .pending) })
        | none => .next s
      else .next s
    | _, _ => .next s

/-! ## TRANSLATION_COMPLETE (R259 to R262) -/

/-- A known translation comes to a cluster: from its own cache, else from the store where the store held it when the
cluster looked there, at its request; a cluster that looked before another had finished the key translates it too, with
the same result, and the store keeps the copy written first (R259, R261). -/
def answerKnown (s : State) (l : Launch) (die cluster : Nat) (t : Trans) : State :=
  let early := l.asked.any fun a => a.1 == die && a.2.1 == cluster && decide (a.2.2 ≤ t.made)
  if cached s die cluster t.uid || !early || !t.stored then (ensureCached s die cluster l.ctx t).getD s
  else
    let s := storeTouch (xlatTransEvent s die cluster l.ctx t 1) t.uid
    (cacheIn s die cluster l.ctx t).getD s

/-- A unit's translation is found or made. An image that is not what stages 2 to 4 fix, or not the one that its key
yielded before (R257), is no outcome of a translation; an empty one leaves the unit's groups running their Value Form
words. -/
def finishUnit (s : State) (l : Launch) (die cluster unit : Nat) (image : List Word) : State :=
  let x := codeUnit unit
  let key := keyOf s l die x
  let owner := ownerOf s l.ctx
  match findTrans s key owner with
  | some t => reportReady (answerKnown s l die cluster t) l.uid die cluster unit
  | none =>
    match planOf l.words (kernelIn l) die x.1 x.2 with
    | .limit b => reportLimit s l die cluster x b
    | .ok p =>
      if 1048576 < 4 * image.length then reportLimit s l die cluster x p.budget
      else if !imageOk l.words (kernelIn l) die x.1 p image || s.images.any (fun e => e.1 == key && e.2 != image) then s
      else
        let (u, s) := fresh s
        let t : Trans := { uid := u, key, budget := p.budget, spillUnits := p.spillUnits, areas := p.areas, uniOff := p.uniOff, barriers := p.barriers,
                           image, owner, stored := false, used := s.tick, made := s.steps }
        let s := { s with trans := s.trans ++ [t], images := (key, image) :: s.images.filter fun e => e.1 != key }
        let s := storeTouch (storeRoom (xlatTransEvent s die cluster l.ctx t 1) die cluster l.ctx t.bytes s.trans.length) u
        let s := (cacheIn s die cluster l.ctx t).getD s
        reportReady s l.uid die cluster unit

/-- TRANSLATION_COMPLETE (R262): a cluster answers the request for one unit of a launch. -/
def execTranslationComplete (launch die cluster unit : Nat) (image : List Word) (s : State) : Out :=
  match launchOf s launch with
  | none => .next s
  | some l =>
    if !(l.reports.any fun x => x.1 == die && x.2.1 == cluster && x.2.2.1 == unit && x.2.2.2 == .pending) then
      .next s
    else
      let (v, s) := verdictOf s l
      match v with
      | some r => .next (reportVerify s l die cluster r)
      | none => .next (finishUnit s l die cluster unit image)

end Sys2Proof.Machine
end

