-- ==== Sys2Proof/Machine/Launch.lean ====
section
/-! DEFINITION. Launches: LAUNCH and LAUNCH_CHAINED, the report of their translations, the start of dependants,
and retirement (18_queues_launch.md R363, R364, R370 to R373, R376; 01 R20, R21, R38; 03 R84, R86, R87; 05 R135;
20 R388 to R392). -/

namespace Sys2Proof.Machine

open Sys2Proof

/-! ## What is read of a launch -/

/-- The words of bytes, four at a time. -/
def wordsOf : List Byte → List Word
  | a :: b :: c :: d :: rest => (d ++ c ++ b ++ a) :: wordsOf rest
  | _ => []

/-- A read of the front end that stops the start: it parks, or the launch is refused with FAR_FAULT. -/
inductive ReadRes where
  | got (bs : List Byte)
  | parked (page : Nat)
  | dead
  deriving DecidableEq, Repr

def readFar (s : State) (ctx n va : Nat) : ReadRes :=
  match frontRead s ctx n va with
  | .ok bs => .got bs
  | .error (some p) => .parked p
  | .error none => .dead

/-- The 16 words of a code object's header as fields of a launch's first checks. -/
structure ObjHead where
  size : Nat
  knCount : Nat
  knOff : Nat
  deriving DecidableEq, Repr

def ObjHead.of (bs : List Byte) : ObjHead :=
  let x := leNat bs
  { size := bitsOf x 127 96, knCount := bitsOf x 191 176, knOff := bitsOf x 223 192 }

/-- Where a kernel's descriptor stands, when it lies within bytes 0 to SIZE − 49. -/
def ObjHead.desc (o : ObjHead) (k : Nat) : Option Nat :=
  let a := o.knOff + 32 * k
  if a + 32 + 48 ≤ o.size then some a else none

/-! ## Records of launches -/

/-- A launch record; `desc` holds the kernel descriptor as read, 0 where none was. -/
def Launch.new (uid ctx : Nat) (seq : BitVec 32) (h : PktHdr) (b : LaunchBody) : Launch :=
  { uid, ctx, seq, hdr := h, body := b, producer := 0, words := [], digest := [], args := [], places := [],
    checked := b.checked, stage := .terminated, asked := [], reports := [], trs := [], placed := 0, ended := 0, dets := 0,
    tasks := 0, trigs := 0, releases := [], ends := [], elapsed := 0, start := none, fired := false,
    arrived := 0, waits := [], press := [] }

/-- The next launch sequence number of a context: from 1, modulo 2^32, skipping 0 (R371). -/
def nextSeq (n : BitVec 32) : BitVec 32 := if n + 1 = 0 then 1 else n + 1

/-- The sequence number of a launch packet that is read. -/
def takeSeq (s : State) (ctx : Nat) : BitVec 32 × State :=
  match ctxOf s ctx with
  | some c =>
    let n := nextSeq c.launchCount
    (n, modCtx s ctx fun c => { c with launchCount := n })
  | none => (1, s)

/-- A launch that is refused before it stands: its record remains for dependants, and its packet completes. -/
def refuseNew (s : State) (ctx : Nat) (seq : BitVec 32) (h : PktHdr) (b : LaunchBody) (st : Status) : State :=
  let (u, s) := fresh s
  completeWith { s with launches := s.launches ++ [Launch.new u ctx seq h b] } h st seq true

/-- A standing launch is refused. -/
def refuse (s : State) (l : Launch) (st : Status) : State :=
  completeWith (modLaunch s l.uid fun l => { l with stage := .terminated, reports := [] }) l.hdr st l.seq true

/-- A VERIFY record as bytes (R136). -/
def verifyBytes (r : VerifyRec) : List Byte :=
  natBytes 16 (recNat [(r.value, 72), (r.fn, 48), (r.reason, 32), (r.offset, 0)])

/-! ## Producers (R84, R373) -/

/-- Threads of a launch's teams. -/
def launchThreads (l : Launch) : Nat := l.body.teams.toNat * (kernelIn l).team * (kernelIn l).width

/-- Whether every producer thread has triggered. -/
def allTriggered (l : Launch) : Bool :=
  l.stage == .retired || (l.stage == .running && l.trigs == launchThreads l)
    || (l.stage == .terminated && l.start.isSome && l.trigs == launchThreads l)

def producerFailed (l : Launch) : Bool := l.stage == .terminated && !allTriggered l

/-! ## Chain records (R390) -/

/-- Packet bytes 0 to 254 as they stand in the ring. -/
def packetBytes (s : State) (qu : Queue) (n : Nat) : List Byte :=
  match fnKey (qu.ring + 256 * (n % 2 ^ qu.sizeLog2)) with
  | some k => feBytes s k 255
  | none => []

/-- CODE, ARGS and LAUNCH, in one piece (R392). -/
def extendLaunch (s : State) (ctx : Nat) (seq : BitVec 32) (digest args packet places : List Byte) (checked det : Bool)
    (width : Nat) (helpersOff : Bool) : State :=
  let flags := checked.toNat + 2 * det.toNat + 4 * width + 16 * helpersOff.toNat
  let s := extend s ctx 2 digest
  let s := extend s ctx 3 (sha384 args)
  let s := extend s ctx 4 (natBytes 4 seq.toNat ++ natBytes 4 flags ++ sha384 packet ++ sha384 places)
  modCtx s ctx fun c => { c with isobar := { c.isobar with
    launches := c.isobar.launches + 1, checkedAll := c.isobar.checkedAll && checked,
    detAll := c.isobar.detAll && det } }

/-! ## Placement (R364) -/

/-- The placement map's entries, or none where R364 refuses one in itself. -/
def placesOf (teams first : Nat) : (fuel : Nat) → List Byte → Option (List Place)
  | 0, bs => if bs.isEmpty ∧ first = teams then some [] else none
  | n + 1, bs =>
    if bs.isEmpty then (if first = teams then some [] else none)
    else
      let e := leNat (bs.take 8)
      let count := bitsOf e 31 0
      let die := bitsOf e 35 32
      let cluster := bitsOf e 44 36
      if bitsOf e 63 45 ≠ 0 ∨ count = 0 ∨ Config.clustersOf die ≤ cluster then none
      else (placesOf teams (first + count) n (bs.drop 8)).map fun ps => { first, count, die, cluster } :: ps

/-- Whether a named cluster has a core, or a brace, with its slices mapped. -/
def clusterMapped (s : State) (ctx die cluster : Nat) (brace : Bool) : Bool :=
  (List.range 16).any fun i =>
    let c := cluster * 16 + i
    coreMapped s ctx die c && (!brace || coreMapped s ctx die (if c % 2 = 0 then c + 1 else c - 1))

/-- The clusters that a launch names, each once. -/
def namedClusters (ps : List Place) : List (Nat × Nat) := (ps.map fun p => (p.die, p.cluster)).eraseDups

def namedDies (ps : List Place) : List Nat := (ps.map fun p => p.die).eraseDups

/-! ## Requests (R371 step 5) -/

/-- The requests of a launch: every unit on every named cluster, and, where a unit posts tasks, on cluster 0
of the lowest-numbered die of each generation that no cluster names. An object that will not verify is asked
for through its entry alone. -/
def requestsOf (ws : List Word) (k : Kernel) (ps : List Place) : List (Nat × Nat × Nat × Report) :=
  let bad := (verifyObject ws).isSome
  let units (die : Nat) : List (Nat × Nat) := if bad then [(k.fn, k.budget)] else unitsOf ws k die k.budget
  let named := namedClusters ps
  let posts := !bad && (named.map (·.1)).eraseDups.any fun d => postsTasks ws (units d)
  let other (die : Nat) : List (Nat × Nat) :=
    if posts && !(named.any fun c => Config.isGale c.1 == Config.isGale die) then [(die, 0)] else []
  (named ++ other 0 ++ other 4).flatMap fun c =>
    (units c.1).map fun x => (c.1, c.2, unitCode x, Report.pending)

/-! ## LAUNCH and LAUNCH_CHAINED (R371) -/

/-- Steps 4 and 5: the placement map, then the requests; `desc` is the kernel descriptor as read. -/
def requestLaunch (s : State) (l : Launch) (h : PktHdr) (desc : Nat) (places : List Byte) : State :=
  let s := { s with launches := s.launches ++ [l] }
  match placesOf l.body.teams.toNat 0 (l.body.placeCount.toNat) places with
  | none => refuse s l .placement
  | some ps =>
    let k := kernelIn l
    if (namedClusters ps).all fun c => clusterMapped s l.ctx c.1 c.2 (bitOf desc 23) then
      let s := modLaunch s l.uid fun l =>
        let rs := requestsOf l.words k ps
        { rs.foldl (fun l r => l.ask r.1 r.2.1 s.steps) l with places := ps, stage := .translating, reports := rs }
      modStarted s h.q h.n fun p => { p with work := .launch l.uid }
    else refuse s l .placement

/-- Step 3: the digest, and the chain records. -/
def hashLaunch (s : State) (qu : Queue) (i : Instr) (h : PktHdr) (b : LaunchBody) (seq : BitVec 32)
    (head : ObjHead) (desc : Nat) (producer : Nat) : State :=
  let ctx := qu.ctx
  let mismatch (s : State) (off : Nat) : State :=
    let s := dumpEntry s h.q ctx seq.toNat 3 false
      (verifyBytes { offset := off, reason := 2, fn := 0xFFFF, value := 0xFFFFFF })
    refuseNew s ctx seq h b .verify
  if head.size < 112 ∨ head.size % 16 ≠ 0 then mismatch s 12
  else match readFar s ctx head.size b.code.toNat with
    | .parked p => parkStart s i p
    | .dead => refuseNew s ctx seq h b .farFault
    | .got obj =>
      let digest := obj.drop (head.size - 48)
      if sha384 (obj.take (head.size - 48)) ≠ digest then mismatch s (head.size - 48)
      else match readFar s ctx b.argBytes.toNat b.args.toNat,
                 readFar s ctx (8 * b.placeCount.toNat) b.placeAddr.toNat with
        | .parked p, _ => parkStart s i p
        | _, .parked p => parkStart s i p
        | .dead, _ => refuseNew s ctx seq h b .farFault
        | _, .dead => refuseNew s ctx seq h b .farFault
        | .got args, .got places =>
          let checked := b.checked || bitOf desc 96
          let s := extendLaunch s ctx seq digest args (packetBytes s qu h.n) places checked (bitOf desc 99)
            (bitsOf desc 17 16) b.helpersOff
          let (u, s) := fresh s
          requestLaunch s { Launch.new u ctx seq h b with
            producer, words := wordsOf obj, digest, args, checked, stage := .translating } h desc places

/-- Step 2: the object's header, KERNEL, ARG_BYTES, and the producer. -/
def checkLaunch (s : State) (qu : Queue) (i : Instr) (h : PktHdr) (b : LaunchBody) (seq : BitVec 32)
    (chained : Bool) : State :=
  let ctx := qu.ctx
  match readFar s ctx 64 b.code.toNat with
  | .parked p => parkStart s i p
  | .dead => refuseNew s ctx seq h b .farFault
  | .got hb =>
    let head := ObjHead.of hb
    if head.knCount ≤ b.kernel.toNat then refuseNew s ctx seq h b .args
    else
      let desc := match head.desc b.kernel.toNat with
        | some a => readFar s ctx 32 (b.code.toNat + a)
        | none => .got []
      match desc with
      | .parked p => parkStart s i p
      | .dead => refuseNew s ctx seq h b .farFault
      | .got d =>
        let x := leNat d
        if !d.isEmpty && bitsOf x 191 160 != b.argBytes.toNat then refuseNew s ctx seq h b .args
        else if !chained then hashLaunch s qu i h b seq head x 0
        else match s.launches.find? fun l => l.ctx == ctx && l.seq == b.producer with
          | none => refuseNew s ctx seq h b .noProducer
          | some p =>
            if producerFailed p then refuseNew s ctx seq h b .producerFailed
            else hashLaunch s qu i h b seq head x p.uid

/-- The start of a launch packet: its sequence number once, then the checks in order. -/
def startLaunch (s : State) (i : Instr) (h : PktHdr) (b : LaunchBody) (chained : Bool) : State :=
  match queueOf s h.q, startedAt s h.q h.n with
  | some qu, some p =>
    let s := describe s qu
    let (seq, s) := match p.work with
      | .begun (some n) => (n, s)
      | _ => takeSeq s qu.ctx
    let s := modStarted s h.q h.n fun p => { p with work := .begun (some seq) }
    if chained && !qu.priv then refuseNew s qu.ctx seq h b .privilege
    else match loadCtx s qu with
      | (.parked page, s) => parkStart s i page
      | (.refused st, s) => refuseNew s qu.ctx seq h b st
      | (.ok, s) => checkLaunch s qu i h b seq chained
  | _, _ => s

/-- LAUNCH (R363, R371). -/
def execLaunch (h : PktHdr) (b : LaunchBody) (s : State) : Out := .next (startLaunch s (.launch h b) h b false)

/-- LAUNCH_CHAINED (R363, R371, R373). -/
def execLaunchChained (h : PktHdr) (b : LaunchBody) (s : State) : Out :=
  .next (startLaunch s (.launchChained h b) h b true)

/-! ## TRANSLATION_REPORT (R371 steps 5 and 6) -/

/-- Whether an otherwise empty core, or brace, of a die holds one team (R20). -/
def holdsTeam (s : State) (l : Launch) (die : Nat) (tr : Trans) : Bool :=
  let k := kernelIn l
  let n := teamNeed k tr.budget tr.spillUnits tr.barriers 0
  let least := if (inlined l.words k.fn).herds.isEmpty then 8 else 16
  let here (c : Nat) : Nat := (n.cores.filter fun x => x == c).length
  n.cores.eraseDups.all (fun c =>
      decide (here c ≤ Config.contextMax die ∧ here c * k.tiles ≤ Config.tileRegs die
        ∧ here c * footprint least k.width ≤ Config.slowFile die
        ∧ (if c = 0 then upTo n.sram 256 else 0) + here c * n.spill ≤ poolBytes s die))
    && decide (n.barriers ≤ Config.hardBarriers)

/-- Places all teams of a launch on a copy of the machine, each on the first core of its cluster that holds it:
whether none is left over (R21). -/
def placeAllNow (s : State) (launch : Nat) : (fuel : Nat) → Bool
  | 0 => false
  | n + 1 =>
    match launchOf s launch with
    | none => false
    | some l =>
      match l.places.find? fun p => p.count != 0 with
      | none => true
      | some p =>
        let k := kernelIn l
        let spot := (List.range 16).findSome? fun i =>
          let c := p.cluster * 16 + i
          match unitTrans s l p.die c k.fn none with
          | some tr =>
            if (!k.brace || c % 2 == 0) && coresServe s l.ctx p.die (teamNeed k 0 0 0 c).cores
                && (teamFits s p.die (teamNeed k tr.budget tr.spillUnits tr.barriers c) true).isSome then
              some (c, tr)
            else none
          | none => none
        match spot with
        | none => false
        | some (c, tr) => placeAllNow (placeTeam s l p p.die c tr) launch n

/-- The most teams that the device could ever hold. -/
def teamBound : Nat := 2688 * 32 + 1

/-- Step 6: the teams go to the cluster schedulers, and the watchdog clock starts; a dependant's wait for its
producer. -/
def handOver (s : State) (l : Launch) : State :=
  let now (s : State) : State := modLaunch s l.uid fun l => { l with
    stage := .running, start := some s.tick, arrived := s.steps, waits := l.places.map fun p => (p.die, p.cluster, s.cycle) }
  if l.producer = 0 then now s
  else match launchOf s l.producer with
    | none => now s
    | some p =>
      if allTriggered p then now s
      else if producerFailed p then refuse s l .producerFailed
      else modLaunch s l.uid fun l => { l with stage := .waitingProducer }

/-- TRANSLATION_REPORT (R20, R21, R371). -/
def execTranslationReport (launch : Nat) (s : State) : Out :=
  match launchOf s launch with
  | none => .next s
  | some l =>
    let said (r : Report) : Bool := l.reports.any fun x => x.2.2.2 == r
    if l.stage != .translating || said .pending then .next s
    else if said .verify then
      let (v, s) := verdictOf s l
      let s := match v with
        | some r => dumpEntry s l.hdr.q l.ctx l.seq.toNat 3 false (verifyBytes r)
        | none => s
      .next (refuse s l .verify)
    else if said .limit then .next (refuse s l .translationLimit)
    else
      let k := kernelIn l
      let fits := (namedClusters l.places).all fun c =>
        match unitTrans s l c.1 (c.2 * 16) k.fn none with
        | some tr => holdsTeam s l c.1 tr
        | none => false
      if !fits then .next (refuse s l .capacity)
      else if k.coop && !(decide (l.body.teams.toNat < teamBound) && placeAllNow s launch (l.body.teams.toNat + 1)) then
        .next (refuse s l .placementCooperative)
      else .next (handOver s l)

/-! ## DEPENDENT_START (R373) -/

/-- DEPENDENT_START (R84, R373). -/
def execDependentStart (launch : Nat) (s : State) : Out :=
  match launchOf s launch with
  | none => .next s
  | some l => if l.stage == .waitingProducer then .next (handOver s l) else .next s

/-! ## LAUNCH_RETIRE (R38, R87, R372, R391) -/

/-- Whether everything of a launch has ended. -/
def launchDone (s : State) (l : Launch) : Bool :=
  l.stage == .running && l.places.all (fun p => p.count == 0)
    && !((heldGroups s ++ s.ctxs.flatMap fun c => c.savedGroups).any fun g => g.launch == l.uid)
    && !(s.tasks.any fun t => t.launch == l.uid)
    && !(s.taskGroups.any fun t => t.recs.any fun r => r.launch == l.uid)
    && !(s.ctxs.any fun c => c.savedTasks.any (fun t => t.recs.any fun r => r.launch == l.uid)
        || c.savedRecs.any fun r => r.launch == l.uid)
    && !(s.cmds.any fun c => c.launch == l.uid)

def resultRecord (s : State) (l : Launch) (bytes : Nat) (digest : List Byte) : State :=
  modCtx (extend s l.ctx 5 (natBytes 4 l.seq.toNat ++ List.replicate 4 0 ++ natBytes 8 bytes ++ digest)) l.ctx
    fun c => { c with isobar := { c.isobar with result := true } }

/-- LAUNCH_RETIRE (R372): the release, the result's hash, then the status record and the signal. -/
def execLaunchRetire (launch : Nat) (s : State) : Out :=
  match launchOf s launch with
  | none => .next s
  | some l =>
    match startedAt s l.hdr.q l.hdr.n with
    | none => .next s
    | some p =>
      if !launchDone s l || p.parked.isSome then .next s
      else
        let s := (pktReach l.hdr.rel.toNat).toList.foldl (fun s r => applyCarries s l.ends r) s
        let done (s : State) (st : Status) : State :=
          completeWith (modLaunch s launch fun l => { l with stage := .retired, ends := [] }) l.hdr st l.seq true
        if !l.body.hashResult then .next (done s .ok)
        else match readFar s l.ctx l.body.resultBytes.toNat l.body.resultAddr.toNat with
          | .parked page => .next (parkStarted s l.hdr p.work page)
          | .dead => .next (done (resultRecord s l 0xFFFFFFFFFFFFFFFF (List.replicate 48 0)) .farFault)
          | .got bs => .next (done (resultRecord s l l.body.resultBytes.toNat (sha384 bs)) .ok)

end Sys2Proof.Machine
end

