-- ==== Sys2Proof/Machine/Collie.lean ====
section
/-! DEFINITION. The Collie's visits (18_queues_launch.md R357, R359, R361, R368, R369, R374). -/

namespace Sys2Proof.Machine

open Sys2Proof

/-- What R369 and R361 make of a packet's TYPE and CLASS: the class under which it is read, and whether it is
read at once whatever stands before it. -/
def readRule (ty cls : Nat) : Nat × Bool :=
  if 0x0A < ty then (if cls = 1 ∨ cls = 3 then cls else 0, false)
  else if classFits ty cls then (cls, ty == 0x0A) else (0, false)

/-- Whether a packet may be read now (R369). -/
def mayRead (s : State) (q : QRef) (ty cls : Nat) : Bool :=
  let (c, atOnce) := readRule ty cls
  let before := startedOf s q
  atOnce || (if c = 0 ∨ c = 1 then before.isEmpty else !(before.any fun p => p.hdr.cls == 1))

/-- Whether the start of a packet of the queue is under way. -/
def startUnderWay (s : State) (q : QRef) : Bool :=
  (startedOf s q).any fun p => match p.work with
    | .begun _ => true
    | _ => false

/-- Whether the Collie starts packets of a context. -/
def ctxServes (s : State) (ctx : Nat) : Bool :=
  match ctxOf s ctx with
  | some c => c.st == .unloaded || (c.st == .loaded && c.firedAt.isNone)
  | none => true

/-- Consumes the packet of a queue's READ_IDX: its header stands in the launch table, READ_IDX moves on, and the
packet starts, or completes with FORMAT. A launch packet takes its sequence number in either case (R371). -/
def takePacket (s : State) (qu : Queue) (x : Nat) : State :=
  let n := qu.readIdx.toNat
  let h := pktHdr qu.q n x
  let ty := bitsOf x 2039 2032
  let s := { s with front := { s.front with
    started := s.front.started ++ [{ hdr := h, work := .begun none, parked := none }] } }
  let s := describe (modQueue s qu.q fun z => { z with readIdx := z.readIdx + 1 }) qu
  match decodePacket qu.q n x with
  | .ok i => { s with agenda := i :: s.agenda }
  | .format =>
    if ty = 1 ∨ ty = 2 then
      let (seq, s) := takeSeq s qu.ctx
      let (u, s) := fresh s
      let b : LaunchBody :=
        { producer := 0, resultBytes := 0, resultAddr := 0, placeCount := 0, placeAddr := 0, seed := 0, teams := 1,
          hashResult := false, helpersOff := false, checked := false, kernel := 0, argBytes := 0, args := 0,
          code := 0 }
      completeWith { s with launches := s.launches ++ [Launch.new u qu.ctx seq h b] } h .format seq true
    else complete s h .format

/-- A visit to a mapped slot. -/
def visit (s : State) (q : QRef) (kick : BitVec 32) : State :=
  match queueOf s q with
  | none => s
  | some qu =>
    if qu.readIdx == kick || qu.faulted || !ctxServes s qu.ctx || startUnderWay s q then s
    else
      let n := qu.readIdx.toNat
      match fnKey (qu.ring + 256 * (n % 2 ^ qu.sizeLog2)) with
      | none => s
      | some k =>
        let x := feNat s k 256
        let valid := if n / 2 ^ qu.sizeLog2 % 2 = 0 then 0x5A else 0xA5
        if bitsOf x 2047 2040 == valid && mayRead s q (bitsOf x 2039 2032) (bitsOf x 2031 2028) then takePacket s qu x
        else s

/-- COLLIE_VISIT (R368): the next slot in turn. -/
def execCollieVisit (s : State) : Out :=
  if s.boot != .running then .next s
  else
    let i := s.front.nextSlot
    let s := { s with front := { s.front with nextSlot := (i + 1) % 128 } }
    match (s.front.slots.getD i { q := none, kick := 0, mappedPass := 0 }).q with
    | some q => .next (visit s q (s.front.slots.getD i { q := none, kick := 0, mappedPass := 0 }).kick)
    | none => .next s

end Sys2Proof.Machine
end

