-- ==== Sys2Proof/Machine/Compare.lean ====
section
/-! DEFINITION. Meanings of compare, select and predicate logic (06_tvf_arithmetic.md R160 to R163). -/

namespace Sys2Proof.Machine

open Sys2Proof

/-- `cmp` (R160). -/
def execCmp (o : CmpOp) (s : State) : Out :=
  .next (perThread s o.uni 1 fun t =>
    [laneB (Cond.holds o.cond (cmpTy o.ty o.signed (opdN s o.ty o.a t) (opdN s o.ty o.b t)))])

/-- `fclass` (R161). -/
def execFclass (o : Op2) (s : State) : Out :=
  .next (perThread s o.uni 1 fun t =>
    [laneB ((opdN s .i32 o.b t).testBit (classBit (fmtOf o.ty) (opdN s o.ty o.a t)))])

/-- `sel` (R162). -/
def execSel (o : Op3) (s : State) : Out :=
  .next (perThread1 s o.uni fun t =>
    if opdN s .i1 o.a t = 1 then opdN s o.ty o.b t else opdN s o.ty o.c t)

/-- `pand` (R163). -/
def execPand (o : Op2) (s : State) : Out :=
  .next (perThread1 s o.uni fun t => aluAnd 1 (opdN s .i1 o.a t) (opdN s .i1 o.b t))

/-- `por` (R163). -/
def execPor (o : Op2) (s : State) : Out :=
  .next (perThread1 s o.uni fun t => aluOr 1 (opdN s .i1 o.a t) (opdN s .i1 o.b t))

/-- `pxor` (R163). -/
def execPxor (o : Op2) (s : State) : Out :=
  .next (perThread1 s o.uni fun t => aluXor 1 (opdN s .i1 o.a t) (opdN s .i1 o.b t))

/-- `pnot` (R163). -/
def execPnot (o : Op1) (s : State) : Out :=
  .next (perThread1 s o.uni fun t => aluNot 1 (opdN s .i1 o.a t))

end Sys2Proof.Machine
end

