-- ==== Sys2Proof/Machine/FieldLife.lean ====
section
/-! DEFINITION. Field life: the lifetime record, histograms, ageing, dumps and the management controller's reads
(23_field_life_dumps.md R419 to R425). -/

namespace Sys2Proof.Machine

open Sys2Proof

def modLife (s : State) (f : Life → Life) : State := { s with field := { s.field with life := f s.field.life } }

/-- LIFETIME_WRITE (R419): the record goes to the bank that was not written last. -/
def execLifetimeWrite (s : State) : Out :=
  if s.boot != .running then .next s
  else
    let s := modLife s fun l => { l with seq := l.seq + 1 }
    .next { s with field := { s.field with
      banks := s.field.banks.set (s.field.life.seq % 2) (lifeBytes s.field.life) } }

/-! ## Histograms (R420) -/

def tempBin (t : Nat) : Nat := if t < 25 then 0 else if 95 ≤ t then 15 else (t - 20) / 5
def voltBin (mv : Nat) : Nat := if mv < 650 then 0 else if 950 ≤ mv then 7 else (mv - 600) / 50

/-- Adds 1 to one bin of every row, up to the maximum of 32 bits. -/
def addBins (bin : Nat → Nat) (means : List Nat) (t : List (List Nat)) : List (List Nat) :=
  (t.zipIdx).map fun r =>
    let b := bin (means.getD r.2 0)
    r.1.set b (min (r.1.getD b 0 + 1) (2 ^ 32 - 1))

/-- HISTOGRAM_SECOND (R420): one second of powered time; the means are in whole degrees and millivolts. -/
def execHistogramSecond (temps volts : List Nat) (s : State) : Out :=
  if s.boot == .inReset then .next s
  else .next (modLife s fun l => { l with
    poweredS := min (l.poweredS + 1) (2 ^ 64 - 1), temp := addBins tempBin temps l.temp,
    volt := addBins voltBin volts l.volt })

/-! ## Ageing (R421, R422) -/

def degradePpm (f0 f : Nat) : Nat := if f0 ≤ f then 0 else (f0 - f) * 1000000 / f0

/-- EOL_HOURS for a degradation and the seconds of powered time. -/
def eolHours (d powered : Nat) : Nat :=
  if d = 0 ∨ powered = 0 then 0xFFFFFFFF
  else if 50000 ≤ d then 0
  else min ((50000 - d) * powered / (3600 * d)) 0xFFFFFEFF

def ageOf (i powered f : Nat) : Ageing :=
  let d := degradePpm (Config.f0Khz i) f
  { f0 := Config.f0Khz i, f, ppm := d, eol := eolHours d powered }

/-- AGEING_MEASURE (R421, R422): an island whose prediction falls below 8,760 hours raises a sensor event. -/
def execAgeingMeasure (khz : List Nat) (s : State) : Out :=
  if s.boot != .running then .next s
  else
    let old := s.field.life.ageing
    let new := (List.range 16).map fun i => ageOf i s.field.life.poweredS (khz.getD i 0)
    let low_ := (List.range 16).filter fun i =>
      decide (8760 ≤ (old.getD i (ageOf i 0 0)).eol) && decide ((new.getD i (ageOf i 0 0)).eol < 8760)
    let s := modLife s fun l => { l with ageing := new }
    .next { s with field := { s.field with eolEvents := s.field.eolEvents ++ low_ } }

/-! ## Dumps (R423 to R425) -/

/-- DUMP_GO (R423, R424). -/
def execDumpGo (s : State) : Out := if s.boot != .running then .next s else .next (startDump s 2)

/-- DUMP_REQUEST (R423). -/
def execDumpRequest (s : State) : Out := if s.boot != .running then .next s else .next (startDump s 3)

/-- DUMP_COMPLETE (R424). -/
def execDumpComplete (s : State) : Out :=
  match s.field.writing with
  | some b => .next { s with field := { s.field with dump := b, writing := none, dumpBytes := b.length, done := true } }
  | none => .next s

/-- MCTP_READ (R425): up to 1,024 bytes of the last complete dump or of the bank last written in full. -/
def execMctpRead (dump : Bool) (off len : Nat) (s : State) : Out :=
  if s.boot != .running then .next s
  else
    let src := if dump then s.field.dump else lastBank s
    .next { s with field := { s.field with mctp := ((src.drop off).take (min len 1024)) :: s.field.mctp } }

end Sys2Proof.Machine
end

