-- ==== Sys2Proof/Machine/Float.lean ====
section
/-! DEFINITION. Meanings of the floating-point instructions (06_tvf_arithmetic.md R148 to R152). -/

namespace Sys2Proof.Machine

open Sys2Proof

/-- A rounding instruction with one, two or three operands of TYPE (R149). -/
def fpUn (o : Fp1) (s : State) (f : Fmt → RCtx → Nat → Nat) : Out :=
  .next (perThread1 s o.uni fun t => f (fmtOf o.ty) (arithCtx s.cur.fmt o.rnd) (opdN s o.ty o.a t))

def fpBin (o : Fp2) (s : State) (f : Fmt → RCtx → Nat → Nat → Nat) : Out :=
  .next (perThread1 s o.uni fun t =>
    f (fmtOf o.ty) (arithCtx s.cur.fmt o.rnd) (opdN s o.ty o.a t) (opdN s o.ty o.b t))

/-- A non-rounding instruction (R151). -/
def fpPick (o : Op2) (s : State) (f : Fmt → Nat → Nat → Nat) : Out :=
  .next (perThread1 s o.uni fun t => f (fmtOf o.ty) (opdN s o.ty o.a t) (opdN s o.ty o.b t))

def fpSign (o : Op1) (s : State) (f : Fmt → Nat → Nat) : Out :=
  .next (perThread1 s o.uni fun t => f (fmtOf o.ty) (opdN s o.ty o.a t))

/-- The packed forms work on both halves of i32 operands (R152). -/
def fpBinX2 (o : Fp2) (s : State) (f : Fmt → RCtx → Nat → Nat → Nat) : Out :=
  .next (perThread1 s o.uni fun t =>
    halves2 (f (fmtOf o.ty) (arithCtx s.cur.fmt o.rnd)) (opdN s .i32 o.a t) (opdN s .i32 o.b t))

def fpPickX2 (o : Op2) (s : State) (f : Fmt → Nat → Nat → Nat) : Out :=
  .next (perThread1 s o.uni fun t => halves2 (f (fmtOf o.ty)) (opdN s .i32 o.a t) (opdN s .i32 o.b t))

def fpSignX2 (o : Op1) (s : State) (f : Fmt → Nat → Nat) : Out :=
  .next (perThread1 s o.uni fun t => halves1 (f (fmtOf o.ty)) (opdN s .i32 o.a t))

/-- `fadd` (R149). -/
def execFadd (o : Fp2) (s : State) : Out :=
  fpBin o s fpAdd

/-- `fsub` (R149). -/
def execFsub (o : Fp2) (s : State) : Out :=
  fpBin o s fpSub

/-- `fmul` (R149). -/
def execFmul (o : Fp2) (s : State) : Out :=
  fpBin o s fpMul

/-- `fdiv` (R149). -/
def execFdiv (o : Fp2) (s : State) : Out :=
  fpBin o s fpDiv

/-- `fma` (R149). -/
def execFma (o : Fp3) (s : State) : Out :=
  .next (perThread1 s o.uni fun t =>
    fpFma (fmtOf o.ty) (arithCtx s.cur.fmt o.rnd) (opdN s o.ty o.a t) (opdN s o.ty o.b t)
      (opdN s o.ty o.c t))

/-- `fsqrt` (R149). -/
def execFsqrt (o : Fp1) (s : State) : Out :=
  fpUn o s fpSqrt

/-- `frcp` (R149). -/
def execFrcp (o : Fp1) (s : State) : Out :=
  fpUn o s fpRcp

/-- `frsq` (R149). -/
def execFrsq (o : Fp1) (s : State) : Out :=
  fpUn o s fpRsq

/-- `exp2` (R149). -/
def execExp2 (o : Fp1) (s : State) : Out :=
  fpUn o s fpExp2

/-- `log2` (R149). -/
def execLog2 (o : Fp1) (s : State) : Out :=
  fpUn o s fpLog2

/-- `frint` (R150). -/
def execFrint (o : Fp1) (s : State) : Out :=
  fpUn o s fpRint

/-- `fmin` (R97). -/
def execFmin (o : Op2) (s : State) : Out :=
  fpPick o s fpMin

/-- `fmax` (R97). -/
def execFmax (o : Op2) (s : State) : Out :=
  fpPick o s fpMax

/-- `fcopysign` (R151). -/
def execFcopysign (o : Op2) (s : State) : Out :=
  fpPick o s fpCopysign

/-- `fabs` (R151). -/
def execFabs (o : Op1) (s : State) : Out :=
  fpSign o s fpAbs

/-- `fneg` (R151). -/
def execFneg (o : Op1) (s : State) : Out :=
  fpSign o s fpNeg

/-- `fadd.x2` (R152). -/
def execFaddX2 (o : Fp2) (s : State) : Out :=
  fpBinX2 o s fpAdd

/-- `fsub.x2` (R152). -/
def execFsubX2 (o : Fp2) (s : State) : Out :=
  fpBinX2 o s fpSub

/-- `fmul.x2` (R152). -/
def execFmulX2 (o : Fp2) (s : State) : Out :=
  fpBinX2 o s fpMul

/-- `fma.x2` (R152). -/
def execFmaX2 (o : Fp3) (s : State) : Out :=
  .next (perThread1 s o.uni fun t =>
    halves3 (fpFma (fmtOf o.ty) (arithCtx s.cur.fmt o.rnd)) (opdN s .i32 o.a t) (opdN s .i32 o.b t)
      (opdN s .i32 o.c t))

/-- `fmin.x2` (R152). -/
def execFminX2 (o : Op2) (s : State) : Out :=
  fpPickX2 o s fpMin

/-- `fmax.x2` (R152). -/
def execFmaxX2 (o : Op2) (s : State) : Out :=
  fpPickX2 o s fpMax

/-- `fabs.x2` (R152). -/
def execFabsX2 (o : Op1) (s : State) : Out :=
  fpSignX2 o s fpAbs

/-- `fneg.x2` (R152). -/
def execFnegX2 (o : Op1) (s : State) : Out :=
  fpSignX2 o s fpNeg

end Sys2Proof.Machine
end

