-- ==== Sys2Proof/Machine/Flush.lean ====
section
/-! DEFINITION. Flushes, kills, page-request responses and ATS invalidations
(19_far_translation_faults.md R380, R383 to R387). -/

namespace Sys2Proof.Machine

open Sys2Proof

/-! ## What is parked -/

/-- A parked piece of a command's work, or a parked signal read of a wait: who, which, and the page. -/
structure Line where
  wait : Bool
  who : Nat
  unit : Nat
  ctx : Nat
  page : Nat
  order : Nat
  pri : Option Nat
  deriving DecidableEq, Repr

def lineOfPark (wait : Bool) (who ctx : Nat) (p : Parked) : Line :=
  { wait, who, unit := p.unit, ctx, page := p.page, order := p.order, pri := p.pri }

/-- What is parked on a die, in parking order. -/
def linesOn (s : State) (die : Nat) : List Line :=
  let cs := (s.cmds.filter fun c => c.die == die).flatMap fun c => c.parked.map (lineOfPark false c.uid c.ctx)
  let ws := ((heldGroups s).filter fun g => g.die == die).flatMap fun g => match g.wait with
    | some w => w.parked.map (lineOfPark true g.uid g.ctx)
    | none => []
  sortBy (fun a b => decide (a.order ≤ b.order)) (cs ++ ws)

/-- Ends the park of a line. -/
def unpark (s : State) (l : Line) : State :=
  let off (ps : List Parked) : List Parked := ps.filter fun p => !(p.unit == l.unit && p.order == l.order)
  if l.wait then
    modGroup s l.who fun g => { g with wait := g.wait.map fun w => { w with parked := off w.parked } }
  else modCmd s l.who fun c => { c with parked := off c.parked }

/-- A parked line is replayed (R386); a signal word is read again at the wait's next evaluation. -/
def replayLine (s : State) (l : Line) : State :=
  let s := unpark s l
  if l.wait then s else workUnit s l.who l.unit

/-- A parked line is unresolvable (R387): its command's token completes with an error; a wait traps at its
instruction (R185). -/
def failLine (s : State) (l : Line) : State :=
  let s := unpark s l
  if l.wait then
    asCur s l.who fun s =>
      if s.cur.st == .waiting || s.cur.st == .parked then
        raise (setCur s fun g => { backUp g with wait := none }) .farFault
      else s
  else failUnit s l.who (l.unit / 2) .farFault

/-! ## The front end's parked accesses (R358, R360, R361, R384) -/

/-- A front-end access that was parked is made again. -/
def replayStarted (s : State) (p : Started) : State :=
  let s := modStarted s p.hdr.q p.hdr.n fun p => { p with parked := none }
  let ctx := match queueOf s p.hdr.q with
    | some qu => qu.ctx
    | none => 0
  match p.work with
  | .completing st seq stat sig => completeWrites s p.hdr ctx st seq stat sig
  | .stamp a start => stampGo s p.hdr ctx a start
  | .barrier _ | .wait _ _ _ _ => poll s { p with parked := none }
  | _ => s

/-- The context of a packet's queue. -/
def ctxOfQ (s : State) (q : QRef) : Nat :=
  match queueOf s q with
  | some qu => qu.ctx
  | none => 0

/-- The packet of a start that waits. -/
def pktOf : Instr → Option PktHdr
  | .nop h | .launch h _ | .launchChained h _ | .copy h _ _ _ | .barrierAnd h _ | .signal h
  | .waitSignal h _ _ _ _ | .measure h _ _ | .receipt h _ _ _ | .timestamp h _ | .haltContext h
  | .resumeContext h | .disableQueue h | .setPriority h _ => some h
  | _ => none

/-- The pages on which the front end waits: context and page. -/
def frontPages (s : State) : List (Nat × Nat) :=
  (s.front.started.filterMap fun p => p.parked.map fun g => (ctxOfQ s p.hdr.q, g.2))
    ++ s.front.starting.filterMap fun p => (pktOf p.1).map fun h => (ctxOfQ s h.q, p.2.2)

/-- The front end's parked accesses are made again; those to a page that is given up are unresolvable, as the
killed pages say until the next flush of die 0. -/
def replayFront (s : State) (killed : List (Nat × Nat)) : State :=
  let dead := (frontPages s).filter fun x => killed.contains x
  let ps := s.front.started.filter fun p => p.parked.isSome
  let again := s.front.starting.map fun x => x.1
  let s := { s with agenda := s.agenda ++ again, front := { s.front with starting := [], killed := dead } }
  ps.foldl replayStarted s

/-! ## FLUSH (R386) -/

/-- A flush, whole: its steps follow one another with BUSY set throughout, and no other step comes between. -/
def flushDie (s : State) (die : Nat) : State :=
  let lines := linesOn s die
  let kills := (dieAt s die).kills
  let s := modDie s die fun d => { d with gen := d.gen + 1, tlb := [], fbRead := d.fbWrite, flushId := s.nextId }
  let s := lines.foldl (fun s l => if kills.contains (l.ctx, l.page) then failLine s l else replayLine s l) s
  let s := if die = 0 then replayFront s kills else s
  modDie s die fun d => { d with kills := [], killOvf := false, busy := false }

/-- FLUSH (R385, R386). -/
def execFlush (die : Nat) (s : State) : Out :=
  if 8 ≤ die ∨ s.boot ≠ .running ∨ (dieAt s die).busy then .next s else .next (flushDie s die)

/-- Queues the kill of (KILL_VA, CONTEXT_ID) for the next flush. -/
def queueKill (s : State) (die : Nat) (ctx : BitVec 32) : State :=
  modDie s die fun d =>
    if d.kills.length < 64 then { d with kills := d.kills ++ [(ctx.toNat, bitsOf d.killVa.toNat 56 12)] }
    else { d with killOvf := true }

/-- KILL_CTX (R385). -/
def execKillCtx (die : Nat) (ctx : BitVec 32) (s : State) : Out :=
  if s.boot ≠ .running then .next s else .next (queueKill s die ctx)

/-! ## ATS (R383) -/

/-- Whether the front end's walk of a page misses in the host's translations. -/
def frontMisses (s : State) (x : Nat × Nat) : Bool :=
  match (farKey s x.1 (x.2 * 4096) false).1 with
  | .atsMiss => true
  | _ => match (farKey s x.1 (x.2 * 4096) true).1 with
    | .atsMiss => true
    | _ => false

/-- The front end's accesses that wait for the host are made again, or given up. -/
def answerFront (s : State) (ok : Bool) : State :=
  let mine := (frontPages s).filter (frontMisses s)
  let ps := s.front.started.filter fun p => p.parked.any fun g => mine.contains (ctxOfQ s p.hdr.q, g.2)
  let isMine (x : Instr × Nat × Nat) : Bool := (pktOf x.1).any fun h => mine.contains (ctxOfQ s h.q, x.2.2)
  let again := (s.front.starting.filter isMine).map fun x => x.1
  let s := { s with agenda := s.agenda ++ again, front := { s.front with
    starting := s.front.starting.filter fun x => !isMine x,
    killed := if ok then s.front.killed else mine ++ s.front.killed } }
  ps.foldl replayStarted s

/-- PRI_RESPONSE (R383, R387): the lines of a request are replayed, or become unresolvable. Request 0 is that
of the front end's own misses. -/
def execPriResponse (req : Nat) (ok : Bool) (s : State) : Out :=
  if s.boot ≠ .running then .next s
  else if req = 0 then .next (answerFront s ok)
  else
    let lines := (List.range 8).flatMap fun d => (linesOn s d).filter fun l => l.pri == some req
    .next (lines.foldl (fun s l => if ok then replayLine s l else failLine s l) s)

/-- ATS_INVALIDATION (R383): the entries of a PASID's contexts that meet the range leave every TLB. -/
def execAtsInvalidation (pasid page len : Nat) (s : State) : Out :=
  let mine := (s.ctxs.filter fun c => c.pasidEn && c.pasid == pasid).map (·.id)
  let hit (e : TlbEnt) : Bool := mine.contains e.ctx && decide (e.page < page * 4096 + len)
    && decide (page * 4096 < e.page + e.size)
  .next { s with dies := s.dies.map fun d => { d with tlb := d.tlb.filter fun e => !hit e } }

end Sys2Proof.Machine
end

