-- ==== Sys2Proof/Machine/Integer.lean ====
section
/-! DEFINITION. Meanings of the integer instructions (06_tvf_arithmetic.md R140 to R147). -/

namespace Sys2Proof.Machine

open Sys2Proof

/-- A two-operand integer instruction (R139): `f` works on bit strings of the width of TYPE. -/
def intBin (o : Op2) (tb : Ty) (s : State) (f : Nat → Nat → Nat → Nat) : Out :=
  .next (perThread1 s o.uni fun t => f o.ty.width (opdN s o.ty o.a t) (opdN s tb o.b t))

/-- A one-operand integer instruction. -/
def intUn (o : Op1) (s : State) (f : Nat → Nat → Nat) : Out :=
  .next (perThread1 s o.uni fun t => f o.ty.width (opdN s o.ty o.a t))

/-- An instruction with a value and a carry or borrow result. -/
def intCarry (uni : Bool) (s : State) (f : Nat → Nat × Bool) : Out :=
  .next (perThread s uni 2 fun t => [lane (f t).1, laneB (f t).2])

/-- The type of a value operand, from the types of the function's values (R130). -/
def opdTy (s : State) (o : Opd) : Ty :=
  match o, s.cur.frames with
  | .val n, f :: _ =>
    ((valTypes (groupWords s s.cur) (fnItems (groupWords s s.cur) f.fn)).getD n.toNat (.void, none)).1
  | _, _ => .void

/-- `add` (R141). -/
def execAdd (o : Op2) (s : State) : Out :=
  intBin o o.ty s aluAdd

/-- `sub` (R141). -/
def execSub (o : Op2) (s : State) : Out :=
  intBin o o.ty s aluSub

/-- `mul` (R141). -/
def execMul (o : Op2) (s : State) : Out :=
  intBin o o.ty s aluMul

/-- `mul.hi.s` (R141). -/
def execMulHiS (o : Op2) (s : State) : Out :=
  intBin o o.ty s aluMulHiS

/-- `mul.hi.u` (R141). -/
def execMulHiU (o : Op2) (s : State) : Out :=
  intBin o o.ty s aluMulHiU

/-- `mad` (R141). -/
def execMad (o : Op3) (s : State) : Out :=
  .next (perThread1 s o.uni fun t =>
    aluMad o.ty.width (opdN s o.ty o.a t) (opdN s o.ty o.b t) (opdN s o.ty o.c t))

/-- `div.s` (R142). -/
def execDivS (o : Op2) (s : State) : Out :=
  intBin o o.ty s fun w a b => (aluDivS w a b).1

/-- `div.u` (R142). -/
def execDivU (o : Op2) (s : State) : Out :=
  intBin o o.ty s fun w a b => (aluDivU w a b).1

/-- `rem.s` (R142). -/
def execRemS (o : Op2) (s : State) : Out :=
  intBin o o.ty s fun w a b => (aluDivS w a b).2

/-- `rem.u` (R142). -/
def execRemU (o : Op2) (s : State) : Out :=
  intBin o o.ty s fun w a b => (aluDivU w a b).2

/-- `add.sat.s` (R141). -/
def execAddSatS (o : Op2) (s : State) : Out :=
  intBin o o.ty s aluAddSatS

/-- `add.sat.u` (R141). -/
def execAddSatU (o : Op2) (s : State) : Out :=
  intBin o o.ty s aluAddSatU

/-- `sub.sat.s` (R141). -/
def execSubSatS (o : Op2) (s : State) : Out :=
  intBin o o.ty s aluSubSatS

/-- `sub.sat.u` (R141). -/
def execSubSatU (o : Op2) (s : State) : Out :=
  intBin o o.ty s aluSubSatU

/-- `add.cc` (R141). -/
def execAddCc (o : Op2) (s : State) : Out :=
  intCarry o.uni s fun t =>
    (aluAddc o.ty.width (opdN s o.ty o.a t) (opdN s o.ty o.b t) 0,
     carryOf o.ty.width (opdN s o.ty o.a t) (opdN s o.ty o.b t) 0)

/-- `addc` (R141). -/
def execAddc (o : Op3) (s : State) : Out :=
  intCarry o.uni s fun t =>
    (aluAddc o.ty.width (opdN s o.ty o.a t) (opdN s o.ty o.b t) (opdN s .i1 o.c t),
     carryOf o.ty.width (opdN s o.ty o.a t) (opdN s o.ty o.b t) (opdN s .i1 o.c t))

/-- `sub.cc` (R141). -/
def execSubCc (o : Op2) (s : State) : Out :=
  intCarry o.uni s fun t =>
    (aluSubc o.ty.width (opdN s o.ty o.a t) (opdN s o.ty o.b t) 0,
     borrowOf o.ty.width (opdN s o.ty o.a t) (opdN s o.ty o.b t) 0)

/-- `subc` (R141). -/
def execSubc (o : Op3) (s : State) : Out :=
  intCarry o.uni s fun t =>
    (aluSubc o.ty.width (opdN s o.ty o.a t) (opdN s o.ty o.b t) (opdN s .i1 o.c t),
     borrowOf o.ty.width (opdN s o.ty o.a t) (opdN s o.ty o.b t) (opdN s .i1 o.c t))

/-- `min.s` (R141). -/
def execMinS (o : Op2) (s : State) : Out :=
  intBin o o.ty s aluMinS

/-- `min.u` (R141). -/
def execMinU (o : Op2) (s : State) : Out :=
  intBin o o.ty s aluMinU

/-- `max.s` (R141). -/
def execMaxS (o : Op2) (s : State) : Out :=
  intBin o o.ty s aluMaxS

/-- `max.u` (R141). -/
def execMaxU (o : Op2) (s : State) : Out :=
  intBin o o.ty s aluMaxU

/-- `and` (R143). -/
def execAnd (o : Op2) (s : State) : Out :=
  intBin o o.ty s aluAnd

/-- `or` (R143). -/
def execOr (o : Op2) (s : State) : Out :=
  intBin o o.ty s aluOr

/-- `xor` (R143). -/
def execXor (o : Op2) (s : State) : Out :=
  intBin o o.ty s aluXor

/-- `not` (R143). -/
def execNot (o : Op1) (s : State) : Out :=
  intUn o s aluNot

/-- `neg` (R141). -/
def execNeg (o : Op1) (s : State) : Out :=
  intUn o s aluNeg

/-- `abs` (R141). -/
def execAbs (o : Op1) (s : State) : Out :=
  intUn o s aluAbs

/-- `clz` (R143). -/
def execClz (o : Op1) (s : State) : Out :=
  intUn o s aluClz

/-- `ctz` (R143). -/
def execCtz (o : Op1) (s : State) : Out :=
  intUn o s aluCtz

/-- `popc` (R143). -/
def execPopc (o : Op1) (s : State) : Out :=
  intUn o s aluPopc

/-- `brev` (R143). -/
def execBrev (o : Op1) (s : State) : Out :=
  intUn o s aluBrev

/-- `shl` (R143). -/
def execShl (o : Op2) (s : State) : Out :=
  intBin o .i32 s aluShl

/-- `shr.u` (R143). -/
def execShrU (o : Op2) (s : State) : Out :=
  intBin o .i32 s aluShrU

/-- `shr.s` (R143). -/
def execShrS (o : Op2) (s : State) : Out :=
  intBin o .i32 s aluShrS

/-- `rotl` (R143). -/
def execRotl (o : Op2) (s : State) : Out :=
  intBin o .i32 s aluRotl

/-- `rotr` (R143). -/
def execRotr (o : Op2) (s : State) : Out :=
  intBin o .i32 s aluRotr

/-- `bfe.u` (R144). -/
def execBfeU (o : Op3) (s : State) : Out :=
  .next (perThread1 s o.uni fun t =>
    aluBfeU o.ty.width (opdN s o.ty o.a t) (opdN s .i32 o.b t) (opdN s .i32 o.c t))

/-- `bfe.s` (R144). -/
def execBfeS (o : Op3) (s : State) : Out :=
  .next (perThread1 s o.uni fun t =>
    aluBfeS o.ty.width (opdN s o.ty o.a t) (opdN s .i32 o.b t) (opdN s .i32 o.c t))

/-- `bfi` (R144). -/
def execBfi (o : Op4) (s : State) : Out :=
  .next (perThread1 s o.uni fun t =>
    aluBfi o.ty.width (opdN s o.ty o.a t) (opdN s o.ty o.b t) (opdN s .i32 o.c t) (opdN s .i32 o.d t))

/-- `sext` (R145). -/
def execSext (o : Op1) (s : State) : Out :=
  .next (perThread1 s o.uni fun t =>
    aluSext (opdTy s o.a).width o.ty.width (opdN s (opdTy s o.a) o.a t))

/-- `zext` (R145). -/
def execZext (o : Op1) (s : State) : Out :=
  .next (perThread1 s o.uni fun t => opdN s (opdTy s o.a) o.a t)

/-- `trunc` (R145). -/
def execTrunc (o : Op1) (s : State) : Out :=
  .next (perThread1 s o.uni fun t => low o.ty.width (opdN s (opdTy s o.a) o.a t))

/-- `nadd` (R146). -/
def execNadd (o : Op2) (s : State) : Out :=
  .next (perThread1 s o.uni fun t => aluNadd (opdN s .near o.a t) (opdN s .i64 o.b t))

/-- `nidx` (R146). -/
def execNidx (o : Op3) (s : State) : Out :=
  .next (perThread1 s o.uni fun t =>
    aluNidx (opdN s .near o.a t) (opdN s .i64 o.b t) (opdN s .i32 o.c t))

/-- `nmake` (R146). -/
def execNmake (o : Op2) (s : State) : Out :=
  .next (perThread1 s o.uni fun t => aluNmake (opdN s .i32 o.a t) (opdN s .i32 o.b t))

/-- `nsplit` (R146). -/
def execNsplit (o : Op1) (s : State) : Out :=
  .next (perThread s o.uni 2 fun t =>
    let r := aluNsplit (opdN s .near o.a t)
    [lane r.1, lane r.2])

/-- `const` (R147). -/
def execConst (o : Op1) (s : State) : Out :=
  .next (perThread1 s o.uni fun t => opdN s o.ty o.a t)

end Sys2Proof.Machine
end

