-- ==== Sys2Proof/Machine/Links.lean ====
section
/-! DEFINITION. Torair Link: package numbers, ports, and the accesses of other packages and of the host
(24_package_links_power.md R432, R433; 03 R82). -/

namespace Sys2Proof.Machine

open Sys2Proof

def modPort (s : State) (i : Nat) (f : Port → Port) : State :=
  { s with links := { s.links with ports := (s.links.ports.zipIdx).map fun p => if p.2 = i then f p.1 else p.1 } }

/-- The record of a conflict: a structure of Anvil, with a class that the spec does not name. -/
def logConflict (s : State) : State :=
  let (n, s) := freeNo s
  logError s { ctx := 0, ppc := (0, 0), die := 8, core := 0, addr := 0, struct := 14, cls := Config.choice n % 9 + 1,
               synd := 0 }

/-- Links to packages that claim this package's number stop. -/
def stopConflicts (s : State) : State :=
  let bad (p : Port) : Bool := s.links.written && p.up && !p.stopped && p.peer == s.links.ident.toNat % 64
  let n := (s.links.ports.filter bad).length
  let s1 := { s with links := { s.links with ports := modBy bad (fun p => { p with stopped := true }) s.links.ports } }
  (List.range n).foldl (fun s _ => logConflict s) s1

/-- The package's number is set. -/
def setIdent (s : State) (v : BitVec 64) : State :=
  stopConflicts { s with links := { s.links with ident := v &&& 0x3F, written := true } }

/-- TL_IDENT (R432). -/
def execTlIdent (v : BitVec 64) (s : State) : Out := if s.boot != .running then .next s else .next (setIdent s v)

/-- FLIT_CRC_RETRY (R433): timing only. -/
def execFlitCrcRetry (port : Nat) (s : State) : Out :=
  .next (modPort s port fun p => if p.up then { p with retries := p.retries + 1 } else p)

/-- PORT_DOWN (R433): the count of 1 ms starts. -/
def execPortDown (port : Nat) (s : State) : Out :=
  .next (modPort s port fun p => if p.up then { p with up := false, downAt := some s.tick } else p)

/-- PORT_DOWN_TIMEOUT (R433): after 1 ms the lines through the port fail as they are worked on. -/
def execPortDownTimeout (port : Nat) (s : State) : Out :=
  .next (modPort s port fun p => match p.downAt with
    | some t => if !p.up && decide (t + 100000 ≤ s.tick) then { p with downAt := none } else p
    | none => p)

/-- PORT_UP (R433): a port whose count has run out joins a package anew, which tells its number. -/
def execPortUp (port : Nat) (s : State) : Out :=
  if s.boot != .running then .next s
  else
    let (n, s) := freeNo s
    .next (stopConflicts (modPort s port fun p =>
      if p.up then p
      else { p with up := true, downAt := none, peer := if p.downAt.isSome then p.peer else Config.choice n % 64 }))

/-! ## REMOTE_ACCESS (R432) -/

/-- Whether an agent outside reaches a byte: another package the memories that its far pages name, over a working
port; the host these and its own memory. -/
def outsideReaches (s : State) (who : Obs) (k : Nat) : Bool :=
  let t := k / 2 ^ 60
  match who with
  | .package p => s.links.ports.any (fun q => q.up && !q.stopped && q.peer == p) && decide (16 ≤ t ∧ t ≤ 25)
  | .host => decide (16 ≤ t ∧ t ≤ 25)
  | _ => false

/-- A write from outside, ordered after its agent's earlier ones by a free choice (R72, R86). -/
def outsideWrite (s : State) (who : Obs) (bs : List (Nat × Byte)) : State :=
  putOutside { s with free := s.free + 1 } who bs

/-- REMOTE_ACCESS (R82, R432): a write, or a relaxed combine at the destination; a read changes nothing here. -/
def execRemoteAccess (who : Obs) (r : RemoteReq) (s : State) : Out :=
  if s.boot == .inReset && who != .host then .next s
  else match r with
    | .read _ _ => .next s
    | .write k bs =>
      if (bytesKeyed k bs).all fun b => outsideReaches s who b.1 then .next (outsideWrite s who (bytesKeyed k bs)) else .next s
    | .combine k code e v =>
      let n := elemBytes e
      if (keysFrom n k).all fun b => outsideReaches s who b then
        let old := leNat (s.mem.openBytes 0 s.mem.byte n k)
        .next (outsideWrite s who (bytesAt n k (combineVal code e old v.toNat)))
      else .next s

end Sys2Proof.Machine
end

