-- ==== Sys2Proof/Machine/Power.lean ====
section
/-! DEFINITION. Islands, the power limit and budget steering (24_package_links_power.md R426 to R428). -/

namespace Sys2Proof.Machine

open Sys2Proof

/-- An island's clock stays between 0.6 and 2.1 GHz (R426). -/
def clampKhz (f : Nat) : Nat := min (max f 600000) 2100000

/-- POWER_MEASURE (R427): over the limit, firmware lowers the island frequencies; by how much is free. -/
def execPowerMeasure (watts : Nat) (s : State) : Out :=
  if s.boot != .running then .next s
  else if watts ≤ s.conf.powerW then .next { s with power := { s.power with overLimit := false } }
  else .next { s with free := s.free + 16, power := { s.power with
    overLimit := true,
    khz := (s.power.khz.zipIdx).map fun p =>
      if p.1 ≤ 600000 then p.1 else 600000 + Config.choice (s.free + p.2) % (p.1 - 600000) } }

/-! ## STEER_INTERVAL (R428) -/

/-- Whether fraction `a` is below fraction `b`; a fraction is (waiting, all) group-cycles. -/
def fracLt (a b : Nat × Nat) : Bool := decide (a.1 * b.2 < b.1 * a.2)

/-- The islands that hold groups, with their fractions. -/
def steered (fracs : List (Nat × Nat)) : List (Nat × (Nat × Nat)) :=
  ((fracs.take 16).zipIdx.filter fun p => p.1.2 != 0).map fun p => (p.2, p.1)

/-- One of the entries that none comes before; of several, a free one. -/
def firstBy (before : Nat × Nat → Nat × Nat → Bool) (n : Nat) (xs : List (Nat × (Nat × Nat))) :
    Option (Nat × (Nat × Nat)) :=
  let best := xs.filter fun x => !xs.any fun y => before y.2 x.2
  best[Config.steerTie n % best.length]?

/-- STEER_INTERVAL (R428): 25 MHz go from the island with the highest fraction to the one that has held the
lowest for two intervals, 1/8 below at least. -/
def execSteerInterval (fracs : List (Nat × Nat)) (s : State) : Out :=
  if s.boot != .running || !s.conf.steer then .next s
  else match firstBy fracLt s.steps (steered fracs), firstBy (fun a b => fracLt b a) s.steps (steered fracs) with
    | some lo, some hi =>
      let far := decide (8 * lo.2.1 * hi.2.2 + lo.2.2 * hi.2.2 ≤ 8 * hi.2.1 * lo.2.2)
      let khz := if s.power.lowest == some lo.1 && far then
          (s.power.khz.zipIdx).map fun p =>
            if p.2 = lo.1 then clampKhz (p.1 + 25000) else if p.2 = hi.1 then clampKhz (p.1 - 25000) else p.1
        else s.power.khz
      .next { s with power := { s.power with khz, lowest := some lo.1 } }
    | _, _ => .next { s with power := { s.power with lowest := none } }

end Sys2Proof.Machine
end

