-- ==== Sys2Proof/Machine/Repair.lean ====
section
/-! DEFINITION. The patrol scrubber and error injection (22_reliability.md R405, R410, R418). -/

namespace Sys2Proof.Machine

open Sys2Proof

/-! ## PATROL_SCRUB (R410) -/

/-- The scrubber reads a line: single-bit errors are written back corrected, and a line that cannot be corrected
is poisoned. -/
def scrubLine (s : State) (k : Nat) : State :=
  let ws := damageIn s k 64
  let off (s : State) : State := setMem s fun m => { m with damage := { m.damage with
    words := m.damage.words.filter fun w => !ws.contains w } }
  match ws.find? fun w => dead w.2 with
  | some w =>
    let s := setMem (off s) fun m => { m with damage := { m.damage with
      poison := if m.damage.poison.contains k then m.damage.poison else k :: m.damage.poison } }
    logWord s 0 (0, 0) w.1 4 w.2.toNat
  | none => ws.foldl (fun s w => logWord s 0 (0, 0) w.1 1 w.2.toNat) (off s)

/-- PATROL_SCRUB (R410): one line of the 64 GB of a die's bonded DRAM (R2). -/
def execPatrolScrub (die line : Nat) (s : State) : Out :=
  if s.boot != .running || decide (8 ≤ die) || decide (Config.dramBytes ≤ 64 * line) then .next s
  else .next (scrubLine s (targetKey die (64 * line)))

/-! ## ERRINJ_GO (R418) -/

/-- The word that ERRINJ_ADDR names; none where it names no word of the device (R2, R418). -/
def injWord (a : Nat) : Option Nat :=
  let kind := bitsOf a 63 60
  let die := bitsOf a 59 56
  let index := bitsOf a 55 47
  let addr := bitsOf a 39 0
  if addr % 8 ≠ 0 ∨ 8 ≤ die then none
  else if kind = 1 ∧ index < Config.coresOf die ∧ addr < Config.sliceBytes then some (coreKey die index addr)
  else if kind = 2 ∧ index < 4 ∧ addr < 2 ^ 22 then some (commonsKey die index addr)
  else if kind = 3 ∧ index = 0 ∧ addr < Config.dramBytes then some (targetKey die addr)
  else none

/-- Whether a key lies in a slice that a loaded confidential context maps. -/
def inConfidential (s : State) (k : Nat) : Bool :=
  s.ctxs.any fun c => c.confidential && c.st != .unloaded
    && c.slices.any fun e => decide (sliceKey e 0 ≤ k ∧ k < sliceKey e 0 + 2 ^ 22)

/-- An injection: the word's check bits become those of its data with the mask applied. -/
def inject (s : State) (reserved : Bool) : State :=
  match injWord s.rel.injAddr.toNat with
  | some k =>
    if reserved || s.rel.injReserved || !s.conf.errinj || inConfidential s k then
      { s with rel := { s.rel with injRefused := true, injDone := false } }
    else
      let s := setMem s fun m => { m with damage := { m.damage with
        words := (if s.rel.injXor = 0 then [] else [(k, s.rel.injXor)]) ++ m.damage.words.filter fun w => w.1 != k } }
      { s with rel := { s.rel with injRefused := false, injDone := true } }
  | none => { s with rel := { s.rel with injRefused := true, injDone := false } }

/-- ERRINJ_GO (R418): a write of GO with the CHECK_XOR that the register holds. -/
def execErrinjGo (s : State) : Out :=
  if s.boot != .running then .next s else .next (inject s false)

end Sys2Proof.Machine
end

