-- ==== Sys2Proof/Machine/Watchdog.lean ====
section
/-! DEFINITION. The watchdog: checks, firing, freezes, and the end of a context's launches with their reports
(01_execution_model.md R44 to R46; 18 R373, R374; 08 R201; 22 R416). -/

namespace Sys2Proof.Machine

open Sys2Proof

/-! ## Firing (R44, R45) -/

/-- The watchdog time of a launch: what it ran before a save, and since (R44, R401). -/
def launchTime (s : State) (l : Launch) : Nat :=
  l.elapsed + match l.start with
    | some t => s.tick - t
    | none => 0

/-- Whether a launch has run beyond its queue's limit. -/
def overTime (s : State) (l : Launch) : Bool :=
  l.stage == .running && l.start.isSome && (match queueOf s l.hdr.q with
    | some q => q.limit != 0 && decide (q.limit < launchTime s l)
    | none => false)

/-- The code of a group's state in a watchdog record (R46). -/
def stateCode : GState → Nat
  | .free => 0 | .ready => 1 | .active => 2 | .waiting => 3 | .parked => 4 | .halted => 5

/-- The watchdog fires for a context: its groups are asked to stop, and a save of it is abandoned. -/
def fireContext (s : State) (c : Nat) : State :=
  match ctxOf s c with
  | none => s
  | some x =>
    if x.firedAt.isSome || !(x.st == .loaded || x.st == .saving) then s
    else
      let us := ((heldGroups s).filter fun g => g.ctx == c && g.party.isNone).map (·.uid)
      let s := us.foldl (fun s u => modGroup s u fun g => { g with
        fired := stateCode g.st,
        firedPack := (partiesOf s u).any fun p => p.party.any fun pt => pt.helper != 0 }) s
      let s := if x.st == .saving then
          { s with front := { s.front with ctxStatus := 0x0400 } }
        else s
      let s := modCtx s c fun x => { x with st := .loaded, firedAt := some s.cycle }
      us.foldl (fun s u => askStop s u 5) s

/-- WATCHDOG_CHECK (R44): every 100 ticks. -/
def execWatchdogCheck (s : State) : Out :=
  if s.tick < s.nextWatch ∨ s.boot ≠ .running then .next s
  else
    let late := s.launches.filter (overTime s)
    let s := { s with nextWatch := (s.tick / 100 + 1) * 100,
                      launches := modBy (overTime s) (fun l => { l with fired := true }) s.launches }
    .next ((late.map (·.ctx)).eraseDups.foldl fireContext s)

/-- WATCHDOG_FREEZE (R45): a group that has reached no drain point within 65,536 cycles of the firing stops
where it stands, and so do the parties of a recruiter. -/
def execWatchdogFreeze (u : Nat) (s : State) : Out :=
  match groupOf s u with
  | none => .next s
  | some g =>
    let due := match ctxOf s g.ctx with
      | some c => match c.firedAt with
        | some t => decide (t + 65536 ≤ s.cycle)
        | none => false
      | none => false
    if due && g.party.isNone && g.st != .halted then
      let s := modGroup s u fun g => { g with frozen := true }
      let s := stopQuiet s u 5
      .next ((partiesOf s u).foldl (fun s p => modGroup s p.uid fun p => { p with st := .halted, fast := false }) s)
    else .next s

/-! ## Reports (R46) -/

def condCode : CondV → Nat
  | .token _ => 0 | .fullWord _ => 1 | .emptyWord _ => 2 | .barrier _ _ => 3 | .matrix _ => 4 | .sig _ _ _ => 5

/-- WAIT_INFO of a group that was WAITING or PARKED at the firing. -/
def waitInfo (g : Group) : Nat :=
  let pack (cs : List Nat) (all : Bool) : Nat :=
    (List.range 4).foldl (fun acc i => acc + cs.getD i 15 * 2 ^ (16 + 4 * i)) (all.toNat * 2 ^ 15)
  if g.fired != 3 && g.fired != 4 then pack [] false
  else match g.fe, g.wait with
    | some w, _ => pack [if w.give then 2 else 1] false
    | none, some w =>
      let implicit_ := match w.conds, w.dst with
        | [.barrier _ _], .nothing | _, .arrive _ _ | _, .sync _ => true
        | _, _ => false
      pack (w.conds.map condCode) (w.all && !implicit_)
    | none, none => pack [] false

/-- The snapshot registers of a native group, 24 of them: a 16-byte descriptor with the valid bit, the destination
register, the slot and the bundles left to landing, whose bits no rule places, then the result at 8 bytes a thread
(R303, R402). -/
def snapBytes (g : Group) (n : Native) : List Byte :=
  let place (d : Dst) : List Nat := match d with
    | .v cl i wide => [0, cl, i, wide.toNat]
    | .s i wide => [1, i, wide.toNat]
    | .k i => [2, i]
    | .cvctl => [3]
    | .fmt m => [4, m.toNat]
    | .seed => [5]
    | .tile i _ => [6, i]
  let held := n.pend.filter fun p => decide (p.slot < 9) && decide (n.count < p.land)
  (List.range 24).flatMap fun i => match held[i]? with
    | some p =>
      let d := Config.dumpBits 5 ([1, p.slot, p.land - n.count] ++ place p.dst)
      (d ++ List.replicate 16 0).take 16 ++ (List.range g.width).flatMap fun t => natBytes 8 (getLane p.vals t).toNat
    | none => List.replicate (16 + 8 * g.width) 0

/-- A group's record, with its stop record where it stopped in a software-pipelined loop, and with its snapshot
registers where it is FROZEN (R303). -/
def watchRecord (s : State) (g : Group) : List Byte :=
  let piped := match g.native with
    | some n => n.loop.isSome
    | none => false
  let ppc := if g.st == .halted then g.stopPpc else ppcOf g
  let r := natBytes 32 (recNat [(g.ctx, 224), (teamNo g, 192), (groupNo g, 176),
    (if g.fired = 0 then stateCode .ready else g.fired, 168), (stackDepth g, 160), (ppc.1, 144),
    (ppc.2, 120), (logicalCore s g.ctx g.die g.core, 104), (g.slot, 99), (g.frozen.toNat, 98),
    (g.firedPack.toNat, 97), (piped.toNat, 96), (waitInfo g, 64), (g.active.toNat, 0)])
  let held := match g.native with
    | some n => if g.frozen then snapBytes g n else []
    | none => []
  (if piped then
    r ++ stopRecord s g { stop := 5, code := 0, ppc := g.stopPpc, helper := false, helperIter := 0, recruiter := 0 }
  else r) ++ held

/-- The order of records: by team and group, then the detached groups by logical core and slot. -/
def recordBefore (s : State) (a b : Group) : Bool :=
  let key (g : Group) : Nat × Nat × Nat :=
    if g.kind == .team then (0, teamNo g, g.gidx.toNat)
    else (1, logicalCore s g.ctx g.die g.core, g.slot)
  let (a0, a1, a2) := key a
  let (b0, b1, b2) := key b
  if a0 ≠ b0 then decide (a0 < b0) else if a1 ≠ b1 then decide (a1 < b1) else decide (a2 ≤ b2)

/-- The report of one launch, as one entry of its queue's dump buffer. -/
def watchReport (s : State) (l : Launch) : State :=
  let gs := sortBy (recordBefore s) ((heldGroups s).filter fun g => g.launch == l.uid && g.party.isNone)
  dumpEntry s l.hdr.q l.ctx l.seq.toNat 1 l.fired (gs.flatMap (watchRecord s))

/-! ## Termination (R45, R201, R373, R374) -/

/-- Launches that have neither retired nor been terminated, in order of their sequence numbers. -/
def openLaunches (s : State) (c : Nat) : List Launch :=
  sortBy (fun a b => decide (a.seq.toNat ≤ b.seq.toNat))
    (s.launches.filter fun l => l.ctx == c && l.stage != .retired && l.stage != .terminated)

/-- One launch is terminated: its status, without its signal. A dependant whose producer has not been triggered
whole by then fails with it (R373). -/
def terminateLaunch (s : State) (l : Launch) : State :=
  let failed := l.stage == .waitingProducer && (match launchOf s l.producer with
    | some p => !allTriggered p
    | none => false)
  let s := modLaunch s l.uid fun l => { l with
    stage := .terminated, reports := [], press := [], places := l.places.map fun p => { p with count := 0 } }
  completeWith s l.hdr (if failed then .producerFailed else .watchdog) l.seq failed

/-- The header and sequence number of a launch packet whose start waits. -/
def startingLaunch (s : State) (c : Nat) (x : Instr × Nat × Nat) : Option (PktHdr × BitVec 32) :=
  match x.1 with
  | .launch h _ | .launchChained h _ =>
    if ctxOfQ s h.q = c then some (h, match startedAt s h.q h.n with
      | some { work := .begun (some n), .. } => n
      | _ => 0) else none
  | _ => none

/-- Everything of a context's launches leaves the device: groups with their stores performed, teams, tasks, and
commands with what they have parked (R201). -/
def clearContext (s : State) (c : Nat) : State :=
  let us := ((heldGroups s).filter fun g => g.ctx == c).map (·.uid)
  let s := us.foldl (fun s u => dropGroup (drainGroup s u) u) s
  let mine (u : Nat) : Bool := s.launches.any fun l => l.uid == u && l.ctx == c
  { s with
    cmds := s.cmds.filter fun x => !(x.ctx == c && (match x.by_ with | .group _ _ => true | .packet _ _ => false)),
    teams := s.teams.filter fun t => t.ctx != c,
    tasks := s.tasks.filter fun t => !mine t.launch,
    taskGroups := s.taskGroups.filter fun t => !t.recs.any fun r => mine r.launch,
    samplers := s.samplers.filter fun x => x.ctx != c }

/-- The launches of a context end: when the watchdog fired, the report of each, one without group records for a launch
that had created no team; then their termination, and the context and its queues are FAULTED. A dump holds the
watchdog records, or else the stop records of the groups that had stopped with one (R423). -/
def endContext (s : State) (c : Nat) : State :=
  let ls := openLaunches s c
  let gs := sortBy (recordBefore s) ((heldGroups s).filter fun g => g.ctx == c && g.party.isNone)
  let fired := ls.any fun l => l.fired
  let recs := gs.flatMap fun g => if fired then watchRecord s g
    else g.stopRec
  let s := modCtx s c fun x => { x with faultRecs := recs }
  let s := if fired then ls.foldl watchReport s else s
  let early := s.front.starting.filterMap (startingLaunch s c)
  let s := { s with front := { s.front with
    starting := s.front.starting.filter fun x => (startingLaunch s c x).isNone } }
  let s := if fired then early.foldl (fun s p => dumpEntry s p.1.q c p.2.toNat 1 false []) s else s
  let s := early.foldl (fun s p => completeWith s p.1 .watchdog p.2 false) s
  let s := ls.foldl terminateLaunch s
  let s := clearContext s c
  faultQueues (modCtx s c fun x => { x with st := .faulted, firedAt := none }) c

/-- WATCHDOG_TERMINATE (R45): once every group of the context is HALTED and every helper has left. -/
def execWatchdogTerminate (c : Nat) (s : State) : Out :=
  match ctxOf s c with
  | none => .next s
  | some x =>
    let still (g : Group) : Bool := match g.party with
      | some pt => pt.helper == 0 || pt.gone || g.st == .halted
      | none => g.st == .halted
    if x.firedAt.isSome && ((heldGroups s).filter fun g => g.ctx == c).all still then .next (endContext s c)
    else .next s

end Sys2Proof.Machine
end

