-- ==== Sys2Proof/Machine/SaveArea.lean ====
section
/-! DEFINITION. The image of a save: header, launch records, team records and group records with their sections
(21_context_switch_firmware.md R401, R402; 13 R257; 15 R330). The sections whose bits the spec does not place
hold free bytes. -/

namespace Sys2Proof.Machine

open Sys2Proof

/-! ## Parts -/

/-- Bytes that the spec leaves open. -/
def freeBytes (n base : Nat) : List Byte := (List.range n).map fun i => (Config.freeBits (base + i)).truncate 8

/-- A translation key (R257). -/
def keyBytes (k : TKey) : List Byte :=
  natBytes 64 (recNat [(leNat k.digest, 128), (k.xlat.toNat, 96), (k.fn, 80), (k.budget, 64), (k.tiles, 20),
    (k.minGroups, 8), (k.gen, 4), (Nat.log2 k.width - 4, 2), (k.checked.toNat, 1)])

/-- The logical slice number of a core under a slice map. -/
def logicalIn (es : List SliceEnt) (die core : Nat) : Nat :=
  match es.find? fun e => !e.commons && e.die == die && e.index == core with
  | some e => e.slice
  | none => 0

/-- The translation that a group runs, or was placed with. -/
def recTrans (s : State) (g : Group) : Option Trans :=
  match g.native with
  | some n => transOf s n.tr
  | none => match launchOf s g.launch with
    | some l => unitTrans s l g.die g.core g.unit none
    | none => none

def wordsBytes (ws : List Word) : List Byte := ws.flatMap fun w => natBytes 4 w.toNat

/-- The sections of a native group whose bits the spec places: registers, formats, generator and stack. -/
def nativeSections (g : Group) (n : Native) (img : List Word) : List Byte :=
  let regs := (List.range (imgNc img)).flatMap fun c => (List.range (imgRegs img)).flatMap fun r =>
    (List.range g.width).map fun t => (vregGet n c r).getD t 0
  let queue := wordsBytes g.rq.flatten
  wordsBytes regs ++ wordsBytes n.s ++ n.k.flatMap (fun m => natBytes 8 m.toNat)
    ++ natBytes 4 g.fmt.toNat ++ natBytes 4 n.cvctl.toNat ++ natBytes 4 n.lc.toNat
    ++ wordsBytes [g.gen.x, g.gen.y, g.gen.z, g.gen.w, g.gen.v]
    ++ List.replicate (512 - queue.length) 0 ++ queue ++ natBytes 4 (8 - g.rq.length)
    ++ n.stack.flatMap fun e => natBytes 16 (recNat [(e.mask.toNat, 64), (e.dpc.toNat, 48), (e.rpc.toNat, 32),
        (e.fmt.toNat % 64, 0)])

def isPiped (g : Group) : Bool :=
  match g.native with
  | some n => n.loop.isSome
  | none => false

/-- The image sections of a group. -/
def imageSections (g : Group) (img : List Word) (base : Nat) : List Byte :=
  let known := match g.native with
    | some n => nativeSections g n img
    | none => freeBytes (4 * g.width * g.budget + 256 + 64 + 12 + 20 + 512 + 4 + 16 * stackDepth g) base
  let rems := match g.herd with
    | some h => 64 + 16 * (h.ranges.map fun r => r.rems.length).sum
    | none => 0
  let open_ := 128 + g.tilesHeld * 16400
  let snaps := match g.native with
    | some n => if isPiped g then snapBytes g n else []
    | none => []
  known ++ freeBytes open_ (base + known.length) ++ snaps ++ freeBytes rems (base + known.length + open_)

/-- STATE of a group record: a group that the save itself stopped was ACTIVE. -/
def savedState (g : Group) : Nat := if g.st == .halted && g.stopCode == 0 then 2 else stateCode g.st

/-- One group record (R402). -/
def groupRecord (s : State) (g : Group) (base : Nat) : List Byte :=
  let img := imageOf s g
  let body := imageSections g img base
  let ppc := if g.st == .halted then g.stopPpc else ppcOf g
  let off := match g.native with
    | some n => nextOff n
    | none => 0
  let key := match recTrans s g with
    | some t => keyBytes t.key
    | none => List.replicate 64 0
  let deadline := match g.wait with
    | some w => w.deadline.getD 0
    | none => 0
  let pending := match g.fe with
    | some f => f.pending.toNat
    | none => 0
  key ++ natBytes 64 (recNat [(pending, 288), (g.active.toNat, 224), (low 64 deadline, 160), (low 32 body.length, 128),
    (g.herd.isSome.toNat, 122), ((savedState g == 2 && atMandatory s g).toNat, 121), ((isPiped g).toNat, 120),
    (stackDepth g, 112), (savedState g, 104), (ppc.1, 88), (ppc.2, 64), (off, 48), (g.gidx.toNat, 32),
    (teamNo g, 0)]) ++ body

/-! ## The whole save (R401) -/

/-- A launch record. -/
def launchRecord (s : State) (l : Launch) : List Byte :=
  natBytes 16 (recNat [(low 64 (launchTime s l), 64), (l.seq.toNat, 0)])

/-- The groups that have a record: a recruiter's own party is part of the recruiter's. -/
def recGroups (c : Ctx) : List Group := c.savedGroups.filter fun g => g.party.isNone

/-- The groups in the order of their records, each of a team after its team's record. -/
def savedOrder (c : Ctx) : List (Option Team × List Group) :=
  let gs := recGroups c
  let before (a b : Group) : Bool :=
    let x := logicalIn c.savedSlices a.die a.core
    let y := logicalIn c.savedSlices b.die b.core
    if x ≠ y then decide (x < y) else decide (a.slot ≤ b.slot)
  (c.savedTeams.map fun t => (some t, sortBy (fun (a b : Group) => decide (a.gidx.toNat ≤ b.gidx.toNat))
    (gs.filter fun g => g.kind == .team && g.team == t.uid))) ++ [(none, sortBy before (gs.filter fun g => g.kind != .team))]

/-- Every byte after the header; team records are free bytes, since no rule places their fields. -/
def saveBody (s : State) (c : Ctx) : List Byte :=
  let ls := openLaunches s c.id
  let recs := (savedOrder c).zipIdx.flatMap fun p =>
    let b := s.free + 2 ^ 40 * (p.2 + 1)
    (match p.1.1 with
      | some _ => freeBytes (Config.choice b) (b + 1)
      | none => [])
    ++ (p.1.2.zipIdx.flatMap fun q => groupRecord s q.1 (b + 2 ^ 30 * (q.2 + 1)))
  ls.flatMap (launchRecord s) ++ recs

/-- The header. -/
def saveHeader (s : State) (c : Ctx) (unload : Bool) (len : Nat) : List Byte :=
  natBytes 64 (recNat [((openLaunches s c.id).length, 272), (c.savedTeams.length, 256), (64 + len, 192),
    (c.confidential.toNat, 164), (if unload then 2 else 1, 160), (s.fw.xlat.toNat, 128), (s.fw.version.toNat, 96),
    (c.id, 64), ((recGroups c).length, 48), (s.fw.layout, 32), (0x56534B42, 0)])

/-- The body of a confidential context's save, under its XTS key in data units of 64 bytes. -/
def sealBody (key va : Nat) : (units : Nat) → List Byte → List Byte
  | 0, _ => []
  | n + 1, bs => if bs.isEmpty then [] else Config.xtsEnc key va (bs.take 64) ++ sealBody key (va + 64) n (bs.drop 64)

/-- Writes bytes at a far address, page by page, as they stand; none where one cannot be written. -/
def savePut (ctx : Nat) : (pages va : Nat) → List Byte → State → Option State
  | 0, _, _, s => some s
  | p + 1, va, bs, s =>
    if bs.isEmpty then some s
    else match farKey s ctx va true with
      | (.hit k, s) =>
        let m := 4096 - va % 4096
        savePut ctx p (va + m) (bs.drop m) (putAs s .frontEnd 0 (bytesKeyed k (bs.take m)))
      | _ => none

/-- Writes the save of a context whose record holds what is saved; none while its area cannot be written. -/
def writeSave (s : State) (c : Ctx) (unload : Bool) : Option State :=
  let body := saveBody s c
  let all := saveHeader s c unload body.length
    ++ if c.confidential then sealBody c.xtsKey (c.saveArea + 64) (body.length / 64 + 1) body else body
  (savePut c.id (all.length / 4096 + 2) c.saveArea all s).map fun s => { s with free := s.free + 1 }

end Sys2Proof.Machine
end

