-- ==== Sys2Proof/Machine/Switch.lean ====
section
/-! DEFINITION. Saving, restoring and migrating contexts, and the staging and activation of firmware
(21_context_switch_firmware.md R399 to R404; 13 R282; 03 R88; 20 R390, R397; 22 R413). -/

namespace Sys2Proof.Machine

open Sys2Proof

/-! ## Requests (R399) -/

def ctlBusy (s : State) : Bool := bitOf s.front.ctxStatus.toNat 0

/-- A request is in progress: CTX_OP holds it, and CTX_STATUS reads BUSY. -/
def ctlStart (s : State) (op ctx : Nat) (mig : Bool) : State :=
  { s with front := { s.front with
      ctxOp := BitVec.ofNat 64 (recNat [(mig.toNat, 36), (op, 32), (ctx % 2 ^ 32, 0)]), ctxStatus := 1 } }

/-- A request is complete, with its RESULT. -/
def ctlEnd (s : State) (result : Nat) : State :=
  { s with front := { s.front with ctxStatus := BitVec.ofNat 64 (result * 256) } }

/-- Whether the request in progress is about a context. -/
def ctlAbout (s : State) (ctx : Nat) : Bool := ctlBusy s && s.front.ctxOp.toNat % 2 ^ 32 == ctx

/-! ## Saving (R400) -/

/-- The bytes that a save keeps beside the records: near address, key and length of team regions and spill areas,
and, for UNLOAD, of the windows. -/
def regionRanges (ts : List Team) (gs : List Group) : List (Nat × Nat) :=
  (ts.map fun t => (coreKey t.die t.core t.regionOff, t.regionLen))
    ++ (gs.filter fun g => g.party.isNone).map fun g => (coreKey g.die g.core g.spillOff, g.spillLen)

def windowRanges (c : Ctx) : List (Nat × Nat) :=
  c.windows.filterMap fun w => (c.slices.find? fun e => e.slice == w.slice).map fun e =>
    (sliceKey e (w.base * 256), (w.limit + 1 - w.base) * 256)

def cellsIn (m : Mem) (rs : List (Nat × Nat)) : List Host.Cell :=
  m.bytes.filter fun c => rs.any fun r => decide (r.1 ≤ c.1 ∧ c.1 < r.1 + r.2)

def fullIn (m : Mem) (rs : List (Nat × Nat)) : List Nat :=
  m.full.filter fun k => rs.any fun r => decide (r.1 ≤ k ∧ k < r.1 + r.2)

/-- The slices of a confidential context are cleared when it is unloaded (R397). -/
def clearSlices (s : State) (es : List SliceEnt) : State :=
  es.foldl (fun s e => setMem s fun m => m.clear (sliceKey e 0) (2 ^ 22)) s

/-- The windowed contents join the save, and the slices are released. -/
def releaseSlices (s : State) (c : Ctx) : State :=
  let rs := windowRanges c
  let s := modCtx s c.id fun x => { x with
    savedBytes := x.savedBytes ++ cellsIn s.mem rs, savedFull := x.savedFull ++ fullIn s.mem rs,
    savedWindows := c.windows, saveUnload := true, slices := [], windows := [] }
  if c.confidential then clearSlices s c.slices else s

/-- Whether everything of a context has stopped and drained. -/
def saveReady (s : State) (c : Nat) : Bool :=
  ((heldGroups s).filter fun g => g.ctx == c).all fun g =>
    (cmdsBy s g.uid).isEmpty && g.batchesDone == g.mfences && (match g.party with
      | some pt => pt.helper == 0 && !pt.begun
      | none => g.st != .active)

/-- What a context holds on the device moves into its record. -/
def gather (s : State) (c : Ctx) : State :=
  let us := ((heldGroups s).filter fun g => g.ctx == c.id).map (·.uid)
  let s := us.foldl (fun s u => publish s u .package) s
  let gs := ((heldGroups s).filter fun g => g.ctx == c.id).map fun g => { g with fast := false }
  let ts := s.teams.filter fun t => t.ctx == c.id
  let mine (u : Nat) : Bool := s.launches.any fun l => l.uid == u && l.ctx == c.id
  let rs := regionRanges ts gs
  let s := modCtx s c.id fun x => { x with
    st := .saved, savedGroups := x.savedGroups ++ gs, savedTeams := x.savedTeams ++ ts,
    savedTasks := x.savedTasks ++ s.taskGroups.filter fun t => t.recs.any fun r => mine r.launch,
    savedRecs := x.savedRecs ++ s.tasks.filter fun t => mine t.launch,
    savedBytes := x.savedBytes ++ cellsIn s.mem rs, savedFull := x.savedFull ++ fullIn s.mem rs,
    savedSlices := x.slices,
    savedLayout := s.fw.layout, savedXlat := s.fw.xlat }
  let s := us.foldl dropGroup s
  { s with
    teams := s.teams.filter fun t => t.ctx != c.id,
    taskGroups := s.taskGroups.filter fun t => !t.recs.any fun r => mine r.launch,
    tasks := s.tasks.filter fun t => !mine t.launch,
    samplers := s.samplers.filter fun x => x.ctx != c.id,
    launches := modBy (fun l => l.ctx == c.id && l.stage == .running)
      (fun l => { l with elapsed := launchTime s l, start := none }) s.launches }

/-! ## Firmware activation (R404) -/

/-- Whether the staged image may take over from what the saves hold: none, or the outcome of the refusal. -/
def stagedBar (s : State) (f : FwImage) : Option Nat :=
  let saved := s.ctxs.filter fun c => c.st == .saved && !c.saveUnload
  if saved.any fun c => c.savedLayout != f.layout && c.savedLayout + 1 != f.layout then some 2
  else if f.xlat != s.fw.xlat && saved.any (fun c => c.savedGroups.any isPiped) then some 3
  else none

/-! ## Restoring (R403) -/

/-- What a restore needs next. -/
inductive Restored where
  | ok (s : State)
  /-- translations are still to be made (R403) -/
  | waits (s : State)
  | refused (result : Nat)

/-- The physical core under the new map of a core under the saved one. -/
def movedCore (old new : List SliceEnt) (die core : Nat) : Option (Nat × Nat) :=
  match old.find? fun e => !e.commons && e.die == die && e.index == core with
  | none => none
  | some e => (new.find? fun x => !x.commons && x.slice == e.slice).map fun x => (x.die, x.index)

/-- The clause and bundle of a native offset. -/
def clauseAt (img : List Word) (off : Nat) : (fuel start : Nat) → Option (Nat × Nat)
  | 0, _ => none
  | n + 1, c =>
    let next := c + 2 + bitsOf (imgUnit img c) 23 20
    if c < off ∧ off < next then some (c, off - c - 1) else clauseAt img off n next

/-- The portable PCs of an entry and of its callers. -/
def ppcChain (img : List Word) : (fuel : Nat) → SideEnt → List (Nat × Nat)
  | 0, _ => []
  | n + 1, e => e.ppc :: if e.caller = 0xFFFFF then [] else ppcChain img n (sideEnt img e.caller)

/-- The entry of one translation that stands where an entry of another does. -/
def twinEntry (old new : List Word) (e : SideEnt) : Option SideEnt :=
  let chain := ppcChain old (imgSideCount old + 1) e
  ((List.range (imgSideCount new)).map (sideEnt new)).find? fun x =>
    x.ppc == e.ppc && x.kind / 8 % 2 == 0 && ppcChain new (imgSideCount new + 1) x == chain

/-- A target of the reconvergence stack in another translation: the entry of the bundle there says where; where
it has none, the spec says nothing. -/
def movedTarget (old new : List Word) (n : Nat) (d : BitVec 15) : BitVec 15 :=
  match (entryAt old (d.toNat + 1)).bind (twinEntry old new) with
  | some x => BitVec.ofNat 15 (x.off - 1)
  | none => (Config.freeBits n).truncate 15

/-- The type under which a class of a unit's values moves. -/
def classTy (c : RClass) (size : Nat) : Ty × Bool :=
  match c with
  | .p => (.i1, false)
  | .u => (if size = 2 then .i64 else .i32, true)
  | _ => (if size = 2 then .i64 else .i32, false)

/-- A live value moves from its place in the old image, as state `src` holds it, to its place in the target
translation's. -/
def moveValue (src s : State) (u : Nat) (old : Group) (oldImg : List Word) (v : UVal) (a b : LiveItem) : State :=
  if b.kind = 5 then
    match old.native.bind fun n => assocGet (a.pay % 16) n.t with
    | some t => modGroup s u fun g => setNative g fun n => { n with t := assocSet (b.pay % 16) t n.t }
    | none => s
  else if b.kind = 0 ∨ b.kind = 4 ∨ b.kind = 6 then s
  else
    let (ty, uni) := classTy v.cls v.size
    let xs := if a.kind = 6 then some ((List.range old.width).map fun t =>
        lane (identity { src with cur := old } (a.pay % 256) t))
      else getLoc src old oldImg ty uni a.kind a.pay
    match xs with
    | some xs => putLoc s u ty uni b.kind b.pay xs
    | none => s

/-- The entries of a drain point in a native group's image and in a target's. -/
def movePlace (oldImg new : List Word) (n : Native) : Option (SideEnt × SideEnt) :=
  match (entryAt oldImg (nextOff n)).bind fun e => (twinEntry oldImg new e).map fun x => (e, x) with
  | some (e, x) => if e.kind % 2 = 1 ∧ x.kind % 2 = 1 then some (e, x) else none
  | none => none

/-- A native group in the target translation, at the entry of its portable PC; `old` is the group as it stood at its
drain point, with every result due there landed (R302), and `src` the state that holds what it had (R282, R403). The
rules move live values and say nothing of CVCTL, which is a native register: DESIGN CHOICE, it starts at 0 as in a new
group (unsafe where a translation takes it from before the drain point; `imageOk` accepts none that does). -/
def migrate (src s : State) (ws : List Word) (old : Group) (oldImg : List Word) (t : Trans) : Option State :=
  let old := landDue old
  let n := old.native.getD (Native.start t.uid)
  match movePlace oldImg t.image n with
  | none => none
  | some (e, x) =>
    match clauseAt t.image x.off (imgCodeUnits t.image + 1) 1 with
    | none => none
    | some (c, b) =>
      let u := inlined ws old.unit
      let chain := entryChain t.image u x
      let stack := (n.stack.zipIdx).map fun p => { p.1 with
        dpc := movedTarget oldImg t.image (s.free + 2 * p.2) p.1.dpc,
        rpc := movedTarget oldImg t.image (s.free + 2 * p.2 + 1) p.1.rpc }
      let fresh := { Native.start t.uid with
        clause := c, bundle := b, count := n.count, flags := n.flags, stack,
        clmode := BitVec.ofNat 4 (bitsOf (imgUnit t.image c) 27 24), regClause := c, regActive := old.active,
        regStack := stack, regFmt := old.fmt, regGen := old.gen, regRq := old.rq, inHerd := n.inHerd,
        ppc := x.ppc, at_ := (c, b) }
      let s := modGroup { s with free := s.free + 2 * n.stack.length } old.uid fun g => { g with native := some fresh }
      some ((liveItems t.image x).foldl (fun s it =>
        match (liveItems oldImg e).find? (fun a => a.frame == it.frame && a.value == it.value),
              chain[it.frame]? with
        | some a, some j => match u.vals.find? fun v => v.key == (j, it.value) with
          | some v => moveValue src s old.uid old oldImg v a it
          | none => s
        | _, _ => s) s)

/-- The translation of a saved group's key for a generation and the running translator version. -/
def targetOf (s : State) (l : Launch) (t : Trans) (die : Nat) : Option Trans :=
  findTrans s { t.key with gen := Config.genCode die, xlat := s.fw.xlat } (ownerOf s l.ctx)

/-- How a saved group goes on where it is restored. -/
inductive Going where
  /-- its image as written, in a translation; `on` where it has yet to move from there (R282) -/
  | stays (t : Trans) (on : Bool)
  | moves (t : Trans) (oldImg : List Word)
  | waits
  | never

/-- How a saved group goes on at a die (R282, R304, R403): as written where its key names a translation for the
generation and the running version; else in the target translation at the entry of its PC. Where it stands in a wait, or
at a PC that has no entry there, it runs on in its own translation first, if that is one for the generation; else it
cannot be placed. -/
def goingOf (s : State) (l : Launch) (g : Group) (die : Nat) : Going :=
  match recTrans s g with
  | none => .never
  | some t =>
    if g.native.isNone || (t.key.gen == Config.genCode die && t.key.xlat == s.fw.xlat) then .stays t false
    else if isPiped g then .never
    else match targetOf s l t die, g.native with
      | none, _ | _, none => .waits
      | some x, some n =>
        if g.wait.isNone && g.fe.isNone && (movePlace t.image x.image n).isSome then .moves x t.image
        else if t.key.gen == Config.genCode die then .stays t true
        else .never

/-- Requests of a restore for a translation that is not there. -/
def askTrans (s : State) (l : Launch) (g : Group) (die core : Nat) : State :=
  match recTrans s g with
  | none => s
  | some t =>
    let unit := unitCode (t.key.fn, t.key.budget)
    if l.reports.any fun r => r.1 == die && r.2.1 == core / 16 && r.2.2.1 == unit then s
    else modLaunch s l.uid fun l =>
      { l.ask die (core / 16) s.steps with reports := (die, core / 16, unit, .pending) :: l.reports }

/-- Puts saved bytes back where a range stands now: the range is cleared, then its listed bytes are written. -/
def putRange (s : State) (c : Ctx) (from_ to_ len : Nat) : State :=
  let cells := (c.savedBytes.filter fun b => decide (from_ ≤ b.1 ∧ b.1 < from_ + len)).map fun b => (b.1 - from_ + to_, b.2)
  let full := (c.savedFull.filter fun k => decide (from_ ≤ k ∧ k < from_ + len)).map fun k => k - from_ + to_
  let s := setMem s fun m => m.clear to_ len
  let s := if cells.isEmpty then s else putWith s .frontEnd .package [] 0 cells
  setMem s fun m => full.foldl (fun m k => m.setFull k true) m

/-- The claim and place of one restored group on its new core, when it fits there. -/
def seatSaved (s : State) (die core budget width tiles spill : Nat) : Option (Nat × Nat) :=
  if coreUsable s die core && coreFits die (claimsOn s die core) 1 budget width tiles then
    match pick s.free (freeSlots s die core), poolFind s.free 1 (poolBase s die) (poolBytes s die) spill (areasOn s die core) with
    | some slot, some off => some (slot, off)
    | _, _ => none
  else none

/-- Carries out a restore step on what has been restored so far; a translation to be made does not stop the
requests for the others. -/
def Restored.andThen (r : Restored) (f : State → Restored) : Restored :=
  match r with
  | .ok s => f s
  | .waits s => match f s with
    | .ok s | .waits s => .waits s
    | .refused n => .refused n
  | .refused n => .refused n

/-- A saved group takes its place on the new core: the claim it holds, and its state as saved or migrated. It takes a
new age (R23), its stores are visible at package scope, and it goes on with an acquire there (R88). -/
def restoreGroup (s : State) (c : Ctx) (new : List SliceEnt) (g : Group) : Restored :=
  match movedCore c.savedSlices new g.die g.core, launchOf s g.launch with
  | some (die, core), some l =>
    let put (t : Trans) (spill budget : Nat) (on : Bool) : Restored :=
      match seatSaved s die core budget g.width g.tilesHeld spill with
      | none => .refused 3
      | some (slot, off) =>
        let (age, s) := fresh s
        let st := if g.st == .active || (g.st == .halted && g.stopCode == 0) then .ready else g.st
        let g' : Group := { g.acquire .package s.steps [] with
          die, core, slot, age, st, spillOff := off, spillLen := spill, budget, stopReq := 0, moves := on }
        let s := { s with others := g' :: s.others, free := s.free + 1 }
        let s := if g.kind == .team then modTeam s g.team fun t => { t with held := t.held ++ [Group.claim g'] } else s
        let s := putRange s c (coreKey g.die g.core g.spillOff) (coreKey die core off) (min g.spillLen spill)
        match ensureCached (startSampler s g.ctx die core) die (core / 16) g.ctx t with
        | none => .waits s
        | some s => .ok s
    match goingOf s l g die with
    | .never => .refused 3
    | .waits => .waits (askTrans s l g die core)
    | .stays t on => put t g.spillLen g.budget on
    | .moves t oldImg =>
      (put t (t.spillUnits * 256) t.budget false).andThen fun s =>
        -- the saved spill area is read where the save holds it
        match migrate { s with mem := { s.mem with bytes := c.savedBytes, hist := [] } } s l.words g oldImg t with
        | some s => .ok s
        | none => .refused 3
  | _, _ => .refused 3

/-- DRAIN_POINT_STOP (R302, R345, R400): a group asked to stop stands before an effective drain point, or has left ACTIVE
since and stops at once. One that still has to move to the translation in force does so before an effective drain point
that is mandatory (R282). -/
def execDrainPointStop (u : Nat) (s : State) : Out :=
  match groupOf s u with
  | none => .next s
  | some g =>
    if g.party.isNone && g.st != .halted && mustStop s g && (g.st != .active || stopsHere s g) then .next (stopNow s g)
    else if !movesHere s g then .next s
    else match launchOf s g.launch, recTrans s g with
      | some l, some t => match targetOf s l t g.die with
        | some x => match ensureCached s g.die (g.core / 16) g.ctx x with
          | some s1 =>
            .next ((migrate s1 (modGroup s1 u fun g => { g with moves := false }) l.words g t.image x).getD s)
          | none => .next s
        | none => .next s
      | _, _ => .next s

/-- The offset of a restored team's region: the one that it had, which programs hold in near addresses (R3, R403); none
where the pool does not have it free. -/
def regionBack (s : State) (die core : Nat) (t : Team) : Option Nat :=
  if t.regionLen = 0 ∨ poolOk (poolBase s die) (poolBytes s die) t.regionLen (areasOn s die core) t.regionOff then
    some t.regionOff
  else none

/-- A saved team takes its cores: its barriers as they were, its region moved with its bits. -/
def restoreTeam (s : State) (c : Ctx) (new : List SliceEnt) (t : Team) : Restored :=
  match movedCore c.savedSlices new t.die t.core with
  | none => .refused 3
  | some (die, core) =>
    let mates := c.savedGroups.filterMap fun g =>
      if g.kind == .team && g.team == t.uid then movedCore c.savedSlices new g.die g.core else none
    let together := mates.all fun m => m.1 == die && (if t.brace then m.2 / 2 == core / 2 else m.2 == core)
    if !together || decide (Config.hardBarriers < barriersOn s die core + t.nbar) then .refused 3
    else match regionBack s die core t with
      | none => .refused 3
      | some off =>
        let s := { s with teams := s.teams ++ [{ t with die, core, regionOff := off, held := [] }] }
        .ok (putRange s c (coreKey t.die t.core t.regionOff) (coreKey die core off) t.regionLen)

/-- A record of a task in a restored context, at the core that its home core's logical number names now. -/
def movedTask (c : Ctx) (new : List SliceEnt) (r : Task) : Task :=
  match movedCore c.savedSlices new r.die r.core with
  | some (die, core) => { r with die, core }
  | none => r

/-- The windowed contents of an unloaded context, in the slices that carry their numbers now. -/
def restoreWindows (s : State) (c : Ctx) (new : List SliceEnt) : State :=
  c.savedWindows.foldl (fun s w =>
    match c.savedSlices.find? fun e => e.slice == w.slice, new.find? fun e => e.slice == w.slice with
    | some e, some x => putRange s c (sliceKey e (w.base * 256)) (sliceKey x (w.base * 256)) ((w.limit + 1 - w.base) * 256)
    | _, _ => s) s

/-- The whole restore of a saved context (R403): its load, then its teams, groups and tasks. -/
def restore (s : State) (c : Ctx) : Restored :=
  if c.savedLayout ≠ s.fw.layout ∧ c.savedLayout + 1 ≠ s.fw.layout then .refused 2
  else match s.front.queues.find? fun q => q.ctx == c.id with
    | none => .refused 1
    | some qu =>
      match loadCtx (modCtx s c.id fun x => { x with st := .unloaded }) qu with
      | (.refused .format, _) => .refused 5
      | (.refused _, _) | (.parked _, _) => .refused 3
      | (.ok, s1) =>
        let new := match ctxOf s1 c.id with
          | some x => x.slices
          | none => []
        let s1 := restoreWindows s1 c new
        let teams : Restored :=
          c.savedTeams.foldl (fun (r : Restored) t => r.andThen fun s => restoreTeam s c new t) (.ok s1)
        let r : Restored := ((savedOrder c).flatMap (·.2)).foldl
          (fun (r : Restored) g => r.andThen fun s => restoreGroup s c new g) teams
        match r with
        | .refused n => .refused n
        | .waits t =>
          -- only the requests for translations stay
          .waits { s with launches := t.launches, trans := t.trans, cache := t.cache }
        | .ok s =>
          let own := (c.savedGroups.filter fun g => g.party.isSome).map fun g =>
            match movedCore c.savedSlices new g.die g.core with
            | some (die, core) => { g.acquire .package s.steps [] with die, core, party := g.party.map fun p => { p with die, core } }
            | none => g
          .ok { (modCtx s c.id fun x => { x with
                savedGroups := [], savedTeams := [], savedTasks := [], savedRecs := [], savedBytes := [],
                savedFull := [], savedSlices := [], savedWindows := [], saveUnload := false }) with
              others := own ++ s.others,
              tasks := s.tasks ++ c.savedRecs.map (movedTask c new),
              taskGroups := s.taskGroups ++ c.savedTasks.map fun t => { t with recs := t.recs.map (movedTask c new) },
              launches := modBy (fun l => l.ctx == c.id && l.stage == .running)
                (fun l => { l with start := some s.tick, reports := [] }) s.launches }

/-- The end of a restore: its result, and the firmware activation that asked for it. -/
def endRestore (s : State) (ctx result : Nat) : State :=
  let s := { s with fw := { s.fw with suspended := s.fw.suspended.filter fun c => c != ctx } }
  if ctlAbout s ctx then ctlEnd s result else s

/-- Whether a translation that a restore waits for has failed. -/
def restoreFailed (s : State) (ctx : Nat) : Bool :=
  s.launches.any fun l => l.ctx == ctx && l.reports.any fun r => r.2.2.2 == .limit || r.2.2.2 == .verify

def restoreCtx (s : State) (ctx : Nat) : State :=
  match ctxOf s ctx with
  | none => s
  | some c =>
    if restoreFailed s ctx then endRestore s ctx 3
    else match restore s c with
      | .ok s => endRestore s ctx 0
      | .waits s => s
      | .refused n => endRestore s ctx n

/-! ## Activation -/

/-- The staged image takes over, or is refused; after an activation the contexts suspended for it resume. -/
def finishActivation (s : State) : State :=
  match s.fw.staged with
  | none => { s with fw := { s.fw with pending := false } }
  | some f =>
    match stagedBar s f with
    | some n => { s with fw := { s.fw with pending := false, suspended := [], outcome := n } }
    | none =>
      let s := { s with fw := { s.fw with
        version := f.version, xlat := f.xlat, layout := f.layout, staged := none, pending := false, outcome := 1 } }
      s.fw.suspended.foldl restoreCtx s

def anySaving (s : State) : Bool := s.ctxs.any fun c => c.st == .saving || (c.st == .loaded && s.fw.suspended.contains c.id)

/-- CONTEXT_SAVE (R400). -/
def execContextSave (ctx : Nat) (s : State) : Out :=
  match ctxOf s ctx with
  | none => .next s
  | some c =>
    if c.st != .saving || !saveReady s ctx then .next s
    else
      let s1 := gather s c
      match ctxOf s1 ctx with
      | none => .next s
      | some c1 =>
        match writeSave s1 c1 c.saveUnload with
        | none => .next s
        | some s1 =>
          let s1 := if c.saveUnload then releaseSlices s1 c1 else s1
          let s1 := if ctlAbout s1 ctx then ctlEnd s1 0 else s1
          .next (if s1.fw.pending && !anySaving s1 then finishActivation s1 else s1)

/-- The save that SUSPEND or UNLOAD asks for. A context that stands suspended is saved again with
what it still holds on the device. -/
def askSave (s : State) (ctx : Nat) (unload mig : Bool) : State :=
  let s1 := ctlStart s (if unload then 2 else 1) ctx mig
  match ctxOf s ctx with
  | none => ctlEnd s1 1
  | some c =>
    match c.st with
    | .unloaded => ctlEnd s1 1
    | .faulted => ctlEnd s1 4
    | .loaded => if c.firedAt.isSome then ctlEnd s1 4 else beginSave s1 ctx unload mig
    | .saving => modCtx s1 ctx fun c => { c with saveUnload := unload, saveMig := mig }
    | .saved =>
      if !unload || c.saveUnload then ctlEnd s1 1
      else modCtx s1 ctx fun c => { c with st := .saving, saveUnload := true, saveMig := mig }

/-- SUSPEND (R399, R400). -/
def execSuspend (ctx : Nat) (mig : Bool) (s : State) : Out :=
  if s.boot != .running || ctlBusy s then .next s else .next (askSave s ctx false mig)

/-- UNLOAD (R399, R400). -/
def execUnload (ctx : Nat) (mig : Bool) (s : State) : Out :=
  if s.boot != .running || ctlBusy s then .next s else .next (askSave s ctx true mig)

/-- The restore that RESUME asks for. -/
def askRestore (s : State) (ctx : Nat) : State :=
  let s1 := ctlStart s 3 ctx false
  match ctxOf s ctx with
  | some c => match c.st with
    | .saved => restoreCtx s1 ctx
    | .faulted => ctlEnd s1 4
    | _ => ctlEnd s1 1
  | none => ctlEnd s1 1

/-- RESUME (R399, R403). A restore that waits for translations goes on with the same request. -/
def execResume (ctx : Nat) (s : State) : Out :=
  if s.boot != .running then .next s
  else if (ctlAbout s ctx && bitsOf s.front.ctxOp.toNat 35 32 == 3) || (s.fw.suspended.contains ctx && !s.fw.pending) then
    .next (restoreCtx s ctx)
  else if ctlBusy s then .next s
  else .next (askRestore s ctx)

/-- ACTIVATE_FIRMWARE (R404): every loaded context is suspended under the running firmware, and then the staged
image is put into force or refused. -/
def execActivateFirmware (s : State) : Out :=
  if s.boot != .running || s.fw.staged.isNone || s.fw.pending then .next s
  else
    let on := (s.ctxs.filter fun c => c.st == .loaded || c.st == .saving).map (·.id)
    let s := on.foldl (fun s c => beginSave s c false false)
      { s with fw := { s.fw with pending := true, suspended := on } }
    .next (if anySaving s then s else finishActivation s)

/-- FIRMWARE_UPDATE (R404, R429): PLDM stages an image; in recovery this alone is answered. -/
def execFirmwareUpdate (f : FwImage) (s : State) : Out :=
  match s.boot with
  | .inReset => .next s
  | _ => .next { s with fw := { s.fw with staged := some f } }

end Sys2Proof.Machine
end

