-- ==== Sys2Proof/Machine/Registers.lean ====
section
/-! DEFINITION. Writes to the registers of BAR0 (19_far_translation_faults.md R385; 21 R399; 22 R418; 23 R424;
24 R432; 18 R375, R435; 00 R8): a reserved field ignores writes, and a read-only register does. -/

namespace Sys2Proof.Machine

open Sys2Proof

/-- What a read of a fault register of a die returns (R385). -/
def readDie (d : Die) (off : Nat) : Nat :=
  match off with
  | 0x00 => d.fbBase.toNat
  | 0x08 => d.fbCtl.toNat
  | 0x10 => d.fbWrite.toNat
  | 0x18 => d.fbRead.toNat
  | 0x20 => d.gen.toNat
  | 0x28 => d.busy.toNat + 2 * d.killOvf.toNat
  | 0x30 => d.killVa.toNat
  | 0x40 => d.overflow
  | _ => 0

/-- What a read of an error log or injection register returns (R418): GO reads as zero. -/
def readRel (r : Rel) (off : Nat) : Nat :=
  match off with
  | 0x00 => r.errBase.toNat
  | 0x08 => r.errCtl.toNat
  | 0x10 => r.injAddr.toNat
  | 0x18 => r.injXor.toNat + 2 ^ 17 * r.injDone.toNat + 2 ^ 18 * r.injRefused.toNat
  | _ => 0

/-- What a read of DUMP_STATUS returns (R424). -/
def readDumpStatus (f : Field) : Nat :=
  recNat [(f.dumpBytes, 32), (f.ignored, 16), (f.done.toNat, 1), (f.writing.isSome.toNat, 0)]

/-- What a read of the 8-byte register at `a` returns (R8): a reserved field and a field that only a write gives a
meaning read as zero. -/
def readReg (s : State) (a : Nat) : Nat :=
  if 0x200000 ≤ a ∧ a < 0x208000 then readDie (dieAt s ((a - 0x200000) / 0x1000)) (a % 0x1000)
  else if a = 0x300000 then s.front.ctxOp.toNat
  else if a = 0x300008 then s.front.ctxStatus.toNat
  else if 0x310000 ≤ a ∧ a < 0x310020 then readRel s.rel (a - 0x310000)
  else if a = 0x320008 then readDumpStatus s.field
  else if a = 0x330000 then s.links.ident.toNat
  else if 0x340000 ≤ a ∧ a < 0x340A80 then
    if a % 16 = 0 then (s.front.xevBase.getD ((a - 0x340000) / 16) 0).toNat
    else (s.front.xevCtl.getD ((a - 0x340000) / 16) 0).toNat
  else if 0x350000 ≤ a ∧ a < 0x350088 then qtReg s ((a - 0x350000) / 8)
  else 0

/-- The registers whose upper half is reserved throughout, so that a 4-byte write of it does nothing (R8). -/
def lowOnly (a : Nat) : Bool :=
  if 0x200000 ≤ a ∧ a < 0x208000 then [0x08, 0x18, 0x28, 0x38].contains (a % 0x1000)
  else [0x310008, 0x310018, 0x320000, 0x330000].contains a
    || (decide (0x340000 ≤ a ∧ a < 0x340A80) && a % 16 == 8)

def regBits (x hi lo : Nat) : BitVec 64 := BitVec.ofNat 64 (bitsOf x hi lo * 2 ^ lo)

/-- A write to a fault register of a die (R385). -/
def writeDie (s : State) (die off v : Nat) : State :=
  match off with
  | 0x00 => modDie s die fun d => { d with fbBase := regBits v 51 12 }
  | 0x08 => modDie s die fun d => { d with fbCtl := regBits v 0 0 ||| regBits v 12 8 }
  | 0x18 => modDie s die fun d => { d with fbRead := BitVec.ofNat 32 v }
  | 0x28 => if bitOf v 0 && !(dieAt s die).busy then flushDie s die else s
  | 0x30 => modDie s die fun d => { d with killVa := regBits v 56 12 }
  | 0x38 => queueKill s die (BitVec.ofNat 32 v)
  | _ => s

/-- A write to CTX_OP (R399). -/
def writeCtxOp (s : State) (v : Nat) : State :=
  if ctlBusy s then s
  else
    let ctx := v % 2 ^ 32
    match bitsOf v 63 37, bitsOf v 35 32 with
    | 0, 1 => askSave s ctx false (bitOf v 36)
    | 0, 2 => askSave s ctx true (bitOf v 36)
    | 0, 3 => askRestore s ctx
    | _, _ => ctlEnd { s with front := { s.front with ctxOp := BitVec.ofNat 64 (v % 2 ^ 37) } } 5

/-- A write to an error log or injection register (R418). -/
def writeRel (s : State) (off v : Nat) : State :=
  match off with
  | 0x00 => { s with rel := { s.rel with errBase := BitVec.ofNat 64 v } }
  | 0x08 => { s with rel := { s.rel with errCtl := regBits v 4 0 } }
  | 0x10 => { s with rel := { s.rel with
      injAddr := regBits v 63 47 ||| regBits v 39 0, injReserved := bitsOf v 46 40 != 0 } }
  | 0x18 =>
    let s := { s with rel := { s.rel with injXor := BitVec.ofNat 8 v } }
    if bitOf v 16 then inject s (bitsOf v 63 19 != 0 || bitsOf v 15 8 != 0) else s
  | _ => s

/-- A write of a whole register. -/
def writeReg (s : State) (a v : Nat) : State :=
  if 0x200000 ≤ a ∧ a < 0x208000 then writeDie s ((a - 0x200000) / 0x1000) (a % 0x1000) v
  else if a = 0x300000 then writeCtxOp s v
  else if 0x310000 ≤ a ∧ a < 0x310020 then writeRel s (a - 0x310000) v
  else if a = 0x320000 then (if bitOf v 0 then startDump s 2 else s)
  else if a = 0x330000 then setIdent s (BitVec.ofNat 64 v)
  else if 0x340000 ≤ a ∧ a < 0x340A80 then
    let p := (a - 0x340000) / 16
    { s with front := if a % 16 = 0 then
        { s.front with xevBase := s.front.xevBase.set p (BitVec.ofNat 64 v) }
      else { s.front with xevCtl := s.front.xevCtl.set p (regBits v 5 0) } }
  else if 0x350000 ≤ a ∧ a < 0x350088 then
    { s with front := { s.front with
        qtBase := s.front.qtBase.set ((a - 0x350000) / 8) (regBits v 51 12 ||| regBits v 0 0) } }
  else s

/-- REGISTER_WRITE (R8): a write of 8 bytes at a register, or of 4 bytes at either half of one. -/
def execRegisterWrite (addr : Nat) (wide : Bool) (v : BitVec 64) (s : State) : Out :=
  if s.boot != .running || addr % (if wide then 8 else 4) != 0 then .next s
  else if wide then .next (writeReg s addr v.toNat)
  else
    let a := addr / 8 * 8
    if lowOnly a && addr % 8 == 4 then .next s else
    let old := readReg s a
    let x := v.toNat % 2 ^ 32
    .next (writeReg s a (if addr % 8 = 0 then old / 2 ^ 32 * 2 ^ 32 + x else x * 2 ^ 32 + old % 2 ^ 32))

end Sys2Proof.Machine
end

