-- ==== Sys2Proof/Machine/Sampling.lean ====
section
/-! DEFINITION. The stall samplers (17_debug_profile.md R351 to R354). -/

namespace Sys2Proof.Machine

open Sys2Proof

/-- The group contexts of a context that a core holds, by number. -/
def heldSlots (s : State) (die core ctx : Nat) : List Group :=
  sortBy (fun a b => decide (a.slot ≤ b.slot))
    ((heldGroups s).filter fun g => g.party.isNone && g.ctx == ctx && g.die == die && g.core == core)

/-- The one with the next higher number after the last selected, wrapping. -/
def nextSample (gs : List Group) (last : Option Nat) : Option Group :=
  match last with
  | none => gs.head?
  | some n => (gs.find? fun g => decide (n < g.slot)).or gs.head?

/-- The native offset of a group's subject bundle: the waiting one, else the next. -/
def subjectOff (g : Group) (n : Native) : Nat :=
  if g.st == .waiting then n.at_.1 + 1 + n.at_.2 else nextOff n

/-- Whether a native group waits for a flag of its clause. -/
def waitsFlag (s : State) (g : Group) : Bool :=
  match g.native with
  | some n =>
    let mask := imgUnit (imageOf s g) n.clause % 4096
    n.bundle == 0 && (List.range 12).any fun i => bitOf mask i && n.flags.getD i 0 != 0
  | none => false

/-- REASON. Which of the groups that could issue does so in the firing cycle, and what keeps another, is timing. -/
def sampleReason (s : State) (g : Group) (pick : Nat) : Nat :=
  match g.st with
  | .halted => 9
  | .ready => 8
  | .parked => 7
  | .waiting => 6
  | _ =>
    if g.active == 0 then 11
    else if coreFrozen s g.die g.core then 10
    else if waitsFlag s g then 3
    else [1, 2, 4, 5].getD (pick % 4) 1

/-- The portable PC, DELTA and PIPELINED of a sample. -/
def samplePlace (s : State) (g : Group) : (Nat × Nat) × Nat × Bool :=
  match g.native with
  | some n =>
    let img := imageOf s g
    let off := subjectOff g n
    let c := if g.st == .waiting then n.at_.1 else n.clause
    match covering img off with
    | some e => (e.ppc, off - e.off, bitOf (imgUnit img c) 79)
    | none => (n.ppc, 0, false)
  | none =>
    match g.st, g.wait.map fun (w : Wait) => w.dst with
    | .parked, some (.cont blk _) =>
      let fn := (ppcOf g).1
      ((fn, match blockItem (topItems (groupWords s g) g) blk with
        | some it => it.off
        | none => 0), 0, false)
    | _, _ => (ppcOf g, 0, false)

/-- The 16 bytes of a sample record. -/
def sampleRecord (s : State) (g : Group) (cyc pick : Nat) (lost : Bool) : List Byte :=
  let r := sampleReason s g pick
  let (ppc, delta, piped) := if r = 11 then ((0xFFFF, 0xFFFFFF), 0, false) else samplePlace s g
  natBytes 16 (recNat [(low 32 cyc, 96), (ppc.1, 80), (ppc.2, 56), (low 16 delta, 40),
    (logicalCore s g.ctx g.die g.core, 24), (g.slot, 19), (r, 8), (piped.toNat, 1), (lost.toNat, 0)])

/-- Counts a sample of a confidential context: in DROPPED of its ring, and device-wide (R354). -/
def suppressSample (s : State) (c : Ctx) : State :=
  let s := { s with front := { s.front with suppressed := s.front.suppressed + 1 } }
  if c.sampleRing = 0 then s
  else
    let s := modCtx s c.id fun c => { c with lost := c.lost.set 2 true }
    match farReadN s c.id 8 (c.sampleRing + 8) with
    | .error _ => s
    | .ok d => match farWrite s c.id (c.sampleRing + 8) (natBytes 8 (low 64 (leNat d + 1))) with
      | .ok s => s
      | .error _ => s

/-- One firing of a sampler. -/
def fireSampler (s : State) (x : Sampler) (c : Ctx) : State :=
  let p := bitsOf c.debugCtl.toNat 39 20
  let sel := nextSample (heldSlots s x.die x.core x.ctx) x.last
  let upd (y : Sampler) : Sampler := { y with fired := y.fired + 1, last := (sel.map (·.slot)).or y.last }
  let s := { s with samplers := modBy (fun y => y == x) upd s.samplers }
  match sel with
  | none => s
  | some g =>
    if c.confidential then suppressSample s c
    else
      let (n, s) := freeNo s
      ctxRing s x.ctx 2 c.sampleRing c.sampleLog2 16 (sampleRecord s g (x.fired * p) (Config.choice n))

/-- SAMPLE_FIRING (R351): at cycles 0, P, 2P and so on of the sampler, until it has fired SAMPLE_LIMIT times. -/
def execSampleFiring (die core ctx : Nat) (s : State) : Out :=
  match s.samplers.find? fun x => x.die == die && x.core == core && x.ctx == ctx, ctxOf s ctx with
  | some x, some c =>
    let limit := bitsOf c.debugCtl.toNat 63 40
    if c.debugCtl.getLsbD 2 && decide (x.start + x.fired * bitsOf c.debugCtl.toNat 39 20 ≤ s.cycle)
        && (limit == 0 || decide (x.fired < limit)) then .next (fireSampler s x c)
    else .next s
  | _, _ => .next s

end Sys2Proof.Machine
end

