-- ==== Sys2Proof/Machine/Spdm.lean ====
section
/-! DEFINITION. The SPDM responder (24_package_links_power.md R431; 20 R396). What the standard fixes of its
messages is taken from SPDM 1.3; what it leaves to an implementation is free. -/

namespace Sys2Proof.Machine

open Sys2Proof

/-- A response: the version, the response code and the payload. -/
def spdmMsg (code : Nat) (payload : List Byte) : List Byte := [0x13, BitVec.ofNat 8 code] ++ payload

/-- Records a request and the response to it. -/
def spdmSay (s : State) (req resp : List Byte) : State :=
  { s with spdm := { s.spdm with
      transcript := s.spdm.transcript ++ req ++ resp, responses := resp :: s.spdm.responses } }

/-- The ERROR response to a request that the stage of the connection does not admit. -/
def spdmError (s : State) (code : Nat) : State :=
  { s with spdm := { s.spdm with responses := spdmMsg 0x7F [BitVec.ofNat 8 code] :: s.spdm.responses } }

/-- Answers a request in a running package from a stage on. -/
def spdmFrom (stage : Nat) (s : State) (f : State → State) : Out :=
  if s.boot != .running then .next s
  else if s.spdm.stage < stage then .next (spdmError s 4)
  else .next (f s)

/-- The signature of a certificate slot over the transcript: slot 0 Ed25519, slot 1 ML-DSA-65. -/
def slotSign (slot : Nat) (t : List Byte) : List Byte :=
  if slot = 0 then Config.ed25519Sign t else Config.mldsaSign t

/-- GET_VERSION (R431): starts the connection anew. -/
def execGetVersion (s : State) : Out :=
  spdmFrom 0 s fun s =>
    spdmSay { s with spdm := { s.spdm with
      stage := 1, transcript := [], algs := 0, sessionKey := none, finished := false } } [0x10, 0x84]
      (spdmMsg 0x04 [0x00, 0x13])

/-- GET_CAPABILITIES (R431). -/
def execGetCapabilities (s : State) : Out :=
  spdmFrom 1 s fun s =>
    let s := spdmSay s [0x13, 0xE1] (spdmMsg 0x61 [])
    { s with spdm := { s.spdm with stage := max s.spdm.stage 2 } }

/-- NEGOTIATE_ALGORITHMS (R431): the supported ones, Ed25519, SHA-384, secp384r1 and AES-256-GCM, in bits 0 to 3. -/
def execNegotiateAlgorithms (algs : Nat) (s : State) : Out :=
  spdmFrom 2 s fun s =>
    let s := spdmSay s ([0x13, 0xE3] ++ natBytes 4 algs) (spdmMsg 0x63 (natBytes 4 (algs % 16)))
    { s with spdm := { s.spdm with stage := max s.spdm.stage 3, algs := algs % 16 } }

/-- GET_DIGESTS (R431). -/
def execGetDigests (s : State) : Out :=
  spdmFrom 3 s fun s =>
    spdmSay s [0x13, 0x81] (spdmMsg 0x01 (sha384 (Config.certChain 0) ++ sha384 (Config.certChain 1)))

/-- GET_CERTIFICATE (R431): a portion of the chain of slot 0 or 1. -/
def execGetCertificate (slot off len : Nat) (s : State) : Out :=
  spdmFrom 3 s fun s =>
    if 2 ≤ slot then spdmError s 1
    else spdmSay s ([0x13, 0x82] ++ natBytes 1 slot ++ natBytes 2 off ++ natBytes 2 len)
      (spdmMsg 0x02 (((Config.certChain slot).drop off).take len))

/-- CHALLENGE (R431). -/
def execChallenge (slot : Nat) (nonce : List Byte) (s : State) : Out :=
  spdmFrom 3 s fun s =>
    if 2 ≤ slot then spdmError s 1
    else
      let req := [0x13, 0x83] ++ natBytes 1 slot ++ nonce
      let body := sha384 (Config.certChain slot) ++ s.fw.measure
      spdmSay s req (spdmMsg 0x03 (body ++ slotSign slot (s.spdm.transcript ++ req ++ body)))

/-- GET_MEASUREMENTS (R429, R431): the boot measurement, signed. -/
def execGetMeasurements (slot : Nat) (nonce : List Byte) (s : State) : Out :=
  spdmFrom 3 s fun s =>
    if 2 ≤ slot then spdmError s 1
    else
      let req := [0x13, 0xE0] ++ natBytes 1 slot ++ nonce
      spdmSay s req (spdmMsg 0x60 (s.fw.measure ++ slotSign slot (s.spdm.transcript ++ req ++ s.fw.measure)))

/-- KEY_EXCHANGE (R431). -/
def execKeyExchange (exchange : List Byte) (s : State) : Out :=
  spdmFrom 3 s fun s =>
    let n := s.spdm.exchanges
    let req := [0x13, 0xE4] ++ exchange
    let body := Config.spdmExchange n
    let s := spdmSay s req (spdmMsg 0x64 (body ++ Config.ed25519Sign (s.spdm.transcript ++ req ++ body)))
    { s with spdm := { s.spdm with
        stage := max s.spdm.stage 4, exchanges := n + 1, sessionKey := some (Config.spdmKey n exchange),
        finished := false } }

/-- FINISH (R431): the session stands where the requester's HMAC is right. -/
def execFinish (hmac : List Byte) (s : State) : Out :=
  spdmFrom 4 s fun s =>
    match s.spdm.sessionKey with
    | some k =>
      if !s.spdm.finished && hmac == Config.spdmHmac k s.spdm.transcript then
        let s := spdmSay s ([0x13, 0xE5] ++ hmac) (spdmMsg 0x65 [])
        { s with spdm := { s.spdm with finished := true } }
      else spdmError { s with spdm := { s.spdm with sessionKey := none, finished := false } } 6
    | none => spdmError s 4

/-- DUMP_KEY_RELEASE (R396, R431): the dump key of a confidential context, within a finished session. -/
def execDumpKeyRelease (ctx : Nat) (s : State) : Out :=
  if s.boot != .running then .next s
  else match s.spdm.sessionKey, ctxOf s ctx with
    | some k, some c =>
      if s.spdm.finished && c.confidential then
        let (n, s) := freeNo s
        let (body, tag) := Config.gcmSeal k (Config.nonceOf n) (natBytes 32 c.dumpKey)
        .next { s with spdm := { s.spdm with
          responses := spdmMsg 0x7E (body ++ tag) :: s.spdm.responses,
          released := if s.spdm.released.contains ctx then s.spdm.released else ctx :: s.spdm.released } }
      else .next (spdmError s 4)
    | _, _ => .next (spdmError s 4)

end Sys2Proof.Machine
end

