-- ==== Sys2Proof/Machine/Dispatch.lean ====
section
/-! DEFINITION. The one dispatch: every instruction, slot operation and event has one arm, a direct call of
its meaning. -/

namespace Sys2Proof.Machine

open Sys2Proof

-- Packets first, then the order of spec/opcode_table.json.
def exec (i : Instr) (s : State) : Host.Outcome State Fault Refusal :=
  match i with
  | .nop h => Sys2Proof.Machine.execNop h s
  | .launch h b => Sys2Proof.Machine.execLaunch h b s
  | .launchChained h b => Sys2Proof.Machine.execLaunchChained h b s
  | .copy h src dst count => Sys2Proof.Machine.execCopy h src dst count s
  | .barrierAnd h addrs => Sys2Proof.Machine.execBarrierAnd h addrs s
  | .signal h => Sys2Proof.Machine.execSignal h s
  | .waitSignal h a v cmp timeout => Sys2Proof.Machine.execWaitSignal h a v cmp timeout s
  | .measure h value tag => Sys2Proof.Machine.execMeasure h value tag s
  | .receipt h nonce out outBytes => Sys2Proof.Machine.execReceipt h nonce out outBytes s
  | .timestamp h a => Sys2Proof.Machine.execTimestamp h a s
  | .haltContext h => Sys2Proof.Machine.execHaltContext h s
  | .resumeContext h => Sys2Proof.Machine.execResumeContext h s
  | .disableQueue h => Sys2Proof.Machine.execDisableQueue h s
  | .setPriority h prio => Sys2Proof.Machine.execSetPriority h prio s
  | .add o => Sys2Proof.Machine.execAdd o s
  | .sub o => Sys2Proof.Machine.execSub o s
  | .mul o => Sys2Proof.Machine.execMul o s
  | .mulHiS o => Sys2Proof.Machine.execMulHiS o s
  | .mulHiU o => Sys2Proof.Machine.execMulHiU o s
  | .mad o => Sys2Proof.Machine.execMad o s
  | .divS o => Sys2Proof.Machine.execDivS o s
  | .divU o => Sys2Proof.Machine.execDivU o s
  | .remS o => Sys2Proof.Machine.execRemS o s
  | .remU o => Sys2Proof.Machine.execRemU o s
  | .addSatS o => Sys2Proof.Machine.execAddSatS o s
  | .addSatU o => Sys2Proof.Machine.execAddSatU o s
  | .subSatS o => Sys2Proof.Machine.execSubSatS o s
  | .subSatU o => Sys2Proof.Machine.execSubSatU o s
  | .addCc o => Sys2Proof.Machine.execAddCc o s
  | .addc o => Sys2Proof.Machine.execAddc o s
  | .subCc o => Sys2Proof.Machine.execSubCc o s
  | .subc o => Sys2Proof.Machine.execSubc o s
  | .minS o => Sys2Proof.Machine.execMinS o s
  | .minU o => Sys2Proof.Machine.execMinU o s
  | .maxS o => Sys2Proof.Machine.execMaxS o s
  | .maxU o => Sys2Proof.Machine.execMaxU o s
  | .and o => Sys2Proof.Machine.execAnd o s
  | .or o => Sys2Proof.Machine.execOr o s
  | .xor o => Sys2Proof.Machine.execXor o s
  | .not o => Sys2Proof.Machine.execNot o s
  | .shl o => Sys2Proof.Machine.execShl o s
  | .shrU o => Sys2Proof.Machine.execShrU o s
  | .shrS o => Sys2Proof.Machine.execShrS o s
  | .rotl o => Sys2Proof.Machine.execRotl o s
  | .rotr o => Sys2Proof.Machine.execRotr o s
  | .clz o => Sys2Proof.Machine.execClz o s
  | .ctz o => Sys2Proof.Machine.execCtz o s
  | .popc o => Sys2Proof.Machine.execPopc o s
  | .brev o => Sys2Proof.Machine.execBrev o s
  | .bfeU o => Sys2Proof.Machine.execBfeU o s
  | .bfeS o => Sys2Proof.Machine.execBfeS o s
  | .bfi o => Sys2Proof.Machine.execBfi o s
  | .sext o => Sys2Proof.Machine.execSext o s
  | .zext o => Sys2Proof.Machine.execZext o s
  | .trunc o => Sys2Proof.Machine.execTrunc o s
  | .neg o => Sys2Proof.Machine.execNeg o s
  | .abs o => Sys2Proof.Machine.execAbs o s
  | .nadd o => Sys2Proof.Machine.execNadd o s
  | .nidx o => Sys2Proof.Machine.execNidx o s
  | .nmake o => Sys2Proof.Machine.execNmake o s
  | .nsplit o => Sys2Proof.Machine.execNsplit o s
  | .const o => Sys2Proof.Machine.execConst o s
  | .fadd o => Sys2Proof.Machine.execFadd o s
  | .fsub o => Sys2Proof.Machine.execFsub o s
  | .fmul o => Sys2Proof.Machine.execFmul o s
  | .fma o => Sys2Proof.Machine.execFma o s
  | .fdiv o => Sys2Proof.Machine.execFdiv o s
  | .fsqrt o => Sys2Proof.Machine.execFsqrt o s
  | .frcp o => Sys2Proof.Machine.execFrcp o s
  | .frsq o => Sys2Proof.Machine.execFrsq o s
  | .exp2 o => Sys2Proof.Machine.execExp2 o s
  | .log2 o => Sys2Proof.Machine.execLog2 o s
  | .fmin o => Sys2Proof.Machine.execFmin o s
  | .fmax o => Sys2Proof.Machine.execFmax o s
  | .fabs o => Sys2Proof.Machine.execFabs o s
  | .fneg o => Sys2Proof.Machine.execFneg o s
  | .fcopysign o => Sys2Proof.Machine.execFcopysign o s
  | .frint o => Sys2Proof.Machine.execFrint o s
  | .faddX2 o => Sys2Proof.Machine.execFaddX2 o s
  | .fsubX2 o => Sys2Proof.Machine.execFsubX2 o s
  | .fmulX2 o => Sys2Proof.Machine.execFmulX2 o s
  | .fmaX2 o => Sys2Proof.Machine.execFmaX2 o s
  | .fminX2 o => Sys2Proof.Machine.execFminX2 o s
  | .fmaxX2 o => Sys2Proof.Machine.execFmaxX2 o s
  | .fabsX2 o => Sys2Proof.Machine.execFabsX2 o s
  | .fnegX2 o => Sys2Proof.Machine.execFnegX2 o s
  | .cvt o => Sys2Proof.Machine.execCvt o s
  | .cvtScaled o => Sys2Proof.Machine.execCvtScaled o s
  | .pack o => Sys2Proof.Machine.execPack o s
  | .unpack o => Sys2Proof.Machine.execUnpack o s
  | .bitcast o => Sys2Proof.Machine.execBitcast o s
  | .cmp o => Sys2Proof.Machine.execCmp o s
  | .fclass o => Sys2Proof.Machine.execFclass o s
  | .sel o => Sys2Proof.Machine.execSel o s
  | .pand o => Sys2Proof.Machine.execPand o s
  | .por o => Sys2Proof.Machine.execPor o s
  | .pxor o => Sys2Proof.Machine.execPxor o s
  | .pnot o => Sys2Proof.Machine.execPnot o s
  | .ldNear o => Sys2Proof.Machine.execLdNear o s
  | .stNear o => Sys2Proof.Machine.execStNear o s
  | .ldLocal o => Sys2Proof.Machine.execLdLocal o s
  | .stLocal o => Sys2Proof.Machine.execStLocal o s
  | .ldConst o => Sys2Proof.Machine.execLdConst o s
  | .atomAdd o => Sys2Proof.Machine.execAtomAdd o s
  | .atomMinS o => Sys2Proof.Machine.execAtomMinS o s
  | .atomMinU o => Sys2Proof.Machine.execAtomMinU o s
  | .atomMaxS o => Sys2Proof.Machine.execAtomMaxS o s
  | .atomMaxU o => Sys2Proof.Machine.execAtomMaxU o s
  | .atomAnd o => Sys2Proof.Machine.execAtomAnd o s
  | .atomOr o => Sys2Proof.Machine.execAtomOr o s
  | .atomXor o => Sys2Proof.Machine.execAtomXor o s
  | .atomSwap o => Sys2Proof.Machine.execAtomSwap o s
  | .atomCas o => Sys2Proof.Machine.execAtomCas o s
  | .atomFadd o => Sys2Proof.Machine.execAtomFadd o s
  | .feLd o => Sys2Proof.Machine.execFeLd o s
  | .feSt o => Sys2Proof.Machine.execFeSt o s
  | .feTryld o => Sys2Proof.Machine.execFeTryld o s
  | .feTryst o => Sys2Proof.Machine.execFeTryst o s
  | .fePeek o => Sys2Proof.Machine.execFePeek o s
  | .fence o => Sys2Proof.Machine.execFence o s
  | .barArrive nres b => Sys2Proof.Machine.execBarArrive nres b s
  | .barWait b phase => Sys2Proof.Machine.execBarWait b phase s
  | .barSync b => Sys2Proof.Machine.execBarSync b s
  | .waitAny o => Sys2Proof.Machine.execWaitAny o s
  | .waitAll o => Sys2Proof.Machine.execWaitAll o s
  | .yield o => Sys2Proof.Machine.execYield o s
  | .copyIn o => Sys2Proof.Machine.execCopyIn o s
  | .copyOut o => Sys2Proof.Machine.execCopyOut o s
  | .copyNear o => Sys2Proof.Machine.execCopyNear o s
  | .gather o => Sys2Proof.Machine.execGather o s
  | .scatter o => Sys2Proof.Machine.execScatter o s
  | .csrRows o => Sys2Proof.Machine.execCsrRows o s
  | .bsrBlocks o => Sys2Proof.Machine.execBsrBlocks o s
  | .isect o => Sys2Proof.Machine.execIsect o s
  | .reduceFar o => Sys2Proof.Machine.execReduceFar o s
  | .tokTest uni t => Sys2Proof.Machine.execTokTest uni t s
  | .xlane o => Sys2Proof.Machine.execXlane o s
  | .lanesAny p => Sys2Proof.Machine.execLanesAny p s
  | .lanesAll p => Sys2Proof.Machine.execLanesAll p s
  | .lanesMask p => Sys2Proof.Machine.execLanesMask p s
  | .rdfirst ty x => Sys2Proof.Machine.execRdfirst ty x s
  | .grpAdd o => Sys2Proof.Machine.execGrpAdd o s
  | .grpMin o => Sys2Proof.Machine.execGrpMin o s
  | .grpMax o => Sys2Proof.Machine.execGrpMax o s
  | .conflict o => Sys2Proof.Machine.execConflict o s
  | .br t => Sys2Proof.Machine.execBr t s
  | .brc o => Sys2Proof.Machine.execBrc o s
  | .brU o => Sys2Proof.Machine.execBrU o s
  | .switch o => Sys2Proof.Machine.execSwitch o s
  | .call o => Sys2Proof.Machine.execCall o s
  | .ret args => Sys2Proof.Machine.execRet args s
  | .exit => Sys2Proof.Machine.execExit s
  | .spawn o => Sys2Proof.Machine.execSpawn o s
  | .taskpost o => Sys2Proof.Machine.execTaskpost o s
  | .depTrigger => Sys2Proof.Machine.execDepTrigger s
  | .herd o => Sys2Proof.Machine.execHerd o s
  | .herdAdd o => Sys2Proof.Machine.execHerdAdd o s
  | .herdMin o => Sys2Proof.Machine.execHerdMin o s
  | .herdMax o => Sys2Proof.Machine.execHerdMax o s
  | .herdOr o => Sys2Proof.Machine.execHerdOr o s
  | .tileZero d => Sys2Proof.Machine.execTileZero d s
  | .tileFill o => Sys2Proof.Machine.execTileFill o s
  | .tileLoad o => Sys2Proof.Machine.execTileLoad o s
  | .tileStore o => Sys2Proof.Machine.execTileStore o s
  | .tileCvt o => Sys2Proof.Machine.execTileCvt o s
  | .tileExtract o => Sys2Proof.Machine.execTileExtract o s
  | .tileInsert o => Sys2Proof.Machine.execTileInsert o s
  | .mmaF8s o => Sys2Proof.Machine.execMmaF8s o s
  | .mmaBf16 o => Sys2Proof.Machine.execMmaBf16 o s
  | .mmaF16 o => Sys2Proof.Machine.execMmaF16 o s
  | .mmaI8 o => Sys2Proof.Machine.execMmaI8 o s
  | .mmaSp o => Sys2Proof.Machine.execMmaSp o s
  | .mfence => Sys2Proof.Machine.execMfence s
  | .mwait m => Sys2Proof.Machine.execMwait m s
  | .setfmt o => Sys2Proof.Machine.execSetfmt o s
  | .getfmt uni => Sys2Proof.Machine.execGetfmt uni s
  | .rngSeed v => Sys2Proof.Machine.execRngSeed v s
  | .id o => Sys2Proof.Machine.execId o s
  | .clock uni => Sys2Proof.Machine.execClock uni s
  | .trap code => Sys2Proof.Machine.execTrap code s
  | .brk code => Sys2Proof.Machine.execBrk code s
  | .mark code => Sys2Proof.Machine.execMark code s
  | .tbfNop => Sys2Proof.Machine.execTbfNop s
  | .iadd f => Sys2Proof.Machine.execIadd f s
  | .imul f => Sys2Proof.Machine.execImul f s
  | .imad f => Sys2Proof.Machine.execImad f s
  | .idiv f => Sys2Proof.Machine.execIdiv f s
  | .isat f => Sys2Proof.Machine.execIsat f s
  | .icc f => Sys2Proof.Machine.execIcc f s
  | .icci f => Sys2Proof.Machine.execIcci f s
  | .iminmax f => Sys2Proof.Machine.execIminmax f s
  | .ilogic f => Sys2Proof.Machine.execIlogic f s
  | .ishift f => Sys2Proof.Machine.execIshift f s
  | .iunary f => Sys2Proof.Machine.execIunary f s
  | .ibfe f => Sys2Proof.Machine.execIbfe f s
  | .ibfc f => Sys2Proof.Machine.execIbfc f s
  | .ibfi f => Sys2Proof.Machine.execIbfi f s
  | .iext f => Sys2Proof.Machine.execIext f s
  | .nadr f => Sys2Proof.Machine.execNadr f s
  | .tbfNidx f => Sys2Proof.Machine.execTbfNidx f s
  | .icmp f => Sys2Proof.Machine.execIcmp f s
  | .tbfSel f => Sys2Proof.Machine.execTbfSel f s
  | .mov f => Sys2Proof.Machine.execMov f s
  | .tbfFadd f => Sys2Proof.Machine.execTbfFadd f s
  | .tbfFmul f => Sys2Proof.Machine.execTbfFmul f s
  | .fmarn f => Sys2Proof.Machine.execFmarn f s
  | .fmarz f => Sys2Proof.Machine.execFmarz f s
  | .fmaup f => Sys2Proof.Machine.execFmaup f s
  | .fmadn f => Sys2Proof.Machine.execFmadn f s
  | .fmaf f => Sys2Proof.Machine.execFmaf f s
  | .fspec f => Sys2Proof.Machine.execFspec f s
  | .tbfFdiv f => Sys2Proof.Machine.execTbfFdiv f s
  | .fmisc f => Sys2Proof.Machine.execFmisc f s
  | .fcmp f => Sys2Proof.Machine.execFcmp f s
  | .usInteger fn ty f => Sys2Proof.Machine.execUsInteger fn ty f s
  | .unadr f => Sys2Proof.Machine.execUnadr f s
  | .unidx f => Sys2Proof.Machine.execUnidx f s
  | .ucmp f => Sys2Proof.Machine.execUcmp f s
  | .usel f => Sys2Proof.Machine.execUsel f s
  | .umov f => Sys2Proof.Machine.execUmov f s
  | .umovi d imm => Sys2Proof.Machine.execUmovi d imm s
  | .uldk d wide k => Sys2Proof.Machine.execUldk d wide k s
  | .uid f => Sys2Proof.Machine.execUid f s
  | .uclock f => Sys2Proof.Machine.execUclock f s
  | .ugetfmt f => Sys2Proof.Machine.execUgetfmt f s
  | .usetfmt f => Sys2Proof.Machine.execUsetfmt f s
  | .urseed f => Sys2Proof.Machine.execUrseed f s
  | .ucvset f => Sys2Proof.Machine.execUcvset f s
  | .tshape tn elem colsM1 rowsM1 => Sys2Proof.Machine.execTshape tn elem colsM1 rowsM1 s
  | .plogic f => Sys2Proof.Machine.execPlogic f s
  | .kfroms f => Sys2Proof.Machine.execKfroms f s
  | .stok f => Sys2Proof.Machine.execStok f s
  | .uld f => Sys2Proof.Machine.execUld f s
  | .ust f => Sys2Proof.Machine.execUst f s
  | .uatom f => Sys2Proof.Machine.execUatom f s
  | .ufe f => Sys2Proof.Machine.execUfe f s
  | .uspill r wide slot => Sys2Proof.Machine.execUspill r wide slot s
  | .ufill r wide slot => Sys2Proof.Machine.execUfill r wide slot s
  | .utokt f => Sys2Proof.Machine.execUtokt f s
  | .ubar f => Sys2Proof.Machine.execUbar f s
  | .utrig => Sys2Proof.Machine.execUtrig s
  | .umark code => Sys2Proof.Machine.execUmark code s
  | .tbfMfence d => Sys2Proof.Machine.execTbfMfence d s
  | .cvtOp f => Sys2Proof.Machine.execCvtOp f s
  | .cvts f => Sys2Proof.Machine.execCvts f s
  | .tcvt td ts => Sys2Proof.Machine.execTcvt td ts s
  | .vld f => Sys2Proof.Machine.execVld f s
  | .vst f => Sys2Proof.Machine.execVst f s
  | .vldk f => Sys2Proof.Machine.execVldk f s
  | .vatom f => Sys2Proof.Machine.execVatom f s
  | .vfe f => Sys2Proof.Machine.execVfe f s
  | .vspill f => Sys2Proof.Machine.execVspill f s
  | .vfill f => Sys2Proof.Machine.execVfill f s
  | .xmv f => Sys2Proof.Machine.execXmv f s
  | .vtos f => Sys2Proof.Machine.execVtos f s
  | .vxlane f => Sys2Proof.Machine.execVxlane f s
  | .vlanes f => Sys2Proof.Machine.execVlanes f s
  | .vgrp f => Sys2Proof.Machine.execVgrp f s
  | .vconf f => Sys2Proof.Machine.execVconf f s
  | .tld f => Sys2Proof.Machine.execTld f s
  | .tst f => Sys2Proof.Machine.execTst f s
  | .tzero tn => Sys2Proof.Machine.execTzero tn s
  | .tfill tn r => Sys2Proof.Machine.execTfill tn r s
  | .text f => Sys2Proof.Machine.execText f s
  | .tins f => Sys2Proof.Machine.execTins f s
  | .tcopy td ts => Sys2Proof.Machine.execTcopy td ts s
  | .mmaf8s f => Sys2Proof.Machine.execMmaf8s f s
  | .mmabf16 f => Sys2Proof.Machine.execMmabf16 f s
  | .mmaf16 f => Sys2Proof.Machine.execMmaf16 f s
  | .mmai8 f => Sys2Proof.Machine.execMmai8 f s
  | .mmasp form keep f => Sys2Proof.Machine.execMmasp form keep f s
  | .enCopyIn f => Sys2Proof.Machine.execEnCopyIn f s
  | .enCopyOut f => Sys2Proof.Machine.execEnCopyOut f s
  | .enCopyNear f => Sys2Proof.Machine.execEnCopyNear f s
  | .enGather f => Sys2Proof.Machine.execEnGather f s
  | .enScatter f => Sys2Proof.Machine.execEnScatter f s
  | .enCsrRows f => Sys2Proof.Machine.execEnCsrRows f s
  | .enBsrBlocks f => Sys2Proof.Machine.execEnBsrBlocks f s
  | .enIsect f => Sys2Proof.Machine.execEnIsect f s
  | .enReduceFar f => Sys2Proof.Machine.execEnReduceFar f s
  | .jmp tgt => Sys2Proof.Machine.execJmp tgt s
  | .ubr k tgt => Sys2Proof.Machine.execUbr k tgt s
  | .dset rpc => Sys2Proof.Machine.execDset rpc s
  | .dbr k tgt => Sys2Proof.Machine.execDbr k tgt s
  | .join rpc => Sys2Proof.Machine.execJoin rpc s
  | .joinp rpc => Sys2Proof.Machine.execJoinp rpc s
  | .tbfCall => Sys2Proof.Machine.execTbfCall s
  | .tbfRet => Sys2Proof.Machine.execTbfRet s
  | .loop r => Sys2Proof.Machine.execLoop r s
  | .lend tgt => Sys2Proof.Machine.execLend tgt s
  | .tbfExit => Sys2Proof.Machine.execTbfExit s
  | .tbfTrap brk code => Sys2Proof.Machine.execTbfTrap brk code s
  | .tbfYield base => Sys2Proof.Machine.execTbfYield base s
  | .waitc base => Sys2Proof.Machine.execWaitc base s
  | .tbfSpawn base => Sys2Proof.Machine.execTbfSpawn base s
  | .tpost base => Sys2Proof.Machine.execTpost base s
  | .tbfHerd base => Sys2Proof.Machine.execTbfHerd base s
  | .hjoin => Sys2Proof.Machine.execHjoin s
  | .issueOpportunity die core u => Sys2Proof.Machine.execIssueOpportunity die core u s
  | .translationRegenerated die cluster tr => Sys2Proof.Machine.execTranslationRegenerated die cluster tr s
  | .helperBeat party u => Sys2Proof.Machine.execHelperBeat party u s
  | .activation g => Sys2Proof.Machine.execActivation g s
  | .demotion g => Sys2Proof.Machine.execDemotion g s
  | .waitingDemotion g => Sys2Proof.Machine.execWaitingDemotion g s
  | .waitEvaluation g => Sys2Proof.Machine.execWaitEvaluation g s
  | .herdJoin g => Sys2Proof.Machine.execHerdJoin g s
  | .groupEnd g => Sys2Proof.Machine.execGroupEnd g s
  | .teamPlacement launch core => Sys2Proof.Machine.execTeamPlacement launch core s
  | .pressureTranslation launch die cluster => Sys2Proof.Machine.execPressureTranslation launch die cluster s
  | .taskGroupForm launch die core fn => Sys2Proof.Machine.execTaskGroupForm launch die core fn s
  | .taskGroupStart task => Sys2Proof.Machine.execTaskGroupStart task s
  | .tokenComplete cmd units => Sys2Proof.Machine.execTokenComplete cmd units s
  | .batchComplete g mism => Sys2Proof.Machine.execBatchComplete g mism s
  | .variableLatencyComplete g op => Sys2Proof.Machine.execVariableLatencyComplete g op s
  | .drainPointStop g => Sys2Proof.Machine.execDrainPointStop g s
  | .freezeEnd die core => Sys2Proof.Machine.execFreezeEnd die core s
  | .schedulerIllegalState die cluster => Sys2Proof.Machine.execSchedulerIllegalState die cluster s
  | .schedulerRebuilt die cluster => Sys2Proof.Machine.execSchedulerRebuilt die cluster s
  | .patrolScrub die line => Sys2Proof.Machine.execPatrolScrub die line s
  | .watchdogCheck => Sys2Proof.Machine.execWatchdogCheck s
  | .watchdogFreeze g => Sys2Proof.Machine.execWatchdogFreeze g s
  | .watchdogTerminate ctx => Sys2Proof.Machine.execWatchdogTerminate ctx s
  | .translationReport launch => Sys2Proof.Machine.execTranslationReport launch s
  | .translationComplete launch die cluster unit image => Sys2Proof.Machine.execTranslationComplete launch die cluster unit image s
  | .dependentStart launch => Sys2Proof.Machine.execDependentStart launch s
  | .launchRetire launch => Sys2Proof.Machine.execLaunchRetire launch s
  | .signalPoll q n => Sys2Proof.Machine.execSignalPoll q n s
  | .waitSignalTimeout q n => Sys2Proof.Machine.execWaitSignalTimeout q n s
  | .kick q idx => Sys2Proof.Machine.execKick q idx s
  | .shepherdPass => Sys2Proof.Machine.execShepherdPass s
  | .unmap slot => Sys2Proof.Machine.execUnmap slot s
  | .collieVisit => Sys2Proof.Machine.execCollieVisit s
  | .suspend ctx migratable => Sys2Proof.Machine.execSuspend ctx migratable s
  | .unload ctx migratable => Sys2Proof.Machine.execUnload ctx migratable s
  | .resume ctx => Sys2Proof.Machine.execResume ctx s
  | .contextSave ctx => Sys2Proof.Machine.execContextSave ctx s
  | .flush die => Sys2Proof.Machine.execFlush die s
  | .killCtx die ctx => Sys2Proof.Machine.execKillCtx die ctx s
  | .priResponse req ok => Sys2Proof.Machine.execPriResponse req ok s
  | .atsInvalidation pasid page len => Sys2Proof.Machine.execAtsInvalidation pasid page len s
  | .errinjGo => Sys2Proof.Machine.execErrinjGo s
  | .dumpGo => Sys2Proof.Machine.execDumpGo s
  | .dumpRequest => Sys2Proof.Machine.execDumpRequest s
  | .dumpComplete => Sys2Proof.Machine.execDumpComplete s
  | .mctpRead dump off len => Sys2Proof.Machine.execMctpRead dump off len s
  | .lifetimeWrite => Sys2Proof.Machine.execLifetimeWrite s
  | .histogramSecond temps volts => Sys2Proof.Machine.execHistogramSecond temps volts s
  | .ageingMeasure khz => Sys2Proof.Machine.execAgeingMeasure khz s
  | .powerMeasure watts => Sys2Proof.Machine.execPowerMeasure watts s
  | .steerInterval fracs => Sys2Proof.Machine.execSteerInterval fracs s
  | .sampleFiring die core ctx => Sys2Proof.Machine.execSampleFiring die core ctx s
  | .perstDeassert fw banks => Sys2Proof.Machine.execPerstDeassert fw banks s
  | .activateFirmware => Sys2Proof.Machine.execActivateFirmware s
  | .getVersion => Sys2Proof.Machine.execGetVersion s
  | .getCapabilities => Sys2Proof.Machine.execGetCapabilities s
  | .negotiateAlgorithms algs => Sys2Proof.Machine.execNegotiateAlgorithms algs s
  | .getDigests => Sys2Proof.Machine.execGetDigests s
  | .getCertificate slot off len => Sys2Proof.Machine.execGetCertificate slot off len s
  | .challenge slot nonce => Sys2Proof.Machine.execChallenge slot nonce s
  | .getMeasurements slot nonce => Sys2Proof.Machine.execGetMeasurements slot nonce s
  | .keyExchange exchange => Sys2Proof.Machine.execKeyExchange exchange s
  | .finish hmac => Sys2Proof.Machine.execFinish hmac s
  | .dumpKeyRelease ctx => Sys2Proof.Machine.execDumpKeyRelease ctx s
  | .tlIdent v => Sys2Proof.Machine.execTlIdent v s
  | .flitCrcRetry port => Sys2Proof.Machine.execFlitCrcRetry port s
  | .portDownTimeout port => Sys2Proof.Machine.execPortDownTimeout port s
  | .registerWrite addr wide v => Sys2Proof.Machine.execRegisterWrite addr wide v s
  | .remoteAccess who r => Sys2Proof.Machine.execRemoteAccess who r s
  | .portDown port => Sys2Proof.Machine.execPortDown port s
  | .portUp port => Sys2Proof.Machine.execPortUp port s
  | .perstAssert => Sys2Proof.Machine.execPerstAssert s
  | .firmwareUpdate fw => Sys2Proof.Machine.execFirmwareUpdate fw s
  | .storeLeavesQueue g => Sys2Proof.Machine.execStoreLeavesQueue g s
  | .storeBecomesVisible store o => Sys2Proof.Machine.execStoreBecomesVisible store o s
  | .randomBitQueueRefill g => Sys2Proof.Machine.execRandomBitQueueRefill g s
  | .copyPacketComplete q n => Sys2Proof.Machine.execCopyPacketComplete q n s

end Sys2Proof.Machine
end

