-- ==== Sys2Proof/Machine/Issue.lean ====
section
/-! DEFINITION. The issue of one instruction of the Value Form or of one bundle: readiness, checked issue and
register errors, clause entry, landing of results, illegal bundles, the order in which a bundle's slots
take effect, drift and stall records (01 R24; 09 R220 to R224; 14 R290 to R305; 13 R280, R288; 17 R349,
R350; 22 R406, R408, R411, R412). -/

namespace Sys2Proof.Machine

open Sys2Proof

/-! ## What a group issues next -/

/-- The Value Form words at the portable PC. -/
def codeAt (s : State) : List Word :=
  match s.cur.frames with
  | f :: _ => (fnBody (groupWords s s.cur) f.fn).drop s.cur.off
  | [] => []

/-- Whether an instruction waits for a token counter, the retriever, the matrix engine or a batch (R198,
R243). -/
def tvfWaits (s : State) : Instr → Bool
  | .copyIn _ | .copyOut _ | .copyNear _ | .gather _ | .scatter _ | .csrRows _ | .bsrBlocks _ | .isect _
  | .reduceFar _ =>
    (freeCtr 0 s.cur).isNone
      || decide (64 ≤ (s.cmds.filter fun c => c.die == s.cur.die && c.core == s.cur.core).length)
  | .mmaF8s _ | .mmaBf16 _ | .mmaF16 _ | .mmaI8 _ | .mmaSp _ => decide (64 ≤ (openJobs s.cur).length)
  | .mfence => decide (8 ≤ (s.cur.mfences - s.cur.batchesDone).toNat)
  | .herd o | .herdAdd o | .herdMin o | .herdMax o | .herdOr o => !herdRoom s o.h.toNat
  | _ => false

/-- The clause and the bundle that a native group issues next, when they decode. -/
noncomputable def nextBundle (s : State) (n : Native) : Option (Clause × Bundle) :=
  let img := imageOf s s.cur
  match decodeClause (imgUnit img n.clause), decodeBundle (imgUnit img (nextOff n)) with
  | .ok c, .ok b => some (c, b)
  | _, _ => none

/-- Whether the next bundle or instruction of the group taken up for issue is ready (R24, R291). One that
raises NATIVE_ILLEGAL is. -/
noncomputable def isReady (s : State) : Bool :=
  match s.cur.native with
  | some n =>
    match nextBundle s n with
    | some (c, b) => !(n.bundle == 0 && flagsWait n c) && !(slotsOf b).any (opWaits s) && !flagsFull s c b
    | none => true
  | none =>
    match decodeWords (codeAt s) with
    | .ok (i, _) => !tvfWaits s i
    | .error _ => true

/-- Whether the bundle that a helper issues next uses its core's helper port: an operation of US, BR or EN (R224). An
instruction of the Value Form counts as one that does. -/
noncomputable def usesPort (s : State) : Bool :=
  match s.cur.native with
  | some n => match nextBundle s n with
    | some (_, b) => !(b.us == .tbfNop && b.br == .tbfNop && b.en == .tbfNop)
    | none => false
  | none => true

/-! ## Before the issue -/

def releaseParty (p : Group) : Group := { p with party := p.party.map fun pt => { pt with release := true } }

/-- Helpers whose borrowed slot's thread issues are released (R221). -/
def releaseLent (s : State) : State :=
  let lent (p : Group) : Bool := match p.party with
    | some pt => pt.helper != 0 && (match pt.slot with
      | some (b, t) => b == s.cur.uid && s.cur.active.getLsbD t
      | none => false)
    | none => false
  { s with others := s.others.map fun p => if lent p then releaseParty p else p }

def isChecked (s : State) : Bool :=
  match launchOf s s.cur.launch with
  | some l => l.checked
  | none => false

/-- Cycles of a bundle: its beats, twice under checked issue (R12). -/
def bundleCycles (s : State) : Nat := if isChecked s then 2 * beatsOf s else beatsOf s

/-- A helper beat takes its lane, and the port where its bundle uses it, for the cycle (R224). -/
def takeLane (s : State) (pt : Party) (port : Bool) : State :=
  modCore s pt.die pt.core fun c =>
    let same := c.helperAt == s.cycle
    { c with
      helperAt := s.cycle, helperLanes := helperLane pt :: (if same then c.helperLanes else []),
      portUsed := port || (same && c.portUsed), lastHelper := helperKey s pt }

/-- Counts the issue: for the age order of the core (R24), for its lanes (R224), for the group's bundles (R26), and, for a
party, as the beginning of its iteration. -/
def countIssue (s : State) (port : Bool) : State :=
  let s := match s.cur.party with
    | none => modCore (releaseLent s) s.cur.die s.cur.core fun c =>
        { c with lastAge := s.cur.age, hostAt := s.cycle, hostBeats := bundleCycles s, hostMask := s.cur.active }
    | some pt => if pt.helper = 0 then s else takeLane s pt port
  setCur s fun g => { g with
    bundles := g.bundles + 1, party := g.party.map fun pt => { pt with begun := true } }

/-- A record about a register of the issuing group's core (structure 3) or its datapath (12). -/
def issueLog (s : State) (struct cls : Nat) : State :=
  let synd := if struct = 3 then (Config.syndrome s.free).toNat else 0
  logError { s with free := s.free + 1 }
    { ctx := s.cur.ctx, ppc := ppcOf s.cur, die := s.cur.die, core := s.cur.core, addr := 0, struct, cls, synd }

/-- Runs an issue under what happens to the circuits (R406, R408, R412). -/
def withUpset (s : State) (run : State → Out) : Out :=
  let u := s.upset
  let s := { s with upset := .clean }
  match u with
  | .clean => run s
  | .corrected => run (freezeCore (issueLog s 3 1) s.cur.die s.cur.core)
  | .uncorrectable => .next (consume s toRegion fun s cls => issueLog s 3 cls)
  | .mismatchOnce => run (if isChecked s then issueLog s 12 5 else s)
  | .mismatchTwice => if isChecked s then .next (mismatchTrap s 12 (ppcOf s.cur)) else run s

/-! ## An instruction of the Value Form -/

/-- An instruction that did not go back is the end of its region (R280, notes/assumptions/16.md). -/
def endRegion (old : Group) (s : State) : State :=
  if s.cur.uid = old.uid ∧ s.cur.consumed = old.consumed then setCur s fun g => { g with consumed := 0 } else s

def issueTvf (s : State) : Out :=
  withUpset s fun s =>
    match decodeWords (codeAt s) with
    | .error _ => .refused .unverifiedWord
    | .ok (i, _) =>
      match exec i s with
      | .next t => .next (endRegion s.cur t)
      | o => o

/-! ## A bundle -/

/-- CLMODE of a clause takes effect (R296): a cluster newly set is woken, one cleared loses its values. -/
def enterClusters (cycle : Nat) (new : BitVec 4) (n : Native) : Native :=
  let old := n.clmode
  let woken := (List.range 4).filter fun c => new.getLsbD c && !old.getLsbD c
  { n with
    clmode := new,
    v := n.v.filter fun r => old == 0 || new.getLsbD (r.1 / 128) || !old.getLsbD (r.1 / 128),
    woken := (if old = 0 then [] else woken.map fun c => (c, cycle))
      ++ n.woken.filter fun k => new.getLsbD k.1 && !woken.contains k.1 }

/-- Entry of an idempotent region (R280): what a restart restores. -/
def enterRegion (g : Group) : Group :=
  match g.native with
  | none => g
  | some n =>
    if n.again then setNative g fun n => { n with again := false }
    else { g with consumed := 0, native := some { n with
             regClause := n.clause, regActive := g.active, regStack := n.stack, regFmt := g.fmt,
             regGen := g.gen, regRq := g.rq, regPend := n.pend, regCvctl := n.cvctl, regLc := (n.lc, n.trip),
             regCount := n.count } }

/-- What the first bundle of a clause does before it reads. -/
def enterClause (s : State) (c : Clause) : State :=
  let s := setNat s (enterClusters s.cycle c.clmode)
  if c.regionEntry then setCur s enterRegion else s

/-- The bundle in hand is noted: its place, its portable PC and its loop (R304, R305), and the group stands
at the bundle after it (R291). -/
def noteBundle (s : State) (img : List Word) (c : Clause) (b : Bundle) : State :=
  setNat s fun n =>
    let ppc := match covering img (nextOff n) with
      | some e => e.ppc
      | none => n.ppc
    let loop := if c.loopKernel then
        some (c.loopId, b.stage, low 32 ((n.trip - n.lc).toNat + 2 ^ 32 - b.stage))
      else none
    let last := decide (c.bundles ≤ n.bundle + 1)
    { n with ppc, loop, at_ := (n.clause, n.bundle),
             clause := if last then n.clause + 1 + c.bundles else n.clause,
             bundle := if last then 0 else n.bundle + 1 }

/-- Whether a slot operation stopped the group or took it back: nothing else of its bundle happens. -/
def slotStops (old : Group) (i : Instr) (s : State) : Bool :=
  if i == .tbfRet then false
  else s.cur.uid != old.uid || s.cur.st == .halted || (s.cur.party.any fun pt => pt.gone)
    || (s.cur.consumed != old.consumed && s.cur.fe.isNone)

/-- The outcome of the first slot operation that stops the group, the branch slot first. -/
noncomputable def firstStop (s : State) : List Instr → Option Out
  | [] => none
  | i :: is =>
    match exec i s with
    | .next t => if slotStops s.cur i t then some (.next t) else firstStop s is
    | o => some o

/-- Runs slot operations one after the other. Their results land later, so each reads the registers as they
stood before the bundle (R294). -/
noncomputable def runSlots (s : State) : List Instr → Out
  | [] => .next s
  | i :: is =>
    match exec i s with
    | .next t => runSlots t is
    | o => o

/-- The group clock reaches the bundle's issue: the interlock stall before it is a free value (R349). -/
def stallBefore (s : State) (n : Native) : Nat × State :=
  if n.count = 0 then (0, setCur s fun g => { g with clock := 0 })
  else
    let st := Config.choice s.free
    (st, { s with free := s.free + 1, cur := { s.cur with clock := s.cur.clock + BitVec.ofNat 32 st } })

/-- A record of the trace ring; none for a confidential context (R354). -/
def traceRecord (s : State) (rec_ : Nat) : State :=
  match ctxOf s s.cur.ctx with
  | some c =>
    if c.debugCtl.getLsbD 3 && !c.confidential then
      ctxRing s s.cur.ctx 1 c.traceRing c.traceLog2 16 fun _ => natBytes 16 rec_
    else s
  | none => s

/-- The stall record of a delayed bundle while the interlock trace is armed; the cause is a free value
(R350). -/
def stallTrace (s : State) (img : List Word) (stall : Nat) : State :=
  let n := nat s
  if !s.cur.armed || stall = 0 then s
  else
    let off := n.at_.1 + 1 + n.at_.2
    let cause := Config.choice s.free % 6 + 1
    let arg := if cause = 1 then Config.choice (s.free + 1) % 12 else 0
    let base := match covering img off with
      | some e => e.off
      | none => off
    traceRecord { s with free := s.free + 2 }
      (recNat [(s.cur.clock.toNat, 96), (n.ppc.1, 80), (n.ppc.2, 56), (off - base, 40), (cause, 32),
        (min stall 65535, 16), (arg, 12), (s.cur.slot, 7), (2, 0)])

/-- The code of a bundle's UMARK. -/
def markCode : Instr → Nat
  | .umark c => c.toNat
  | _ => 0

def debugOf (s : State) : BitVec 64 :=
  match ctxOf s s.cur.ctx with
  | some c => c.debugCtl
  | none => 0

/-- The drift record of a marker bundle (R350). -/
def driftTrace (s : State) (c : Clause) (b : Bundle) : State :=
  if !b.marker then s
  else
    let none_ := c.markCycle == 0xFFFFFFFF
    let drift : BitVec 32 := if none_ then 0 else s.cur.clock - c.markCycle
    let far := decide (bitsOf (debugOf s).toNat 19 8 < drift.toInt.natAbs)
    let s := traceRecord s (recNat [(s.cur.clock.toNat, 96), (drift.toNat, 64), (markCode b.us, 48),
      (groupNo s.cur, 32), (s.cur.slot, 27), (if none_ then 3 else 1, 0)])
    setCur s fun g => { g with armed := (debugOf s).getLsbD 3 && far }

/-- The results in flight after a bundle that hold snapshot registers (R299). -/
def snapshots (n : Native) : Nat :=
  (n.pend.filter fun p => decide (p.slot < 9) && decide (n.count < p.land)).length

/-- The bundle's own effects: the slots in the order US, VA0, VA1, VM, CV, EN, then BR (R294, R299). -/
noncomputable def runBundle (s : State) (img : List Word) (c : Clause) (b : Bundle) (before : State) : Out :=
  let (stall, s) := stallBefore s (nat s)
  let s := stallTrace s img stall
  match firstStop s [b.br, b.us, b.va0, b.va1, b.vm, b.cv, b.en] with
  | some o => o
  | none =>
    let cyc := bundleCycles s
    let after := driftTrace s c b
    match runSlots after [b.us, b.va0, b.va1, b.vm, b.cv, b.en, b.br] with
    | .next t =>
      if t.cur.uid = s.cur.uid then
        if 24 < (match t.cur.native with | some n => snapshots n | none => 0) then .next (nativeIllegal before)
        else .next (setCur t fun g =>
          setNative { g with clock := g.clock + BitVec.ofNat 32 cyc } fun n => { n with count := n.count + 1 })
      else .next t
    | o => o

/-- Issues the next bundle of a native group. -/
noncomputable def issueNative (s : State) (n : Native) : Out :=
  let img := imageOf s s.cur
  let s := setNat s fun n => { n with at_ := (n.clause, n.bundle) }
  match decodeClause (imgUnit img n.clause) with
  | .error _ => .next (nativeIllegal s)
  | .ok c =>
    if clauseBad s img c then .next (nativeIllegal s)
    else
      let s := setCur s landDue
      let s := if n.bundle = 0 then enterClause s c else s
      match decodeBundle (imgUnit img (nextOff n)) with
      | .error _ => .next (nativeIllegal s)
      | .ok b =>
        if bundleBad s img c b then .next (nativeIllegal s)
        else withUpset (noteBundle s img c b) fun s' => runBundle s' img c b s

/-! ## One issue -/

/-- The group goes on with what it waits for, or issues its next instruction or bundle. -/
noncomputable def issueOne (s : State) : Out :=
  match s.cur.wait with
  | some w => .next (waitIssue s w)
  | none =>
    match s.cur.fe with
    | some w => .next (feStep w s)
    | none =>
      let s := countIssue s (usesPort s)
      match s.cur.native with
      | some n => issueNative s n
      | none => issueTvf s

/-- One of the recruiter's own parties issues, or claims again (R220, R335). A recruiter asked to stop begins no further
iteration (R225). -/
noncomputable def issueParty (s : State) (u : Nat) : Out :=
  match groupOf s u with
  | none => .next s
  | some p =>
    match p.party with
    | none => .next s
    | some pt =>
      let stop := match groupOf s pt.group with
        | some g => mustStop s g && !pt.begun
        | none => false
      if pt.gone || p.st != .active || stalledNative s p || stop then .next s
      else if pt.chunk.isNone then .next (claimNext s u)
      else if isReady (takeUp s u) then issueOne (takeUp s u) else .next s

noncomputable def issueParties (s : State) : List Nat → Out
  | [] => .next s
  | u :: us =>
    match issueParty s u with
    | .next t => issueParties t us
    | o => o

/-- The recruiter's own parties of a group. -/
def ownParties (s : State) (u : Nat) : List Nat :=
  ((partiesOf s u).filter fun p => p.party.any fun pt => pt.helper == 0).map (·.uid)

/-- The turn of the group taken up: its parties' while it stands at a HERD, else its own. -/
noncomputable def issueTurn (s : State) : Out :=
  match s.cur.herd with
  | some h =>
    if h.phase = 0 then issueOne s
    else match ownParties s s.cur.uid with
      | [] => if h.phase = 1 then issueOne (setPhase s 0) else .next s
      | us =>
        let me := s.cur.uid
        match issueParties (countIssue s false) us with
        | .next t => .next (takeUp t me)
        | o => o
  | none => issueOne s

/-- Whether a group's turn would issue something. -/
noncomputable def turnReady (s : State) : Bool :=
  s.cur.wait.isSome || s.cur.fe.isSome || (s.cur.herd.any fun h => h.phase != 0) || isReady s

/-- Whether a helper's next bundle is ready and the port is free for it where it uses the port (R224). -/
noncomputable def helperReady (s : State) : Bool :=
  let c := coreOf s s.cur.die s.cur.core
  isReady s && !(usesPort s && c.portUsed && c.helperAt == s.cycle)

/-- The issue at the opportunity in hand: the group taken up, or, while its bundle is not ready, the next
one of its core whose bundle is (R24). -/
noncomputable def issue (s : State) : Out :=
  let s := { s with issuing := false }
  if s.cur.party.isSome then
    match (helperOrder s s.cur.die s.cur.core).find? fun u => helperReady (takeUp s u) with
    | some u => issueOne (takeUp s u)
    | none => .next s
  else if turnReady s then issueTurn s
  else match (issueOrder s s.cur.die s.cur.core).find? fun u => turnReady (takeUp s u) with
    | some u => issueTurn (takeUp s u)
    | none => .next s

/-! ## After every step -/

/-- Helpers in slots of a group that has left WAITING are released (R221). -/
def releaseWoken (old new : State) : State :=
  let was (u : Nat) : Bool := match groupOf old u with
    | some g => g.st == .waiting
    | none => false
  let is (u : Nat) : Bool := match groupOf new u with
    | some g => g.st == .waiting
    | none => false
  let go (p : Group) : Group := match p.party with
    | some pt => if pt.helper != 0 && (match pt.slot with
        | some (b, _) => was b && !is b
        | none => false) then releaseParty p else p
    | none => p
  { new with cur := go new.cur, others := new.others.map go }

/-- Time passes: by amounts that the spec does not fix. -/
def passTime (s : State) : State :=
  { s with upset := if s.issuing then s.upset else .clean,
           steps := s.steps + 1, tick := s.tick + Config.ticksOf s.steps,
           cycle := s.cycle + Config.cyclesOf s.steps }

/-- What ends every step: errors that writes met are logged (R407), and time passes. -/
def settle (old : State) : Out → Out
  | .next s => .next (passTime (releaseWoken old (logNews s)))
  | o => o

end Sys2Proof.Machine
end

