-- ==== Sys2Proof/Machine/Fetch.lean ====
section
/-! DEFINITION. Which instructions are events of the device and its surroundings, and the placing of one
instruction where the next step fetches (05 R118, R119, R125; 14 R289 to R292). -/

namespace Sys2Proof.Machine

open Sys2Proof

/-! ## Events -/

/-- What may come about of itself between issues: neither an instruction of a program nor a packet. -/
def isEvent : Instr → Bool
  | .issueOpportunity .. | .translationRegenerated .. | .helperBeat .. | .activation .. | .demotion ..
  | .waitingDemotion .. | .waitEvaluation .. | .herdJoin .. | .groupEnd .. | .teamPlacement ..
  | .pressureTranslation .. | .taskGroupForm .. | .taskGroupStart .. | .tokenComplete .. | .batchComplete ..
  | .variableLatencyComplete .. | .drainPointStop .. | .freezeEnd .. | .schedulerIllegalState ..
  | .schedulerRebuilt .. | .patrolScrub .. | .watchdogCheck | .watchdogFreeze .. | .watchdogTerminate ..
  | .translationReport .. | .translationComplete .. | .dependentStart .. | .launchRetire .. | .signalPoll ..
  | .waitSignalTimeout .. | .kick .. | .shepherdPass | .unmap .. | .collieVisit | .suspend .. | .unload ..
  | .resume .. | .contextSave .. | .flush .. | .killCtx .. | .priResponse .. | .atsInvalidation ..
  | .errinjGo | .dumpGo | .dumpRequest | .dumpComplete | .mctpRead .. | .lifetimeWrite
  | .histogramSecond .. | .ageingMeasure .. | .powerMeasure .. | .steerInterval .. | .sampleFiring ..
  | .perstDeassert .. | .activateFirmware | .getVersion | .getCapabilities | .negotiateAlgorithms ..
  | .getDigests | .getCertificate .. | .challenge .. | .getMeasurements .. | .keyExchange .. | .finish ..
  | .dumpKeyRelease .. | .tlIdent .. | .flitCrcRetry .. | .portDownTimeout .. | .registerWrite ..
  | .remoteAccess .. | .portDown .. | .portUp .. | .perstAssert | .firmwareUpdate .. | .storeLeavesQueue ..
  | .storeBecomesVisible .. | .randomBitQueueRefill .. | .copyPacketComplete .. => true
  | _ => false

/-- An event that the free environment brings. -/
def eventOr (i : Option Instr) (s : State) : Out :=
  match i with
  | some i => if isEvent i then exec i s else .next s
  | none => .next s

/-! ## A program of one instruction -/

/-- A code object with one function of one block: its header's fields, the table entry, the block marker
and the instruction's words (R118, R119, R125). -/
def oneObject (ws : List Word) : List Word :=
  [0, 0, 0, 68 + 4 * BitVec.ofNat 32 ws.length, 64, 1, 0, 0, 0, 0, 0, 0, 0, 0, 0, 0,
   80, 1 + BitVec.ofNat 32 ws.length, 0, 0, 0xFF800000] ++ ws

/-- The words of an instruction whose header word, and perhaps more, are given; the words after are zero. -/
def tableWords (w : Nat) : List Word :=
  BitVec.ofNat 32 w :: BitVec.ofNat 32 (w / 2 ^ 32) :: List.replicate 16 0

/-- The 8 words of 256 bits. -/
def unitWords (x : Nat) : List Word := (List.range 8).map fun i => BitVec.ofNat 32 (x / 2 ^ (32 * i))

/-- An image of one clause of one bundle (R289, R290): no flag, cluster 0, no side table. -/
def oneImage (bundle : Nat) : List Word :=
  unitWords (2 * 2 ^ 64 + 255 * 2 ^ 32 + 0x31464254)
    ++ unitWords (0xFFFFF * 2 ^ 48 + 1 * 2 ^ 24 + 255 * 2 ^ 12) ++ unitWords bundle

/-- The bundle that holds a 24-bit slot field in the slot that knows it: branch, engine or converter. -/
noncomputable def oneBundle (w : Nat) : Nat :=
  let f : BitVec 24 := BitVec.ofNat 24 w
  match decodeBr f with
  | .ok _ => f.toNat * 2 ^ 56
  | .error _ => match decodeEn f with
    | .ok _ => f.toNat * 2 ^ 224
    | .error _ => f.toNat * 2 ^ 200

def emptyHdr : PktHdr :=
  { q := { fn := 0, qid := 0 }, n := 0, cls := 0, acq := 0, rel := 0, sigOp := 0, sigVal := 0, sigAddr := 0,
    statAddr := 0 }

def emptyBody : LaunchBody :=
  { producer := 0, resultBytes := 0, resultAddr := 0, placeCount := 0, placeAddr := 0, seed := 0, teams := 1,
    hashResult := false, helpersOff := false, checked := false, kernel := 0, argBytes := 0, args := 0,
    code := 0 }

/-- A running launch of an object. -/
def oneLaunch (uid : Nat) (words : List Word) : Launch :=
  { uid, ctx := 0, seq := 0, hdr := emptyHdr, body := emptyBody, producer := 0, words, digest := [], args := [],
    places := [], checked := false, stage := .running, asked := [], reports := [], trs := [], placed := 1, ended := 0,
    dets := 0, tasks := 0, trigs := 0, releases := [], ends := [], elapsed := 0, start := none, fired := false,
    arrived := 0, waits := [], press := [] }

/-- An ACTIVE group of width 16 on core 0 of die 0. -/
def oneGroup (uid launch : Nat) (native : Option Native) : Group :=
  { Group.free with
    uid, kind := .spawned, st := .active, age := uid, launch, teamIdx := [0], gidx := 0xFFFF, active := fullMask 16,
    off := 1, frames := [Frame.enter 0 [] (fullMask 16)], fast := true, native }

/-- The group taken up for issue, with its launch. -/
def placeGroup (s : State) (words : List Word) (tr : Option Trans) (native : Option Native) : State :=
  { s with
    cur := oneGroup s.nextId (s.nextId + 1) native, issuing := true, upset := .clean,
    others := if s.cur.st == .free then s.others else s.cur :: s.others,
    launches := oneLaunch (s.nextId + 1) words :: s.launches,
    trans := tr.toList ++ s.trans, nextId := s.nextId + 3 }

/-- The native side of a group at an image's first clause, its converter set to f32 to e4m3 and tile 0 a
tile of f32, as the converter's operations need. -/
def oneNative (tr : Nat) : Native :=
  { Native.start tr with
    cvctl := 0xAC, t := [(0, Tile.zero { elem := .f32, colsM1 := 0, rowsM1 := 0 })] }

/-- A translation of an image. -/
def oneTrans (uid : Nat) (image : List Word) : Trans :=
  { uid, key := { digest := [], xlat := 0, fn := 0, budget := 0, tiles := 16, minGroups := 0, gen := 2,
                  width := 16, checked := false },
    budget := 256, spillUnits := 0, areas := [], uniOff := 0, barriers := 0, image, owner := 0, stored := false, used := 0,
    made := 0 }

end Sys2Proof.Machine
end

