-- ==== Sys2Proof/Machine/Step.lean ====
section
/-! DEFINITION. One step of the device: the instruction or bundle of the group taken up for issue, else the
next packet of the agenda, else an event that the free environment brings. -/

namespace Sys2Proof.Machine

open Sys2Proof

/-- One step. -/
noncomputable def step (s : State) : Host.Outcome State Fault Refusal :=
  if s.issuing then settle s (issue s)
  else match s.agenda with
    | i :: rest => settle s (exec i { s with agenda := rest })
    | [] => settle s (eventOr (Config.environment s.steps) s)

/-- `s` with one instruction placed where `step` fetches next: a group that has been placed by a launch of
an object, or of an image for a slot field, with just that instruction (notes/assumptions/12.md). -/
noncomputable def State.withFetchWord (s : State) (nbits w : Nat) : State :=
  if nbits = 24 then
    placeGroup s [] (some (oneTrans (s.nextId + 2) (oneImage (oneBundle w)))) (some (oneNative (s.nextId + 2)))
  else placeGroup s (oneObject (tableWords w)) none none

end Sys2Proof.Machine
end

