-- ==== Sys2Proof/Safety.lean ====
section
/-! DEFINITION. What counts as a safe run, and the terms in which the statements speak: the results and the
frame of an instruction, the results of a bundle that are in flight, and the places that a step may touch. -/

namespace Sys2Proof.Safety

open Sys2Proof Sys2Proof.Machine

/-! ## Runs -/

/-- The invariant of every step: memory stands in its canonical form. -/
def StateInv (s : State) : Prop := s.mem.wf = true

/-- A run of `k` steps that meets no stop. -/
noncomputable def runs : (k : Nat) → State → Option State
  | 0, s => some s
  | k + 1, s =>
    match step s with
    | .next t => runs k t
    | _ => none

/-- A state is safe for `k` steps when the run stands and every state on it meets the invariant. -/
def SafeFor : (k : Nat) → State → Prop
  | 0, s => StateInv s
  | k + 1, s => StateInv s ∧ ∃ t, step s = .next t ∧ SafeFor k t

/-! ## Value Form results -/

/-- The group taken up for issue is held, has at most 64 threads (R11), its active threads among them, and runs
a function. -/
def Running (s : State) : Prop :=
  s.cur.st ≠ .free ∧ s.cur.width ≤ 64 ∧ s.cur.active &&& ~~~fullMask s.cur.width = 0 ∧ s.cur.frames ≠ []

/-- Value `n` of the function in hand, as thread `th` holds it. -/
def valueAt (s : State) (n th : Nat) : Lane := getLane (valLanes s.cur n) th

/-- The threads that receive a result: every thread in the uniform form (R32), else the active ones. -/
def Receives (s : State) (uni : Bool) (th : Nat) : Prop :=
  th < s.cur.width ∧ (uni = true ∨ s.cur.active.getLsbD th = true)

/-- The frame of an instruction with `k` results: nothing but the portable PC and the values of its results
changes, and those change only for the threads that receive them. -/
structure Wrote (s t : State) (uni : Bool) (k : Nat) : Prop where
  only : t = { s with cur := { s.cur with frames := t.cur.frames, off := s.cur.off + hereLen s } }
  callers : t.cur.frames.tail = s.cur.frames.tail
  frame : ∀ f, s.cur.frames.head? = some f → ∃ vs, t.cur.frames.head? = some { f with vals := vs }
  others : ∀ n th, n < hereVal s ∨ hereVal s + k ≤ n → valueAt t n th = valueAt s n th
  idle : ∀ n th, th < s.cur.width → ¬ Receives s uni th → valueAt t n th = valueAt s n th

/-- The results stand in the values of the instruction: `res` has one function for each, of the thread, or of
the group's leader in the uniform form. -/
def Gives (s t : State) (uni : Bool) (res : List (Nat → Nat)) : Prop :=
  ∀ j f, res[j]? = some f → ∀ th, Receives s uni th →
    valueAt t (hereVal s + j) th = lane (f (if uni then leader s else th))

/-- The instruction completes with exactly these results. -/
def Computes (i : Instr) (s : State) (uni : Bool) (res : List (Nat → Nat)) : Prop :=
  ∃ t, exec i s = .next t ∧ Wrote s t uni res.length ∧ Gives s t uni res

/-! ## Accesses in turn -/

/-- Accesses of (thread, key) pairs in turn, each finding what those before it left (R69, R167): the results
by thread, and the state left. -/
def inTurn {σ : Type} (f : Nat → Nat → σ → List Nat × σ) : List (Nat × Nat) → σ → List (Nat × List Nat) × σ
  | [], x => ([], x)
  | (t, k) :: rest, x =>
    let (r, x) := f t k x
    let (rs, x) := inTurn f rest x
    ((t, r) :: rs, x)

/-- The little-endian number of `n` bytes from a key. -/
def wordOf (m : Mem) (n k : Nat) : Nat := leNat ((keysFrom n k).map m.byte)

/-- One word of a map replaced. -/
def put {α : Type} (k : Nat) (v : α) (f : Nat → α) : Nat → α := fun x => if x = k then v else f x

/-- No store to `n` bytes from `k` stands in the issuing group's queue or in memory's history. -/
def Untouched (s : State) (k n : Nat) : Prop :=
  ∀ i, i < n → (∀ q, q ∈ s.cur.storeQ → ∀ b, b ∈ q.bytes → b.1 ≠ k + i) ∧
    (∀ st, st ∈ s.mem.hist → st.writes (k + i) = false)

/-- The keys of the accesses of `n` bytes at the addresses of the accessing threads. -/
def keysOf (s : State) (uni : Bool) (addr : Nat → Nat) (n : Nat) (write : Bool) : List (Nat × Nat) :=
  (accessors s uni).filterMap fun t => (groupNear s s.cur (addr t) n write).map fun k => (t, k)

/-- Every accessing thread passes R166: aligned to `al` bytes and inside a window. -/
def AllPass (s : State) (uni : Bool) (addr : Nat → Nat) (al n : Nat) (write : Bool) : Prop :=
  ∀ t, t ∈ accessors s uni → addr t % al = 0 ∧ (groupNear s s.cur (addr t) n write).isSome

/-! ## Names, branches and places -/

/-- The names of the held groups are below the next fresh one, and no two groups share one. -/
def NamesFresh (s : State) : Prop :=
  (∀ g, g ∈ heldGroups s → g.uid < s.nextId) ∧ ((heldGroups s).map (·.uid)).Nodup

/-- The instructions and block markers of the function in hand. -/
def itemsOf (s : State) : List Item := topItems (groupWords s s.cur) s.cur

/-- Block `b` is the reconvergence point of the path in hand (R30). -/
def AtJoin (s : State) (b : Nat) : Prop :=
  ∃ f fs e es, s.cur.frames = f :: fs ∧ s.cur.stack = e :: es ∧ f.base < s.cur.stack.length ∧ e.rpc = some b

/-- The threads of a mask hold the arguments of a target in the values of its block (R132, R203); an argument
of a tile type is not one of these. -/
def Passed (s t : State) (m : Mask) (x : Target) : Prop :=
  ∀ it, blockItem (itemsOf s) x.blk.toNat = some it → ∀ j a ty, x.args[j]? = some a →
    (it.types (groupWords s s.cur))[j]? = some ty → ty.1 ≠ .tile →
    (∀ k, k ≤ j → ∀ ty', (it.types (groupWords s s.cur))[k]? = some ty' → ty'.1 ≠ .tile) →
    ∀ th, th < s.cur.width → m.getLsbD th = true → valueAt t (it.val + j) th = opd s ty.1 a th

/-! ## Bundle Form results -/

/-- The group taken up for issue is held, has at most 64 threads (R11), its active threads among them, and its
native side is `n`. -/
def InBundle (s : State) (n : Native) : Prop :=
  s.cur.st ≠ .free ∧ s.cur.width ≤ 64 ∧ s.cur.active &&& ~~~fullMask s.cur.width = 0 ∧ s.cur.native = some n

/-- The state with results put in flight, and nothing else changed. -/
def inFlight (s : State) (n : Native) (ps : List Pend) : State :=
  { s with cur := { s.cur with native := some { n with pend := n.pend ++ ps } } }

/-- The slot operation completes with one result in flight for the active threads of a vector register. -/
def PendsV (i : Instr) (s : State) (n : Native) (slot : Nat) (l : LatClass) (cl d w : Nat) (f : Nat → Nat) : Prop :=
  ∃ p, exec i s = .next (inFlight s n [p]) ∧ p.land = n.count + landAfter s l ∧ p.born = n.count ∧
    p.slot = slot ∧ p.dst = .v cl d (decide (w = 64)) ∧ p.mask = s.cur.active ∧
    ∀ th, th < s.cur.width → getLane p.vals th = lane (f th % 2 ^ w)

/-- The same for a predicate register: bit `th` of its lane is the thread's. -/
def PendsK (i : Instr) (s : State) (n : Native) (slot : Nat) (l : LatClass) (k : Nat) (f : Nat → Bool) : Prop :=
  ∃ p, exec i s = .next (inFlight s n [p]) ∧ p.land = n.count + landAfter s l ∧ p.born = n.count ∧
    p.slot = slot ∧ p.dst = .k k ∧ p.mask = s.cur.active ∧
    ∀ th, th < s.cur.width → th < 64 → (getLane p.vals 0).getLsbD th = f th

/-- The same for a uniform register or pair. -/
def PendsU (i : Instr) (s : State) (n : Native) (d : Nat) (wide : Bool) (x : Nat) : Prop :=
  ∃ p, exec i s = .next (inFlight s n [p]) ∧ p.land = n.count + landAfter s .unif ∧ p.born = n.count ∧
    p.slot = 0 ∧ p.dst = .s d wide ∧ getLane p.vals 0 = lane x

/-- The slot operation completes with exactly one result in flight, and nothing else changed. -/
def Sends (i : Instr) (s : State) (n : Native) (k slot : Nat) (d : Dst) (m : Mask) (vals : List Lane) : Prop :=
  exec i s = .next (inFlight s n [{ land := n.count + k, born := n.count, slot, dst := d, mask := m, vals }])

/-- The same with a vector result of `w` bits and a predicate that goes with it. -/
def PendsVK (i : Instr) (s : State) (n : Native) (slot : Nat) (l : LatClass) (cl d w k : Nat) (f : Nat → Nat)
    (b : Nat → Bool) : Prop :=
  ∃ p q, exec i s = .next (inFlight s n [p, q]) ∧
    p.land = n.count + landAfter s l ∧ p.born = n.count ∧ p.slot = slot ∧
    p.dst = .v cl d (decide (w = 64)) ∧ p.mask = s.cur.active ∧
    q.land = n.count + landAfter s l ∧ q.born = n.count ∧ q.slot = slot ∧ q.dst = .k k ∧ q.mask = s.cur.active ∧
    ∀ th, th < s.cur.width →
      getLane p.vals th = lane (f th % 2 ^ w) ∧ (getLane q.vals 0).getLsbD th = b th

/-- `m` with a variable-latency operation under a flag added to the native side (R300). -/
def underFlag (m : State) (n : Native) (flag : Nat) (ds : List (Dst × Mask × List Lane)) : State :=
  { m with cur := { m.cur with native := some { n with
      flags := n.flags.zipIdx.map fun p => if p.2 = flag then p.1 + 1 else p.1,
      var := n.var ++ [{ flag, dsts := ds }] } } }

/-- One number for each thread of a group. -/
def lanesOf (s : State) (f : Nat → Nat) : List Lane := (List.range s.cur.width).map fun t => lane (f t)

/-! ## Memory operations -/

/-- `t` differs from `s` in memory, the store queue and the ordering marks of the issuing group, and the
numbers of names and free choices alone. -/
def MemoryOnly (s t : State) : Prop :=
  t = { s with
    mem := t.mem, free := t.free, nextId := t.nextId,
    cur := { s.cur with storeQ := t.cur.storeQ, floor := t.cur.floor, acq := t.cur.acq,
                        early := t.cur.early, carry := t.cur.carry } }

/-- Memory stands in its canonical form and holds no damaged word and no line under a key. -/
def Undamaged (s : State) : Prop :=
  s.mem.damage.words = [] ∧ s.mem.damage.poison = [] ∧ s.mem.seals = [] ∧ s.mem.wf = true

/-- An acquire point for a reach stands at an instant. -/
def AcquiredAt (g : Group) (r : Reach) (t : Nat) : Prop := ∃ a, a ∈ g.acq ∧ a.reach = r ∧ a.at_ = t

/-- No held group's store queue holds a store to a byte. -/
def Settled (s : State) (b : Nat) : Prop :=
  ∀ g, g ∈ heldGroups s → ∀ q, q ∈ g.storeQ → ∀ x, x ∈ q.bytes → x.1 ≠ b

/-- Every byte that no queue holds a store to keeps its value, and every full/empty bit its own. -/
def KeepsSettled (s t : State) : Prop :=
  t.mem.full = s.mem.full ∧ ∀ b, Settled s b → t.mem.byte b = s.mem.byte b

/-! ## Tiles, trees and conditions -/

/-- The instruction completes with a tile as its result, and nothing else changes. -/
def MakesTile (i : Instr) (s m : State) (T : Tile) : Prop :=
  ∀ f fs, m.cur.frames = f :: fs → exec i s = .next { m with
    cur := { m.cur with off := s.cur.off + hereLen s,
                        frames := { f with tiles := assocSet (hereVal s) T f.tiles } :: fs } }

/-- The tree of R105 over the active threads of `[lo, lo + 2 ^ d)`: the two halves combined; a half with no
active thread leaves the other as it is. -/
def treeOf (f : Nat → Nat → Nat) (act : Mask) (x : Nat → Nat) : (d lo : Nat) → Option Nat
  | 0, lo => if act.getLsbD lo then some (x lo) else none
  | d + 1, lo =>
    match treeOf f act x d lo, treeOf f act x d (lo + 2 ^ d) with
    | some a, some b => some (f a b)
    | some a, none => some a
    | none, b => b

/-- Whether a wait condition that reads no signal holds (R183, R185). -/
def condHolds (s : State) : CondV → Bool
  | .token h => tokenDone s.cur h
  | .fullWord a => (groupNear s s.cur a.toNat 8 false).any fun k => s.mem.isFull k
  | .emptyWord a => (groupNear s s.cur a.toNat 8 false).any fun k => !s.mem.isFull k
  | .barrier b p => (teamOf s s.cur.team).any fun t => phaseDone t b p
  | .matrix n => batchDone s.cur n
  | .sig _ _ _ => false

def readsSignal : CondV → Bool
  | .sig _ _ _ => true
  | _ => false

/-! ## Packets -/

/-- A packet of a mapped queue whose context is on the device and not confidential, in undamaged memory: nothing
bars its start. -/
def Serves (s : State) (h : PktHdr) (qu : Queue) (c : Ctx) : Prop :=
  queueOf s h.q = some qu ∧ ctxOf s qu.ctx = some c ∧ (∀ x, x ∈ s.ctxs → x.id = qu.ctx → x.st ≠ .unloaded) ∧
  c.confidential = false ∧ slotOf s h.q ≠ none ∧ Undamaged s

/-- The state in which a packet of a loaded context begins: two names for keys are used up. -/
def begun (s : State) : State := { s with nextId := s.nextId + 2 }

/-- The memory of `t` is that of `s` with the 8 bytes of a number at a key. -/
def Puts8 (s t : State) (k v : Nat) : Prop :=
  t.mem.full = s.mem.full ∧
  ∀ b, t.mem.byte b = if k ≤ b ∧ b < k + 8 then BitVec.ofNat 8 (v / 256 ^ (b - k)) else s.mem.byte b

/-- The header asks for a status record, and the completion for a signal (R360). -/
def hasStat (h : PktHdr) : Prop := h.statAddr ≠ 0 ∧ h.statAddr.toNat % 8 = 0
def hasSig (h : PktHdr) (sig : Bool) : Prop :=
  sig = true ∧ (h.sigOp = 1 ∨ h.sigOp = 2) ∧ h.sigAddr.toNat % 8 = 0

/-- The word that a status record holds, and the new value of a signal word. -/
def statWord (st : Status) (seq : BitVec 32) : Nat := st.code + seq.toNat * 2 ^ 32
def sigWord (h : PktHdr) (old : Nat) : Nat :=
  if h.sigOp = 1 then h.sigVal.toNat else (old + 2 ^ 64 - h.sigVal.toNat) % 2 ^ 64

/-- `t` is `s` with the packet's record out of the launch table and nothing else of the front end changed. -/
def Ended (s t : State) (h : PktHdr) : Prop :=
  t = { s with
    mem := t.mem, free := t.free, nextId := t.nextId,
    front := { s.front with started := s.front.started.filter fun p => !(p.hdr.q == h.q && p.hdr.n == h.n) } }

/-! ## Events about groups -/

/-- No two held groups share a name, and none of those beside the one taken up for issue is free. -/
def Distinct (s : State) : Prop := ((heldGroups s).map (·.uid)).Nodup ∧ ∀ g, g ∈ s.others → g.st ≠ .free

/-- The state with one held group changed: the group named `u` is `g'`, every other held group is as it was, and
so is everything outside the groups. -/
def OneGroup (s t : State) (u : Nat) (g' : Group) : Prop :=
  groupOf t u = some g' ∧ (∀ v, v ≠ u → groupOf t v = groupOf s v) ∧
  t = { s with cur := t.cur, others := t.others }

end Sys2Proof.Safety
end

