-- ==== Sys2Proof/Certificates/Slice0/Obligations.lean ====
section
/-! DEFINITION. The statements about the machine that the provers prove. -/

open Sys2Proof Sys2Proof.Machine Sys2Proof.Safety

/-! ## Value Form: integers -/

/-- R141: the arithmetic instructions, as the rule's pseudocode reads. `a`, `b`, `c` are the operands read
unsigned, `x`, `y` read signed. Each completes, writes its results to the threads that receive them and
changes nothing else.

R142: division and remainder, with the results by zero and of the one signed overflow. -/
def Obligations.IntegerArithmetic : Prop :=
  (∀ (s : State) (o : Op2) (q : Op3) (p : Op1), Running s →
     let w := o.ty.width
     let a := opdN s o.ty o.a
     let b := opdN s o.ty o.b
     let x (t : Nat) : Int := sgn w (a t)
     let y (t : Nat) : Int := sgn w (b t)
     let lo : Int := -(2 ^ (w - 1) : Nat)
     let hi : Int := (2 ^ (w - 1) : Nat) - 1
     let v := q.ty.width
     let qa := opdN s q.ty q.a
     let qb := opdN s q.ty q.b
     let qc := opdN s q.ty q.c
     let cin := opdN s .i1 q.c
     let z (t : Nat) : Int := sgn p.ty.width (opdN s p.ty p.a t)
     Computes (.add o) s o.uni [fun t => (a t + b t) % 2 ^ w] ∧
     Computes (.sub o) s o.uni [fun t => lowI w ((a t : Int) - b t)] ∧
     Computes (.mul o) s o.uni [fun t => (a t * b t) % 2 ^ w] ∧
     Computes (.mad q) s q.uni [fun t => (qa t * qb t + qc t) % 2 ^ v] ∧
     Computes (.mulHiS o) s o.uni [fun t => lowI w (x t * y t / (2 ^ w : Nat))] ∧
     Computes (.mulHiU o) s o.uni [fun t => (a t * b t / 2 ^ w) % 2 ^ w] ∧
     Computes (.addSatS o) s o.uni [fun t => lowI w (clampI (x t + y t) lo hi)] ∧
     Computes (.subSatS o) s o.uni [fun t => lowI w (clampI (x t - y t) lo hi)] ∧
     Computes (.addSatU o) s o.uni [fun t => (clampI ((a t : Int) + b t) 0 ((2 ^ w : Nat) - 1)).toNat] ∧
     Computes (.subSatU o) s o.uni [fun t => (clampI ((a t : Int) - b t) 0 ((2 ^ w : Nat) - 1)).toNat] ∧
     Computes (.addCc o) s o.uni [fun t => (a t + b t) % 2 ^ w, fun t => if 2 ^ w ≤ a t + b t then 1 else 0] ∧
     Computes (.addc q) s q.uni [fun t => (qa t + qb t + cin t) % 2 ^ v,
       fun t => if 2 ^ v ≤ qa t + qb t + cin t then 1 else 0] ∧
     Computes (.subCc o) s o.uni [fun t => lowI w ((a t : Int) - b t), fun t => if a t < b t then 1 else 0] ∧
     Computes (.subc q) s q.uni [fun t => lowI v ((qa t : Int) - qb t - cin t),
       fun t => if qa t < qb t + cin t then 1 else 0] ∧
     Computes (.minS o) s o.uni [fun t => if x t ≤ y t then a t else b t] ∧
     Computes (.minU o) s o.uni [fun t => if a t ≤ b t then a t else b t] ∧
     Computes (.maxS o) s o.uni [fun t => if y t ≤ x t then a t else b t] ∧
     Computes (.maxU o) s o.uni [fun t => if b t ≤ a t then a t else b t] ∧
     Computes (.neg p) s p.uni [fun t => lowI p.ty.width (-(z t))] ∧
     Computes (.abs p) s p.uni [fun t => if z t < 0 then lowI p.ty.width (-(z t)) else opdN s p.ty p.a t]) ∧
  (∀ (s : State) (o : Op2), Running s →
     let w := o.ty.width
     let a := opdN s o.ty o.a
     let b := opdN s o.ty o.b
     let x (t : Nat) : Int := sgn w (a t)
     let y (t : Nat) : Int := sgn w (b t)
     let ovf (t : Nat) : Prop := x t = -(2 ^ (w - 1) : Nat) ∧ y t = -1
     Computes (.divU o) s o.uni [fun t => if b t = 0 then 2 ^ w - 1 else a t / b t] ∧
     Computes (.remU o) s o.uni [fun t => if b t = 0 then a t else lowI w ((a t : Int) - (a t / b t : Nat) * b t)] ∧
     (∃ q, Computes (.divS o) s o.uni [q] ∧ ∀ t,
       (y t = 0 → q t = 2 ^ w - 1) ∧ (y t ≠ 0 → ovf t → q t = a t) ∧
       (y t ≠ 0 → ¬ ovf t → q t = lowI w (Int.tdiv (x t) (y t)))) ∧
     (∃ m, Computes (.remS o) s o.uni [m] ∧ ∀ t,
       (y t = 0 → m t = a t) ∧ (y t ≠ 0 → ovf t → m t = 0) ∧
       (y t ≠ 0 → ¬ ovf t → m t = lowI w (x t - Int.tdiv (x t) (y t) * y t))))

/-- R143: logic, shifts, rotates and the bit instructions; the counts and the reversal are read off the bits
of the operand one by one.

R144: the bit-field instructions, whose field may run past the top of the source. -/
def Obligations.BitOperations : Prop :=
  (∀ (s : State) (o : Op2) (p : Op1), Running s →
     let w := o.ty.width
     let a := opdN s o.ty o.a
     let b := opdN s o.ty o.b
     let n := opdN s .i32 o.b
     let v := p.ty.width
     let c := opdN s p.ty p.a
     let zeros (bit : Nat → Bool) : Nat := ((List.range v).takeWhile fun i => !bit i).length
     Computes (.and o) s o.uni [fun t => a t &&& b t] ∧
     Computes (.or o) s o.uni [fun t => a t ||| b t] ∧
     Computes (.xor o) s o.uni [fun t => a t ^^^ b t] ∧
     Computes (.not p) s p.uni [fun t => 2 ^ v - 1 - c t] ∧
     Computes (.shl o) s o.uni [fun t => if w ≤ n t then 0 else (a t * 2 ^ n t) % 2 ^ w] ∧
     Computes (.shrU o) s o.uni [fun t => if w ≤ n t then 0 else a t / 2 ^ n t] ∧
     Computes (.shrS o) s o.uni
       [fun t => lowI w (sgn w (a t) / (2 ^ (if w ≤ n t then w - 1 else n t) : Nat))] ∧
     Computes (.rotl o) s o.uni [fun t => (a t * 2 ^ (n t % w) + a t / 2 ^ (w - n t % w)) % 2 ^ w] ∧
     Computes (.rotr o) s o.uni [fun t => (a t / 2 ^ (n t % w) + a t * 2 ^ (w - n t % w)) % 2 ^ w] ∧
     Computes (.clz p) s p.uni [fun t => zeros fun i => (c t).testBit (v - 1 - i)] ∧
     Computes (.ctz p) s p.uni [fun t => zeros fun i => (c t).testBit i] ∧
     Computes (.popc p) s p.uni [fun t => (List.range v).countP fun i => (c t).testBit i] ∧
     (∃ r, Computes (.brev p) s p.uni [r] ∧ ∀ t, r t < 2 ^ v ∧
       ∀ i, i < v → (r t).testBit i = (c t).testBit (v - 1 - i))) ∧
  (∀ (s : State) (o : Op3) (q : Op4), Running s →
     let w := o.ty.width
     let p (t : Nat) : Nat := min (opdN s .i32 o.b t) w
     let l (t : Nat) : Nat := min (opdN s .i32 o.c t) w
     let f (t : Nat) : Nat := opdN s o.ty o.a t / 2 ^ p t % 2 ^ l t
     let v := q.ty.width
     let qp (t : Nat) : Nat := min (opdN s .i32 q.c t) v
     let ql (t : Nat) : Nat := min (opdN s .i32 q.d t) v
     let mk (t : Nat) : Nat := ((2 ^ ql t - 1) * 2 ^ qp t) % 2 ^ v
     Computes (.bfeU o) s o.uni [f] ∧
     Computes (.bfeS o) s o.uni [fun t =>
       if l t = 0 then 0
       else if (f t).testBit (l t - 1) then lowI w ((f t : Int) - (2 ^ l t : Nat)) else f t] ∧
     Computes (.bfi q) s q.uni [fun t =>
       (opdN s q.ty q.a t &&& (2 ^ v - 1 - mk t)) ||| ((opdN s q.ty q.b t * 2 ^ qp t) % 2 ^ v &&& mk t)])

/-- R145 and R146: the width changes, and the instructions that change only the OFFSET field of a near
address. -/
def Obligations.WidthsAndNear : Prop :=
  ∀ (s : State) (p : Op1) (o : Op2) (q : Op3), Running s →
    let src := opdTy s p.a
    let x := opdN s src p.a
    let at22 (a : Nat) (d : Int) : Nat := a / 2 ^ 22 * 2 ^ 22 + lowI 22 ((a % 2 ^ 22 : Nat) + d)
    let near := opdN s .near
    Computes (.sext p) s p.uni [fun t => lowI p.ty.width (sgn src.width (x t))] ∧
    Computes (.zext p) s p.uni [x] ∧
    Computes (.trunc p) s p.uni [fun t => x t % 2 ^ p.ty.width] ∧
    Computes (.nadd o) s o.uni [fun t => at22 (near o.a t) (sgn 64 (opdN s .i64 o.b t))] ∧
    Computes (.nidx q) s q.uni
      [fun t => at22 (near q.a t) (sgn 64 (opdN s .i64 q.b t) * (opdN s .i32 q.c t : Int))] ∧
    Computes (.nmake o) s o.uni [fun t => opdN s .i32 o.a t * 2 ^ 22 + opdN s .i32 o.b t % 2 ^ 22] ∧
    Computes (.nsplit p) s p.uni [fun t => near p.a t / 2 ^ 22 % 2 ^ 14, fun t => near p.a t % 2 ^ 22]

/-! ## Value Form: floating point, conversions, compare and select -/

/-- R149, R91, R92 and R96 to R98: the rounding arithmetic forms the exact result and rounds it once in the
mode of its rounding code, and a NaN result is the canonical NaN.

R150: `frint` gives the integer beside its operand that the mode selects, with the operand's sign. -/
def Obligations.FloatArithmetic : Prop :=
  ∀ (s : State) (o : Fp2) (q : Fp3) (p : Fp1), Running s →
    let mode (r : Rnd) : RMode := match r with
      | .rn => .rn | .rz => .rz | .up => .up | .dn => .dn
      | _ => if s.cur.fmt.toNat % 4 = 0 then .rn else if s.cur.fmt.toNat % 4 = 1 then .rz
             else if s.cur.fmt.toNat % 4 = 2 then .up else .dn
    let sat := s.cur.fmt.getLsbD 2
    let f := fmtOf o.ty
    let m := mode o.rnd
    let a (t : Nat) : Fv := f.decode (opdN s o.ty o.a t)
    let b (t : Nat) : Fv := f.decode (opdN s o.ty o.b t)
    let g := fmtOf q.ty
    let qa (t : Nat) : Fv := g.decode (opdN s q.ty q.a t)
    let qb (t : Nat) : Fv := g.decode (opdN s q.ty q.b t)
    let qc (t : Nat) : Fv := g.decode (opdN s q.ty q.c t)
    let h := fmtOf p.ty
    let n := mode p.rnd
    let x (t : Nat) : Fv := h.decode (opdN s p.ty p.a t)
    Computes (.fadd o) s o.uni [fun t => f.round m sat (exAdd m (a t) (b t))] ∧
    Computes (.fsub o) s o.uni [fun t => f.round m sat (exAdd m (a t) (b t).neg)] ∧
    Computes (.fmul o) s o.uni [fun t => f.round m sat (fvMul (a t) (b t)).ex] ∧
    Computes (.fdiv o) s o.uni [fun t => f.round m sat (exDiv (a t) (b t))] ∧
    Computes (.fma q) s q.uni
      [fun t => g.round (mode q.rnd) sat (exAdd (mode q.rnd) (fvMul (qa t) (qb t)) (qc t))] ∧
    Computes (.fsqrt p) s p.uni [fun t => h.round n sat (exSqrt (x t))] ∧
    Computes (.frcp p) s p.uni [fun t => h.round n sat (exDiv (.fin false 1 0) (x t))] ∧
    Computes (.frsq p) s p.uni [fun t => h.round n sat (exRsqrt (x t))] ∧
    Computes (.exp2 p) s p.uni [fun t => h.round n sat (exExp2 (x t))] ∧
    Computes (.log2 p) s p.uni [fun t => h.round n sat (exLog2 (x t))] ∧
    (∃ r, Computes (.frint p) s p.uni [r] ∧ ∀ t,
      (x t = .nan → r t = h.nan) ∧
      (∀ sg, x t = .inf sg → r t = opdN s p.ty p.a t % 2 ^ h.width) ∧
      ∀ sg k e, x t = .fin sg k e →
        let q := k / 2 ^ (-e).toNat
        let rem := k % 2 ^ (-e).toNat
        let more : Prop := match n with
          | .rn => 2 ^ (-e).toNat < 2 * rem ∨ (2 * rem = 2 ^ (-e).toNat ∧ q % 2 = 1)
          | .up => sg = false ∧ rem ≠ 0
          | .dn => sg = true ∧ rem ≠ 0
          | _ => False
        (0 ≤ e ∨ k = 0 → r t = opdN s p.ty p.a t % 2 ^ h.width) ∧
        (e < 0 → (r t).testBit (h.width - 1) = sg ∧
          (¬ more → fvCmp (h.decode (r t)) (.fin sg q 0) = some .eq) ∧
          (more → fvCmp (h.decode (r t)) (.fin sg (q + 1) 0) = some .eq))) ∧
    (∀ e : Ex, f.decode (f.round m sat e) = .nan → f.round m sat e = f.nan)

/-- R94 and R98: what one rounding and the exact operations are. Rounding towards zero never exceeds an exact
magnitude that the format can hold, and the next magnitude does; the square root, its reciprocal and the
quotient carry the bits of the exact one. -/
def Obligations.ExactRounding : Prop :=
  (∀ n : Nat, isqrt n * isqrt n ≤ n ∧ n < (isqrt n + 1) * (isqrt n + 1)) ∧
  (∀ (s t : Bool) (m n : Nat) (e g : Int), m ≠ 0 → n ≠ 0 →
    ∃ q k, exDiv (.fin s m e) (.fin t n g) = .num (s != t) q (e - g - (k : Nat)) (decide (m * 2 ^ k % n ≠ 0)) ∧
      q * n ≤ m * 2 ^ k ∧ m * 2 ^ k < (q + 1) * n ∧ 2 ^ 70 ≤ q) ∧
  (∀ ty sat (m : Nat) (e : Int), m ≠ 0 →
    let f := fmtOf ty
    let r := f.round .rz sat (.num false m e false)
    r < f.maxEnc → fvCmp (f.decode r) (.fin false m e) ≠ some .gt ∧
      fvCmp (f.decode (r + 1)) (.fin false m e) = some .gt)

/-- R97 and R151: the forms that do not round. -/
def Obligations.FloatSelects : Prop :=
  ∀ (s : State) (o : Op2) (p : Op1), Running s →
    let f := fmtOf o.ty
    let a := opdN s o.ty o.a
    let b := opdN s o.ty o.b
    let neg (x : Nat) : Bool := x.testBit (f.width - 1)
    let h := fmtOf p.ty
    let x := opdN s p.ty p.a
    o.ty.isFloat = true → p.ty.isFloat = true →
    (∃ r, Computes (.fmin o) s o.uni [r] ∧ ∀ t,
      (f.decode (a t) = .nan → f.decode (b t) = .nan → r t = f.nan) ∧
      (f.decode (a t) = .nan → f.decode (b t) ≠ .nan → r t = b t) ∧
      (f.decode (a t) ≠ .nan → f.decode (b t) = .nan → r t = a t) ∧
      (fvCmp (f.decode (a t)) (f.decode (b t)) = some .lt → r t = a t) ∧
      (fvCmp (f.decode (a t)) (f.decode (b t)) = some .gt → r t = b t) ∧
      (r t = a t ∨ r t = b t ∨ r t = f.nan) ∧
      ((f.decode (a t)).isZero = true → (f.decode (b t)).isZero = true →
        neg (r t) = (neg (a t) || neg (b t)))) ∧
    (∃ r, Computes (.fmax o) s o.uni [r] ∧ ∀ t,
      (f.decode (a t) = .nan → f.decode (b t) = .nan → r t = f.nan) ∧
      (f.decode (a t) = .nan → f.decode (b t) ≠ .nan → r t = b t) ∧
      (f.decode (a t) ≠ .nan → f.decode (b t) = .nan → r t = a t) ∧
      (fvCmp (f.decode (a t)) (f.decode (b t)) = some .lt → r t = b t) ∧
      (fvCmp (f.decode (a t)) (f.decode (b t)) = some .gt → r t = a t) ∧
      (r t = a t ∨ r t = b t ∨ r t = f.nan) ∧
      ((f.decode (a t)).isZero = true → (f.decode (b t)).isZero = true →
        neg (r t) = (neg (a t) && neg (b t)))) ∧
    Computes (.fabs p) s p.uni [fun t => if h.decode (x t) = .nan then h.nan else x t % 2 ^ (h.width - 1)] ∧
    Computes (.fneg p) s p.uni [fun t => if h.decode (x t) = .nan then h.nan else x t ^^^ 2 ^ (h.width - 1)] ∧
    Computes (.fcopysign o) s o.uni [fun t =>
      if f.decode (a t) = .nan then f.nan
      else a t % 2 ^ (f.width - 1)
        + (if f.decode (b t) ≠ .nan ∧ neg (b t) = true then 2 ^ (f.width - 1) else 0)]

/-- R152: a packed form applies its scalar rule independently to element 0 and element 1 of its operands. -/
def Obligations.PackedForms : Prop :=
  ∀ (s : State) (o : Fp2) (q : Fp3) (n : Op2) (p : Op1), Running s →
    let lo (x : Nat) : Nat := x % 2 ^ 16
    let hi (x : Nat) : Nat := x / 2 ^ 16 % 2 ^ 16
    let on (x : Opd) (t : Nat) : Nat := opdN s .i32 x t
    let c := arithCtx s.cur.fmt o.rnd
    let d := arithCtx s.cur.fmt q.rnd
    let f := fmtOf o.ty
    let g := fmtOf q.ty
    let two (a b : Nat) : Nat := a % 2 ^ 16 + b % 2 ^ 16 * 2 ^ 16
    let bin (k : Nat → Nat → Nat) (a b : Opd) (t : Nat) : Nat :=
      two (k (lo (on a t)) (lo (on b t))) (k (hi (on a t)) (hi (on b t)))
    let un (k : Nat → Nat) (a : Opd) (t : Nat) : Nat := two (k (lo (on a t))) (k (hi (on a t)))
    Computes (.faddX2 o) s o.uni [bin (fpAdd f c) o.a o.b] ∧
    Computes (.fsubX2 o) s o.uni [bin (fpSub f c) o.a o.b] ∧
    Computes (.fmulX2 o) s o.uni [bin (fpMul f c) o.a o.b] ∧
    Computes (.fmaX2 q) s q.uni [fun t => two
      (fpFma g d (lo (on q.a t)) (lo (on q.b t)) (lo (on q.c t)))
      (fpFma g d (hi (on q.a t)) (hi (on q.b t)) (hi (on q.c t)))] ∧
    Computes (.fminX2 n) s n.uni [bin (fpMin (fmtOf n.ty)) n.a n.b] ∧
    Computes (.fmaxX2 n) s n.uni [bin (fpMax (fmtOf n.ty)) n.a n.b] ∧
    Computes (.fabsX2 p) s p.uni [un (fpAbs (fmtOf p.ty)) p.a] ∧
    Computes (.fnegX2 p) s p.uni [un (fpNeg (fmtOf p.ty)) p.a]

/-- R155 to R157: the conversions. A stochastic one draws one word of the random-bit queue per beat, or one in
the uniform form, and takes bits [15:0] of each thread's lane; every other one draws nothing. -/
def Obligations.Conversions : Prop :=
  ∀ (s : State) (o : CvtOp) (q : CvtScaledOp), Running s →
    let g := fmtOf o.src
    let f := fmtOf o.ty
    let x := opdN s o.src o.a
    let ex (t : Nat) : Ex :=
      if o.src.isFloat then (g.decode (x t)).ex
      else
        let v : Int := if o.ss then sgn o.src.width (x t) else (x t : Int)
        .num (decide (v < 0)) v.natAbs 0 false
    let sat := s.cur.fmt.getLsbD 2
    let lo : Int := if o.ds then -(2 ^ (o.ty.width - 1) : Nat) else 0
    let hi : Int := if o.ds then (2 ^ (o.ty.width - 1) : Nat) - 1 else (2 ^ o.ty.width : Nat) - 1
    let scaled (t : Nat) : Ex :=
      (fvMul ((fmtOf q.src).decode (opdN s q.src q.x t)) (fmtF32.decode (opdN s .f32 q.s t))).ex
    let stoch (r : Rnd) : Bool := r == .sr || (r == .fmt && s.cur.fmt.getLsbD 3)
    let draws (uni : Bool) : Nat := if uni then 1 else (s.cur.width + 15) / 16
    let rho (uni : Bool) (t : Nat) : Nat :=
      if uni then ((s.cur.rq.getD 0 []).getD 0 0).toNat % 65536
      else ((s.cur.rq.getD (t / 16) []).getD (t % 16) 0).toNat % 65536
    let after (uni : Bool) : State := { s with cur := { s.cur with rq := s.cur.rq.drop (draws uni) } }
    (o.ty.isFloat = true → stoch o.rnd = false →
      Computes (.cvt o) s o.uni [fun t => f.round (rndMode s.cur.fmt o.rnd) sat (ex t)]) ∧
    (o.ty.isFloat = false →
      Computes (.cvt o) s o.uni [fun t => match g.decode (x t) with
        | .nan => 0
        | .inf n => lowI o.ty.width (if n then lo else hi)
        | .fin n m e => lowI o.ty.width (clampI (roundInt (rndMode s.cur.fmt o.rnd) n m e) lo hi)]) ∧
    (o.ty.isFloat = true → stoch o.rnd = true → draws o.uni ≤ s.cur.rq.length →
      ∃ t, exec (.cvt o) s = .next t ∧ Wrote (after o.uni) t o.uni 1 ∧
        Gives (after o.uni) t o.uni [fun th => f.round (.sr (rho o.uni th)) sat (ex th)]) ∧
    (stoch q.rnd = false →
      Computes (.cvtScaled q) s q.uni
        [fun t => (fmtOf q.ty).round (rndMode s.cur.fmt q.rnd) sat (scaled t)]) ∧
    (stoch q.rnd = true → draws q.uni ≤ s.cur.rq.length →
      ∃ t, exec (.cvtScaled q) s = .next t ∧ Wrote (after q.uni) t q.uni 1 ∧
        Gives (after q.uni) t q.uni [fun th => (fmtOf q.ty).round (.sr (rho q.uni th)) sat (scaled th)])

/-- R147, R158, R159, R162 and R163: the instructions that move bits without interpreting them, and the
predicate logic. -/
def Obligations.BitsMoved : Prop :=
  ∀ (s : State) (p : Op1) (o : Op2) (q : Op3) (k : PackOp), Running s →
    let pr (x : Opd) (t : Nat) : Nat := opdN s .i1 x t
    Computes (.const p) s p.uni [opdN s p.ty p.a] ∧
    Computes (.bitcast p) s p.uni [opdN s p.ty p.a] ∧
    Computes (.pack k) s k.uni [fun t =>
      (k.xs.zipIdx.map fun x => opdN s k.ty x.1 t * 2 ^ (k.ty.width * x.2)).sum] ∧
    Computes (.unpack o) s o.uni
      [fun t => opdN s .i32 o.a t / 2 ^ (o.ty.width * opdN s .i32 o.b t) % 2 ^ o.ty.width] ∧
    Computes (.sel q) s q.uni [fun t => if pr q.a t = 1 then opdN s q.ty q.b t else opdN s q.ty q.c t] ∧
    Computes (.pand o) s o.uni [fun t => if pr o.a t = 1 ∧ pr o.b t = 1 then 1 else 0] ∧
    Computes (.por o) s o.uni [fun t => if pr o.a t = 1 ∨ pr o.b t = 1 then 1 else 0] ∧
    Computes (.pxor o) s o.uni [fun t => if pr o.a t = pr o.b t then 0 else 1] ∧
    Computes (.pnot p) s p.uni [fun t => if pr p.a t = 1 then 0 else 1]

/-- R160 and R161: compare and class. -/
def Obligations.Comparisons : Prop :=
  ∀ (s : State) (c : CmpOp) (o : Op2), Running s →
    let a := opdN s c.ty c.a
    let b := opdN s c.ty c.b
    let x (t : Nat) : Int := if c.signed then sgn c.ty.width (a t) else (a t : Int)
    let y (t : Nat) : Int := if c.signed then sgn c.ty.width (b t) else (b t : Int)
    let f := fmtOf c.ty
    let u (t : Nat) : Fv := f.decode (a t)
    let v (t : Nat) : Fv := f.decode (b t)
    let g := fmtOf o.ty
    let z := opdN s o.ty o.a
    let neg (t : Nat) : Bool := (z t).testBit (g.width - 1)
    let sub (t : Nat) : Bool := decide (z t / 2 ^ g.p % 2 ^ g.ebits = 0)
    let cls (t : Nat) : Nat := match g.decode (z t) with
      | .nan => 8
      | .inf _ => if neg t then 0 else 7
      | .fin _ m _ =>
        if m = 0 then (if neg t then 3 else 4)
        else if sub t then (if neg t then 2 else 5) else (if neg t then 1 else 6)
    (c.ty.isFloat = false → Computes (.cmp c) s c.uni [fun t =>
      match c.cond with
      | .eq => if x t = y t then 1 else 0
      | .ne => if x t = y t then 0 else 1
      | .lt => if x t < y t then 1 else 0
      | .le => if x t ≤ y t then 1 else 0
      | .gt => if y t < x t then 1 else 0
      | .ge => if y t ≤ x t then 1 else 0
      | .ord => 1
      | .uno => 0]) ∧
    (c.ty.isFloat = true → Computes (.cmp c) s c.uni [fun t =>
      if u t = .nan ∨ v t = .nan then (if c.cond = .ne ∨ c.cond = .uno then 1 else 0)
      else match c.cond with
      | .eq => if fvCmp (u t) (v t) = some .eq then 1 else 0
      | .ne => if fvCmp (u t) (v t) = some .eq then 0 else 1
      | .lt => if fvCmp (u t) (v t) = some .lt then 1 else 0
      | .le => if fvCmp (u t) (v t) = some .gt then 0 else 1
      | .gt => if fvCmp (u t) (v t) = some .gt then 1 else 0
      | .ge => if fvCmp (u t) (v t) = some .lt then 0 else 1
      | .ord => 1
      | .uno => 0]) ∧
    (o.ty.isFloat = true →
      Computes (.fclass o) s o.uni [fun t => if (opdN s .i32 o.b t).testBit (cls t) then 1 else 0])

/-! ## Value Form: memory -/

/-- R166, R168 and R170: a load whose accesses pass their checks completes. No byte of memory and no full bit
changes but by the group's own queued stores, which a sequentially consistent load performs first; a value
whose bytes no store in flight concerns is the little-endian number of its bytes in memory.

R171: `ld.const` reads element i of constant c. -/
def Obligations.Loads : Prop :=
  (∀ (s : State) (o : LoadOp) (loc : Bool), Running s → Undamaged s →
     let sz := o.ty.bytes
     let n := if o.pair then 2 * sz else sz
     let off := opdN s .i32 o.p
     let addr (t : Nat) : Nat := if loc then localAddr s s.cur (off t) else opdN s .near o.p t
     AllPass s o.uni addr (if o.order = .relaxed then 1 else n) n false →
     (loc = true → ∀ t, t ∈ accessors s o.uni → off t < 2 ^ 22) →
     0 < n →
     ∃ m t, exec (if loc then .ldLocal o else .ldNear o) s = .next t ∧ MemoryOnly s m ∧
       Wrote m t o.uni (if o.pair then 2 else 1) ∧ m.mem.full = s.mem.full ∧
       (o.order ≠ .seqCst → m.mem.bytes = s.mem.bytes ∧ m.cur.storeQ = s.cur.storeQ) ∧
       (o.order = .seqCst → m.mem.bytes = (drainQ s).mem.bytes ∧ m.cur.storeQ = []) ∧
       (∀ th k, Receives s o.uni th →
         groupNear s s.cur (addr (if o.uni then leader s else th)) n false = some k → Untouched s k n →
         valueAt t (hereVal s) th = lane (wordOf s.mem sz k) ∧
         (o.pair = true → valueAt t (hereVal s + 1) th = lane (wordOf s.mem sz (k + sz))))) ∧
  (∀ (s : State) (o : LdConstOp), Running s →
     let (off, bytes, _) := constEntry (groupWords s s.cur) o.c.toNat
     let i := opdN s .i32 o.i
     (∀ t, t ∈ accessors s o.uni → i t < bytes / o.ty.bytes) →
     Computes (.ldConst o) s o.uni
       [fun t => objBytes (groupWords s s.cur) o.ty.bytes (off + o.ty.bytes * i t)])

/-- R166, R168 and R170: a store whose accesses pass their checks completes and enters the group's store
queue: memory itself is unchanged, every byte queued lies in an access, and the youngest queued value of each
byte of an access is the datum of the highest-indexed thread that stores it. A sequentially consistent store
drains the queue too, and every byte outside it keeps its value. -/
def Obligations.NearStores : Prop :=
  ∀ (s : State) (o : StoreOp) (loc : Bool), Running s → Undamaged s →
    let sz := o.ty.bytes
    let n := if o.v2.isSome then 2 * sz else sz
    let off := opdN s .i32 o.p
    let addr (t : Nat) : Nat := if loc then localAddr s s.cur (off t) else opdN s .near o.p t
    let datum (t : Nat) : Nat := opdN s o.ty o.v t
      + (match o.v2 with | some v => opdN s o.ty v t * 2 ^ (8 * sz) | none => 0)
    let key (t : Nat) : Option Nat := groupNear s s.cur (addr t) n true
    let last (t b : Nat) : Prop := t ∈ accessors s o.uni ∧ (∃ k, key t = some k ∧ k ≤ b ∧ b < k + n) ∧
      ∀ t' k', t' ∈ accessors s o.uni → t < t' → key t' = some k' → b < k' ∨ k' + n ≤ b
    AllPass s o.uni addr (if o.order = .relaxed then 1 else n) n true →
    (loc = true → ∀ t, t ∈ accessors s o.uni → off t < 2 ^ 22) →
    0 < n → s.cur.width ≤ 64 →
    (o.order ≠ .seqCst → ∃ t qs,
      exec (if loc then .stLocal o else .stNear o) s = .next t ∧
      t = { s with nextId := t.nextId,
                   cur := { s.cur with storeQ := s.cur.storeQ ++ qs, off := s.cur.off + hereLen s } } ∧
      (∀ q b, q ∈ qs → b ∈ q.bytes →
        ∃ th k, th ∈ accessors s o.uni ∧ key th = some k ∧ k ≤ b.1 ∧ b.1 < k + n) ∧
      (∀ th k i, key th = some k → last th (k + i) → i < n →
        queueByte (k + i) t.cur.storeQ = some (BitVec.ofNat 8 (datum th / 256 ^ i)))) ∧
    (o.order = .seqCst → ∃ m t,
      exec (if loc then .stLocal o else .stNear o) s = .next t ∧ MemoryOnly s m ∧ Wrote m t o.uni 0 ∧
      t.cur.storeQ = [] ∧ t.mem.full = s.mem.full ∧
      (∀ th k i, key th = some k → last th (k + i) → i < n →
        t.mem.byte (k + i) = BitVec.ofNat 8 (datum th / 256 ^ i)) ∧
      (∀ b, (¬ ∃ th, last th b) → t.mem.byte b = (drainQ s).mem.byte b))

/-- R52, R166 and R171: where an access fails its checks the group traps before any access, with ALIGNMENT
when a thread's access is misaligned, else with WINDOW; an index at or above the count traps with
CONST_RANGE. -/
def Obligations.AccessTraps : Prop :=
  ∀ (s : State), Running s →
    let bad (i : Instr) (uni : Bool) (addr : Nat → Nat) (al n : Nat) (write : Bool) : Prop :=
      ((∃ t, t ∈ accessors s uni ∧ addr t % al ≠ 0) → exec i s = .next (raise s .alignment)) ∧
      ((∀ t, t ∈ accessors s uni → addr t % al = 0) →
        (∃ t, t ∈ accessors s uni ∧ groupNear s s.cur (addr t) n write = none) →
        exec i s = .next (raise s .window))
    (∀ (o : LoadOp),
      let n := if o.pair then 2 * o.ty.bytes else o.ty.bytes
      bad (.ldNear o) o.uni (opdN s .near o.p) (if o.order = .relaxed then 1 else n) n false ∧
      ((∀ t, t ∈ accessors s o.uni → opdN s .i32 o.p t < 2 ^ 22) →
        bad (.ldLocal o) o.uni (fun t => localAddr s s.cur (opdN s .i32 o.p t))
          (if o.order = .relaxed then 1 else n) n false) ∧
      (o.order = .relaxed → (∃ t, t ∈ accessors s o.uni ∧ 2 ^ 22 ≤ opdN s .i32 o.p t) →
        exec (.ldLocal o) s = .next (raise s .window))) ∧
    (∀ (o : StoreOp),
      let n := if o.v2.isSome then 2 * o.ty.bytes else o.ty.bytes
      bad (.stNear o) o.uni (opdN s .near o.p) (if o.order = .relaxed then 1 else n) n true ∧
      ((∀ t, t ∈ accessors s o.uni → opdN s .i32 o.p t < 2 ^ 22) →
        bad (.stLocal o) o.uni (fun t => localAddr s s.cur (opdN s .i32 o.p t))
          (if o.order = .relaxed then 1 else n) n true) ∧
      (o.order = .relaxed → (∃ t, t ∈ accessors s o.uni ∧ 2 ^ 22 ≤ opdN s .i32 o.p t) →
        exec (.stLocal o) s = .next (raise s .window))) ∧
    (∀ (o : MemOp2) (i : Instr), i ∈ [Instr.atomAdd o, .atomMinS o, .atomMinU o, .atomMaxS o, .atomMaxU o,
        .atomAnd o, .atomOr o, .atomXor o, .atomSwap o, .atomFadd o] →
      bad i o.uni (opdN s .near o.p) o.ty.bytes o.ty.bytes true) ∧
    (∀ (o : CasOp), bad (.atomCas o) o.uni (opdN s .near o.p) o.ty.bytes o.ty.bytes true) ∧
    (∀ (o : MemOp1) (i : Instr), i ∈ [Instr.feLd o, .feTryld o, .fePeek o] →
      bad i o.uni (opdN s .near o.p) 8 8 false) ∧
    (∀ (o : MemOp2) (i : Instr), i ∈ [Instr.feSt o, .feTryst o] →
      bad i o.uni (opdN s .near o.p) 8 8 true) ∧
    (∀ (o : LdConstOp), (∃ t, t ∈ accessors s o.uni ∧
        (constEntry (groupWords s s.cur) o.c.toNat).2.1 / o.ty.bytes ≤ opdN s .i32 o.i t) →
      exec (.ldConst o) s = .next (raise s .constRange))

/-- R173 and R174: an atomic whose accesses pass their checks completes. Threads act in ascending index, each
on the word that those before it left; the results are the old words, every word holds the last new value,
and every other byte keeps its value; the group's queued stores are performed first. -/
def Obligations.Atomics : Prop :=
  ∀ (s : State), Running s → Undamaged s →
    let does (i : Instr) (uni : Bool) (n res : Nat) (addr : Nat → Nat)
        (f : Nat → Nat → Nat) (ok : Nat → Nat → Bool) : Prop :=
      0 < n → accessors s uni ≠ [] → AllPass s uni addr n n true →
        let m0 := (drainQ s).mem
        let run := inTurn (fun t k (m : Nat → Nat) => ([m k, (ok t (m k)).toNat], put k (f t (m k)) m))
          (keysOf s uni addr n true) (wordOf m0 n)
        ∃ m t, exec i s = .next t ∧ MemoryOnly s m ∧ Wrote m t uni res ∧ m.cur.storeQ = [] ∧
          m.mem.full = s.mem.full ∧
          (∀ th k, (th, k) ∈ keysOf s uni addr n true → wordOf t.mem n k = run.2 k % 256 ^ n) ∧
          (∀ b, (∀ th k, (th, k) ∈ keysOf s uni addr n true → b < k ∨ k + n ≤ b) →
            t.mem.byte b = m0.byte b) ∧
          (∀ th j, Receives s uni th → j < res → valueAt t (hereVal s + j) th =
            lane (((assocGet (if uni then leader s else th) run.1).getD []).getD j 0))
    (∀ (o : MemOp2),
      let v := opdN s o.ty o.v
      let w := o.ty.width
      let any (i : Instr) (f : Nat → Nat → Nat) : Prop :=
        o.nres.toNat ≤ 1 → does i o.uni o.ty.bytes o.nres.toNat (opdN s .near o.p) f fun _ _ => true
      any (.atomAdd o) (fun t old => (old + v t) % 2 ^ w) ∧
      any (.atomMinS o) (fun t old => if sgn w (v t) < sgn w old then v t else old) ∧
      any (.atomMinU o) (fun t old => if v t < old then v t else old) ∧
      any (.atomMaxS o) (fun t old => if sgn w old < sgn w (v t) then v t else old) ∧
      any (.atomMaxU o) (fun t old => if old < v t then v t else old) ∧
      any (.atomAnd o) (fun t old => old &&& v t) ∧
      any (.atomOr o) (fun t old => old ||| v t) ∧
      any (.atomXor o) (fun t old => old ^^^ v t) ∧
      any (.atomSwap o) (fun t _ => v t) ∧
      (o.ty = .f32 → any (.atomFadd o) fun t old =>
        fmtF32.round .rn true (exAdd .rn (fmtF32.decode old) (fmtF32.decode (v t))))) ∧
    (∀ (o : CasOp),
      let e := opdN s o.ty o.e
      o.nres.toNat ≤ 2 → does (.atomCas o) o.uni o.ty.bytes o.nres.toNat (opdN s .near o.p)
        (fun t old => if old = e t then opdN s o.ty o.n t else old) (fun t old => old == e t))

/-- R76 and R176: the non-blocking full/empty forms act in one pass over the threads, each finding the word and
the bit that those before it left; a peek is a load of the word and its bit, which changes neither.

R177 and R178: a blocking take of full words and a blocking give to empty words by distinct threads
complete at once; the words' bits change over, a take delivers its word, a give writes its datum. -/
def Obligations.FullEmptyWords : Prop :=
  (∀ (s : State), Running s → Undamaged s →
     let does (i : Instr) (uni : Bool) (res : Nat) (addr : Nat → Nat) (write : Bool)
         (f : Nat → Nat → (Nat → Nat) × (Nat → Bool) → List Nat × ((Nat → Nat) × (Nat → Bool))) : Prop :=
       accessors s uni ≠ [] → AllPass s uni addr 8 8 write →
         let m0 := (drainQ s).mem
         let run := inTurn f (keysOf s uni addr 8 write) (wordOf m0 8, fun k => keyIn k s.mem.full)
         ∃ m t, exec i s = .next t ∧ MemoryOnly s m ∧ Wrote m t uni res ∧
           (∀ th k, (th, k) ∈ keysOf s uni addr 8 write →
             wordOf t.mem 8 k = run.2.1 k % 2 ^ 64 ∧ t.mem.isFull k = run.2.2 k) ∧
           (∀ b, (∀ th k, (th, k) ∈ keysOf s uni addr 8 write → b < k ∨ k + 8 ≤ b) →
             t.mem.byte b = m0.byte b ∧ t.mem.isFull b = s.mem.isFull b) ∧
           (∀ th j, Receives s uni th → j < res → valueAt t (hereVal s + j) th =
             lane (((assocGet (if uni then leader s else th) run.1).getD []).getD j 0))
     s.mem.wf = true →
     (∀ (o : MemOp1), o.nres.toNat ≤ 2 →
       does (.feTryld o) o.uni o.nres.toNat (opdN s .near o.p) false (fun _ k x =>
         if x.2 k then ([x.1 k, 1], (x.1, put k false x.2)) else ([0, 0], x))) ∧
     (∀ (o : MemOp1), o.nres.toNat ≤ 2 → accessors s o.uni ≠ [] → AllPass s o.uni (opdN s .near o.p) 8 8 false →
       let ks := keysOf s o.uni (opdN s .near o.p) 8 false
       ∃ m t, exec (.fePeek o) s = .next t ∧ MemoryOnly s m ∧ Wrote m t o.uni o.nres.toNat ∧
         t.mem.full = s.mem.full ∧
         (o.order ≠ .seqCst → t.mem.bytes = s.mem.bytes ∧ t.cur.storeQ = s.cur.storeQ) ∧
         (o.order = .seqCst → t.mem.bytes = (drainQ s).mem.bytes ∧ t.cur.storeQ = []) ∧
         (∀ th k j, Receives s o.uni th → j < o.nres.toNat → (if o.uni then leader s else th, k) ∈ ks →
           Untouched s k 8 → Untouched s (bitKey k) 1 →
           valueAt t (hereVal s + j) th =
             lane (if j = 0 then wordOf s.mem 8 k else (s.mem.isFull k).toNat))) ∧
     (∀ (o : MemOp2), o.nres.toNat ≤ 1 → o.ty.width = 64 →
       does (.feTryst o) o.uni o.nres.toNat (opdN s .near o.p) true (fun t k x =>
         if x.2 k then ([0], x) else ([1], (put k (opdN s o.ty o.v t) x.1, put k true x.2))))) ∧
  (∀ (s : State), Running s → Undamaged s → s.mem.wf = true → s.cur.fe = none →
     let m0 := (drainQ s).mem
     (∀ (o : MemOp1), AllPass s o.uni (opdN s .near o.p) 8 8 false →
       let ks := keysOf s o.uni (opdN s .near o.p) 8 false
       ks ≠ [] → (ks.map (·.2)).Nodup → (∀ th k, (th, k) ∈ ks → s.mem.isFull k = true) →
       ∃ m t, exec (.feLd o) s = .next t ∧ MemoryOnly s m ∧ Wrote m t o.uni 1 ∧
         (∀ th k, (th, k) ∈ ks → t.mem.isFull k = false ∧ wordOf t.mem 8 k = wordOf m0 8 k) ∧
         (∀ b, t.mem.byte b = m0.byte b) ∧
         (∀ th k, Receives s o.uni th → (if o.uni then leader s else th, k) ∈ ks →
           valueAt t (hereVal s) th = lane (wordOf m0 8 k))) ∧
     (∀ (o : MemOp2), o.ty.width = 64 → AllPass s o.uni (opdN s .near o.p) 8 8 true →
       let ks := keysOf s o.uni (opdN s .near o.p) 8 true
       ks ≠ [] → (ks.map (·.2)).Nodup → (∀ th k, (th, k) ∈ ks → s.mem.isFull k = false) →
       ∃ m t, exec (.feSt o) s = .next t ∧ MemoryOnly s m ∧ Wrote m t o.uni 0 ∧
         (∀ th k, (th, k) ∈ ks → t.mem.isFull k = true ∧ wordOf t.mem 8 k = opdN s o.ty o.v th) ∧
         (∀ b, (∀ th k, (th, k) ∈ ks → b < k ∨ k + 8 ≤ b) → t.mem.byte b = m0.byte b)))

/-! ## Value Form: traps, orders, barriers, waits -/

/-- R23, R88, R230, R345, R346 and R434: a trap, `trap` and a stopping `brk` leave the group HALTED with the stop
code, the portable PC of the instruction and its stop record, a trap at the instruction and the other two at the
next one; nothing else of the group changes, and memory changes in the queue's dump buffer alone. A resume puts a
HALTED group back to READY where it stands, with an acquire at package scope. `mark`, and `brk` without the debug flag, only advance. -/
def Obligations.TrapsAndStops : Prop :=
  ∀ (s : State), Running s →
    let q := (launchQ s s.cur.launch).1
    let inDump (b : Nat) : Prop :=
      ∃ qu k, queueOf s q = some qu ∧ fnKey qu.dump = some k ∧ k ≤ b ∧ b < k + qu.dumpBytes
    let halts (t : State) (stop off : Nat) : Prop :=
      t.cur = { s.cur with st := .halted, stopCode := stop, stopPpc := ppcOf s.cur, stopRec := t.cur.stopRec,
                           fast := false, stopReq := 0, off := off } ∧
      (∃ i : StopInfo, i.stop = stop ∧ i.ppc = ppcOf s.cur ∧ t.cur.stopRec = stopRecord s s.cur i) ∧
      t.launches = s.launches ∧ t.teams = s.teams ∧ t.cmds = s.cmds ∧ t.mem.full = s.mem.full ∧
      ∀ b, ¬ inDump b → t.mem.byte b = s.mem.byte b
    (s.cur.party = none → s.cur.native = none → s.mem.seals = [] →
      (∀ T : Trap, halts (raise s T) (match T with | .user _ => 2 | _ => 4) s.cur.off) ∧
      (∀ code, ∃ t, exec (.trap code) s = .next t ∧ halts t 2 (s.cur.off + hereLen s)) ∧
      (∀ code, (∃ c, ctxOf s s.cur.ctx = some c ∧ c.debugCtl.getLsbD 0 = true) →
        ∃ t, exec (.brk code) s = .next t ∧ halts t 1 (s.cur.off + hereLen s))) ∧
    (∀ code : BitVec 30, (s.cur.party ≠ none ∨ ∀ c, ctxOf s s.cur.ctx = some c → c.debugCtl.getLsbD 0 = false) →
      exec (.brk code) s = .next (advance s)) ∧
    (∀ code, exec (.mark code) s = .next (advance s)) ∧
    (∀ u g, groupOf s u = some g → g.st = .halted →
      ∃ g', groupOf (resumeGroup s u) u = some g' ∧ g'.st = .ready ∧ g'.stopCode = 0 ∧ g'.off = g.off ∧
        g'.frames = g.frames ∧ g'.active = g.active ∧ g'.stack = g.stack ∧ g'.fmt = g.fmt ∧
        g'.native = g.native ∧ g'.storeQ = [] ∧ AcquiredAt g' .package s.steps)

/-- R72 to R74 and R179: a fence completes and moves no byte but by the queue's drain; its order's parts
happen: the acquire point, the release that later stores carry, and for a sequentially consistent fence
everything the core has seen becomes visible to the scope.

R181 and R182: an arrival joins the phase numbered by the group's own count, gives that number, and
completes the phase when every other group of the team has ended or arrived; a wait for a complete phase
goes on with an acquire at team scope, any other waits; `bar.sync` is the one and then the other; a group
two phases ahead waits first; a group that is no team's group traps. -/
def Obligations.FencesAndBarriers : Prop :=
  (∀ (s : State) (o : FenceOp), Running s →
     let r := groupReach s s.cur o.scope.toNat
     let me := coreObs s.cur
     ∃ m t, exec (.fence o) s = .next t ∧ MemoryOnly s m ∧ Wrote m t false 0 ∧ t.mem.full = s.mem.full ∧
       (o.order = .relaxed → t = advance s) ∧
       (o.order ≠ .seqCst → t.mem = s.mem ∧ t.cur.storeQ = s.cur.storeQ) ∧
       (o.order = .acquire ∨ o.order = .acqRel ∨ o.order = .seqCst → AcquiredAt t.cur r s.steps) ∧
       (o.order = .release ∨ o.order = .acqRel →
         (⟨r, me, s.steps, s.cur.uid, s.nextId, []⟩ : Carry) ∈ t.cur.carry) ∧
       (o.order = .seqCst → t.cur.storeQ = [] ∧ t.mem.bytes = (drainQ s).mem.bytes ∧
         ∀ st, st ∈ t.mem.hist → st.seenBy me = true → ∃ n, (r, n) ∈ st.seen)) ∧
  (∀ (s : State) (bar : BitVec 30), Running s →
     (noBarriers s.cur = true → ∀ (nres : BitVec 2) (p : Opd),
       exec (.barArrive nres bar) s = .next (raise s .barrierScope) ∧
       exec (.barWait bar p) s = .next (raise s .barrierScope) ∧
       exec (.barSync bar) s = .next (raise s .barrierScope)) ∧
     (∀ (tm : Team) (x : Barrier), noBarriers s.cur = false → teamOf s s.cur.team = some tm →
       tm.bars[bar.toNat]? = some x →
       let g := s.cur.gidx.toNat
       let n := bar.toNat
       g < x.arr.length → x.arr.length = tm.ended.length → tm.ended[g]? = some false →
       (∀ y, y ∈ tm.bars → y.ready tm.ended = false) →
       let A : Word := x.arr.getD g 0
       let here_ (h : Nat) : Prop := tm.ended[h]? = some true ∨ h = g ∨ (1 ≤ x.ahead h ∧ x.ahead h ≤ 2 ^ 31)
       let last : Prop := A = x.done ∧ ∀ h, h < tm.ended.length → here_ h
       let joined (t : State) : Prop := ∃ tm' x', teamOf t s.cur.team = some tm' ∧ tm'.bars[n]? = some x' ∧
         x'.arr = x.arr.set g (A + 1) ∧ (last → x'.done = x.done + 1) ∧ (¬ last → x'.done = x.done) ∧
         tm'.ended = tm.ended ∧ ∀ m, m ≠ n → tm'.bars[m]? = tm.bars[m]?
       let waits (t : State) (p : Word) : Prop := t.cur.st = .waiting ∧ t.cur.off = s.cur.off ∧
         t.cur.frames = s.cur.frames ∧ ∃ w, t.cur.wait = some w ∧ w.conds = [.barrier n p]
       ((A - x.done).toNat < 2 → ∀ nres : BitVec 2, nres.toNat ≤ 1 →
         ∃ t, exec (.barArrive nres bar) s = .next t ∧ joined t ∧ t.cur.off = s.cur.off + hereLen s ∧
           Gives s t true ([fun _ => A.toNat].take nres.toNat) ∧
           (divergent s.cur = false → t = { s with teams := t.teams, cur := t.cur })) ∧
       ((A - x.done).toNat = 2 → ∀ nres : BitVec 2, ∃ t, exec (.barArrive nres bar) s = .next t ∧ waits t (A - 2)) ∧
       (∀ p : Opd, let ph : Word := loWord (opd s .i32 p (leader s))
         (phaseDone tm n ph = true → ∃ t, exec (.barWait bar p) s = .next t ∧ KeepsSettled s t ∧
           t.cur.off = s.cur.off + hereLen s ∧ t.cur.frames = s.cur.frames ∧ t.cur.st = s.cur.st ∧
           t.teams = s.teams ∧ AcquiredAt t.cur (groupReach s s.cur 2) s.steps) ∧
         (phaseDone tm n ph = false → ∃ t, exec (.barWait bar p) s = .next t ∧ waits t ph)) ∧
       ((A - x.done).toNat < 2 → ∃ t, exec (.barSync bar) s = .next t ∧ joined t ∧
         (last → t.cur.off = s.cur.off + hereLen s ∧ t.cur.frames = s.cur.frames ∧ t.cur.st = s.cur.st ∧
           AcquiredAt t.cur (groupReach s s.cur 2) s.steps) ∧
         (¬ last → waits t A)) ∧
       ((A - x.done).toNat = 2 → ∃ t, exec (.barSync bar) s = .next t ∧ waits t (A - 2))))

/-- R39 to R41, R183 to R186 and R244: a wait that passes its checks and whose conditions raise nothing ends
at once when its test holds or its time is up, with the conditions' bits and bit 4 for the time-out, and
leaves the group WAITING otherwise; `yield` parks the group; `mwait` on a complete batch only advances. A
condition that reads no signal is judged by the state in hand. -/
def Obligations.Waits : Prop :=
  ∀ (s : State), Running s → s.cur.native = none → s.cur.wait = none →
    let val (c : CondOp) : CondV := match c with
      | .token x => .token (loWord (opd s .tok x (leader s)))
      | .fullWord p => .fullWord (opd s .near p (leader s))
      | .emptyWord p => .emptyWord (opd s .near p (leader s))
      | .barrier b p => .barrier b.toNat (loWord (opd s .i32 p (leader s)))
      | .matrix m => .matrix (loWord (opd s .batch m (leader s)))
      | .sig a cmp v => .sig (opd s .far a (leader s)) cmp (opd s .i64 v (leader s))
    let due (x : Opd) : Option Nat :=
      let k := opdN s .i32 x (leader s)
      if k = 0xFFFFFFFF then none else some (s.tick + k)
    let bits (bs : List Bool) : Nat := (bs.zipIdx.map fun b => b.1.toNat * 2 ^ b.2).sum
    let waits (i : Instr) (all : Bool) (o : WaitOp) : Prop :=
      let cs := o.conds.map val
      (∀ T, waitTrap s cs = some T → exec i s = .next (raise s T)) ∧
      (∀ w, w.conds = cs → w.all = all → w.deadline = due o.timeout → w.parked = [] →
        w.dst = .value (hereVal s) o.nres.toNat → waitTrap s cs = none → tokenFault s.cur w = none →
        batchFault s.cur w = none →
        let s0 := { s with cur := { s.cur with wait := some w } }
        ∀ bs s1, judgeAll w cs.zipIdx s0 = (.ok bs, s1) →
          let test := if all then bs.all (· == true) else bs.any (· == true)
          let late := ∃ d, due o.timeout = some d ∧ d ≤ s.tick
          (test = true ∨ late → o.nres.toNat ≤ 1 → ∃ t, exec i s = .next t ∧ t.cur.wait = none ∧ t.cur.st = s.cur.st ∧
            t.cur.off = s.cur.off + hereLen s ∧
            Gives s t true ([fun _ => bits bs + if test then 0 else 16].take o.nres.toNat)) ∧
          (test = false → ¬ late → ∃ t, exec i s = .next t ∧ t.cur.st = .waiting ∧ t.cur.off = s.cur.off ∧
            t.cur.frames = s.cur.frames ∧ t.cur.since = s.cycle ∧ t.cur.wait.isSome) ∧
          (Undamaged s → (∀ c, c ∈ cs → readsSignal c = false) →
            bs = cs.map (condHolds s) ∧ ∀ t, exec i s = .next t → KeepsSettled s t))
    (∀ o, waits (.waitAny o) false o) ∧ (∀ o, waits (.waitAll o) true o) ∧
    (∀ o : YieldOp, waitTrap s (o.conds.map val) = none → ∃ w, w.conds = o.conds.map val ∧ w.all = o.all ∧
      w.deadline = due o.timeout ∧ w.parked = [] ∧ (∃ as_, w.dst = .cont o.cont.blk.toNat as_) ∧
      exec (.yield o) s = .next { s with cur := { s.cur with
        wait := some w, st := .parked, fast := false, since := s.cycle } }) ∧
    (∀ m : Opd, let n : Word := loWord (opd s .batch m (leader s))
      (∀ j, j ∈ s.cur.jobs → j.failed = false) →
      (batchDone s.cur n = true → exec (.mwait m) s = .next (advance s)) ∧
      (batchDone s.cur n = false → ∃ w, w.conds = [.matrix n] ∧ w.deadline = none ∧
        exec (.mwait m) s = .next { s with cur := { s.cur with
          wait := some w, st := .waiting, since := s.cycle } }))

/-! ## Value Form: engine commands -/

/-- R188 to R192 and R196 to R198: an engine instruction whose operands break the format rules traps with
COPY_FORMAT, else one whose near extents fail R52 traps with WINDOW; else, where a counter is idle and the
core's retriever has room, it completes: the queue drained, its command with the resolved operands in the
retriever, the counter advanced and the token's handle its result; a command of no bytes is complete at
once.

R81, R200 and R326: `tok.test` gives 0 while the token's counter has not reached its generation; then 1,
with an acquire at core scope, unless the token ended with an error, which is cleared and trapped with. -/
def Obligations.EngineCommands : Prop :=
  (∀ (s : State), Running s → s.cur.ctrs.length = 16 → (∀ c, c ∈ s.cmds → c.uid < s.nextId) →
     (∀ pt, s.cur.party = some pt → pt.gone = false) →
     let t0 := leader s
     let n (ty : Ty) (x : Opd) : Nat := opdN s ty x t0
     let pat (p : Pattern) (near : Bool) : Pat :=
       { base := n (if near then .near else .far) p.base, near, c0 := n .i32 p.c0,
         lv := p.lv.map fun l => (n .i32 l.1, sgn 64 (n .i64 l.2)) }
     let issues (i : Instr) (op : EngOp) (nres : BitVec 2) : Prop :=
       let ck := engCheck op
       let fits : Prop := ck.total = 0 ∨ ∀ e, e ∈ ck.near → extentOk s s.cur.ctx s.cur.team e = true
       (ck.fmtOk = false → exec i s = .next (raise s .copyFormat)) ∧
       (ck.fmtOk = true → ¬ fits → exec i s = .next (raise s .window)) ∧
       (nres.toNat ≤ 1 → ck.fmtOk = true → fits →
         (s.cmds.filter fun c => c.die == s.cur.die && c.core == s.cur.core).length < 64 →
         (∃ c, c ∈ s.cur.ctrs ∧ c.done = c.issued) →
         ∃ t cn old, exec i s = .next t ∧ s.cur.ctrs[cn]? = some old ∧ old.done = old.issued ∧
           t.cur.off = s.cur.off + hereLen s ∧ t.cur.storeQ = [] ∧ t.mem.bytes = (drainQ s).mem.bytes ∧
           t.mem.full = s.mem.full ∧ (∀ k, k ≠ cn → t.cur.ctrs[k]? = s.cur.ctrs[k]?) ∧
           Gives s t true ([fun _ => cn + 16 * (old.issued + 1).toNat].take nres.toNat) ∧
           (ck.total ≠ 0 → t.cur.ctrs[cn]? = some { old with issued := old.issued + 1 } ∧
             ∃ c, t.cmds = s.cmds ++ [c] ∧ c.op = op ∧ c.by_ = .group s.cur.uid cn ∧ c.done = [] ∧
               c.die = s.cur.die ∧ c.core = s.cur.core ∧ c.ctx = s.cur.ctx ∧
               c.err = if op.badBase then some .farFault else none) ∧
           (ck.total = 0 → t.cmds = s.cmds ∧
             t.cur.ctrs[cn]? = some { old with done := old.issued + 1, issued := old.issued + 1 }))
     let rows (o : RowsOp) : EngOp :=
       .rows (n .far o.rp) (n .far o.ci) (n .far o.va) (n .far o.xv) (n .i64 o.first) (n .i32 o.n) (n .near o.dst)
         (n .i32 o.cap) (if o.esz8 then 8 else 4) o.rp64 o.gath o.cols (2 ^ o.brc.toNat) (2 ^ o.bcc.toNat)
     (∀ o, issues (.copyIn o) (.copy (pat o.src false) (pat o.dst true)) o.nres) ∧
     (∀ o, issues (.copyOut o) (.copy (pat o.src true) (pat o.dst false)) o.nres) ∧
     (∀ o, issues (.copyNear o) (.copy (pat o.src true) (pat o.dst true)) o.nres) ∧
     (∀ o, issues (.reduceFar o) (.reduce (pat o.src true) (pat o.dst false) o.combine o.elem) o.nres) ∧
     (∀ o, issues (.gather o) (.gather (n .far o.tbl) (n .near o.idx) (n .i32 o.n) (n .near o.buf)
       (2 ^ (o.esz.toNat + 2)) o.idx64) o.nres) ∧
     (∀ o, issues (.scatter o) (.scatter (n .far o.tbl) (n .near o.idx) (n .i32 o.n) (n .near o.buf)
       (2 ^ (o.esz.toNat + 2)) o.idx64 o.combine o.elem) o.nres) ∧
     (∀ o, issues (.csrRows o) (rows o) o.nres) ∧ (∀ o, issues (.bsrBlocks o) (rows o) o.nres) ∧
     (∀ o, issues (.isect o) (.isect (n .far o.a) (opdNear s o.a) (n .i32 o.na) (n .far o.b) (opdNear s o.b)
       (n .i32 o.nb) (n .near o.out) (n .i32 o.cap) o.key64 o.signed) o.nres)) ∧
  (∀ (s : State) (uni : Bool) (x : Opd) (c : Ctr), Running s →
     let h := (opd s .tok x (leader s)).toNat % 2 ^ 32
     s.cur.ctrs[h % 16]? = some c →
     let reached : Prop := (c.done.toNat + 2 ^ 28 - h / 16) % 2 ^ 28 < 2 ^ 27
     (¬ reached → Computes (.tokTest uni x) s true [fun _ => 0]) ∧
     (reached → (∀ e, e ∈ c.errs → e.seq ≠ BitVec.ofNat 28 (h / 16)) →
       ∃ m, m = { s with cur := { observed s.cur (BitVec.ofNat 32 h) with acq := m.cur.acq, early := none } } ∧
       AcquiredAt m.cur (groupReach s s.cur 3) s.steps ∧
       ∃ t, exec (.tokTest uni x) s = .next t ∧ Wrote m t true 1 ∧ Gives m t true [fun _ => 1]) ∧
     (∀ e, reached → c.errs.find? (fun x => x.seq = BitVec.ofNat 28 (h / 16)) = some e →
       exec (.tokTest uni x) s =
         .next (raiseAt { s with cur := observed s.cur (BitVec.ofNat 32 h) } e.trap e.ppc)))

/-! ## Value Form: group operations, control, new work -/

/-- R105 and R211 to R215: the group operations read every source of every thread first and give their
results to the active threads; a floating reduction takes every NaN as the canonical one (R91). -/
def Obligations.GroupOperations : Prop :=
  ∀ (s : State), Running s →
    let on (t : Nat) : Prop := t < s.cur.width ∧ s.cur.active.getLsbD t = true
    let pr (p : Opd) (t : Nat) : Bool := (opd s .i1 p t).getLsbD 0
    (∀ o : XlaneOp, o.nres.toNat ≤ 2 →
      let n := opdN s .i32 o.n
      let src (t : Nat) : Int := match o.mode with
        | .get => n t
        | .mix => (t ^^^ n t : Nat)
        | .rise => (t : Int) - n t
        | .fall => (t : Int) + n t
      let hit (t : Nat) : Bool := decide (0 ≤ src t ∧ src t < s.cur.width) && s.cur.active.getLsbD (src t).toNat
      Computes (.xlane o) s false ([fun t => (opd s o.ty o.x (if hit t then (src t).toNat else t)).toNat,
        fun t => (hit t).toNat].take o.nres.toNat)) ∧
    (∀ p, Computes (.lanesAny p) s false [fun _ => ((actives s).any (pr p)).toNat]) ∧
    (∀ p, Computes (.lanesAll p) s false [fun _ => ((actives s).all (pr p)).toNat]) ∧
    (∀ p, ∃ m : Lane, Computes (.lanesMask p) s false [fun _ => m.toNat] ∧
      ∀ t, m.getLsbD t = true ↔ on t ∧ pr p t = true) ∧
    (∀ ty x, Computes (.rdfirst ty x) s false [fun _ => (opd s ty x (leader s)).toNat]) ∧
    (∀ o : GrpAddOp, (s.cur.width = 16 ∨ s.cur.width = 32 ∨ s.cur.width = 64) →
      let x := opdN s o.ty o.x
      let f := fmtOf o.ty
      (o.ty.isFloat = false →
        Computes (.grpAdd o) s false [fun _ => ((actives s).map x).sum % 2 ^ o.ty.width]) ∧
      (o.ty.isFloat = true → Computes (.grpAdd o) s false
        [fun _ => (treeOf (fpAdd f ⟨rndMode s.cur.fmt o.rnd, s.cur.fmt.getLsbD 2⟩) s.cur.active
          (fun t => fpCanon f (x t)) (Nat.log2 s.cur.width) 0).getD 0])) ∧
    (∀ o : GrpMinMaxOp, (s.cur.width = 16 ∨ s.cur.width = 32 ∨ s.cur.width = 64) → (∃ t, on t) →
      let x := opdN s o.ty o.x
      let v (t : Nat) : Int := if o.signed then sgn o.ty.width (x t) else (x t : Int)
      let f := fmtOf o.ty
      (o.ty.isFloat = false →
        (∃ t, on t ∧ (∀ u, on u → v t ≤ v u) ∧ Computes (.grpMin o) s false [fun _ => x t]) ∧
        (∃ t, on t ∧ (∀ u, on u → v u ≤ v t) ∧ Computes (.grpMax o) s false [fun _ => x t])) ∧
      (o.ty.isFloat = true →
        Computes (.grpMin o) s false [fun _ =>
          (treeOf (fpMin f) s.cur.active (fun t => fpCanon f (x t)) (Nat.log2 s.cur.width) 0).getD 0] ∧
        Computes (.grpMax o) s false [fun _ =>
          (treeOf (fpMax f) s.cur.active (fun t => fpCanon f (x t)) (Nat.log2 s.cur.width) 0).getD 0])) ∧
    (∀ o : ConflictOp, o.nres.toNat ≤ 2 → ∃ m : Nat → Lane,
      (∀ t i, t < s.cur.width → ((m t).getLsbD i = true ↔
        i < t ∧ s.cur.active.getLsbD i = true ∧ opdN s o.ty o.k i = opdN s o.ty o.k t)) ∧
      Computes (.conflict o) s false
        ([fun t => (m t).toNat, fun t => if m t = 0 then 1 else 0].take o.nres.toNat))

/-- R29, R30 and R202 to R205: a branch whose active threads go to one block that is not their reconvergence
point moves the group there with the arguments of the target; a `brc` that divides them pushes one entry
and runs the true path first; a push beyond depth 160 and a divided `br.u` trap; at the reconvergence
point the next deferred path runs, or the entry is popped. -/
def Obligations.Branches : Prop :=
  ∀ (s : State), Running s → s.cur.active ≠ 0 →
    let its := itemsOf s
    let goes (t : State) (m : Mask) (b : Nat) (st : List StackEnt) : Prop :=
      t = { s with cur := { s.cur with
        off := blockStart its b, active := m, stack := st, frames := t.cur.frames } } ∧
      t.cur.frames.tail = s.cur.frames.tail
    let taken (c : Opd) : Mask := maskOf ((actives s).filter fun t => (opd s .i1 c t).getLsbD 0)
    let join := ipdom its (blockOf its s.cur.off 0)
    (∀ x : Target, ¬ AtJoin s x.blk.toNat → ∃ t, exec (.br x) s = .next t ∧
      goes t s.cur.active x.blk.toNat s.cur.stack ∧ Passed s t s.cur.active x) ∧
    (∀ o : BrcOp, let m := taken o.c
      (m = s.cur.active → ¬ AtJoin s o.t.blk.toNat → ∃ t, exec (.brc o) s = .next t ∧ exec (.brU o) s = .next t ∧
        goes t s.cur.active o.t.blk.toNat s.cur.stack ∧ Passed s t s.cur.active o.t) ∧
      (m = 0 → ¬ AtJoin s o.f.blk.toNat → ∃ t, exec (.brc o) s = .next t ∧ exec (.brU o) s = .next t ∧
        goes t s.cur.active o.f.blk.toNat s.cur.stack ∧ Passed s t s.cur.active o.f) ∧
      (m ≠ 0 → m ≠ s.cur.active → exec (.brU o) s = .next (raise s .uniformity)) ∧
      (m ≠ 0 → s.cur.active &&& ~~~m ≠ 0 → o.t.blk = o.f.blk → ¬ AtJoin s o.t.blk.toNat →
        ∃ t, exec (.brc o) s = .next t ∧ goes t s.cur.active o.t.blk.toNat s.cur.stack ∧
          Passed s t m o.t ∧ Passed s t (s.cur.active &&& ~~~m) o.f) ∧
      (m ≠ 0 → s.cur.active &&& ~~~m ≠ 0 → o.t.blk ≠ o.f.blk →
        (160 ≤ s.cur.stack.length → exec (.brc o) s = .next (raise s .divergenceDepth)) ∧
        (s.cur.stack.length < 160 → join ≠ some o.t.blk.toNat → ∃ t, exec (.brc o) s = .next t ∧
          goes t m o.t.blk.toNat
            ({ full := s.cur.active, fmt := s.cur.fmt, rpc := join,
               todo := [(s.cur.active &&& ~~~m, blockStart its o.f.blk.toNat)] } :: s.cur.stack) ∧
          Passed s t m o.t ∧ Passed s t (s.cur.active &&& ~~~m) o.f))) ∧
    (∀ o : SwitchOp, (o.cases.map (·.1)).Nodup →
      let on (t : Nat) : Prop := t < s.cur.width ∧ s.cur.active.getLsbD t = true
      let v (t : Nat) : Int := (loWord (opd s .i32 o.v t)).toInt
      (∀ c, c ∈ o.cases → (∀ t, on t → v t = c.1.toInt) → ¬ AtJoin s c.2.blk.toNat →
        ∃ t, exec (.switch o) s = .next t ∧ goes t s.cur.active c.2.blk.toNat s.cur.stack ∧
          Passed s t s.cur.active c.2) ∧
      ((∀ t c, on t → c ∈ o.cases → v t ≠ c.1.toInt) → ¬ AtJoin s o.dflt.blk.toNat →
        ∃ t, exec (.switch o) s = .next t ∧ goes t s.cur.active o.dflt.blk.toNat s.cur.stack ∧
          Passed s t s.cur.active o.dflt) ∧
      (∀ c, c ∈ o.cases → (∃ t, on t ∧ v t = c.1.toInt) →
        (∀ d, d ∈ o.cases → (∃ t, on t ∧ v t = d.1.toInt) → c.1.toInt ≤ d.1.toInt) →
        let dest (t : Nat) : Nat := ((o.cases.find? fun d => d.1.toInt == v t).map (·.2)).getD o.dflt |>.blk.toNat
        (∃ t, on t ∧ dest t ≠ c.2.blk.toNat) →
        (160 ≤ s.cur.stack.length → exec (.switch o) s = .next (raise s .divergenceDepth)) ∧
        (s.cur.stack.length < 160 → join ≠ some c.2.blk.toNat → ∃ t m e, exec (.switch o) s = .next t ∧
          goes t m c.2.blk.toNat (e :: s.cur.stack) ∧ e.full = s.cur.active ∧ e.fmt = s.cur.fmt ∧ e.rpc = join ∧
          (∀ th, on th → (m.getLsbD th = true ↔ dest th = c.2.blk.toNat)) ∧
          (∀ th, on th → dest th ≠ c.2.blk.toNat →
            ∃ p, p ∈ e.todo ∧ p.1.getLsbD th = true ∧ p.2 = blockStart its (dest th))))) ∧
    (∀ (f : Frame) (fs : List Frame) (e : StackEnt) (es : List StackEnt) (b : BitVec 24), s.cur.frames = f :: fs →
      s.cur.stack = e :: es → f.base < s.cur.stack.length → e.rpc = some b.toNat →
      let live (m : Mask) : Mask := m &&& ~~~s.cur.exited &&& ~~~f.retMask
      (∀ m off todo, e.todo = (m, off) :: todo → live m ≠ 0 → off ≠ blockStart its b.toNat →
        exec (.br ⟨b, []⟩) s = .next { s with cur := { s.cur with
          stack := { e with todo := todo } :: es, active := live m, off := off, fmt := e.fmt } }) ∧
      (e.todo = [] → live e.full ≠ 0 → (∀ e', es.head? = some e' → f.base < es.length → e'.rpc ≠ some b.toNat) →
        exec (.br ⟨b, []⟩) s = .next { s with cur := { s.cur with
          stack := es, active := live e.full, off := blockStart its b.toNat, fmt := e.fmt } }))

/-- R28, R84, R206, R207, R210 and R223: `call` enters its function with the operands as parameters; the `ret`
of the last threads goes on after the call with every thread's own values; `exit`, and a `ret` with no
caller, end the active threads, which triggers for them, but at the end of the group while an engine command of
it may still fail; `exit` in a helper traps; `dep.trigger` counts each
thread once. -/
def Obligations.CallsAndExits : Prop :=
  ∀ (s : State), Running s →
    let ws := groupWords s s.cur
    (∀ o : CallOp, ∃ t f, exec (.call o) s = .next t ∧
      t = { s with cur := { s.cur with frames := f :: s.cur.frames, off := blockStart (fnItems ws o.fn.toNat) 0 } } ∧
      f.fn = o.fn.toNat ∧ f.callMask = s.cur.active ∧ f.retMask = 0 ∧ f.base = s.cur.stack.length ∧
      f.retOff = s.cur.off + hereLen s ∧ f.dst = hereVal s ∧
      ∀ j a th, o.args[j]? = some a → th < s.cur.width →
        valueAt t j th = opd s ((((fnParams ws o.fn.toNat).map (·.1))[j]?).getD .i32) a th) ∧
    (∀ (args : List Opd) (f c : Frame) (cs : List Frame), s.cur.frames = f :: c :: cs →
      s.cur.stack.length ≤ f.base → s.cur.active ≠ 0 →
      s.cur.active ||| f.retMask = f.callMask &&& ~~~s.cur.exited →
      ∃ t c', exec (.ret args) s = .next t ∧ t = { s with cur := { s.cur with
          frames := c' :: cs, active := f.callMask &&& ~~~s.cur.exited, off := f.retOff } } ∧
        c' = { c with vals := c'.vals } ∧
        ∀ j a th, args[j]? = some a → th < s.cur.width → s.cur.active.getLsbD th = true →
          valueAt t (f.dst + j) th = opd s (((fnInfo ws f.fn).rets[j]?).getD .i32) a th) ∧
    (s.cur.party = none → ∃ t, exec .exit s = .next t ∧ t.cur.exited = s.cur.exited ||| s.cur.active ∧
      t.cur.lastExit = s.cur.active ∧
      (let due : Prop := s.cur.exited ||| s.cur.active = fullMask s.cur.width ∧
         ¬ (cmdsBy s s.cur.uid = [] ∧ tokErrs s.cur = [])
       (due → t.cur.exitDue = true ∧ t.cur.trig = s.cur.trig) ∧
       (¬ due → t.cur.exitDue = false ∧
         (s.cur.kind = .team → t.cur.trig = s.cur.trig ||| s.cur.active))) ∧
      (s.cur.exited ||| s.cur.active = fullMask s.cur.width → t.cur.active = 0) ∧
      ∀ args, s.cur.frames.length = 1 → exec (.ret args) s = .next t) ∧
    (s.cur.party ≠ none → exec .exit s = .next (raise s .helperExit)) ∧
    (∃ t, exec .depTrigger s = .next t ∧ t.mem = s.mem ∧ t.cur.off = s.cur.off + hereLen s ∧
      t.cur.frames = s.cur.frames ∧
      (⟨.package, coreObs s.cur, s.steps, s.cur.uid, s.nextId, []⟩ : Carry) ∈ t.cur.carry ∧
      (s.cur.kind ≠ .team → t.cur.trig = s.cur.trig ∧ t.launches = s.launches) ∧
      (s.cur.kind = .team → t.cur.trig = s.cur.trig ||| s.cur.active ∧
        ∀ l, launchOf s s.cur.launch = some l → ∃ l', launchOf t s.cur.launch = some l' ∧ l'.trigs = l.trigs +
          (List.range 64).countP fun i => s.cur.active.getLsbD i && !s.cur.trig.getLsbD i))

/-- R34 to R36, R83, R208 and R209: `spawn` creates a detached group on the group's core where its resources
fit, with status 0, else nothing with status 1; `taskpost` posts a record for each posting thread in turn
while the context's quota lasts, and traps with WINDOW before any where an address has no slice.

R216 to R219: each HERD form completes its issue: the queue drained, one range for each active thread
with its bounds, its chunk between 1 and 65,536 and at most 15 helpers, none (REASON 3) where the kernel or
the launch turns helpers off; the captured values and FMT are held for the parties. -/
def Obligations.NewWorkAndHerds : Prop :=
  (∀ (s : State), Running s → ∀ l, launchOf s s.cur.launch = some l →
     let ws := groupWords s s.cur
     (∀ o : SpawnOp, o.nres.toNat ≤ 1 →
       let d := drainQ s
       let held := (kernelIn l).coop = true ∨ teamsWait l s.cur.die (s.cur.core / 16) = false
       let seat := detachedSeat d l s.cur.die s.cur.core o.fn.toNat (some s.cur.budget)
       ((¬ held ∨ seat = none) → ∃ t, exec (.spawn o) s = .next t ∧ t.others = s.others ∧ t.cur.storeQ = [] ∧
         t.launches = s.launches ∧ t.cur.off = s.cur.off + hereLen s ∧
         Gives s t false ([fun _ => 1].take o.nres.toNat)) ∧
       (∀ slot off, held → seat = some (slot, off) → NamesFresh s →
         ∃ (t : State) (g : Group), exec (.spawn o) s = .next t ∧ t.others = g :: s.others ∧ g.uid = s.nextId ∧ g.kind = .spawned ∧
           g.st = .ready ∧ g.die = s.cur.die ∧ g.core = s.cur.core ∧ g.slot = slot ∧ g.unit = o.fn.toNat ∧
           g.active = fullMask g.width ∧ t.cur.storeQ = [] ∧ t.cur.off = s.cur.off + hereLen s ∧
           (∃ l', launchOf t s.cur.launch = some l' ∧ l'.dets = l.dets + 1) ∧
           (∀ j a th, o.args[j]? = some a → th < g.width → getLane (valLanes g j) th =
             opd s ((((fnParams ws o.fn.toNat).map (·.1))[j]?).getD .i32) a (leader s)) ∧
           Gives s t false ([fun _ => 0].take o.nres.toNat))) ∧
     (∀ o : TaskpostOp, o.nres.toNat ≤ 1 →
       let ps := accessors s o.uni
       let home (t : Nat) : Option SliceEnt := homeOf s s.cur.ctx (opdN s .near o.p t)
       ((∃ t, t ∈ ps ∧ home t = none) → exec (.taskpost o) s = .next (raise s .window)) ∧
       (∀ c, (∀ t, t ∈ ps → (home t).isSome) → ctxOf s s.cur.ctx = some c → l.ctx = s.cur.ctx →
         (s.launches.map (·.uid)).Nodup →
         let had := ((s.launches.filter fun x => x.ctx == s.cur.ctx).map (·.tasks)).sum
         ∃ (t : State) (rs : List Task), exec (.taskpost o) s = .next t ∧ t.tasks = s.tasks ++ rs ∧ rs.length = min ps.length (c.taskQuota - had) ∧
           t.cur.off = s.cur.off + hereLen s ∧ t.mem = s.mem ∧
           (∀ (i : Nat) (r : Task) (th : Nat), rs[i]? = some r → ps[i]? = some th → r.fn = o.fn.toNat ∧ r.launch = s.cur.launch ∧
             r.p = lane (opdN s .near o.p th) ∧
             (∀ e, home th = some e → r.die = e.die ∧ (e.commons = false → r.core = e.index)) ∧
             ∀ j a, o.args[j]? = some a →
               r.args[j]? = some (opd s ((((fnParams ws o.fn.toNat).map (·.1))[j + 1]?).getD .i32) a th)) ∧
           (o.nres = 1 → ∀ i th, Receives s o.uni th → ps[i]? = some (if o.uni then leader s else th) →
             valueAt t (hereVal s) th = if had + i < c.taskQuota then 0 else 1)))) ∧
  (∀ (s : State) (o : HerdOp) (l : Launch), Running s → NamesFresh s → s.cur.herd = none →
     launchOf s s.cur.launch = some l →
     let off : Prop := (kernelIn l).helpers = false ∨ l.body.helpersOff = true
     let issues (i : Instr) (red : Nat) : Prop := ∃ (t : State) (h : Herd), exec i s = .next t ∧ t.cur.herd = some h ∧
       t.cur.off = s.cur.off ∧ t.cur.frames = s.cur.frames ∧ t.cur.storeQ = [] ∧ t.cur.uid = s.cur.uid ∧
       h.helper = o.h.toNat ∧ h.fn = (helperEntry (groupWords s s.cur) o.h.toNat).1 ∧ h.red = red ∧
       h.ty = o.ty ∧ h.fmt = s.cur.fmt ∧ h.nres = o.nres.toNat ∧ h.dst = hereVal s ∧ h.phase = 2 ∧
       h.ranges.map (·.thread) = threadsOf s.cur.active s.cur.width ∧
       (∀ r, r ∈ h.ranges → r.lo = sgn 32 (opdN s .i32 o.lo r.thread) ∧ r.hi = sgn 32 (opdN s .i32 o.hi r.thread) ∧
         r.chunk = max 1 (min (opdN s .i32 o.chunk r.thread) 65536) ∧ r.helpers ≤ 15 ∧
         (off → r.helpers = 0 ∧ r.reason = 3)) ∧
       (∀ (j : Nat) (a : Opd) (th : Nat), o.caps[j]? = some a → th < s.cur.width → getLane ((h.caps[j]?).getD []) th =
         opd s (((((fnParams (groupWords s s.cur) h.fn).drop 1).map (·.1))[j]?).getD .i32) a th)
     issues (.herd o) 0 ∧ issues (.herdAdd o) 1 ∧ issues (.herdMin o) 2 ∧ issues (.herdMax o) 3 ∧
       issues (.herdOr o) 4)

/-- R16, R100, R107, R108 and R226 to R229: FMT, seeds, identity and time. -/
def Obligations.GroupState : Prop :=
  ∀ (s : State), Running s →
    (∀ o : SetfmtOp, let v : Word := loWord (opd s .i32 o.v (leader s))
      (64 ≤ v.toNat ∨ (o.mask.getLsbD 3 = true ∧ v.getLsbD 5 = true) →
        exec (.setfmt o) s = .next (raise s .format)) ∧
      (v.toNat < 64 → ¬ (o.mask.getLsbD 3 = true ∧ v.getLsbD 5 = true) → ∃ f : Word,
        exec (.setfmt o) s = .next { s with cur := { s.cur with fmt := f, off := s.cur.off + hereLen s } } ∧
        (∀ b, b < 32 → f.getLsbD b =
          if (b < 2 ∧ o.mask.getLsbD 0 = true) ∨ (b = 2 ∧ o.mask.getLsbD 1 = true) ∨
             (b = 3 ∧ o.mask.getLsbD 2 = true) ∨ ((b = 4 ∨ b = 5) ∧ o.mask.getLsbD 3 = true)
          then v.getLsbD b else s.cur.fmt.getLsbD b))) ∧
    (∀ uni, Computes (.getfmt uni) s uni [fun _ => s.cur.fmt.toNat]) ∧
    (∀ uni, Computes (.clock uni) s uni [fun _ => s.tick % 2 ^ 64]) ∧
    (∀ x : Opd, s.cur.party = none → let v := opd s .i64 x (leader s)
      exec (.rngSeed x) s = .next { s with cur := { s.cur with
        gen := if s.cur.kind = .task then genSeed v 0xFFFFFFFF 0xFFFF 0
          else genSeed v (s.cur.teamIdx.getD 0 0) s.cur.gidx 0,
        seed := v, rq := [], off := s.cur.off + hereLen s } }) ∧
    (∀ o : IdOp, s.cur.party = none →
      let own (n : Nat) (x : Nat → Nat) : Prop := o.idx.toNat = n → Computes (.id o) s o.uni [x]
      own 0 (fun t => t) ∧ own 5 (fun _ => s.cur.width) ∧ own 9 (fun _ => 0) ∧
      own 1 (fun _ => if s.cur.kind = .team then s.cur.gidx.toNat else 0xFFFF) ∧
      own 2 (fun t => (s.cur.teamIdx.getD t (s.cur.teamIdx.getD 0 0)).toNat) ∧
      own 3 (fun _ => logicalCore s s.cur.ctx s.cur.die s.cur.core) ∧
      (∀ l, launchOf s s.cur.launch = some l →
        own 4 (fun _ => l.seq.toNat) ∧ own 7 (fun _ => l.body.teams.toNat)) ∧
      (s.cur.kind ≠ .team → own 6 (fun _ => 0) ∧ own 8 (fun _ => 0)) ∧
      (∀ tm, s.cur.kind = .team → teamOf s s.cur.team = some tm → own 6 (fun _ => tm.size) ∧
        (tm.regionLen ≠ 0 →
          own 8 (fun _ => logicalCore s s.cur.ctx tm.die tm.core * 2 ^ 22 + tm.regionOff))))

/-! ## Value Form: tiles and matrix operations -/

/-- R231 to R238: the tile instructions, element by element. -/
def Obligations.Tiles : Prop :=
  ∀ (s : State), Running s →
    let t0 := leader s
    let data (T : Tile) : Prop := T.data.length = T.desc.rows * T.desc.cols
    let at_ (T : Tile) (r c : Nat) : Nat := ((T.data[r * T.desc.cols + c]?).getD 0).toNat
    let inside (d : TileDesc) (r c : Nat) : Prop := r < d.rows ∧ c < d.cols
    (∀ d, ∃ T, MakesTile (.tileZero d) s s T ∧ T.desc = d ∧ data T ∧ ∀ r c, inside d r c → at_ T r c = 0) ∧
    (∀ o : TileFillOp, ∃ T, MakesTile (.tileFill o) s s T ∧ T.desc = o.d ∧ data T ∧
      ∀ r c, inside o.d r c → at_ T r c = opdN s o.d.elem.ty o.v t0) ∧
    (∀ o : TileLoadOp,
      let w := o.d.elem.width / 8
      let p := opdN s .near o.p t0
      let ld := opdN s .i32 o.ld t0
      let at2 (r c : Nat) : Nat := if o.tr then c * ld + r * w else r * ld + c * w
      let span := at2 (o.d.rows - 1) (o.d.cols - 1) + w
      (p % w ≠ 0 ∨ ld % w ≠ 0 → exec (.tileLoad o) s = .next (raise s .alignment)) ∧
      (p % w = 0 → ld % w = 0 → groupNear s s.cur p span false = none →
        exec (.tileLoad o) s = .next (raise s .window)) ∧
      (∀ k, Undamaged s → p % w = 0 → ld % w = 0 → groupNear s s.cur p span false = some k →
        ∃ m T, MakesTile (.tileLoad o) s m T ∧ MemoryOnly s m ∧ m.mem = s.mem ∧ m.cur.storeQ = s.cur.storeQ ∧
          T.desc = o.d ∧ data T ∧ ∀ r c, inside o.d r c → Untouched s (k + at2 r c) w →
            at_ T r c = wordOf s.mem w (k + at2 r c))) ∧
    (∀ o : TileStoreOp,
      let w := o.d.elem.width / 8
      let p := opdN s .near o.p t0
      let ld := opdN s .i32 o.ld t0
      let x := tileOpd s o.d o.x
      let at2 (r c : Nat) : Nat := if o.tr then c * ld + r * w else r * ld + c * w
      let span := at2 (o.d.rows - 1) (o.d.cols - 1) + w
      (p % w ≠ 0 ∨ ld % w ≠ 0 → exec (.tileStore o) s = .next (raise s .alignment)) ∧
      (p % w = 0 → ld % w = 0 → groupNear s s.cur p span true = none →
        exec (.tileStore o) s = .next (raise s .window)) ∧
      (∀ k, x.desc = o.d → data x → p % w = 0 → ld % w = 0 → groupNear s s.cur p span true = some k →
        ∃ t qs, exec (.tileStore o) s = .next t ∧
          t = { s with nextId := t.nextId,
                       cur := { s.cur with storeQ := s.cur.storeQ ++ qs, off := s.cur.off + hereLen s } } ∧
          (∀ q b, q ∈ qs → b ∈ q.bytes →
            ∃ r c, inside o.d r c ∧ k + at2 r c ≤ b.1 ∧ b.1 < k + at2 r c + w) ∧
          (∀ r c i, inside o.d r c → i < w →
            (∀ r' c', inside o.d r' c' → r * o.d.cols + c < r' * o.d.cols + c' →
              k + at2 r c + i < k + at2 r' c' ∨ k + at2 r' c' + w ≤ k + at2 r c + i) →
            queueByte (k + at2 r c + i) t.cur.storeQ = some (BitVec.ofNat 8 (at_ x r c / 256 ^ i))))) ∧
    (∀ o : TileCvtOp,
      let x := tileOpd s (descOpd s o.x) o.x
      let src := x.desc.elem.ty
      let dst := o.d.elem.ty
      let stoch := dst.isFloat = true ∧ (o.rnd = .sr ∨ (o.rnd = .fmt ∧ s.cur.fmt.getLsbD 3 = true))
      let lo : Int := if o.ds then -(2 ^ (o.d.elem.width - 1) : Nat) else 0
      let hi : Int := if o.ds then (2 ^ (o.d.elem.width - 1) : Nat) - 1 else (2 ^ o.d.elem.width : Nat) - 1
      let ex (v : Nat) : Ex :=
        if src.isFloat then ((fmtOf src).decode v).ex
        else
          let n : Int := if o.ss then sgn x.desc.elem.width v else (v : Int)
          .num (decide (n < 0)) n.natAbs 0 false
      data x → (∀ v, v ∈ x.data → v.toNat < 2 ^ x.desc.elem.width) → x.desc.rows = o.d.rows → x.desc.cols = o.d.cols →
      (dst.isFloat = true ∨ src.isFloat = true) →
      ∃ m T, MakesTile (.tileCvt o) s m T ∧ T.desc = o.d ∧ data T ∧ (¬ stoch → m = s) ∧
        (stoch → m = (drawWords ((o.d.rows * o.d.cols + 15) / 16) s).2) ∧
        ∀ r c, inside o.d r c →
          let v := at_ x r c
          let rho := ((((drawWords ((o.d.rows * o.d.cols + 15) / 16) s).1.getD ((r * o.d.cols + c) / 16) []).getD
            ((r * o.d.cols + c) % 16) 0).toNat) % 65536
          (dst.isFloat = true → ¬ stoch → at_ T r c = (fmtOf dst).round (rndMode s.cur.fmt o.rnd) (s.cur.fmt.getLsbD 2) (ex v)) ∧
          (dst.isFloat = true → stoch → at_ T r c = (fmtOf dst).round (.sr rho) (s.cur.fmt.getLsbD 2) (ex v)) ∧
          (dst.isFloat = false → at_ T r c = match (fmtOf src).decode v with
            | .nan => 0
            | .inf n => lowI o.d.elem.width (if n then lo else hi)
            | .fin n m e => lowI o.d.elem.width (clampI (roundInt (rndMode s.cur.fmt o.rnd) n m e) lo hi))) ∧
    (∀ o : TileExtractOp, let x := tileOpd s (descOpd s o.x) o.x
      Computes (.tileExtract o) s false [fun t =>
        if opdN s .i32 o.r t < x.desc.rows ∧ opdN s .i32 o.c t < x.desc.cols
        then at_ x (opdN s .i32 o.r t) (opdN s .i32 o.c t) else 0]) ∧
    (∀ o : TileInsertOp, let x := tileOpd s o.d o.x
      let named (t r c : Nat) : Prop := t ∈ actives s ∧ opdN s .i32 o.r t = r ∧ opdN s .i32 o.c t = c
      x.desc = o.d → data x →
      ∃ T, MakesTile (.tileInsert o) s s T ∧ T.desc = o.d ∧ data T ∧ ∀ r c, inside o.d r c →
        (∀ t, named t r c → (∀ t', t < t' → ¬ named t' r c) → at_ T r c = opdN s o.d.elem.ty o.v t) ∧
        ((∀ t, ¬ named t r c) → at_ T r c = at_ x r c))

/-- R239 to R243: a matrix operation opens, with its operands read at its issue, where fewer than 64 are
incomplete, and waits where 64 are; the D it will write is the exact block sum rounded as its form says;
`mfence` closes the open operations into the next batch where fewer than 8 are incomplete, and waits where
8 are; a scale format other than FMT's traps with FORMAT. -/
def Obligations.MatrixOperations : Prop :=
  ∀ (s : State), Running s →
    let tile (o : Opd) : Tile := tileOpd s (descOpd s o) o
    let at_ (T : Tile) (r c : Nat) : Nat := ((T.data[r * T.desc.cols + c]?).getD 0).toNat
    let busy := 64 ≤ (s.cur.jobs.filter fun j => !j.failed).length
    let opens (i : Instr) (d : TileDesc) (a b c : Opd) (ok : MmaJob → Prop) : Prop :=
      (busy → exec i s = .next s) ∧
      (¬ busy → ∃ x : MmaJob, exec i s = .next { s with
          nextId := s.nextId + 1,
          cur := { s.cur with jobs := s.cur.jobs ++ [x], off := s.cur.off + hereLen s } } ∧
        x.a = tile a ∧ x.b = tile b ∧ x.c = tileOpd s d c ∧ x.desc = d ∧ x.dst = hereVal s ∧ x.no = s.nextId ∧
        x.batch = none ∧ x.failed = false ∧ x.tbf = false ∧ ok x)
    let scale (e8 : Bool) (v : Nat) : Nat := if e8 then e8m0ToF32 v else v
    let rn : RCtx := { md := .rn, sat := false }
    let scaled (x : MmaJob) (e8 : Bool) (sa : Tile) (sb : Word) : Prop := ∀ (C : Tile) (i j : Nat),
      x.elem C i j = fpAdd fmtF32 rn (at_ C i j) (fpMul fmtF32 rn (fmtF32.round .rn false (x.fsum i j).ex)
        (fpMul fmtF32 rn (scale e8 (at_ sa i 0)) (scale e8 sb.toNat)))
    let plain (x : MmaJob) : Prop := ∀ (C : Tile) (i j : Nat),
      x.elem C i j = fmtF32.round .rn false (exAdd .rn (fmtF32.decode (at_ C i j)) (x.fsum i j))
    let ints (x : MmaJob) (sa sb : Bool) (row : Nat → Nat → Nat) : Prop := ∀ (C : Tile) (i j : Nat),
      x.elem C i j = lowI 32 ((at_ C i j : Int) + ((List.range x.b.desc.rows).map fun q =>
        (if sa then sgn 8 (at_ x.a i (row q j)) else (at_ x.a i (row q j) : Int)) *
        (if sb then sgn 8 (at_ x.b q j) else (at_ x.b q j : Int))).sum)
    let e8 (sfmt : BitVec 2) : Bool := if sfmt = 0 then fmtScale s.cur.fmt == 1 else sfmt == 2
    let clash (sfmt : BitVec 2) (sa : Opd) : Prop :=
      sfmt = 0 ∧ ((tile sa).desc.elem == .i8) ≠ (fmtScale s.cur.fmt == 1)
    let sbOf (o : Opd) : Word := match o with
      | .val n => loWord (getLane (valLanes s.cur n.toNat) (leader s))
      | o => loWord (immLane .i32 o)
    (∀ o : MmaF8sOp, (clash o.sfmt o.sa → exec (.mmaF8s o) s = .next (raise s .format)) ∧
      (¬ clash o.sfmt o.sa → opens (.mmaF8s o) o.d o.a o.b o.c fun x =>
        scaled x (e8 o.sfmt) (tile o.sa) (sbOf o.sb))) ∧
    (∀ o : MmaOp, opens (.mmaBf16 o) o.d o.a o.b o.c plain ∧ opens (.mmaF16 o) o.d o.a o.b o.c plain) ∧
    (∀ o : MmaI8Op, opens (.mmaI8 o) o.d o.a o.b o.c fun x => ints x o.sa o.sb fun q _ => q) ∧
    (∀ o : MmaSpOp,
      let keep := 16 * (o.keep.toNat + 1)
      let row (q j : Nat) : Nat := 64 * (q / keep) + at_ (tile o.m) q j % 64
      (o.form = 3 → opens (.mmaSp o) o.d o.a o.b o.c fun x => ints x (o.s2.getLsbD 0) (o.s2.getLsbD 1) row) ∧
      (o.form = 1 ∨ o.form = 2 → o.scales = none → opens (.mmaSp o) o.d o.a o.b o.c fun x =>
        plain x ∧ ∀ q j, x.dense q j = row q j) ∧
      (∀ sa sb, o.form = 0 → o.scales = some (sa, sb) →
        (clash o.s2 sa → exec (.mmaSp o) s = .next (raise s .format)) ∧
        (¬ clash o.s2 sa → opens (.mmaSp o) o.d o.a o.b o.c fun x =>
          scaled x (e8 o.s2) (tile sa) (sbOf sb) ∧ ∀ q j, x.dense q j = row q j))) ∧
    (8 ≤ (s.cur.mfences - s.cur.batchesDone).toNat → exec .mfence s = .next s) ∧
    ((s.cur.mfences - s.cur.batchesDone).toNat < 8 →
      let n := s.cur.mfences + 1
      ∃ m, m = { s with cur := { s.cur with
          mfences := n, batchesDone := m.cur.batchesDone,
          jobs := s.cur.jobs.map fun j => if j.batch = none then { j with batch := some n } else j } } ∧
        (s.cur.mfences = s.cur.batchesDone → m.cur.batchesDone =
          if s.cur.jobs.any fun j => !j.failed && (j.batch.isNone || j.batch == some n)
          then s.cur.batchesDone else n) ∧
        ∃ t, exec .mfence s = .next t ∧ Wrote m t true 1 ∧ Gives m t true [fun _ => n.toNat])

/-! ## Bundle Form: operands and vector ALU slots -/

/-- R308: what an operand code of the VA and VM slots names. -/
def Obligations.OperandCodes : Prop :=
  ∀ (s : State) (n : Native) (cl w t : Nat) (code : BitVec 8) (bc : BitVec 6), InBundle s n → t < s.cur.width →
    w = 8 ∨ w = 16 ∨ w = 32 ∨ w = 64 →
    let c := code.toNat
    let reg (r : Nat) : Nat := ((vregGet n cl r).getD t 0).toNat
    let ureg (r : Nat) : Nat := (n.s.getD r 0).toNat
    let x := opcodeN s cl code (some bc) w t
    (c < 128 → x = if w = 64 then reg c + reg (c + 1) * 2 ^ 32 else reg c % 2 ^ w) ∧
    (c = 128 → x = if w = 64 then ureg bc.toNat + ureg (bc.toNat + 1) * 2 ^ 32 else ureg bc.toNat % 2 ^ w) ∧
    (129 ≤ c → c ≤ 136 → ∀ pt h, s.cur.party = some pt → herdOf s pt.group = some h →
      x = (getLane (h.caps.getD (c - 129) []) pt.thread).toNat % 2 ^ w) ∧
    (192 ≤ c → x = lowI w (sgn 6 (c % 64)))

/-- R310 to R313: the integer functions of VA0 and VA1 compute the Value Form instructions of their rows on
registers, for the active threads, at the latency of their row. -/
def Obligations.BundleIntegers : Prop :=
  ∀ (s : State) (n : Native) (f : Va), InBundle s n →
    let w := 8 * 2 ^ (f.ty.toNat % 4)
    let cl := f.cl.toNat
    let d := f.d.toNat
    let slot := if f.va1 then 2 else 1
    let x (h l : Nat) : Nat := bitsOf f.x.toNat h l
    let A (w t : Nat) : Nat := opcodeN s cl f.a f.bc w t
    let B (w t : Nat) : Nat := opcodeN s cl f.b f.bc w t
    let C (w t : Nat) : Nat := vregN s cl f.x.toNat w t
    let a := A w
    let b := B w
    let u (t : Nat) : Int := sgn w (a t)
    let v (t : Nat) : Int := sgn w (b t)
    let lo : Int := -(2 ^ (w - 1) : Nat)
    let hi : Int := (2 ^ (w - 1) : Nat) - 1
    let top : Int := (2 ^ w : Nat) - 1
    let div : LatClass := if f.ty = 3 then .fpDiv64 else .fpDiv
    let out (i : Instr) (l : LatClass) (g : Nat → Nat) : Prop := PendsV i s n slot l cl d w g
    let cin (t : Nat) : Nat := (n.k.getD (x 5 3) 0 |>.getLsbD t).toNat
    let zeros (bit : Nat → Bool) : Nat := ((List.range w).takeWhile fun i => !bit i).length
    let pos (c : Nat) : Nat := min (c % 256) w
    let len (c : Nat) : Nat := min (c / 256 % 256) w
    let field (c t : Nat) : Nat := a t / 2 ^ pos c % 2 ^ len c
    let near (t : Nat) (k : Int) : Nat := A 64 t / 2 ^ 22 * 2 ^ 22 + lowI 22 ((A 64 t % 2 ^ 22 : Nat) + k)
    out (.iadd f) .intAdd (fun t => if f.x.getLsbD 0 then lowI w ((a t : Int) - b t) else a t + b t) ∧
    (x 1 0 = 0 → out (.imul f) .intMul fun t => a t * b t) ∧
    (x 1 0 = 1 → out (.imul f) .intMul fun t => lowI w (u t * v t / (2 ^ w : Nat))) ∧
    (x 1 0 = 2 → out (.imul f) .intMul fun t => a t * b t / 2 ^ w) ∧
    out (.imad f) .intMul (fun t => a t * b t + C w t) ∧
    (∃ g, out (.idiv f) div g ∧ ∀ t,
      (f.x.getLsbD 0 = false → g t =
        if f.x.getLsbD 1 then (if b t = 0 then a t else a t % b t)
        else (if b t = 0 then 2 ^ w - 1 else a t / b t)) ∧
      (f.x.getLsbD 0 = true → b t = 0 → g t = if f.x.getLsbD 1 then a t else 2 ^ w - 1) ∧
      (f.x.getLsbD 0 = true → b t ≠ 0 → u t = lo → v t = -1 → g t = if f.x.getLsbD 1 then 0 else a t) ∧
      (f.x.getLsbD 0 = true → b t ≠ 0 → ¬ (u t = lo ∧ v t = -1) →
        g t = lowI w (if f.x.getLsbD 1 then Int.tmod (u t) (v t) else Int.tdiv (u t) (v t)))) ∧
    out (.isat f) .intAdd (fun t => match x 1 0 with
      | 0 => (clampI ((a t : Int) + b t) 0 top).toNat
      | 1 => lowI w (clampI (u t + v t) lo hi)
      | 2 => (clampI ((a t : Int) - b t) 0 top).toNat
      | _ => lowI w (clampI (u t - v t) lo hi)) ∧
    PendsVK (.icc f) s n slot .intAdd cl d w (x 2 0)
      (fun t => if f.x.getLsbD 3 then lowI w ((a t : Int) - b t) else a t + b t)
      (fun t => if f.x.getLsbD 3 then decide (a t < b t) else decide (2 ^ w ≤ a t + b t)) ∧
    PendsVK (.icci f) s n slot .intAdd cl d w (x 2 0)
      (fun t => if f.x.getLsbD 6 then lowI w ((a t : Int) - b t - cin t) else a t + b t + cin t)
      (fun t => if f.x.getLsbD 6 then decide (a t < b t + cin t) else decide (2 ^ w ≤ a t + b t + cin t)) ∧
    out (.iminmax f) .intAdd (fun t => match x 1 0 with
      | 0 => min (a t) (b t)
      | 1 => if u t ≤ v t then a t else b t
      | 2 => max (a t) (b t)
      | _ => if v t ≤ u t then a t else b t) ∧
    out (.ilogic f) .intAdd (fun t => match x 1 0 with
      | 0 => a t &&& b t
      | 1 => a t ||| b t
      | 2 => a t ^^^ b t
      | _ => 2 ^ w - 1 - a t) ∧
    (x 2 0 ≤ 4 → out (.ishift f) .intAdd fun t => let k := B 32 t
      match x 2 0 with
      | 0 => if w ≤ k then 0 else a t * 2 ^ k
      | 1 => if w ≤ k then 0 else a t / 2 ^ k
      | 2 => lowI w (u t / (2 ^ (if w ≤ k then w - 1 else k) : Nat))
      | 3 => a t * 2 ^ (k % w) + a t / 2 ^ (w - k % w)
      | _ => a t / 2 ^ (k % w) + a t * 2 ^ (w - k % w)) ∧
    (x 2 0 = 0 → out (.iunary f) .intAdd fun t => zeros fun i => (a t).testBit (w - 1 - i)) ∧
    (x 2 0 = 1 → out (.iunary f) .intAdd fun t => zeros fun i => (a t).testBit i) ∧
    (x 2 0 = 2 → out (.iunary f) .intAdd fun t => (List.range w).countP fun i => (a t).testBit i) ∧
    (x 2 0 = 3 → ∃ g, out (.iunary f) .intAdd g ∧ ∀ t, g t < 2 ^ w ∧
      ∀ i, i < w → (g t).testBit i = (a t).testBit (w - 1 - i)) ∧
    (x 2 0 = 4 → out (.iunary f) .intAdd fun t => lowI w (-(u t))) ∧
    (x 2 0 = 5 → out (.iunary f) .intAdd fun t => if u t < 0 then lowI w (-(u t)) else a t) ∧
    out (.ibfe f) .intAdd (fun t => let c := B 32 t
      if f.x.getLsbD 0 ∧ len c ≠ 0 ∧ (field c t).testBit (len c - 1)
      then lowI w ((field c t : Int) - (2 ^ len c : Nat)) else field c t) ∧
    PendsV (.ibfc f) s n slot .intAdd cl d 32 (fun t => min (A 32 t) 64 + 256 * min (B 32 t) 64) ∧
    out (.ibfi f) .intAdd (fun t => let c := C 32 t
      let mk := ((2 ^ len c - 1) * 2 ^ pos c) % 2 ^ w
      (a t &&& (2 ^ w - 1 - mk)) ||| ((b t * 2 ^ pos c) % 2 ^ w &&& mk)) ∧
    (let src := 8 * 2 ^ x 3 2;
      out (.iext f) .intAdd fun t => if x 1 0 = 1 then lowI w (sgn src (A src t)) else A src t) ∧
    (x 1 0 = 0 → PendsV (.nadr f) s n slot .intAdd cl d 64 fun t => near t (sgn 64 (B 64 t))) ∧
    (x 1 0 = 1 → PendsV (.nadr f) s n slot .intAdd cl d 64 fun t => A 32 t * 2 ^ 22 + B 32 t % 2 ^ 22) ∧
    (x 1 0 = 2 → PendsV (.nadr f) s n slot .intAdd cl d 32 fun t => A 64 t / 2 ^ 22 % 2 ^ 14) ∧
    (x 1 0 = 3 → PendsV (.nadr f) s n slot .intAdd cl d 32 fun t => A 64 t % 2 ^ 22) ∧
    PendsV (.tbfNidx f) s n slot .intMul cl d 64 (fun t => near t (sgn 64 (B 64 t) * (C 32 t : Int))) ∧
    (x 2 0 < 6 → PendsK (.icmp f) s n slot .intAdd (d % 8) fun t =>
      let p : Int := if f.x.getLsbD 3 then u t else (a t : Int)
      let q : Int := if f.x.getLsbD 3 then v t else (b t : Int)
      match x 2 0 with
      | 0 => decide (p = q)
      | 1 => decide (p ≠ q)
      | 2 => decide (p < q)
      | 3 => decide (p ≤ q)
      | 4 => decide (q < p)
      | _ => decide (q ≤ p)) ∧
    out (.tbfSel f) .intAdd (fun t => if (n.k.getD (x 2 0) 0).getLsbD t then a t else b t) ∧
    out (.mov f) .intAdd a

/-- R90, R310 to R313: the floating functions of VA0 and VA1 on one format or on the halves of a pair. -/
def Obligations.BundleFloats : Prop :=
  ∀ (s : State) (n : Native) (f : Va), InBundle s n →
    let cl := f.cl.toNat
    let d := f.d.toNat
    let slot := if f.va1 then 2 else 1
    let g : Fmt := match f.ty.toNat with
      | 0 => fmtF16 | 1 => fmtBf16 | 2 => fmtE4m3 | 3 => fmtE5m2 | 4 => fmtF16 | 5 => fmtBf16
      | 7 => fmtF64 | _ => fmtF32
    let pair := f.ty.toNat < 2
    let w := if pair then 32 else g.width
    let add : LatClass := if f.ty = 7 then .fp64 else .fpAdd
    let div : LatClass := if f.ty = 7 then .fpDiv64 else .fpDiv
    let x (h l : Nat) : Nat := bitsOf f.x.toNat h l
    let a (t : Nat) : Nat := opcodeN s cl f.a f.bc w t
    let b (t : Nat) : Nat := opcodeN s cl f.b f.bc w t
    let c (t : Nat) : Nat := vregN s cl f.x.toNat w t
    let md (r : Nat) : RMode :=
      if r = 0 then .rn else if r = 1 then .rz else if r = 2 then .up else if r = 3 then .dn else fmtRound s.cur.fmt
    let sat := s.cur.fmt.getLsbD 2
    let two (p q : Nat) : Nat := p % 2 ^ 16 + q % 2 ^ 16 * 2 ^ 16
    let un (k : Nat → Nat) (t : Nat) : Nat :=
      if pair then two (k (a t % 2 ^ 16)) (k (a t / 2 ^ 16)) else k (a t)
    let bin (k : Nat → Nat → Nat) (t : Nat) : Nat :=
      if pair then two (k (a t % 2 ^ 16) (b t % 2 ^ 16)) (k (a t / 2 ^ 16) (b t / 2 ^ 16)) else k (a t) (b t)
    let tri (k : Nat → Nat → Nat → Nat) (t : Nat) : Nat :=
      if pair then two (k (a t % 2 ^ 16) (b t % 2 ^ 16) (c t % 2 ^ 16)) (k (a t / 2 ^ 16) (b t / 2 ^ 16) (c t / 2 ^ 16))
      else k (a t) (b t) (c t)
    let out (i : Instr) (l : LatClass) (v : Nat → Nat) : Prop := PendsV i s n slot l cl d w v
    let r := x 2 0
    let sum (m : RMode) (p q : Fv) : Nat := g.round m sat (exAdd m p q)
    let fma (m : RMode) (p q z : Nat) : Nat :=
      g.round m sat (exAdd m (fvMul (g.decode p) (g.decode q)) (g.decode z))
    (r ≤ 3 ∨ r = 5 →
      out (.tbfFadd f) add (bin fun p q => sum (md r) (g.decode p)
        (if f.x.getLsbD 3 then (g.decode q).neg else g.decode q)) ∧
      out (.tbfFmul f) add (bin fun p q => g.round (md r) sat (fvMul (g.decode p) (g.decode q)).ex) ∧
      (¬ pair → out (.tbfFdiv f) div fun t => g.round (md r) sat (exDiv (g.decode (a t)) (g.decode (b t)))) ∧
      (¬ pair → x 5 3 = 0 → out (.fspec f) div fun t => g.round (md r) sat (exSqrt (g.decode (a t)))) ∧
      (¬ pair → x 5 3 = 1 → out (.fspec f) div fun t => g.round (md r) sat (exDiv (.fin false 1 0) (g.decode (a t)))) ∧
      (¬ pair → x 5 3 = 2 → out (.fspec f) div fun t => g.round (md r) sat (exRsqrt (g.decode (a t)))) ∧
      (¬ pair → x 5 3 = 3 → out (.fspec f) div fun t => g.round (md r) sat (exExp2 (g.decode (a t)))) ∧
      (¬ pair → x 5 3 = 4 → out (.fspec f) div fun t => g.round (md r) sat (exLog2 (g.decode (a t)))) ∧
      (¬ pair → x 5 3 = 5 → out (.fspec f) add fun t => fpRint g ⟨md r, sat⟩ (a t))) ∧
    out (.fmarn f) add (tri (fma .rn)) ∧ out (.fmarz f) add (tri (fma .rz)) ∧ out (.fmaup f) add (tri (fma .up)) ∧
    out (.fmadn f) add (tri (fma .dn)) ∧ out (.fmaf f) add (tri (fma (fmtRound s.cur.fmt))) ∧
    (r = 0 → out (.fmisc f) add (bin (fpMin g))) ∧ (r = 1 → out (.fmisc f) add (bin (fpMax g))) ∧
    (r = 2 → out (.fmisc f) add (un (fpAbs g))) ∧ (r = 3 → out (.fmisc f) add (un (fpNeg g))) ∧
    (r = 4 → out (.fmisc f) add (bin (fpCopysign g))) ∧
    (r = 5 → PendsK (.fmisc f) s n slot add (d % 8) fun t =>
      (opcodeN s cl f.b f.bc 32 t).testBit (classBit g (opcodeN s cl f.a f.bc w t))) ∧
    PendsK (.fcmp f) s n slot add (d % 8) (fun t =>
      let p := g.decode (a t)
      let q := g.decode (b t)
      match r with
      | 0 => decide (fvCmp p q = some .eq)
      | 1 => decide (fvCmp p q ≠ some .eq)
      | 2 => decide (fvCmp p q = some .lt)
      | 3 => decide (fvCmp p q = some .lt ∨ fvCmp p q = some .eq)
      | 4 => decide (fvCmp p q = some .gt)
      | 5 => decide (fvCmp p q = some .gt ∨ fvCmp p q = some .eq)
      | 6 => decide (fvCmp p q ≠ none)
      | _ => decide (fvCmp p q = none))

/-! ## Bundle Form: the uniform slot -/

/-- R312 to R315, R324 and R326: the uniform-slot operations on registers, predicates, FMT, seed, conversion
control and tile shapes: one result each in flight at the uniform-slot latency, two where a carry goes
out. -/
def Obligations.UniformSlot : Prop :=
  ∀ (s : State) (n : Native), InBundle s n →
    let U (r w : Nat) : Nat := uregN s r w
    let k1 := landAfter s .unif
    (∀ (fn : BitVec 4) (ty : BitVec 2) (f : Us), fn ≠ 0 → fn ≠ 4 →
      let w := 8 * 2 ^ ty.toNat
      let d := f.d.toNat
      let x (h l : Nat) : Nat := bitsOf f.x.toNat h l
      let a := U f.a.toNat w
      let b := U f.b.toNat w
      let b32 := U f.b.toNat 32
      let c (w : Nat) : Nat := U (x 5 0) w
      let u : Int := sgn w a
      let v : Int := sgn w b
      let lo : Int := -(2 ^ (w - 1) : Nat)
      let hi : Int := (2 ^ (w - 1) : Nat) - 1
      let top : Int := (2 ^ w : Nat) - 1
      let cin := if fn = 7 then U (x 11 6) 1 else 0
      let out (y : Nat) : Prop := PendsU (.usInteger fn ty f) s n d (decide (w = 64)) (y % 2 ^ w)
      let pos (c : Nat) : Nat := min (c % 256) w
      let len (c : Nat) : Nat := min (c / 256 % 256) w
      let field (c : Nat) : Nat := a / 2 ^ pos c % 2 ^ len c
      (fn = 1 → out (if f.x.getLsbD 0 then lowI w ((a : Int) - b) else a + b)) ∧
      (fn = 2 → out (if x 1 0 = 0 then a * b else if x 1 0 = 1 then lowI w (u * v / (2 ^ w : Nat)) else a * b / 2 ^ w)) ∧
      (fn = 3 → out (a * b + c w)) ∧
      (fn = 5 → out (match x 1 0 with
        | 0 => (clampI ((a : Int) + b) 0 top).toNat
        | 1 => lowI w (clampI (u + v) lo hi)
        | 2 => (clampI ((a : Int) - b) 0 top).toNat
        | _ => lowI w (clampI (u - v) lo hi))) ∧
      (fn = 6 ∨ fn = 7 → exec (.usInteger fn ty f) s = .next (inFlight s n
        [{ land := n.count + k1, born := n.count, slot := 0, dst := .s d (decide (w = 64)), mask := 0,
           vals := [lane (if f.x.getLsbD 12 then lowI w ((a : Int) - b - cin) else (a + b + cin) % 2 ^ w)] },
         { land := n.count + k1, born := n.count, slot := 0, dst := .s (x 5 0) false, mask := 0,
           vals := [if f.x.getLsbD 12 then (if a < b + cin then 1 else 0)
                    else (if 2 ^ w ≤ a + b + cin then 1 else 0)] }])) ∧
      (fn = 8 → out (match x 1 0 with
        | 0 => min a b
        | 1 => if u ≤ v then a else b
        | 2 => max a b
        | _ => if v ≤ u then a else b)) ∧
      (fn = 9 → out (match x 1 0 with | 0 => a &&& b | 1 => a ||| b | 2 => a ^^^ b | _ => 2 ^ w - 1 - a)) ∧
      (fn = 10 → x 2 0 ≤ 4 → out (match x 2 0 with
        | 0 => if w ≤ b32 then 0 else a * 2 ^ b32
        | 1 => if w ≤ b32 then 0 else a / 2 ^ b32
        | 2 => lowI w (u / (2 ^ (if w ≤ b32 then w - 1 else b32) : Nat))
        | 3 => a * 2 ^ (b32 % w) + a / 2 ^ (w - b32 % w)
        | _ => a / 2 ^ (b32 % w) + a * 2 ^ (w - b32 % w))) ∧
      (fn = 11 → x 2 0 = 0 → out ((List.range w).takeWhile fun i => !a.testBit (w - 1 - i)).length) ∧
      (fn = 11 → x 2 0 = 1 → out ((List.range w).takeWhile fun i => !a.testBit i).length) ∧
      (fn = 11 → x 2 0 = 2 → out ((List.range w).countP fun i => a.testBit i)) ∧
      (fn = 11 → x 2 0 = 3 → ∃ y, out y ∧ ∀ i, i < w → y.testBit i = a.testBit (w - 1 - i)) ∧
      (fn = 11 → x 2 0 = 5 → out (if u < 0 then lowI w (-u) else a)) ∧
      (fn = 11 → x 2 0 = 4 → out (lowI w (-u))) ∧
      (fn = 12 → out (if f.x.getLsbD 0 ∧ len b32 ≠ 0 ∧ (field b32).testBit (len b32 - 1)
        then lowI w ((field b32 : Int) - (2 ^ len b32 : Nat)) else field b32)) ∧
      (fn = 13 → out (min (U f.a.toNat 32) 64 + 256 * min b32 64)) ∧
      (fn = 14 → let mk := ((2 ^ len (c 32) - 1) * 2 ^ pos (c 32)) % 2 ^ w
        out ((a &&& (2 ^ w - 1 - mk)) ||| ((b * 2 ^ pos (c 32)) % 2 ^ w &&& mk))) ∧
      (fn = 15 → let src := 8 * 2 ^ x 3 2
        out (if x 1 0 = 1 then lowI w (sgn src (U f.a.toNat src)) else U f.a.toNat src))) ∧
    (∀ f : Us,
      let d := f.d.toNat
      let x (h l : Nat) : Nat := bitsOf f.x.toNat h l
      let a := U f.a.toNat
      let b := U f.b.toNat
      let near (k : Int) : Nat := a 64 / 2 ^ 22 * 2 ^ 22 + lowI 22 ((a 64 % 2 ^ 22 : Nat) + k)
      (x 1 0 = 0 → PendsU (.unadr f) s n d true (near (sgn 64 (b 64)))) ∧
      (x 1 0 = 1 → PendsU (.unadr f) s n d true (a 32 * 2 ^ 22 + b 32 % 2 ^ 22)) ∧
      (x 1 0 = 2 → PendsU (.unadr f) s n d false (a 64 / 2 ^ 22 % 2 ^ 14)) ∧
      (x 1 0 = 3 → PendsU (.unadr f) s n d false (a 64 % 2 ^ 22)) ∧
      PendsU (.unidx f) s n d true (near (sgn 64 (b 64) * (U (x 5 0) 32 : Int))) ∧
      (x 2 0 < 6 → let w := 8 * 2 ^ x 5 4
        let p : Int := if f.x.getLsbD 3 then sgn w (a w) else (a w : Int)
        let q : Int := if f.x.getLsbD 3 then sgn w (b w) else (b w : Int)
        PendsU (.ucmp f) s n d false (match x 2 0 with
          | 0 => (decide (p = q)).toNat
          | 1 => (decide (p ≠ q)).toNat
          | 2 => (decide (p < q)).toNat
          | 3 => (decide (p ≤ q)).toNat
          | 4 => (decide (q < p)).toNat
          | _ => (decide (q ≤ p)).toNat)) ∧
      (let w := if f.x.getLsbD 6 then 64 else 32;
        PendsU (.usel f) s n d (decide (w = 64)) (if U (x 5 0) 32 = 0 then b w else a w)) ∧
      (let w := if f.x.getLsbD 0 then 64 else 32;
        PendsU (.umov f) s n d (decide (w = 64)) (a w)) ∧
      PendsU (.uid f) s n d (decide (x 7 0 = 8)) (identity s (x 7 0) (leader s) % 2 ^ (if x 7 0 = 8 then 64 else 32)) ∧
      PendsU (.uclock f) s n d true (s.tick % 2 ^ 64) ∧
      PendsU (.ugetfmt f) s n d false s.cur.fmt.toNat ∧
      (let m : BitVec 4 := BitVec.ofNat 4 (f.x.toNat % 16);
        (64 ≤ a 32 ∨ (m.getLsbD 3 = true ∧ (a 32).testBit 5 = true) →
          exec (.usetfmt f) s = .next (raise s .format)) ∧
        (a 32 < 64 → ¬ (m.getLsbD 3 = true ∧ (a 32).testBit 5 = true) →
          Sends (.usetfmt f) s n k1 0 (.fmt m) 0 [lane (a 32)])) ∧
      (s.cur.party = none → let gn := (if s.cur.kind = .task then genSeed (lane (a 64)) 0xFFFFFFFF 0xFFFF 0
          else genSeed (lane (a 64)) (s.cur.teamIdx.getD 0 0) s.cur.gidx 0)
        Sends (.urseed f) s n k1 0 .seed 0
          [lane gn.x.toNat, lane gn.y.toNat, lane gn.z.toNat, lane gn.w.toNat, lane gn.v.toNat, lane (a 64)]) ∧
      Sends (.ucvset f) s n k1 0 .cvctl 0 [lane (f.x.toNat % 2 ^ 13)] ∧
      (let p := n.k.getD (f.a.toNat % 8) 0
        let q := n.k.getD (f.b.toNat % 8) 0
        Sends (.plogic f) s n k1 0 (.k (d % 8)) s.cur.active
          [match x 1 0 with | 0 => p &&& q | 1 => p ||| q | 2 => p ^^^ q | _ => ~~~p]) ∧
      (f.x.getLsbD 0 = false → Sends (.kfroms f) s n k1 0 (.k (d % 8)) s.cur.active
        [if a 32 = 0 then 0 else BitVec.allOnes 64]) ∧
      (f.x.getLsbD 0 = true → Sends (.kfroms f) s n k1 0 (.k (d % 8)) (BitVec.allOnes 64) [lane (a 64)]) ∧
      PendsU (.stok f) s n d true (n.k.getD (f.a.toNat % 8) 0).toNat) ∧
    (∀ (d : BitVec 6) (imm : BitVec 26), PendsU (.umovi d imm) s n d.toNat false (lowI 32 (sgn 26 imm.toNat))) ∧
    (∀ (d : BitVec 6) (wide : Bool) (k : BitVec 20), PendsU (.uldk d wide k) s n d.toNat wide
      (objBytes (imageOf s s.cur) 8 (imgConstOff (imageOf s s.cur) + 8 * k.toNat) % 2 ^ (if wide then 64 else 32))) ∧
    (∀ (tn e : BitVec 4) (c r : BitVec 7) (el : Elem), Elem.ofCode e.toNat = some el →
      ∃ T, Sends (.tshape tn e c r) s n 1 9 (.tile tn.toNat T) 0 [] ∧ T.desc = ⟨el, c, r⟩ ∧
        T.data.length = T.desc.rows * T.desc.cols ∧
        let old := (tileReg s tn.toNat).data.flatMap fun x => natBytes ((tileReg s tn.toNat).desc.elem.width / 8) x.toNat
        let b := el.width / 8
        ∀ i, i < T.data.length → (T.data[i]?).map (·.toNat) =
          some (if (i + 1) * b ≤ old.length then leNat ((old.drop (i * b)).take b) else 0)) ∧
    (∀ c, exec (.umark c) s = .next s) ∧ exec .tbfNop s = .next s

/-- R181, R200, R210, R243 and R314: UTOKT, UBAR, UTRIG and MFENCE act as their Value Form instructions and
answer in a uniform register. -/
def Obligations.UniformEffects : Prop :=
  ∀ (s : State) (n : Native), InBundle s n →
    let answers (i : Instr) (m : State) (d : Nat) (x : Nat) : Prop :=
      exec i s = .next (inFlight m n [{ land := n.count + landAfter s .unif, born := n.count, slot := 0,
                                        dst := .s d false, mask := 0, vals := [lane x] }])
    (∀ (f : Us) (c : Ctr), let h := uregN s f.a.toNat 32
      s.cur.ctrs[h % 16]? = some c →
      let reached : Prop := (c.done.toNat + 2 ^ 28 - h / 16) % 2 ^ 28 < 2 ^ 27
      (¬ reached → answers (.utokt f) s f.d.toNat 0) ∧
      (reached → (∀ e, e ∈ c.errs → e.seq ≠ BitVec.ofNat 28 (h / 16)) →
        ∃ m, m = { s with cur := { observed s.cur (BitVec.ofNat 32 h) with acq := m.cur.acq, early := none } } ∧
        AcquiredAt m.cur (groupReach s s.cur 3) s.steps ∧ answers (.utokt f) m f.d.toNat 1) ∧
      (∀ e, reached → c.errs.find? (fun x => x.seq = BitVec.ofNat 28 (h / 16)) = some e →
        exec (.utokt f) s = .next (raiseAt { s with cur := observed s.cur (BitVec.ofNat 32 h) } e.trap e.ppc))) ∧
    (∀ (f : Us), let b := f.x.toNat % 32
      (noBarriers s.cur = true → exec (.ubar f) s = .next (raise s .barrierScope)) ∧
      (∀ tm x, noBarriers s.cur = false → divergent s.cur = false → teamOf s s.cur.team = some tm →
        tm.bars[b]? = some x → s.cur.gidx.toNat < x.arr.length →
        let A : Word := x.arr.getD s.cur.gidx.toNat 0
        ((A - x.done).toNat < 2 → ∃ m, m = { s with teams := m.teams } ∧ answers (.ubar f) m f.d.toNat A.toNat ∧
          ∃ tm' x', teamOf m s.cur.team = some tm' ∧ tm'.bars[b]? = some x' ∧
            x'.arr = x.arr.set s.cur.gidx.toNat (A + 1)) ∧
        ((A - x.done).toNat = 2 → ∃ t w, exec (.ubar f) s = .next t ∧ t.cur.st = .waiting ∧ t.cur.native = some n ∧
          t.cur.wait = some w ∧ w.conds = [.barrier b (A - 2)]))) ∧
    (∃ t, exec .utrig s = .next t ∧ t.mem = s.mem ∧ t.cur.native = some n ∧ t.cur.off = s.cur.off ∧
      (s.cur.kind = .team → t.cur.trig = s.cur.trig ||| s.cur.active) ∧
      (s.cur.kind ≠ .team → t.cur.trig = s.cur.trig) ∧
      (⟨.package, coreObs s.cur, s.steps, s.cur.uid, s.nextId, []⟩ : Carry) ∈ t.cur.carry) ∧
    (∀ d : BitVec 6,
      (8 ≤ (s.cur.mfences - s.cur.batchesDone).toNat → exec (.tbfMfence d) s = .next s) ∧
      ((s.cur.mfences - s.cur.batchesDone).toNat < 8 → let no := s.cur.mfences + 1
        ∃ m, m = { s with cur := { s.cur with
            mfences := no, batchesDone := m.cur.batchesDone,
            jobs := s.cur.jobs.map fun j => if j.batch = none then { j with batch := some no } else j } } ∧
          answers (.tbfMfence d) m d.toNat no.toNat))

/-- R300, R314 and R320: the uniform memory operations act on one access, whose checks are those of R166, and
leave their result under the uniform flag of the clause; USPILL and UFILL move the uniform spill slot. -/
def Obligations.UniformMemory : Prop :=
  ∀ (s : State) (n : Native), InBundle s n → Undamaged s →
    let fl := (clauseFlags s).2
    let m0 := (drainQ s).mem
    (∀ f : Umem,
      let nb := 2 ^ f.size.toNat
      let off := uregN s f.a.toNat 32
      let addr := if f.loc then localAddr s s.cur off else uregN s f.a.toNat 64
      let dsts (x : Nat) : List (Dst × Mask × List Lane) :=
        if nb ≤ 4 then [(.s f.d.toNat false, 0, [lane x])]
        else if nb = 8 then [(.s f.d.toNat true, 0, [lane x])]
        else [(.s f.d.toNat true, 0, [lane (x % 2 ^ 64)]), (.s (f.d.toNat + 2) true, 0, [lane (x / 2 ^ 64)])]
      let data (r : Nat) : Nat :=
        if nb ≤ 4 then uregN s r (8 * nb)
        else if nb = 8 then uregN s r 64 else uregN s r 64 + uregN s (r + 2) 64 * 2 ^ 64
      let al := if f.order = .relaxed then 1 else nb
      f.size.toNat ≤ 4 → (f.loc = true → off < 2 ^ 22) →
      (addr % al ≠ 0 → exec (.uld f) s = .next (raise s .alignment) ∧ exec (.ust f) s = .next (raise s .alignment)) ∧
      (addr % nb ≠ 0 → exec (.uatom f) s = .next (raise s .alignment)) ∧
      (addr % al = 0 → groupNear s s.cur addr nb false = none → exec (.uld f) s = .next (raise s .window)) ∧
      (addr % al = 0 → groupNear s s.cur addr nb true = none → exec (.ust f) s = .next (raise s .window)) ∧
      (addr % nb = 0 → groupNear s s.cur addr nb true = none → exec (.uatom f) s = .next (raise s .window)) ∧
      (∀ k, addr % al = 0 → groupNear s s.cur addr nb false = some k → ∃ m x,
        exec (.uld f) s = .next (underFlag m n fl (dsts x)) ∧ MemoryOnly s m ∧ m.mem.full = s.mem.full ∧
        (f.order ≠ .seqCst → m.mem.bytes = s.mem.bytes ∧ m.cur.storeQ = s.cur.storeQ) ∧
        (f.order = .seqCst → m.mem.bytes = m0.bytes ∧ m.cur.storeQ = []) ∧
        (Untouched s k nb → x = wordOf s.mem nb k)) ∧
      (∀ k, addr % al = 0 → groupNear s s.cur addr nb true = some k → ∃ m,
        exec (.ust f) s = .next (underFlag m n fl []) ∧ MemoryOnly s m ∧ m.mem.full = s.mem.full ∧
        (f.order ≠ .seqCst → m.mem = s.mem ∧
          (∀ i, i < nb → queueByte (k + i) m.cur.storeQ = some (BitVec.ofNat 8 (data f.d.toNat / 256 ^ i))) ∧
          ∀ b, (b < k ∨ k + nb ≤ b) → queueByte b m.cur.storeQ = queueByte b s.cur.storeQ) ∧
        (f.order = .seqCst → m.cur.storeQ = [] ∧ wordOf m.mem nb k = data f.d.toNat % 256 ^ nb ∧
          ∀ b, (b < k ∨ k + nb ≤ b) → m.mem.byte b = m0.byte b)) ∧
      (∀ k, f.size = 2 ∨ f.size = 3 → addr % nb = 0 → groupNear s s.cur addr nb true = some k → f.fn.toNat ≤ 10 → ∃ m,
        let w := 8 * nb
        let old := wordOf m0 nb k
        let v := data f.d.toNat
        exec (.uatom f) s = .next (underFlag m n fl (dsts old)) ∧ MemoryOnly s m ∧ m.mem.full = s.mem.full ∧
        m.cur.storeQ = [] ∧ (∀ b, (b < k ∨ k + nb ≤ b) → m.mem.byte b = m0.byte b) ∧
        wordOf m.mem nb k = (match f.fn.toNat with
          | 0 => (old + v) % 2 ^ w
          | 1 => if sgn w v < sgn w old then v else old
          | 2 => min old v
          | 3 => if sgn w old < sgn w v then v else old
          | 4 => max old v
          | 5 => old &&& v
          | 6 => old ||| v
          | 7 => old ^^^ v
          | 8 => v
          | 9 => if old = v then data f.b.toNat else old
          | _ => fpAdd fmtF32 ⟨.rn, true⟩ old v) % 2 ^ w)) ∧
    (∀ (f : Umem), s.mem.wf = true → f.loc = false → let a := uregN s f.a.toNat 64
      let v := uregN s f.d.toNat 64
      a % 8 = 0 →
      (∀ k, groupNear s s.cur a 8 (f.fn == 1 || f.fn == 3) = some k →
        let full := s.mem.isFull k
        let two (x : Nat) (b : Bool) : List (Dst × Mask × List Lane) :=
          [(.s f.d.toNat true, 0, [lane x]), (.s f.b.toNat false, 0, [if b then 1 else 0])]
        let acts (ds : List (Dst × Mask × List Lane)) (x : Nat) (b : Bool) : Prop := ∃ m,
          exec (.ufe f) s = .next (underFlag m n fl ds) ∧ MemoryOnly s m ∧ wordOf m.mem 8 k = x ∧
          m.mem.isFull k = b ∧ ∀ c, (c < k ∨ k + 8 ≤ c) → m.mem.byte c = m0.byte c ∧ m.mem.isFull c = s.mem.isFull c
        let x0 := wordOf m0 8 k
        (f.fn = 2 → acts (if full then two x0 true else two 0 false) x0 false) ∧
        (f.fn = 3 → acts [(.s f.b.toNat false, 0, [if full then 0 else 1])] (if full then x0 else v) true) ∧
        (f.fn = 4 → ∃ m x b, exec (.ufe f) s = .next (underFlag m n fl (two x b)) ∧ MemoryOnly s m ∧
          m.mem.full = s.mem.full ∧
          (f.order ≠ .seqCst → m.mem.bytes = s.mem.bytes ∧ m.cur.storeQ = s.cur.storeQ) ∧
          (f.order = .seqCst → m.mem.bytes = m0.bytes ∧ m.cur.storeQ = []) ∧
          (Untouched s k 8 → Untouched s (bitKey k) 1 → x = wordOf s.mem 8 k ∧ b = full)) ∧
        (f.fn = 0 → full = true → s.cur.fe = none → ∃ m, MemoryOnly s m ∧ m.mem.isFull k = false ∧
          exec (.ufe f) s = .next (underFlag m n fl
            [(.s f.d.toNat true, fullMask s.cur.width, List.replicate s.cur.width (lane x0))])) ∧
        (f.fn = 1 → full = false → s.cur.fe = none → ∃ m, MemoryOnly s m ∧ m.mem.isFull k = true ∧
          wordOf m.mem 8 k = v ∧ exec (.ufe f) s = .next (underFlag m n fl [])))) ∧
    (∀ (r : BitVec 6) (wide : Bool) (slot : BitVec 13),
      let nb := if wide then 8 else 4
      let k := spillKey s.cur (uniSlot s slot)
      (∃ m, exec (.uspill r wide slot) s = .next (underFlag m n fl []) ∧ m = { s with mem := m.mem } ∧
        m.mem.full = s.mem.full ∧ wordOf m.mem nb k = uregN s r.toNat (8 * nb) ∧
        ∀ b, (b < k ∨ k + nb ≤ b) → m.mem.byte b = s.mem.byte b) ∧
      exec (.ufill r wide slot) s = .next (underFlag s n fl [(.s r.toNat wide, 0, [lane (wordOf s.mem 8 k)])]))

/-! ## Bundle Form: VM and CV slots -/

/-- R300, R317 to R320: the vector memory operations act for the active threads under the VM flag of the
clause, with the checks of R166 before any access. -/
def Obligations.VectorMemory : Prop :=
  ∀ (s : State) (n : Native), InBundle s n → Undamaged s →
    let fl := (clauseFlags s).1
    let m0 := (drainQ s).mem
    let act := s.cur.active
    let dsts (cl d nb : Nat) (x : Nat → Nat) : List (Dst × Mask × List Lane) :=
      if nb ≤ 4 then [(.v cl d false, act, lanesOf s x)]
      else if nb = 8 then [(.v cl d true, act, lanesOf s x)]
      else [(.v cl d true, act, lanesOf s fun t => x t % 2 ^ 64),
            (.v cl (d + 2) true, act, lanesOf s fun t => x t / 2 ^ 64)]
    let bad (i : Instr) (addr : Nat → Nat) (al nb : Nat) (write : Bool) : Prop :=
      ((∃ t, t ∈ actives s ∧ addr t % al ≠ 0) → exec i s = .next (raise s .alignment)) ∧
      ((∀ t, t ∈ actives s → addr t % al = 0) → (∃ t, t ∈ actives s ∧ groupNear s s.cur (addr t) nb write = none) →
        exec i s = .next (raise s .window))
    (∀ f : Vmem,
      let cl := f.cl.toNat
      let nb := 2 ^ f.size.toNat
      let off (t : Nat) : Nat := opcodeN s cl f.ad f.bc 32 t
      let addr (t : Nat) : Nat := if f.loc then localAddr s s.cur (off t) else opcodeN s cl f.ad f.bc 64 t
      let al := if f.order = .relaxed then 1 else nb
      let data (t : Nat) : Nat :=
        if nb ≤ 4 then vregN s cl f.dv.toNat (8 * nb) t
        else if nb = 8 then vregN s cl f.dv.toNat 64 t
        else vregN s cl f.dv.toNat 64 t + vregN s cl (f.dv.toNat + 2) 64 t * 2 ^ 64
      f.size.toNat ≤ 4 → (f.loc = true → ∀ t, t ∈ actives s → off t < 2 ^ 22) →
      bad (.vld f) addr al nb false ∧ bad (.vst f) addr al nb true ∧
      (AllPass s false addr al nb false → ∃ m x,
        exec (.vld f) s = .next (underFlag m n fl (dsts cl f.dv.toNat nb x)) ∧ MemoryOnly s m ∧
        m.mem.full = s.mem.full ∧
        (f.order ≠ .seqCst → m.mem.bytes = s.mem.bytes ∧ m.cur.storeQ = s.cur.storeQ) ∧
        (f.order = .seqCst → m.mem.bytes = m0.bytes ∧ m.cur.storeQ = []) ∧
        ∀ t k, (t, k) ∈ keysOf s false addr nb false → Untouched s k nb → x t = wordOf s.mem nb k) ∧
      (AllPass s false addr al nb true →
        let last (t b : Nat) : Prop := (∃ k, (t, k) ∈ keysOf s false addr nb true ∧ k ≤ b ∧ b < k + nb) ∧
          ∀ t' k', (t', k') ∈ keysOf s false addr nb true → t < t' → b < k' ∨ k' + nb ≤ b
        ∃ m, exec (.vst f) s = .next (underFlag m n fl []) ∧ MemoryOnly s m ∧ m.mem.full = s.mem.full ∧
        (f.order ≠ .seqCst → m.mem = s.mem ∧ (∀ b, (∀ t, ¬ last t b) →
            queueByte b m.cur.storeQ = queueByte b s.cur.storeQ) ∧
          ∀ t k i, (t, k) ∈ keysOf s false addr nb true → last t (k + i) → i < nb →
            queueByte (k + i) m.cur.storeQ = some (BitVec.ofNat 8 (data t / 256 ^ i))) ∧
        (f.order = .seqCst → m.cur.storeQ = [] ∧ (∀ b, (∀ t, ¬ last t b) → m.mem.byte b = m0.byte b) ∧
          ∀ t k i, (t, k) ∈ keysOf s false addr nb true → last t (k + i) → i < nb →
            m.mem.byte (k + i) = BitVec.ofNat 8 (data t / 256 ^ i)))) ∧
    (∀ f : Vldk,
      let img := imageOf s s.cur
      let e := objBytes img 8 (imgConstOff img + 8 * f.k.toNat)
      let i (t : Nat) : Nat := opcodeN s f.cl.toNat f.ad f.bc 32 t
      let nb := 2 ^ f.size.toNat
      f.size.toNat ≤ 4 →
      ((∃ t, t ∈ actives s ∧ e / 2 ^ 32 ≤ i t) → exec (.vldk f) s = .next (raise s .constRange)) ∧
      ((∀ t, t ∈ actives s → i t < e / 2 ^ 32) → exec (.vldk f) s =
        .next (underFlag s n fl (dsts f.cl.toNat f.dv.toNat nb fun t => objBytes img nb (e % 2 ^ 32 + nb * i t))))) ∧
    (∀ f : Vatom, f.fn.toNat ≤ 10 →
      let nb := if f.w64 then 8 else 4
      let w := 8 * nb
      let cl := f.cl.toNat
      let addr (t : Nat) : Nat := vregN s cl f.ap.toNat 64 t
      let d (t : Nat) : Nat := vregN s cl f.d.toNat w t
      let v (t : Nat) : Nat := vregN s cl f.v.toNat w t
      let new (t old : Nat) : Nat := match f.fn.toNat with
        | 0 => (old + v t) % 2 ^ w
        | 1 => if sgn w (v t) < sgn w old then v t else old
        | 2 => min old (v t)
        | 3 => if sgn w old < sgn w (v t) then v t else old
        | 4 => max old (v t)
        | 5 => old &&& v t
        | 6 => old ||| v t
        | 7 => old ^^^ v t
        | 8 => v t
        | 9 => if old = d t then v t else old
        | _ => fpAdd fmtF32 ⟨.rn, true⟩ old (v t)
      bad (.vatom f) addr nb nb true ∧
      (AllPass s false addr nb nb true → actives s ≠ [] →
        let ks := keysOf s false addr nb true
        let run := inTurn (fun t k (m : Nat → Nat) => ([m k], put k (new t (m k)) m)) ks (wordOf m0 nb)
        ∃ m x, exec (.vatom f) s = .next (underFlag m n fl (if f.nores then [] else dsts cl f.d.toNat nb x)) ∧
          MemoryOnly s m ∧ m.mem.full = s.mem.full ∧ m.cur.storeQ = [] ∧
          (∀ t k, (t, k) ∈ ks → wordOf m.mem nb k = run.2 k % 2 ^ w ∧ (assocGet t run.1) = some [x t]) ∧
          ∀ b, (∀ t k, (t, k) ∈ ks → b < k ∨ k + nb ≤ b) → m.mem.byte b = m0.byte b)) ∧
    (∀ f : Vfe, s.mem.wf = true →
      let cl := f.cl.toNat
      let addr (t : Nat) : Nat := opcodeN s cl f.ad f.bc 64 t
      let v (t : Nat) : Nat := vregN s cl f.d.toNat 64 t
      let give := f.fn == 1 || f.fn == 3
      let ks := keysOf s false addr 8 give
      bad (.vfe f) addr 8 8 give ∧
      (AllPass s false addr 8 8 give → actives s ≠ [] → f.fn = 2 ∨ f.fn = 3 →
        let step (t k : Nat) (x : (Nat → Nat) × (Nat → Bool)) : List Nat × ((Nat → Nat) × (Nat → Bool)) :=
          match f.fn.toNat with
          | 2 => if x.2 k then ([x.1 k, 1], (x.1, put k false x.2)) else ([0, 0], x)
          | _ => if x.2 k then ([0, 0], x) else ([0, 1], (put k (v t) x.1, put k true x.2))
        let run := inTurn step ks (wordOf m0 8, fun k => keyIn k s.mem.full)
        ∃ m x ok, exec (.vfe f) s = .next (underFlag m n fl
            ((if f.fn = 3 then [] else [(.v cl f.d.toNat true, act, lanesOf s x)]) ++
             (if f.kv then [(.k f.k.toNat, act, [ok])] else []))) ∧ MemoryOnly s m ∧
          (∀ t k, (t, k) ∈ ks → wordOf m.mem 8 k = run.2.1 k ∧ m.mem.isFull k = run.2.2 k ∧
            assocGet t run.1 = some [if f.fn = 3 then 0 else x t, (ok.getLsbD t).toNat]) ∧
          ∀ b, (∀ t k, (t, k) ∈ ks → b < k ∨ k + 8 ≤ b) →
            m.mem.byte b = m0.byte b ∧ m.mem.isFull b = s.mem.isFull b) ∧
      (AllPass s false addr 8 8 give → actives s ≠ [] → f.fn = 4 → ∃ m x ok,
        exec (.vfe f) s = .next (underFlag m n fl ([(.v cl f.d.toNat true, act, lanesOf s x)] ++
          (if f.kv then [(.k f.k.toNat, act, [ok])] else []))) ∧ MemoryOnly s m ∧ m.mem.full = s.mem.full ∧
        (f.order ≠ .seqCst → m.mem.bytes = s.mem.bytes ∧ m.cur.storeQ = s.cur.storeQ) ∧
        (f.order = .seqCst → m.mem.bytes = m0.bytes ∧ m.cur.storeQ = []) ∧
        ∀ t k, (t, k) ∈ ks → Untouched s k 8 → Untouched s (bitKey k) 1 →
          x t = wordOf s.mem 8 k ∧ ok.getLsbD t = s.mem.isFull k) ∧
      (AllPass s false addr 8 8 give → actives s ≠ [] → s.cur.fe = none → (ks.map (·.2)).Nodup →
        (f.fn = 0 → (∀ t k, (t, k) ∈ ks → s.mem.isFull k = true) → ∃ (m : State) (p : Mask × List Lane), MemoryOnly s m ∧
          exec (.vfe f) s = .next (underFlag m n fl [(.v cl f.d.toNat true, p.1, p.2)]) ∧
          ∀ t k, (t, k) ∈ ks → m.mem.isFull k = false ∧ p.1.getLsbD t = true ∧
            getLane p.2 t = lane (wordOf m0 8 k)) ∧
        (f.fn = 1 → (∀ t k, (t, k) ∈ ks → s.mem.isFull k = false) → ∃ m, MemoryOnly s m ∧
          exec (.vfe f) s = .next (underFlag m n fl []) ∧
          ∀ t k, (t, k) ∈ ks → m.mem.isFull k = true ∧ wordOf m.mem 8 k = v t))) ∧
    (∀ f : Vspill,
      let cl := f.cl.toNat
      let k := spillKey s.cur (8 * f.slot.toNat)
      let w := s.cur.width
      let size := if f.w64 then 8 * w else 4 * w
      (∃ m, exec (.vspill f) s = .next (underFlag m n fl []) ∧ m = { s with mem := m.mem } ∧ m.mem.full = s.mem.full ∧
        (∀ t, t < w → wordOf m.mem 4 (k + 4 * t) = ((vregGet n cl f.d.toNat).getD t 0).toNat ∧
          (f.w64 = true → wordOf m.mem 4 (k + 4 * w + 4 * t) = ((vregGet n cl (f.d.toNat + 1)).getD t 0).toNat)) ∧
        ∀ b, (b < k ∨ k + size ≤ b) → m.mem.byte b = s.mem.byte b) ∧
      exec (.vfill f) s = .next (underFlag s n fl [(.v cl f.d.toNat f.w64, fullMask w, lanesOf s fun t =>
        wordOf s.mem 4 (k + 4 * t) + if f.w64 then wordOf s.mem 4 (k + 4 * w + 4 * t) * 2 ^ 32 else 0)]))

/-- R212 to R215, R321 and R322: moves between clusters, to uniform registers and across lanes. -/
def Obligations.CrossLaneMoves : Prop :=
  ∀ (s : State) (n : Native), InBundle s n →
    let on (t : Nat) : Prop := t < s.cur.width ∧ s.cur.active.getLsbD t = true
    let bits (w64 : Bool) : Nat := if w64 then 64 else 32
    (∀ f : XmvF, PendsV (.xmv f) s n 3 .xmv f.cl.toNat f.d.toNat (bits f.w64)
      (vregN s f.scl.toNat f.src.toNat (bits f.w64))) ∧
    (∀ f : VtosF, Sends (.vtos f) s n (landAfter s .cross) 3 (.s f.s.toNat f.w64) 0
      [lane (vregN s f.cl.toNat f.src.toNat (bits f.w64) (leader s))]) ∧
    (∀ f : VxlaneF,
      let k := opcodeN s f.cl.toNat f.n f.bc 32
      let src (t : Nat) : Int := match f.mode with
        | .get => k t
        | .mix => (t ^^^ k t : Nat)
        | .rise => (t : Int) - k t
        | .fall => (t : Int) + k t
      let hit (t : Nat) : Bool := decide (0 ≤ src t ∧ src t < s.cur.width) && s.cur.active.getLsbD (src t).toNat
      let val (t : Nat) : Nat := vregN s f.cl.toNat f.x.toNat (bits f.w64) (if hit t then (src t).toNat else t)
      (f.kv = true → PendsVK (.vxlane f) s n 3 .cross f.cl.toNat f.d.toNat (bits f.w64) f.k.toNat val hit) ∧
      (f.kv = false → PendsV (.vxlane f) s n 3 .cross f.cl.toNat f.d.toNat (bits f.w64) val)) ∧
    (∀ f : VlanesF, let p := n.k.getD f.k.toNat 0
      (f.fn = 0 → PendsK (.vlanes f) s n 3 .cross (f.d.toNat % 8) fun _ => (actives s).any fun t => p.getLsbD t) ∧
      (f.fn = 1 → PendsK (.vlanes f) s n 3 .cross (f.d.toNat % 8) fun _ => (actives s).all fun t => p.getLsbD t) ∧
      (f.fn = 2 → PendsV (.vlanes f) s n 3 .cross f.cl.toNat f.d.toNat 64 fun _ => (p &&& s.cur.active).toNat)) ∧
    (∀ f : VgrpF, (s.cur.width = 16 ∨ s.cur.width = 32 ∨ s.cur.width = 64) → (∃ t, on t) → f.fn.toNat ≤ 2 →
      let ty := tyOfCode f.ty.toNat
      let w := ty.width
      let x := vregN s f.cl.toNat f.x.toNat w
      let v (t : Nat) : Int := if f.signed then sgn w (x t) else (x t : Int)
      let g := fmtOf ty
      let tree (k : Nat → Nat → Nat) : Nat :=
        (treeOf k s.cur.active (fun t => fpCanon g (x t)) (Nat.log2 s.cur.width) 0).getD 0
      let out (y : Nat) : Prop := PendsV (.vgrp f) s n 3 .cross f.cl.toNat f.d.toNat w fun _ => y
      (f.fn = 0 → f.ty.toNat < 4 → out ((actives s).map x).sum) ∧
      (f.fn = 1 → f.ty.toNat < 4 → ∃ t, on t ∧ (∀ u, on u → v t ≤ v u) ∧ out (x t)) ∧
      (f.fn = 2 → f.ty.toNat < 4 → ∃ t, on t ∧ (∀ u, on u → v u ≤ v t) ∧ out (x t)) ∧
      (f.fn = 0 → 4 ≤ f.ty.toNat →
        out (tree (fpAdd g ⟨rndMode s.cur.fmt (rndOf f.rnd.toNat), s.cur.fmt.getLsbD 2⟩))) ∧
      (f.fn = 1 → 4 ≤ f.ty.toNat → out (tree (fpMin g))) ∧
      (f.fn = 2 → 4 ≤ f.ty.toNat → out (tree (fpMax g)))) ∧
    (∀ f : VconfF, let k := vregN s f.cl.toNat f.key.toNat (8 * 2 ^ f.wc.toNat)
      ∃ m : Nat → Lane, (∀ t i, t < s.cur.width → ((m t).getLsbD i = true ↔
          i < t ∧ s.cur.active.getLsbD i = true ∧ k i = k t)) ∧
        (f.kv = true → PendsVK (.vconf f) s n 3 .cross f.cl.toNat f.d.toNat 64 f.k.toNat (fun t => (m t).toNat)
          fun t => decide (m t = 0)) ∧
        (f.kv = false → PendsV (.vconf f) s n 3 .cross f.cl.toNat f.d.toNat 64 fun t => (m t).toNat))

/-- R235 to R243, R323 and R325: the tile and matrix operations of the VM slot on tile registers. -/
def Obligations.BundleTiles : Prop :=
  ∀ (s : State) (n : Native), InBundle s n →
    let reg (t : BitVec 4) : Tile := tileReg s t.toNat
    let at_ (T : Tile) (r c : Nat) : Nat := ((T.data[r * T.desc.cols + c]?).getD 0).toNat
    let sized (T : Tile) : Prop := T.data.length = T.desc.rows * T.desc.cols
    let inside (d : TileDesc) (r c : Nat) : Prop := r < d.rows ∧ c < d.cols
    let makes (i : Instr) (tn : BitVec 4) (T : Tile) : Prop := Sends i s n 1 9 (.tile tn.toNat T) 0 []
    (∀ tn, ∃ T, makes (.tzero tn) tn T ∧ T.desc = (reg tn).desc ∧ sized T ∧ ∀ r c, inside T.desc r c → at_ T r c = 0) ∧
    (∀ tn r, ∃ T, makes (.tfill tn r) tn T ∧ T.desc = (reg tn).desc ∧ sized T ∧
      ∀ i j, inside T.desc i j → at_ T i j = uregN s r.toNat T.desc.elem.width) ∧
    (∀ td ts, makes (.tcopy td ts) td (reg ts)) ∧
    (∀ f : TelemF, let x := reg f.tn
      let R (t : Nat) : Nat := vregN s f.cl.toNat f.r.toNat 32 t
      let C (t : Nat) : Nat := vregN s f.cl.toNat f.c.toNat 32 t
      let named (t r c : Nat) : Prop := t ∈ actives s ∧ R t = r ∧ C t = c
      PendsV (.text f) s n 3 .cross f.cl.toNat f.d.toNat 32 (fun t =>
        if R t < x.desc.rows ∧ C t < x.desc.cols then at_ x (R t) (C t) else 0) ∧
      (sized x → ∃ T, makes (.tins f) f.tn T ∧ T.desc = x.desc ∧ sized T ∧ ∀ r c, inside x.desc r c →
        (∀ t, named t r c → (∀ t', t < t' → ¬ named t' r c) →
          at_ T r c = vregN s f.cl.toNat f.d.toNat x.desc.elem.width t) ∧
        ((∀ t, ¬ named t r c) → at_ T r c = at_ x r c))) ∧
    (∀ f : TmemF, let x := reg f.tn
      let w := x.desc.elem.width / 8
      let p := uregN s f.a.toNat 64
      let ld := uregN s f.pitch.toNat 32
      let at2 (r c : Nat) : Nat := if f.tr then c * ld + r * w else r * ld + c * w
      let span := at2 (x.desc.rows - 1) (x.desc.cols - 1) + w
      let fl := (clauseFlags s).1
      (p % w ≠ 0 ∨ ld % w ≠ 0 →
        exec (.tld f) s = .next (raise s .alignment) ∧ exec (.tst f) s = .next (raise s .alignment)) ∧
      (p % w = 0 → ld % w = 0 →
        (groupNear s s.cur p span false = none → exec (.tld f) s = .next (raise s .window)) ∧
        (groupNear s s.cur p span true = none → exec (.tst f) s = .next (raise s .window)) ∧
        (∀ k, Undamaged s → groupNear s s.cur p span false = some k → ∃ m T,
          exec (.tld f) s = .next (underFlag m n fl [(.tile f.tn.toNat T, 0, [])]) ∧ MemoryOnly s m ∧
          m.mem = s.mem ∧ m.cur.storeQ = s.cur.storeQ ∧ T.desc = x.desc ∧ sized T ∧
          ∀ r c, inside x.desc r c → Untouched s (k + at2 r c) w → at_ T r c = wordOf s.mem w (k + at2 r c)) ∧
        (∀ k, sized x → groupNear s s.cur p span true = some k → ∃ m,
          exec (.tst f) s = .next (underFlag m n fl []) ∧ MemoryOnly s m ∧ m.mem = s.mem ∧
          (∀ b, (∀ r c, inside x.desc r c → b < k + at2 r c ∨ k + at2 r c + w ≤ b) →
            queueByte b m.cur.storeQ = queueByte b s.cur.storeQ) ∧
          ∀ r c i, inside x.desc r c → i < w →
            (∀ r' c', inside x.desc r' c' → r * x.desc.cols + c < r' * x.desc.cols + c' →
              k + at2 r c + i < k + at2 r' c' ∨ k + at2 r' c' + w ≤ k + at2 r c + i) →
            queueByte (k + at2 r c + i) m.cur.storeQ = some (BitVec.ofNat 8 (at_ x r c / 256 ^ i))))) ∧
    (∀ f : TmmaF,
      let busy := 64 ≤ (s.cur.jobs.filter fun j => !j.failed).length
      let clash (sf : BitVec 2) : Prop := sf = 0 ∧ ((reg f.ts).desc.elem == .i8) ≠ (fmtScale s.cur.fmt == 1)
      let opens (i : Instr) (kind keep : Nat) (ok : MmaJob → Prop) : Prop :=
        (busy → exec i s = .next s) ∧
        (¬ busy → ∃ x : MmaJob, exec i s = .next { s with
            nextId := s.nextId + 1, cur := { s.cur with jobs := s.cur.jobs ++ [x] } } ∧
          x.kind = kind ∧ x.keep = keep ∧ x.a = reg f.ta ∧ x.b = reg f.tb ∧ x.c = reg f.tc ∧ x.dst = f.td.toNat ∧
          x.tbf = true ∧ x.batch = none ∧ x.failed = false ∧ x.no = s.nextId ∧
          (keep ≠ 0 → x.m = some (reg f.tm)) ∧ ok x)
      let scaled (sf : BitVec 2) (x : MmaJob) : Prop := x.sa = some (reg f.ts) ∧ x.sb = n.s.getD f.sb.toNat 0 ∧
        x.fmtE8 = if sf = 0 then fmtScale s.cur.fmt == 1 else sf == 2
      let ints (x : MmaJob) : Prop := x.signA = f.sfmt.getLsbD 0 ∧ x.signB = f.sfmt.getLsbD 1
      (clash f.sfmt → exec (.mmaf8s f) s = .next (raise s .format)) ∧
      (¬ clash f.sfmt → opens (.mmaf8s f) 0 0 (scaled f.sfmt)) ∧
      opens (.mmabf16 f) 1 0 (fun _ => True) ∧ opens (.mmaf16 f) 2 0 (fun _ => True) ∧
      opens (.mmai8 f) 3 0 ints ∧
      (∀ form keep : BitVec 2, let kp := 16 * (keep.toNat + 1)
        (form = 0 → clash f.sfmt → exec (.mmasp form keep f) s = .next (raise s .format)) ∧
        (form = 0 → ¬ clash f.sfmt → opens (.mmasp form keep f) 0 kp (scaled f.sfmt)) ∧
        (form = 1 ∨ form = 2 → opens (.mmasp form keep f) form.toNat kp fun _ => True) ∧
        (form = 3 → opens (.mmasp form keep f) 3 kp ints)))

/-- R155 to R157, R237, R315 and R316: CVT and CVTS convert as CVCTL says, TCVT a tile; a stochastic one draws
first. -/
def Obligations.Converter : Prop :=
  ∀ (s : State) (n : Native), InBundle s n →
    let cv := n.cvctl
    let src := cvSrc cv
    let dst := cvDst cv
    let rnd := cvRnd cv
    let g := fmtOf src
    let h := fmtOf dst
    let sat := s.cur.fmt.getLsbD 2
    let stoch : Prop := rnd = .sr ∨ (rnd = .fmt ∧ s.cur.fmt.getLsbD 3 = true)
    let lo : Int := if cv.getLsbD 12 then -(2 ^ (dst.width - 1) : Nat) else 0
    let hi : Int := if cv.getLsbD 12 then (2 ^ (dst.width - 1) : Nat) - 1 else (2 ^ dst.width : Nat) - 1
    let ex (x : Nat) : Ex :=
      if src.isFloat then (g.decode x).ex
      else
        let v : Int := if cv.getLsbD 11 then sgn src.width x else (x : Int)
        .num (decide (v < 0)) v.natAbs 0 false
    let k := (s.cur.width + 15) / 16
    let rho (t : Nat) : Nat := (((drawWords k s).1.getD (t / 16) []).getD (t % 16) 0).toNat % 65536
    let m := (drawWords k s).2
    let out (i : Instr) (f : CvF) (m : State) (y : Nat → Nat) : Prop := ∃ p, exec i s = .next (inFlight m n [p]) ∧
      p.land = n.count + landAfter s .conv ∧ p.born = n.count ∧ p.slot = 4 ∧
      p.dst = .v f.cl.toNat f.d.toNat (decide (dst.width = 64)) ∧ p.mask = s.cur.active ∧
      ∀ t, t < s.cur.width → getLane p.vals t = lane (y t % 2 ^ dst.width)
    (∀ f : CvF, let x (t : Nat) : Nat := vregN s f.cl.toNat f.a.toNat src.width t
      let sc (t : Nat) : Ex := (fvMul (g.decode (x t)) (fmtF32.decode (vregN s f.cl.toNat (f.a.toNat + 1) 32 t))).ex
      (dst.isFloat = true → ¬ stoch → out (.cvtOp f) f s fun t => h.round (rndMode s.cur.fmt rnd) sat (ex (x t))) ∧
      (dst.isFloat = true → stoch → out (.cvtOp f) f m fun t => h.round (.sr (rho t)) sat (ex (x t))) ∧
      (dst.isFloat = false → out (.cvtOp f) f s fun t => match g.decode (x t) with
        | .nan => 0
        | .inf b => lowI dst.width (if b then lo else hi)
        | .fin b c e => lowI dst.width (clampI (roundInt (rndMode s.cur.fmt rnd) b c e) lo hi)) ∧
      (¬ stoch → out (.cvts f) f s fun t => h.round (rndMode s.cur.fmt rnd) sat (sc t)) ∧
      (stoch → out (.cvts f) f m fun t => h.round (.sr (rho t)) sat (sc t))) ∧
    (∀ td ts : BitVec 4, let x := tileReg s ts.toNat
      let r := tileConvert s x { x.desc with elem := elemOfTy dst } rnd (cv.getLsbD 11) (cv.getLsbD 12)
      r.2.cur.native = some n ∧ r.1.desc = { x.desc with elem := elemOfTy dst } ∧
      r.1.data.length = x.data.length ∧
      exec (.tcvt td ts) s = .next (inFlight r.2 n
        [{ land := n.count + 1, born := n.count, slot := 9, dst := .tile td.toNat r.1, mask := 0, vals := [] }]))

/-! ## Bundle Form: engine commands, branches, waits and new work -/

/-- R188 to R192, R196 to R198 and R327: an EN command takes its operands from the block at sBASE and its counter
from CN; where its checks hold, the counter is idle and the retriever has room it completes, and the
token's handle goes to sBASE. -/
def Obligations.BundleEngine : Prop :=
  ∀ (s : State) (n : Native) (f : EnF), InBundle s n → s.cur.ctrs.length = 16 →
    (∀ c, c ∈ s.cmds → c.uid < s.nextId) → (∀ pt, s.cur.party = some pt → pt.gone = false) →
    let m := uregN s f.base.toNat 32
    let b := f.base.toNat + 2
    let x (ws : List Bool) (i : Nat) : Nat := (readBlock s b ws).getD i 0
    let issues (i : Instr) (op : EngOp) : Prop :=
      let ck := engCheck op
      let fits : Prop := ck.total = 0 ∨ ∀ e, e ∈ ck.near → extentOk s s.cur.ctx s.cur.team e = true
      (ck.fmtOk = false → exec i s = .next (raise s .copyFormat)) ∧
      (ck.fmtOk = true → ¬ fits → exec i s = .next (raise s .window)) ∧
      (∀ old, ck.fmtOk = true → fits → s.cur.ctrs[f.cn.toNat]? = some old → old.done ≠ old.issued →
        exec i s = .next s) ∧
      (∀ old, ck.fmtOk = true → fits → s.cur.ctrs[f.cn.toNat]? = some old → old.done = old.issued →
        (s.cmds.filter fun c => c.die == s.cur.die && c.core == s.cur.core).length < 64 →
        ∃ t, exec i s = .next t ∧ t.cur.storeQ = [] ∧ t.mem.bytes = (drainQ s).mem.bytes ∧
          t.mem.full = s.mem.full ∧ (∀ k, k ≠ f.cn.toNat → t.cur.ctrs[k]? = s.cur.ctrs[k]?) ∧
          t.cur.native = some { n with pend := n.pend ++
            [{ land := n.count + landAfter s .unif, born := n.count, slot := 5, dst := .s f.base.toNat false,
               mask := 0, vals := [lane (f.cn.toNat + 16 * (old.issued + 1).toNat)] }] } ∧
          (ck.total ≠ 0 → t.cur.ctrs[f.cn.toNat]? = some { old with issued := old.issued + 1 } ∧
            ∃ c, t.cmds = s.cmds ++ [c] ∧ c.op = op ∧ c.by_ = .group s.cur.uid f.cn.toNat ∧ c.done = [] ∧
              c.die = s.cur.die ∧ c.core = s.cur.core ∧ c.ctx = s.cur.ctx ∧
              c.err = if op.badBase then some .farFault else none) ∧
          (ck.total = 0 → t.cmds = s.cmds ∧
            t.cur.ctrs[f.cn.toNat]? = some { old with done := old.issued + 1, issued := old.issued + 1 }))
    let pat (at_ : Nat) (lv : Nat) (near : Bool) (ws : List Bool) : Pat :=
      { base := x ws at_, near, c0 := x ws (at_ + 1),
        lv := (List.range (lv - 1)).map fun i => (x ws (at_ + 2 + 2 * i), sgn 64 (x ws (at_ + 3 + 2 * i))) }
    let sl := m % 8
    let dl := m / 8 % 8
    let ws : List Bool := [true, false] ++ (List.replicate (sl - 1) [false, true]).flatten
      ++ [true, false] ++ (List.replicate (dl - 1) [false, true]).flatten
    let src (near : Bool) : Pat := pat 0 sl near ws
    let dst (near : Bool) : Pat := pat (2 * max sl 1) dl near ws
    let tw := [true, true, false, true]
    let rw_ := [true, true, true, true, true, false, true, false]
    let iw := [true, false, true, false, true, false]
    let rows : EngOp := .rows (x rw_ 0) (x rw_ 1) (x rw_ 2) (x rw_ 3) (x rw_ 4) (x rw_ 5) (x rw_ 6) (x rw_ 7)
      (if m.testBit 0 then 8 else 4) (m.testBit 1) (m.testBit 2) (m.testBit 3) (2 ^ (m / 16 % 8)) (2 ^ (m / 128 % 8))
    issues (.enCopyIn f) (.copy (src false) (dst true)) ∧
    issues (.enCopyOut f) (.copy (src true) (dst false)) ∧
    issues (.enCopyNear f) (.copy (src true) (dst true)) ∧
    issues (.enReduceFar f) (.reduce (src true) (dst false) (BitVec.ofNat 4 (m / 64)) (BitVec.ofNat 2 (m / 1024))) ∧
    issues (.enGather f) (.gather (x tw 0) (x tw 1) (x tw 2) (x tw 3) (2 ^ (m % 8 + 2)) (m.testBit 3)) ∧
    issues (.enScatter f) (.scatter (x tw 0) (x tw 1) (x tw 2) (x tw 3) (2 ^ (m % 8 + 2)) (m.testBit 3)
      (BitVec.ofNat 4 (m / 32)) (BitVec.ofNat 2 (m / 512))) ∧
    issues (.enCsrRows f) rows ∧ issues (.enBsrBlocks f) rows ∧
    issues (.enIsect f) (.isect (x iw 0) (isectNear s).1 (x iw 1) (x iw 2) (isectNear s).2 (x iw 3) (x iw 4) (x iw 5)
      (m.testBit 0) (m.testBit 1))

/-- R30, R49 and R328 to R332: the branches, the loop counter and the native reconvergence stack, whose entries
beyond 32 stand in the stack area of the group. -/
def Obligations.BundleBranches : Prop :=
  ∀ (s : State) (n : Native), InBundle s n → s.cur.active ≠ 0 → (32 < n.stack.length → Undamaged s) →
    let with_ (m : Native) (g : Group → Group) : State := { s with cur := g { s.cur with native := some m } }
    let up (t : State) : State := match (t.cur.native.map (·.stack)).getD [] with
      | e :: es =>
        if 32 ≤ es.length then
          let k := coreKey s.cur.die s.cur.core (Config.sysArea s.cur.die + 2048 * s.cur.slot + 16 * (es.length - 32))
          let x := e.mask.toNat * 2 ^ 64 + e.dpc.toNat * 2 ^ 48 + e.rpc.toNat * 2 ^ 32 + e.fmt.toNat % 64
          { t with mem := (s.mem.heal k 16).setBytes (bytesAt 16 k x) }
        else t
      | [] => t
    let at_ (m : Native) (t : BitVec 15) : Native := { m with clause := t.toNat, bundle := 0 }
    let live : Mask := fullMask s.cur.width &&& ~~~s.cur.exited
    let below (es : List NatEnt) : Mask := es.foldl (fun m e => m &&& ~~~e.mask) live
    (∀ t, exec (.jmp t) s = .next (with_ (at_ n t) id)) ∧
    (∀ (k : BitVec 3) (t : BitVec 15), let p := n.k.getD k.toNat 0
      let yes := p &&& s.cur.active
      (yes = s.cur.active → exec (.ubr k t) s = .next (with_ (at_ n t) id)) ∧
      (yes = 0 → exec (.ubr k t) s = .next s) ∧
      (yes ≠ 0 → yes ≠ s.cur.active → exec (.ubr k t) s = .next (raise s .uniformity))) ∧
    (∀ r : BitVec 6, let v := n.s.getD r.toNat 0
      exec (.loop r) s = .next (with_ { n with lc := v, trip := v } id)) ∧
    (∀ t, exec (.lend t) s = .next (with_
      (if n.lc - 1 = 0 then { n with lc := 0 } else at_ { n with lc := n.lc - 1 } t) id)) ∧
    (∀ r, exec (.dset r) s = .next (with_ { n with dset := some r } id)) ∧
    (∀ (k : BitVec 3) (t r : BitVec 15), n.dset = some r →
      let yes := n.k.getD k.toNat 0 &&& s.cur.active
      let no := s.cur.active &&& ~~~yes
      let n := { n with dset := none }
      (no = 0 → exec (.dbr k t) s = .next (with_ n id)) ∧
      (yes = 0 → exec (.dbr k t) s = .next (with_ (at_ n t) id)) ∧
      (yes ≠ 0 → no ≠ 0 →
        (∀ e es, n.stack = e :: es → e.rpc = r → exec (.dbr k t) s = .next (up (with_
          { n with stack := { e with mask := e.mask ||| no, dpc := t } :: es } fun g => { g with active := yes }))) ∧
        ((∀ e es, n.stack = e :: es → e.rpc ≠ r) →
          (160 ≤ n.stack.length → exec (.dbr k t) s = .next (raise (with_ n id) .divergenceDepth)) ∧
          (n.stack.length < 160 → exec (.dbr k t) s = .next (up (with_
            { n with stack := { mask := no, dpc := t, rpc := r, fmt := s.cur.fmt } :: n.stack }
            fun g => { g with active := yes })))))) ∧
    (∀ r : BitVec 15, (∀ e es, n.stack = e :: es → e.rpc ≠ r) →
      exec (.join r) s = .next (with_ (at_ n r) id) ∧ exec (.joinp r) s = .next (with_ (at_ n r) id)) ∧
    (∀ (r : BitVec 15) (e : NatEnt) (es : List NatEnt), n.stack = e :: es → e.rpc = r →
      let back : State := with_ (at_ { n with stack := es } r) fun g => { g with active := below es, fmt := e.fmt }
      (e.mask &&& live ≠ 0 → exec (.join r) s = .next (up (with_
        (at_ { n with stack := { e with mask := below es &&& ~~~(e.mask &&& live) } :: es } e.dpc)
        fun g => { g with active := e.mask &&& live, fmt := e.fmt }))) ∧
      (below es ≠ 0 → e.mask &&& live = 0 → exec (.join r) s = .next back) ∧
      (below es ≠ 0 → exec (.joinp r) s = .next back))

/-- R39 to R41, R207, R230, R328, R333, R339 and R345: EXIT, TRAP, WAITC and YIELD. A TRAP stops its group at its
bundle, the variable-latency operations complete; when the group has resumed, and where a BRK does not stop, the
bundle ends its clause. -/
def Obligations.BundleStops : Prop :=
  ∀ (s : State) (n : Native), InBundle s n →
    (s.cur.party = none → ∃ t, exec .tbfExit s = .next t ∧ t.cur.exited = s.cur.exited ||| s.cur.active ∧
      t.cur.lastExit = s.cur.active ∧
      (let due : Prop := s.cur.exited ||| s.cur.active = fullMask s.cur.width ∧
         ¬ (cmdsBy s s.cur.uid = [] ∧ tokErrs s.cur = [])
       (due → t.cur.exitDue = true ∧ t.cur.trig = s.cur.trig) ∧
       (¬ due → t.cur.exitDue = false ∧
         (s.cur.kind = .team → t.cur.trig = s.cur.trig ||| s.cur.active))) ∧
      (s.cur.exited ||| s.cur.active = fullMask s.cur.width → t.cur.active = 0)) ∧
    (s.cur.party ≠ none → exec .tbfExit s = .next (raise s .helperExit)) ∧
    (let stops (c : BitVec 16) (brk : Bool) (code : Nat) : Prop := ∃ t, exec (.tbfTrap brk c) s = .next t ∧
       let g := landVar { s.cur with native := some { n with
         clause := n.at_.1, bundle := n.at_.2, passed := true } }
       t.cur = { g with st := .halted, stopCode := code, stopPpc := ppcOf s.cur, stopRec := t.cur.stopRec,
                        fast := false, stopReq := 0 } ∧
       ∃ i : StopInfo, i.stop = code ∧ i.ppc = ppcOf s.cur ∧ t.cur.stopRec = stopRecord s s.cur i
     let goesOn (c : BitVec 16) (brk : Bool) : Prop := exec (.tbfTrap brk c) s = .next { s with cur := { s.cur with
       native := some { n with
         clause := n.at_.1 + 2 + bitsOf (imgUnit (imageOf s s.cur) n.at_.1) 23 20, bundle := 0, passed := false } } }
     (∀ c, n.passed = false → s.cur.party = none → stops c false 2) ∧
     (∀ c, n.passed = false → s.cur.party ≠ none → exec (.tbfTrap false c) s = .next (raise s (.user c))) ∧
     (∀ c, n.passed = false → brkStops s = true → stops c true 1) ∧
     (∀ c brk, n.passed = true → goesOn c brk) ∧ (∀ c, brkStops s = false → goesOn c true)) ∧
    (∀ base : BitVec 6,
      let h := uregN s base.toNat 32
      let cs := blockConds s 4 (h % 65536) (base.toNat + 2)
      let k := uregN s (base.toNat + 1) 32
      let due : Option Nat := if k = 0xFFFFFFFF then none else some (s.tick + k)
      let bits (bs : List Bool) : Nat := (bs.zipIdx.map fun b => b.1.toNat * 2 ^ b.2).sum
      (∀ T, waitTrap s cs = some T →
        exec (.waitc base) s = .next (raise s T) ∧ exec (.tbfYield base) s = .next (raise s T)) ∧
      (waitTrap s cs = none → ∃ w, w.conds = cs ∧ w.all = h.testBit 16 ∧ w.deadline = due ∧ w.dst = .base base.toNat true ∧
        exec (.tbfYield base) s = .next { s with cur := { s.cur with
          wait := some w, st := .parked, fast := false, since := s.cycle } }) ∧
      (∀ w, w.conds = cs → w.all = h.testBit 16 → w.deadline = due → w.parked = [] → w.dst = .base base.toNat false →
        waitTrap s cs = none → tokenFault s.cur w = none → batchFault s.cur w = none →
        ∀ bs s1, judgeAll w cs.zipIdx { s with cur := { s.cur with wait := some w } } = (.ok bs, s1) →
          let test := if w.all then bs.all (· == true) else bs.any (· == true)
          let late := ∃ d, due = some d ∧ d ≤ s.tick
          (test = true ∨ late → ∃ t n', exec (.waitc base) s = .next t ∧ t.cur.wait = none ∧ t.cur.st = s.cur.st ∧
            t.cur.native = some n' ∧ (base.toNat < n.s.length →
              n' = { n with s := n.s.set base.toNat (BitVec.ofNat 32 (bits bs + if test then 0 else 16)) })) ∧
          (test = false → ¬ late → ∃ t, exec (.waitc base) s = .next t ∧ t.cur.st = .waiting ∧
            t.cur.native = some n ∧ t.cur.wait.isSome)))

/-- R216 to R220, R223, R334 and R335: SPAWN, TPOST, HERD, CALL, RET and HJOIN. -/
def Obligations.BundleWork : Prop :=
  ∀ (s : State) (n : Native) (l : Launch), InBundle s n → launchOf s s.cur.launch = some l →
    let ws := groupWords s s.cur
    let word (b : BitVec 6) (i : Nat) : Nat := uregN s (b.toNat + i) 32
    (∀ base : BitVec 6, let fn := word base 0 % 65536
      let d := drainQ s
      let held := (kernelIn l).coop = true ∨ teamsWait l s.cur.die (s.cur.core / 16) = false
      let seat := detachedSeat d l s.cur.die s.cur.core fn (some s.cur.budget)
      let args := (readBlock s (base.toNat + 2) (((fnParams ws fn).map (·.1)).map wideTy)).map lane
      let answer (t : State) (x : Lane) : Prop := t.cur.native = some { n with pend := n.pend ++
        [{ land := n.count + 1, born := n.count, slot := 9, dst := .s base.toNat false, mask := 0, vals := [x] }] }
      ((¬ held ∨ seat = none) → ∃ t, exec (.tbfSpawn base) s = .next t ∧ t.others = s.others ∧ answer t 1) ∧
      (∀ slot off, held → seat = some (slot, off) → NamesFresh s → ∃ t g, exec (.tbfSpawn base) s = .next t ∧
        t.others = g :: s.others ∧ g.uid = s.nextId ∧ g.kind = .spawned ∧ g.st = .ready ∧ g.die = s.cur.die ∧
        g.core = s.cur.core ∧ g.slot = slot ∧ g.unit = fn ∧ answer t 0 ∧
        ∀ j a th, args[j]? = some a → th < g.width → getLane (valLanes g j) th = a)) ∧
    (∀ base : BitVec 6, let fn := word base 0 % 65536
      let reg := word base 2 % 512
      let tys := ((fnParams ws fn).map (·.1)).map wideTy
      let vals (t : Nat) : List Lane := stageRead s (8 * word base 1) tys t
      let home (t : Nat) : Option SliceEnt := homeOf s s.cur.ctx (getLane (vals t) 0).toNat
      ((∃ t, t ∈ actives s ∧ home t = none) → exec (.tpost base) s = .next (raise s .window)) ∧
      (∀ c, (∀ t, t ∈ actives s → (home t).isSome) → ctxOf s s.cur.ctx = some c → l.ctx = s.cur.ctx →
        (s.launches.map (·.uid)).Nodup →
        let had := ((s.launches.filter fun x => x.ctx == s.cur.ctx).map (·.tasks)).sum
        ∃ (t : State) (rs : List Task) (p : Pend), exec (.tpost base) s = .next t ∧ t.tasks = s.tasks ++ rs ∧
          rs.length = min (actives s).length (c.taskQuota - had) ∧ t.mem = s.mem ∧
          t.cur.native = some { n with pend := n.pend ++ [p] } ∧ p.land = n.count + 1 ∧
          p.dst = .v (reg / 128) (reg % 128) false ∧ p.mask = s.cur.active ∧
          (∀ (i : Nat) (r : Task) (th : Nat), rs[i]? = some r → (actives s)[i]? = some th →
            r.fn = fn ∧ r.p = lane (getLane (vals th) 0).toNat ∧ r.args = (vals th).drop 1) ∧
          ∀ (i th : Nat), (actives s)[i]? = some th → getLane p.vals th = if had + i < c.taskQuota then 0 else 1)) ∧
    (∀ base : BitVec 6, NamesFresh s → s.cur.herd = none →
      let h := word base 0
      let rg := word base 1
      let reg (x t : Nat) : Nat := vregN s (x / 128) (x % 128) 32 t
      let off : Prop := (kernelIn l).helpers = false ∨ l.body.helpersOff = true
      ∃ (t : State) (hd : Herd), exec (.tbfHerd base) s = .next t ∧ t.cur.herd = some hd ∧ t.cur.native = some n ∧
        t.cur.storeQ = [] ∧ hd.helper = h % 65536 ∧ hd.fn = (helperEntry ws (h % 65536)).1 ∧
        hd.red = h / 2 ^ 20 % 8 ∧ hd.ty = tyOfCode (h / 2 ^ 23 % 8) ∧ hd.signed = h.testBit 26 ∧ hd.fmt = s.cur.fmt ∧
        hd.phase = 0 ∧ hd.native = true ∧ hd.ranges.map (·.thread) = threadsOf s.cur.active s.cur.width ∧
        ∀ r, r ∈ hd.ranges → r.lo = sgn 32 (reg (rg % 512) r.thread) ∧ r.hi = sgn 32 (reg (rg / 512 % 512) r.thread) ∧
          r.chunk = max 1 (min (reg (rg / 2 ^ 18 % 512) r.thread) 65536) ∧ r.helpers ≤ 15 ∧
          (off → r.helpers = 0 ∧ r.reason = 3)) ∧
    (∀ h, s.cur.herd = some h →
      exec .tbfCall s = .next { s with cur := { s.cur with herd := some { h with phase := 1 } } } ∧
      exec .hjoin s = .next { s with cur := { s.cur with herd := some { h with phase := 2 } } }) ∧
    (∀ (pt : Party) (h : Herd) (r : Range) (c : Nat), s.cur.party = some pt → herdOf s pt.group = some h →
      pt.group ≠ s.cur.uid → rangeOf h pt.thread = some r → pt.chunk = some c → pt.iter + 1 < pt.stop →
      pt.release = false → r.fault = none →
      ∃ t, exec .tbfRet s = .next t ∧ t.cur.party = some { pt with
          iter := pt.iter + 1, begun := false,
          partial_ := some (let v := getLane (vget s.cur 0 0 (h.red != 0 && wideTy h.ty)) 0;
            match pt.partial_ with
            | some a => herdCombine h a v
            | none => if h.red ≠ 0 ∧ h.ty.isFloat = true then lane (fpCanon (fmtOf h.ty) v.toNat) else v) } ∧
        t.cur.st = .active ∧ t.cur.fmt = h.fmt ∧ t.mem = s.mem ∧
        ∃ m, t.cur.native = some m ∧ m.clause = 1 ∧ m.bundle = 0 ∧ vregGet m 0 0 = [BitVec.ofNat 32 (lowI 32 (pt.iter + 1))])

/-! ## Events: packets -/

/-- R360: a packet that completes leaves the launch table; its status record holds the code in bits 31:0 and the
sequence number in bits 63:32, and then its signal word takes the value or loses it; nothing else of memory
changes.

R345, R361, R362, R389, R390 and R393: what the packets that are no launches do before they complete with
their status. -/
def Obligations.Packets : Prop :=
  (∀ (s : State) (h : PktHdr) (qu : Queue) (c : Ctx) (st : Status) (seq : BitVec 32) (sig : Bool), Serves s h qu c →
     let t := completeWith s h st seq sig
     let key (x : State) (a : BitVec 64) : Except (Option Nat) Nat × State := frontKey x qu.ctx a.toNat
     (¬ hasStat h → ¬ hasSig h sig → Ended s t h ∧ t.mem = s.mem) ∧
     (∀ k s1, hasStat h → ¬ hasSig h sig → key s h.statAddr = (.ok k, s1) →
       Ended s t h ∧ Puts8 s t k (statWord st seq)) ∧
     (∀ k s1, ¬ hasStat h → hasSig h sig → key s h.sigAddr = (.ok k, s1) →
       Ended s t h ∧ Puts8 s t k (sigWord h (wordOf s.mem 8 k))) ∧
     (∀ k s1 k' s2, hasStat h → hasSig h sig → key s h.statAddr = (.ok k, s1) →
       let m := putAs s1 .frontEnd 0 (bytesAt 8 k (statWord st seq))
       key m h.sigAddr = (.ok k', s2) →
       Ended s t h ∧ Puts8 s m k (statWord st seq) ∧ Puts8 m t k' (sigWord h (wordOf m.mem 8 k')))) ∧
  (∀ (s : State) (h : PktHdr) (qu : Queue) (c : Ctx), Serves s h qu c →
     let s0 := begun s
     let ends (i : Instr) (s' : State) (st : Status) : Prop := exec i s = .next (complete s' h st)
     let debug : Prop := c.debugCtl.getLsbD 0 = true
     let inCtx (g : Group) : Prop := g ∈ heldGroups s ∧ g.ctx = qu.ctx ∧ g.party = none
     let word (x : State) (a : BitVec 64) : Except (Option Nat) (List Byte) := frontRead x qu.ctx 8 a.toNat
     let reads (x : State) (a : BitVec 64) (v : Nat) : Prop := ∃ bs, word x a = .ok bs ∧ leNat bs = v
     let waiting (p : Started) : State :=
       { modStarted s0 h.q h.n (fun _ => p) with free := s0.free + 1 }
     ends (.nop h) s0 .ok ∧ ends (.signal h) s0 .ok ∧
     (∀ value tag, ∃ s', ends (.measure h value tag) s' .ok ∧ s' = { s0 with ctxs := s'.ctxs } ∧
       ∃ c', ctxOf s' qu.ctx = some c' ∧ c'.isobar.h =
         sha384 (c.isobar.h ++ natBytes 8 (6 + (8 + value.length) * 2 ^ 32) ++ natBytes 8 tag.toNat ++ value)) ∧
     (∀ nonce, (receiptOf s0 c nonce).length = 3504 ∧
       ((receiptOf s0 c nonce).drop 40).take 32 = fitBytes 32 nonce ∧
       ((receiptOf s0 c nonce).drop 72).take 48 = fitBytes 48 c.isobar.h ∧
       ((receiptOf s0 c nonce).drop 128).take 64 =
         fitBytes 64 (Config.ed25519Sign ((receiptOf s0 c nonce).take 128))) ∧
     (∀ nonce out n s1, frontPut qu.ctx 3 out.toNat (receiptOf s0 c nonce) s0 = (none, s1) →
       ∃ s', ends (.receipt h nonce out n) s' .ok ∧ s' = { s1 with ctxs := s'.ctxs } ∧
         ∃ c', ctxOf s' qu.ctx = some c' ∧ c'.isobar.h = c.isobar.h ∧ c'.isobar.receipts = c.isobar.receipts + 1) ∧
     (∀ (a : BitVec 64) k s1 k' s2, frontKey s0 qu.ctx a.toNat = (.ok k, s1) →
       let m := putAs s1 .frontEnd 0 (bytesAt 8 k (s.tick % 2 ^ 64))
       frontKey m qu.ctx (a.toNat + 8) = (.ok k', s2) →
       ends (.timestamp h a) (putAs s2 .frontEnd 0 (bytesAt 8 k' (s.tick % 2 ^ 64))) .ok) ∧
     (qu.priv = false → ∀ i, i = .haltContext h ∨ i = .resumeContext h → ends i s .privilege) ∧
     (qu.priv = true → ¬ debug → ∀ i, i = .haltContext h ∨ i = .resumeContext h → ends i s0 .debugCtl) ∧
     (qu.priv = true → debug → Distinct s →
       (∃ s', ends (.haltContext h) s' .ok ∧ ∀ g, inCtx g → ∃ g', groupOf s' g.uid = some g' ∧
         g'.frames = g.frames ∧ g'.active = g.active ∧
         (g.st = .active → g'.st = .active ∧ g'.stopReq = 3) ∧
         (g.st = .halted → g' = g) ∧
         (g.st ≠ .active → g.st ≠ .halted → g'.st = .halted ∧ g'.stopCode = 3)) ∧
       (∃ s', ends (.resumeContext h) s' .ok ∧ ∀ g, inCtx g → ∃ g', groupOf s' g.uid = some g' ∧
         g'.frames = g.frames ∧ g'.active = g.active ∧ g'.off = g.off ∧
         (g.st = .halted → 1 ≤ g.stopCode → g.stopCode ≤ 3 → g'.st = .ready ∧ g'.stopCode = 0) ∧
         (¬ (g.st = .halted ∧ 1 ≤ g.stopCode ∧ g.stopCode ≤ 3) → g' = g))) ∧
     ((∀ (i j : Nat) (x y : Slot), s.front.slots[i]? = some x → s.front.slots[j]? = some y → x.q = some h.q → y.q = some h.q → i = j) →
       ∃ t, exec (.disableQueue h) s = .next t ∧ slotOf t h.q = none ∧
         (t.mem.byte (qu.qcb + 1)).getLsbD 1 = false) ∧
     (∀ prio, ∃ s', ends (.setPriority h prio) s' .ok ∧
       s'.mem.byte qu.qcb = BitVec.ofNat 8 (feNat s0 qu.qcb 1 % 16 + prio.toNat * 16) ∧
       ∀ b, b ≠ qu.qcb → s'.mem.byte b = s.mem.byte b) ∧
     (∀ addrs, let x := waiting { hdr := h, work := .barrier addrs, parked := none }
       ((∃ a, a ∈ addrs ∧ word x a = .error none) → ends (.barrierAnd h addrs) x .farFault) ∧
       ((∀ a, a ∈ addrs → reads x a 0) → ends (.barrierAnd h addrs) x .ok) ∧
       ((∀ a, a ∈ addrs → ∃ v, reads x a v) → (∃ a v, a ∈ addrs ∧ reads x a v ∧ v ≠ 0) →
         exec (.barrierAnd h addrs) s = .next x)) ∧
     (∀ a v cmp timeout,
       let due := if timeout = 0xFFFFFFFF then none else some (s.tick + timeout.toNat)
       let x := waiting { hdr := h, work := .wait a v cmp due, parked := none }
       (word x a = .error none → ends (.waitSignal h a v cmp timeout) x .farFault) ∧
       (∀ n, reads x a n → sigHolds cmp n v.toNat = true → ends (.waitSignal h a v cmp timeout) x .ok) ∧
       (∀ n, reads x a n → sigHolds cmp n v.toNat = false → exec (.waitSignal h a v cmp timeout) s = .next x)) ∧
     (∀ (n : Nat) (p : Started), startedAt s h.q n = some p → p.parked = none →
       let x := { s with free := s.free + 1 }
       let goes (st : Status) : Prop := exec (.signalPoll h.q n) s = .next (complete x p.hdr st)
       (∀ addrs, p.work = .barrier addrs → p.hdr.q = h.q →
         ((∀ a, a ∈ addrs → reads x a 0) → goes .ok) ∧
         ((∀ a, a ∈ addrs → ∃ v, reads x a v) → (∃ a v, a ∈ addrs ∧ reads x a v ∧ v ≠ 0) →
           exec (.signalPoll h.q n) s = .next x)) ∧
       (∀ a v cmp dl, p.work = .wait a v cmp dl → p.hdr.q = h.q →
         (∀ k, reads x a k → sigHolds cmp k v.toNat = true → goes .ok) ∧
         (∀ k, reads x a k → sigHolds cmp k v.toNat = false → exec (.signalPoll h.q n) s = .next x) ∧
         (∀ d, dl = some d →
           (d ≤ s.tick → exec (.waitSignalTimeout h.q n) s = .next (complete s p.hdr .timeout)) ∧
           (s.tick < d → exec (.waitSignalTimeout h.q n) s = .next s)))) ∧
     (∀ src dst, ends (.copy h src dst 0) s0 .ok) ∧
     (∀ src dst count : BitVec 64, count ≠ 0 → ∃ (t : State) (x : Cmd), exec (.copy h src dst count) s = .next t ∧
       t = { s0 with nextId := t.nextId, front := t.front, cmds := s.cmds ++ [x] } ∧ t.mem = s.mem ∧
       x.by_ = .packet h.q h.n ∧ x.core = 0 ∧ x.ctx = qu.ctx ∧ x.done = [] ∧ x.err = none ∧
       x.op = .copy { base := src.toNat, near := false, c0 := count.toNat, lv := [] }
         { base := dst.toNat, near := false, c0 := count.toNat, lv := [] } ∧
       (∀ k, (farKey s0 qu.ctx dst.toNat true).1 = .hit k → 16 ≤ k / 2 ^ 60 → k / 2 ^ 60 < 24 →
         x.die = k / 2 ^ 60 - 16) ∧
       (∀ p, startedAt s h.q h.n = some p → ∃ p', startedAt t h.q h.n = some p' ∧ p'.work = .copy x.uid)) ∧
     (∀ (n : Nat) (p : Started) (u : Nat) (x : Cmd), startedAt s h.q n = some p → p.work = .copy u → cmdOf s u = some x →
       (∃ q m, x.by_ = .packet q m) →
       (cmdFinished s x = false → exec (.copyPacketComplete h.q n) s = .next s) ∧
       (cmdFinished s x = true → ∃ s', s' = { s with mem := s'.mem, cmds := s.cmds.filter fun y => y.uid != u } ∧
         s'.mem.bytes = s.mem.bytes ∧
         exec (.copyPacketComplete h.q n) s = .next (complete s' p.hdr (if x.err = none then .ok else .farFault)))))

/-! ## Events: launches and queues -/

/-- R371 to R373 and R390: a launch packet takes the next sequence number of its context; it is refused with the
status of the first check that fails; a launch that passes them all stands with its object, arguments and
placement as read, its chain records made and one request for each unit that it needs. -/
def Obligations.LaunchStart : Prop :=
  ∀ (s : State) (h : PktHdr) (b : LaunchBody) (qu : Queue) (c : Ctx) (p : Started), Serves s h qu c →
    startedAt s h.q h.n = some p → p.work = .begun none → (∀ l, l ∈ s.launches → l.uid < s.nextId) →
    let seq : BitVec 32 := if c.launchCount + 1 = 0 then 1 else c.launchCount + 1
    let s1 := begun (modStarted (modCtx (begun s) qu.ctx fun c => { c with launchCount := seq }) h.q h.n
      fun p => { p with work := .begun (some seq) })
    let got (n a : Nat) (bs : List Byte) : Prop := readFar s1 qu.ctx n a = .got bs
    let counted (t : State) (x : List Byte) : Prop :=
      ∃ c', ctxOf t qu.ctx = some c' ∧ c'.launchCount = seq ∧ c'.isobar.h = x
    let refuses (i : Instr) (st : Status) : Prop := ∃ (t : State) (l : Launch),
      exec i s = .next (completeWith t h st seq true) ∧ counted t c.isobar.h ∧ t.launches = s.launches ++ [l] ∧
      l.stage = .terminated ∧ l.seq = seq ∧ l.ctx = qu.ctx
    let ext (x : List Byte) (type : Nat) (body : List Byte) : List Byte :=
      sha384 (x ++ natBytes 8 (type + body.length * 2 ^ 32) ++ body)
    let stands (i : Instr) (producer : Nat) : Prop := ∀ hb d obj args pl a ps,
      let head := ObjHead.of hb
      let desc := leNat d
      got 64 b.code.toNat hb → b.kernel.toNat < head.knCount → head.desc b.kernel.toNat = some a →
      got 32 (b.code.toNat + a) d → bitsOf desc 191 160 = b.argBytes.toNat →
      112 ≤ head.size → head.size % 16 = 0 → got head.size b.code.toNat obj →
      (sha384 (obj.take (head.size - 48)) ≠ obj.drop (head.size - 48) → refuses i .verify) ∧
      (sha384 (obj.take (head.size - 48)) = obj.drop (head.size - 48) →
        got b.argBytes.toNat b.args.toNat args → got (8 * b.placeCount.toNat) b.placeAddr.toNat pl →
        placesOf b.teams.toNat 0 b.placeCount.toNat pl = some ps →
        (∀ x, x ∈ namedClusters ps → clusterMapped s1 qu.ctx x.1 x.2 (bitOf desc 23) = true) →
        let checked := b.checked || bitOf desc 96
        let flags := checked.toNat + 2 * (bitOf desc 99).toNat + 4 * bitsOf desc 17 16 + 16 * b.helpersOff.toNat
        ∃ (t : State) (l : Launch) (p' : Started), exec i s = .next t ∧ t.launches = s.launches ++ [l] ∧
          l.stage = .translating ∧ l.seq = seq ∧ l.ctx = qu.ctx ∧ l.producer = producer ∧ l.words = wordsOf obj ∧
          l.digest = obj.drop (head.size - 48) ∧ l.args = args ∧ l.places = ps ∧ l.checked = checked ∧
          l.reports = requestsOf (wordsOf obj) (kernelIn l) ps ∧ l.start = none ∧
          startedAt t h.q h.n = some p' ∧ p'.work = .launch l.uid ∧ t.mem = s.mem ∧
          counted t (ext (ext (ext c.isobar.h 2 (obj.drop (head.size - 48))) 3 (sha384 args)) 4
            (natBytes 4 seq.toNat ++ natBytes 4 flags ++ sha384 (packetBytes s1 qu h.n) ++ sha384 pl)))
    (∀ hb, got 64 b.code.toNat hb → (ObjHead.of hb).knCount ≤ b.kernel.toNat → refuses (.launch h b) .args) ∧
    stands (.launch h b) 0 ∧
    (qu.priv = false → refuses (.launchChained h b) .privilege) ∧
    (qu.priv = true → ∀ x, (s.launches.find? fun l => l.ctx == qu.ctx && l.seq == b.producer) = some x →
      producerFailed x = false → stands (.launchChained h b) x.uid) ∧
    (qu.priv = true → (s.launches.find? fun l => l.ctx == qu.ctx && l.seq == b.producer) = none →
      ∀ hb d a, got 64 b.code.toNat hb → b.kernel.toNat < (ObjHead.of hb).knCount →
        (ObjHead.of hb).desc b.kernel.toNat = some a → got 32 (b.code.toNat + a) d →
        bitsOf (leNat d) 191 160 = b.argBytes.toNat → refuses (.launchChained h b) .noProducer)

/-- R259, R262, R285, R288, R371 to R373 and R390: the translations of a launch, its hand-over to the cluster
schedulers, the start of a dependant and the retirement. -/
def Obligations.LaunchProgress : Prop :=
  ∀ (s : State) (u : Nat) (l : Launch), launchOf s u = some l → (s.launches.map (·.uid)).Nodup →
    let runs_ : State := modLaunch s u fun l => { l with
      stage := .running, start := some s.tick, arrived := s.steps,
      waits := l.places.map fun p => (p.die, p.cluster, s.cycle) }
    let refused (i : Instr) (st : Status) : Prop := ∃ (t : State) (l' : Launch),
      exec i s = .next (completeWith t l.hdr st l.seq true) ∧ launchOf t u = some l' ∧ l'.stage = .terminated
    let said (r : Report) : Prop := ∃ x, x ∈ l.reports ∧ x.2.2.2 = r
    let fits : Prop := ∀ x, x ∈ namedClusters l.places →
      ∃ tr, unitTrans s l x.1 (x.2 * 16) (kernelIn l).fn none = some tr ∧ holdsTeam s l x.1 tr = true
    (l.stage = .translating →
      (said .pending → exec (.translationReport u) s = .next s) ∧
      (¬ said .pending → said .verify → refused (.translationReport u) .verify) ∧
      (¬ said .pending → ¬ said .verify → said .limit → refused (.translationReport u) .translationLimit) ∧
      (¬ said .pending → ¬ said .verify → ¬ said .limit → ¬ fits → refused (.translationReport u) .capacity) ∧
      (¬ said .pending → ¬ said .verify → ¬ said .limit → fits → (kernelIn l).coop = false → l.producer = 0 →
        exec (.translationReport u) s = .next runs_)) ∧
    (∀ p, l.stage = .waitingProducer → l.producer ≠ 0 → launchOf s l.producer = some p →
      (allTriggered p = true → exec (.dependentStart u) s = .next runs_) ∧
      (producerFailed p = true → refused (.dependentStart u) .producerFailed) ∧
      (allTriggered p = false → producerFailed p = false → exec (.dependentStart u) s = .next s)) ∧
    (∀ p, startedAt s l.hdr.q l.hdr.n = some p → p.parked = none → launchDone s l = true →
      let sr := (pktReach l.hdr.rel.toNat).toList.foldl (fun s r => applyCarries s l.ends r) s
      let retired (st : Status) (more : State → Prop) : Prop := ∃ (t : State) (l' : Launch),
        exec (.launchRetire u) s = .next (completeWith t l.hdr st l.seq true) ∧ launchOf t u = some l' ∧
        l'.stage = .retired ∧ t.mem = sr.mem ∧ more t
      (l.body.hashResult = false → retired .ok fun t => t.ctxs = s.ctxs) ∧
      (∀ bs c, l.body.hashResult = true → ctxOf s l.ctx = some c →
        readFar sr l.ctx l.body.resultBytes.toNat l.body.resultAddr.toNat = .got bs →
        retired .ok fun t => ∃ c', ctxOf t l.ctx = some c' ∧ c'.isobar.result = true ∧ c'.isobar.h =
          sha384 (c.isobar.h ++ natBytes 8 (5 + 64 * 2 ^ 32) ++ (natBytes 4 l.seq.toNat ++ List.replicate 4 0
            ++ natBytes 8 l.body.resultBytes.toNat ++ sha384 bs)))) ∧
    (∀ die cluster unit image, (die, cluster, unit, Report.pending) ∈ l.reports →
      let i : Instr := .translationComplete u die cluster unit image
      let x := codeUnit unit
      let key := keyOf s l die x
      let tells (t : State) (r : Report) : Prop := ∃ l', launchOf t u = some l' ∧
        ∀ y, y ∈ l'.reports → y.1 = die → y.2.1 = cluster → y.2.2.1 = unit → y.2.2.2 = r
      (∀ r, (verdictOf s l).1 = some r → ∃ t, exec i s = .next t ∧ tells t .verify) ∧
      ((verdictOf s l).1 = none → findTrans s key (ownerOf s l.ctx) = none →
        (∀ y, y ∈ l.press → ¬ (y.1 = die ∧ y.2.1 = cluster)) →
        (∀ n, planOf l.words (kernelIn l) die x.1 x.2 = .limit n → ∃ t, exec i s = .next t ∧ tells t .limit) ∧
        (∀ p, planOf l.words (kernelIn l) die x.1 x.2 = .ok p → 4 * image.length ≤ 1048576 →
          imageOk l.words (kernelIn l) die x.1 p image = true → (∀ e, e ∈ s.images → e.1 = key → e.2 = image) →
          ∃ t, exec i s = .next t ∧ tells t .ready ∧
            ∃ tr, tr ∈ t.trans ∧ tr.key = key ∧ tr.image = image ∧ tr.budget = p.budget ∧
              tr.spillUnits = p.spillUnits ∧ tr.owner = ownerOf s l.ctx))) ∧
    (∀ die cluster tr, (∃ e, e ∈ s.cache ∧ e.die = die ∧ e.cluster = cluster ∧ e.tr = tr ∧ e.valid = false) →
      ∃ t, exec (.translationRegenerated die cluster tr) s = .next t ∧
        t = { s with cache := t.cache, cur := t.cur, others := t.others } ∧
        (∀ e, e ∈ t.cache → e.die = die → e.cluster = cluster → e.tr = tr → e.valid = true) ∧
        (∀ g n, (g = t.cur ∨ g ∈ t.others) → g.die = die → g.core / 16 = cluster → g.native = some n → n.tr = tr →
          n.stalled = false))

/-- R365 to R369: a kick moves the index of a mapped queue, counts as ignored where it names none, and otherwise
makes its queue pending before a pass; a pass leaves the slots mapped within the two before it and changes
nothing where nothing waits; the slot of a victim is given up with its indexes written back; the Collie takes
the slots in turn and starts the next packet that may be read. -/
def Obligations.FrontEnd : Prop :=
  ∀ (s : State), s.boot = .running →
    let written (t : State) (k n x : Nat) : Prop := ∀ i, i < n → t.mem.byte (k + i) = BitVec.ofNat 8 (x / 256 ^ i)
    (∀ (q : QRef) (idx : BitVec 32),
      let ignored : Prop := exec (.kick q idx) s = .next { s with front := { s.front with
        ignoredKicks := s.front.ignoredKicks.set q.fn (s.front.ignoredKicks.getD q.fn 0 + 1) } }
      (qtOn s q.fn = false → ignored) ∧
      (∀ i, qtOn s q.fn = true → slotOf s q = some i → ∃ t z, exec (.kick q idx) s = .next t ∧
        t = { s with front := { s.front with slots := t.front.slots } } ∧ t.front.slots[i]? = some z ∧
        z.kick = idx ∧ z.q = some q ∧ ∀ j, j ≠ i → t.front.slots[j]? = s.front.slots[j]?) ∧
      (qtOn s q.fn = true → slotOf s q = none → qcbKey s q = none → ignored) ∧
      (∀ k, qtOn s q.fn = true → slotOf s q = none → qcbKey s q = some k →
        (qcbEnabled (qcbOf s k) = false → ignored) ∧
        (qcbEnabled (qcbOf s k) = true → Undamaged s →
          (pendingKey s q < k + 24 ∨ k + 28 ≤ pendingKey s q) → ∃ s' z, exec (.kick q idx) s = .next (shepherd s') ∧
            written s' (k + 24) 4 idx.toNat ∧ (s'.mem.byte (pendingKey s q)).getLsbD (q.qid % 8) = true ∧
            queueOf s' q = some z ∧ z.pendingSince ≠ none))) ∧
    (∃ t, exec .shepherdPass s = .next t ∧ t.front.pass = s.front.pass + 1 ∧
      (∀ (i : Nat) (z : Slot) (q : QRef), s.front.slots[i]? = some z → z.q = some q → s.front.pass < z.mappedPass + 1 →
        t.front.slots[i]? = some z) ∧
      ((∀ x, x ∈ s.front.queues → isPending s x.q = false) →
        t = { s with front := { s.front with pass := s.front.pass + 1 } })) ∧
    (∀ (i : Nat) (z : Slot) (q : QRef) (x c : Queue), s.front.slots[i]? = some z → z.q = some q → queueOf s q = some x →
      Undamaged s → bestCand s q.fn = some c → victimSlot s q.fn (effPrio s c.q) = some i →
      ∃ t z' x', exec (.unmap i) s = .next t ∧ t.front.slots[i]? = some z' ∧ z'.q = none ∧
        written t (x.qcb + 28) 4 x.readIdx.toNat ∧ written t (x.qcb + 24) 4 z.kick.toNat ∧
        written t (x.qcb + 2) 2 (if x.readIdx = z.kick then 0 else 2) ∧ queueOf t q = some x' ∧
        x'.pendingSince = (if x.readIdx = z.kick then none else some s.tick)) ∧
    (∀ z, s.front.slots[s.front.nextSlot]? = some z →
      let s1 := { s with front := { s.front with nextSlot := (s.front.nextSlot + 1) % 128 } }
      (z.q = none → exec .collieVisit s = .next s1) ∧
      (∀ q x k, z.q = some q → queueOf s q = some x → fnKey (x.ring + 256 * (x.readIdx.toNat % 2 ^ x.sizeLog2)) = some k →
        let p := feNat s k 256
        let lap : Nat := if x.readIdx.toNat / 2 ^ x.sizeLog2 % 2 = 0 then 0x5A else 0xA5
        let ready : Prop := x.readIdx ≠ z.kick ∧ x.faulted = false ∧ ctxServes s x.ctx = true ∧
          startUnderWay s q = false ∧ bitsOf p 2047 2040 = lap ∧
          mayRead s q (bitsOf p 2039 2032) (bitsOf p 2031 2028) = true
        (¬ ready → exec .collieVisit s = .next s1) ∧
        (∀ i, ready → decodePacket q x.readIdx.toNat p = .ok i →
          ∃ t x', exec .collieVisit s = .next t ∧ t.agenda = i :: s.agenda ∧ t.mem = s.mem ∧
            queueOf t q = some x' ∧ x'.readIdx = x.readIdx + 1 ∧
            { hdr := pktHdr q x.readIdx.toNat p, work := .begun none, parked := none } ∈ t.front.started)))

/-! ## Events: groups -/

/-- R23 to R26, R39 to R45, R85, R200, R220 to R224, R302, R303 and R345: issue opportunities and helper beats,
activation and demotion, evaluations of waits, joins, ends, stops at drain points and the ends of freezes. -/
def Obligations.Scheduling : Prop :=
  ∀ (s : State), Distinct s →
    let upright (t : State) (u : Nat) (x : Upset) : Prop := t = { s with
        cur := t.cur, others := t.others, issuing := true, upset := x } ∧ t.cur.uid = u ∧
      ∀ v, groupOf t v = groupOf s v
    (∀ die core x,
      let last := (coreOf s die core).lastAge
      let el (g : Group) : Prop := g ∈ heldGroups s ∧ eligible s die core g = true
      (coreIssues s die core = false → exec (.issueOpportunity die core x) s = .next s) ∧
      ((∀ g, ¬ el g) → exec (.issueOpportunity die core x) s = .next s) ∧
      (coreIssues s die core = true → (∃ g, el g) → ∃ t g, exec (.issueOpportunity die core x) s = .next t ∧
        el g ∧ upright t g.uid x ∧ t.cur = g ∧
        (∀ y, el y → last < y.age → last < g.age ∧ g.age ≤ y.age) ∧
        ((∀ y, el y → y.age ≤ last) → ∀ y, el y → g.age ≤ y.age))) ∧
    (∀ u g pt x, groupOf s u = some g → g.party = some pt → pt.helper ≠ 0 → pt.gone = false → g.st = .active →
      ∀ rg h r, groupOf s pt.group = some rg → pt.group ≠ u → rg.herd = some h → rangeOf h pt.thread = some r →
      (pt.release = true → pt.begun = false → cmdsBy s u = [] →
        ∃ t rg' h' r', exec (.helperBeat u x) s = .next t ∧ groupOf t u = none ∧ groupOf t pt.group = some rg' ∧
          rg'.herd = some h' ∧ rangeOf h' pt.thread = some r' ∧ r'.out = r.out - 1 ∧
          ∀ c, pt.chunk = some c → r'.rems = { chunk := c, next := pt.iter, partial_ := pt.partial_ } :: r.rems) ∧
      (¬ (pt.release = true ∧ pt.begun = false) → coreIssues s g.die g.core = true → stalledNative s g = false →
        (pt.chunk ≠ none → laneIdle s g.die g.core (helperLane pt) = true →
          ∃ t, exec (.helperBeat u x) s = .next t ∧ upright t u x) ∧
        (pt.chunk ≠ none → laneIdle s g.die g.core (helperLane pt) = false →
          exec (.helperBeat u x) s = .next s) ∧
        (∀ c i q r', pt.chunk = none → pt.release = false → r.claim = some (c, i, q, r') →
          ∃ t g' pt', exec (.helperBeat u x) s = .next t ∧ groupOf t u = some g' ∧ g'.party = some pt' ∧
            pt'.chunk = some c ∧ pt'.iter = i ∧ pt'.begun = false ∧ pt'.partial_ = q ∧
            pt'.stop = min r.hi (r.lo + (((c + 1) * r.chunk : Nat) : Int)) ∧
            g'.active = 1 ∧ g'.fmt = h.fmt ∧ g'.unit = h.fn ∧ g'.stack = []))) ∧
    (∀ u g, groupOf s u = some g →
      let on := fastOn s g.die g.core
      let may : Prop := g.st = .ready ∧ mustStop s g = false ∧ coreUsable s g.die g.core = true ∧
        (∀ x, x ∈ readyOn s g.die g.core → g.age ≤ x.age) ∧ on.length < Config.activeMax g.die ∧
        (on.map Group.bytes).sum + Group.bytes g ≤ Config.fastFile g.die
      (may → ∃ t, exec (.activation u) s = .next t ∧ 
        OneGroup s t u { g with
          st := .active, fast := true, bundles := 0, native := g.native.map fun n => { n with woken := [] } }) ∧
      (¬ may → exec (.activation u) s = .next s)) ∧
    (∀ u g, groupOf s u = some g →
      let acts := (fastOn s g.die g.core).filter fun x => x.st == .active
      let may : Prop := g.st = .active ∧ g.party = none ∧ g.herd = none ∧ 4096 ≤ g.bundles ∧ g.active ≠ 0 ∧
        readyOn s g.die g.core ≠ [] ∧ atDrain s g = true ∧
        ∀ x, x ∈ acts → x.bundles < g.bundles ∨ (x.bundles = g.bundles ∧ g.age ≤ x.age)
      (may → ∃ t, exec (.demotion u) s = .next t ∧ groupOf t u = some { g with st := .ready, fast := false } ∧
        t = { s with cur := t.cur, others := t.others } ∧
        ∀ v x, v ≠ u → groupOf s v = some x → x.party = none → groupOf t v = some x) ∧
      (¬ may → exec (.demotion u) s = .next s)) ∧
    (∀ u g, groupOf s u = some g →
      let may : Prop := g.st = .waiting ∧ g.party = none ∧ g.fast = true ∧ g.since + 256 ≤ s.cycle ∧
        g.batchesDone = g.mfences ∧ readyOn s g.die g.core ≠ []
      (may → ∃ t, exec (.waitingDemotion u) s = .next t ∧ groupOf t u = some { g with fast := false } ∧
        t = { s with cur := t.cur, others := t.others } ∧
        (∀ v x, v ≠ u → groupOf s v = some x → x.party = none → groupOf t v = some x) ∧
        (∀ v x pt b th, v ≠ u → groupOf s v = some x → x.party = some pt → pt.helper ≠ 0 →
          pt.slot = some (b, th) → pt.group = u ∨ b = u →
          ∃ x' pt', groupOf t v = some x' ∧ x'.party = some pt' ∧ pt'.release = true)) ∧
      (¬ may → exec (.waitingDemotion u) s = .next s)) ∧
    (∀ w bs s1 (first n : Nat), Running s → s.cur.st = .waiting ∨ s.cur.st = .parked → s.cur.fe = none →
      s.cur.wait = some w → w.dst = .value first n → n ≤ 1 → tokenFault s.cur w = none →
      batchFault s.cur w = none → judgeAll w w.conds.zipIdx s = (.ok bs, s1) →
      let test := if w.all then bs.all (· == true) else bs.any (· == true)
      let late := ∃ d, w.deadline = some d ∧ d ≤ s1.tick
      (test = false → ¬ late → exec (.waitEvaluation s.cur.uid) s = .next s1) ∧
      (test = true ∨ late → ∃ t, exec (.waitEvaluation s.cur.uid) s = .next t ∧ t.cur.wait = none ∧
        t.cur.off = s.cur.off + hereLen s ∧
        t.cur.st = (if (s.cur.st = .waiting ∧ s.cur.fast = true) ∨ s.cur.party.isSome = true then .active else .ready) ∧
        Gives s t true ([fun _ => (bs.zipIdx.map fun b => b.1.toNat * 2 ^ b.2).sum + if test then 0 else 16].take n))) ∧
    (∀ u g, groupOf s u = some g → g.fe = none → u ≠ s.cur.uid → g.st = .waiting ∨ g.st = .parked → ∃ t t1,
      exec (.waitEvaluation u) s = .next t ∧ exec (.waitEvaluation u) (takeUp s u) = .next t1 ∧ t.mem = t1.mem) ∧
    (∀ h, s.cur.herd = some h → s.cur.st = .active → s.cur.frames ≠ [] → s.cur.width ≤ 64 → h.phase = 2 →
      (∀ r, r ∈ h.ranges → r.out = 0) →
      (∀ th f, herdFault h = some (th, f) → ∃ t, exec (.herdJoin s.cur.uid) s = .next t ∧ t.cur.st = .halted ∧
        t.cur.herd = none ∧ t.cur.stopCode = f.trap.stop.1 ∧ t.cur.off = s.cur.off) ∧
      (herdFault h = none → h.native = false → ∃ t, exec (.herdJoin s.cur.uid) s = .next t ∧ t.cur.herd = none ∧
        t.cur.off = s.cur.off + hereLen s ∧ AcquiredAt t.cur (groupReach s s.cur 2) s.steps ∧
        ∀ j th r, j < h.nres → th < s.cur.width → s.cur.active.getLsbD th = true → rangeOf h th = some r →
          valueAt t (hereVal s + j) th = (if h.red = 0 then [countWord r] else [herdResult h r, countWord r]).getD j 0)) ∧
    (∀ u g l, groupOf s u = some g → g.party = none → g.st = .active → g.active = 0 → g.exited = fullMask g.width →
      cmdsBy s u = [] → launchOf s g.launch = some l →
      (∀ e es, tokErrs g = e :: es → ∃ t g', exec (.groupEnd u) s = .next t ∧ groupOf t u = some g' ∧
        g'.st = .halted ∧ g'.stopCode = e.trap.stop.1 ∧ g'.active = g.lastExit) ∧
      (tokErrs g = [] → g.exitDue = true → ∃ t l', exec (.groupEnd u) s = .next t ∧ groupOf t u = none ∧
        launchOf t g.launch = some l' ∧ (g.kind = .team → l'.trigs = l.trigs +
          (List.range 64).countP fun i => g.lastExit.getLsbD i && !g.trig.getLsbD i)) ∧
      (tokErrs g = [] → g.exitDue = false → ∃ t l', exec (.groupEnd u) s = .next t ∧ groupOf t u = none ∧
        (∀ v, v ≠ u → groupOf t v = groupOf s v) ∧ launchOf t g.launch = some l' ∧
        t.mem = drainStores s.steps g g.storeQ s.mem ∧
        (g.kind = .spawned → l'.dets = l.dets - 1 ∧ t.teams = s.teams) ∧
        (g.kind = .task → l'.tasks = l.tasks - g.teamIdx.length ∧ t.teams = s.teams) ∧
        (g.kind = .team → (∃ x, x ∈ heldGroups s ∧ x.uid ≠ u ∧ x.kind = .team ∧ x.team = g.team) →
          l'.ended = l.ended ∧ t.teams = s.teams) ∧
        (g.kind = .team → (∀ x, x ∈ heldGroups s → x.uid ≠ u → ¬ (x.kind = .team ∧ x.team = g.team)) →
          l'.ended = l.ended + 1 ∧ t.teams = s.teams.filter fun x => x.uid != g.team))) ∧
    (∀ u g, groupOf s u = some g → g.party = none → g.st ≠ .halted → mustStop s g = true →
      (g.st ≠ .active ∨ stopsHere s g = true) → ∃ t g', exec (.drainPointStop u) s = .next t ∧ groupOf t u = some g' ∧ g'.st = .halted ∧
        g'.stopCode = g.stopReq ∧ g'.stopReq = 0 ∧ g'.fast = false ∧ g'.frames = g.frames ∧ g'.off = g.off ∧
        g'.active = g.active ∧ (g.stopReq ≠ 3 → t.mem = s.mem)) ∧
    (∀ die core n, (coreOf s die core).frozenTo = some n →
      (s.cycle < n → exec (.freezeEnd die core) s = .next s) ∧
      (n ≤ s.cycle → ∃ t, exec (.freezeEnd die core) s = .next t ∧ t = { s with cores := t.cores } ∧
        coreOf t die core = { coreOf s die core with frozenTo := none } ∧
        ∀ d c, (d, c) ≠ (die, core) → coreOf t d c = coreOf s d c))

/-- R13, R18, R36, R37, R50, R83 and R285: the placement of a team, a pressure translation, and the forming and
starting of a task group. -/
def Obligations.Placement : Prop :=
  ∀ (s : State) (u : Nat) (l : Launch), launchOf s u = some l → l.stage = .running → (s.launches.map (·.uid)).Nodup →
    NamesFresh s → (∀ t, t ∈ s.teams → t.uid < s.nextId) →
    let k := kernelIn l
    (∀ (core : Nat) (p : Place) (tr : Trans), let die := core / 512
      let c := core % 512
      nextPlace l die (c / 16) = some p → unitTrans s l die c k.fn none = some tr → tr.image = [] →
      ctxLive s l.ctx = true →
      let need := teamNeed k tr.budget tr.spillUnits tr.barriers c
      coresServe s l.ctx die need.cores = true →
      (∀ x, x ∈ s.launches → x.arrived < l.arrived → placeable s x die (c / 16) = false) →
      (teamFits s die need true = none → exec (.teamPlacement u core) s = .next s) ∧
      (∀ off seats s0, teamFits s die need true ≠ none → ensureCached s die (c / 16) l.ctx tr = some s0 →
        teamFits s0 die need true = some (off, seats) →
        ∃ (t : State) (tm : Team) (l' : Launch), exec (.teamPlacement u core) s = .next t ∧
          t.teams = s.teams ++ [tm] ∧ tm.idx = BitVec.ofNat 32 p.first ∧ tm.size = k.team ∧ tm.die = die ∧
          tm.launch = u ∧ tm.regionOff = off ∧ tm.regionLen = k.sram ∧ tm.core = need.cores.headD 0 ∧
          tm.held.length = seats.length ∧ launchOf t u = some l' ∧ l'.placed = l.placed + 1 ∧
          (l.producer = 0 → poolBytes s die ≤ Config.sysArea die → ∀ b, coreKey die tm.core off ≤ b → b < coreKey die tm.core off + k.sram →
            t.mem.byte b = 0 ∧ (b % 8 = 0 → t.mem.isFull b = false)) ∧
          (∀ (i : Nat) (x : Nat × Nat × Nat), seats[i]? = some x → ∃ g, g ∈ t.others ∧ g.st = .ready ∧
            g.core = x.1 ∧ g.slot = x.2.1 ∧ g.spillOff = x.2.2 ∧ g.gidx = BitVec.ofNat 16 i ∧ g.team = tm.uid ∧
            g.width = k.width ∧ g.active = fullMask k.width ∧ g.fmt = 4 ∧ g.unit = k.fn))) ∧
    (∀ die cluster p tr b core, nextPlace l die cluster = some p → unitTrans s l die (cluster * 16) k.fn none = some tr →
      (∀ i, i < 16 → groupsOf s u die (cluster * 16 + i) < k.minGroups) →
      (∀ x, x ∈ l.press → ¬ (x.1 = die ∧ x.2.1 = cluster)) → pressBudget s l die cluster tr = some (b, core) →
      (l.waitedLong die cluster s.cycle = false → exec (.pressureTranslation u die cluster) s = .next s) ∧
      (l.waitedLong die cluster s.cycle = true → ∃ t l', exec (.pressureTranslation u die cluster) s = .next t ∧
        t = { s with free := s.free + 1, launches := t.launches } ∧ launchOf t u = some l' ∧
        l'.press = (die, cluster, b, core) :: l.press ∧
        b < tr.budget ∧ b % 8 = 0 ∧ l'.trs = l.trs ∧ (die, cluster, unitCode (k.fn, b), Report.pending) ∈ l'.reports ∧
        ∀ x, x ∈ l'.reports → x.1 = die → x.2.1 = cluster → x.2.2.2 = .pending)) ∧
    (∀ die core fn,
      let mine (t : Task) : Prop := t.launch = u ∧ t.die = die ∧ t.core = core ∧ t.fn = fn
      let recs := (s.tasks.filter fun t => t.launch == u && t.die == die && t.core == core && t.fn == fn)
      (recs = [] → exec (.taskGroupForm u die core fn) s = .next s) ∧
      (∀ r rs, recs = r :: rs → k.width ≠ 0 →
        let due : Prop := k.width ≤ recs.length ∨ r.at_ + 256 ≤ s.cycle
        (¬ due → exec (.taskGroupForm u die core fn) s = .next s) ∧
        (due → ∃ t x, exec (.taskGroupForm u die core fn) s = .next t ∧
          t = { s with tasks := t.tasks, taskGroups := s.taskGroups ++ [x], nextId := s.nextId + 1 } ∧
          x.recs = recs.take k.width ∧ x.uid = s.nextId ∧
          ∀ y, y ∈ t.tasks ↔ (y ∈ s.tasks ∧ ¬ mine y) ∨ y ∈ recs.drop k.width))) ∧
    (∀ (x : TaskGroup) (r : Task), (s.taskGroups.find? fun t => t.uid == x.uid) = some x → x.recs.head? = some r →
      r.launch = u → taskFirst s x = true → ctxLive s l.ctx = true →
      (∀ tr, unitTrans s l r.die r.core r.fn (some r.budget) = some tr → tr.image = []) →
      (detachedSeat s l r.die r.core r.fn (some r.budget) = none → exec (.taskGroupStart x.uid) s = .next s) ∧
      (∀ slot off, detachedSeat s l r.die r.core r.fn (some r.budget) = some (slot, off) →
        ∃ (t : State) (g : Group), exec (.taskGroupStart x.uid) s = .next t ∧ groupOf t s.nextId = some g ∧
          t.taskGroups = (s.taskGroups.filter fun y => y.uid != x.uid) ∧
          g.st = .ready ∧ g.kind = .task ∧ g.die = r.die ∧ g.core = r.core ∧ g.slot = slot ∧ g.spillOff = off ∧
          g.launch = u ∧ g.unit = r.fn ∧ g.gidx = 0xFFFF ∧ g.teamIdx = x.recs.map (·.teamIdx) ∧ g.fmt = 4 ∧
          (∀ i, g.active.getLsbD i = decide (i < x.recs.length ∧ i < 64)) ∧
          ∀ (i j : Nat) (q : Task), x.recs[i]? = some q → j < (fnParams l.words r.fn).length →
            getLane (valLanes g j) i = if j = 0 then q.p else q.args.getD (j - 1) 0))

/-! ## Events: completions -/

/-- R70 to R72, R107, R198 to R200, R243 to R245 and R300: what becomes of engine commands, matrix batches,
operations of variable latency, stores on their way and the random-bit queue. -/
def Obligations.Completions : Prop :=
  ∀ (s : State), Distinct s →
    (∀ u c, cmdOf s u = some c → coreFrozen s c.die c.core = true → ∀ us, exec (.tokenComplete u us) s = .next s) ∧
    (∀ u c us, cmdOf s u = some c → coreFrozen s c.die c.core = false →
      let w := us.foldl (fun x n => workUnit x u n) s
      (∀ c', cmdOf w u = some c' → cmdFinished w c' = false → exec (.tokenComplete u us) s = .next w) ∧
      (∀ c' g cn g0 old, cmdOf w u = some c' → cmdFinished w c' = true → c'.by_ = .group g cn → groupOf w g = some g0 →
        g0.party = none → g0.ctrs[cn]? = some old →
        ∃ t g', exec (.tokenComplete u us) s = .next t ∧ cmdOf t u = none ∧ t.mem.bytes = w.mem.bytes ∧
          groupOf t g = some g' ∧ (∀ k, k ≠ cn → g'.ctrs[k]? = g0.ctrs[k]?) ∧
          (c'.err = none → g'.ctrs[cn]? = some { old with done := old.issued }) ∧
          (∀ T, c'.err = some T → g'.ctrs[cn]? = some { old with
            done := old.issued,
            errs := { seq := old.issued, trap := T, ppc := c'.ppc, cmd := u, iter := c'.iter } :: old.errs }))) ∧
    (∀ u g mism, groupOf s u = some g →
      let ran (j : MmaJob) (g' : Group) : Prop :=
        g'.jobs = ((g.jobs.filter fun x => x.no != j.no).map fun x =>
          if x.cFrom = some j.no then { x with c := j.result j.c, cFrom := none } else x) ∧
        (∀ f, g'.frames[g.frames.length - j.depth]? = some f → assocGet j.dst f.tiles = some (j.result j.c))
      (coreFrozen s g.die g.core = true → exec (.batchComplete u mism) s = .next s) ∧
      (coreFrozen s g.die g.core = false → g.batchesDone = g.mfences → openJobs g = [] →
        ∃ t, exec (.batchComplete u mism) s = .next t ∧ t = { s with cur := t.cur, others := t.others } ∧
          ∀ v, groupOf t v = groupOf s v) ∧
      (∀ j js, coreFrozen s g.die g.core = false → g.batchesDone = g.mfences → openJobs g = j :: js →
        j.tbf = false → mism.count j.no = 0 → (∀ x, x ∈ g.jobs → x.no = j.no → x = j) →
          ∃ t g', exec (.batchComplete u mism) s = .next t ∧ groupOf t u = some g' ∧ t.mem = s.mem ∧
            g'.batchesDone = g.batchesDone ∧ ran j g' ∧ ∀ v, v ≠ u → groupOf t v = groupOf s v) ∧
      (coreFrozen s g.die g.core = false → g.batchesDone ≠ g.mfences → (∀ j, j ∈ g.jobs → j.failed = false) →
        ∀ j, (g.jobs.filter fun x => x.batch == some (g.batchesDone + 1)) = [j] → j.tbf = false → mism.count j.no = 0 →
          (∀ x, x ∈ g.jobs → x.no = j.no → x = j) →
          ∃ t g', exec (.batchComplete u mism) s = .next t ∧ groupOf t u = some g' ∧ t.mem = s.mem ∧
            g'.batchesDone ≠ g.batchesDone ∧ ran j g' ∧ ∀ v, v ≠ u → groupOf t v = groupOf s v)) ∧
    (∀ u g n op v, groupOf s u = some g → coreFrozen s g.die g.core = false → g.native = some n →
      n.var[op]? = some v → n.flags.length = 12 → v.flag < 12 →
      ∃ t g' n', exec (.variableLatencyComplete u op) s = .next t ∧ groupOf t u = some g' ∧ g'.native = some n' ∧
        t = { s with cur := t.cur, others := t.others } ∧ n'.var = n.var.eraseIdx op ∧
        n'.flags[v.flag]? = (n.flags[v.flag]?).map (· - 1) ∧
        (∀ k, k ≠ v.flag → n'.flags[k]? = n.flags[k]?) ∧ n'.pend = n.pend ∧
        (∀ cl i m xs, v.dsts = [(.v cl i false, m, xs)] → n.clmode = 0 ∨ n.clmode.getLsbD cl = true → ∀ th, th < g.width →
          ((vregGet n' cl i)[th]?).getD 0 =
            if m.getLsbD th then loWord (getLane xs th) else ((vregGet n cl i)[th]?).getD 0) ∧
        ∀ w, w ≠ u → groupOf t w = groupOf s w) ∧
    (∀ u g, groupOf s u = some g →
      (g.storeQ = [] → exec (.storeLeavesQueue u) s = .next s) ∧
      (∀ q qs, g.storeQ = q :: qs → ∃ t, exec (.storeLeavesQueue u) s = .next t ∧
        groupOf t u = some { g with storeQ := qs } ∧ (∀ v, v ≠ u → groupOf t v = groupOf s v) ∧
        (Undamaged s → (∀ b, b ∈ q.bytes → ∀ b', b' ∈ q.bytes → b.1 = b'.1 → b = b') →
          (∀ b, b ∈ q.bytes → t.mem.byte b.1 = b.2) ∧
          (∀ a, (∀ b, b ∈ q.bytes → b.1 ≠ a) → t.mem.byte a = s.mem.byte a) ∧
          ∃ hs st, t.mem.hist = hs ++ [st] ∧ hs.length = s.mem.hist.length ∧ (q.carries = [] → hs = s.mem.hist) ∧
            st.id = q.id ∧ st.grp = u ∧ st.seenBy (coreObs g) = true))) ∧
    (∀ id o, ∃ t, exec (.storeBecomesVisible id o) s = .next t ∧ t = { s with mem := { s.mem with hist := t.mem.hist } } ∧
      t.mem.hist.length = s.mem.hist.length ∧
      (∀ (i : Nat) (a b : Store), s.mem.hist[i]? = some a → t.mem.hist[i]? = some b →
        b = { a with seen := b.seen } ∧ (a.id = id → b.seenBy o = true) ∧
        (∀ p, a.seenBy p = true → b.seenBy p = true) ∧
        (∀ p, p ≠ o → b.seenBy p = a.seenBy p))) ∧
    (∀ u g, groupOf s u = some g → ∃ t g', exec (.randomBitQueueRefill u) s = .next t ∧ groupOf t u = some g' ∧
      t = { s with cur := t.cur, others := t.others } ∧ (∀ v, v ≠ u → groupOf t v = groupOf s v) ∧
      (8 ≤ g.rq.length → g' = g) ∧
      (g.rq.length < 8 → g' = { g with rq := g.rq ++ [(genRun 16 g.gen).1], gen := (genRun 16 g.gen).2 } ∧
        (genRun 16 g.gen).1.length = 16))

/-! ## Events: faults, the watchdog and repairs -/

/-- R383 to R387: a flush ends the generation, empties the TLBs of its die, replays what is parked and gives up
what the kills name; a kill waits in a queue of 64; a response of the host replays or fails the lines of its
request; an invalidation takes the entries that meet its range out of every TLB. -/
def Obligations.FarFaults : Prop :=
  ∀ (s : State), s.boot = .running → Distinct s → (s.cmds.map (·.uid)).Nodup →
    (∀ die, die < 8 → die < s.dies.length → (dieAt s die).busy = false →
      (∃ t, exec (.flush die) s = .next t ∧ (dieAt t die).gen = (dieAt s die).gen + 1 ∧ (dieAt t die).kills = [] ∧
        (dieAt t die).killOvf = false ∧ (dieAt t die).busy = false ∧ (dieAt t die).fbRead = (dieAt s die).fbWrite ∧
        ∀ l, l ∈ linesOn s die → l.wait = false → (dieAt s die).kills.contains (l.ctx, l.page) = true →
          ∃ c', cmdOf t l.who = some c' ∧ c'.err ≠ none) ∧
      (linesOn s die = [] → frontPages s = [] → s.front.starting = [] → s.front.killed = [] →
        (∀ p, p ∈ s.front.started → p.parked = none) →
        ∃ t, exec (.flush die) s = .next t ∧ t = { s with dies := t.dies } ∧ (dieAt t die).tlb = [] ∧
          ∀ d, d ≠ die → t.dies[d]? = s.dies[d]?)) ∧
    (∀ die ctx, die < s.dies.length → ∃ t, exec (.killCtx die ctx) s = .next t ∧ t = { s with dies := t.dies } ∧
      ((dieAt s die).kills.length < 64 → (dieAt t die).kills =
        (dieAt s die).kills ++ [(ctx.toNat, (dieAt s die).killVa.toNat / 4096 % 2 ^ 45)]) ∧
      (64 ≤ (dieAt s die).kills.length → (dieAt t die).kills = (dieAt s die).kills ∧ (dieAt t die).killOvf = true) ∧
      ∀ d, d ≠ die → t.dies[d]? = s.dies[d]?) ∧
    (∀ req ok, req ≠ 0 →
      let lines := (List.range 8).flatMap fun d => (linesOn s d).filter fun l => l.pri == some req
      (lines = [] → exec (.priResponse req ok) s = .next s) ∧
      (∀ l, lines = [l] → l.wait = false →
        (ok = true → exec (.priResponse req ok) s = .next (workUnit (unpark s l) l.who l.unit)) ∧
        (ok = false → ∃ t c', exec (.priResponse req ok) s = .next t ∧ cmdOf t l.who = some c' ∧ c'.err ≠ none ∧
          ∀ p, p ∈ c'.parked → ¬ (p.unit = l.unit ∧ p.order = l.order)))) ∧
    (∀ pasid page len, ∃ t, exec (.atsInvalidation pasid page len) s = .next t ∧ t = { s with dies := t.dies } ∧
      t.dies.length = s.dies.length ∧
      ∀ (i : Nat) (a b : Die), s.dies[i]? = some a → t.dies[i]? = some b → b = { a with tlb := b.tlb } ∧
        ∀ e, e ∈ b.tlb ↔ e ∈ a.tlb ∧ ¬ ((∃ c, c ∈ s.ctxs ∧ c.id = e.ctx ∧ c.pasidEn = true ∧ c.pasid = pasid) ∧
          e.page < page * 4096 + len ∧ page * 4096 < e.page + e.size))

/-- R44 to R46, R373, R374 and R415 to R417: the watchdog's check, its freeze and the end of a context's
launches; the illegal states of a scheduler and its repair.

R405, R410 and R418: the patrol scrubber corrects a line's single-bit errors or poisons the line; an
injection makes a word's check bits those of its data with the mask applied, or is refused. -/
def Obligations.WatchdogAndRepairs : Prop :=
  (∀ (s : State), s.boot = .running → Distinct s →
     (s.tick < s.nextWatch → exec .watchdogCheck s = .next s) ∧
     (s.nextWatch ≤ s.tick →
       ((∀ l, l ∈ s.launches → overTime s l = false) →
         exec .watchdogCheck s = .next { s with nextWatch := (s.tick / 100 + 1) * 100 }) ∧
       ∃ t, exec .watchdogCheck s = .next t ∧ t.nextWatch = (s.tick / 100 + 1) * 100 ∧
         ∀ l, l ∈ s.launches → overTime s l = true →
           (∃ l', l' ∈ t.launches ∧ l'.uid = l.uid ∧ l'.seq = l.seq ∧ l'.fired = true) ∧
           ∀ c, ctxOf s l.ctx = some c → c.st = .loaded ∨ c.st = .saving →
             ∃ c', ctxOf t l.ctx = some c' ∧ c'.firedAt ≠ none ∧ (c.firedAt = none → c'.st = .loaded)) ∧
     (∀ u g c n, groupOf s u = some g → g.party = none → g.st ≠ .halted → ctxOf s g.ctx = some c → c.firedAt = some n →
       (s.cycle < n + 65536 → exec (.watchdogFreeze u) s = .next s) ∧
       (n + 65536 ≤ s.cycle → ∃ t g', exec (.watchdogFreeze u) s = .next t ∧ groupOf t u = some g' ∧
         g'.st = .halted ∧ g'.frozen = true ∧ g'.stopCode = 5 ∧ g'.frames = g.frames ∧ g'.off = g.off ∧
         g'.active = g.active ∧ t.mem = s.mem)) ∧
     (∀ c x, ctxOf s c = some x → x.firedAt ≠ none →
       ((∃ g, g ∈ heldGroups s ∧ g.ctx = c ∧ g.party = none ∧ g.st ≠ .halted) →
         exec (.watchdogTerminate c) s = .next s) ∧
       ((∀ g, g ∈ heldGroups s → g.ctx = c → g.party = none ∧ g.st = .halted) →
         ∃ t x', exec (.watchdogTerminate c) s = .next t ∧ ctxOf t c = some x' ∧ x'.st = .faulted ∧
           (∀ g, g ∈ heldGroups t → g.ctx ≠ c) ∧ (∀ m, m ∈ t.teams → m.ctx ≠ c) ∧
           (∀ l, l ∈ t.launches → l.ctx = c → l.stage = .retired ∨ l.stage = .terminated) ∧
           (∀ k, k ∈ t.cmds → k.ctx = c → ∃ q n, k.by_ = .packet q n) ∧
           ∀ q, q ∈ t.front.queues → q.ctx = c → q.qcb ≠ 0 → q.faulted = true ∧
             ((∀ (i j : Nat) (a b : Slot), s.front.slots[i]? = some a → s.front.slots[j]? = some b → a.q = some q.q →
               b.q = some q.q → i = j) → slotOf t q.q = none))) ∧
     (∀ die cluster, cluster < Config.clustersOf die → (clusterOf s die cluster).offline = false →
       let again : Prop := ∃ n, (clusterOf s die cluster).lastIllegal = some n ∧ s.tick < n + 100000
       (¬ again → ∃ t, exec (.schedulerIllegalState die cluster) s = .next t ∧ t = { s with clusters := t.clusters } ∧
         (clusterOf t die cluster).illegal = true ∧ (clusterOf t die cluster).lastIllegal = some s.tick ∧
         (clusterOf t die cluster).offline = false ∧
         ∀ d c, (d, c) ≠ (die, cluster) → clusterOf t d c = clusterOf s d c) ∧
       (again → ∃ t, exec (.schedulerIllegalState die cluster) s = .next t ∧ (clusterOf t die cluster).offline = true ∧
         t.field.writing ≠ none ∧ 0 ∈ t.rel.msix ∧
         ∀ g, g ∈ heldGroups s → g.die = die → g.core / 16 = cluster → g.party = none →
           (∃ g', groupOf t g.uid = some g' ∧ g'.st = .halted) ∧
           ∀ c, ctxOf s g.ctx = some c → ∃ c', ctxOf t g.ctx = some c' ∧ c'.st = .faulted)) ∧
     (∀ die cluster,
       ((clusterOf s die cluster).illegal = false → exec (.schedulerRebuilt die cluster) s = .next s) ∧
       ((clusterOf s die cluster).illegal = true → ∃ t, exec (.schedulerRebuilt die cluster) s = .next t ∧
         (clusterOf t die cluster).illegal = false ∧ t.cur = s.cur ∧ t.others = s.others ∧
         ∀ row, s.field.life.errors[die]? = some row → 7 ≤ row.length →
           ((t.field.life.errors.getD die []).getD 6 0) = row.getD 6 0 + 1))) ∧
  (∀ (s : State), s.boot = .running →
     (∀ die line, die < 8 → 64 * line < Config.dramBytes →
       let k := targetKey die (64 * line)
       let ws := damageIn s k 64
       (ws = [] → exec (.patrolScrub die line) s = .next s) ∧
       (ws ≠ [] → ∃ t, exec (.patrolScrub die line) s = .next t ∧ damageIn t k 64 = [] ∧
         t.cur = s.cur ∧ t.others = s.others ∧
         (s.rel.errBase = 0 → t.mem = { s.mem with damage := t.mem.damage } ∧
           (∀ w, w ∈ t.mem.damage.words ↔ w ∈ s.mem.damage.words ∧ w ∉ ws) ∧
           ((∀ w, w ∈ ws → dead w.2 = false) → t.mem.damage.poison = s.mem.damage.poison) ∧
           ((∃ w, w ∈ ws ∧ dead w.2 = true) → k ∈ t.mem.damage.poison ∧
             ∀ l, l ≠ k → (l ∈ t.mem.damage.poison ↔ l ∈ s.mem.damage.poison))))) ∧
     (let word := injWord s.rel.injAddr.toNat
      let refused : State := { s with rel := { s.rel with injRefused := true, injDone := false } }
      (word = none → exec .errinjGo s = .next refused) ∧
      (∀ k, word = some k →
        (s.conf.errinj = false ∨ s.rel.injReserved = true ∨ inConfidential s k = true →
          exec .errinjGo s = .next refused) ∧
        (s.conf.errinj = true → s.rel.injReserved = false → inConfidential s k = false → ∃ t, exec .errinjGo s = .next t ∧
          t.rel = { s.rel with injRefused := false, injDone := true } ∧
          t.mem = { s.mem with damage := t.mem.damage } ∧ t = { s with rel := t.rel, mem := t.mem } ∧
          (∀ x, (k, x) ∈ t.mem.damage.words ↔ x = s.rel.injXor ∧ x ≠ 0) ∧
          ∀ j x, j ≠ k → ((j, x) ∈ t.mem.damage.words ↔ (j, x) ∈ s.mem.damage.words)))))

/-! ## Events: contexts and firmware -/

/-- R399 to R404 and R413: SUSPEND and UNLOAD begin the save of a loaded context and answer every other with its
RESULT; the save itself; RESUME of a saved context; the staging and the activation of firmware. -/
def Obligations.ContextSwitch : Prop :=
  ∀ (s : State), s.boot = .running → Distinct s →
    let result (t : State) (n : Nat) : Prop := t.front.ctxStatus = BitVec.ofNat 64 (n * 256)
    (∀ c mig i, (i = .suspend c mig ∨ i = .unload c mig) → ctlBusy s = true → exec i s = .next s) ∧
    (ctlBusy s = false → ∀ c mig,
      let answers (i : Instr) (n : Nat) : Prop := ∃ t, exec i s = .next t ∧ result t n ∧ t = { s with front := t.front }
      let all (p : Instr → Prop) : Prop := p (.suspend c mig) ∧ p (.unload c mig)
      let saves (i : Instr) (unload : Bool) : Prop := ∃ t x', exec i s = .next t ∧ t.front.ctxStatus = 1 ∧
        ctxOf t c = some x' ∧ x'.st = .saving ∧ x'.saveUnload = unload ∧ x'.saveMig = mig ∧ t.mem = s.mem ∧
        t.front.ctxOp.toNat % 2 ^ 32 = c % 2 ^ 32
      (ctxOf s c = none → all (answers · 1)) ∧
      (∀ x, ctxOf s c = some x →
        (x.st = .unloaded → all (answers · 1)) ∧
        (x.st = .faulted → all (answers · 4)) ∧
        (x.st = .loaded → x.firedAt ≠ none → all (answers · 4)) ∧
        (x.st = .loaded → x.firedAt = none → saves (.suspend c mig) false ∧ saves (.unload c mig) true) ∧
        (x.st = .saved → answers (.suspend c mig) 1 ∧ (x.saveUnload = true → answers (.unload c mig) 1) ∧
          (x.saveUnload = false → saves (.unload c mig) true)))) ∧
    (∀ c x, ctxOf s c = some x →
      (x.st ≠ .saving ∨ saveReady s c = false → exec (.contextSave c) s = .next s) ∧
      (∀ c1 t0, x.st = .saving → saveReady s c = true → s.fw.pending = false →
        ctxOf (gather s x) c = some c1 → writeSave (gather s x) c1 x.saveUnload = some t0 →
        ∃ t x', exec (.contextSave c) s = .next t ∧ ctxOf t c = some x' ∧ x'.st = .saved ∧
          (ctlAbout s c = true → result t 0) ∧
          (x.saveUnload = true → x'.slices = [] ∧ x'.windows = []) ∧
          (x.saveUnload = false → x'.slices = x.slices ∧ x'.windows = x.windows) ∧
          x'.savedLayout = s.fw.layout ∧ x'.savedXlat = s.fw.xlat ∧
          (∀ g, g ∈ heldGroups t → g.ctx ≠ c) ∧
          (∀ g, g ∈ heldGroups s → g.ctx = c → ∃ g', g' ∈ x'.savedGroups ∧ g'.uid = g.uid ∧ g'.frames = g.frames ∧
            g'.active = g.active ∧ g'.off = g.off ∧ g'.stack = g.stack ∧ g'.fmt = g.fmt ∧ g'.gen = g.gen ∧
            g'.native = g.native ∧ g'.storeQ = []))) ∧
    (ctlBusy s = false → s.fw.suspended = [] → ∀ c,
      let answers (n : Nat) : Prop := ∃ t, exec (.resume c) s = .next t ∧ result t n
      (ctxOf s c = none → answers 1) ∧
      (∀ x, ctxOf s c = some x → (x.st = .unloaded ∨ x.st = .loaded ∨ x.st = .saving → answers 1) ∧
        (x.st = .faulted → answers 4) ∧
        (x.st = .saved → c < 2 ^ 32 → restoreFailed s c = false →
          (x.savedLayout ≠ s.fw.layout → x.savedLayout + 1 ≠ s.fw.layout → answers 2) ∧
          (x.savedLayout = s.fw.layout → (∀ q, q ∈ s.front.queues → q.ctx ≠ c) → answers 1) ∧
          (∀ qu s1 x1, x.savedLayout = s.fw.layout → (s.front.queues.find? fun q => q.ctx == c) = some qu →
            loadCtx (modCtx (ctlStart s 3 c false) c fun x => { x with st := .unloaded }) qu = (.ok, s1) →
            ctxOf s1 c = some x1 → x.savedTeams = [] → x.savedWindows = [] →
            (x.savedGroups = [] → ∃ t x', exec (.resume c) s = .next t ∧ result t 0 ∧ ctxOf t c = some x' ∧
              x'.st = .loaded ∧ t.tasks = s.tasks ++ x.savedRecs.map (movedTask x x1.slices)) ∧
            (∀ g die core l tr slot off, x.savedGroups = [g] → g.kind = .spawned → g.party = none → g.native = none →
              g.spillLen = 0 → (∀ h, h ∈ heldGroups s → h.uid ≠ g.uid) →
              movedCore x.savedSlices x1.slices g.die g.core = some (die, core) → launchOf s1 g.launch = some l →
              recTrans s1 g = some tr → cached s1 die (core / 16) tr.uid = true →
              seatSaved s1 die core g.budget g.width g.tilesHeld 0 = some (slot, off) →
              ∃ t g', exec (.resume c) s = .next t ∧ result t 0 ∧ groupOf t g.uid = some g' ∧
                g'.die = die ∧ g'.core = core ∧ g'.slot = slot ∧ g'.frames = g.frames ∧ g'.off = g.off ∧
                g'.active = g.active ∧ g'.stack = g.stack ∧ g'.fmt = g.fmt ∧ g'.gen = g.gen ∧
                AcquiredAt g' .package s1.steps ∧
                g'.st = (if g.st = .active ∨ (g.st = .halted ∧ g.stopCode = 0) then .ready else g.st)))))) ∧
    (∀ f, exec (.firmwareUpdate f) s = .next { s with fw := { s.fw with staged := some f } }) ∧
    (s.fw.staged = none → exec .activateFirmware s = .next s) ∧
    (∀ f, s.fw.staged = some f → s.fw.pending = false →
      ((∀ c, c ∈ s.ctxs → c.st ≠ .loaded ∧ c.st ≠ .saving) → ∃ t, exec .activateFirmware s = .next t ∧
        t = { s with fw := t.fw } ∧ t.fw.pending = false ∧
        (stagedBar s f = none → t.fw.version = f.version ∧ t.fw.xlat = f.xlat ∧ t.fw.layout = f.layout ∧
          t.fw.staged = none ∧ t.fw.outcome = 1) ∧
        (∀ n, stagedBar s f = some n → t.fw.version = s.fw.version ∧ t.fw.xlat = s.fw.xlat ∧
          t.fw.layout = s.fw.layout ∧ t.fw.staged = some f ∧ t.fw.outcome = n)) ∧
      (∀ c, c ∈ s.ctxs → c.st = .loaded → (s.ctxs.map (·.id)).Nodup → ∃ t, exec .activateFirmware s = .next t ∧
        t.fw.pending = true ∧ c.id ∈ t.fw.suspended ∧ t.fw.version = s.fw.version ∧
        ∀ x, x ∈ s.ctxs → x.st = .loaded → ∃ x', ctxOf t x.id = some x' ∧ x'.st = .saving ∧ x'.saveUnload = false))

/-! ## Events: field life, power and samples -/

/-- R419 to R425: the lifetime record and its banks, the histograms of a powered second, the ageing measurement,
dumps and the reads of the management controller. -/
def Obligations.FieldLife : Prop :=
  ∀ (s : State), s.boot = .running →
    let f := s.field
    let life (t : State) (l : Life) : Prop := t = { s with field := { f with life := l } }
    let one (i : Nat) (xs : List Nat) (b : Nat) : Prop := xs[i]? = some b
    (∃ t, exec .lifetimeWrite s = .next t ∧ t = { s with field := { f with life := t.field.life, banks := t.field.banks } } ∧
      t.field.life = { f.life with seq := f.life.seq + 1 } ∧
      (∀ i, i ≠ (f.life.seq + 1) % 2 → t.field.banks[i]? = f.banks[i]?) ∧
      (f.banks.length = 2 → t.field.banks[(f.life.seq + 1) % 2]? = some (lifeBytes t.field.life) ∧
        bankOk (lifeBytes t.field.life) = true)) ∧
    (∀ temps volts, ∃ (t : State) (l : Life), exec (.histogramSecond temps volts) s = .next t ∧ life t l ∧
      l = { f.life with poweredS := l.poweredS, temp := l.temp, volt := l.volt } ∧
      (f.life.poweredS < 2 ^ 64 - 1 → l.poweredS = f.life.poweredS + 1) ∧
      (∀ (i : Nat) (old : List Nat), f.life.temp[i]? = some old → old.length = 16 → ∃ new, l.temp[i]? = some new ∧
        let c := temps.getD i 0
        let bin := if c < 25 then 0 else if 95 ≤ c then 15 else (c - 20) / 5
        ∀ j b, one j old b → one j new (if j = bin ∧ b < 2 ^ 32 - 1 then b + 1 else min b (if j = bin then 2 ^ 32 - 1 else b))) ∧
      (∀ (i : Nat) (old : List Nat), f.life.volt[i]? = some old → old.length = 8 → ∃ new, l.volt[i]? = some new ∧
        let v := volts.getD i 0
        let bin := if v < 650 then 0 else if 950 ≤ v then 7 else (v - 600) / 50
        ∀ j b, one j old b → one j new (if j = bin ∧ b < 2 ^ 32 - 1 then b + 1 else min b (if j = bin then 2 ^ 32 - 1 else b)))) ∧
    (∀ khz, ∃ t, exec (.ageingMeasure khz) s = .next t ∧
      t = { s with field := { f with life := t.field.life, eolEvents := t.field.eolEvents } } ∧
      t.field.life = { f.life with ageing := t.field.life.ageing } ∧ t.field.life.ageing.length = 16 ∧
      ∀ i a, t.field.life.ageing[i]? = some a →
        let f0 := Config.f0Khz i
        let now := khz.getD i 0
        let d := if f0 ≤ now then 0 else (f0 - now) * 1000000 / f0
        a.f0 = f0 ∧ a.f = now ∧ a.ppm = d ∧
        (d = 0 ∨ f.life.poweredS = 0 → a.eol = 0xFFFFFFFF) ∧
        (50000 ≤ d → f.life.poweredS ≠ 0 → a.eol = 0) ∧
        (0 < d → d < 50000 → f.life.poweredS ≠ 0 →
          a.eol = min ((50000 - d) * f.life.poweredS / (3600 * d)) 0xFFFFFEFF) ∧
        (∀ old, f.life.ageing[i]? = some old → 8760 ≤ old.eol → a.eol < 8760 → i ∈ t.field.eolEvents)) ∧
    (∀ i trigger, (i = .dumpGo ∧ trigger = 2) ∨ (i = .dumpRequest ∧ trigger = 3) →
      (f.writing = none → ∃ t b, exec i s = .next t ∧ t.field.writing = some b ∧ t.field.done = false ∧
        t = { s with free := t.free, field := { f with writing := some b, done := false } } ∧
        b.take 8 = natBytes 4 0x50444B42 ++ natBytes 4 trigger ∧ (b.drop 8).take 8 = natBytes 8 (s.tick % 2 ^ 64) ∧
        (b.drop 16).take 8 = natBytes 8 b.length) ∧
      (f.writing ≠ none → exec i s = .next { s with field := { f with ignored := min (f.ignored + 1) 65535 } })) ∧
    (f.writing = none → exec .dumpComplete s = .next s) ∧
    (∀ b, f.writing = some b → exec .dumpComplete s = .next { s with field := { f with
      dump := b, writing := none, dumpBytes := b.length, done := true } }) ∧
    (∀ dump off len, ∃ x, exec (.mctpRead dump off len) s = .next { s with field := { f with mctp := x :: f.mctp } } ∧
      x.length ≤ 1024 ∧ ∀ i, i < min len 1024 → x[i]? = (if dump then f.dump else lastBank s)[off + i]?)

/-- R351 to R354 and R426 to R428: the power limit, the steering of island clocks and the firing of a stall
sampler. -/
def Obligations.PowerAndSamples : Prop :=
  ∀ (s : State), s.boot = .running →
    (∀ w, (w ≤ s.conf.powerW → exec (.powerMeasure w) s = .next { s with power := { s.power with overLimit := false } }) ∧
      (s.conf.powerW < w → ∃ t, exec (.powerMeasure w) s = .next t ∧
        t = { s with free := t.free, power := { s.power with khz := t.power.khz, overLimit := true } } ∧
        t.power.khz.length = s.power.khz.length ∧
        ∀ (i a b : Nat), s.power.khz[i]? = some a → t.power.khz[i]? = some b →
          (600000 < a → 600000 ≤ b ∧ b < a) ∧ (a ≤ 600000 → b = a))) ∧
    (∀ fracs, s.conf.steer = false → exec (.steerInterval fracs) s = .next s) ∧
    (∀ fracs : List (Nat × Nat), s.conf.steer = true →
      let held (i : Nat) (x : Nat × Nat) : Prop := i < 16 ∧ fracs[i]? = some x ∧ x.2 ≠ 0
      ((∀ i x, ¬ held i x) → exec (.steerInterval fracs) s = .next { s with power := { s.power with lowest := none } }) ∧
      ((∃ i x, held i x) → ∃ t lo hi x y, exec (.steerInterval fracs) s = .next t ∧
        t = { s with power := { s.power with khz := t.power.khz, lowest := some lo } } ∧ held lo x ∧ held hi y ∧
        (∀ i z, held i z → x.1 * z.2 ≤ z.1 * x.2 ∧ z.1 * y.2 ≤ y.1 * z.2) ∧
        (s.power.lowest = some lo → 8 * x.1 * y.2 + x.2 * y.2 ≤ 8 * y.1 * x.2 → lo ≠ hi →
          ∀ (i a : Nat), s.power.khz[i]? = some a → t.power.khz[i]? = some
            (if i = lo then min (max (a + 25000) 600000) 2100000
             else if i = hi then min (max (a - 25000) 600000) 2100000 else a)) ∧
        (¬ (s.power.lowest = some lo ∧ 8 * x.1 * y.2 + x.2 * y.2 ≤ 8 * y.1 * x.2) → t.power.khz = s.power.khz))) ∧
    (∀ die core ctx x c, (s.samplers.find? fun x => x.die == die && x.core == core && x.ctx == ctx) = some x →
      ctxOf s ctx = some c →
      let p := c.debugCtl.toNat / 2 ^ 20 % 2 ^ 20
      let limit := c.debugCtl.toNat / 2 ^ 40
      let due : Prop := c.debugCtl.getLsbD 2 = true ∧ x.start + x.fired * p ≤ s.cycle ∧ (limit = 0 ∨ x.fired < limit)
      let next (t : State) (last : Option Nat) : Prop :=
        { x with fired := x.fired + 1, last } ∈ t.samplers ∧ t.samplers.length = s.samplers.length
      let gs := heldSlots s die core ctx
      (¬ due → exec (.sampleFiring die core ctx) s = .next s) ∧
      (due → gs = [] → ∃ t, exec (.sampleFiring die core ctx) s = .next t ∧ t = { s with samplers := t.samplers } ∧
        next t x.last) ∧
      (due → ∀ g, nextSample gs x.last = some g → ∃ t, exec (.sampleFiring die core ctx) s = .next t ∧
        next t (some g.slot) ∧ t.cur = s.cur ∧ t.others = s.others ∧
        (c.confidential = true → t.front.suppressed = s.front.suppressed + 1) ∧
        (c.confidential = false → c.sampleRing = 0 → t.mem = s.mem)) ∧
      (∀ g, nextSample gs x.last = some g → g ∈ gs ∧
        ∀ n, x.last = some n → (∃ h, h ∈ gs ∧ n < h.slot) → n < g.slot ∧ ∀ h, h ∈ gs → n < h.slot → g.slot ≤ h.slot))

/-! ## Events: reset, attestation, links and registers -/

/-- R57, R419, R429 and R430: package reset puts everything at its reset value but flash and what lies outside
the package; firmware whose signatures verify boots the package, with the configuration record in force, and
any other leaves it in recovery. -/
def Obligations.ResetAndBoot : Prop :=
  ∀ (s : State),
    (∃ t, exec .perstAssert s = .next t ∧ t.boot = .inReset ∧ t.field.banks = s.field.banks ∧
      t = { State.reset with steps := s.steps, free := s.free, nextId := s.nextId, images := s.images, mem := t.mem,
                             field := t.field } ∧
      t.field = { State.reset.field with banks := s.field.banks } ∧ t.mem.full = [] ∧ t.mem.hist = [] ∧
      (∀ k, k < 24 * 2 ^ 60 → t.mem.byte k = 0) ∧ (∀ k, 24 * 2 ^ 60 ≤ k → t.mem.byte k = s.mem.byte k)) ∧
    (∀ fw banks, (s.boot ≠ .inReset → exec (.perstDeassert fw banks) s = .next s) ∧
      (s.boot = .inReset →
        let good : Prop := Config.ed25519Ok fw.body fw.sigEd = true ∧ Config.mldsaOk fw.body fw.sigMl = true
        let seq (b : List Byte) : Nat := leNat ((b.drop 4).take 4)
        (¬ good → ∃ t, exec (.perstDeassert fw banks) s = .next t ∧ t.boot = .recovery ∧ t.mem = s.mem ∧ t.fw = s.fw) ∧
        (good → ∃ t, exec (.perstDeassert fw banks) s = .next t ∧ t.boot = .running ∧
          t.fw.version = fw.version ∧ t.fw.xlat = fw.xlat ∧ t.fw.layout = fw.layout ∧
          t.fw.measure = sha384 (s.fw.measure ++ sha384 fw.body) ∧
          (∀ k, k < 24 * 2 ^ 60 → t.mem.byte k = 0) ∧ t.front.slotQuota.length = 17 ∧ t.front.slotQuota.sum ≤ 128 ∧
          ((∀ b, b ∈ banks → confOk b = false) → t.conf = Conf.dflts) ∧
          (∀ b, b ∈ banks → confOk b = true → (∀ x, x ∈ banks → confOk x = true → seq x ≤ seq b ∧ (seq x = seq b → x = b)) →
            t.conf.powerW = leNat ((b.drop 8).take 4) ∧ t.conf.errinj = bitOf (leNat ((b.drop 28).take 1)) 0 ∧
            t.conf.steer = bitOf (leNat ((b.drop 28).take 1)) 1 ∧
            ∀ d, d < 8 → t.conf.teamPool[d]? = some (leNat ((b.drop (12 + 2 * d)).take 2)))) ∧
        (∃ t, exec (.perstDeassert fw banks) s = .next t ∧
          (lastBank s = [] → s.field.life.cycles < 2 ^ 32 - 1 → t.field.life.cycles = s.field.life.cycles + 1) ∧
          (lastBank s ≠ [] → leNat (((lastBank s).drop 16).take 4) < 2 ^ 32 - 1 →
            t.field.life.cycles = leNat (((lastBank s).drop 16).take 4) + 1 ∧
            t.field.life.poweredS = leNat (((lastBank s).drop 8).take 8)))))

/-- R396, R429 and R431: the responder answers each request from the stage of its connection on with the
response of the standard and adds both to its transcript, and with an error before; the message codes are the
standard's, which the spec names without its numbers (notes/assumptions/30.md). -/
def Obligations.Attestation : Prop :=
  ∀ (s : State), s.boot = .running →
    let p := s.spdm
    let tells (i : Instr) (stage code : Nat) (body : State → List Byte) : Prop :=
      (p.stage < stage → ∃ e, exec i s = .next { s with spdm := { p with
        responses := ([0x13, 0x7F] ++ e) :: p.responses } }) ∧
      (stage ≤ p.stage → ∃ t req, exec i s = .next t ∧ t = { s with spdm := t.spdm } ∧
        t.spdm.responses = ([0x13, BitVec.ofNat 8 code] ++ body t) :: p.responses ∧ stage ≤ t.spdm.stage ∧
        t.spdm.transcript = (if stage = 0 then [] else p.transcript) ++ req ++ ([0x13, BitVec.ofNat 8 code] ++ body t))
    tells .getVersion 0 0x04 (fun _ => [0x00, 0x13]) ∧
    (∃ t, exec .getVersion s = .next t ∧ t.spdm.stage = 1 ∧ t.spdm.sessionKey = none ∧ t.spdm.finished = false) ∧
    tells .getCapabilities 1 0x61 (fun _ => []) ∧
    (∀ a, tells (.negotiateAlgorithms a) 2 0x63 (fun _ => natBytes 4 (a % 16))) ∧
    tells .getDigests 3 0x01 (fun _ => sha384 (Config.certChain 0) ++ sha384 (Config.certChain 1)) ∧
    (∀ slot off len, slot < 2 →
      tells (.getCertificate slot off len) 3 0x02 (fun _ => ((Config.certChain slot).drop off).take len)) ∧
    (∀ slot nonce, slot < 2 → ∃ sig, tells (.challenge slot nonce) 3 0x03 (fun _ =>
      sha384 (Config.certChain slot) ++ s.fw.measure ++ sig)) ∧
    (∀ slot nonce, slot < 2 → tells (.getMeasurements slot nonce) 3 0x60 (fun _ => s.fw.measure ++
      (if slot = 0 then Config.ed25519Sign else Config.mldsaSign)
        (p.transcript ++ ([0x13, 0xE0] ++ natBytes 1 slot ++ nonce) ++ s.fw.measure))) ∧
    (∀ x, ∃ sig, tells (.keyExchange x) 3 0x64 (fun _ => Config.spdmExchange p.exchanges ++ sig)) ∧
    (∀ x, 3 ≤ p.stage → ∃ t, exec (.keyExchange x) s = .next t ∧ t.spdm.exchanges = p.exchanges + 1 ∧
      t.spdm.sessionKey = some (Config.spdmKey p.exchanges x) ∧ t.spdm.finished = false ∧ 4 ≤ t.spdm.stage) ∧
    (∀ hmac k, 4 ≤ p.stage → p.sessionKey = some k → p.finished = false →
      (hmac = Config.spdmHmac k p.transcript → tells (.finish hmac) 4 0x65 (fun _ => []) ∧
        ∃ t, exec (.finish hmac) s = .next t ∧ t.spdm.finished = true) ∧
      (hmac ≠ Config.spdmHmac k p.transcript → ∃ t, exec (.finish hmac) s = .next t ∧
        t.spdm.sessionKey = none ∧ t.spdm.finished = false)) ∧
    (∀ c x, ctxOf s c = some x →
      (∀ k, p.sessionKey = some k → p.finished = true → x.confidential = true → ∃ t n,
        exec (.dumpKeyRelease c) s = .next t ∧ c ∈ t.spdm.released ∧ t.spdm.responses.head? = some ([0x13, 0x7E] ++
          ((Config.gcmSeal k (Config.nonceOf n) (natBytes 32 x.dumpKey)).1
            ++ (Config.gcmSeal k (Config.nonceOf n) (natBytes 32 x.dumpKey)).2))) ∧
      (p.sessionKey = none ∨ p.finished = false ∨ x.confidential = false → ∃ t,
        exec (.dumpKeyRelease c) s = .next t ∧ t = { s with spdm := t.spdm } ∧ t.spdm.released = p.released))

/-- R8, R82, R375, R385, R399, R418, R424, R432, R433 and R435: package numbers and ports, accesses from outside, and
the writes to the registers of BAR0. -/
def Obligations.LinksAndRegisters : Prop :=
  ∀ (s : State), s.boot = .running →
    let port (t : State) (i : Nat) (f : Port → Port) : Prop :=
      (∀ x, s.links.ports[i]? = some x → t.links.ports[i]? = some (f x)) ∧
      (∀ j, j ≠ i → t.links.ports[j]? = s.links.ports[j]?)
    let only (t : State) : Prop := t = { s with links := { s.links with ports := t.links.ports } }
    (∀ v : BitVec 64, ∃ t, exec (.tlIdent v) s = .next t ∧ t.links.ident = v &&& 0x3F ∧ t.links.written = true ∧
      ∀ (i : Nat) (x : Port), s.links.ports[i]? = some x → t.links.ports[i]? = some
        (if x.up && !x.stopped && x.peer == v.toNat % 64 then { x with stopped := true } else x)) ∧
    (∀ i, ∃ t, exec (.flitCrcRetry i) s = .next t ∧ only t ∧
      port t i fun x => if x.up then { x with retries := x.retries + 1 } else x) ∧
    (∀ i, ∃ t, exec (.portDown i) s = .next t ∧ only t ∧
      port t i fun x => if x.up then { x with up := false, downAt := some s.tick } else x) ∧
    (∀ i, ∃ t, exec (.portDownTimeout i) s = .next t ∧ only t ∧
      port t i fun x => match x.downAt with
        | some n => if x.up = false ∧ n + 100000 ≤ s.tick then { x with downAt := none } else x
        | none => x) ∧
    (∀ i, s.links.written = false → ∃ t n, exec (.portUp i) s = .next t ∧
      t = { s with free := t.free, links := { s.links with ports := t.links.ports } } ∧ n < 64 ∧
      port t i fun x => if x.up then x else { x with
        up := true, downAt := none, peer := if x.downAt.isSome then x.peer else n }) ∧
    (∀ who k len, exec (.remoteAccess who (.read k len)) s = .next s) ∧
    (∀ who k bs,
      let out : Prop := ∀ i, i < bs.length → outsideReaches s who (k + i) = true
      (¬ out → exec (.remoteAccess who (.write k bs)) s = .next s) ∧
      (out → Undamaged s → ∃ t, exec (.remoteAccess who (.write k bs)) s = .next t ∧
        t = { s with mem := t.mem, nextId := t.nextId, free := s.free + 1 } ∧ t.mem.full = s.mem.full ∧
        ∀ b, t.mem.byte b = if k ≤ b ∧ b < k + bs.length then bs.getD (b - k) 0 else s.mem.byte b)) ∧
    (∀ who k code e (v : BitVec 64),
      let n := elemBytes e
      let out : Prop := ∀ i, i < n → outsideReaches s who (k + i) = true
      (¬ out → exec (.remoteAccess who (.combine k code e v)) s = .next s) ∧
      (out → Undamaged s → ∃ t, exec (.remoteAccess who (.combine k code e v)) s = .next t ∧
        t = { s with mem := t.mem, nextId := t.nextId, free := s.free + 1 } ∧ t.mem.full = s.mem.full ∧
        ∀ b, t.mem.byte b = if k ≤ b ∧ b < k + n then
          BitVec.ofNat 8 (combineVal code e (wordOf s.mem n k) v.toNat / 256 ^ (b - k)) else s.mem.byte b)) ∧
    (∀ (v : BitVec 64),
      let wr (a : Nat) (t : State) : Prop := exec (.registerWrite a true v) s = .next t
      let bits (hi lo : Nat) : BitVec 64 := BitVec.ofNat 64 (v.toNat / 2 ^ lo % 2 ^ (hi + 1 - lo) * 2 ^ lo)
      (∀ a, a % 8 ≠ 0 → wr a s) ∧
      (∀ d x, d < 8 → s.dies[d]? = some x → ∀ off f,
        (off = 0x00 ∧ f = { x with fbBase := bits 51 12 }) ∨ (off = 0x08 ∧ f = { x with fbCtl := bits 0 0 ||| bits 12 8 }) ∨
        (off = 0x18 ∧ f = { x with fbRead := v.truncate 32 }) ∨ (off = 0x30 ∧ f = { x with killVa := bits 56 12 }) →
        ∃ t, wr (0x200000 + 0x1000 * d + off) t ∧ t = { s with dies := t.dies } ∧ t.dies[d]? = some f ∧
          ∀ j, j ≠ d → t.dies[j]? = s.dies[j]?) ∧
      (∀ d, d < 8 → (dieAt s d).busy = false → v.getLsbD 0 = true → ∀ t, exec (.flush d) s = .next t →
        wr (0x200000 + 0x1000 * d + 0x28) t) ∧
      (∀ d t, d < 8 → exec (.killCtx d (v.truncate 32)) s = .next t → wr (0x200000 + 0x1000 * d + 0x38) t) ∧
      (ctlBusy s = false → v.toNat / 2 ^ 37 = 0 → ∀ t c i, c = v.toNat % 2 ^ 32 →
        (v.toNat / 2 ^ 32 % 16 = 1 ∧ i = .suspend c (v.getLsbD 36)) ∨
        (v.toNat / 2 ^ 32 % 16 = 2 ∧ i = .unload c (v.getLsbD 36)) ∨
        (v.toNat / 2 ^ 32 % 16 = 3 ∧ s.fw.suspended = [] ∧ i = .resume c) →
        exec i s = .next t → wr 0x300000 t) ∧
      (ctlBusy s = true → wr 0x300000 s) ∧
      wr 0x310000 { s with rel := { s.rel with errBase := v } } ∧
      wr 0x310008 { s with rel := { s.rel with errCtl := bits 4 0 } } ∧
      wr 0x310010 { s with rel := { s.rel with
        injAddr := bits 63 47 ||| bits 39 0, injReserved := decide (v.toNat / 2 ^ 40 % 2 ^ 7 ≠ 0) } } ∧
      (∀ a, a ∈ [0x200008, 0x200018, 0x200028, 0x200038, 0x310008, 0x310018, 0x320000, 0x330000] →
        exec (.registerWrite (a + 4) false v) s = .next s) ∧
      (v.getLsbD 16 = false → wr 0x310018 { s with rel := { s.rel with injXor := v.truncate 8 } }) ∧
      (v.getLsbD 0 = false → wr 0x320000 s) ∧
      (∀ t, v.getLsbD 0 = true → exec .dumpGo s = .next t → wr 0x320000 t) ∧
      (∀ t, exec (.tlIdent v) s = .next t → wr 0x330000 t) ∧
      (∀ i, i < 168 → wr (0x340000 + 16 * i) { s with front := { s.front with xevBase := s.front.xevBase.set i v } } ∧
        wr (0x340008 + 16 * i) { s with front := { s.front with xevCtl := s.front.xevCtl.set i (bits 5 0) } }) ∧
      (∀ i, i < 17 → wr (0x350000 + 8 * i)
        { s with front := { s.front with qtBase := s.front.qtBase.set i (bits 51 12 ||| bits 0 0) } }) ∧
      (∀ i, i < 17 → ∀ half : Bool, exec (.registerWrite (0x350000 + 8 * i + 4 * half.toNat) false v) s =
        exec (.registerWrite (0x350000 + 8 * i) true
          (if half then BitVec.ofNat 64 (v.toNat % 2 ^ 32 * 2 ^ 32 + qtReg s i % 2 ^ 32)
           else BitVec.ofNat 64 (qtReg s i / 2 ^ 32 * 2 ^ 32 + v.toNat % 2 ^ 32))) s))


/-! ## The machine -/

/-- R24, R224, R291, R294: what one step runs. Of the groups or helpers of the core the first whose turn is ready,
from the one taken up for issue, has it. One that waits for nothing runs the instruction its words at the portable
program counter decode to, on the state with the issue counted; a word that is no
instruction is refused by name, which is the model's own stop. A group with an image runs its next bundle:
unless one of its operations stops the group, the slots take effect in the order US, VA0, VA1, VM, CV, EN, BR,
and the bundle count goes on by one. With nothing taken up, the step runs the first instruction of the agenda,
or the event that the free environment brings. A next state is the instruction's own, with woken helpers
released, met errors logged and time passed. -/
def Obligations.StepRunsDecoded : Prop :=
  ∀ (s : State),
    let s0 : State := { s with issuing := false }
    let turn (x : State) : Prop :=
      (s.cur.party = none ∧ turnReady s0 = true ∧ x = s0) ∨
      (s.cur.party = none ∧ turnReady s0 = false ∧ ∃ u, x = takeUp s0 u ∧ (issueOrder s0 s.cur.die s.cur.core).find?
        (fun u => turnReady (takeUp s0 u)) = some u) ∨
      (s.cur.party ≠ none ∧ ∃ u, x = takeUp s0 u ∧ (helperOrder s0 s.cur.die s.cur.core).find?
        (fun u => helperReady (takeUp s0 u)) = some u)
    let free (x : State) : Prop := turn x ∧ x.cur.wait = none ∧ x.cur.fe = none ∧ x.cur.herd = none ∧ s.upset = .clean
    (∀ x, s.issuing = true → x.cur.native = none → free x → let s1 := countIssue x true
      (∀ i n, decodeWords (codeAt x) = .ok (i, n) →
        (∀ t, exec i s1 = .next t → step s = .next (passTime (releaseWoken s (logNews (endRegion s1.cur t))))) ∧
        (∀ f, exec i s1 = .fault f → step s = .fault f) ∧
        (∀ r, exec i s1 = .refused r → step s = .refused r)) ∧
      (∀ e, decodeWords (codeAt x) = .error e → step s = .refused .unverifiedWord)) ∧
    (∀ x n c b, s.issuing = true → x.cur.native = some n → free x → let s1 := countIssue x (usesPort x)
      let img := imageOf s1 s1.cur
      let s2 := setNat s1 fun n => { n with at_ := (n.clause, n.bundle) }
      let s3 := if n.bundle = 0 then enterClause (setCur s2 landDue) c else setCur s2 landDue
      let s4 := noteBundle s3 img c b
      let s5 := stallTrace (stallBefore s4 (nat s4)).2 img (stallBefore s4 (nat s4)).1
      decodeClause (imgUnit img n.clause) = .ok c → clauseBad s2 img c = false →
      decodeBundle (imgUnit img (nextOff n)) = .ok b → bundleBad s3 img c b = false →
      firstStop s5 [b.br, b.us, b.va0, b.va1, b.vm, b.cv, b.en] = none →
      ∀ t, runSlots (driftTrace s5 c b) [b.us, b.va0, b.va1, b.vm, b.cv, b.en, b.br] = .next t →
        t.cur.uid = s5.cur.uid → (∀ x, t.cur.native = some x → snapshots x ≤ 24) →
        step s = settle s (.next (setCur t fun g =>
          setNative { g with clock := g.clock + BitVec.ofNat 32 (bundleCycles s5) } fun x =>
            { x with count := x.count + 1 }))) ∧
    (∀ i rest, s.issuing = false → s.agenda = i :: rest → step s = settle s (exec i { s with agenda := rest })) ∧
    (s.issuing = false → s.agenda = [] →
      (∀ i, Config.environment s.steps = some i → isEvent i = true → step s = settle s (exec i s)) ∧
      ((∀ i, Config.environment s.steps = some i → isEvent i = false) → step s = settle s (.next s)))

/-- R125, R128, R292 and R328: words written out from the encoding tables decode to the instructions they stand
for, among them the words of the chapter's own example; an opcode that the map leaves out, a reserved operand
code and a reserved slot opcode are refused. -/
def Obligations.DecodeWords : Prop :=
  decodeWords [0x00042200, 0x00000002, 0x00000001] = .ok (.add ⟨.i32, false, .val 2, .val 1⟩, 3) ∧
  decodeWords [0x00042200, 0x00000001, 0x40000001] = .ok (.add ⟨.i32, false, .val 1, .imm 1⟩, 3) ∧
  decodeWords [0x28042212, 0x00000004, 0x00000000] = .ok (.cmp ⟨.i32, false, .lt, true, .val 4, .val 0⟩, 3) ∧
  decodeWords [0x80003000, 0xC0000001, 0x40000000, 0x40000000] = .ok (.br ⟨1, [.imm 0, .imm 0]⟩, 4) ∧
  decodeWords [0x80406000, 0x00000005, 0xC0000001, 0x00000004, 0x00000003, 0xC0000002, 0x00000003] =
    .ok (.brc ⟨.val 5, ⟨1, [.val 4, .val 3]⟩, ⟨2, [.val 3]⟩⟩, 7) ∧
  decodeWords [0x81401000, 0x00000006] = .ok (.ret [.val 6], 2) ∧
  decodeWords [0x81800000] = .ok (.exit, 1) ∧
  decodeWords [0x0C000000] = .error .opcode ∧
  (decodeWords [0x00042200, 0x80000003, 0x00000001]).isOk = false ∧
  decodeTableWord 24 (1 * 2 ^ 18 + 5) = some (.jmp 5) ∧
  decodeTableWord 24 (12 * 2 ^ 18 + 1 * 2 ^ 16 + 7) = some (.tbfTrap true 7) ∧
  (decodeBr (BitVec.ofNat 24 (0x13 * 2 ^ 18))).isOk = false

/-- R125 to R128, R134, R292, R310 to R328: the decoder loses no bit. Every instruction of the Value Form that
the spec allows on its own is what its words decode to, whatever stands behind them, with the number of its
words; what the words decode to is allowed and has the opcode of their header; and a slot field that decodes is
the NOP, all zero, or the field of the operation it decodes to. -/
def Obligations.DecodeEncode : Prop :=
  (∀ (i : Instr) (rest : List Word), i.opc.isSome = true → i.wf = true →
    decodeWords (i.words ++ rest) = .ok (i, i.words.length)) ∧
  (∀ (ws : List Word) (i : Instr) (n : Nat), decodeWords ws = .ok (i, n) →
    i.wf = true ∧ n ≤ ws.length ∧ ∃ h, ws.head? = some h ∧ i.opc = some (BitVec.ofNat 10 (h.toNat / 2 ^ 22))) ∧
  (∀ va1 bc w i, decodeVa va1 bc w = .ok i → i = .tbfNop ∧ w = 0 ∨ i.vaField = some w) ∧
  (∀ w i, decodeUs w = .ok i → i = .tbfNop ∧ w = 0 ∨ i.usField = some w) ∧
  (∀ bc w i, decodeVm bc w = .ok i → i = .tbfNop ∧ w = 0 ∨ i.vmField = some w) ∧
  (∀ w i, decodeCv w = .ok i → i = .tbfNop ∧ w = 0 ∨ i.cvField = some w) ∧
  (∀ w i, decodeEn w = .ok i → i = .tbfNop ∧ w = 0 ∨ i.enField = some w) ∧
  (∀ w i, decodeBr w = .ok i → i = .tbfNop ∧ w = 0 ∨ i.brField = some w)

/-- Every step keeps memory in its canonical form: cells in strictly rising order, none of them equal to what an
unlisted byte reads as, and the keys of the full words in strictly rising order, so that equal memories are
equal data. The form is the model's own. -/
def Obligations.InvKept : Prop :=
  ∀ (s t : State), StateInv s → step s = .next t → StateInv t

/-- R22, R57, R375, R385, R399, R418, R424 and R435: after reset no group context is held, every byte reads zero and
every word is empty, the registers have the values that the rules give, and memory is in its canonical form.
Memory outside the slices reads zero by the model's choice (notes/assumptions/2.md). -/
def Obligations.ResetState : Prop :=
  StateInv State.reset ∧ heldGroups State.reset = [] ∧
  (∀ k, State.reset.mem.byte k = 0 ∧ State.reset.mem.isFull k = false) ∧
  (∀ x, x ∈ State.reset.front.qtBase → x = 0) ∧ (∀ x, x ∈ State.reset.front.xevBase → x = 0) ∧
  (∀ x, x ∈ State.reset.front.xevCtl → x = 0) ∧
  State.reset.front.ctxOp = 0 ∧ State.reset.front.ctxStatus = 0 ∧
  (∀ d, d ∈ State.reset.dies → d.fbBase = 0 ∧ d.fbCtl = 0 ∧ d.fbWrite = 0 ∧ d.fbRead = 0 ∧ d.gen = 0 ∧
    d.busy = false ∧ d.killOvf = false ∧ d.killVa = 0 ∧ d.overflow = 0) ∧
  State.reset.rel.errBase = 0 ∧ State.reset.rel.errCtl = 0 ∧ State.reset.rel.injAddr = 0 ∧
  State.reset.rel.injXor = 0 ∧ State.reset.field.dumpBytes = 0 ∧ State.reset.field.done = false ∧
  State.reset.ctxs = [] ∧ State.reset.launches = [] ∧ State.reset.cmds = [] ∧
  (∀ x, x ∈ State.reset.front.slots → x.q = none)
end

