-- ==== Sys2Proof/Laws/Load.lean ====
section
/-! SUPPORT. What reads of the front end over memory at rest answer, what a load of a context answers, and what a
change of a context's record leaves (18_queues_launch.md R358; 19_far_translation_faults.md R378). -/

namespace Sys2Proof.Machine

open Sys2Proof

/-! ## Keys and bytes at rest -/

theorem keysFrom_mem (n k : Nat) : ∀ x, x ∈ keysFrom n k → k ≤ x ∧ x < k + n := by
  induction n generalizing k with
  | zero => intro x h; cases h
  | succ n ih =>
    intro x h
    cases List.mem_cons.1 h with
    | inl h => omega
    | inr h => have := ih (k + 1) x h; omega

theorem cellsGet_none (k : Nat) : ∀ cs : List Host.Cell, (∀ c, c ∈ cs → c.1 ≠ k) → cellsGet cs k = 0 := by
  intro cs
  induction cs with
  | nil => intro _; rfl
  | cons c cs ih =>
    intro h
    have hc := h c (List.mem_cons_self ..)
    have hr := ih fun x hx => h x (List.mem_cons_of_mem _ hx)
    simp [cellsGet, hc, hr]
theorem keysFrom_append (a b k : Nat) : keysFrom (a + b) k = keysFrom a k ++ keysFrom b (k + a) := by
  induction a generalizing k with
  | zero => rw [Nat.zero_add]; rfl
  | succ a ih => rw [Nat.succ_add, keysFrom, ih (k + 1), keysFrom, List.cons_append, Nat.add_right_comm, Nat.add_assoc]

theorem keysFrom_length (n k : Nat) : (keysFrom n k).length = n := by
  induction n generalizing k with
  | zero => rfl
  | succ n ih => rw [keysFrom, List.length_cons, ih]

theorem lines_keys (get : Nat → Byte) (b l : Nat) :
    (List.range l).flatMap (fun i => (keysFrom 64 (b + 64 * i)).map get) = (keysFrom (64 * l) b).map get := by
  induction l with
  | zero => rfl
  | succ l ih => rw [List.range_succ, List.flatMap_append, ih, Nat.mul_succ, keysFrom_append, List.map_append]; simp

/-- Where no line is under a key, an agent without one reads the bytes as they stand. -/
theorem Mem.openBytes_clear (m : Mem) (hs : m.seals = []) (get : Nat → Byte) (n k : Nat) :
    m.openBytes 0 get n k = (keysFrom n k).map get := by
  have hd : ∀ line bs, m.decrypt 0 line bs = bs := by
    intro line bs
    simp [Mem.decrypt, Mem.sealOf, hs, assocGet]
  simp only [Mem.openBytes, hd, lines_keys]
  have hk : 64 * ((k % 64 + n + 63) / 64) = k % 64 + n + (64 * ((k % 64 + n + 63) / 64) - (k % 64 + n)) := by omega
  rw [hk, keysFrom_append, keysFrom_append, show k / 64 * 64 + k % 64 = k by omega, List.append_assoc]
  simp [keysFrom_length]

theorem view_bare (m : Mem) (h : m.hist = []) (r : Reader) (ks : List Nat) (k : Nat) :
    (m.view r ks k).1 = m.byte k := by
  simp [Mem.view, Mem.initial, Mem.oldest, h, pickStore]

set_option maxRecDepth 10000 in
/-- A front-end read over pages that map one after the other to memory with no store in flight. -/
theorem farRead_pages (s : State) (c va k : Nat) (hh : s.mem.hist = []) (hs : s.mem.seals = []) (hk : ctxSeal s c = 0)
    (p q : Nat) (ha : va % 4096 = 0)
    (h : ∀ i, i < p → (farKey s c (va + 4096 * i) false).1 = .hit (k + 4096 * i)) :
    farRead s c (p + q) (4096 * p) va = .ok ((keysFrom (4096 * p) k).map s.mem.byte) := by
  induction p generalizing va k with
  | zero => cases q <;> simp [farRead, keysFrom]
  | succ p ih =>
    have h0 := h 0 (by omega)
    have hr := ih (va + 4096) (k + 4096) (by omega) fun i hi => by
      have := h (i + 1) (by omega)
      rw [show va + 4096 + 4096 * i = va + 4096 * (i + 1) by omega, this]
      congr 1; omega
    have hm : min (4096 * (p + 1)) (4096 - va % 4096) = 4096 := by omega
    have hn : 4096 * (p + 1) - 4096 = 4096 * p := by omega
    have hb : feBytesAs s 0 k 4096 = (keysFrom 4096 k).map s.mem.byte := by
      rw [feBytesAs, Mem.openBytes_clear _ hs]
      simp only [view_bare _ hh]
    rw [show p + 1 + q = (p + q) + 1 by omega, farRead, if_neg (by omega)]
    simp only [Nat.mul_zero, Nat.add_zero] at h0
    simp only [h0, hm, hn, hr, hk, hb]
    rw [show 4096 * (p + 1) = 4096 + 4096 * p by omega, keysFrom_append, List.map_append]

theorem leNat_zero (bs : List Byte) (h : ∀ b, b ∈ bs → b = 0) : leNat bs = 0 := by
  induction bs with
  | nil => rfl
  | cons b bs ih =>
    rw [leNat, h b (List.mem_cons_self ..), ih fun x hx => h x (List.mem_cons_of_mem _ hx)]
    rfl

theorem tableEnts_zero (n f : Nat) : ∀ (i : Nat) (bs : List Byte), (∀ b, b ∈ bs → b = 0) →
    ∀ e, e ∈ tableEnts n f i bs → e.2 = 0 := by
  induction f with
  | zero => intro i bs _ e h; cases h
  | succ f ih =>
    intro i bs hz e h
    rw [tableEnts] at h
    split at h
    · cases h
    · cases List.mem_cons.1 h with
      | inl h => rw [h]; exact leNat_zero _ fun b hb => hz b (List.mem_of_mem_take hb)
      | inr h => exact ih _ _ (fun b hb => hz b (List.mem_of_mem_drop hb)) e h

/-! ## Contexts -/

theorem find_modBy {α : Type} (p : α → Bool) (f : α → α) (xs : List α) (x : α) (h : xs.find? p = some x) (hf : p (f x) = true) :
    (modBy p f xs).find? p = some (f x) := by
  induction xs with
  | nil => cases h
  | cons y ys ih =>
    by_cases hy : p y = true
    · have : y = x := by simpa [hy] using h
      subst this
      simp [modBy, hy, hf]
    · have hn : p y = false := by simpa using hy
      have hs : ys.find? p = some x := by simpa [hn] using h
      have := ih hs
      simp [modBy, hn] at this ⊢
      exact this

theorem ctxOf_modCtx {s : State} {c : Nat} {x : Ctx} (f : Ctx → Ctx) (h : ctxOf s c = some x) (hf : (f x).id = c) :
    ctxOf (modCtx s c f) c = some (f x) := find_modBy _ f _ x h (by simp [hf])

theorem ctxOf_putCtx {s : State} {c : Nat} {x : Ctx} (es : List SliceEnt) (ws : List Window) (h : ctxOf s c = some x) :
    ∃ y, ctxOf (putCtx s c es ws) c = some y ∧ y.slices = es := by
  have hi : x.id = c := by simpa using List.find?_some h
  refine ⟨_, ctxOf_modCtx _ (ctxOf_modCtx _ h hi) ?_, ?_⟩
  · split <;> exact hi
  · split <;> rfl

/-- A load whose parts are in order. -/
theorem loadCtx_ok {s : State} {qu : Queue} {c : Ctx} {sm wt : List Byte} {es : List SliceEnt} {d : Nat}
    (hc : ctxOf (describe s qu) qu.ctx = some c) (hu : c.st = .unloaded) (hd : descriptorOf (describe s qu) qu = d)
    (ho : descOk d = true) (h1 : frontRead (describe s qu) qu.ctx 65536 (bitsOf d 703 640) = .ok sm)
    (h2 : frontRead (describe s qu) qu.ctx 131072 (bitsOf d 639 576) = .ok wt) (hm : sliceMap sm = some es)
    (hg : debugOk c.debugCtl.toNat = true) :
    loadCtx s qu = (.ok, putCtx (describe s qu) qu.ctx es (windowsOf (describe s qu) es wt)) := by
  simp [loadCtx, hc, hu, hd, ho, h1, h2, hm, hg]

/-- A choice among some is one of them. -/
theorem pick_found {α : Type} (n : Nat) (xs : List α) (h : 0 < xs.length) : ∃ x, pick n xs = some x :=
  ⟨_, List.getElem?_eq_getElem (Nat.mod_lt _ h)⟩

end Sys2Proof.Machine
end

