-- ==== Sys2Proof/Laws/Memory.lean ====
section
/-! SUPPORT. What the memory operations do: a read after a write, and that every one of them keeps the
canonical form of cells and of full keys. -/

namespace Sys2Proof.Machine

open Sys2Proof

/-! ## Cells -/

theorem cellsGet_set_same (k : Nat) (b : Byte) (xs : List Host.Cell) (lo : Option Nat) (h : cellsWf lo xs = true) :
    cellsGet (cellsSet k b xs) k = b := by
  induction xs generalizing lo with
  | nil => by_cases hb : b = unlisted <;> simp [cellsSet, cellsGet, hb]
  | cons x xs ih =>
    obtain ⟨a, c⟩ := x
    simp only [cellsWf, Bool.and_eq_true] at h
    have hgt : ∀ (ys : List Host.Cell) (l : Nat), cellsWf (some l) ys = true → k ≤ l → cellsGet ys k = unlisted := by
      intro ys
      induction ys with
      | nil => intros; rfl
      | cons y ys ihy =>
        intro l hy hl
        obtain ⟨a', c'⟩ := y
        simp only [cellsWf, Bool.and_eq_true, decide_eq_true_eq] at hy
        have : a' ≠ k := by omega
        simp only [cellsGet, this, if_false]
        exact ihy a' hy.2 (by omega)
    simp only [cellsSet]
    split
    · rename_i hlt
      by_cases hb : b = unlisted
      · have : a ≠ k := by omega
        simp only [hb, if_true, cellsGet, this, if_false]
        exact hgt xs a h.2 (by omega)
      · simp [hb, cellsGet]
    · split
      · rename_i _ he
        subst he
        by_cases hb : b = unlisted
        · simp only [hb, if_true]
          exact hgt xs k h.2 (Nat.le_refl k)
        · simp [hb, cellsGet]
      · rename_i _ hne
        simp only [cellsGet, Ne.symm hne, if_false]
        exact ih (some a) h.2

theorem cellsGet_set_other (j k : Nat) (b : Byte) (xs : List Host.Cell) (h : j ≠ k) :
    cellsGet (cellsSet k b xs) j = cellsGet xs j := by
  induction xs with
  | nil => by_cases hb : b = unlisted <;> simp [cellsSet, cellsGet, hb, Ne.symm h]
  | cons x xs ih =>
    obtain ⟨a, c⟩ := x
    simp only [cellsSet]
    split
    · by_cases hb : b = unlisted <;> simp [hb, cellsGet, Ne.symm h]
    · split
      · rename_i _ he
        subst he
        by_cases hb : b = unlisted <;> simp [hb, cellsGet, Ne.symm h]
      · simp [cellsGet, ih]

theorem cellsWf_weaken (l m : Nat) (xs : List Host.Cell) (hl : l ≤ m) (h : cellsWf (some m) xs = true) :
    cellsWf (some l) xs = true := by
  cases xs with
  | nil => rfl
  | cons x xs =>
    simp only [cellsWf, Bool.and_eq_true, decide_eq_true_eq] at h ⊢
    exact ⟨⟨by omega, h.1.2⟩, h.2⟩

theorem cellsWf_none (l : Option Nat) (xs : List Host.Cell) (h : cellsWf l xs = true) : cellsWf none xs = true := by
  cases xs with
  | nil => rfl
  | cons x xs =>
    simp only [cellsWf, Bool.and_eq_true] at h ⊢
    exact ⟨⟨trivial, h.1.2⟩, h.2⟩

theorem cellsWf_set (lo : Option Nat) (k : Nat) (b : Byte) (xs : List Host.Cell) (h : cellsWf lo xs = true)
    (hk : ∀ l, lo = some l → l < k) : cellsWf lo (cellsSet k b xs) = true := by
  have first : ∀ (rest : List Host.Cell), b ≠ unlisted → cellsWf (some k) rest = true →
      cellsWf lo ((k, b) :: rest) = true := by
    intro rest hb hr
    simp only [cellsWf, Bool.and_eq_true, bne_iff_ne, ne_eq, hb, not_false_eq_true, hr, and_true]
    cases lo with
    | none => rfl
    | some l => simpa using hk l rfl
  induction xs generalizing lo with
  | nil =>
    by_cases hb : b = unlisted
    · simp [cellsSet, hb, cellsWf]
    · simp only [cellsSet, hb, if_false]
      exact first [] hb rfl
  | cons x xs ih =>
    obtain ⟨a, c⟩ := x
    have h' := h
    simp only [cellsWf, Bool.and_eq_true] at h
    simp only [cellsSet]
    split
    · rename_i hlt
      by_cases hb : b = unlisted
      · simp only [hb, if_true]
        exact h'
      · simp only [hb, if_false]
        refine first _ hb ?_
        simp only [cellsWf, Bool.and_eq_true, decide_eq_true_eq]
        exact ⟨⟨hlt, h.1.2⟩, h.2⟩
    · split
      · rename_i _ he
        subst he
        by_cases hb : b = unlisted
        · simp only [hb, if_true]
          cases lo with
          | none => exact cellsWf_none _ _ h.2
          | some l => exact cellsWf_weaken l k _ (Nat.le_of_lt (hk l rfl)) h.2
        · simp only [hb, if_false]
          exact first _ hb h.2
      · rename_i hnlt hne
        have hak : a < k := by omega
        simp only [cellsWf, Bool.and_eq_true]
        refine ⟨h.1, ih (some a) h.2 (fun l hl => ?_) ?_⟩
        · simp only [Option.some.injEq] at hl
          omega
        · intro rest hb hr
          simp only [cellsWf, Bool.and_eq_true, decide_eq_true_eq, bne_iff_ne, ne_eq, hb, not_false_eq_true, hr,
            and_true]
          exact hak

theorem cellsWf_filter (lo : Option Nat) (p : Host.Cell → Bool) (xs : List Host.Cell) (h : cellsWf lo xs = true) :
    cellsWf lo (xs.filter p) = true := by
  induction xs generalizing lo with
  | nil => rfl
  | cons x xs ih =>
    obtain ⟨a, c⟩ := x
    simp only [cellsWf, Bool.and_eq_true] at h
    by_cases hp : p (a, c) = true
    · simp only [List.filter, hp, cellsWf, Bool.and_eq_true]
      exact ⟨h.1, ih (some a) h.2⟩
    · simp only [List.filter, hp]
      cases lo with
      | none => exact ih none (cellsWf_none _ _ h.2)
      | some l =>
        exact ih (some l) (cellsWf_weaken l a _ (Nat.le_of_lt (by simpa using h.1.1)) h.2)

/-! ## Full keys -/

theorem keyIn_above (xs : List Nat) (l k : Nat) (h : keysWf (some l) xs = true) (hk : k ≤ l) : keyIn k xs = false := by
  induction xs generalizing l with
  | nil => rfl
  | cons a xs ih =>
    simp only [keysWf, Bool.and_eq_true, decide_eq_true_eq] at h
    have : a ≠ k := by omega
    simp only [keyIn, this, if_false]
    exact ih a h.2 (by omega)

theorem keyIn_set_same (k : Nat) (v : Bool) (xs : List Nat) (lo : Option Nat) (h : keysWf lo xs = true) :
    keyIn k (keySet k v xs) = v := by
  induction xs generalizing lo with
  | nil => cases v <;> simp [keySet, keyIn]
  | cons a xs ih =>
    simp only [keysWf, Bool.and_eq_true] at h
    simp only [keySet]
    split
    · cases v
      · have : a ≠ k := by omega
        simp only [Bool.false_eq_true, if_false, keyIn, this]
        exact keyIn_above xs a k h.2 (by omega)
      · simp [keyIn]
    · split
      · rename_i _ he
        subst he
        cases v
        · simp only [Bool.false_eq_true, if_false]
          exact keyIn_above xs k k h.2 (Nat.le_refl k)
        · simp [keyIn]
      · rename_i _ hne
        simp only [keyIn, Ne.symm hne, if_false]
        exact ih (some a) h.2

theorem keyIn_set_other (j k : Nat) (v : Bool) (xs : List Nat) (h : j ≠ k) :
    keyIn j (keySet k v xs) = keyIn j xs := by
  induction xs with
  | nil => cases v <;> simp [keySet, keyIn, Ne.symm h]
  | cons a xs ih =>
    simp only [keySet]
    split
    · cases v <;> simp [keyIn, Ne.symm h]
    · split
      · rename_i _ he
        subst he
        cases v <;> simp [keyIn, Ne.symm h]
      · simp [keyIn, ih]

theorem keysWf_weaken (l m : Nat) (xs : List Nat) (hl : l ≤ m) (h : keysWf (some m) xs = true) :
    keysWf (some l) xs = true := by
  cases xs with
  | nil => rfl
  | cons a xs =>
    simp only [keysWf, Bool.and_eq_true, decide_eq_true_eq] at h ⊢
    exact ⟨by omega, h.2⟩

theorem keysWf_none (l : Option Nat) (xs : List Nat) (h : keysWf l xs = true) : keysWf none xs = true := by
  cases xs with
  | nil => rfl
  | cons a xs =>
    simp only [keysWf, Bool.and_eq_true] at h ⊢
    exact ⟨trivial, h.2⟩

theorem keysWf_set (lo : Option Nat) (k : Nat) (v : Bool) (xs : List Nat) (h : keysWf lo xs = true)
    (hk : ∀ l, lo = some l → l < k) : keysWf lo (keySet k v xs) = true := by
  induction xs generalizing lo with
  | nil =>
    cases v
    · rfl
    · cases lo with
      | none => rfl
      | some l => simpa [keySet, keysWf] using hk l rfl
  | cons a xs ih =>
    have h' := h
    simp only [keysWf, Bool.and_eq_true] at h
    simp only [keySet]
    split
    · rename_i hlt
      cases v
      · exact h'
      · simp only [if_true, keysWf, Bool.and_eq_true, decide_eq_true_eq]
        refine ⟨?_, hlt, h.2⟩
        cases lo with
        | none => rfl
        | some l => simpa using hk l rfl
    · split
      · rename_i _ he
        subst he
        cases v
        · simp only [Bool.false_eq_true, if_false]
          cases lo with
          | none => exact keysWf_none _ _ h.2
          | some l => exact keysWf_weaken l k _ (Nat.le_of_lt (hk l rfl)) h.2
        · exact h'
      · simp only [keysWf, Bool.and_eq_true]
        refine ⟨h.1, ih (some a) h.2 (fun l hl => ?_)⟩
        simp only [Option.some.injEq] at hl
        omega

theorem keysWf_filter (lo : Option Nat) (p : Nat → Bool) (xs : List Nat) (h : keysWf lo xs = true) :
    keysWf lo (xs.filter p) = true := by
  induction xs generalizing lo with
  | nil => rfl
  | cons a xs ih =>
    simp only [keysWf, Bool.and_eq_true] at h
    by_cases hp : p a = true
    · simp only [List.filter, hp, keysWf, Bool.and_eq_true]
      exact ⟨h.1, ih (some a) h.2⟩
    · simp only [List.filter, hp]
      cases lo with
      | none => exact ih none (keysWf_none _ _ h.2)
      | some l =>
        exact ih (some l) (keysWf_weaken l a _ (Nat.le_of_lt (by simpa using h.1)) h.2)

/-! ## Memory -/

theorem Mem.wf_iff (m : Mem) : m.wf = true ↔ cellsWf none m.bytes = true ∧ keysWf none m.full = true := by
  simp [Mem.wf]

theorem Mem.byte_setByte (m : Mem) (h : m.wf = true) (j k : Nat) (b : Byte) :
    (m.setByte k b).byte j = if j = k then b else m.byte j := by
  by_cases e : j = k
  · subst e
    simp [Mem.byte, Mem.setByte, cellsGet_set_same j b m.bytes none ((Mem.wf_iff m).1 h).1]
  · simp [Mem.byte, Mem.setByte, cellsGet_set_other j k b m.bytes e, e]

theorem Mem.isFull_setFull (m : Mem) (h : m.wf = true) (j k : Nat) (v : Bool) :
    (m.setFull k v).isFull j = if wordKey j = wordKey k then v else m.isFull j := by
  by_cases e : wordKey j = wordKey k
  · simp [Mem.isFull, Mem.setFull, e, keyIn_set_same (wordKey k) v m.full none ((Mem.wf_iff m).1 h).2]
  · simp [Mem.isFull, Mem.setFull, keyIn_set_other _ _ v m.full e, e]

theorem Mem.wf_setByte (m : Mem) (h : m.wf = true) (k : Nat) (b : Byte) : (m.setByte k b).wf = true := by
  rw [Mem.wf_iff] at h ⊢
  exact ⟨cellsWf_set none k b m.bytes h.1 (fun _ h => by cases h), h.2⟩

theorem Mem.wf_setBytes (bs : List (Nat × Byte)) (m : Mem) (h : m.wf = true) : (m.setBytes bs).wf = true := by
  induction bs generalizing m with
  | nil => exact h
  | cons b bs ih => exact ih _ (Mem.wf_setByte m h b.1 b.2)

theorem Mem.wf_setFull (m : Mem) (h : m.wf = true) (k : Nat) (v : Bool) : (m.setFull k v).wf = true := by
  rw [Mem.wf_iff] at h ⊢
  exact ⟨h.1, keysWf_set none (wordKey k) v m.full h.2 (fun _ h => by cases h)⟩

theorem Mem.wf_clear (m : Mem) (h : m.wf = true) (k n : Nat) : (m.clear k n).wf = true := by
  rw [Mem.wf_iff] at h ⊢
  exact ⟨cellsWf_filter none _ m.bytes h.1, keysWf_filter none _ m.full h.2⟩

theorem Mem.wf_mark (m : Mem) (h : m.wf = true) (base : Store → Bool) (r : Reach) (now : Nat) :
    (m.mark base r now).wf = true := h

theorem Mem.wf_heal (m : Mem) (h : m.wf = true) (k n : Nat) : (m.heal k n).wf = true := h

theorem Mem.wf_sealLines (m : Mem) (h : m.wf = true) (key : Nat) (bs : List (Nat × Byte)) :
    (m.sealLines key bs).2.wf = true := h

theorem Mem.wf_markAll (cs : List Carry) (now : Nat) (m : Mem) (h : m.wf = true) :
    (cs.foldl (Mem.markCarry · now) m).wf = true := by
  induction cs generalizing m with
  | nil => exact h
  | cons c cs ih => exact ih _ (Mem.wf_mark m h ..)

theorem Mem.wf_setFulls (bits : List (Nat × Bool)) (m : Mem) (h : m.wf = true) :
    (bits.foldl (fun m b => m.setFull b.1 b.2) m).wf = true := by
  induction bits generalizing m with
  | nil => exact h
  | cons b bits ih => exact ih _ (Mem.wf_setFull m h ..)

theorem Mem.wf_perform (m : Mem) (h : m.wf = true) (id grp : Nat) (org : Obs) (rs : List Reach) (now : Nat)
    (bs : List (Nat × Byte)) (bits : List (Nat × Bool)) (carries : List Carry) :
    (m.perform id grp org rs now bs bits carries).wf = true :=
  Mem.wf_setFulls bits _ (Mem.wf_setBytes _ _ (Mem.wf_markAll carries now m h))

/-! ## The same over the state -/

theorem drainStores_wf (now : Nat) (g : Group) (qs : List QStore) (m : Mem) (h : m.wf = true) :
    (drainStores now g qs m).wf = true := by
  induction qs generalizing m with
  | nil => exact h
  | cons q qs ih => exact ih _ (Mem.wf_perform m h ..)

theorem drainQ_wf (s : State) (h : s.mem.wf = true) : (drainQ s).mem.wf = true := drainStores_wf _ _ _ _ h

theorem putWith_wf (s : State) (o : Obs) (r : Reach) (cs : List Carry) (key : Nat) (bs : List (Nat × Byte))
    (h : s.mem.wf = true) : (putWith s o r cs key bs).mem.wf = true :=
  Mem.wf_perform _ (Mem.wf_sealLines _ h key bs) ..

theorem putAs_wf (s : State) (o : Obs) (key : Nat) (bs : List (Nat × Byte)) (h : s.mem.wf = true) :
    (putAs s o key bs).mem.wf = true := putWith_wf s o _ _ key bs h

theorem feWrite_wf (s : State) (bs : List (Nat × Byte)) (h : s.mem.wf = true) : (feWrite s bs).mem.wf = true :=
  putAs_wf s _ _ bs h

theorem feWriteNat_wf (s : State) (k n x : Nat) (h : s.mem.wf = true) : (feWriteNat s k n x).mem.wf = true :=
  putAs_wf s _ _ _ h

theorem pushStore_mem (s : State) (bs : List (Nat × Byte)) (cs : List Carry) : (pushStore s bs cs).mem = s.mem := rfl

theorem modGroup_mem (s : State) (u : Nat) (f : Group → Group) : (modGroup s u f).mem = s.mem := by
  unfold modGroup
  split <;> rfl

theorem drainGroup_wf (s : State) (u : Nat) (h : s.mem.wf = true) : (drainGroup s u).mem.wf = true := by
  unfold drainGroup
  split
  · rw [modGroup_mem]
    exact drainStores_wf _ _ _ _ h
  · exact h

theorem publish_wf (s : State) (u : Nat) (r : Reach) (h : s.mem.wf = true) : (publish s u r).mem.wf = true := by
  unfold publish
  split
  · exact Mem.wf_mark _ (drainGroup_wf s u h) _ _ _
  · exact h

theorem scFence_wf (s : State) (r : Reach) (h : s.mem.wf = true) : (scFence s r).mem.wf = true :=
  publish_wf s _ r h

theorem orderBefore_wf (s : State) (o : Order) (r : Reach) (h : s.mem.wf = true) :
    (orderBefore s o r).mem.wf = true := by
  cases o
  case seqCst => exact scFence_wf s r h
  all_goals exact h

theorem orderAfter_wf (s : State) (o : Order) (r : Reach) (ks : List Nat) (h : s.mem.wf = true) :
    (orderAfter s o r ks).mem.wf = true := by
  cases o
  case seqCst => exact scFence_wf _ r h
  all_goals exact h

theorem touch_wf (s : State) (ks : List Nat) (h : s.mem.wf = true) : (touch s ks).mem.wf = true := h

theorem slotAt_wf (s : State) (k n : Nat) (o : Order) (r : Reach) (f : Nat → Option (Nat × Option Bool))
    (h : s.mem.wf = true) : (slotAt s k n o r f).2.mem.wf = true := by
  unfold slotAt
  have h1 := touch_wf _ (keysFrom n k) (drainQ_wf _ (orderBefore_wf s o r h))
  dsimp only
  split
  · exact orderAfter_wf _ o r _ (Mem.wf_perform _ h1 ..)
  · exact orderAfter_wf _ o r _ h1

theorem atomicAt_wf (s : State) (k n : Nat) (o : Order) (r : Reach) (f : Nat → Option Nat) (h : s.mem.wf = true) :
    (atomicAt s k n o r f).2.mem.wf = true := slotAt_wf s k n o r _ h

end Sys2Proof.Machine
end

