-- ==== Sys2Proof/Laws/State.lean ====
section
/-! SUPPORT. The fields of a state after the named updates: one lemma per field and update. -/

namespace Sys2Proof.Machine

open Sys2Proof

/-! ## setCur -/

@[simp] theorem setCur_steps (s : State) (f : Group → Group) : (setCur s f).steps = s.steps := rfl
@[simp] theorem setCur_tick (s : State) (f : Group → Group) : (setCur s f).tick = s.tick := rfl
@[simp] theorem setCur_cycle (s : State) (f : Group → Group) : (setCur s f).cycle = s.cycle := rfl
@[simp] theorem setCur_free (s : State) (f : Group → Group) : (setCur s f).free = s.free := rfl
@[simp] theorem setCur_nextId (s : State) (f : Group → Group) : (setCur s f).nextId = s.nextId := rfl
@[simp] theorem setCur_mem (s : State) (f : Group → Group) : (setCur s f).mem = s.mem := rfl
@[simp] theorem setCur_cur (s : State) (f : Group → Group) : (setCur s f).cur = f s.cur := rfl
@[simp] theorem setCur_issuing (s : State) (f : Group → Group) : (setCur s f).issuing = s.issuing := rfl
@[simp] theorem setCur_upset (s : State) (f : Group → Group) : (setCur s f).upset = s.upset := rfl
@[simp] theorem setCur_others (s : State) (f : Group → Group) : (setCur s f).others = s.others := rfl
@[simp] theorem setCur_agenda (s : State) (f : Group → Group) : (setCur s f).agenda = s.agenda := rfl
@[simp] theorem setCur_teams (s : State) (f : Group → Group) : (setCur s f).teams = s.teams := rfl
@[simp] theorem setCur_tasks (s : State) (f : Group → Group) : (setCur s f).tasks = s.tasks := rfl
@[simp] theorem setCur_taskGroups (s : State) (f : Group → Group) : (setCur s f).taskGroups = s.taskGroups := rfl
@[simp] theorem setCur_launches (s : State) (f : Group → Group) : (setCur s f).launches = s.launches := rfl
@[simp] theorem setCur_trans (s : State) (f : Group → Group) : (setCur s f).trans = s.trans := rfl
@[simp] theorem setCur_cache (s : State) (f : Group → Group) : (setCur s f).cache = s.cache := rfl
@[simp] theorem setCur_verdicts (s : State) (f : Group → Group) : (setCur s f).verdicts = s.verdicts := rfl
@[simp] theorem setCur_cmds (s : State) (f : Group → Group) : (setCur s f).cmds = s.cmds := rfl
@[simp] theorem setCur_cores (s : State) (f : Group → Group) : (setCur s f).cores = s.cores := rfl
@[simp] theorem setCur_clusters (s : State) (f : Group → Group) : (setCur s f).clusters = s.clusters := rfl
@[simp] theorem setCur_samplers (s : State) (f : Group → Group) : (setCur s f).samplers = s.samplers := rfl
@[simp] theorem setCur_ctxs (s : State) (f : Group → Group) : (setCur s f).ctxs = s.ctxs := rfl
@[simp] theorem setCur_front (s : State) (f : Group → Group) : (setCur s f).front = s.front := rfl
@[simp] theorem setCur_dies (s : State) (f : Group → Group) : (setCur s f).dies = s.dies := rfl
@[simp] theorem setCur_rel (s : State) (f : Group → Group) : (setCur s f).rel = s.rel := rfl
@[simp] theorem setCur_field (s : State) (f : Group → Group) : (setCur s f).field = s.field := rfl
@[simp] theorem setCur_boot (s : State) (f : Group → Group) : (setCur s f).boot = s.boot := rfl
@[simp] theorem setCur_conf (s : State) (f : Group → Group) : (setCur s f).conf = s.conf := rfl
@[simp] theorem setCur_fw (s : State) (f : Group → Group) : (setCur s f).fw = s.fw := rfl
@[simp] theorem setCur_power (s : State) (f : Group → Group) : (setCur s f).power = s.power := rfl
@[simp] theorem setCur_links (s : State) (f : Group → Group) : (setCur s f).links = s.links := rfl
@[simp] theorem setCur_spdm (s : State) (f : Group → Group) : (setCur s f).spdm = s.spdm := rfl
@[simp] theorem setCur_nextWatch (s : State) (f : Group → Group) : (setCur s f).nextWatch = s.nextWatch := rfl

/-! ## setMem -/

@[simp] theorem setMem_steps (s : State) (f : Mem → Mem) : (setMem s f).steps = s.steps := rfl
@[simp] theorem setMem_tick (s : State) (f : Mem → Mem) : (setMem s f).tick = s.tick := rfl
@[simp] theorem setMem_cycle (s : State) (f : Mem → Mem) : (setMem s f).cycle = s.cycle := rfl
@[simp] theorem setMem_free (s : State) (f : Mem → Mem) : (setMem s f).free = s.free := rfl
@[simp] theorem setMem_nextId (s : State) (f : Mem → Mem) : (setMem s f).nextId = s.nextId := rfl
@[simp] theorem setMem_mem (s : State) (f : Mem → Mem) : (setMem s f).mem = f s.mem := rfl
@[simp] theorem setMem_cur (s : State) (f : Mem → Mem) : (setMem s f).cur = s.cur := rfl
@[simp] theorem setMem_issuing (s : State) (f : Mem → Mem) : (setMem s f).issuing = s.issuing := rfl
@[simp] theorem setMem_upset (s : State) (f : Mem → Mem) : (setMem s f).upset = s.upset := rfl
@[simp] theorem setMem_others (s : State) (f : Mem → Mem) : (setMem s f).others = s.others := rfl
@[simp] theorem setMem_agenda (s : State) (f : Mem → Mem) : (setMem s f).agenda = s.agenda := rfl
@[simp] theorem setMem_teams (s : State) (f : Mem → Mem) : (setMem s f).teams = s.teams := rfl
@[simp] theorem setMem_tasks (s : State) (f : Mem → Mem) : (setMem s f).tasks = s.tasks := rfl
@[simp] theorem setMem_taskGroups (s : State) (f : Mem → Mem) : (setMem s f).taskGroups = s.taskGroups := rfl
@[simp] theorem setMem_launches (s : State) (f : Mem → Mem) : (setMem s f).launches = s.launches := rfl
@[simp] theorem setMem_trans (s : State) (f : Mem → Mem) : (setMem s f).trans = s.trans := rfl
@[simp] theorem setMem_cache (s : State) (f : Mem → Mem) : (setMem s f).cache = s.cache := rfl
@[simp] theorem setMem_verdicts (s : State) (f : Mem → Mem) : (setMem s f).verdicts = s.verdicts := rfl
@[simp] theorem setMem_cmds (s : State) (f : Mem → Mem) : (setMem s f).cmds = s.cmds := rfl
@[simp] theorem setMem_cores (s : State) (f : Mem → Mem) : (setMem s f).cores = s.cores := rfl
@[simp] theorem setMem_clusters (s : State) (f : Mem → Mem) : (setMem s f).clusters = s.clusters := rfl
@[simp] theorem setMem_samplers (s : State) (f : Mem → Mem) : (setMem s f).samplers = s.samplers := rfl
@[simp] theorem setMem_ctxs (s : State) (f : Mem → Mem) : (setMem s f).ctxs = s.ctxs := rfl
@[simp] theorem setMem_front (s : State) (f : Mem → Mem) : (setMem s f).front = s.front := rfl
@[simp] theorem setMem_dies (s : State) (f : Mem → Mem) : (setMem s f).dies = s.dies := rfl
@[simp] theorem setMem_rel (s : State) (f : Mem → Mem) : (setMem s f).rel = s.rel := rfl
@[simp] theorem setMem_field (s : State) (f : Mem → Mem) : (setMem s f).field = s.field := rfl
@[simp] theorem setMem_boot (s : State) (f : Mem → Mem) : (setMem s f).boot = s.boot := rfl
@[simp] theorem setMem_conf (s : State) (f : Mem → Mem) : (setMem s f).conf = s.conf := rfl
@[simp] theorem setMem_fw (s : State) (f : Mem → Mem) : (setMem s f).fw = s.fw := rfl
@[simp] theorem setMem_power (s : State) (f : Mem → Mem) : (setMem s f).power = s.power := rfl
@[simp] theorem setMem_links (s : State) (f : Mem → Mem) : (setMem s f).links = s.links := rfl
@[simp] theorem setMem_spdm (s : State) (f : Mem → Mem) : (setMem s f).spdm = s.spdm := rfl
@[simp] theorem setMem_nextWatch (s : State) (f : Mem → Mem) : (setMem s f).nextWatch = s.nextWatch := rfl

/-! ## modLaunch -/

@[simp] theorem modLaunch_steps (s : State) (u : Nat) (f : Launch → Launch) : (modLaunch s u f).steps = s.steps := rfl
@[simp] theorem modLaunch_tick (s : State) (u : Nat) (f : Launch → Launch) : (modLaunch s u f).tick = s.tick := rfl
@[simp] theorem modLaunch_cycle (s : State) (u : Nat) (f : Launch → Launch) : (modLaunch s u f).cycle = s.cycle := rfl
@[simp] theorem modLaunch_free (s : State) (u : Nat) (f : Launch → Launch) : (modLaunch s u f).free = s.free := rfl
@[simp] theorem modLaunch_nextId (s : State) (u : Nat) (f : Launch → Launch) : (modLaunch s u f).nextId = s.nextId := rfl
@[simp] theorem modLaunch_mem (s : State) (u : Nat) (f : Launch → Launch) : (modLaunch s u f).mem = s.mem := rfl
@[simp] theorem modLaunch_cur (s : State) (u : Nat) (f : Launch → Launch) : (modLaunch s u f).cur = s.cur := rfl
@[simp] theorem modLaunch_issuing (s : State) (u : Nat) (f : Launch → Launch) : (modLaunch s u f).issuing = s.issuing := rfl
@[simp] theorem modLaunch_upset (s : State) (u : Nat) (f : Launch → Launch) : (modLaunch s u f).upset = s.upset := rfl
@[simp] theorem modLaunch_others (s : State) (u : Nat) (f : Launch → Launch) : (modLaunch s u f).others = s.others := rfl
@[simp] theorem modLaunch_agenda (s : State) (u : Nat) (f : Launch → Launch) : (modLaunch s u f).agenda = s.agenda := rfl
@[simp] theorem modLaunch_teams (s : State) (u : Nat) (f : Launch → Launch) : (modLaunch s u f).teams = s.teams := rfl
@[simp] theorem modLaunch_tasks (s : State) (u : Nat) (f : Launch → Launch) : (modLaunch s u f).tasks = s.tasks := rfl
@[simp] theorem modLaunch_taskGroups (s : State) (u : Nat) (f : Launch → Launch) : (modLaunch s u f).taskGroups = s.taskGroups := rfl
@[simp] theorem modLaunch_launches (s : State) (u : Nat) (f : Launch → Launch) : (modLaunch s u f).launches = modBy (fun l => l.uid == u) f s.launches := rfl
@[simp] theorem modLaunch_trans (s : State) (u : Nat) (f : Launch → Launch) : (modLaunch s u f).trans = s.trans := rfl
@[simp] theorem modLaunch_cache (s : State) (u : Nat) (f : Launch → Launch) : (modLaunch s u f).cache = s.cache := rfl
@[simp] theorem modLaunch_verdicts (s : State) (u : Nat) (f : Launch → Launch) : (modLaunch s u f).verdicts = s.verdicts := rfl
@[simp] theorem modLaunch_cmds (s : State) (u : Nat) (f : Launch → Launch) : (modLaunch s u f).cmds = s.cmds := rfl
@[simp] theorem modLaunch_cores (s : State) (u : Nat) (f : Launch → Launch) : (modLaunch s u f).cores = s.cores := rfl
@[simp] theorem modLaunch_clusters (s : State) (u : Nat) (f : Launch → Launch) : (modLaunch s u f).clusters = s.clusters := rfl
@[simp] theorem modLaunch_samplers (s : State) (u : Nat) (f : Launch → Launch) : (modLaunch s u f).samplers = s.samplers := rfl
@[simp] theorem modLaunch_ctxs (s : State) (u : Nat) (f : Launch → Launch) : (modLaunch s u f).ctxs = s.ctxs := rfl
@[simp] theorem modLaunch_front (s : State) (u : Nat) (f : Launch → Launch) : (modLaunch s u f).front = s.front := rfl
@[simp] theorem modLaunch_dies (s : State) (u : Nat) (f : Launch → Launch) : (modLaunch s u f).dies = s.dies := rfl
@[simp] theorem modLaunch_rel (s : State) (u : Nat) (f : Launch → Launch) : (modLaunch s u f).rel = s.rel := rfl
@[simp] theorem modLaunch_field (s : State) (u : Nat) (f : Launch → Launch) : (modLaunch s u f).field = s.field := rfl
@[simp] theorem modLaunch_boot (s : State) (u : Nat) (f : Launch → Launch) : (modLaunch s u f).boot = s.boot := rfl
@[simp] theorem modLaunch_conf (s : State) (u : Nat) (f : Launch → Launch) : (modLaunch s u f).conf = s.conf := rfl
@[simp] theorem modLaunch_fw (s : State) (u : Nat) (f : Launch → Launch) : (modLaunch s u f).fw = s.fw := rfl
@[simp] theorem modLaunch_power (s : State) (u : Nat) (f : Launch → Launch) : (modLaunch s u f).power = s.power := rfl
@[simp] theorem modLaunch_links (s : State) (u : Nat) (f : Launch → Launch) : (modLaunch s u f).links = s.links := rfl
@[simp] theorem modLaunch_spdm (s : State) (u : Nat) (f : Launch → Launch) : (modLaunch s u f).spdm = s.spdm := rfl
@[simp] theorem modLaunch_nextWatch (s : State) (u : Nat) (f : Launch → Launch) : (modLaunch s u f).nextWatch = s.nextWatch := rfl

/-! ## modCtx -/

@[simp] theorem modCtx_steps (s : State) (c : Nat) (f : Ctx → Ctx) : (modCtx s c f).steps = s.steps := rfl
@[simp] theorem modCtx_tick (s : State) (c : Nat) (f : Ctx → Ctx) : (modCtx s c f).tick = s.tick := rfl
@[simp] theorem modCtx_cycle (s : State) (c : Nat) (f : Ctx → Ctx) : (modCtx s c f).cycle = s.cycle := rfl
@[simp] theorem modCtx_free (s : State) (c : Nat) (f : Ctx → Ctx) : (modCtx s c f).free = s.free := rfl
@[simp] theorem modCtx_nextId (s : State) (c : Nat) (f : Ctx → Ctx) : (modCtx s c f).nextId = s.nextId := rfl
@[simp] theorem modCtx_mem (s : State) (c : Nat) (f : Ctx → Ctx) : (modCtx s c f).mem = s.mem := rfl
@[simp] theorem modCtx_cur (s : State) (c : Nat) (f : Ctx → Ctx) : (modCtx s c f).cur = s.cur := rfl
@[simp] theorem modCtx_issuing (s : State) (c : Nat) (f : Ctx → Ctx) : (modCtx s c f).issuing = s.issuing := rfl
@[simp] theorem modCtx_upset (s : State) (c : Nat) (f : Ctx → Ctx) : (modCtx s c f).upset = s.upset := rfl
@[simp] theorem modCtx_others (s : State) (c : Nat) (f : Ctx → Ctx) : (modCtx s c f).others = s.others := rfl
@[simp] theorem modCtx_agenda (s : State) (c : Nat) (f : Ctx → Ctx) : (modCtx s c f).agenda = s.agenda := rfl
@[simp] theorem modCtx_teams (s : State) (c : Nat) (f : Ctx → Ctx) : (modCtx s c f).teams = s.teams := rfl
@[simp] theorem modCtx_tasks (s : State) (c : Nat) (f : Ctx → Ctx) : (modCtx s c f).tasks = s.tasks := rfl
@[simp] theorem modCtx_taskGroups (s : State) (c : Nat) (f : Ctx → Ctx) : (modCtx s c f).taskGroups = s.taskGroups := rfl
@[simp] theorem modCtx_launches (s : State) (c : Nat) (f : Ctx → Ctx) : (modCtx s c f).launches = s.launches := rfl
@[simp] theorem modCtx_trans (s : State) (c : Nat) (f : Ctx → Ctx) : (modCtx s c f).trans = s.trans := rfl
@[simp] theorem modCtx_cache (s : State) (c : Nat) (f : Ctx → Ctx) : (modCtx s c f).cache = s.cache := rfl
@[simp] theorem modCtx_verdicts (s : State) (c : Nat) (f : Ctx → Ctx) : (modCtx s c f).verdicts = s.verdicts := rfl
@[simp] theorem modCtx_cmds (s : State) (c : Nat) (f : Ctx → Ctx) : (modCtx s c f).cmds = s.cmds := rfl
@[simp] theorem modCtx_cores (s : State) (c : Nat) (f : Ctx → Ctx) : (modCtx s c f).cores = s.cores := rfl
@[simp] theorem modCtx_clusters (s : State) (c : Nat) (f : Ctx → Ctx) : (modCtx s c f).clusters = s.clusters := rfl
@[simp] theorem modCtx_samplers (s : State) (c : Nat) (f : Ctx → Ctx) : (modCtx s c f).samplers = s.samplers := rfl
@[simp] theorem modCtx_ctxs (s : State) (c : Nat) (f : Ctx → Ctx) : (modCtx s c f).ctxs = modBy (fun x => x.id == c) f s.ctxs := rfl
@[simp] theorem modCtx_front (s : State) (c : Nat) (f : Ctx → Ctx) : (modCtx s c f).front = s.front := rfl
@[simp] theorem modCtx_dies (s : State) (c : Nat) (f : Ctx → Ctx) : (modCtx s c f).dies = s.dies := rfl
@[simp] theorem modCtx_rel (s : State) (c : Nat) (f : Ctx → Ctx) : (modCtx s c f).rel = s.rel := rfl
@[simp] theorem modCtx_field (s : State) (c : Nat) (f : Ctx → Ctx) : (modCtx s c f).field = s.field := rfl
@[simp] theorem modCtx_boot (s : State) (c : Nat) (f : Ctx → Ctx) : (modCtx s c f).boot = s.boot := rfl
@[simp] theorem modCtx_conf (s : State) (c : Nat) (f : Ctx → Ctx) : (modCtx s c f).conf = s.conf := rfl
@[simp] theorem modCtx_fw (s : State) (c : Nat) (f : Ctx → Ctx) : (modCtx s c f).fw = s.fw := rfl
@[simp] theorem modCtx_power (s : State) (c : Nat) (f : Ctx → Ctx) : (modCtx s c f).power = s.power := rfl
@[simp] theorem modCtx_links (s : State) (c : Nat) (f : Ctx → Ctx) : (modCtx s c f).links = s.links := rfl
@[simp] theorem modCtx_spdm (s : State) (c : Nat) (f : Ctx → Ctx) : (modCtx s c f).spdm = s.spdm := rfl
@[simp] theorem modCtx_nextWatch (s : State) (c : Nat) (f : Ctx → Ctx) : (modCtx s c f).nextWatch = s.nextWatch := rfl

/-! ## modTeam -/

@[simp] theorem modTeam_steps (s : State) (u : Nat) (f : Team → Team) : (modTeam s u f).steps = s.steps := rfl
@[simp] theorem modTeam_tick (s : State) (u : Nat) (f : Team → Team) : (modTeam s u f).tick = s.tick := rfl
@[simp] theorem modTeam_cycle (s : State) (u : Nat) (f : Team → Team) : (modTeam s u f).cycle = s.cycle := rfl
@[simp] theorem modTeam_free (s : State) (u : Nat) (f : Team → Team) : (modTeam s u f).free = s.free := rfl
@[simp] theorem modTeam_nextId (s : State) (u : Nat) (f : Team → Team) : (modTeam s u f).nextId = s.nextId := rfl
@[simp] theorem modTeam_mem (s : State) (u : Nat) (f : Team → Team) : (modTeam s u f).mem = s.mem := rfl
@[simp] theorem modTeam_cur (s : State) (u : Nat) (f : Team → Team) : (modTeam s u f).cur = s.cur := rfl
@[simp] theorem modTeam_issuing (s : State) (u : Nat) (f : Team → Team) : (modTeam s u f).issuing = s.issuing := rfl
@[simp] theorem modTeam_upset (s : State) (u : Nat) (f : Team → Team) : (modTeam s u f).upset = s.upset := rfl
@[simp] theorem modTeam_others (s : State) (u : Nat) (f : Team → Team) : (modTeam s u f).others = s.others := rfl
@[simp] theorem modTeam_agenda (s : State) (u : Nat) (f : Team → Team) : (modTeam s u f).agenda = s.agenda := rfl
@[simp] theorem modTeam_teams (s : State) (u : Nat) (f : Team → Team) : (modTeam s u f).teams = modBy (fun t => t.uid == u) f s.teams := rfl
@[simp] theorem modTeam_tasks (s : State) (u : Nat) (f : Team → Team) : (modTeam s u f).tasks = s.tasks := rfl
@[simp] theorem modTeam_taskGroups (s : State) (u : Nat) (f : Team → Team) : (modTeam s u f).taskGroups = s.taskGroups := rfl
@[simp] theorem modTeam_launches (s : State) (u : Nat) (f : Team → Team) : (modTeam s u f).launches = s.launches := rfl
@[simp] theorem modTeam_trans (s : State) (u : Nat) (f : Team → Team) : (modTeam s u f).trans = s.trans := rfl
@[simp] theorem modTeam_cache (s : State) (u : Nat) (f : Team → Team) : (modTeam s u f).cache = s.cache := rfl
@[simp] theorem modTeam_verdicts (s : State) (u : Nat) (f : Team → Team) : (modTeam s u f).verdicts = s.verdicts := rfl
@[simp] theorem modTeam_cmds (s : State) (u : Nat) (f : Team → Team) : (modTeam s u f).cmds = s.cmds := rfl
@[simp] theorem modTeam_cores (s : State) (u : Nat) (f : Team → Team) : (modTeam s u f).cores = s.cores := rfl
@[simp] theorem modTeam_clusters (s : State) (u : Nat) (f : Team → Team) : (modTeam s u f).clusters = s.clusters := rfl
@[simp] theorem modTeam_samplers (s : State) (u : Nat) (f : Team → Team) : (modTeam s u f).samplers = s.samplers := rfl
@[simp] theorem modTeam_ctxs (s : State) (u : Nat) (f : Team → Team) : (modTeam s u f).ctxs = s.ctxs := rfl
@[simp] theorem modTeam_front (s : State) (u : Nat) (f : Team → Team) : (modTeam s u f).front = s.front := rfl
@[simp] theorem modTeam_dies (s : State) (u : Nat) (f : Team → Team) : (modTeam s u f).dies = s.dies := rfl
@[simp] theorem modTeam_rel (s : State) (u : Nat) (f : Team → Team) : (modTeam s u f).rel = s.rel := rfl
@[simp] theorem modTeam_field (s : State) (u : Nat) (f : Team → Team) : (modTeam s u f).field = s.field := rfl
@[simp] theorem modTeam_boot (s : State) (u : Nat) (f : Team → Team) : (modTeam s u f).boot = s.boot := rfl
@[simp] theorem modTeam_conf (s : State) (u : Nat) (f : Team → Team) : (modTeam s u f).conf = s.conf := rfl
@[simp] theorem modTeam_fw (s : State) (u : Nat) (f : Team → Team) : (modTeam s u f).fw = s.fw := rfl
@[simp] theorem modTeam_power (s : State) (u : Nat) (f : Team → Team) : (modTeam s u f).power = s.power := rfl
@[simp] theorem modTeam_links (s : State) (u : Nat) (f : Team → Team) : (modTeam s u f).links = s.links := rfl
@[simp] theorem modTeam_spdm (s : State) (u : Nat) (f : Team → Team) : (modTeam s u f).spdm = s.spdm := rfl
@[simp] theorem modTeam_nextWatch (s : State) (u : Nat) (f : Team → Team) : (modTeam s u f).nextWatch = s.nextWatch := rfl

/-! ## modCmd -/

@[simp] theorem modCmd_steps (s : State) (u : Nat) (f : Cmd → Cmd) : (modCmd s u f).steps = s.steps := rfl
@[simp] theorem modCmd_tick (s : State) (u : Nat) (f : Cmd → Cmd) : (modCmd s u f).tick = s.tick := rfl
@[simp] theorem modCmd_cycle (s : State) (u : Nat) (f : Cmd → Cmd) : (modCmd s u f).cycle = s.cycle := rfl
@[simp] theorem modCmd_free (s : State) (u : Nat) (f : Cmd → Cmd) : (modCmd s u f).free = s.free := rfl
@[simp] theorem modCmd_nextId (s : State) (u : Nat) (f : Cmd → Cmd) : (modCmd s u f).nextId = s.nextId := rfl
@[simp] theorem modCmd_mem (s : State) (u : Nat) (f : Cmd → Cmd) : (modCmd s u f).mem = s.mem := rfl
@[simp] theorem modCmd_cur (s : State) (u : Nat) (f : Cmd → Cmd) : (modCmd s u f).cur = s.cur := rfl
@[simp] theorem modCmd_issuing (s : State) (u : Nat) (f : Cmd → Cmd) : (modCmd s u f).issuing = s.issuing := rfl
@[simp] theorem modCmd_upset (s : State) (u : Nat) (f : Cmd → Cmd) : (modCmd s u f).upset = s.upset := rfl
@[simp] theorem modCmd_others (s : State) (u : Nat) (f : Cmd → Cmd) : (modCmd s u f).others = s.others := rfl
@[simp] theorem modCmd_agenda (s : State) (u : Nat) (f : Cmd → Cmd) : (modCmd s u f).agenda = s.agenda := rfl
@[simp] theorem modCmd_teams (s : State) (u : Nat) (f : Cmd → Cmd) : (modCmd s u f).teams = s.teams := rfl
@[simp] theorem modCmd_tasks (s : State) (u : Nat) (f : Cmd → Cmd) : (modCmd s u f).tasks = s.tasks := rfl
@[simp] theorem modCmd_taskGroups (s : State) (u : Nat) (f : Cmd → Cmd) : (modCmd s u f).taskGroups = s.taskGroups := rfl
@[simp] theorem modCmd_launches (s : State) (u : Nat) (f : Cmd → Cmd) : (modCmd s u f).launches = s.launches := rfl
@[simp] theorem modCmd_trans (s : State) (u : Nat) (f : Cmd → Cmd) : (modCmd s u f).trans = s.trans := rfl
@[simp] theorem modCmd_cache (s : State) (u : Nat) (f : Cmd → Cmd) : (modCmd s u f).cache = s.cache := rfl
@[simp] theorem modCmd_verdicts (s : State) (u : Nat) (f : Cmd → Cmd) : (modCmd s u f).verdicts = s.verdicts := rfl
@[simp] theorem modCmd_cmds (s : State) (u : Nat) (f : Cmd → Cmd) : (modCmd s u f).cmds = modBy (fun c => c.uid == u) f s.cmds := rfl
@[simp] theorem modCmd_cores (s : State) (u : Nat) (f : Cmd → Cmd) : (modCmd s u f).cores = s.cores := rfl
@[simp] theorem modCmd_clusters (s : State) (u : Nat) (f : Cmd → Cmd) : (modCmd s u f).clusters = s.clusters := rfl
@[simp] theorem modCmd_samplers (s : State) (u : Nat) (f : Cmd → Cmd) : (modCmd s u f).samplers = s.samplers := rfl
@[simp] theorem modCmd_ctxs (s : State) (u : Nat) (f : Cmd → Cmd) : (modCmd s u f).ctxs = s.ctxs := rfl
@[simp] theorem modCmd_front (s : State) (u : Nat) (f : Cmd → Cmd) : (modCmd s u f).front = s.front := rfl
@[simp] theorem modCmd_dies (s : State) (u : Nat) (f : Cmd → Cmd) : (modCmd s u f).dies = s.dies := rfl
@[simp] theorem modCmd_rel (s : State) (u : Nat) (f : Cmd → Cmd) : (modCmd s u f).rel = s.rel := rfl
@[simp] theorem modCmd_field (s : State) (u : Nat) (f : Cmd → Cmd) : (modCmd s u f).field = s.field := rfl
@[simp] theorem modCmd_boot (s : State) (u : Nat) (f : Cmd → Cmd) : (modCmd s u f).boot = s.boot := rfl
@[simp] theorem modCmd_conf (s : State) (u : Nat) (f : Cmd → Cmd) : (modCmd s u f).conf = s.conf := rfl
@[simp] theorem modCmd_fw (s : State) (u : Nat) (f : Cmd → Cmd) : (modCmd s u f).fw = s.fw := rfl
@[simp] theorem modCmd_power (s : State) (u : Nat) (f : Cmd → Cmd) : (modCmd s u f).power = s.power := rfl
@[simp] theorem modCmd_links (s : State) (u : Nat) (f : Cmd → Cmd) : (modCmd s u f).links = s.links := rfl
@[simp] theorem modCmd_spdm (s : State) (u : Nat) (f : Cmd → Cmd) : (modCmd s u f).spdm = s.spdm := rfl
@[simp] theorem modCmd_nextWatch (s : State) (u : Nat) (f : Cmd → Cmd) : (modCmd s u f).nextWatch = s.nextWatch := rfl

/-! ## modQueue -/

@[simp] theorem modQueue_steps (s : State) (q : QRef) (f : Queue → Queue) : (modQueue s q f).steps = s.steps := rfl
@[simp] theorem modQueue_tick (s : State) (q : QRef) (f : Queue → Queue) : (modQueue s q f).tick = s.tick := rfl
@[simp] theorem modQueue_cycle (s : State) (q : QRef) (f : Queue → Queue) : (modQueue s q f).cycle = s.cycle := rfl
@[simp] theorem modQueue_free (s : State) (q : QRef) (f : Queue → Queue) : (modQueue s q f).free = s.free := rfl
@[simp] theorem modQueue_nextId (s : State) (q : QRef) (f : Queue → Queue) : (modQueue s q f).nextId = s.nextId := rfl
@[simp] theorem modQueue_mem (s : State) (q : QRef) (f : Queue → Queue) : (modQueue s q f).mem = s.mem := rfl
@[simp] theorem modQueue_cur (s : State) (q : QRef) (f : Queue → Queue) : (modQueue s q f).cur = s.cur := rfl
@[simp] theorem modQueue_issuing (s : State) (q : QRef) (f : Queue → Queue) : (modQueue s q f).issuing = s.issuing := rfl
@[simp] theorem modQueue_upset (s : State) (q : QRef) (f : Queue → Queue) : (modQueue s q f).upset = s.upset := rfl
@[simp] theorem modQueue_others (s : State) (q : QRef) (f : Queue → Queue) : (modQueue s q f).others = s.others := rfl
@[simp] theorem modQueue_agenda (s : State) (q : QRef) (f : Queue → Queue) : (modQueue s q f).agenda = s.agenda := rfl
@[simp] theorem modQueue_teams (s : State) (q : QRef) (f : Queue → Queue) : (modQueue s q f).teams = s.teams := rfl
@[simp] theorem modQueue_tasks (s : State) (q : QRef) (f : Queue → Queue) : (modQueue s q f).tasks = s.tasks := rfl
@[simp] theorem modQueue_taskGroups (s : State) (q : QRef) (f : Queue → Queue) : (modQueue s q f).taskGroups = s.taskGroups := rfl
@[simp] theorem modQueue_launches (s : State) (q : QRef) (f : Queue → Queue) : (modQueue s q f).launches = s.launches := rfl
@[simp] theorem modQueue_trans (s : State) (q : QRef) (f : Queue → Queue) : (modQueue s q f).trans = s.trans := rfl
@[simp] theorem modQueue_cache (s : State) (q : QRef) (f : Queue → Queue) : (modQueue s q f).cache = s.cache := rfl
@[simp] theorem modQueue_verdicts (s : State) (q : QRef) (f : Queue → Queue) : (modQueue s q f).verdicts = s.verdicts := rfl
@[simp] theorem modQueue_cmds (s : State) (q : QRef) (f : Queue → Queue) : (modQueue s q f).cmds = s.cmds := rfl
@[simp] theorem modQueue_cores (s : State) (q : QRef) (f : Queue → Queue) : (modQueue s q f).cores = s.cores := rfl
@[simp] theorem modQueue_clusters (s : State) (q : QRef) (f : Queue → Queue) : (modQueue s q f).clusters = s.clusters := rfl
@[simp] theorem modQueue_samplers (s : State) (q : QRef) (f : Queue → Queue) : (modQueue s q f).samplers = s.samplers := rfl
@[simp] theorem modQueue_ctxs (s : State) (q : QRef) (f : Queue → Queue) : (modQueue s q f).ctxs = s.ctxs := rfl
@[simp] theorem modQueue_front (s : State) (q : QRef) (f : Queue → Queue) : (modQueue s q f).front = { s.front with queues := modBy (fun x => x.q == q) f s.front.queues } := rfl
@[simp] theorem modQueue_dies (s : State) (q : QRef) (f : Queue → Queue) : (modQueue s q f).dies = s.dies := rfl
@[simp] theorem modQueue_rel (s : State) (q : QRef) (f : Queue → Queue) : (modQueue s q f).rel = s.rel := rfl
@[simp] theorem modQueue_field (s : State) (q : QRef) (f : Queue → Queue) : (modQueue s q f).field = s.field := rfl
@[simp] theorem modQueue_boot (s : State) (q : QRef) (f : Queue → Queue) : (modQueue s q f).boot = s.boot := rfl
@[simp] theorem modQueue_conf (s : State) (q : QRef) (f : Queue → Queue) : (modQueue s q f).conf = s.conf := rfl
@[simp] theorem modQueue_fw (s : State) (q : QRef) (f : Queue → Queue) : (modQueue s q f).fw = s.fw := rfl
@[simp] theorem modQueue_power (s : State) (q : QRef) (f : Queue → Queue) : (modQueue s q f).power = s.power := rfl
@[simp] theorem modQueue_links (s : State) (q : QRef) (f : Queue → Queue) : (modQueue s q f).links = s.links := rfl
@[simp] theorem modQueue_spdm (s : State) (q : QRef) (f : Queue → Queue) : (modQueue s q f).spdm = s.spdm := rfl
@[simp] theorem modQueue_nextWatch (s : State) (q : QRef) (f : Queue → Queue) : (modQueue s q f).nextWatch = s.nextWatch := rfl

/-! ## setNat -/

@[simp] theorem setNat_steps (s : State) (f : Native → Native) : (setNat s f).steps = s.steps := rfl
@[simp] theorem setNat_tick (s : State) (f : Native → Native) : (setNat s f).tick = s.tick := rfl
@[simp] theorem setNat_cycle (s : State) (f : Native → Native) : (setNat s f).cycle = s.cycle := rfl
@[simp] theorem setNat_free (s : State) (f : Native → Native) : (setNat s f).free = s.free := rfl
@[simp] theorem setNat_nextId (s : State) (f : Native → Native) : (setNat s f).nextId = s.nextId := rfl
@[simp] theorem setNat_mem (s : State) (f : Native → Native) : (setNat s f).mem = s.mem := rfl
@[simp] theorem setNat_cur (s : State) (f : Native → Native) : (setNat s f).cur = setNative s.cur f := rfl
@[simp] theorem setNat_issuing (s : State) (f : Native → Native) : (setNat s f).issuing = s.issuing := rfl
@[simp] theorem setNat_upset (s : State) (f : Native → Native) : (setNat s f).upset = s.upset := rfl
@[simp] theorem setNat_others (s : State) (f : Native → Native) : (setNat s f).others = s.others := rfl
@[simp] theorem setNat_agenda (s : State) (f : Native → Native) : (setNat s f).agenda = s.agenda := rfl
@[simp] theorem setNat_teams (s : State) (f : Native → Native) : (setNat s f).teams = s.teams := rfl
@[simp] theorem setNat_tasks (s : State) (f : Native → Native) : (setNat s f).tasks = s.tasks := rfl
@[simp] theorem setNat_taskGroups (s : State) (f : Native → Native) : (setNat s f).taskGroups = s.taskGroups := rfl
@[simp] theorem setNat_launches (s : State) (f : Native → Native) : (setNat s f).launches = s.launches := rfl
@[simp] theorem setNat_trans (s : State) (f : Native → Native) : (setNat s f).trans = s.trans := rfl
@[simp] theorem setNat_cache (s : State) (f : Native → Native) : (setNat s f).cache = s.cache := rfl
@[simp] theorem setNat_verdicts (s : State) (f : Native → Native) : (setNat s f).verdicts = s.verdicts := rfl
@[simp] theorem setNat_cmds (s : State) (f : Native → Native) : (setNat s f).cmds = s.cmds := rfl
@[simp] theorem setNat_cores (s : State) (f : Native → Native) : (setNat s f).cores = s.cores := rfl
@[simp] theorem setNat_clusters (s : State) (f : Native → Native) : (setNat s f).clusters = s.clusters := rfl
@[simp] theorem setNat_samplers (s : State) (f : Native → Native) : (setNat s f).samplers = s.samplers := rfl
@[simp] theorem setNat_ctxs (s : State) (f : Native → Native) : (setNat s f).ctxs = s.ctxs := rfl
@[simp] theorem setNat_front (s : State) (f : Native → Native) : (setNat s f).front = s.front := rfl
@[simp] theorem setNat_dies (s : State) (f : Native → Native) : (setNat s f).dies = s.dies := rfl
@[simp] theorem setNat_rel (s : State) (f : Native → Native) : (setNat s f).rel = s.rel := rfl
@[simp] theorem setNat_field (s : State) (f : Native → Native) : (setNat s f).field = s.field := rfl
@[simp] theorem setNat_boot (s : State) (f : Native → Native) : (setNat s f).boot = s.boot := rfl
@[simp] theorem setNat_conf (s : State) (f : Native → Native) : (setNat s f).conf = s.conf := rfl
@[simp] theorem setNat_fw (s : State) (f : Native → Native) : (setNat s f).fw = s.fw := rfl
@[simp] theorem setNat_power (s : State) (f : Native → Native) : (setNat s f).power = s.power := rfl
@[simp] theorem setNat_links (s : State) (f : Native → Native) : (setNat s f).links = s.links := rfl
@[simp] theorem setNat_spdm (s : State) (f : Native → Native) : (setNat s f).spdm = s.spdm := rfl
@[simp] theorem setNat_nextWatch (s : State) (f : Native → Native) : (setNat s f).nextWatch = s.nextWatch := rfl

/-! ## advance -/

@[simp] theorem advance_steps (s : State)  : (advance s).steps = s.steps := rfl
@[simp] theorem advance_tick (s : State)  : (advance s).tick = s.tick := rfl
@[simp] theorem advance_cycle (s : State)  : (advance s).cycle = s.cycle := rfl
@[simp] theorem advance_free (s : State)  : (advance s).free = s.free := rfl
@[simp] theorem advance_nextId (s : State)  : (advance s).nextId = s.nextId := rfl
@[simp] theorem advance_mem (s : State)  : (advance s).mem = s.mem := rfl
@[simp] theorem advance_cur (s : State)  : (advance s).cur = { s.cur with off := s.cur.off + hereLen s } := rfl
@[simp] theorem advance_issuing (s : State)  : (advance s).issuing = s.issuing := rfl
@[simp] theorem advance_upset (s : State)  : (advance s).upset = s.upset := rfl
@[simp] theorem advance_others (s : State)  : (advance s).others = s.others := rfl
@[simp] theorem advance_agenda (s : State)  : (advance s).agenda = s.agenda := rfl
@[simp] theorem advance_teams (s : State)  : (advance s).teams = s.teams := rfl
@[simp] theorem advance_tasks (s : State)  : (advance s).tasks = s.tasks := rfl
@[simp] theorem advance_taskGroups (s : State)  : (advance s).taskGroups = s.taskGroups := rfl
@[simp] theorem advance_launches (s : State)  : (advance s).launches = s.launches := rfl
@[simp] theorem advance_trans (s : State)  : (advance s).trans = s.trans := rfl
@[simp] theorem advance_cache (s : State)  : (advance s).cache = s.cache := rfl
@[simp] theorem advance_verdicts (s : State)  : (advance s).verdicts = s.verdicts := rfl
@[simp] theorem advance_cmds (s : State)  : (advance s).cmds = s.cmds := rfl
@[simp] theorem advance_cores (s : State)  : (advance s).cores = s.cores := rfl
@[simp] theorem advance_clusters (s : State)  : (advance s).clusters = s.clusters := rfl
@[simp] theorem advance_samplers (s : State)  : (advance s).samplers = s.samplers := rfl
@[simp] theorem advance_ctxs (s : State)  : (advance s).ctxs = s.ctxs := rfl
@[simp] theorem advance_front (s : State)  : (advance s).front = s.front := rfl
@[simp] theorem advance_dies (s : State)  : (advance s).dies = s.dies := rfl
@[simp] theorem advance_rel (s : State)  : (advance s).rel = s.rel := rfl
@[simp] theorem advance_field (s : State)  : (advance s).field = s.field := rfl
@[simp] theorem advance_boot (s : State)  : (advance s).boot = s.boot := rfl
@[simp] theorem advance_conf (s : State)  : (advance s).conf = s.conf := rfl
@[simp] theorem advance_fw (s : State)  : (advance s).fw = s.fw := rfl
@[simp] theorem advance_power (s : State)  : (advance s).power = s.power := rfl
@[simp] theorem advance_links (s : State)  : (advance s).links = s.links := rfl
@[simp] theorem advance_spdm (s : State)  : (advance s).spdm = s.spdm := rfl
@[simp] theorem advance_nextWatch (s : State)  : (advance s).nextWatch = s.nextWatch := rfl

/-! ## modGroup and modBy -/

@[simp] theorem modGroup_steps (s : State) (u : Nat) (f : Group → Group) : (modGroup s u f).steps = s.steps := by
  unfold modGroup; split <;> rfl
@[simp] theorem modGroup_tick (s : State) (u : Nat) (f : Group → Group) : (modGroup s u f).tick = s.tick := by
  unfold modGroup; split <;> rfl
@[simp] theorem modGroup_cycle (s : State) (u : Nat) (f : Group → Group) : (modGroup s u f).cycle = s.cycle := by
  unfold modGroup; split <;> rfl
@[simp] theorem modGroup_free (s : State) (u : Nat) (f : Group → Group) : (modGroup s u f).free = s.free := by
  unfold modGroup; split <;> rfl
@[simp] theorem modGroup_nextId (s : State) (u : Nat) (f : Group → Group) : (modGroup s u f).nextId = s.nextId := by
  unfold modGroup; split <;> rfl
@[simp] theorem modGroup_issuing (s : State) (u : Nat) (f : Group → Group) : (modGroup s u f).issuing = s.issuing := by
  unfold modGroup; split <;> rfl
@[simp] theorem modGroup_upset (s : State) (u : Nat) (f : Group → Group) : (modGroup s u f).upset = s.upset := by
  unfold modGroup; split <;> rfl
@[simp] theorem modGroup_agenda (s : State) (u : Nat) (f : Group → Group) : (modGroup s u f).agenda = s.agenda := by
  unfold modGroup; split <;> rfl
@[simp] theorem modGroup_teams (s : State) (u : Nat) (f : Group → Group) : (modGroup s u f).teams = s.teams := by
  unfold modGroup; split <;> rfl
@[simp] theorem modGroup_tasks (s : State) (u : Nat) (f : Group → Group) : (modGroup s u f).tasks = s.tasks := by
  unfold modGroup; split <;> rfl
@[simp] theorem modGroup_taskGroups (s : State) (u : Nat) (f : Group → Group) : (modGroup s u f).taskGroups = s.taskGroups := by
  unfold modGroup; split <;> rfl
@[simp] theorem modGroup_launches (s : State) (u : Nat) (f : Group → Group) : (modGroup s u f).launches = s.launches := by
  unfold modGroup; split <;> rfl
@[simp] theorem modGroup_trans (s : State) (u : Nat) (f : Group → Group) : (modGroup s u f).trans = s.trans := by
  unfold modGroup; split <;> rfl
@[simp] theorem modGroup_cache (s : State) (u : Nat) (f : Group → Group) : (modGroup s u f).cache = s.cache := by
  unfold modGroup; split <;> rfl
@[simp] theorem modGroup_verdicts (s : State) (u : Nat) (f : Group → Group) : (modGroup s u f).verdicts = s.verdicts := by
  unfold modGroup; split <;> rfl
@[simp] theorem modGroup_cmds (s : State) (u : Nat) (f : Group → Group) : (modGroup s u f).cmds = s.cmds := by
  unfold modGroup; split <;> rfl
@[simp] theorem modGroup_cores (s : State) (u : Nat) (f : Group → Group) : (modGroup s u f).cores = s.cores := by
  unfold modGroup; split <;> rfl
@[simp] theorem modGroup_clusters (s : State) (u : Nat) (f : Group → Group) : (modGroup s u f).clusters = s.clusters := by
  unfold modGroup; split <;> rfl
@[simp] theorem modGroup_samplers (s : State) (u : Nat) (f : Group → Group) : (modGroup s u f).samplers = s.samplers := by
  unfold modGroup; split <;> rfl
@[simp] theorem modGroup_ctxs (s : State) (u : Nat) (f : Group → Group) : (modGroup s u f).ctxs = s.ctxs := by
  unfold modGroup; split <;> rfl
@[simp] theorem modGroup_front (s : State) (u : Nat) (f : Group → Group) : (modGroup s u f).front = s.front := by
  unfold modGroup; split <;> rfl
@[simp] theorem modGroup_dies (s : State) (u : Nat) (f : Group → Group) : (modGroup s u f).dies = s.dies := by
  unfold modGroup; split <;> rfl
@[simp] theorem modGroup_rel (s : State) (u : Nat) (f : Group → Group) : (modGroup s u f).rel = s.rel := by
  unfold modGroup; split <;> rfl
@[simp] theorem modGroup_field (s : State) (u : Nat) (f : Group → Group) : (modGroup s u f).field = s.field := by
  unfold modGroup; split <;> rfl
@[simp] theorem modGroup_boot (s : State) (u : Nat) (f : Group → Group) : (modGroup s u f).boot = s.boot := by
  unfold modGroup; split <;> rfl
@[simp] theorem modGroup_conf (s : State) (u : Nat) (f : Group → Group) : (modGroup s u f).conf = s.conf := by
  unfold modGroup; split <;> rfl
@[simp] theorem modGroup_fw (s : State) (u : Nat) (f : Group → Group) : (modGroup s u f).fw = s.fw := by
  unfold modGroup; split <;> rfl
@[simp] theorem modGroup_power (s : State) (u : Nat) (f : Group → Group) : (modGroup s u f).power = s.power := by
  unfold modGroup; split <;> rfl
@[simp] theorem modGroup_links (s : State) (u : Nat) (f : Group → Group) : (modGroup s u f).links = s.links := by
  unfold modGroup; split <;> rfl
@[simp] theorem modGroup_spdm (s : State) (u : Nat) (f : Group → Group) : (modGroup s u f).spdm = s.spdm := by
  unfold modGroup; split <;> rfl
@[simp] theorem modGroup_nextWatch (s : State) (u : Nat) (f : Group → Group) : (modGroup s u f).nextWatch = s.nextWatch := by
  unfold modGroup; split <;> rfl

@[simp] theorem modBy_nil {α : Type} (p : α → Bool) (f : α → α) : modBy p f [] = [] := rfl
@[simp] theorem modBy_cons {α : Type} (p : α → Bool) (f : α → α) (x : α) (xs : List α) :
    modBy p f (x :: xs) = (if p x then f x else x) :: modBy p f xs := rfl
@[simp] theorem modBy_length {α : Type} (p : α → Bool) (f : α → α) (xs : List α) :
    (modBy p f xs).length = xs.length := by simp [modBy]

end Sys2Proof.Machine
end

