-- ==== Sys2Proof/Laws/Ops.lean ====
section
/-! SUPPORT. What the shared operations can do: writes of the front end, the dump buffer, stops and
resumption, and the loads and stores of a group. -/

namespace Sys2Proof.Machine

open Sys2Proof

/-! ## Writes of the front end and the dump buffer -/

/-- A write under a key handle changes memory and uses up one name. -/
theorem putWith_frame (s : State) (o : Obs) (r : Reach) (cs : List Carry) (key : Nat) (bs : List (Nat × Byte)) :
    putWith s o r cs key bs = { s with mem := (putWith s o r cs key bs).mem, nextId := s.nextId + 1 } := rfl

theorem putAs_frame (s : State) (o : Obs) (key : Nat) (bs : List (Nat × Byte)) :
    putAs s o key bs = { s with mem := (putAs s o key bs).mem, nextId := s.nextId + 1 } := rfl

theorem writeFails_frame (s : State) (k : Nat) :
    (writeFails s k).2 = { s with free := (writeFails s k).2.free } := by
  unfold writeFails
  split <;> rfl

/-- `t` differs from `s` in memory, the counts of names and free choices, and the count of dropped entries
alone, and keeps memory's canonical form. -/
def DumpOnly (s t : State) : Prop :=
  (∃ m f n d, t = { s with mem := m, free := f, nextId := n, front := { s.front with droppedDumps := d } }) ∧
  (s.mem.wf = true → t.mem.wf = true)

theorem dumpOnly_refl (s : State) : DumpOnly s s := ⟨⟨s.mem, s.free, s.nextId, s.front.droppedDumps, rfl⟩, id⟩

theorem dumpOnly_trans (s t u : State) (h : DumpOnly s t) (k : DumpOnly t u) : DumpOnly s u := by
  obtain ⟨⟨m, f, n, d, rfl⟩, hw⟩ := h
  obtain ⟨⟨m', f', n', d', rfl⟩, kw⟩ := k
  exact ⟨⟨m', f', n', d', rfl⟩, fun h => kw (hw h)⟩

theorem dumpOnly_feWrite (s : State) (bs : List (Nat × Byte)) : DumpOnly s (feWrite s bs) :=
  ⟨⟨_, s.free, s.nextId + 1, s.front.droppedDumps, rfl⟩, feWrite_wf s bs⟩

theorem dumpOnly_feWriteNat (s : State) (k n x : Nat) : DumpOnly s (feWriteNat s k n x) := dumpOnly_feWrite s _

theorem dumpOnly_freeNo (s : State) : DumpOnly s (freeNo s).2 :=
  ⟨⟨s.mem, s.free + 1, s.nextId, s.front.droppedDumps, rfl⟩, id⟩

theorem dumpOnly_dropDump (s : State) : DumpOnly s (dropDump s) :=
  ⟨⟨s.mem, s.free, s.nextId, s.front.droppedDumps + 1, rfl⟩, id⟩

theorem dumpOnly_writeFails (s : State) (k : Nat) : DumpOnly s (writeFails s k).2 := by
  unfold writeFails
  split
  · exact dumpOnly_freeNo s
  · exact dumpOnly_refl s

/-- What an entry of the dump buffer can do. -/
theorem dumpEntry_only (s : State) (q : QRef) (ctx seq type : Nat) (fired : Bool) (payload : List Byte) :
    DumpOnly s (dumpEntry s q ctx seq type fired payload) := by
  unfold dumpEntry
  split
  · exact dumpOnly_dropDump s
  · split
    · exact dumpOnly_dropDump s
    · split
      · exact dumpOnly_dropDump s
      · rename_i k _
        have h1 := dumpOnly_writeFails s k
        have h2 := dumpOnly_trans _ _ _ h1 (dumpOnly_freeNo (writeFails s k).2)
        revert h1 h2
        generalize writeFails s k = r
        obtain ⟨bad, s1⟩ := r
        dsimp only
        generalize freeNo s1 = r2
        obtain ⟨n, s2⟩ := r2
        dsimp only
        intro h1 h2
        split
        · exact dumpOnly_trans _ _ _ h1 (dumpOnly_dropDump s1)
        · refine dumpOnly_trans _ _ _ h2 ?_
          split
          · exact dumpOnly_trans _ _ _ (dumpOnly_feWrite _ _) (dumpOnly_feWriteNat _ _ _ _)
          · split
            · refine dumpOnly_trans _ _ _ (dumpOnly_trans _ _ _ ?_ (dumpOnly_feWrite _ _)) (dumpOnly_feWriteNat _ _ _ _)
              split
              · exact dumpOnly_feWrite _ _
              · exact dumpOnly_refl _
            · exact dumpOnly_feWriteNat _ _ _ _

theorem dumpEntry_wf (s : State) (q : QRef) (ctx seq type : Nat) (fired : Bool) (payload : List Byte)
    (h : s.mem.wf = true) : (dumpEntry s q ctx seq type fired payload).mem.wf = true :=
  (dumpEntry_only s q ctx seq type fired payload).2 h

/-! ## Groups by name -/

theorem groupOf_cur (s : State) (h : s.cur.st ≠ .free) : groupOf s s.cur.uid = some s.cur := by
  simp [groupOf, h]

theorem modGroup_cur (s : State) (f : Group → Group) (h : s.cur.st ≠ .free) :
    modGroup s s.cur.uid f = { s with cur := f s.cur } := by
  simp [modGroup, h]

theorem releaseHelpers_frame (s : State) (u : Nat) :
    releaseHelpers s u = { s with cur := (releaseHelpers s u).cur, others := (releaseHelpers s u).others } := rfl

/-- A group that is no party of a HERD keeps its place when helpers are released. -/
theorem releaseHelpers_cur (s : State) (u : Nat) (h : s.cur.party = none) : (releaseHelpers s u).cur = s.cur := by
  simp [releaseHelpers, h]

/-- A result that lands, and the end of the operations of variable latency, leave the party of a group alone. -/
theorem landDst_party (g : Group) (d : Dst) (m : Mask) (xs : List Lane) : (landDst g d m xs).party = g.party := by
  cases d <;> rfl

theorem landVar_party (g : Group) : (landVar g).party = g.party := by
  have one : ∀ (ds : List (Dst × Mask × List Lane)) (g : Group),
      (ds.foldl (fun g d => landDst g d.1 d.2.1 d.2.2) g).party = g.party := by
    intro ds
    induction ds with
    | nil => intro g; rfl
    | cons d ds ih => intro g; rw [List.foldl_cons, ih, landDst_party]
  have all : ∀ (vs : List VarOp) (g : Group),
      (vs.foldl (fun g v => v.dsts.foldl (fun g d => landDst g d.1 d.2.1 d.2.2) g) g).party = g.party := by
    intro vs
    induction vs with
    | nil => intro g; rfl
    | cons v vs ih => intro g; rw [List.foldl_cons, ih, one]
  unfold landVar
  split
  · rfl
  · exact all _ _

/-! ## Stops and resumption -/

/-- The group taken up for issue enters HALTED; nothing else of it changes but what a stop notes. -/
theorem haltGroup_cur (s : State) (i : StopInfo) (h : s.cur.st ≠ .free) (hp : s.cur.party = none) :
    (haltGroup s s.cur.uid i).cur =
      { landVar s.cur with st := .halted, stopCode := i.stop, stopPpc := i.ppc, stopRec := stopRecord s s.cur i,
                           fast := false, stopReq := 0 } := by
  unfold haltGroup
  rw [groupOf_cur s h]
  dsimp only
  obtain ⟨⟨m, f, n, d, hd⟩, -⟩ := dumpEntry_only s (launchQ s s.cur.launch).1 s.cur.ctx (launchQ s s.cur.launch).2 2
    false (stopRecord s s.cur i ++ List.replicate 16 0)
  rw [hd, modGroup_cur _ _ (by exact h)]
  exact releaseHelpers_cur _ _ (by simpa [landVar_party] using hp)

theorem haltGroup_wf (s : State) (u : Nat) (i : StopInfo) (h : s.mem.wf = true) :
    (haltGroup s u i).mem.wf = true := by
  unfold haltGroup
  split
  · exact h
  · dsimp only
    rw [releaseHelpers_frame]
    dsimp only
    rw [modGroup_mem]
    exact dumpEntry_wf _ _ _ _ _ _ _ h

theorem takeTrap_wf (s : State) (t : Trap) (h : s.mem.wf = true) : (takeTrap s t).mem.wf = true :=
  haltGroup_wf _ _ _ h

theorem resumeGroup_wf (s : State) (u : Nat) (h : s.mem.wf = true) : (resumeGroup s u).mem.wf = true := by
  unfold resumeGroup
  dsimp only
  rw [modGroup_mem]
  exact publish_wf s u _ h

/-! ## Loads and stores of a group -/

theorem noteRead_frame (s : State) (k : Nat) (id : Option Nat) :
    noteRead s k id = { s with cur := { s.cur with floor := (noteRead s k id).cur.floor } } := by
  cases id <;> rfl

/-- A byte read advances nothing but the group's floor. -/
theorem loadByte_frame (s : State) (n i : Nat) (ks : List Nat) (k : Nat) :
    (loadByte s n i ks k).2 = { s with cur := { s.cur with floor := (loadByte s n i ks k).2.cur.floor } } := by
  unfold loadByte
  split
  · rfl
  · exact noteRead_frame ..

theorem loadBytes_frame (n t : Nat) (split : Bool) (ws ks : List Nat) (i : Nat) (s : State) :
    (loadBytes n t split ws ks i s).2 =
      { s with cur := { s.cur with floor := (loadBytes n t split ws ks i s).2.cur.floor } } := by
  induction ks generalizing i s with
  | nil => rfl
  | cons k ks ih =>
    simp only [loadBytes]
    split <;> rw [ih, loadByte_frame]

/-- A load advances the floor, the instant of the loads after it, and the count of free choices. -/
theorem loadVal_frame (s : State) (k n : Nat) :
    (loadVal s k n).2 = { s with cur := { s.cur with floor := (loadVal s k n).2.cur.floor,
                                                     early := (loadVal s k n).2.cur.early },
                                 free := s.free + n } := by
  unfold loadVal
  dsimp only
  rw [loadBytes_frame]
  rfl

/-- A store enters the queue; memory itself is unchanged. -/
theorem storeVal_frame (s : State) (k n x : Nat) (cs : List Carry) :
    storeVal s k n x cs = { s with cur := { s.cur with storeQ := (storeVal s k n x cs).cur.storeQ },
                                   nextId := (storeVal s k n x cs).nextId } := by
  have go : ∀ (bs : List (Nat × Byte)) (s : State),
      bs.foldl (fun s b => pushStore s [b] cs) s =
        { s with cur := { s.cur with storeQ := (bs.foldl (fun s b => pushStore s [b] cs) s).cur.storeQ },
                 nextId := (bs.foldl (fun s b => pushStore s [b] cs) s).nextId } := by
    intro bs
    induction bs with
    | nil => intro s; rfl
    | cons b bs ih =>
      intro s
      rw [List.foldl_cons, ih]
      rfl
  unfold storeVal
  split
  · rfl
  · exact go _ s

end Sys2Proof.Machine
end

