-- ==== Sys2Proof/Laws/Results.lean ====
section
/-! SUPPORT. What the operations that write results can do: association lists, values of the top frame,
`finish`, `finishAll` and `perThread` (R32, R139). -/

namespace Sys2Proof.Machine

open Sys2Proof Sys2Proof.Safety

/-! ## Association lists -/

theorem assocGet_set_same {α : Type} (k : Nat) (v : α) (xs : List (Nat × α)) :
    assocGet k (assocSet k v xs) = some v := by
  induction xs with
  | nil => simp [assocSet, assocGet]
  | cons x xs ih =>
    obtain ⟨k', v'⟩ := x
    simp only [assocSet]
    split
    · simp [assocGet]
    · split
      · simp [assocGet]
      · rename_i h1 h2
        simp [assocGet, Ne.symm h2, ih]

theorem assocGet_set_other {α : Type} (j k : Nat) (v : α) (xs : List (Nat × α)) (h : j ≠ k) :
    assocGet j (assocSet k v xs) = assocGet j xs := by
  induction xs with
  | nil => simp [assocSet, assocGet, Ne.symm h]
  | cons x xs ih =>
    obtain ⟨k', v'⟩ := x
    simp only [assocSet]
    split
    · simp [assocGet, Ne.symm h]
    · split
      · rename_i h1 h2
        subst h2
        simp [assocGet, Ne.symm h]
      · simp [assocGet, ih]

/-! ## Values of the top frame -/

theorem setFrame_eq (g : Group) (f : Frame → Frame) :
    setFrame g f = { g with frames := match g.frames with | x :: xs => f x :: xs | [] => [] } := by
  cases g with
  | mk _ _ _ _ _ _ _ _ _ _ _ _ _ _ _ _ _ _ frames =>
    cases frames <;> rfl

/-- What `setVal` leaves alone, and the frame it writes. -/
theorem setVal_group (g : Group) (n : Nat) (m : Mask) (new : List Lane) :
    setVal g n m new = { g with frames := (setVal g n m new).frames } := by
  simp [setVal, setFrame_eq]

theorem setVal_frames (g : Group) (n : Nat) (m : Mask) (new : List Lane) (f : Frame) (fs : List Frame)
    (h : g.frames = f :: fs) :
    (setVal g n m new).frames =
      { f with vals := assocSet n (mergeLanes g.width m new ((assocGet n f.vals).getD [])) f.vals } :: fs := by
  simp [setVal, setFrame_eq, h]

theorem valLanes_setVal_same (g : Group) (n : Nat) (m : Mask) (new : List Lane) (h : g.frames ≠ []) :
    valLanes (setVal g n m new) n = mergeLanes g.width m new (valLanes g n) := by
  obtain ⟨f, fs, hf⟩ := List.exists_cons_of_ne_nil h
  simp [valLanes, setVal_frames g n m new f fs hf, hf, assocGet_set_same]

theorem valLanes_setVal_other (g : Group) (j n : Nat) (m : Mask) (new : List Lane) (h : j ≠ n) :
    valLanes (setVal g n m new) j = valLanes g j := by
  match hf : g.frames with
  | [] => simp [valLanes, setVal, setFrame_eq, hf]
  | f :: fs => simp [valLanes, setVal_frames g n m new f fs hf, hf, assocGet_set_other j n _ _ h]

theorem getLane_mergeLanes (w : Nat) (m : Mask) (new old : List Lane) (t : Nat) (h : t < w) :
    getLane (mergeLanes w m new old) t = if m.getLsbD t then getLane new t else getLane old t := by
  simp [getLane, mergeLanes, List.getD_eq_getElem?_getD, h]

/-! ## Several values -/

theorem setVals_group (g : Group) (m : Mask) (n : Nat) (vs : List (List Lane)) :
    setVals g m n vs = { g with frames := (setVals g m n vs).frames } := by
  induction vs generalizing g n with
  | nil => rfl
  | cons v vs ih =>
    rw [setVals, ih, setVal_group]

theorem setVals_frames (g : Group) (m : Mask) (n : Nat) (vs : List (List Lane)) (f : Frame) (fs : List Frame)
    (h : g.frames = f :: fs) : ∃ xs, (setVals g m n vs).frames = { f with vals := xs } :: fs := by
  induction vs generalizing g n f with
  | nil => exact ⟨f.vals, h⟩
  | cons v vs ih =>
    obtain ⟨xs, hx⟩ := ih (setVal g n m v) (n + 1) _ (setVal_frames g n m v f fs h)
    exact ⟨xs, hx⟩

theorem setVal_frames_ne (g : Group) (n : Nat) (m : Mask) (new : List Lane) (h : g.frames ≠ []) :
    (setVal g n m new).frames ≠ [] := by
  obtain ⟨f, fs, hf⟩ := List.exists_cons_of_ne_nil h
  simp [setVal_frames g n m new f fs hf]

theorem setVal_width (g : Group) (n : Nat) (m : Mask) (new : List Lane) : (setVal g n m new).width = g.width := by
  rw [setVal_group]

theorem valLanes_setVals_other (g : Group) (m : Mask) (n j : Nat) (vs : List (List Lane))
    (h : j < n ∨ n + vs.length ≤ j) : valLanes (setVals g m n vs) j = valLanes g j := by
  induction vs generalizing g n with
  | nil => rfl
  | cons v vs ih =>
    simp only [List.length_cons] at h
    rw [setVals, ih _ _ (by omega), valLanes_setVal_other _ _ _ _ _ (by omega)]

theorem valLanes_setVals_at (g : Group) (m : Mask) (n i : Nat) (vs : List (List Lane)) (v : List Lane)
    (hv : vs[i]? = some v) (h : g.frames ≠ []) :
    valLanes (setVals g m n vs) (n + i) = mergeLanes g.width m v (valLanes g (n + i)) := by
  induction vs generalizing g n i with
  | nil => simp at hv
  | cons x vs ih =>
    cases i with
    | zero =>
      simp only [List.getElem?_cons_zero, Option.some.injEq] at hv
      subst hv
      rw [setVals, valLanes_setVals_other _ _ _ _ _ (by omega), Nat.add_zero, valLanes_setVal_same g n m x h]
    | succ i =>
      simp only [List.getElem?_cons_succ] at hv
      have e : n + (i + 1) = n + 1 + i := by omega
      rw [setVals, e, ih _ _ _ hv (setVal_frames_ne g n m x h), setVal_width,
        valLanes_setVal_other _ _ _ _ _ (by omega)]

/-! ## Writing the results of the issuing instruction -/

theorem fullMask_get (w t : Nat) (hw : w ≤ 64) (h : t < w) : (fullMask w).getLsbD t = true := by
  simp [fullMask, BitVec.getLsbD_ofNat, Nat.testBit_two_pow_sub_one, h]
  omega

/-- `finish` with a mask: what it can do. -/
theorem setVals_wrote (s : State) (uni : Bool) (m : Mask) (rs : List (List Lane)) (hf : s.cur.frames ≠ [])
    (hm : ∀ t, t < s.cur.width → ¬ Receives s uni t → m.getLsbD t = false) :
    Wrote s (advance (setCur s fun g => setVals g m (hereVal s) rs)) uni rs.length := by
  obtain ⟨f, fs, hfs⟩ := List.exists_cons_of_ne_nil hf
  obtain ⟨xs, hxs⟩ := setVals_frames s.cur m (hereVal s) rs f fs hfs
  have hgrp := setVals_group s.cur m (hereVal s) rs
  have hlen : hereLen (setCur s fun g => setVals g m (hereVal s) rs) = hereLen s := by
    have hws : groupWords (setCur s fun g => setVals g m (hereVal s) rs)
        (setVals s.cur m (hereVal s) rs) = groupWords s s.cur := by
      rw [hgrp]; rfl
    have hoff : (setVals s.cur m (hereVal s) rs).off = s.cur.off := by rw [hgrp]
    simp only [hereLen, here, setCur, hxs, hfs]
    simp only [setCur] at hws
    rw [hws, hoff]
  have hcur : (advance (setCur s fun g => setVals g m (hereVal s) rs)).cur =
      { s.cur with frames := { f with vals := xs } :: fs, off := s.cur.off + hereLen s } := by
    simp only [advance, setCur] at hlen ⊢
    rw [hlen, hgrp, hxs]
  have hval : ∀ j, valLanes (advance (setCur s fun g => setVals g m (hereVal s) rs)).cur j =
      valLanes (setVals s.cur m (hereVal s) rs) j := by
    intro j
    rw [hcur]
    simp [valLanes, hxs]
  refine ⟨?_, ?_, ?_, ?_, ?_⟩
  · rw [hcur]
    simp only [advance, setCur] at hcur ⊢
    rw [hcur]
  · rw [hcur, hfs]; rfl
  · intro f' hf'
    rw [hfs] at hf'
    simp only [List.head?_cons, Option.some.injEq] at hf'
    subst hf'
    exact ⟨xs, by rw [hcur]; rfl⟩
  · intro j th h
    simp only [valueAt, hval, valLanes_setVals_other s.cur m (hereVal s) j rs h]
  · intro j th hth hr
    simp only [valueAt, hval]
    by_cases h : j < hereVal s ∨ hereVal s + rs.length ≤ j
    · rw [valLanes_setVals_other s.cur m (hereVal s) j rs h]
    · have hi : j - hereVal s < rs.length := by omega
      have e : j = hereVal s + (j - hereVal s) := by omega
      rw [e, valLanes_setVals_at s.cur m (hereVal s) (j - hereVal s) rs rs[j - hereVal s]
        (by simp [hi]) hf, getLane_mergeLanes _ _ _ _ _ hth, hm th hth hr]
      simp

theorem setVals_gives (s : State) (m : Mask) (rs : List (List Lane)) (hf : s.cur.frames ≠ [])
    (i th : Nat) (v : List Lane) (hv : rs[i]? = some v) (hth : th < s.cur.width) (hm : m.getLsbD th = true) :
    valueAt (advance (setCur s fun g => setVals g m (hereVal s) rs)) (hereVal s + i) th = getLane v th := by
  have hval : valLanes (advance (setCur s fun g => setVals g m (hereVal s) rs)).cur (hereVal s + i) =
      valLanes (setVals s.cur m (hereVal s) rs) (hereVal s + i) := rfl
  rw [valueAt, hval, valLanes_setVals_at s.cur m (hereVal s) i rs v hv hf, getLane_mergeLanes _ _ _ _ _ hth, hm]
  simp

/-- Everything that `perThread` can do. -/
theorem perThread_wrote (s : State) (uni : Bool) (k : Nat) (f : Nat → List Lane) (hf : s.cur.frames ≠ []) :
    Wrote s (perThread s uni k f) uni k := by
  have hl : ∀ g : Nat → List Lane, (columns s.cur.width k g).length = k := by simp [columns]
  unfold perThread
  split
  · rename_i hu
    have := setVals_wrote s true (fullMask s.cur.width) (columns s.cur.width k fun _ => f (leader s)) hf
      (fun t ht hr => absurd ⟨ht, Or.inl rfl⟩ hr)
    rw [hl] at this
    rw [hu]; exact this
  · rename_i hu
    have hu' : uni = false := by simpa using hu
    have := setVals_wrote s false s.cur.active (columns s.cur.width k f) hf
      (fun t ht hr => by
        cases hb : s.cur.active.getLsbD t
        · rfl
        · exact absurd ⟨ht, Or.inr hb⟩ hr)
    rw [hl] at this
    rw [hu']; exact this

theorem getLane_column (w k j th : Nat) (f : Nat → List Lane) (hj : j < k) (hth : th < w) (v : List Lane)
    (hv : (columns w k f)[j]? = some v) : getLane v th = (f th).getD j 0 := by
  simp only [columns, List.getElem?_map, List.getElem?_range hj, Option.map_some, Option.some.injEq] at hv
  subst hv
  simp [getLane, List.getD_eq_getElem?_getD, hth]

theorem perThread_value (s : State) (uni : Bool) (k : Nat) (f : Nat → List Lane) (hf : s.cur.frames ≠ [])
    (hw : s.cur.width ≤ 64) (j th : Nat) (hj : j < k) (hr : Receives s uni th) :
    valueAt (perThread s uni k f) (hereVal s + j) th = (f (if uni then leader s else th)).getD j 0 := by
  have hex : ∀ g : Nat → List Lane, ∃ v, (columns s.cur.width k g)[j]? = some v := by
    intro g; simp [columns, hj]
  unfold perThread
  split
  · rename_i hu
    obtain ⟨v, hv⟩ := hex fun _ => f (leader s)
    have := setVals_gives s (fullMask s.cur.width) _ hf j th v hv hr.1 (fullMask_get _ _ hw hr.1)
    exact this.trans (getLane_column _ k j th _ hj hr.1 v hv)
  · rename_i hu
    obtain ⟨v, hv⟩ := hex f
    have ha : s.cur.active.getLsbD th = true := by
      rcases hr.2 with h | h
      · exact absurd h hu
      · exact h
    have := setVals_gives s s.cur.active _ hf j th v hv hr.1 ha
    exact this.trans (getLane_column _ k j th _ hj hr.1 v hv)

/-- An instruction that is one `perThread` completes with its results. -/
theorem computes_perThread (i : Instr) (s : State) (uni : Bool) (res : List (Nat → Nat)) (f : Nat → List Lane)
    (hf : s.cur.frames ≠ []) (hw : s.cur.width ≤ 64) (he : exec i s = .next (perThread s uni res.length f))
    (hv : ∀ t j g, res[j]? = some g → (f t).getD j 0 = lane (g t)) : Computes i s uni res := by
  refine ⟨_, he, perThread_wrote s uni _ f hf, ?_⟩
  intro j g hg th hr
  have hj : j < res.length := by
    rcases Nat.lt_or_ge j res.length with h | h
    · exact h
    · simp [List.getElem?_eq_none h] at hg
  rw [perThread_value s uni _ f hf hw j th hj hr]
  exact hv _ j g hg

/-- The same for one result. -/
theorem computes_perThread1 (i : Instr) (s : State) (uni : Bool) (f : Nat → Nat) (g : Nat → Nat)
    (hf : s.cur.frames ≠ []) (hw : s.cur.width ≤ 64) (he : exec i s = .next (perThread1 s uni g))
    (hv : ∀ t, lane (g t) = lane (f t)) : Computes i s uni [f] := by
  refine computes_perThread i s uni [f] (fun t => [lane (g t)]) hf hw he ?_
  intro t j h hj
  cases j with
  | zero => simp at hj; subst hj; simpa using hv t
  | succ j => simp at hj

end Sys2Proof.Machine
end

