-- ==== Sys2Proof/Machine/Debugger.lean ====
section
/-! DEFINITION. What a debugger reads of a stopped group (17_debug_profile.md R347; 14 R305, R306). It changes
nothing, and no instruction does it. -/

namespace Sys2Proof.Machine

open Sys2Proof

/-- What a debugger finds of one live value. -/
inductive DebugVal where
  | lanes (xs : List Lane)
  | tile (t : Tile)
  /-- a rematerialised value is reported as the identity index that it names -/
  | identity (idx : Nat)
  /-- a value of an iteration younger than ITERATION: no value is given -/
  | younger
  deriving DecidableEq, Repr

/-- The group as it will stand once every fixed-latency result issued before the stopped bundle has landed; the
group itself keeps its snapshot registers. -/
def landedForDebug (g : Group) : Group :=
  match g.native with
  | none => g
  | some n => (n.pend.zipIdx).foldl (fun g p => landResult g p.1 p.2) g

/-- The native offset of a stop: the bundle that stopped, where the group goes on after it (TRAP, BRK), else the
bundle before which it stands. -/
def stopOff (g : Group) (n : Native) : Nat :=
  if g.stopCode = 1 ∨ g.stopCode = 2 then n.at_.1 + 1 + n.at_.2 else nextOff n

/-- One live item of a native group. -/
def debugItem (s : State) (g : Group) (img : List Word) (u : TUnit) (chain : List Nat) (it : LiveItem) :
    Option DebugVal :=
  match it.kind with
  | 0 => none
  | 5 => (g.native.bind fun n => assocGet (it.pay % 16) n.t).map .tile
  | 6 => some (.identity (it.pay % 256))
  | 7 => some .younger
  | k => (chain[it.frame]?.bind fun j => u.vals.find? fun v => v.key == (j, it.value)).bind fun v =>
      let (ty, uni) := classTy v.cls v.size
      (getLoc s g img ty uni k it.pay).map .lanes

/-- The live values of a stopped group, each with its frame and value number: of a native group those of the
side-table entry at its stop, else the values that its frames hold (R130). -/
def debugRead (s : State) (uid : Nat) : List (Nat × Nat × DebugVal) :=
  match groupOf s uid with
  | none => []
  | some g =>
    if g.st != .halted then []
    else match g.native with
      | none => (g.frames.zipIdx).flatMap fun p =>
          (p.1.vals.map fun v => (p.2, v.1, DebugVal.lanes v.2)) ++ p.1.tiles.map fun v => (p.2, v.1, DebugVal.tile v.2)
      | some n =>
        let img := imageOf s g
        let ws := groupWords s g
        let u := inlined ws g.unit
        match entryAt img (stopOff g n) with
        | none => []
        | some e =>
          let chain := entryChain img u e
          (liveItems img e).filterMap fun it =>
            (debugItem s (landedForDebug g) img u chain it).map fun v => (it.frame, it.value, v)

end Sys2Proof.Machine
end

