-- ==== Sys2Proof/Tests/Slice0.lean ====
section
/-! SUPPORT. Tests: witnesses that the hypotheses of the statements can be met, an ill-formed term for each check of
WellFormed, words written out from the encoding tables, and worked examples of the spec. -/

set_option maxRecDepth 100000

namespace Sys2Proof.Tests

open Sys2Proof Sys2Proof.Machine Sys2Proof.Safety

/-! ## States for the witnesses and the worked examples -/

/-- Body of one function: block 0 takes an i1 and a near address and ends in `brc %0, ^1, ^2`; blocks 1 and 2
end in `br ^3`, block 3 in `exit`. -/
def vBody : List Word :=
  [0xFF802000, 0x40000001, 0x40000010, 0x80403000, 0x00000000, 0xC0000001, 0xC0000002,
   0xFF800000, 0x80001000, 0xC0000003, 0xFF800000, 0x80001000, 0xC0000003, 0xFF800000, 0x81800000]

/-- An object of that function, one kernel of width 16 with helpers allowed, one helper entry and one constant
of a single i8 (R118 to R123). -/
def vObj (kernel0 kernel3 : Word) : List Word :=
  [0, 0, 0, 0, 64, 0x10001, 140, 172, 0x10001, 180, 0, 0, 0, 0, 0, 0, 80, 15, 0, 0] ++ vBody ++
  [kernel0, 0, 0x00080008, kernel3, 0, 0, 0, 0, 0, 0, 16, 0x02000001, 0, 0, 7]

/-- A loaded context 0 with slice 1 on core 0 of die 0, whose first 256 bytes are a window. -/
def tCtx : Ctx :=
  { Ctx.new 0 with st := .loaded, taskQuota := 1, slices := [⟨1, 0, false, 0⟩], windows := [⟨1, true, 0, 0⟩] }

/-- Threads 0 to 3 are active; value 0 is 1 in threads 0 and 2, value 1 their own word of the window. -/
def vs : State :=
  let s := placeGroup State.reset (vObj 0 2) none none
  { s with
    boot := .running, ctxs := [tCtx], issuing := false
    cur := { s.cur with
      off := 3, active := 0xF
      frames := [Frame.enter 0 [[1, 0, 1, 0], [0x400000, 0x400008, 0x4000F0, 0x4000F8]] 0xFFFF] } }

theorem vs_running : Running vs := by unfold Running; decide

/-- The same group as group 1 of a team of two, whose barrier 31 the other group has joined. -/
def teamOfTwo (arr : List Word) (done : Word) : Team :=
  { uid := 9, launch := 2, ctx := 0, idx := 0, die := 0, core := 0, brace := false, size := 2, regionOff := 0,
    regionLen := 256, nbar := 32, bars := List.replicate 31 ⟨0, [0, 0], []⟩ ++ [⟨done, arr, []⟩],
    ended := [false, false], held := [] }

def ts (arr : List Word) (done : Word) : State :=
  { vs with teams := [teamOfTwo arr done], cur := { vs.cur with kind := .team, team := 9, gidx := 1 } }

/-- A core that is frozen to a cycle, or taken off. -/
def tCore (frozenTo : Option Nat) (offline : Bool) : Core := { Core.new 0 0 with frozenTo, offline }

/-- The group as a helper of the HERD of a recruiter. -/
def tRange : Range :=
  { thread := 0, lo := 0, hi := 100, chunk := 10, next := 3, partials := [], rems := [], fault := none, helpers := 1,
    reason := 0, out := 1 }
def tHerd : Herd :=
  { helper := 0, fn := 0, caps := [[5]], ty := .i32, red := 1, signed := false, rnd := .rn, nres := 2, fmt := 4,
    ranges := [tRange], dst := 0, native := false, cmds := [], phase := 2 }
def tParty : Party :=
  { group := 7, thread := 0, helper := 1, slot := none, area := 1, die := 0, core := 0, chunk := some 2, iter := 20, stop := 30,
    partial_ := none, begun := false, release := false, gone := false }
def recruiter (h : Herd) : Group := { oneGroup 7 2 none with herd := some h }
def hs (h : Herd) (p : Party) : State :=
  { vs with cur := { vs.cur with kind := .party, party := some p }, others := [recruiter h] }

/-- An open matrix operation on single elements. -/
def aJob : MmaJob :=
  let z : Tile := .zero { elem := .f32, colsM1 := 0, rowsM1 := 0 }
  { kind := 1, fmtE8 := false, signA := false, signB := false, keep := 0, a := z, b := z, c := z, m := none, sa := none,
    sb := 0, cFrom := none, desc := z.desc, no := 0, depth := 1, dst := 0, tbf := false, ppc := (0, 0), batch := none,
    failed := false }

/-! ## Witnesses: the hypotheses of the statements can be met -/

theorem witness_IntegerArithmetic : Running vs := vs_running
theorem witness_BitOperations : Running vs := vs_running
theorem witness_WidthsAndNear : Running vs := vs_running
theorem witness_FloatArithmetic : Running vs := vs_running
theorem witness_ExactRounding : (1 : Nat) ≠ 0 ∧ fmtF32.round .rz false (.num false 1 0 false) < fmtF32.maxEnc ∧
    fmtE4m3.round .rz false (.num false 447 0 false) < fmtE4m3.maxEnc := by decide
theorem witness_FloatSelects : Running vs ∧ Ty.f32.isFloat = true ∧ Ty.f64.isFloat = true ∧
    fmtF32.decode 0x7FC00000 = .nan ∧ fmtF32.decode 0 ≠ .nan ∧ (fmtF32.decode 0x80000000).isZero = true ∧
    fvCmp (fmtF32.decode 0) (fmtF32.decode 1) = some .lt := ⟨vs_running, by decide⟩
theorem witness_PackedForms : Running vs := vs_running
/-- A destination that rounds stochastically finds its words in the queue. -/
theorem witness_Conversions :
    let s : State := { vs with cur := { vs.cur with rq := [List.replicate 16 7] } }
    Running s ∧ Ty.bf16.isFloat = true ∧ Ty.i8.isFloat = false ∧ (s.cur.width + 15) / 16 ≤ s.cur.rq.length :=
  ⟨vs_running, by decide⟩
theorem witness_BitsMoved : Running vs := vs_running
theorem witness_Comparisons : Running vs ∧ Ty.far.isFloat = false ∧ Ty.e5m2.isFloat = true := ⟨vs_running, by decide⟩

/-- Loads at the last word of the window, at the last byte of the slice, and of the one element of a constant. -/
theorem witness_Loads : Running vs ∧ Undamaged vs ∧
    (AllPass vs false (opdN vs .near (.val 1)) 8 8 false ∧ AllPass vs true (opdN vs .near (.val 1)) 1 2 false ∧
      Untouched vs (coreKey 0 0 0xF8) 8 ∧ groupNear vs vs.cur 0x4000F8 8 false = some (coreKey 0 0 0xF8)) ∧
    (AllPass vs false (fun t => localAddr vs vs.cur (opdN vs .i32 (.imm 0xFF) t)) 1 1 false ∧
      ∀ t, t ∈ accessors vs false → opdN vs .i32 (.imm 0xFF) t < 2 ^ 22) ∧
    (∀ t, t ∈ accessors vs false → opdN vs .i32 (.imm 0) t < (constEntry (groupWords vs vs.cur) 0).2.1 / 1) :=
  ⟨vs_running, by unfold Undamaged; decide, by unfold AllPass Untouched; decide, by unfold AllPass; decide, by decide⟩

theorem witness_NearStores : Running vs ∧ Undamaged vs ∧ vs.cur.width ≤ 64 ∧
    AllPass vs false (opdN vs .near (.val 1)) 8 8 true ∧
    AllPass vs true (opdN vs .near (.long2 0x4000FF 0)) 1 1 true ∧
    AllPass vs false (fun t => localAddr vs vs.cur (opdN vs .i32 (.imm 0xFC) t)) 4 4 true :=
  ⟨vs_running, by unfold Undamaged; decide, by decide, by unfold AllPass; decide⟩

/-- A misaligned access; an aligned one that ends one byte past the window; an offset past the slice; index 1
of one element. -/
theorem witness_AccessTraps : Running vs ∧
    (∃ t, t ∈ accessors vs false ∧ opdN vs .near (.long2 0x400004 0) t % 8 ≠ 0) ∧
    ((∀ t, t ∈ accessors vs false → opdN vs .near (.long2 0x4000FF 0) t % 1 = 0) ∧
      ∃ t, t ∈ accessors vs false ∧ groupNear vs vs.cur (opdN vs .near (.long2 0x4000FF 0) t) 2 true = none) ∧
    (∃ t, t ∈ accessors vs true ∧ 2 ^ 22 ≤ opdN vs .i32 (.imm 0x400000) t) ∧
    (∃ t, t ∈ accessors vs false ∧ (constEntry (groupWords vs vs.cur) 0).2.1 / 1 ≤ opdN vs .i32 (.imm 1) t) :=
  ⟨vs_running, by decide, by decide, by decide, by decide⟩

theorem witness_Atomics : Running vs ∧ Undamaged vs ∧ accessors vs false ≠ [] ∧
    AllPass vs false (opdN vs .near (.val 1)) 8 8 true ∧ AllPass vs true (opdN vs .near (.val 1)) 4 4 true :=
  ⟨vs_running, by unfold Undamaged; decide, by decide, by unfold AllPass; decide⟩

/-- The words of threads 0 and 1 are full, those of threads 2 and 3 empty: a take by the first two, a give by
the others. -/
theorem witness_FullEmptyWords :
    let s (m : Mask) : State := { vs with
      mem := { vs.mem with full := [coreKey 0 0 0, coreKey 0 0 8] }, cur := { vs.cur with active := m } }
    let ks (m : Mask) (w : Bool) := keysOf (s m) false (opdN (s m) .near (.val 1)) 8 w
    Running (s 3) ∧ Running (s 12) ∧ Undamaged (s 3) ∧ (s 3).mem.wf = true ∧ (s 3).cur.fe = none ∧
    (accessors (s 15) false ≠ [] ∧ AllPass (s 15) false (opdN (s 15) .near (.val 1)) 8 8 true) ∧
    (ks 3 false ≠ [] ∧ ((ks 3 false).map (·.2)).Nodup ∧ ∀ x, x ∈ ks 3 false → (s 3).mem.isFull x.2 = true) ∧
    (ks 12 true ≠ [] ∧ ((ks 12 true).map (·.2)).Nodup ∧ ∀ x, x ∈ ks 12 true → (s 12).mem.isFull x.2 = false) :=
  ⟨by unfold Running; decide, by unfold Running; decide, by unfold Undamaged; decide, by decide, by decide,
   by unfold AllPass; decide, by decide, by decide⟩

/-- Outside a helper, with and without the debug flag; in a helper; a HALTED group. -/
theorem witness_TrapsAndStops :
    let dbg : State := { vs with ctxs := [{ tCtx with debugCtl := 1 }] }
    let halted : State := { vs with others := [{ oneGroup 7 2 none with st := .halted, stopCode := 3 }] }
    (Running vs ∧ vs.cur.party = none ∧ vs.cur.native = none ∧ vs.mem.seals = []) ∧
    (Running dbg ∧ ∃ c, ctxOf dbg dbg.cur.ctx = some c ∧ c.debugCtl.getLsbD 0 = true) ∧
    (∀ c, ctxOf vs vs.cur.ctx = some c → c.debugCtl.getLsbD 0 = false) ∧
    (Running (hs tHerd tParty) ∧ (hs tHerd tParty).cur.party ≠ none) ∧
    (Running halted ∧ ∃ g, groupOf halted 7 = some g ∧ g.st = .halted) :=
  ⟨⟨vs_running, by decide⟩, ⟨vs_running, _, rfl, by decide⟩, by intro c h; cases h; decide,
   ⟨vs_running, by decide⟩, ⟨vs_running, _, rfl, by decide⟩⟩

/-- A detached group; a team's group that arrives last, first, one ahead and two ahead; phases complete and
not. -/
theorem witness_FencesAndBarriers :
    let meets (s : State) : Prop := Running s ∧ noBarriers s.cur = false ∧ ∃ tm x, teamOf s s.cur.team = some tm ∧
      tm.bars[31]? = some x ∧ s.cur.gidx.toNat < x.arr.length ∧ x.arr.length = tm.ended.length ∧
      tm.ended[s.cur.gidx.toNat]? = some false ∧ (∀ y, y ∈ tm.bars → y.ready tm.ended = false)
    (Running vs ∧ noBarriers vs.cur = true) ∧ meets (ts [1, 0] 0) ∧ meets (ts [0, 0] 0) ∧ meets (ts [0, 1] 0) ∧
    meets (ts [4, 6] 4) ∧ phaseDone (teamOfTwo [0, 0] 0) 31 0xFFFFFFFF = true ∧
    phaseDone (teamOfTwo [0, 0] 0) 31 0 = false := by
  refine ⟨⟨vs_running, by decide⟩, ?_, ?_, ?_, ?_, by decide, by decide⟩ <;>
    exact ⟨by unfold Running; decide, by decide, _, _, rfl, rfl, by decide, by decide, by decide, by decide⟩

/-- A condition whose address has no window; a token that is done, with time-out 0 and none; one outstanding,
due and not due. -/
theorem witness_Waits :
    let w (s : State) (c : CondV) (d : Option Nat) : Wait :=
      { conds := [c], all := true, deadline := d, dst := .value (hereVal s) 1, parked := [] }
    let busy : State := { vs with cur := { vs.cur with ctrs := vs.cur.ctrs.set 15 ⟨0, 1, []⟩, mfences := 1 } }
    let ok (s : State) (c : CondV) (b : Bool) : Prop := waitTrap s [c] = none ∧ tokenFault s.cur (w s c none) = none ∧
      batchFault s.cur (w s c none) = none ∧
      ∃ s1, judgeAll (w s c none) [(c, 0)] { s with cur := { s.cur with wait := some (w s c none) } } = (.ok [b], s1)
    Running vs ∧ vs.cur.native = none ∧ vs.cur.wait = none ∧ waitTrap vs [.fullWord 0x400100] = some .window ∧
    ok vs (.token 0) true ∧ ok busy (.token 0x1F) false ∧ ok vs (.emptyWord 0x4000F8) true ∧
    ok busy (.matrix 1) false ∧ (∀ j, j ∈ busy.cur.jobs → j.failed = false) ∧ batchDone vs.cur 0 = true ∧
    batchDone busy.cur 1 = false := by
  refine ⟨vs_running, by decide, by decide, by decide, ?_, ?_, ?_, ?_, by decide, by decide, by decide⟩ <;>
    exact ⟨by decide, by decide, by decide, _, rfl⟩

/-- A copy of 64 bytes that passes, one of unequal totals, one outside its window, one of no bytes; a token
whose counter has reached it, has not, or holds an error. -/
theorem witness_EngineCommands :
    let cp (n m base : Nat) : EngOp := .copy ⟨0, false, n, []⟩ ⟨base, true, m, []⟩
    let fits (o : EngOp) : Bool := (engCheck o).total == 0
      || (engCheck o).near.all fun e => extentOk vs vs.cur.ctx vs.cur.team e
    (Running vs ∧ vs.cur.ctrs.length = 16 ∧ (∀ c, c ∈ vs.cmds → c.uid < vs.nextId) ∧ vs.cur.party = none ∧
      vs.cmds.length < 64 ∧ ∃ c, c ∈ vs.cur.ctrs ∧ c.done = c.issued) ∧
    ((engCheck (cp 64 64 0x4000C0)).fmtOk = true ∧ fits (cp 64 64 0x4000C0) = true) ∧
    (engCheck (cp 64 62 0x4000C0)).fmtOk = false ∧
    ((engCheck (cp 64 64 0x4000C4)).fmtOk = true ∧ fits (cp 64 64 0x4000C4) = false) ∧
    ((engCheck (cp 0 0 0)).fmtOk = true ∧ (engCheck (cp 0 0 0)).total = 0) ∧
    (∃ c : Ctr, vs.cur.ctrs[15]? = some c ∧ (c.done.toNat + 2 ^ 28 - 0) % 2 ^ 28 < 2 ^ 27 ∧
      ¬ (c.done.toNat + 2 ^ 28 - 1) % 2 ^ 28 < 2 ^ 27 ∧ c.errs = []) :=
  ⟨⟨vs_running, by decide⟩, by decide, by decide, by decide, by decide, _, rfl, by decide⟩

theorem witness_GroupOperations : Running vs ∧ vs.cur.width = 16 ∧
    ∃ t, t < vs.cur.width ∧ vs.cur.active.getLsbD t = true := ⟨vs_running, by decide, 3, by decide⟩

/-- No reconvergence point: the true paths of both kinds, divided and whole; the stack at depth 160; a switch
whose selector divides; a group at block 3, the reconvergence point, with and without a path to run. -/
theorem witness_Branches :
    let m (c : Opd) : Mask := maskOf ((actives vs).filter fun t => (opd vs .i1 c t).getLsbD 0)
    let v (t : Nat) : Int := (loWord (opd vs .i32 (.val 0) t)).toInt
    let ent (todo : List (Mask × Nat)) : StackEnt := { full := 0xF, todo, rpc := some 3, fmt := 4 }
    let at3 (todo : List (Mask × Nat)) : State :=
      { vs with cur := { vs.cur with stack := [ent todo], off := 7, frames := vs.cur.frames.map fun f => { f with base := 0 } } }
    let deep : State := { vs with cur := { vs.cur with stack := List.replicate 160 (ent []) } }
    (Running vs ∧ vs.cur.active ≠ 0 ∧ ∀ b, ¬ AtJoin vs b) ∧
    (m (.imm 1) = vs.cur.active ∧ m (.imm 0) = 0 ∧ m (.val 0) ≠ 0 ∧ vs.cur.active &&& ~~~m (.val 0) ≠ 0) ∧
    (vs.cur.stack.length < 160 ∧ ipdom (itemsOf vs) (blockOf (itemsOf vs) vs.cur.off 0) ≠ some 1) ∧
    (Running deep ∧ 160 ≤ deep.cur.stack.length) ∧
    (([(5, ⟨1, []⟩), (0x3FFFFFFF, ⟨2, []⟩)] : List (BitVec 30 × Target)).map (·.1)).Nodup ∧
    (v 0 = (1 : BitVec 30).toInt ∧ v 1 ≠ (1 : BitVec 30).toInt ∧ v 1 = (0 : BitVec 30).toInt) ∧
    (∀ todo, todo = [] ∨ todo = [(3, 10)] → Running (at3 todo) ∧ (at3 todo).cur.active ≠ 0 ∧
      ∃ f fs, (at3 todo).cur.frames = f :: fs ∧ (at3 todo).cur.stack = ent todo :: [] ∧
        f.base < (at3 todo).cur.stack.length ∧ (ent todo).rpc = some (3 : BitVec 24).toNat ∧
        (3 : Mask) &&& ~~~(at3 todo).cur.exited &&& ~~~f.retMask ≠ 0 ∧
        (ent todo).full &&& ~~~(at3 todo).cur.exited &&& ~~~f.retMask ≠ 0 ∧ 10 ≠ blockStart (itemsOf (at3 todo)) 3) := by
  refine ⟨⟨vs_running, by decide, ?_⟩, by decide, by decide, ?_, by decide, by decide, ?_⟩
  · rintro b ⟨f, fs, e, es, -, h, -⟩; cases h
  · exact ⟨by unfold Running; decide, by decide⟩
  · rintro _ (rfl | rfl) <;>
      exact ⟨by unfold Running; decide, by decide, _, _, rfl, rfl, by decide⟩

/-- In a function called by another, its last threads; in the kernel; in a helper; in a team. -/
theorem witness_CallsAndExits :
    let called : State := { vs with cur := { vs.cur with
      frames := { Frame.enter 0 [] 0xF with base := 0, callMask := 0xF, retMask := 0 } :: vs.cur.frames } }
    let last : State := { vs with cur := { vs.cur with exited := 0xFFF0 } }
    let owes : State := { last with cur := { last.cur with ctrs := last.cur.ctrs.set 15 ⟨1, 1, [⟨1, .farFault, (0, 3), 9, 0⟩]⟩ } }
    (Running vs ∧ vs.cur.party = none ∧ vs.cur.frames.length = 1 ∧ vs.cur.kind ≠ .team) ∧
    (Running last ∧ Running owes ∧ (∀ s, s = last ∨ s = owes → s.cur.exited ||| s.cur.active = fullMask s.cur.width ∧
      s.cur.party = none ∧ cmdsBy s s.cur.uid = []) ∧ tokErrs last.cur = [] ∧ tokErrs owes.cur ≠ []) ∧
    (Running called ∧ ∃ f c cs, called.cur.frames = f :: c :: cs ∧ called.cur.stack.length ≤ f.base ∧
      called.cur.active ≠ 0 ∧ called.cur.active ||| f.retMask = f.callMask &&& ~~~called.cur.exited) ∧
    (Running (hs tHerd tParty) ∧ (hs tHerd tParty).cur.party ≠ none) ∧
    (Running (ts [] 0) ∧ (ts [] 0).cur.kind = .team ∧ ∃ l, launchOf (ts [] 0) (ts [] 0).cur.launch = some l) :=
  ⟨⟨vs_running, by decide⟩, ⟨by unfold Running; decide, by unfold Running; decide, by rintro _ (rfl | rfl) <;> decide, by decide, by decide⟩,
   ⟨by unfold Running; decide, _, _, _, rfl, by decide⟩, ⟨by unfold Running; decide, by decide⟩,
   ⟨by unfold Running; decide, by decide, _, rfl⟩⟩

/-- A core without a free seat (taken off), one with it; an address without a slice, and one with; helpers
allowed and turned off. -/
theorem witness_NewWorkAndHerds :
    let l : Launch := oneLaunch 2 (vObj 0 2)
    let coop : State := { vs with launches := [oneLaunch 2 (vObj 0 6)] }
    let off : State := { coop with cores := [tCore none true] }
    let offL : Launch := { l with body := { l.body with helpersOff := true } }
    (Running vs ∧ launchOf vs vs.cur.launch = some l ∧ NamesFresh vs ∧ vs.cur.herd = none) ∧
    (teamsWait l vs.cur.die (vs.cur.core / 16) = false ∧
      detachedSeat (drainQ off) l vs.cur.die vs.cur.core 0 (some 8) = none ∧
      ∃ slot o, detachedSeat (drainQ vs) l vs.cur.die vs.cur.core 0 (some 8) = some (slot, o)) ∧
    (∃ t, t ∈ accessors vs false ∧ homeOf vs 0 (opdN vs .near (.imm 0xFFFFFF) t) = none) ∧
    ((∀ t, t ∈ accessors vs true → (homeOf vs 0 (opdN vs .near (.val 1) t)).isSome) ∧ ctxOf vs 0 = some tCtx ∧
      l.ctx = 0 ∧ (vs.launches.map (·.uid)).Nodup) ∧
    ((kernelIn l).helpers = true ∧ (kernelIn l).coop = false ∧ l.body.helpersOff = false ∧ offL.body.helpersOff = true) := by
  refine ⟨⟨vs_running, rfl, by unfold NamesFresh; decide, by decide⟩, ⟨by decide, by decide, ?_⟩, by decide, by decide, by decide⟩
  obtain ⟨x, hx⟩ := pick_found (drainQ vs).free (freeSlots (drainQ vs) 0 0) (by decide)
  refine ⟨x, 2490368, ?_⟩
  have h : detachedSeat (drainQ vs) (oneLaunch 2 (vObj 0 2)) 0 0 0 (some 8) =
    (match pick (drainQ vs).free (freeSlots (drainQ vs) 0 0), (some 2490368 : Option Nat) with
      | some slot, some off => some (slot, off)
      | _, _ => none) := rfl
  rw [hx] at h
  exact h

/-- Values 63 and 64; a reserved scale code with and without its mask bit; a team of the launch. -/
theorem witness_GroupState :
    let v (n : Nat) : Word := loWord (opd vs .i32 (.imm n) (leader vs))
    (Running vs ∧ vs.cur.party = none ∧ vs.cur.kind ≠ .team ∧ ∃ l, launchOf vs vs.cur.launch = some l) ∧
    (64 ≤ (v 64).toNat ∧ (v 63).toNat < 64 ∧ ((8 : BitVec 4).getLsbD 3 = true ∧ (v 32).getLsbD 5 = true) ∧
      ¬ ((7 : BitVec 4).getLsbD 3 = true ∧ (v 63).getLsbD 5 = true)) ∧
    (Running (ts [] 0) ∧ (ts [] 0).cur.kind = .team ∧ ∃ tm, teamOf (ts [] 0) (ts [] 0).cur.team = some tm ∧
      tm.regionLen ≠ 0) :=
  ⟨⟨vs_running, by decide, by decide, _, rfl⟩, by decide, ⟨by unfold Running; decide, by decide, _, rfl, by decide⟩⟩

/-- A 2 by 2 tile of bytes at the last word of the window; a misaligned one; one that ends past it; tiles held as
values of both kinds. -/
theorem witness_Tiles :
    let d : TileDesc := { elem := .i8, colsM1 := 1, rowsM1 := 1 }
    let T : Tile := { desc := d, data := [1, 2, 3, 255] }
    let F : Tile := { desc := { d with elem := .f32 }, data := [0, 0x3F800000, 0x7FC00000, 0xFF800000] }
    let s : State := { vs with cur := { vs.cur with
      frames := vs.cur.frames.map fun f => { f with tiles := [(5, T), (6, F)] } } }
    let fits (T : Tile) : Prop := T.data.length = T.desc.rows * T.desc.cols ∧
      (T.data.all fun v => v.toNat < 2 ^ T.desc.elem.width) = true
    (Running s ∧ Undamaged s ∧ ∃ f fs, s.cur.frames = f :: fs) ∧
    (0x4000FC % 1 = 0 ∧ ∃ k, groupNear s s.cur 0x4000FC 4 true = some k) ∧
    (∃ k, groupNear s s.cur 0x4000FC 4 false = some k) ∧
    (opdN s .near (.long2 0x400001 0) (leader s) % 4 ≠ 0) ∧
    (groupNear s s.cur 0x4000FD 4 true = none ∧ groupNear s s.cur 0x4000FD 4 false = none) ∧
    (tileOpd s (descOpd s (.val 5)) (.val 5) = T ∧ tileOpd s (descOpd s (.val 6)) (.val 6) = F ∧ fits T ∧ fits F ∧
      T.desc.rows = F.desc.rows ∧ T.desc.cols = F.desc.cols ∧ F.desc.elem.ty.isFloat = true) ∧
    ((3 : Nat) ∈ actives s ∧ opdN s .i32 (.imm 1) 3 = 1 ∧ opdN s .i32 (.val 0) 3 = 0 ∧ opdN s .i32 (.val 0) 2 = 1) :=
  ⟨⟨by unfold Running; decide, by unfold Undamaged; decide, _, _, rfl⟩, ⟨by decide, _, rfl⟩, ⟨_, rfl⟩, by decide, by decide,
   ⟨rfl, rfl, by decide⟩, by decide⟩

/-- A group with none and with 64 operations incomplete; none and 8 batches incomplete; FMT of both scale
formats. -/
theorem witness_MatrixOperations :
    let d : TileDesc := { elem := .f32, colsM1 := 0, rowsM1 := 0 }
    let S : Tile := .zero { d with elem := .i8 }
    let s (f : Word) : State := { vs with cur := { vs.cur with
      fmt := f, frames := vs.cur.frames.map fun f => { f with tiles := [(5, .zero d), (6, S)] } } }
    let full : State := { vs with cur := { vs.cur with jobs := List.replicate 64 aJob, mfences := 8 } }
    let clash (f : Word) (n : BitVec 24) : Prop :=
      ((tileOpd (s f) (descOpd (s f) (.val n)) (.val n)).desc.elem == .i8) ≠ (fmtScale f == 1)
    (Running (s 4) ∧ clash 4 6 ∧ ¬ clash 4 5 ∧ clash 0x14 5 ∧ ¬ clash 0x14 6) ∧
    (Running full ∧ 64 ≤ (full.cur.jobs.filter fun j => !j.failed).length ∧
      8 ≤ (full.cur.mfences - full.cur.batchesDone).toNat) ∧
    (¬ 64 ≤ (vs.cur.jobs.filter fun j => !j.failed).length ∧ (vs.cur.mfences - vs.cur.batchesDone).toNat < 8 ∧
      vs.cur.mfences = vs.cur.batchesDone) :=
  ⟨⟨by unfold Running; decide, by decide⟩, ⟨by unfold Running; decide, by decide⟩, by decide⟩

/-! ## Native sides -/

/-- s0 and s1 hold the window's last word, s2 and s3 a misaligned address, s4 and s5 one past the window; s6 a
pitch; s8 and s12 the headers of two waits, s16 the block of a copy of 64 bytes, s26 that of a SPAWN. -/
def nReg : List Word :=
  [0x4000F8, 0, 0x4000F1, 0, 0x400100, 0, 8, 0, 0xFFF0, 0xFFFFFFFF, 0, 0, 0xFFF0, 0, 0x1F, 0,
   9, 0, 0x1000, 0, 64, 0, 0x4000C0, 0, 64, 0] ++ List.replicate 38 0

/-- v0 and v1 of cluster 0 hold the words' addresses of value 1 of `vs`, k0 is divided, k1 whole. -/
def nn : Native :=
  { oneNative 3 with
    s := nReg, k := [5, 0xF, 0, 0, 0, 0, 0, 0], v := [(0, [0x400000, 0x400008, 0x4000F0, 0x4000F8]), (1, [0, 0, 0, 0])] }

def nsOf (n : Native) : State :=
  let s := placeGroup State.reset (vObj 0 6) (some (oneTrans 3 (oneImage 0))) (some n)
  { s with boot := .running, ctxs := [tCtx], issuing := false, cur := { s.cur with active := 0xF } }

def ns : State := nsOf nn

theorem ns_bundle (n : Native) : InBundle (nsOf n) n :=
  ⟨by rw [show (nsOf n).cur.st = .active from rfl]; decide, (by decide : (16 : Nat) ≤ 64),
   (by decide : (0xF : Mask) &&& ~~~fullMask 16 = 0), rfl⟩
theorem ns_undamaged : Undamaged ns := by unfold Undamaged; decide

theorem witness_OperandCodes : InBundle ns nn ∧ (3 : Nat) < ns.cur.width ∧ ((0 : BitVec 8).toNat < 128) ∧
    ((128 : BitVec 8).toNat = 128) ∧ (129 ≤ (129 : BitVec 8).toNat ∧ (136 : BitVec 8).toNat ≤ 136) ∧
    192 ≤ (192 : BitVec 8).toNat ∧ ∃ pt h, (hs tHerd tParty).cur.party = some pt ∧ herdOf (hs tHerd tParty) pt.group = some h :=
  ⟨ns_bundle nn, by decide, by decide, by decide, by decide, by decide, _, _, rfl, rfl⟩

theorem witness_BundleIntegers : InBundle ns nn := ns_bundle nn
theorem witness_BundleFloats : InBundle ns nn := ns_bundle nn

/-- FMT values 64 and 63, the reserved scale code, a tile element code. -/
theorem witness_UniformSlot :
    InBundle ns nn ∧ uregN ns 20 32 = 64 ∧ (0x20 : Nat).testBit 5 = true ∧ uregN ns 6 32 < 64 ∧
    ¬ ((15 : BitVec 4).getLsbD 3 = true ∧ (uregN ns 6 32).testBit 5 = true) ∧ ns.cur.party = none ∧
    Elem.ofCode 7 = some Elem.f32 := by
  refine ⟨ns_bundle nn, by decide, by decide, by decide, by decide, by decide, by decide⟩

/-- A token reached and one not, with an error and without; barriers of a detached group and of a team; room for
a batch and none. -/
theorem witness_UniformEffects :
    let bad : State := { ns with cur := { ns.cur with ctrs := ns.cur.ctrs.set 15 ⟨1, 1, [⟨1, .farFault, (0, 3), 9, 0⟩]⟩, mfences := 8 } }
    let tm : State := { ns with teams := [teamOfTwo [0, 2] 0], cur := { ns.cur with active := 0xFFFF, kind := .team, team := 9, gidx := 1 } }
    (InBundle ns nn ∧ (∃ c, ns.cur.ctrs[uregN ns 14 32 % 16]? = some c ∧
      ¬ (c.done.toNat + 2 ^ 28 - uregN ns 14 32 / 16) % 2 ^ 28 < 2 ^ 27) ∧
      ∃ c, ns.cur.ctrs[uregN ns 1 32 % 16]? = some c ∧ (c.done.toNat + 2 ^ 28 - uregN ns 1 32 / 16) % 2 ^ 28 < 2 ^ 27 ∧
        c.errs = []) ∧
    (InBundle bad nn ∧ (∃ c, bad.cur.ctrs[uregN bad 14 32 % 16]? = some c ∧
      (c.done.toNat + 2 ^ 28 - uregN bad 14 32 / 16) % 2 ^ 28 < 2 ^ 27 ∧ ∃ e, c.errs.find? (fun x => x.seq = BitVec.ofNat 28 (uregN bad 14 32 / 16)) = some e) ∧
      8 ≤ (bad.cur.mfences - bad.cur.batchesDone).toNat ∧ (ns.cur.mfences - ns.cur.batchesDone).toNat < 8) ∧
    noBarriers ns.cur = true ∧
    (InBundle tm nn ∧ noBarriers tm.cur = false ∧ divergent tm.cur = false ∧ ∃ t x, teamOf tm tm.cur.team = some t ∧
      t.bars[31]? = some x ∧ tm.cur.gidx.toNat < x.arr.length ∧ (x.arr.getD tm.cur.gidx.toNat 0 - x.done).toNat = 2) :=
  ⟨⟨ns_bundle nn, ⟨_, rfl, by decide⟩, _, rfl, by decide⟩,
   ⟨⟨by decide, by decide, by decide, rfl⟩, ⟨_, rfl, by decide, _, rfl⟩, by decide⟩, by decide,
   ⟨by decide, by decide, by decide, rfl⟩, by decide, by decide, _, _, rfl, rfl, by decide⟩

/-- The window's last word, a misaligned address and one past the window; a full and an empty word. -/
theorem witness_UniformMemory :
    let full : State := { ns with mem := { ns.mem with full := [coreKey 0 0 0xF8] } }
    InBundle ns nn ∧ Undamaged ns ∧ ns.mem.wf = true ∧ ns.cur.fe = none ∧
    (uregN ns 0 64 % 8 = 0 ∧ (∃ k, groupNear ns ns.cur (uregN ns 0 64) 8 true = some k ∧ ns.mem.isFull k = false) ∧
      ∃ k, groupNear ns ns.cur (uregN ns 0 64) 8 false = some k) ∧
    (uregN ns 2 64 % 2 ≠ 0 ∧ uregN ns 2 64 % 1 = 0) ∧
    (uregN ns 4 64 % 8 = 0 ∧ groupNear ns ns.cur (uregN ns 4 64) 1 true = none ∧
      groupNear ns ns.cur (uregN ns 4 64) 1 false = none) ∧
    (uregN ns 6 32 < 2 ^ 22) ∧
    (InBundle full nn ∧ full.mem.wf = true ∧ ∃ k, groupNear full full.cur (uregN full 0 64) 8 false = some k ∧
      full.mem.isFull k = true) :=
  ⟨ns_bundle nn, ns_undamaged, by decide, by decide, ⟨by decide, ⟨_, rfl, by decide⟩, _, rfl⟩, by decide, by decide, by decide,
   ⟨by decide, by decide, by decide, rfl⟩, by decide, _, rfl, by decide⟩


/-- A vector address for each thread: in the window, misaligned, past it; distinct words that are all empty, and
all full. -/
theorem witness_VectorMemory :
    let full : State := { ns with mem := { ns.mem with full := [coreKey 0 0 0, coreKey 0 0 8, coreKey 0 0 0xF0, coreKey 0 0 0xF8] } }
    let a (s : State) (t : Nat) : Nat := opcodeN s 0 0 none 64 t
    let u (r : BitVec 6) (t : Nat) : Nat := opcodeN ns 0 128 (some r) 64 t
    (InBundle ns nn ∧ Undamaged ns ∧ ns.mem.wf = true ∧ actives ns ≠ [] ∧ ns.cur.fe = none) ∧
    (AllPass ns false (a ns) 8 8 false ∧ AllPass ns false (a ns) 8 8 true ∧ ∀ t, t ∈ actives ns → opcodeN ns 0 192 none 32 t < 2 ^ 22) ∧
    (AllPass ns false (u 0) 8 8 true ∧ (∃ t, t ∈ actives ns ∧ u 2 t % 2 ≠ 0) ∧ (∀ t, t ∈ actives ns → u 4 t % 8 = 0) ∧
      ∃ t, t ∈ actives ns ∧ groupNear ns ns.cur (u 4 t) 1 false = none) ∧
    (((keysOf ns false (a ns) 8 true).map (·.2)).Nodup ∧ (∀ x, x ∈ keysOf ns false (a ns) 8 true → ns.mem.isFull x.2 = false) ∧
      InBundle full nn ∧ full.mem.wf = true ∧ ∀ x, x ∈ keysOf full false (a full) 8 false → full.mem.isFull x.2 = true) ∧
    (∃ t, t ∈ actives ns ∧ objBytes (imageOf ns ns.cur) 8 (imgConstOff (imageOf ns ns.cur) + 0) / 2 ^ 32 ≤ opcodeN ns 0 255 none 32 t) ∧
    (∀ t, t ∈ actives ns → opcodeN ns 0 192 none 32 t < objBytes (imageOf ns ns.cur) 8 (imgConstOff (imageOf ns ns.cur)) / 2 ^ 32) :=
  ⟨⟨ns_bundle nn, ns_undamaged, by decide⟩, by unfold AllPass; decide, by unfold AllPass; decide,
   ⟨by decide, by decide, ⟨by decide, by decide, by decide, rfl⟩, by decide⟩, by decide, by decide⟩

theorem witness_CrossLaneMoves : InBundle ns nn ∧ ns.cur.width = 16 ∧ ∃ t, t < ns.cur.width ∧ ns.cur.active.getLsbD t = true :=
  ⟨ns_bundle nn, rfl, 3, by decide⟩

/-- Tile 0 of f32 in the window, misaligned, past the window; 64 operations incomplete and none. -/
theorem witness_BundleTiles :
    let x := tileReg ns 0
    let full : State := { ns with cur := { ns.cur with jobs := List.replicate 64 aJob } }
    InBundle ns nn ∧ Undamaged ns ∧ x.data.length = x.desc.rows * x.desc.cols ∧ x.desc.elem.width / 8 = 4 ∧
    (uregN ns 0 64 % 4 = 0 ∧ uregN ns 6 32 % 4 = 0 ∧ (∃ k, groupNear ns ns.cur (uregN ns 0 64) 4 false = some k) ∧
      ∃ k, groupNear ns ns.cur (uregN ns 0 64) 4 true = some k) ∧
    uregN ns 2 64 % 4 ≠ 0 ∧
    (uregN ns 4 64 % 4 = 0 ∧ groupNear ns ns.cur (uregN ns 4 64) 4 true = none ∧ groupNear ns ns.cur (uregN ns 4 64) 4 false = none) ∧
    (InBundle full nn ∧ 64 ≤ (full.cur.jobs.filter fun j => !j.failed).length ∧
      ¬ 64 ≤ (ns.cur.jobs.filter fun j => !j.failed).length) ∧
    ((tileReg ns 0).desc.elem == .i8) = (fmtScale ns.cur.fmt == 1) ∧ ((tileReg ns 1).desc.elem == .i8) ≠ (fmtScale ns.cur.fmt == 1) :=
  ⟨ns_bundle nn, ns_undamaged, by decide, by decide, ⟨by decide, by decide, ⟨_, rfl⟩, _, rfl⟩, by decide, by decide,
   ⟨⟨by decide, by decide, by decide, rfl⟩, by decide⟩, by decide⟩

/-- CVCTL of f32 to e4m3, of f32 to e4m3 stochastic, and of bf16 to i8. -/
theorem witness_Converter :
    let c (v : BitVec 13) : Native := { nn with cvctl := v, }
    (∀ v, InBundle (nsOf (c v)) (c v)) ∧ ((cvDst 0xAC).isFloat = true ∧ cvRnd 0xAC = .rn) ∧
    ((cvDst 0x4AC).isFloat = true ∧ cvRnd 0x4AC = .sr) ∧ (cvDst 0x0A0).isFloat = false :=
  ⟨fun _ => ns_bundle _, by decide, by decide, by decide⟩

/-- The copy of 64 bytes at s16, one that ends past the window and one of unequal totals; a counter that is idle
and one that is not; an empty retriever. -/
theorem witness_BundleEngine :
    let b : List Nat := readBlock ns 18 [true, false, true, false]
    let op (d n m : Nat) : EngOp := .copy ⟨b.getD 0 0, false, n, []⟩ ⟨d, true, m, []⟩
    let fits (o : EngOp) : Bool := (engCheck o).near.all fun e => extentOk ns ns.cur.ctx ns.cur.team e
    let busy : State := { ns with cur := { ns.cur with ctrs := ns.cur.ctrs.set 15 ⟨0, 1, []⟩ } }
    (InBundle ns nn ∧ ns.cur.ctrs.length = 16 ∧ (∀ c, c ∈ ns.cmds → c.uid < ns.nextId) ∧ ns.cur.party = none ∧
      (ns.cmds.filter fun c => c.die == ns.cur.die && c.core == ns.cur.core).length < 64) ∧
    (uregN ns 16 32 % 8 = 1 ∧ uregN ns 16 32 / 8 % 8 = 1 ∧ b = [0x1000, 64, 0x4000C0, 64]) ∧
    ((engCheck (op 0x4000C0 64 64)).fmtOk = true ∧ fits (op 0x4000C0 64 64) = true ∧ (engCheck (op 0x4000C0 64 64)).total ≠ 0) ∧
    ((engCheck (op 0x4000C4 64 64)).fmtOk = true ∧ fits (op 0x4000C4 64 64) = false ∧ (engCheck (op 0x4000C4 64 64)).total ≠ 0) ∧
    (engCheck (op 0x4000C0 64 62)).fmtOk = false ∧
    ((engCheck (op 0x4000C0 0 0)).fmtOk = true ∧ (engCheck (op 0x4000C0 0 0)).total = 0) ∧
    (∃ c, ns.cur.ctrs[(15 : BitVec 4).toNat]? = some c ∧ c.done = c.issued) ∧
    InBundle busy nn ∧ ∃ c, busy.cur.ctrs[(15 : BitVec 4).toNat]? = some c ∧ c.done ≠ c.issued :=
  ⟨⟨ns_bundle nn, by decide⟩, by decide, by decide, by decide, by decide, by decide, ⟨_, rfl, rfl⟩,
   ⟨by decide, by decide, by decide, rfl⟩, _, rfl, by decide⟩

/-- Predicates that divide the active threads, hold for all and for none; a pending reconvergence point with an
empty stack, with its own entry on top, and at depth 160; a JOIN at that entry with threads to run and with
none. -/
theorem witness_BundleBranches :
    let at_ (st : List NatEnt) : Native := { nn with dset := some 5, stack := st }
    let e (m : Mask) : NatEnt := ⟨m, 9, 5, 4⟩
    (∀ st, InBundle (nsOf (at_ st)) (at_ st) ∧ (nsOf (at_ st)).cur.active ≠ 0 ∧ Undamaged (nsOf (at_ st))) ∧
    (let yes (k : BitVec 3) : Mask := nn.k.getD k.toNat 0 &&& ns.cur.active;
      (yes 0 ≠ 0 ∧ yes 0 ≠ ns.cur.active ∧ ns.cur.active &&& ~~~yes 0 ≠ 0) ∧ yes 1 = ns.cur.active ∧ yes 2 = 0) ∧
    ((∀ x es, (at_ []).stack = x :: es → x.rpc ≠ 5) ∧ (at_ []).stack.length < 160 ∧
      (∃ x es, (at_ [e 3]).stack = x :: es ∧ x.rpc = 5) ∧ (∃ x es, (at_ (List.replicate 160 (e 3))).stack = x :: es ∧ x.rpc ≠ 6) ∧
      160 ≤ (at_ (List.replicate 160 (e 3))).stack.length ∧ 32 ≤ (at_ (List.replicate 40 (e 3))).stack.length ∧
      (at_ []).dset = some 5) ∧
    ((e 3).mask &&& (fullMask ns.cur.width &&& ~~~ns.cur.exited) ≠ 0 ∧
      (e 0).mask &&& (fullMask ns.cur.width &&& ~~~ns.cur.exited) = 0 ∧
      [e 0].foldl (fun m e => m &&& ~~~e.mask) (fullMask ns.cur.width &&& ~~~ns.cur.exited) ≠ 0) := by
  refine ⟨fun st => ⟨ns_bundle _, (by decide : (0xF : Mask) ≠ 0), ns_undamaged⟩, by decide, ⟨?_, by decide, ⟨_, _, rfl, rfl⟩, ⟨_, _, rfl, by decide⟩, by decide⟩, by decide⟩
  intro x es h
  cases h

/-- Outside a helper, with the debug flag and without; in a helper; a wait whose token is done with no time-out,
and one outstanding at time-out 0. -/
theorem witness_BundleStops :
    let helper : State := { ns with cur := { ns.cur with party := some tParty, kind := .party } }
    let past : Native := { nn with passed := true }
    let last : State := { ns with cur := { ns.cur with exited := 0xFFF0 } }
    let owes : State := { last with cur := { last.cur with ctrs := last.cur.ctrs.set 15 ⟨1, 1, [⟨1, .farFault, (0, 3), 9, 0⟩]⟩ } }
    let dbg : State := { ns with ctxs := [{ tCtx with debugCtl := 1 }] }
    let busy : State := { ns with cur := { ns.cur with ctrs := ns.cur.ctrs.set 15 ⟨0, 1, []⟩ } }
    let w (s : State) (base : Nat) (due : Option Nat) : Wait :=
      { conds := blockConds s 4 0xFFF0 (base + 2), all := false, deadline := due, dst := .base base false, parked := [] }
    let meets (s : State) (base : Nat) (due : Option Nat) (b : Bool) : Prop := uregN s base 32 % 65536 = 0xFFF0 ∧
      waitTrap s (w s base due).conds = none ∧ tokenFault s.cur (w s base due) = none ∧ batchFault s.cur (w s base due) = none ∧
      ∃ s1, judgeAll (w s base due) (w s base due).conds.zipIdx { s with cur := { s.cur with wait := some (w s base due) } } = (.ok [b], s1)
    (InBundle ns nn ∧ ns.cur.party = none ∧ brkStops ns = false) ∧ (InBundle dbg nn ∧ brkStops dbg = true) ∧
    (InBundle helper nn ∧ helper.cur.party ≠ none) ∧ (nn.passed = false ∧ InBundle (nsOf past) past ∧ past.passed = true) ∧
    ((last.cur.exited ||| last.cur.active = fullMask last.cur.width ∧ cmdsBy last last.cur.uid = [] ∧ tokErrs last.cur = []) ∧
      InBundle last nn ∧ InBundle owes nn ∧ owes.cur.exited ||| owes.cur.active = fullMask owes.cur.width ∧ tokErrs owes.cur ≠ []) ∧
    (uregN ns 9 32 = 0xFFFFFFFF ∧ meets ns 8 none true) ∧
    (InBundle busy nn ∧ uregN ns 13 32 = 0 ∧ busy.tick = 0 ∧ meets busy 12 (some 0) false ∧ meets busy 12 none false) ∧
    (∃ T, waitTrap ns [.emptyWord (lane (uregN ns 4 64))] = some T) :=
  ⟨⟨ns_bundle nn, by decide⟩, ⟨⟨by decide, by decide, by decide, rfl⟩, by decide⟩,
   ⟨⟨by decide, by decide, by decide, rfl⟩, by decide⟩, ⟨rfl, ns_bundle _, rfl⟩,
   ⟨by decide, ⟨by decide, by decide, by decide, rfl⟩, ⟨by decide, by decide, by decide, rfl⟩, by decide⟩,
   ⟨by decide, by decide, by decide, by decide, by decide, _, rfl⟩,
   ⟨⟨by decide, by decide, by decide, rfl⟩, by decide, by decide, ⟨by decide, by decide, by decide, by decide, _, rfl⟩,
    by decide, by decide, by decide, by decide, _, rfl⟩, ⟨_, rfl⟩⟩

/-- A core with a free seat and one taken off; staged addresses with and without a slice; a HERD at its join; a
helper in the middle of a chunk. -/
theorem witness_BundleWork :
    let l : Launch := oneLaunch 2 (vObj 0 6)
    let off : State := { ns with cores := [tCore none true] }
    let staged : State := { ns with mem := { ns.mem with bytes := [2, 6, 10, 14].map fun i => ⟨coreKey 0 0 i, 0x40⟩ } }
    let home (s : State) (t : Nat) : Option SliceEnt := homeOf s s.cur.ctx (getLane (stageRead s 0 [false, true] t) 0).toNat
    let party : State := { ns with cur := { ns.cur with kind := .party, party := some tParty }, others := [recruiter tHerd] }
    let held : State := { ns with cur := { ns.cur with herd := some tHerd } }
    (InBundle ns nn ∧ launchOf ns ns.cur.launch = some l ∧ NamesFresh ns ∧ ns.cur.herd = none ∧ uregN ns 26 32 % 65536 = 0) ∧
    ((kernelIn l).coop = true ∧ (kernelIn l).helpers = true ∧ detachedSeat (drainQ off) l 0 0 0 (some 8) = none) ∧
    (∃ slot o, detachedSeat (drainQ ns) l ns.cur.die ns.cur.core 0 (some ns.cur.budget) = some (slot, o)) ∧
    (((fnParams (groupWords ns ns.cur) 0).map (·.1)).map wideTy = [false, true] ∧
      (∃ t, t ∈ actives ns ∧ home ns t = none) ∧ ∀ t, t ∈ actives staged → (home staged t).isSome) ∧
    (InBundle staged nn ∧ ctxOf staged 0 = some tCtx ∧ l.ctx = 0 ∧ (staged.launches.map (·.uid)).Nodup) ∧
    (InBundle held nn ∧ held.cur.herd = some tHerd) ∧
    (InBundle party nn ∧ party.cur.party = some tParty ∧ herdOf party tParty.group = some tHerd ∧ tParty.group ≠ party.cur.uid ∧
      rangeOf tHerd tParty.thread = some tRange ∧ tParty.chunk = some 2 ∧ tParty.iter + 1 < tParty.stop ∧
      tParty.release = false ∧ tRange.fault = none) := by
  refine ⟨⟨ns_bundle nn, rfl, by unfold NamesFresh; decide, by decide⟩, by decide, ?_, by decide,
    ⟨⟨by decide, by decide, by decide, rfl⟩, rfl, by decide⟩, ⟨⟨by decide, by decide, by decide, rfl⟩, rfl⟩,
    ⟨⟨by decide, by decide, by decide, rfl⟩, rfl, rfl, by decide, rfl, by decide⟩⟩
  obtain ⟨x, hx⟩ := pick_found (drainQ ns).free (freeSlots (drainQ ns) 0 0) (by decide)
  refine ⟨x, 2490368, ?_⟩
  have h : detachedSeat (drainQ ns) (oneLaunch 2 (vObj 0 6)) 0 0 0 (some 8) =
    (match pick (drainQ ns).free (freeSlots (drainQ ns) 0 0), (some 2490368 : Option Nat) with
      | some slot, some off => some (slot, off)
      | _, _ => none) := rfl
  rw [hx] at h
  exact h

/-! ## The front end's states -/

def cellsAt (k : Nat) (bs : List Byte) : List Host.Cell :=
  (bs.zipIdx.filter fun b => b.1 != 0).map fun b => ⟨k + b.2, b.1⟩

/-- An object of a header, one kernel descriptor of zeros and its digest, which was computed apart (R118, R120). -/
def fObject : List Byte :=
  List.replicate 12 0 ++ [144] ++ List.replicate 9 0 ++ [1, 0, 64] ++ List.replicate 71 0 ++
  [0x6D, 0xCF, 0x1B, 0x8C, 0xC3, 0x5D, 0x74, 0x9F, 0x17, 0x93, 0x6C, 0xE6, 0x97, 0x5A, 0xC0, 0xC1,
   0x68, 0xAD, 0x35, 0x21, 0x82, 0x8A, 0x85, 0x3E, 0x57, 0x63, 0xF7, 0xB5, 0x14, 0xD9, 0xD3, 0x68,
   0xF1, 0x40, 0xB8, 0xBD, 0x42, 0x85, 0xE8, 0x06, 0x64, 0xF8, 0xD6, 0x5C, 0xB1, 0x66, 0x7A, 0xFF]

/-- Memory target 0 holds a queue table at 0x100000 whose first entry names the control block at 0x8000 and the page
table at 0x1000, which maps the first GiB of the far space to target 1; that holds the object at 0x10000, its
placement map of one team at 0x10100, and a word 1 at 0x200. -/
def fCells : List Host.Cell :=
  cellsAt (targetKey 0 0x1000) [1, 0x20] ++ cellsAt (targetKey 0 0x2000) [1, 0x30] ++
  cellsAt (targetKey 0 0x3000) [7, 0, 0, 0, 0, 0, 0, 0x10] ++ cellsAt (targetKey 0 0x8000) [4, 2] ++
  cellsAt (targetKey 0 0x100000) [1, 0x80] ++ cellsAt (targetKey 1 0x200) [1] ++
  cellsAt (targetKey 1 0x10000) fObject ++ cellsAt (targetKey 1 0x10100) [1]

def fq : QRef := { fn := 0, qid := 0 }
def fQueue : Queue := { Queue.new fq with qcb := targetKey 0 0x8000, ring := 0x20000, ctxDesc := 0x9000, ctx := 0 }
def fCtx : Ctx := { tCtx with ptRoot := 0x1000 }
def fHdr : PktHdr := emptyHdr
def fsOf (qu : Queue) (c : Ctx) (work : PktWork) : State :=
  { State.reset with
    boot := .running, ctxs := [c], mem := { State.reset.mem with bytes := fCells }
    front := { Front.reset with
      qtBase := Front.reset.qtBase.set 0 0x100001, queues := [qu],
      slots := Front.reset.slots.set 0 ⟨some fq, 1, 0⟩, started := [⟨fHdr, work, none⟩] } }
def fs : State := fsOf fQueue fCtx (.begun none)

theorem fs_serves : Serves fs fHdr fQueue fCtx :=
  ⟨rfl, rfl, by decide, rfl, by decide, by unfold Undamaged; decide⟩


/-- A write of at most one page goes through at once. -/
theorem frontPut_one {s : State} {ctx va p k : Nat} {bs : List Byte} {s1 : State} (hk : frontKey s ctx va = (.ok k, s1))
    (hn : bs.isEmpty = false) (hl : bs.length ≤ 4096 - va % 4096) : ∃ s2, frontPut ctx (p + 2) va bs s = (none, s2) := by
  have hd : bs.drop (4096 - va % 4096) = [] := List.drop_eq_nil_of_le hl
  rw [frontPut, hn, hk]
  simp only [hd]
  rw [frontPut]
  exact ⟨_, rfl⟩

theorem receipt_length (s : State) (c : Ctx) (nonce : List Byte) : (receiptOf s c nonce).length = 3504 := by
  simp only [receiptOf, fitBytes, List.length_append, List.length_take, List.length_replicate]
  omega

theorem fs_slots (i : Nat) (x : Slot) (h : fs.front.slots[i]? = some x) (hq : x.q = some fq) : i = 0 := by
  cases i with
  | zero => rfl
  | succ n =>
    have h' : (List.replicate 127 ({ q := none, kick := 0, mappedPass := 0 } : Slot))[n]? = some x := h
    rw [List.getElem?_replicate] at h'
    split at h'
    · cases h'; cases hq
    · cases h'

/-- Headers with and without a status record and a signal, whose words translate; a page for a receipt; a
privileged queue with the debug flag and without; words of 0 and 1 and one that no page maps; packets that wait; a
copy that is finished and one that is not. -/
theorem witness_Packets :
    let h (stat sig : Bool) : PktHdr :=
      { fHdr with statAddr := if stat then 0x100 else 0, sigOp := if sig then 1 else 0, sigAddr := 0x108, sigVal := 5 }
    let s0 := begun fs
    let dbg : State := { fsOf { fQueue with priv := true } { fCtx with debugCtl := 1 } (.begun none) with cur := vs.cur }
    let cmd (done : List Nat) : Cmd :=
      { uid := 5, by_ := .packet fq 0, die := 0, core := 0, ctx := 0, launch := 0, ppc := (0, 0),
        op := .copy ⟨0, false, 64, []⟩ ⟨0x40, false, 64, []⟩, acq := [], rel := none, carries := [], fetched := [], done,
        parked := [], err := none, team := 0, from_ := 0, iter := 0, cut := false }
    let copying (done : List Nat) : State := { fsOf fQueue fCtx (.copy 5) with cmds := [cmd done] }
    (∀ a b, Serves fs (h a b) fQueue fCtx) ∧
    (hasStat (h true true) ∧ ¬ hasStat (h false true) ∧ hasSig (h true true) true ∧ ¬ hasSig (h true false) true ∧
      ¬ hasSig (h true true) false) ∧
    (∃ s1, frontKey fs 0 0x100 = (.ok (targetKey 1 0x100), s1) ∧ ∃ s2,
      frontKey (putAs s1 .frontEnd 0 (bytesAt 8 (targetKey 1 0x100) (statWord .ok 7))) 0 0x108 = (.ok (targetKey 1 0x108), s2)) ∧
    (∃ s1, frontKey fs 0 0x108 = (.ok (targetKey 1 0x108), s1)) ∧
    (∀ nonce, ∃ s1, frontPut 0 3 0x4000 (receiptOf s0 fCtx nonce) s0 = (none, s1)) ∧
    (∃ s1, frontKey s0 0 0x300 = (.ok (targetKey 1 0x300), s1) ∧ ∃ s2,
      frontKey (putAs s1 .frontEnd 0 (bytesAt 8 (targetKey 1 0x300) 0)) 0 0x308 = (.ok (targetKey 1 0x308), s2)) ∧
    (fQueue.priv = false ∧ fCtx.debugCtl.getLsbD 0 = false ∧ Serves dbg fHdr { fQueue with priv := true } { fCtx with debugCtl := 1 } ∧
      Distinct dbg ∧ ∃ g, g ∈ heldGroups dbg ∧ g.ctx = 0 ∧ g.party = none) ∧
    (∀ (i j : Nat) (x y : Slot), fs.front.slots[i]? = some x → fs.front.slots[j]? = some y → x.q = some fq → y.q = some fq → i = j) ∧
    ((∃ bs, frontRead s0 0 8 0x208 = .ok bs ∧ leNat bs = 0) ∧ (∃ bs, frontRead s0 0 8 0x200 = .ok bs ∧ leNat bs = 1) ∧
      frontRead s0 0 8 (2 ^ 57) = .error none ∧ sigHolds .eq 0 0 = true ∧ sigHolds .eq 0 1 = false) ∧
    (∀ w, ∃ p, startedAt (fsOf fQueue fCtx w) fq 0 = some p ∧ p.parked = none ∧ p.work = w) ∧
    (cmdOf (copying []) 5 = some (cmd []) ∧ cmdFinished (copying []) (cmd []) = false ∧
      cmdOf (copying (List.range 64)) 5 = some (cmd (List.range 64)) ∧ cmdFinished (copying (List.range 64)) (cmd (List.range 64)) = true) := by
  refine ⟨fun _ _ => fs_serves, by unfold hasStat hasSig; decide, ⟨_, rfl, _, rfl⟩, ⟨_, rfl⟩, fun nonce => ?_,
    ⟨_, rfl, _, rfl⟩, ⟨rfl, by decide, ⟨rfl, rfl, by decide, rfl, by decide, by unfold Undamaged; decide⟩,
      by unfold Distinct; decide, by decide⟩, ?_, ⟨⟨_, rfl, by decide⟩, ⟨_, rfl, by decide⟩, rfl, by decide⟩,
    fun w => ⟨_, rfl, rfl, rfl⟩, rfl, by decide, rfl, by decide⟩
  · have hl := receipt_length (begun fs) fCtx nonce
    refine frontPut_one (k := targetKey 1 0x4000) rfl ?_ (by rw [hl]; decide)
    cases hr : receiptOf (begun fs) fCtx nonce with
    | nil => rw [hr] at hl; cases hl
    | cons a as => rfl
  · intro i j x y hi hj hx hy
    rw [fs_slots i x hi hx, fs_slots j y hj hy]


/-- The object whose digest fits and one whose last byte does not; a kernel number that the object has and one
that it has not; a producer known and not failed, and none. -/
theorem witness_LaunchStart :
    let b (kernel : BitVec 16) : LaunchBody :=
      { emptyBody with placeCount := 1, placeAddr := 0x10100, kernel, code := 0x10000, producer := 7 }
    let s1 (s : State) : State := begun (modStarted (modCtx (begun s) 0 fun c => { c with launchCount := 1 }) fq 0
      fun p => { p with work := .begun (some 1) })
    let broken : State := { fs with mem := { fs.mem with bytes := fCells.filter fun c => c.1 != targetKey 1 0x1008F } }
    let chained : State := { fs with launches := [{ oneLaunch 0 [] with seq := 7 }] }
    let head := ObjHead.of (fObject.take 64)
    let desc := leNat ((fObject.drop 64).take 32)
    let got (s : State) (n a : Nat) (bs : List Byte) : Prop := readFar (s1 s) 0 n a = .got bs
    let map : List Byte := [1, 0, 0, 0, 0, 0, 0, 0]
    (Serves fs fHdr fQueue fCtx ∧ Serves broken fHdr fQueue fCtx ∧
      (∃ p, startedAt fs fq 0 = some p ∧ p.work = .begun none) ∧ ∀ l, l ∈ fs.launches → l.uid < fs.nextId) ∧
    (got fs 64 0x10000 (fObject.take 64) ∧ head.knCount = 1 ∧ head.size = 144 ∧ head.desc 0 = some 64 ∧
      got fs 32 0x10040 ((fObject.drop 64).take 32) ∧ bitsOf desc 191 160 = (b 0).argBytes.toNat) ∧
    (got fs 144 0x10000 fObject ∧ sha384 (fObject.take 96) = fObject.drop 96 ∧ got fs 0 0 [] ∧ got fs 8 0x10100 map ∧
      placesOf 1 0 1 map = some [⟨0, 1, 0, 0⟩] ∧ clusterMapped (s1 fs) 0 0 0 (bitOf desc 23) = true) ∧
    (got broken 64 0x10000 (fObject.take 64) ∧ got broken 144 0x10000 (fObject.set 143 0) ∧
      sha384 ((fObject.set 143 0).take 96) ≠ (fObject.set 143 0).drop 96) ∧
    (head.knCount ≤ (b 1).kernel.toNat ∧ fQueue.priv = false) ∧
    (Serves { fsOf { fQueue with priv := true } fCtx (.begun none) with launches := chained.launches } fHdr
        { fQueue with priv := true } fCtx ∧
      (∃ x, (chained.launches.find? fun l => l.ctx == 0 && l.seq == (b 0).producer) = some x ∧ producerFailed x = false) ∧
      (fs.launches.find? fun l => l.ctx == 0 && l.seq == (b 0).producer) = none) :=
  ⟨⟨fs_serves, ⟨rfl, rfl, by decide, rfl, by decide, by unfold Undamaged; decide⟩, ⟨_, rfl, rfl⟩, by decide⟩,
   by decide +kernel, by decide +kernel, by decide +kernel, by decide,
   ⟨rfl, rfl, by decide, rfl, by decide, by unfold Undamaged; decide⟩, ⟨_, rfl, by decide⟩, rfl⟩

/-- A launch at each report; one whose unit has a translation that a core holds and one without; producers that
have triggered, failed and neither; a launch that is done, with a result to hash and without; an object that does
not verify, one that no allocation fits and one that is planned; an invalidated copy. -/
theorem witness_LaunchProgress :
    let l (r : Report) : Launch := { oneLaunch 2 (vObj 0 2) with
      stage := .translating, reports := [(0, 0, 0, r)], places := [⟨0, 1, 0, 0⟩], hdr := fHdr }
    let ready : Launch := { l .ready with trs := [(0, 0, 0, 3)] }
    let s (l : Launch) : State := { fsOf fQueue fCtx (.launch 2) with launches := [l], trans := [oneTrans 3 []] }
    let kept (l : Launch) (v : Option VerifyRec) : State := { s l with verdicts := [([], v)] }
    let dep (p : Launch) : State :=
      { s { l .ready with stage := .waitingProducer, producer := 5 } with launches := [{ l .ready with stage := .waitingProducer, producer := 5 }, p] }
    let prod (st : Stage) : Launch := { oneLaunch 5 (vObj 0 2) with stage := st }
    let ended (hash : Bool) : Launch := { oneLaunch 2 (vObj 0 2) with
      places := [⟨0, 0, 0, 0⟩], hdr := fHdr, body := { emptyBody with hashResult := hash, resultBytes := 8, resultAddr := 0x200 } }
    let wide : List Word := oneObject [0x98201200, 0x5C000380, 0xFF800000, 0x81800000]
    let cached : State := { s ready with cache := [⟨0, 0, 3, 0, false, []⟩] }
    (∀ x, launchOf (s x) x.uid = if x.uid == x.uid then some x else none) ∧ ((s ready).launches.map (·.uid)).Nodup ∧
    (∀ r, (l r).stage = .translating ∧ ∃ x, x ∈ (l r).reports ∧ x.2.2.2 = r) ∧
    ((∀ x, x ∈ namedClusters ready.places → ∃ tr, unitTrans (s ready) ready x.1 (x.2 * 16) (kernelIn ready).fn none = some tr ∧
        holdsTeam (s ready) ready x.1 tr = true) ∧ (kernelIn ready).coop = false ∧ ready.producer = 0) ∧
    (∃ x, x ∈ namedClusters (l .ready).places ∧ unitTrans (s (l .ready)) (l .ready) x.1 (x.2 * 16) (kernelIn (l .ready)).fn none = none) ∧
    (∀ p, launchOf (dep p) 2 = some { l .ready with stage := .waitingProducer, producer := 5 }) ∧
    (∀ st, launchOf (dep (prod st)) 5 = some (prod st)) ∧
    (allTriggered (prod .retired) = true ∧ producerFailed (prod .terminated) = true ∧ allTriggered (prod .running) = false ∧
      producerFailed (prod .running) = false) ∧
    (∀ h, (∃ p, startedAt (s (ended h)) fq 0 = some p ∧ p.parked = none) ∧ launchDone (s (ended h)) (ended h) = true ∧
      (ended h).body.hashResult = h) ∧
    (ctxOf (s (ended true)) 0 = some fCtx ∧
      readFar (((pktReach 0).toList).foldl (fun s r => applyCarries s (ended true).ends r) (s (ended true))) 0 8 0x200
        = .got [1, 0, 0, 0, 0, 0, 0, 0]) ∧
    ((∃ r, (verdictOf (kept (l .pending) (some ⟨0, 1, 0, 0⟩)) (l .pending)).1 = some r) ∧
      (verdictOf (kept (l .pending) none) (l .pending)).1 = none ∧
      findTrans (s (l .pending)) (keyOf (s (l .pending)) (l .pending) 0 (codeUnit 0)) (ownerOf (s (l .pending)) 0) = none ∧
      (match planOf (vObj 0 2) (kernelIn (l .pending)) 0 (codeUnit 0).1 (codeUnit 0).2 with
        | .ok p => imageOk (vObj 0 2) (kernelIn (l .pending)) 0 (codeUnit 0).1 p []
        | .limit _ => false) = true ∧
      (match planOf wide (kernelIn (oneLaunch 2 wide)) 0 0 0 with | .ok _ => false | .limit _ => true) = true) ∧
    ∃ e, e ∈ cached.cache ∧ e.die = 0 ∧ e.cluster = 0 ∧ e.tr = 3 ∧ e.valid = false := by
  refine ⟨fun x => ?_, by decide, fun r => ⟨rfl, _, List.mem_singleton.2 rfl, rfl⟩, ⟨?_, by decide, rfl⟩, ?_, fun _ => rfl, fun _ => rfl,
    by decide, fun h => ⟨⟨_, rfl, rfl⟩, by cases h <;> decide, rfl⟩, by decide +kernel,
    ⟨⟨_, rfl⟩, by decide +kernel⟩, by decide⟩
  · simp [launchOf]
  · intro x hx
    have : x = (0, 0) := by simpa [namedClusters, List.eraseDups_cons] using hx
    subst this
    exact ⟨_, rfl, by decide⟩
  · exact ⟨(0, 0), by decide, by decide⟩

/-- A mapped queue; one that its table does not name; one whose control block disables it; one enabled without a
slot; an idle slot that gives way to it; a slot mapped in the last pass; an empty slot, a queue with nothing to
read, and a NOP packet that may be read. -/
theorem witness_FrontEnd :
    let q1 : QRef := { fn := 0, qid := 1 }
    let put (cs : List Host.Cell) (s : State) : State := { s with mem := cs.foldl (fun m c => m.setByte c.1 c.2) fs.mem }
    let second (b : Byte) : State := put (cellsAt (targetKey 0 0x100008) [0x41, 0x80] ++
      cellsAt (targetKey 0 0x8040) ([4, b] ++ List.replicate 22 0 ++ [1])) fs
    let w : Queue := { Queue.new q1 with qcb := targetKey 0 0x8040 }
    let due : State := { second 2 with front := { fs.front with
      pass := 2, queues := [{ fQueue with readIdx := 1 }, w], started := [] } }
    let ring : State := put (cellsAt (targetKey 0 0x200FF) [0x5A]) { fs with front := { fs.front with started := [] } }
    let empty : State := { fs with front := { fs.front with nextSlot := 1 } }
    let p := feNat ring (targetKey 0 0x20000) 256
    fs.boot = .running ∧ qtOn fs 1 = false ∧ (qtOn fs 0 = true ∧ slotOf fs fq = some 0) ∧
    (slotOf fs q1 = none ∧ qcbKey fs q1 = none) ∧
    (∀ b, slotOf (second b) q1 = none) ∧
    (qcbKey (second 0) q1 = some (targetKey 0 0x8040) ∧ qcbEnabled (qcbOf (second 0) (targetKey 0 0x8040)) = false) ∧
    (qcbKey (second 2) q1 = some (targetKey 0 0x8040) ∧ qcbEnabled (qcbOf (second 2) (targetKey 0 0x8040)) = true ∧
      Undamaged (second 2) ∧ targetKey 0 0x8040 + 28 ≤ pendingKey (second 2) q1) ∧
    (∃ z, fs.front.slots[0]? = some z ∧ z.q = some fq ∧ fs.front.pass < z.mappedPass + 1) ∧
    (∀ x, x ∈ fs.front.queues → isPending fs x.q = false) ∧
    (Undamaged due ∧ queueOf due fq = some { fQueue with readIdx := 1 } ∧ bestCand due 0 = some w ∧
      victimSlot due 0 (effPrio due q1) = some 0) ∧
    (∃ z, empty.front.slots[empty.front.nextSlot]? = some z ∧ z.q = none) ∧
    (∃ z, ring.front.slots[ring.front.nextSlot]? = some z ∧ z.q = some fq ∧ fQueue.readIdx ≠ z.kick) ∧
    (queueOf ring fq = some fQueue ∧ fnKey (fQueue.ring + 256 * (fQueue.readIdx.toNat % 2 ^ fQueue.sizeLog2)) = some (targetKey 0 0x20000) ∧
      fQueue.faulted = false ∧ ctxServes ring 0 = true ∧ startUnderWay ring fq = false ∧ bitsOf p 2047 2040 = 0x5A ∧
      mayRead ring fq (bitsOf p 2039 2032) (bitsOf p 2031 2028) = true ∧ decodePacket fq 0 p = .ok (.nop (pktHdr fq 0 p))) := by
  refine ⟨rfl, by decide, by decide, by decide, fun _ => rfl, by decide, ⟨by decide, by decide, by unfold Undamaged; decide, by decide⟩,
    ⟨_, rfl, rfl, by decide⟩, by decide, ⟨by unfold Undamaged; decide, rfl, by decide, by decide⟩, ⟨_, rfl, rfl⟩, ⟨_, rfl, rfl, by decide⟩,
    by decide +kernel⟩


/-- Core 0 with an eligible group, with none, and offline; a helper asked to leave between iterations, one with a
chunk in hand and one that claims; a READY group with room; groups due for demotion; a wait that holds, one whose
time is up and one that goes on; joins with a fault and without; ended groups of each kind; a group asked to
stop; a freeze that ends and one that goes on. -/
theorem witness_Scheduling :
    let withG (g : Group) : State := { vs with others := [g] }
    let g7 : Group := { oneGroup 7 2 none with st := .ready, fast := false }
    let helper (release : Bool) (chunk : Option Nat) : State := hs tHerd { tParty with release, chunk }
    let tired : State := { withG g7 with cur := { vs.cur with bundles := 4096 } }
    let asleep : State := { withG g7 with cycle := 256, cur := { vs.cur with st := .waiting } }
    let w (dl : Option Nat) : Wait := { conds := [.token 0x1F], all := true, deadline := dl, dst := .value 4 1, parked := [] }
    let waiting (seq : BitVec 28) (dl : Option Nat) : State := { vs with
      cur := { vs.cur with st := .waiting, wait := some (w dl), ctrs := vs.cur.ctrs.set 15 ⟨seq, 1, []⟩ } }
    let joined (f : Option HerdFault) : State := { vs with
      cur := { vs.cur with herd := some { tHerd with ranges := [{ tRange with out := 0, fault := f }] } } }
    let gone (k : GKind) (e : List TokErr) : Group :=
      { oneGroup 7 2 none with kind := k, active := 0, exited := fullMask 16, team := 9, lastExit := 1, ctrs := [⟨1, 1, e⟩] }
    let mate : Group := { oneGroup 8 2 none with kind := .team, team := 9 }
    let asked : Group := { oneGroup 7 2 none with stopReq := 3 }
    let cold (n : Nat) : State := { vs with cycle := n, cores := [tCore (some 5) false] }
    (Distinct vs ∧ Running vs ∧ coreIssues vs 0 0 = true ∧ (∃ g, g ∈ heldGroups vs ∧ eligible vs 0 0 g = true)) ∧
    (coreIssues { vs with cores := [tCore none true] } 0 0 = false ∧
      ∀ g, g ∈ heldGroups vs → eligible vs 0 1 g = false) ∧
    (∀ r c, Distinct (helper r c) ∧ (∃ g pt, groupOf (helper r c) 1 = some g ∧ g.party = some pt ∧ pt.helper ≠ 0 ∧
        pt.gone = false ∧ g.st = .active ∧ stalledNative (helper r c) g = false ∧ pt.release = r ∧ pt.chunk = c ∧ pt.begun = false) ∧
      (∃ rg, groupOf (helper r c) 7 = some rg ∧ rg.herd = some tHerd) ∧ rangeOf tHerd 0 = some tRange ∧
      cmdsBy (helper r c) 1 = [] ∧ coreIssues (helper r c) 0 0 = true ∧ tRange.claim.isSome = true) ∧
    (Distinct (withG g7) ∧ groupOf (withG g7) 7 = some g7 ∧ g7.st = .ready ∧ mustStop (withG g7) g7 = false ∧
      coreUsable (withG g7) 0 0 = true ∧ (∀ x, x ∈ readyOn (withG g7) 0 0 → g7.age ≤ x.age) ∧
      (fastOn (withG g7) 0 0).length < Config.activeMax 0 ∧
      ((fastOn (withG g7) 0 0).map Group.bytes).sum + Group.bytes g7 ≤ Config.fastFile 0) ∧
    (Distinct tired ∧ groupOf tired 1 = some tired.cur ∧ tired.cur.st = .active ∧ tired.cur.party = none ∧ tired.cur.herd = none ∧
      4096 ≤ tired.cur.bundles ∧ tired.cur.active ≠ 0 ∧ readyOn tired 0 0 ≠ [] ∧ atDrain tired tired.cur = true ∧
      ∀ x, x ∈ (fastOn tired 0 0).filter (fun x => x.st == .active) →
        x.bundles < tired.cur.bundles ∨ (x.bundles = tired.cur.bundles ∧ tired.cur.age ≤ x.age)) ∧
    (Distinct asleep ∧ asleep.cur.st = .waiting ∧ asleep.cur.fast = true ∧ asleep.cur.since + 256 ≤ asleep.cycle ∧ readyOn asleep 0 0 ≠ []) ∧
    (∀ seq dl, Running (waiting seq dl) ∧ (waiting seq dl).cur.st = .waiting ∧ (waiting seq dl).cur.fe = none ∧
      (waiting seq dl).cur.wait = some (w dl) ∧ batchFault (waiting seq dl).cur (w dl) = none) ∧
    ((∃ s1, judgeAll (w none) (w none).conds.zipIdx (waiting 1 none) = (.ok [true], s1)) ∧
      (∃ s1, judgeAll (w (some 0)) (w (some 0)).conds.zipIdx (waiting 0 (some 0)) = (.ok [false], s1) ∧ 0 ≤ s1.tick) ∧
      tokenFault (waiting 1 none).cur (w none) = none ∧ tokenFault (waiting 0 none).cur (w none) = none) ∧
    (∀ f, Distinct (joined f) ∧ (joined f).cur.st = .active ∧ (joined f).cur.frames ≠ [] ∧
      ∃ h, (joined f).cur.herd = some h ∧ h.phase = 2 ∧ h.native = false ∧ (∀ r, r ∈ h.ranges → r.out = 0) ∧
        (herdFault h = f.map fun x => (0, x))) ∧
    (∀ k e, groupOf (withG (gone k e)) 7 = some (gone k e) ∧ (gone k e).party = none ∧ (gone k e).st = .active ∧
      (gone k e).active = 0 ∧ (gone k e).exited = fullMask (gone k e).width ∧ cmdsBy (withG (gone k e)) 7 = [] ∧
      (∃ l, launchOf (withG (gone k e)) (gone k e).launch = some l) ∧ (tokErrs (gone k []) = []) ∧
      (∃ e es, tokErrs (gone k [⟨1, .farFault, (0, 3), 4, 0⟩]) = e :: es)) ∧
    ((∀ x, x ∈ heldGroups (withG (gone .team [])) → x.uid ≠ 7 → ¬ (x.kind = .team ∧ x.team = (gone .team []).team)) ∧
      ∃ x, x ∈ heldGroups { withG (gone .team []) with others := [gone .team [], mate] } ∧ x.uid ≠ 7 ∧ x.kind = .team ∧
        x.team = (gone .team []).team) ∧
    (groupOf (withG asked) 7 = some asked ∧ mustStop (withG asked) asked = true ∧ stopsHere (withG asked) asked = true) ∧
    (∀ n, (coreOf (cold n) 0 0).frozenTo = some 5 ∧ (cold n).cycle = n) := by
  refine ⟨⟨by unfold Distinct; decide, vs_running, by decide, by decide⟩, by decide,
    fun r c => ⟨⟨(by decide : [1, 7].Nodup), fun g h => by cases List.mem_singleton.1 h; decide⟩, ⟨_, _, rfl, rfl, (by decide : (1 : Nat) ≠ 0), rfl, rfl, rfl, rfl, rfl, rfl⟩, ⟨_, rfl, rfl⟩, rfl, rfl, rfl, by decide⟩,
    ⟨by unfold Distinct; decide, rfl, by decide⟩, ⟨by unfold Distinct; decide, rfl, by decide⟩, ⟨by unfold Distinct; decide, by decide⟩,
    fun seq dl => ⟨⟨(by decide : GState.waiting ≠ .free), (by decide : (16 : Nat) ≤ 64),
      (by decide : (0xF : Mask) &&& ~~~fullMask 16 = 0), fun h => nomatch h⟩, rfl, rfl, rfl, rfl⟩, ⟨⟨_, rfl⟩, ⟨_, rfl, by decide⟩, by decide⟩,
    fun f => ⟨⟨(by decide : [1].Nodup), (fun g h => nomatch h)⟩, rfl, (fun h => nomatch h), _, rfl, rfl, rfl, (fun r h => by cases List.mem_singleton.1 h; rfl), ?_⟩,
    fun k e => ⟨rfl, rfl, rfl, rfl, rfl, rfl, ⟨_, rfl⟩, rfl, ⟨_, _, rfl⟩⟩, by decide, by decide, fun n => ⟨rfl, rfl⟩⟩
  cases f <;> rfl


/-- A team of one group fits where its core has room, a free context, and places for its region and its spill
area. -/
theorem teamFits_one {s : State} {die c budget width tiles barriers sram spill off o : Nat} {slow : Bool}
    (hr : (([c].eraseDups.all fun x =>
      coreFits die (if slow then claimsOn s die x else (claimsOn s die x).map fun y => { y with budget := 0 })
        ([c].filter (· == x)).length (if slow then budget else 0) width tiles) &&
      decide (barriersOn s die c + barriers ≤ Config.hardBarriers)) = true)
    (ho : poolFind s.free 0 (poolBase s die) (poolBytes s die) sram (areasOn s die c) = some off)
    (hf : 0 < ((freeSlots s die c).filter fun n => !([] : List (Nat × Nat)).contains (c, n)).length)
    (hs : poolFind s.free 1 (poolBase s die) (poolBytes s die) spill
      (areasOn s die c ++ (([(c, off, sram)] : List (Nat × Nat × Nat)).filter fun a => a.1 == c).map (·.2)) = some o) :
    ∃ slot, teamFits s die ⟨[c], budget, width, tiles, barriers, sram, spill⟩ slow = some (off, [(c, slot, o)]) := by
  obtain ⟨n, hn⟩ := pick_found (s.free + ([] : List (Nat × Nat)).length) _ hf
  refine ⟨n, ?_⟩
  have hg : seatGo s die spill [c] [(c, off, sram)] [] = some [(c, n, o)] := by
    simp only [seatGo, hn]; simp only [List.length_nil, Nat.zero_add, hs]; rfl
  refine (if_pos hr).trans ?_
  simp only [List.headD_cons, ho, hg, Option.map_some]

/-- A running launch with one team to place on cluster 0, and the state that holds it. -/
def pLaunch : Launch := { oneLaunch 2 (vObj 0 2) with places := [⟨0, 1, 0, 0⟩], trs := [(0, 0, 0, 3)] }
def pState (tr : Trans) : State :=
  { State.reset with boot := .running, ctxs := [tCtx], launches := [pLaunch], trans := [tr], nextId := 4 }
def pTask (at_ : Nat) : Task := ⟨0, 0x400000, [], 0, 0, 0, 2, at_, ⟨.package, .host, 0, 0, 0, []⟩, 8⟩
def pStarted (off : Bool) : State :=
  { pState { oneTrans 3 [] with budget := 8 } with
    taskGroups := [⟨6, [pTask 0]⟩], cores := [tCore none off], nextId := 7 }
def pTrans (budget : Nat) : Trans := { oneTrans 3 [] with budget }

theorem place_found (b budget : Nat) (slow : Bool) (hb : b = 8 ∨ b = 16) (h : budget = 8 ∨ budget = 16) :
    ∃ slot, teamFits (pState (pTrans b)) 0 (teamNeed (kernelIn pLaunch) budget 0 0 0) slow =
      some (2490368, [(0, slot, 2490368)]) := by
  rcases hb with rfl | rfl <;> rcases h with rfl | rfl <;> cases slow <;> exact teamFits_one (by decide) (by decide +kernel) (by decide) (by decide +kernel)

theorem press_found : pressBudget (pState (pTrans 16)) pLaunch 0 0 (pTrans 16) = some (8, 0) := by
  obtain ⟨a, ha⟩ := place_found 16 16 false (.inr rfl) (.inr rfl)
  obtain ⟨b, hb⟩ := place_found 16 8 true (.inr rfl) (.inl rfl)
  have h1 : (teamFits (pState (pTrans 16)) 0 (teamNeed (kernelIn pLaunch) 16 0 0 0) false).isSome = true := by rw [ha]; rfl
  have h2 : (teamFits (pState (pTrans 16)) 0 (teamNeed (kernelIn pLaunch) 8 0 0 0) true).isSome = true := by rw [hb]; rfl
  have hc : ([0, 1, 2, 3, 4, 5, 6, 7, 8, 9, 10, 11, 12, 13, 14, 15].filter fun c =>
      (!(kernelIn pLaunch).brace || c % 2 == 0) && coresServe (pState (pTrans 16)) 0 0 (teamNeed (kernelIn pLaunch) 0 0 0 c).cores
        && (teamFits (pState (pTrans 16)) 0 (teamNeed (kernelIn pLaunch) 16 0 0 c) false).isSome) = [0] := by
    rw [List.filter_cons_of_pos (by rw [h1]; decide)]
    rfl
  have hp : ∀ (n : Nat) (x : Nat × Nat), pick n [x] = some x := fun n x => by simp [pick, Nat.mod_one]
  have hs : ([8].reverse.find? fun b => (teamFits (pState (pTrans 16)) 0 (teamNeed (kernelIn pLaunch) b 0 0 0) true).isSome) = some 8 := by
    simp [h2]
  show pick _ ((List.filter _ _).filterMap fun c => ([8].reverse.find? fun b =>
    (teamFits (pState (pTrans 16)) 0 (teamNeed (kernelIn pLaunch) b 0 0 c) true).isSome).map fun b => (b, c)) = some (8, 0)
  erw [hc]
  rw [List.filterMap_cons, hs]
  exact hp _ _

/-- A core with room for the team and one without; a cluster whose cores hold fewer groups than the kernel asks
for, early and late; task records of no one, of too few, of the age of 256 cycles and of a whole group; a formed
task group whose core has a seat and one whose core has none. -/
theorem witness_Placement :
    let s (b : Nat) : State := pState (pTrans b)
    let tg : TaskGroup := ⟨6, [pTask 0]⟩
    let mine (n at_ : Nat) : List Task := (List.replicate n (pTask at_)).filter fun t => t.launch == 2 && t.die == 0 && t.core == 0 && t.fn == 0
    (∀ b, launchOf (s b) 2 = some pLaunch ∧ pLaunch.stage = .running ∧ ((s b).launches.map (·.uid)).Nodup ∧
      NamesFresh (s b) ∧ (∀ t, t ∈ (s b).teams → t.uid < (s b).nextId) ∧ nextPlace pLaunch 0 0 = some ⟨0, 1, 0, 0⟩ ∧
      unitTrans (s b) pLaunch 0 0 (kernelIn pLaunch).fn none = some (pTrans b) ∧ (pTrans b).image = [] ∧ ctxLive (s b) 0 = true ∧
      coresServe (s b) 0 0 (teamNeed (kernelIn pLaunch) b 0 0 0).cores = true) ∧
    teamFits (s 1000000) 0 (teamNeed (kernelIn pLaunch) 1000000 0 0 0) true = none ∧
    (∃ off seats, teamFits (s 8) 0 (teamNeed (kernelIn pLaunch) 8 0 0 0) true = some (off, seats)) ∧
    ((∀ i, i < 16 → groupsOf (s 16) 2 0 (0 * 16 + i) < (kernelIn pLaunch).minGroups) ∧
      pLaunch.press = [] ∧ ∃ b, pressBudget (s 16) pLaunch 0 0 (pTrans 16) = some b) ∧
    ((kernelIn pLaunch).width = 16 ∧ mine 0 0 = [] ∧ mine 1 0 = [pTask 0] ∧ (kernelIn pLaunch).width ≤ (mine 16 9).length ∧
      (pTask 0).at_ + 256 ≤ 256 ∧ ¬ (pTask 0).at_ + 256 ≤ (s 8).cycle) ∧
    (∀ off, ((pStarted off).taskGroups.find? fun t => t.uid == tg.uid) = some tg ∧ tg.recs.head? = some (pTask 0) ∧
      taskFirst (pStarted off) tg = true ∧ ctxLive (pStarted off) 0 = true ∧
      unitTrans (pStarted off) pLaunch 0 0 0 (some 8) = some (pTrans 8)) ∧
    (detachedSeat (pStarted true) pLaunch 0 0 0 (some 8) = none ∧
      ∃ slot off, detachedSeat (pStarted false) pLaunch 0 0 0 (some 8) = some (slot, off)) := by
  refine ⟨fun b => ⟨rfl, rfl, (by decide : [2].Nodup), ⟨(fun g h => nomatch h), List.nodup_nil⟩, (fun t h => nomatch h), rfl, rfl, rfl, rfl, rfl⟩,
    by decide, ?_, ⟨by decide, rfl, _, press_found⟩, by decide, fun _ => ⟨rfl, rfl, rfl, rfl, rfl⟩, by decide, ?_⟩
  · obtain ⟨a, ha⟩ := place_found 8 8 true (.inl rfl) (.inl rfl)
    exact ⟨_, _, ha⟩
  · obtain ⟨x, hx⟩ := pick_found (pStarted false).free (freeSlots (pStarted false) 0 0) (by decide)
    refine ⟨x, 2490368, ?_⟩
    have h : detachedSeat (pStarted false) pLaunch 0 0 0 (some 8) =
      (match pick (pStarted false).free (freeSlots (pStarted false) 0 0), (some 2490368 : Option Nat) with
        | some slot, some off => some (slot, off)
        | _, _ => none) := rfl
    rw [hx] at h
    exact h


/-- A command of a group that is unfinished, finished, and finished with an error, on a core that is frozen and one
that is not; no batch to complete, and one of a single operation; an operation under flag 2; an empty store queue
and one with a store; queues of random bits with room and without. -/
theorem witness_Completions :
    let cmd (done : List Nat) (err : Option Trap) : Cmd :=
      { uid := 5, by_ := .group 1 15, die := 0, core := 0, ctx := 0, launch := 2, ppc := (0, 3),
        op := .copy ⟨0, false, 2, []⟩ ⟨0x400000, true, 2, []⟩, acq := [], rel := none, carries := [], fetched := [], done,
        parked := [], err, team := 0, from_ := 0, iter := 0, cut := false }
    let s (done : List Nat) (err : Option Trap) : State := { vs with cmds := [cmd done err] }
    let cold : State := { s [] none with cores := [tCore (some 5) false] }
    let job : MmaJob := { aJob with batch := some 1, no := 3, dst := 6 }
    let batch : State := { vs with cur := { vs.cur with mfences := 1, jobs := [job] } }
    let op : VarOp := ⟨2, [(.v 0 4 false, 3, [7, 8])]⟩
    let flying : Native := { nn with flags := nn.flags.set 2 1, var := [op] }
    let q : QStore := ⟨9, [(coreKey 0 0 0, 1), (coreKey 0 0 1, 2)], []⟩
    let stored (qs : List QStore) : State := { vs with cur := { vs.cur with storeQ := qs } }
    (∀ d e, Distinct (s d e) ∧ cmdOf (s d e) 5 = some (cmd d e) ∧ coreFrozen (s d e) 0 0 = false ∧ coreFrozen cold 0 0 = true ∧
      (cmd d e).by_ = .group 1 15 ∧ groupOf (s d e) 1 = some (s d e).cur ∧ (s d e).cur.party = none ∧
      (∃ old, (s d e).cur.ctrs[15]? = some old) ∧ (cmd d e).err = e) ∧
    (cmdFinished (s [] none) (cmd [] none) = false ∧ cmdFinished (s [1, 0] none) (cmd [1, 0] none) = true ∧
      cmdFinished (s [1, 0] (some .farFault)) (cmd [1, 0] (some .farFault)) = true) ∧
    (Distinct batch ∧ vs.cur.batchesDone = vs.cur.mfences ∧ groupOf batch 1 = some batch.cur ∧ batch.cur.batchesDone ≠ batch.cur.mfences ∧
      (∀ j, j ∈ batch.cur.jobs → j.failed = false) ∧
      (batch.cur.jobs.filter fun x => x.batch == some (batch.cur.batchesDone + 1)) = [job] ∧ job.tbf = false ∧
      ([4] : List Nat).count job.no = 0 ∧ ∀ x, x ∈ batch.cur.jobs → x.no = job.no → x = job) ∧
    (groupOf (nsOf flying) 1 = some (nsOf flying).cur ∧ coreFrozen (nsOf flying) 0 0 = false ∧
      (nsOf flying).cur.native = some flying ∧ flying.var[0]? = some op ∧ flying.flags.length = 12 ∧ op.flag < 12) ∧
    (∀ qs, groupOf (stored qs) 1 = some (stored qs).cur ∧ (stored qs).cur.storeQ = qs) ∧
    (Undamaged (stored [q]) ∧ ∀ b, b ∈ q.bytes → ∀ b', b' ∈ q.bytes → b.1 = b'.1 → b = b') ∧
    (vs.cur.rq.length < 8 ∧ 8 ≤ (List.replicate 8 ([] : List Word)).length) := by
  refine ⟨fun d e => ⟨⟨(by decide : [1].Nodup), fun g h => nomatch h⟩, rfl, rfl, by decide, rfl, rfl, rfl, ⟨_, rfl⟩, rfl⟩, by decide,
    ⟨by unfold Distinct; decide, rfl, rfl, by decide, by decide, rfl, rfl, by decide, ?_⟩, ⟨rfl, rfl, rfl, rfl, by decide⟩,
    fun qs => ⟨rfl, rfl⟩, ⟨by unfold Undamaged; decide, by decide⟩, by decide⟩
  intro x hx _
  exact List.mem_singleton.1 hx


/-- A page table, a context descriptor at 0x9000 and a slice map at 0x1000000 with slice 1 on core 0 of die 0. -/
def rCells : List Host.Cell :=
  [⟨targetKey 0 0x1000, 1⟩, ⟨targetKey 0 0x1001, 0x20⟩, ⟨targetKey 0 0x2000, 1⟩, ⟨targetKey 0 0x2001, 0x30⟩,
   ⟨targetKey 0 0x3000, 7⟩, ⟨targetKey 0 0x3007, 0x10⟩, ⟨targetKey 0 0x9041, 0x10⟩, ⟨targetKey 0 0x904B, 2⟩,
   ⟨targetKey 0 0x9053, 1⟩, ⟨targetKey 1 0x1000007, 0x80⟩]

/-! ## Context switches -/

def rQ : Queue := { Queue.new ⟨0, 0⟩ with ctxDesc := 0x9000, ctx := 0 }
def rGroup : Group := { oneGroup 5 2 none with st := .halted, stopCode := 0, budget := 16 }
def rCtx (st : CtxState) (gs : List Group) : Ctx :=
  { Ctx.new 0 with st, saveArea := 0x40000, ptRoot := 0x1000, savedGroups := gs, savedSlices := [⟨1, 0, false, 0⟩] }
def rLaunch : Launch := { oneLaunch 2 (vObj 0 2) with trs := [(0, 0, 0, 3)] }
def rState (c : Ctx) (front : Front) : State :=
  { State.reset with
    boot := .running, ctxs := [c], launches := [rLaunch], trans := [oneTrans 3 []], nextId := 7, front
    mem := { State.reset.mem with bytes := rCells } }
def rSaved (b : Bool) : State := rState (rCtx .saved (if b then [rGroup] else [])) { Front.reset with queues := [rQ] }
/-- The start of the load that the restore makes. -/
def rLoad (b : Bool) : State :=
  modCtx (ctlStart (rSaved b) 3 0 false) 0 fun x => { x with st := .unloaded }
def rPut (b : Bool) (ws : List Window) : State := putCtx (describe (rLoad b) rQ) 0 [⟨1, 0, false, 0⟩] ws

/-- The context as its descriptor leaves it. -/
def rOpen (b : Bool) : Ctx := { rCtx .unloaded (if b then [rGroup] else []) with saveArea := 0, sampleLog2 := 0, traceLog2 := 0, barrierLog2 := 0 }

theorem rLoad_ctx (b : Bool) : ctxOf (describe (rLoad b) rQ) 0 = some (rOpen b) := by cases b <;> decide +kernel

theorem rLoad_key (b : Bool) (va : Nat) :
    (farKey (describe (rLoad b) rQ) 0 va false).1 = (farKey (rState (rOpen false) Front.reset) 0 va false).1 := by
  have h : ctxOf (rState (rOpen false) Front.reset) 0 = some (rOpen false) := rfl
  have hw : walkFar (describe (rLoad b) rQ) .frontEnd (rOpen b) va false =
    walkFar (rState (rOpen false) Front.reset) .frontEnd (rOpen false) va false := by cases b <;> rfl
  simp only [farKey, rLoad_ctx, h, hw]
  split
  · rfl
  · split <;> rfl

theorem rLoad_seal (b : Bool) : ctxSeal (describe (rLoad b) rQ) 0 = 0 := by
  have h := rLoad_ctx b
  rw [ctxOf] at h
  rw [ctxSeal, h]
  rfl

theorem rLoad_read (n va k : Nat) (p : Nat) (hn : n = 4096 * p) (b : Bool) (ha : va % 4096 = 0)
    (h : ∀ i, i < p → (farKey (rState (rOpen false) Front.reset) 0 (va + 4096 * i) false).1 = .hit (k + 4096 * i)) :
    frontRead (describe (rLoad b) rQ) 0 n va = .ok ((keysFrom n k).map (describe (rLoad b) rQ).mem.byte) := by
  subst hn
  rw [frontRead, farReadN, show 4096 * p / 4096 + 2 = p + 2 by omega, farRead_pages _ _ _ k rfl rfl (rLoad_seal b) p 2 ha fun i hi => (rLoad_key b _).trans (h i hi)]

theorem rCells_zero (k : Nat) (h : targetKey 1 0x1000008 ≤ k) : cellsGet rCells k = 0 := by
  apply cellsGet_none
  have h2 : ∀ c, c ∈ rCells → c.1 < targetKey 1 0x1000008 := by decide
  intro c hc
  have := h2 c hc
  omega

theorem rMap (b : Bool) :
    sliceMap ((keysFrom 65536 (targetKey 1 0x1000000)).map (describe (rLoad b) rQ).mem.byte) = some [⟨1, 0, false, 0⟩] := by
  rw [show (65536 : Nat) = 8 + 65528 from rfl, keysFrom_append, List.map_append]
  have hz : ∀ y, y ∈ (keysFrom 65528 (targetKey 1 0x1000000 + 8)).map (describe (rLoad b) rQ).mem.byte → y = 0 := by
    intro y hb
    obtain ⟨k, hk, rfl⟩ := List.mem_map.1 hb
    exact rCells_zero k (keysFrom_mem _ _ k hk).1
  have h8 : (keysFrom 8 (targetKey 1 0x1000000)).map (describe (rLoad b) rQ).mem.byte = [0, 0, 0, 0, 0, 0, 0, 0x80] := by
    show (keysFrom 8 (targetKey 1 0x1000000)).map (cellsGet rCells) = _
    decide
  rw [h8]
  generalize hy : (keysFrom 65528 (targetKey 1 0x1000000 + 8)).map (describe (rLoad b) rQ).mem.byte = ys at hz
  have he : (tableEnts 4 16384 0 ([0, 0, 0, 0, 0, 0, 0, 0x80] ++ ys)).filter (fun e => bitOf e.2 31) = [(1, 0x80000000)] := by
    have ht : tableEnts 4 16384 0 ([0, 0, 0, 0, 0, 0, 0, 0x80] ++ ys) =
      (0, 0) :: (1, 0x80000000) :: tableEnts 4 16382 2 ys := by
      rw [show (16384 : Nat) = 16382 + 1 + 1 from rfl, tableEnts, tableEnts]
      simp [leNat]
    have hn : (tableEnts 4 16382 2 ys).filter (fun e => bitOf e.2 31) = [] := by
      rw [List.filter_eq_nil_iff]
      intro e he
      rw [tableEnts_zero _ _ _ _ hz e he]
      decide
    rw [ht, List.filter_cons_of_neg (by decide), List.filter_cons_of_pos (by decide), hn]
  simp only [sliceMap, he]
  decide

def rDesc : Nat := recNat [(0x1000000, 640), (0x2000000, 576), (0x1000, 512)]

theorem rLoad_desc (b : Bool) : descriptorOf (describe (rLoad b) rQ) rQ = rDesc :=
  (show _ = feNat (rState (rOpen false) Front.reset) (targetKey 0 0x9000) 128 by cases b <;> rfl).trans (by decide +kernel)

/-- What the restore's load answers. -/
theorem rLoad_ok (b : Bool) : ∃ ws, loadCtx (rLoad b) rQ = (.ok, rPut b ws) :=
  ⟨_, loadCtx_ok (rLoad_ctx b) (by cases b <;> rfl) (rLoad_desc b) (by decide +kernel)
    ((congrArg (frontRead _ _ _) (by decide +kernel)).trans
      (rLoad_read 65536 0x1000000 (targetKey 1 0x1000000) 16 rfl b (by decide) (by decide +kernel)))
    ((congrArg (frontRead _ _ _) (by decide +kernel)).trans
      (rLoad_read 131072 0x2000000 (targetKey 1 0x2000000) 32 rfl b (by decide) (by decide +kernel)))
    (rMap b) (by cases b <;> decide)⟩

/-- A request in progress and none; each state of a context; a save that can be made, one that must wait and one whose
area is written; a saved context with and without a group, restored by a queue; images that may and may not
take over, with a context on the device and without. -/
theorem witness_ContextSwitch :
    let s0 : State := { State.reset with boot := .running }
    let st (c : Ctx) : State := rState c Front.reset
    let f : FwImage := ⟨2, 3, 0, [], [], []⟩
    let staged (c : Ctx) : State := { st c with fw := { State.reset.fw with staged := some f } }
    (s0.boot = .running ∧ Distinct s0 ∧ ctlBusy s0 = false ∧ ctlBusy (ctlStart s0 1 0 false) = true ∧ ctxOf s0 0 = none ∧
      s0.fw.suspended = [] ∧ s0.fw.staged = none) ∧
    (∀ z gs, (st (rCtx z gs)).boot = .running ∧ Distinct (st (rCtx z gs)) ∧ ctlBusy (st (rCtx z gs)) = false ∧
      ctxOf (st (rCtx z gs)) 0 = some (rCtx z gs)) ∧
    (∃ x : Ctx, ctxOf (st { rCtx .loaded [] with firedAt := some 0 }) 0 = some x ∧ x.st = .loaded ∧ x.firedAt ≠ none) ∧
    (∃ x : Ctx, ctxOf (st { rCtx .saved [] with saveUnload := true }) 0 = some x ∧ x.st = .saved ∧ x.saveUnload = true) ∧
    (∀ c : Ctx, c = rCtx .saving [] → saveReady (st c) 0 = true ∧ (st c).fw.pending = false ∧
      saveReady { st c with cur := { oneGroup 5 2 none with ctx := 0 } } 0 = false ∧
      ∃ c1 t0, ctxOf (gather (st c) c) 0 = some c1 ∧ writeSave (gather (st c) c) c1 c.saveUnload = some t0) ∧
    (restoreFailed (rSaved false) 0 = false ∧ (rCtx .saved []).savedLayout = (rSaved false).fw.layout ∧
      (rCtx .saved []).savedTeams = [] ∧ (rCtx .saved []).savedWindows = [] ∧
      (st (rCtx .saved [])).front.queues = [] ∧
      (∃ x : Ctx, x = { rCtx .saved [] with savedLayout := 7 } ∧ x.savedLayout ≠ (st x).fw.layout ∧
        x.savedLayout + 1 ≠ (st x).fw.layout)) ∧
    (∀ b : Bool, ctxOf (rSaved b) 0 = some (rCtx .saved (if b then [rGroup] else [])) ∧ Distinct (rSaved b) ∧
      ctlBusy (rSaved b) = false ∧ restoreFailed (rSaved b) 0 = false ∧
      ((rSaved b).front.queues.find? fun q => q.ctx == 0) = some rQ ∧
      ∃ s1 x1, loadCtx (modCtx (ctlStart (rSaved b) 3 0 false) 0 fun x => { x with st := .unloaded }) rQ = (.ok, s1) ∧
        ctxOf s1 0 = some x1 ∧
        (b = true → (∀ h, h ∈ heldGroups (rSaved b) → h.uid ≠ rGroup.uid) ∧ rGroup.kind = .spawned ∧
          rGroup.party = none ∧ rGroup.native = none ∧ rGroup.spillLen = 0 ∧
          movedCore [⟨1, 0, false, 0⟩] x1.slices rGroup.die rGroup.core = some (0, 0) ∧
          launchOf s1 rGroup.launch = some rLaunch ∧ recTrans s1 rGroup = some (oneTrans 3 []) ∧
          (oneTrans 3 []).image = [] ∧
          ∃ slot off, seatSaved s1 0 0 rGroup.budget rGroup.width rGroup.tilesHeld 0 = some (slot, off))) ∧
    (∀ z, (staged (rCtx z [])).fw.staged = some f ∧ (staged (rCtx z [])).fw.pending = false ∧
      ((staged (rCtx z [])).ctxs.map (·.id)).Nodup) ∧
    (stagedBar (staged (rCtx .saved [])) f = none ∧ stagedBar (staged { rCtx .saved [] with savedLayout := 7 }) f = some 2) := by
  refine ⟨⟨rfl, by unfold Distinct; decide, by decide, by decide, rfl, rfl, rfl⟩,
    fun z gs => ⟨rfl, ⟨List.nodup_nil, fun g h => nomatch h⟩, (show bitOf (BitVec.toNat 0) 0 = false by decide), rfl⟩, ⟨_, rfl, rfl, by decide⟩, ⟨_, rfl, rfl, rfl⟩, ?_,
    ⟨by decide, rfl, rfl, rfl, rfl, _, rfl, by decide, by decide⟩, ?_, fun z => ⟨rfl, rfl, (by decide : [0].Nodup)⟩, by decide, by decide⟩
  · rintro c rfl
    have h : ((ctxOf (gather (rState (rCtx .saving []) Front.reset) (rCtx .saving [])) 0).bind fun c1 =>
      writeSave (gather (rState (rCtx .saving []) Front.reset) (rCtx .saving [])) c1 false).isSome = true := by decide +kernel
    obtain ⟨t0, h⟩ := Option.isSome_iff_exists.1 h
    obtain ⟨c1, h1, h2⟩ := Option.bind_eq_some_iff.1 h
    exact ⟨by decide, rfl, by decide, c1, t0, h1, h2⟩
  · intro b
    obtain ⟨ws, h⟩ := rLoad_ok b
    obtain ⟨x1, hx, he⟩ := ctxOf_putCtx [⟨1, 0, false, 0⟩] ws (rLoad_ctx b)
    refine ⟨by cases b <;> rfl, ⟨List.nodup_nil, fun g h => nomatch h⟩, by cases b <;> decide, by cases b <;> decide, rfl, _, x1, h, hx, ?_⟩
    rintro rfl
    rw [he]
    refine ⟨(fun h hh => nomatch hh), rfl, rfl, rfl, rfl, by decide, rfl, rfl, rfl, ?_⟩
    have hf : freeSlots (rPut true ws) 0 0 = freeSlots (rSaved true) 0 0 := rfl
    obtain ⟨n, hn⟩ := pick_found (rPut true ws).free (freeSlots (rPut true ws) 0 0) (by rw [hf]; decide)
    refine ⟨n, 2490368, ?_⟩
    have hu : (coreUsable (rPut true ws) 0 0 && coreFits 0 (claimsOn (rPut true ws) 0 0) 1 rGroup.budget rGroup.width rGroup.tilesHeld) = true := by
      have hq : claimsOn (rPut true ws) 0 0 = claimsOn (rSaved true) 0 0 := rfl
      have hc : coreUsable (rPut true ws) 0 0 = coreUsable (rSaved true) 0 0 := rfl
      rw [hq, hc]; decide
    have ha : poolFind (rPut true ws).free 1 (poolBase (rPut true ws) 0) (poolBytes (rPut true ws) 0) 0 (areasOn (rPut true ws) 0 0) = some 2490368 :=
      (show _ = poolFind (rSaved true).free 1 (poolBase (rSaved true) 0) (poolBytes (rSaved true) 0) 0 (areasOn (rSaved true) 0 0) from rfl).trans (by decide)
    rw [seatSaved, if_pos hu, hn, ha]

/-! ## Faults, watchdog and repairs -/

/-- A killed page with a command's line parked on it, with a request and without one; nothing parked; room for a
kill and none. -/
theorem witness_FarFaults :
    let s0 : State := { State.reset with boot := .running }
    let cmd : Cmd :=
      { uid := 5, by_ := .group 1 15, die := 0, core := 0, ctx := 0, launch := 2, ppc := (0, 3),
        op := .copy ⟨0, false, 2, []⟩ ⟨0x400000, true, 2, []⟩, acq := [], rel := none, carries := [], fetched := [],
        done := [], parked := [⟨0, 7, 0, 0, 0, some 9⟩], err := none, team := 0, from_ := 0, iter := 0, cut := false }
    let line : Line := ⟨false, 5, 0, 0, 7, 0, some 9⟩
    let die (n : Nat) : Die := { Die.reset with kills := List.replicate n (0, 7), tlb := [⟨none, 0, 0, 4096, 0, true⟩] }
    let s (n : Nat) : State := { vs with cmds := [cmd], dies := State.reset.dies.set 0 (die n) }
    (Distinct s0 ∧ s0.cmds = [] ∧ (0 < 8 ∧ 0 < s0.dies.length ∧ (dieAt s0 0).busy = false) ∧
      linesOn s0 0 = [] ∧ frontPages s0 = [] ∧ s0.front.starting = [] ∧ s0.front.killed = [] ∧ s0.front.started = []) ∧
    (∀ n, (s n).boot = .running ∧ Distinct (s n) ∧ ((s n).cmds.map (·.uid)).Nodup ∧ 0 < (s n).dies.length ∧
      (dieAt (s n) 0).busy = false ∧ linesOn (s n) 0 = [line] ∧ line.wait = false) ∧
    ((dieAt (s 1) 0).kills.contains (line.ctx, line.page) = true ∧ (dieAt (s 1) 0).kills.length < 64 ∧
      64 ≤ (dieAt (s 64) 0).kills.length) ∧
    (((List.range 8).flatMap fun d => (linesOn (s 0) d).filter fun l => l.pri == some 8) = [] ∧
      ((List.range 8).flatMap fun d => (linesOn (s 0) d).filter fun l => l.pri == some 9) = [line]) ∧
    (∃ a, (s 1).dies[0]? = some a ∧ a.tlb.length = 1) := by
  refine ⟨⟨⟨List.nodup_nil, fun g h => nomatch h⟩, by decide⟩, fun n => ⟨rfl, ⟨(by decide : [1].Nodup), fun g h => nomatch h⟩, (by decide : [5].Nodup), ?_, rfl, rfl, rfl⟩,
    by decide, by decide, _, rfl, rfl⟩
  exact (by decide : 0 < State.reset.dies.length)

/-- Before and at a check, with no launch over its limit and with one; a context that has fired, its group young
and old, active and at rest; a cluster's first illegal state and one soon after another; lines of a corrected
word, of a dead one and of none; injections that are refused and one that is made. -/
theorem witness_WatchdogAndRepairs :
    let at_ (tick : Nat) (l : Launch) : State := { fs with
      tick, nextWatch := 100, launches := [l], front := { fs.front with queues := [{ fQueue with limit := 5 }] } }
    let l (start : Option Nat) : Launch := { oneLaunch 2 (vObj 0 2) with start, hdr := fHdr }
    let fired (cycle : Nat) (st : GState) : State := { vs with
      cycle, ctxs := [{ tCtx with firedAt := some 0 }], cur := { vs.cur with st } }
    let cl (n : Option Nat) (ill : Bool) : State := { vs with
      tick := 7, clusters := [⟨0, 0, ill, n, false⟩] }
    let hurt (w : BitVec 8) : State := { vs with
      mem := { vs.mem with damage := { vs.mem.damage with words := [(targetKey 0 64, w)] } } }
    let inj (a : BitVec 64) (on secret : Bool) : State := { vs with
      ctxs := [{ tCtx with confidential := secret }], conf := { vs.conf with errinj := on }
      rel := { vs.rel with injAddr := a, injXor := 3 } }
    (∀ t x, (at_ t x).boot = .running ∧ Distinct (at_ t x) ∧ (at_ t x).launches = [x] ∧ (at_ t x).nextWatch = 100) ∧
    ((at_ 99 (l none)).tick < 100 ∧ 100 ≤ (at_ 200 (l none)).tick ∧ overTime (at_ 200 (l none)) (l none) = false ∧
      overTime (at_ 200 (l (some 0))) (l (some 0)) = true ∧ ctxOf (at_ 200 (l (some 0))) 0 = some fCtx ∧ fCtx.st = .loaded) ∧
    (∀ n, groupOf (fired n .active) 1 = some (fired n .active).cur ∧ (fired n .active).cur.party = none ∧
      ctxOf (fired n .active) 0 = some { tCtx with firedAt := some 0 } ∧ (fired 65535 .active).cycle < 0 + 65536 ∧
      0 + 65536 ≤ (fired 65536 .active).cycle) ∧
    ((∃ g, g ∈ heldGroups (fired 0 .active) ∧ g.ctx = 0 ∧ g.party = none ∧ g.st = .active) ∧
      (∀ g, g ∈ heldGroups (fired 0 .halted) → g.ctx = 0 → g.party = none ∧ g.st ≠ .active)) ∧
    (0 < Config.clustersOf 0 ∧ (∀ n b, (clusterOf (cl n b) 0 0).offline = false ∧ (clusterOf (cl n b) 0 0).lastIllegal = n ∧
      (clusterOf (cl n b) 0 0).illegal = b ∧ (cl n b).tick < 7 + 100000) ∧
      (∃ g, g ∈ heldGroups (cl none false) ∧ g.die = 0 ∧ g.core / 16 = 0 ∧ g.party = none) ∧
      ∃ row, (cl none true).field.life.errors[0]? = some row ∧ 7 ≤ row.length) ∧
    (damageIn (hurt 1) (targetKey 0 0) 64 = [] ∧ damageIn (hurt 1) (targetKey 0 64) 64 = [(targetKey 0 64, 1)] ∧
      dead 1 = false ∧ dead 3 = true ∧ (hurt 1).rel.errBase = 0) ∧
    (injWord (inj 1 true false).rel.injAddr.toNat = none ∧ injWord (inj 0x1000000000000000 true false).rel.injAddr.toNat = some (coreKey 0 0 0) ∧
      (inj 0x1000000000000000 false false).conf.errinj = false ∧ (inj 0x1000000000000000 true false).conf.errinj = true ∧
      inConfidential (inj 0x1000000000000000 true true) (coreKey 0 0 0) = true ∧
      inConfidential (inj 0x1000000000000000 true false) (coreKey 0 0 0) = false) := by
  refine ⟨fun t x => ⟨rfl, ⟨List.nodup_nil, fun g h => nomatch h⟩, rfl, rfl⟩, by decide, fun n => ⟨rfl, rfl, rfl, by decide, by decide⟩, ⟨⟨vs.cur, by decide⟩, by decide⟩,
    ⟨by decide, fun n b => ⟨rfl, rfl, rfl, (by decide : 7 < 7 + 100000)⟩, ⟨vs.cur, by decide⟩, _, rfl, by decide⟩, by decide, by decide⟩

/-! ## Field life, power, reset, attestation and links -/

/-- Banks; rows of the histograms and their bins; an island's degradation; a dump under way and none. -/
theorem witness_FieldLife :
    let s0 : State := { State.reset with boot := .running }
    let s1 : State := { s0 with field := { s0.field with writing := some [7] } }
    let hour : State := { s0 with field := { s0.field with life := { s0.field.life with poweredS := 3600 } } }
    (s0.boot = .running ∧ s0.field.banks.length = 2 ∧ s0.field.life.poweredS < 2 ^ 64 - 1 ∧
      (∃ old, s0.field.life.temp[8]? = some old ∧ old.length = 16 ∧ old[15]? = some 0) ∧
      (∃ old, s0.field.life.volt[15]? = some old ∧ old.length = 8 ∧ old[7]? = some 0)) ∧
    (hour.field.life.poweredS ≠ 0 ∧ degradePpm 100 100 = 0 ∧ 50000 ≤ degradePpm 100 95 ∧
      (0 < degradePpm 100 96 ∧ degradePpm 100 96 < 50000) ∧
      eolHours 40000 3600 = 0 ∧ eolHours 40000 (3600 * 35040) = 8760) ∧
    (s0.field.writing = none ∧ s1.boot = .running ∧ s1.field.writing = some [7]) := by decide

/-- A measurement at and over the limit; steering off and on, no fraction, and a lowest island that was so before;
a sampler that is due and one that is not, on an empty core and on one with groups of numbers 0 and 3. -/
theorem witness_PowerAndSamples :
    let s0 : State := { State.reset with boot := .running }
    let on : State := { s0 with conf := { s0.conf with steer := true }, power := { s0.power with lowest := some 1 } }
    let off : State := { s0 with conf := { s0.conf with steer := false } }
    let smp (last : Option Nat) : Sampler := ⟨0, 0, 0, 0, 0, last⟩
    let s (ctl : BitVec 64) (last : Option Nat) (os : List Group) : State := { vs with
      cur := Group.free, ctxs := [{ tCtx with debugCtl := ctl }], samplers := [smp last], others := os }
    let two : List Group := [{ oneGroup 5 2 none with slot := 3 }, { oneGroup 6 2 none with slot := 0 }]
    (3400 ≤ s0.conf.powerW ∧ s0.conf.powerW < 3401 ∧ s0.power.khz[0]? = some 1800000) ∧
    (off.boot = .running ∧ off.conf.steer = false ∧ on.boot = .running ∧ on.conf.steer = true) ∧
    ((∀ i, ¬ (i < 16 ∧ ([] : List (Nat × Nat))[i]? = some (1, 2) ∧ (2 : Nat) ≠ 0)) ∧
      (1 < 16 ∧ ([(4, 5), (1, 5)] : List (Nat × Nat))[1]? = some (1, 5) ∧ (5 : Nat) ≠ 0) ∧
      on.power.lowest = some 1 ∧ 8 * 1 * 5 + 5 * 5 ≤ 8 * 4 * 5 ∧ ¬ (8 * 4 * 5 + 5 * 5 ≤ 8 * 4 * 5)) ∧
    (∀ ctl last os, (s ctl last os).boot = .running ∧
      ((s ctl last os).samplers.find? fun x => x.die == 0 && x.core == 0 && x.ctx == 0) = some (smp last) ∧
      ctxOf (s ctl last os) 0 = some { tCtx with debugCtl := ctl }) ∧
    ((4 : BitVec 64).getLsbD 2 = true ∧ (4 : BitVec 64).toNat / 2 ^ 40 = 0 ∧ (0 : BitVec 64).getLsbD 2 = false ∧
      0 + 0 * 0 ≤ vs.cycle ∧ heldSlots (s 4 none []) 0 0 0 = [] ∧
      nextSample (heldSlots (s 4 none two) 0 0 0) none = some { oneGroup 6 2 none with slot := 0 } ∧
      nextSample (heldSlots (s 4 (some 0) two) 0 0 0) (some 0) = some { oneGroup 5 2 none with slot := 3 }) := by
  refine ⟨by decide, by decide, ⟨fun i h => (by simp at h), by decide⟩, fun ctl last os => ⟨rfl, rfl, rfl⟩, by decide⟩

/-- A device in reset and one that runs. Whether signatures verify, and so which banks hold a valid record, is free
(R429), so the two cases on them need no state. -/
theorem witness_ResetAndBoot :
    State.reset.boot = .inReset ∧ ({ State.reset with boot := .running } : State).boot ≠ .inReset ∧
    lastBank State.reset = [] ∧ State.reset.field.life.cycles < 2 ^ 32 - 1 ∧
    (∀ fw : FwImage, (Config.ed25519Ok fw.body fw.sigEd = true ∧ Config.mldsaOk fw.body fw.sigMl = true) ∨
      ¬ (Config.ed25519Ok fw.body fw.sigEd = true ∧ Config.mldsaOk fw.body fw.sigMl = true)) ∧
    (∀ b : List Byte, b.length = 0 → confOk b = false) ∧
    ∃ b : List Byte, bankOk b = true ∧ leNat ((b.drop 16).take 4) < 2 ^ 32 - 1 :=
  ⟨by decide, by decide, by decide, by decide, fun _ => Classical.em _, (fun b h => by cases b with
    | nil => rfl
    | cons x xs => cases h), lifeBytes State.reset.field.life, by decide +kernel, by decide +kernel⟩

/-- Every stage of a connection; a session with a key that is finished and one that is not, and a context of each
kind. -/
theorem witness_Attestation :
    let s (stage : Nat) (k : Option Nat) (fin secret : Bool) : State := { vs with
      ctxs := [{ tCtx with confidential := secret }], spdm := { vs.spdm with stage, sessionKey := k, finished := fin } }
    ∀ stage k fin secret, (s stage k fin secret).boot = .running ∧ (s stage k fin secret).spdm.stage = stage ∧
      (s stage k fin secret).spdm.sessionKey = k ∧ (s stage k fin secret).spdm.finished = fin ∧
      ctxOf (s stage k fin secret) 0 = some { tCtx with confidential := secret } ∧ (0 < 2 ∧ 1 < 2) :=
  fun _ _ _ _ => ⟨rfl, rfl, rfl, rfl, rfl, by decide⟩

/-- A port that is up, one whose time has run out and one that never was; a write that reaches memory and one that
does not; requests of each operation, with the control register free and busy. -/
theorem witness_LinksAndRegisters :
    let s0 : State := { State.reset with boot := .running }
    let up : Port := ⟨true, 5, none, false, 0⟩
    let down : Port := ⟨false, 5, some 3, false, 0⟩
    let s : State := { s0 with tick := 100003, links := { s0.links with ports := [up, down, ⟨false, 0, none, false, 0⟩] } }
    let busy : State := { s with front := { s.front with ctxStatus := 1 } }
    (s.boot = .running ∧ s.links.written = false ∧ s.links.ports[0]? = some up ∧ s.links.ports[1]? = some down ∧
      3 + 100000 ≤ s.tick) ∧
    ((∀ i, i < 8 → outsideReaches s (.package 5) (targetKey 0 64 + i) = true) ∧ Undamaged s ∧
      outsideReaches s (.package 6) (targetKey 0 64) = false ∧ outsideReaches s (.package 5) (coreKey 0 0 64) = false ∧
      (∀ i, i < elemBytes 1 → outsideReaches s .host (targetKey 0 64 + i) = true)) ∧
    (4 % 8 ≠ 0 ∧ (∃ x, s.dies[7]? = some x) ∧ (dieAt s 0).busy = false ∧ (1 : BitVec 64).getLsbD 0 = true ∧
      (0 : BitVec 64).getLsbD 16 = false ∧ (0 : BitVec 64).getLsbD 0 = false) ∧
    ((∃ t, exec (.flush 0) s = .next t) ∧ (∃ t, exec (.killCtx 0 7) s = .next t) ∧ (∃ t, exec .dumpGo s = .next t) ∧
      ∃ t, exec (.tlIdent 5) s = .next t) ∧
    (ctlBusy s = false ∧ ctlBusy busy = true ∧ s.fw.suspended = [] ∧
      (∀ v : BitVec 64, v = 0x100000000 ∨ v = 0x200000000 ∨ v = 0x300000000 → v.toNat / 2 ^ 37 = 0 ∧ v.toNat % 2 ^ 32 = 0) ∧
      (0x100000000 / 2 ^ 32 % 16 = 1 ∧ 0x200000000 / 2 ^ 32 % 16 = 2 ∧ 0x300000000 / 2 ^ 32 % 16 = 3) ∧
      (∃ t, exec (.suspend 0 false) s = .next t) ∧ (∃ t, exec (.unload 0 false) s = .next t) ∧ ∃ t, exec (.resume 0) s = .next t) := by
  refine ⟨by decide, ⟨by decide, by unfold Undamaged; decide, by decide, by decide, by decide⟩, ⟨by decide, ⟨_, rfl⟩, by decide⟩,
    ⟨⟨_, rfl⟩, ⟨_, rfl⟩, ⟨_, rfl⟩, _, rfl⟩, rfl, rfl, rfl, ?_, by decide, ⟨_, rfl⟩, ⟨_, rfl⟩, _, rfl⟩
  rintro v (rfl | rfl | rfl) <;> decide

/-! ## The step -/

/-- A Value Form group at a branch and one at a word that is no instruction; one that waits for room for a batch beside
one that need not; a helper with an idle lane; a native group at a bundle of NOPs; an agenda, and none. What the free
environment brings is free (log 3), so it needs no state. -/
theorem witness_StepRunsDecoded :
    let s : State := { vs with issuing := true }
    let bad : State := placeGroup State.reset (oneObject [0x0C000000]) none none
    let fence : State := placeGroup State.reset (oneObject [0x9F930200]) none none
    let full : State := { fence with
      cur := { fence.cur with mfences := 8 }
      others := [{ fence.cur with uid := 77 }] }
    let helper : State := { hs tHerd tParty with issuing := true }
    let img := oneImage 0
    let n : Native := oneNative 0
    let nat0 : State := placeGroup State.reset (oneObject [0x81800000]) (some (oneTrans 0 img)) (some n)
    let still (s : State) : State := { s with issuing := false }
    let free (s x : State) : Prop := s.issuing = true ∧ x.cur.wait = none ∧ x.cur.fe = none ∧ x.cur.herd = none ∧ s.upset = .clean
    let tvf (s x : State) : Prop := x.cur.native = none ∧ ∃ i k t, decodeWords (codeAt x) = .ok (i, k) ∧
      exec i (countIssue x true) = .next t
    (free s (still s) ∧ s.cur.party = none ∧ turnReady (still s) = true ∧ tvf s (still s)) ∧
    (let x := takeUp (still full) 77;
      free full x ∧ full.cur.party = none ∧ turnReady (still full) = false ∧
      (issueOrder (still full) full.cur.die full.cur.core).find? (fun u => turnReady (takeUp (still full) u)) = some 77 ∧
      tvf full x) ∧
    (let x := takeUp (still helper) 1;
      free helper x ∧ helper.cur.party ≠ none ∧
      (helperOrder (still helper) helper.cur.die helper.cur.core).find? (fun u => helperReady (takeUp (still helper) u)) = some 1 ∧
      tvf helper x) ∧
    (free bad (still bad) ∧ bad.cur.party = none ∧ turnReady (still bad) = true ∧ bad.cur.native = none ∧
      ∃ e, decodeWords (codeAt bad) = .error e) ∧
    (free nat0 (still nat0) ∧ nat0.cur.native = some n ∧ nat0.cur.party = none ∧ turnReady (still nat0) = true ∧
      let s1 := countIssue (still nat0) (usesPort (still nat0))
      imageOf s1 s1.cur = img ∧ n.bundle = 0 ∧ ∃ c b t,
        let s2 := setNat s1 fun n => { n with at_ := (n.clause, n.bundle) }
        let s3 := enterClause (setCur s2 landDue) c
        let s4 := noteBundle s3 img c b
        let s5 := stallTrace (stallBefore s4 (nat s4)).2 img (stallBefore s4 (nat s4)).1
        decodeClause (imgUnit img n.clause) = .ok c ∧ clauseBad s2 img c = false ∧
        decodeBundle (imgUnit img (nextOff n)) = .ok b ∧ bundleBad s3 img c b = false ∧
        firstStop s5 [b.br, b.us, b.va0, b.va1, b.vm, b.cv, b.en] = none ∧
        runSlots (driftTrace s5 c b) [b.us, b.va0, b.va1, b.vm, b.cv, b.en, b.br] = .next t ∧ t.cur.uid = s5.cur.uid ∧
        ∀ x, t.cur.native = some x → snapshots x ≤ 24) ∧
    (State.reset.issuing = false ∧ State.reset.agenda = [] ∧
      ({ State.reset with agenda := [.shepherdPass] } : State).agenda = .shepherdPass :: []) := by
  refine ⟨⟨⟨rfl, rfl, rfl, rfl, rfl⟩, rfl, by decide +kernel, rfl, _, _, _, rfl, rfl⟩,
    ⟨⟨rfl, rfl, rfl, rfl, rfl⟩, rfl, by decide +kernel, by decide +kernel, rfl, _, _, _, rfl, rfl⟩,
    ⟨⟨rfl, rfl, rfl, rfl, rfl⟩, by decide, by decide +kernel, rfl, _, _, _, rfl, rfl⟩,
    ⟨⟨rfl, rfl, rfl, rfl, rfl⟩, rfl, by decide +kernel, rfl, _, rfl⟩,
    ⟨⟨rfl, rfl, rfl, rfl, rfl⟩, rfl, rfl, by decide +kernel, by decide, rfl, ?_⟩, rfl, rfl, rfl⟩
  refine ⟨_, _, _, rfl, by decide +kernel, rfl, by decide +kernel, by decide +kernel, rfl, by decide +kernel, ?_⟩
  have h : ∀ o : Option Native, o.all (fun x => decide (snapshots x ≤ 24)) = true → ∀ x, o = some x → snapshots x ≤ 24 := by
    rintro o h x rfl
    simpa using h
  exact h _ (by decide +kernel)

/-- Instructions and fields of each kind that the decoder takes, and memory in its form with a step that goes on. -/
theorem witness_DecodeEncode :
    ((Instr.exit).opc.isSome = true ∧ (Instr.exit).wf = true) ∧
    decodeWords [0x81800000] = .ok (.exit, 1) ∧
    (∃ i, decodeVa true none 0 = .ok i) ∧ (∃ i, decodeUs 0 = .ok i) ∧ (∃ i, decodeVm none 0 = .ok i) ∧
    (∃ i, decodeCv 0 = .ok i) ∧ (∃ i, decodeEn 0 = .ok i) ∧ ∃ i, decodeBr 0 = .ok i :=
  ⟨by decide, rfl, ⟨_, rfl⟩, ⟨_, rfl⟩, ⟨_, rfl⟩, ⟨_, rfl⟩, ⟨_, rfl⟩, _, rfl⟩

theorem witness_InvKept :
    let s : State := placeGroup State.reset (oneObject [0x81800000]) none none
    StateInv s ∧ ∃ t, step s = .next t :=
  ⟨show Mem.wf _ = true by decide, _, rfl⟩

/-! ## Decoding: words written out from the encoding tables -/

/-- Whether words decode to an instruction and end with it. -/
def readsAs (ws : List Word) (i : Instr) : Bool :=
  match decodeWords ws with
  | .ok (j, n) => decide (j = i) && n == ws.length
  | .error _ => false
/-- Whether a slot field decodes to an operation. -/
noncomputable def slotReads (r : Except SlotBad Instr) (i : Instr) : Bool :=
  match r with
  | .ok j => decide (j = i)
  | .error _ => false
/-- Whether a packet's 2,048 bits, byte 0 lowest, read as a packet of queue 2 of function 1, index 3. -/
noncomputable def packetReads (x : Nat) (i : Instr) : Bool :=
  match decodePacket ⟨1, 2⟩ 3 x with
  | .ok j => decide (j = i)
  | _ => false

/-- P2 of 16_compiler_programs.md: its body as printed, in an object with its kernel (budget 8, width 16). -/
def p2Obj : List Word :=
  [0, 0, 0, 0x150, 0x40, 0x10001, 0x100, 0x120, 0, 0x120, 0, 0x120, 0, 0, 0, 0, 0x50, 0x2b, 0, 0xffffffff,
   0xff803000, 0x40000010, 0x40000010, 0x40000010, 0x80005000, 0xc0000001, 0, 1, 0x80000001, 0, 0xff803000,
   0x40000010, 0x40000010, 0x4000000a, 0x300a1200, 3, 0x300a1200, 4, 0x10ca3200, 6, 7, 5, 0xad02200, 3, 0x40000004,
   0xad02200, 4, 0x40000004, 0x28102201, 0xa, 2, 0x80806000, 0xb, 0xc0000001, 9, 0xa, 8, 0xc0000002, 0xff800000,
   0x304a2000, 2, 8, 0x81800000, 0, 0, 0, 0x10008, 0, 0xffffffff, 0x18, 0, 0, 0, 0, 0, 0, 0, 0, 0, 0, 0, 0, 0, 0]

/-- The translation of P2 that 16_compiler_programs.md prints: header, clauses, bundles, entries, live items. -/
def p2Img : List Word :=
  [0x31464254, 0x10007, 0x1a, 0x6000, 0x360, 0x3c0, 0x530, 0, 0x112ff000, 1, 0, 0, 0, 0, 0, 0, 1, 0, 0, 0xa30040,
   0xa2026000, 0, 0, 0x1000000, 0, 0, 0, 0xa30340, 0, 0, 0, 0x9000000, 0, 0, 0, 0, 0, 0, 0, 0, 0x111f0000, 0x10002,
   0, 0, 0, 0, 0, 0, 1, 0, 0, 0, 0, 0x3000200, 0x28, 0, 0, 0, 0, 0, 0, 0x2802000, 1, 0, 0x110f1001, 0xffff0003, 0xf,
   0, 0, 0, 0, 0, 0, 0, 0, 0, 0, 0x3000200, 0x29, 0, 0x10f0002, 0x30003, 0, 0, 0, 0, 0, 0, 0, 0, 0, 0, 0, 0x1032000,
   1, 0] ++
  [0x110f1001, 0xffff0004, 0xf, 0, 0, 0, 0, 0, 0, 0, 0x81040000, 0xbe0102, 0x83000062, 0x3000200, 0x29, 0,
   0x114ff002, 0x40005, 0, 0, 0, 0, 0, 0, 0, 0, 0x62000000, 0x830203, 0, 0, 0, 0, 0, 0, 0, 0, 0, 0, 0, 0, 0, 0,
   0x40010000, 0x930002, 0, 0, 0, 0x11000000, 0, 0, 0, 0, 0, 0, 0, 0, 0, 0x18000000, 0x800, 0, 0, 0, 0, 0,
   0x110f0000, 0x50006, 0, 0, 0, 0, 0, 0, 0, 0, 0, 0, 0, 0x1402000, 2, 0x13000000, 0x110ff000, 0xffff0007, 0xf, 0, 0,
   0, 0, 0, 0, 0, 0x2c00, 0, 0, 0, 0, 0] ++
  [0x111ff000, 0xffff0008, 0xf, 0, 0, 0, 0, 0, 0, 0, 0, 0xa30302, 0xa2020100, 0, 0, 0, 0, 0x5000000, 0x400, 0, 0, 0,
   0, 0, 0x10002, 0x30000000, 0, 0xfffff000, 0xa10006, 0x60000000, 0x3000, 0xfffff000, 0xe20007, 0x60000000, 0x9000,
   0xfffff000, 0x102000b, 0x70000000, 0xf000, 0xfffff000, 0x1f20013, 0xc0000000, 0x16000, 0xfffff000, 0x2720015,
   0xc0000000, 0x22000, 0xfffff000, 0x4000, 0, 0x1004002, 0, 0x2004004, 0, 0, 0, 0x1000000, 0, 0x2004004, 0,
   0x3002000, 0, 0x4002006, 0, 0x5002004, 0, 0, 0, 0x1000000, 0, 0x2004004, 0, 0x3002000, 0, 0x4006000, 0, 0x5002004,
   0, 0, 0, 0x1000000, 0, 0x2004004, 0, 0x3002000, 0, 0x4006000, 0, 0x5002004, 0, 0x6002005, 0, 0, 0, 0x1000000, 0] ++
  [0x2004004, 0, 0x3000000, 0, 0x4000000, 0, 0x5000000, 0, 0x6000000, 0, 0x7000000, 0, 0x8002002, 0, 0x9002000, 0,
   0xa002004, 0, 0xb005000, 0, 0, 0, 0x1000000, 0, 0x2004004, 0, 0x3000000, 0, 0x4000000, 0, 0x5000000, 0, 0x6000000,
   0, 0x7000000, 0, 0x8002002, 0, 0x9000000, 0, 0xa000000, 0, 0xb000000, 0]

/-- Whether an image is taken as a translation of P2 at budget 8. -/
def p2Takes (img : List Word) : Bool :=
  match planOf p2Obj (kernelOf p2Obj 0) 0 0 8 with
  | .ok p => imageOk p2Obj (kernelOf p2Obj 0) 0 0 p img
  | .limit _ => false

/-- 16_compiler_programs.md, "Native clauses" and "Side tables". -/
theorem test_p2_taken : p2Takes p2Img = true := by decide +kernel

/-- 16_compiler_programs.md: the FMA reads %acc at v0.4, not v0.5. -/
theorem test_p2_fma : p2Takes (p2Img.set 106 0x81050000) = false := by decide +kernel

/-- 16_compiler_programs.md: in entry 3, %q is in slot 0 although v0.6 holds a filled copy of it. -/
theorem test_p2_entry : p2Takes (p2Img.set 278 0x4002006) = false := by decide +kernel

/-- 16_compiler_programs.md: the edge block moves v0.2 to v0.4. -/
theorem test_p2_edge : p2Takes ((p2Img.set 203 0xa30302).set 204 0) = false := by decide +kernel

theorem test_decode_integer : [
    ([0x00042200, 0x00000000, 0x40000005], .add ⟨.i32, false, .val 0, .imm 5⟩),
    ([0x00452A00, 0x00000002, 0x00000003], .sub ⟨.i64, true, .val 2, .val 3⟩),
    ([0x00822200, 0x00000004, 0x00000005], .mul ⟨.i8, false, .val 4, .val 5⟩),
    ([0x00C32A00, 0x00000006, 0x40000005], .mulHiS ⟨.i16, true, .val 6, .imm 5⟩),
    ([0x01042200, 0x00000008, 0x00000009], .mulHiU ⟨.i32, false, .val 8, .val 9⟩),
    ([0x01852A00, 0x0000000A, 0x0000000B], .divS ⟨.i64, true, .val 10, .val 11⟩),
    ([0x01C22200, 0x0000000C, 0x40000005], .divU ⟨.i8, false, .val 12, .imm 5⟩),
    ([0x02032A00, 0x0000000E, 0x0000000F], .remS ⟨.i16, true, .val 14, .val 15⟩),
    ([0x02442200, 0x00000010, 0x00000011], .remU ⟨.i32, false, .val 16, .val 17⟩),
    ([0x02852A00, 0x00000012, 0x40000005], .addSatS ⟨.i64, true, .val 18, .imm 5⟩),
    ([0x02C22200, 0x00000014, 0x00000015], .addSatU ⟨.i8, false, .val 20, .val 21⟩),
    ([0x03032A00, 0x00000016, 0x00000017], .subSatS ⟨.i16, true, .val 22, .val 23⟩),
    ([0x03442200, 0x00000018, 0x40000005], .subSatU ⟨.i32, false, .val 24, .imm 5⟩),
    ([0x04852A00, 0x0000001A, 0x0000001B], .minS ⟨.i64, true, .val 26, .val 27⟩),
    ([0x04C22200, 0x0000001C, 0x0000001D], .minU ⟨.i8, false, .val 28, .val 29⟩),
    ([0x05032A00, 0x0000001E, 0x40000005], .maxS ⟨.i16, true, .val 30, .imm 5⟩),
    ([0x05442200, 0x00000020, 0x00000021], .maxU ⟨.i32, false, .val 32, .val 33⟩),
    ([0x05852A00, 0x00000022, 0x00000023], .and ⟨.i64, true, .val 34, .val 35⟩),
    ([0x05C22200, 0x00000024, 0x40000005], .or ⟨.i8, false, .val 36, .imm 5⟩),
    ([0x06032A00, 0x00000026, 0x00000027], .xor ⟨.i16, true, .val 38, .val 39⟩),
    ([0x06842200, 0x00000028, 0x00000029], .shl ⟨.i32, false, .val 40, .val 41⟩),
    ([0x06C52A00, 0x0000002A, 0x40000005], .shrU ⟨.i64, true, .val 42, .imm 5⟩),
    ([0x07022200, 0x0000002C, 0x0000002D], .shrS ⟨.i8, false, .val 44, .val 45⟩),
    ([0x07432A00, 0x0000002E, 0x0000002F], .rotl ⟨.i16, true, .val 46, .val 47⟩),
    ([0x07842200, 0x00000030, 0x40000005], .rotr ⟨.i32, false, .val 48, .imm 5⟩),
    ([0x03842400, 0x00000001, 0x00000002], .addCc ⟨.i32, false, .val 1, .val 2⟩),
    ([0x04042400, 0x00000001, 0x00000002], .subCc ⟨.i32, false, .val 1, .val 2⟩)].all (fun p => readsAs p.1 p.2) = true := by decide

theorem test_decode_integer2 : [
    ([0x03C53400, 0x00000001, 0x00000002, 0x00000003], .addc ⟨.i64, false, .val 1, .val 2, .val 3⟩),
    ([0x04453400, 0x00000001, 0x00000002, 0x00000003], .subc ⟨.i64, false, .val 1, .val 2, .val 3⟩),
    ([0x01443200, 0x00000001, 0x00000002, 0x40000003], .mad ⟨.i32, false, .val 1, .val 2, .imm 3⟩),
    ([0x08C43200, 0x00000001, 0x00000002, 0x40000003], .bfeU ⟨.i32, false, .val 1, .val 2, .imm 3⟩),
    ([0x09043200, 0x00000001, 0x00000002, 0x40000003], .bfeS ⟨.i32, false, .val 1, .val 2, .imm 3⟩),
    ([0x09434200, 0x00000001, 0x00000002, 0x40000003, 0x40000004], .bfi ⟨.i16, false, .val 1, .val 2, .imm 3, .imm 4⟩),
    ([0x06441A00, 0x00000007], .not ⟨.i32, true, .val 7⟩),
    ([0x07C41A00, 0x00000007], .clz ⟨.i32, true, .val 7⟩),
    ([0x08041A00, 0x00000007], .ctz ⟨.i32, true, .val 7⟩),
    ([0x08441A00, 0x00000007], .popc ⟨.i32, true, .val 7⟩),
    ([0x08841A00, 0x00000007], .brev ⟨.i32, true, .val 7⟩),
    ([0x09841A00, 0x00000007], .sext ⟨.i32, true, .val 7⟩),
    ([0x09C41A00, 0x00000007], .zext ⟨.i32, true, .val 7⟩),
    ([0x0A441A00, 0x00000007], .neg ⟨.i32, true, .val 7⟩),
    ([0x0A841A00, 0x00000007], .abs ⟨.i32, true, .val 7⟩),
    ([0x0A021200, 0x00000007], .trunc ⟨.i8, false, .val 7⟩),
    ([0x0AD02200, 0x00000000, 0x7FFFFFFF], .nadd ⟨.near, false, .val 0, .imm 1073741823⟩),
    ([0x0B103200, 0x00000000, 0x00000001, 0x40000008], .nidx ⟨.near, false, .val 0, .val 1, .imm 8⟩),
    ([0x0B502200, 0x00000000, 0x00000001], .nmake ⟨.near, false, .val 0, .val 1⟩),
    ([0x0B841400, 0x00000003], .nsplit ⟨.i32, false, .val 3⟩),
    ([0x0BCB3200, 0x80000002, 0x00000000, 0x3FF00000], .const ⟨.f64, false, .long2 0x0 0x3FF00000⟩)].all (fun p => readsAs p.1 p.2) = true := by decide

theorem test_decode_float : [
    ([0x100A2200, 0x00000001, 0x00000002], .fadd ⟨.f32, false, .rn, .val 1, .val 2⟩),
    ([0x104B2201, 0x00000001, 0x00000002], .fsub ⟨.f64, false, .rz, .val 1, .val 2⟩),
    ([0x10892202, 0x00000001, 0x00000002], .fmul ⟨.bf16, false, .up, .val 1, .val 2⟩),
    ([0x11082203, 0x00000001, 0x00000002], .fdiv ⟨.f16, false, .dn, .val 1, .val 2⟩),
    ([0x10CA3205, 0x00000001, 0x00000002, 0x00000003], .fma ⟨.f32, false, .fmt, .val 1, .val 2, .val 3⟩),
    ([0x114A1200, 0x00000004], .fsqrt ⟨.f32, false, .rn, .val 4⟩),
    ([0x118A1201, 0x00000004], .frcp ⟨.f32, false, .rz, .val 4⟩),
    ([0x11CA1202, 0x00000004], .frsq ⟨.f32, false, .up, .val 4⟩),
    ([0x120A1203, 0x00000004], .exp2 ⟨.f32, false, .dn, .val 4⟩),
    ([0x124A1205, 0x00000004], .log2 ⟨.f32, false, .fmt, .val 4⟩),
    ([0x13CA1200, 0x00000004], .frint ⟨.f32, false, .rn, .val 4⟩),
    ([0x128A3200, 0x00000001, 0x80000001, 0x3F800000], .fmin ⟨.f32, false, .val 1, .long1 0x3F800000⟩),
    ([0x12CA3200, 0x00000001, 0x80000001, 0x3F800000], .fmax ⟨.f32, false, .val 1, .long1 0x3F800000⟩),
    ([0x138A3200, 0x00000001, 0x80000001, 0x3F800000], .fcopysign ⟨.f32, false, .val 1, .long1 0x3F800000⟩),
    ([0x130B1200, 0x00000001], .fabs ⟨.f64, false, .val 1⟩),
    ([0x134B1200, 0x00000001], .fneg ⟨.f64, false, .val 1⟩),
    ([0x14082201, 0x00000001, 0x00000002], .faddX2 ⟨.f16, false, .rz, .val 1, .val 2⟩),
    ([0x14482201, 0x00000001, 0x00000002], .fsubX2 ⟨.f16, false, .rz, .val 1, .val 2⟩),
    ([0x14882201, 0x00000001, 0x00000002], .fmulX2 ⟨.f16, false, .rz, .val 1, .val 2⟩),
    ([0x14C93203, 0x00000001, 0x00000002, 0x00000003], .fmaX2 ⟨.bf16, false, .dn, .val 1, .val 2, .val 3⟩),
    ([0x15092200, 0x00000001, 0x00000002], .fminX2 ⟨.bf16, false, .val 1, .val 2⟩),
    ([0x15492200, 0x00000001, 0x00000002], .fmaxX2 ⟨.bf16, false, .val 1, .val 2⟩),
    ([0x15881200, 0x00000001], .fabsX2 ⟨.f16, false, .val 1⟩),
    ([0x15C81200, 0x00000001], .fnegX2 ⟨.f16, false, .val 1⟩)].all (fun p => readsAs p.1 p.2) = true := by decide

theorem test_decode_convert : [
    ([0x20041301, 0x02800002, 0x00000003], .cvt ⟨.i32, false, .rz, .f32, true, false, .val 3⟩),
    ([0x20091B04, 0x00C00001, 0x00000009], .cvt ⟨.bf16, true, .sr, .i16, false, true, .val 9⟩),
    ([0x204D2305, 0x02000000, 0x00000001, 0x00000002], .cvtScaled ⟨.e5m2, false, .fmt, .f16, .val 1, .val 2⟩),
    ([0x20824200, 0x00000001, 0x00000002, 0x400000FF, 0x00000004], .pack ⟨.i8, false, [.val 1, .val 2, .imm 255, .val 4]⟩),
    ([0x20CC2200, 0x00000001, 0x40000003], .unpack ⟨.e4m3, false, .val 1, .imm 3⟩),
    ([0x21101200, 0x00000001], .bitcast ⟨.near, false, .val 1⟩),
    ([0x28042212, 0x00000004, 0x00000000], .cmp ⟨.i32, false, .lt, true, .val 4, .val 0⟩),
    ([0x280A2207, 0x00000004, 0x00000000], .cmp ⟨.f32, false, .uno, false, .val 4, .val 0⟩),
    ([0x284A2200, 0x00000001, 0x400001FF], .fclass ⟨.f32, false, .val 1, .imm 511⟩),
    ([0x28913200, 0x00000001, 0x00000002, 0x00000003], .sel ⟨.far, false, .val 1, .val 2, .val 3⟩),
    ([0x28C12200, 0x00000001, 0x40000001], .pand ⟨.i1, false, .val 1, .imm 1⟩),
    ([0x29012200, 0x00000001, 0x40000001], .por ⟨.i1, false, .val 1, .imm 1⟩),
    ([0x29412200, 0x00000001, 0x40000001], .pxor ⟨.i1, false, .val 1, .imm 1⟩),
    ([0x29811200, 0x00000001], .pnot ⟨.i1, false, .val 1⟩)].all (fun p => readsAs p.1 p.2) = true := by decide

theorem test_decode_memory : [
    ([0x30041200, 0x00000000], .ldNear ⟨.i32, false, .relaxed, 0, false, .val 0⟩),
    ([0x30051D21, 0x00000001, 0x00000000], .ldNear ⟨.i64, true, .acquire, 4, true, .val 0⟩),
    ([0x304A203A, 0x00000000, 0x00000001], .stNear ⟨.f32, false, .release, 7, .val 0, .val 1, none⟩),
    ([0x30443100, 0x00000001, 0x00000000, 0x00000001, 0x40000002], .stNear ⟨.i32, false, .relaxed, 0, .val 0, .val 1, some (.imm 2)⟩),
    ([0x308C121C, 0x00000005], .ldLocal ⟨.e4m3, false, .seqCst, 3, false, .val 5⟩),
    ([0x30D0282C, 0x00000005, 0x00000006], .stLocal ⟨.near, true, .seqCst, 5, .val 5, .val 6, none⟩),
    ([0x31032200, 0xF0000009, 0x00000001], .ldConst ⟨.i16, false, 9, .val 1⟩),
    ([0x40042000, 0x00000001, 0x00000002], .atomAdd ⟨.i32, false, .relaxed, 0, 0, .val 1, .val 2⟩),
    ([0x40452209, 0x00000001, 0x00000002], .atomMinS ⟨.i64, false, .acquire, 1, 1, .val 1, .val 2⟩),
    ([0x40842012, 0x00000001, 0x00000002], .atomMinU ⟨.i32, false, .release, 2, 0, .val 1, .val 2⟩),
    ([0x40C5221B, 0x00000001, 0x00000002], .atomMaxS ⟨.i64, false, .acqRel, 3, 1, .val 1, .val 2⟩),
    ([0x41042024, 0x00000001, 0x00000002], .atomMaxU ⟨.i32, false, .seqCst, 4, 0, .val 1, .val 2⟩),
    ([0x41452228, 0x00000001, 0x00000002], .atomAnd ⟨.i64, false, .relaxed, 5, 1, .val 1, .val 2⟩),
    ([0x41842031, 0x00000001, 0x00000002], .atomOr ⟨.i32, false, .acquire, 6, 0, .val 1, .val 2⟩),
    ([0x41C5223A, 0x00000001, 0x00000002], .atomXor ⟨.i64, false, .release, 7, 1, .val 1, .val 2⟩),
    ([0x42042003, 0x00000001, 0x00000002], .atomSwap ⟨.i32, false, .acqRel, 0, 0, .val 1, .val 2⟩),
    ([0x4251343B, 0x00000001, 0x00000002, 0x00000003], .atomCas ⟨.far, false, .acqRel, 7, 2, .val 1, .val 2, .val 3⟩),
    ([0x428A2A00, 0x00000001, 0x00000002], .atomFadd ⟨.f32, true, .relaxed, 0, 1, .val 1, .val 2⟩),
    ([0x44051211, 0x00000001], .feLd ⟨.i64, false, .acquire, 2, 1, .val 1⟩),
    ([0x444B2012, 0x00000001, 0x00000002], .feSt ⟨.f64, false, .release, 2, 0, .val 1, .val 2⟩),
    ([0x44901C13, 0x00000001], .feTryld ⟨.near, true, .acqRel, 2, 2, .val 1⟩),
    ([0x44D1223C, 0x00000001, 0x00000002], .feTryst ⟨.far, false, .seqCst, 7, 1, .val 1, .val 2⟩),
    ([0x45051419, 0x00000001], .fePeek ⟨.i64, false, .acquire, 3, 2, .val 1⟩)].all (fun p => readsAs p.1 p.2) = true := by decide

theorem test_decode_sync : [
    ([0x5000003C], .fence ⟨.seqCst, 7⟩),
    ([0x50441200, 0x40000003], .barArrive 1 3),
    ([0x50802000, 0x4000001F, 0x00000004], .barWait 31 (.val 4)),
    ([0x50C01000, 0x40000000], .barSync 0),
    ([0x51043300, 0x0000FF01, 0x40001388, 0x00000001, 0x00000002], .waitAny ⟨1, .imm 5000, [.fullWord (.val 1), .token (.val 2)]⟩),
    ([0x51408100, 0x00005432, 0x7FFFFFFF, 0x00000001, 0x40000003, 0x40000000, 0x00000002, 0x00000003, 0x40000002, 0x00000004], .waitAll ⟨0, .imm 0x3FFFFFFF, [.emptyWord (.val 1), .barrier 3 (.imm 0), .matrix (.val 2), .sig (.val 3) .lt (.val 4)]⟩),
    ([0x51804101, 0x0000FFF0, 0x00000000, 0x00000001, 0xC0000002, 0x00000003], .yield ⟨true, .val 0, [.token (.val 1)], ⟨2, [.val 3]⟩⟩)].all (fun p => readsAs p.1 p.2) = true := by decide

theorem test_decode_engine : [
    ([0x601263FB, 0x0000000A, 0x00000000, 0x40000040, 0x40000010, 0x40000100, 0x00000001, 0x40000400], .copyIn ⟨1, ⟨some 7, some 3⟩, ⟨.val 0, .imm 64, [(.imm 16, .imm 256)]⟩, ⟨.val 1, .imm 1024, []⟩⟩),
    ([0x6052610D, 0x00000011, 0x00000001, 0x40000400, 0x00000000, 0x40000040, 0x40000010, 0x40000100], .copyOut ⟨0, ⟨none, some 5⟩, ⟨.val 1, .imm 1024, []⟩, ⟨.val 0, .imm 64, [(.imm 16, .imm 256)]⟩⟩),
    ([0x609243C0, 0x00000009, 0x00000001, 0x40000400, 0x00000001, 0x40000400], .copyNear ⟨1, ⟨some 4, none⟩, ⟨.val 1, .imm 1024, []⟩, ⟨.val 1, .imm 1024, []⟩⟩),
    ([0x62124300, 0x00000E89, 0x00000001, 0x40000400, 0x00000001, 0x40000400], .reduceFar ⟨1, ⟨none, none⟩, 10, 3, ⟨.val 1, .imm 1024, []⟩, ⟨.val 1, .imm 1024, []⟩⟩),
    ([0x60D24300, 0x0000000C, 0x00000001, 0x00000002, 0x40000003, 0x00000004], .gather ⟨1, ⟨none, none⟩, 4, true, 0, 0, .val 1, .val 2, .imm 3, .val 4⟩),
    ([0x61124300, 0x00000301, 0x00000001, 0x00000002, 0x40000003, 0x00000004], .scatter ⟨1, ⟨none, none⟩, 1, false, 8, 1, .val 1, .val 2, .imm 3, .val 4⟩),
    ([0x61528300, 0x0000000C, 0x00000001, 0x00000002, 0x00000003, 0x00000004, 0x40000001, 0x40000002, 0x00000005, 0x40000008], .csrRows ⟨1, ⟨none, none⟩, false, false, true, true, 0, 0, .val 1, .val 2, .val 3, .val 4, .imm 1, .imm 2, .val 5, .imm 8⟩),
    ([0x61928300, 0x00000143, 0x00000001, 0x00000002, 0x00000003, 0x00000004, 0x40000001, 0x40000002, 0x00000005, 0x40000008], .bsrBlocks ⟨1, ⟨none, none⟩, true, true, false, false, 4, 2, .val 1, .val 2, .val 3, .val 4, .imm 1, .imm 2, .val 5, .imm 8⟩),
    ([0x61D26300, 0x00000001, 0x00000001, 0x40000005, 0x00000002, 0x40000006, 0x00000003, 0x40000002], .isect ⟨1, ⟨none, none⟩, true, false, .val 1, .imm 5, .val 2, .imm 6, .val 3, .imm 2⟩),
    ([0x62411A00, 0x00000003], .tokTest true (.val 3))].all (fun p => readsAs p.1 p.2) = true := by decide

theorem test_decode_group : [
    ([0x700A2403, 0x00000001, 0x40000002], .xlane ⟨.f32, 2, .fall, .val 1, .imm 2⟩),
    ([0x71011200, 0x00000001], .lanesAny (.val 1)),
    ([0x71411200, 0x00000001], .lanesAll (.val 1)),
    ([0x71851200, 0x00000001], .lanesMask (.val 1)),
    ([0x71D11200, 0x00000001], .rdfirst .far (.val 1)),
    ([0x720A1205, 0x00000001], .grpAdd ⟨.f32, .fmt, .val 1⟩),
    ([0x72441210, 0x00000001], .grpMin ⟨.i32, true, .val 1⟩),
    ([0x728B1200, 0x00000001], .grpMax ⟨.f64, false, .val 1⟩),
    ([0x72D01400, 0x00000001], .conflict ⟨.near, 2, .val 1⟩)].all (fun p => readsAs p.1 p.2) = true := by decide

theorem test_decode_control : [
    ([0x80003000, 0xC0000001, 0x40000000, 0x00000002], .br ⟨1, [.imm 0, .val 2]⟩),
    ([0x80404000, 0x00000005, 0xC0000001, 0x00000004, 0xC0000002], .brc ⟨.val 5, ⟨1, [.val 4]⟩, ⟨2, []⟩⟩),
    ([0x80804000, 0x00000005, 0xC0000003, 0xC0000002, 0x00000001], .brU ⟨.val 5, ⟨3, []⟩, ⟨2, [.val 1]⟩⟩),
    ([0x80C07000, 0x00000000, 0xC0000009, 0x40000003, 0xC0000001, 0x00000001, 0x40000007, 0xC0000002], .switch ⟨.val 0, ⟨9, []⟩, [(3, ⟨1, [.val 1]⟩), (7, ⟨2, []⟩)]⟩),
    ([0x810A3200, 0xD0000004, 0x00000001, 0x00000002], .call ⟨.f32, 1, 4, [.val 1, .val 2]⟩),
    ([0x81402000, 0x00000001, 0x00000002], .ret [.val 1, .val 2]),
    ([0x81800000], .exit),
    ([0x82042200, 0xD0000002, 0x00000001], .spawn ⟨1, 2, [.val 1]⟩),
    ([0x82443A00, 0xD0000002, 0x00000001, 0x00000003], .taskpost ⟨true, 1, 2, .val 1, [.val 3]⟩),
    ([0x82800000], .depTrigger),
    ([0x90045200, 0xE0000001, 0x00000000, 0x00000001, 0x40000040, 0x00000002], .herd ⟨.i32, 1, .rn, false, 1, .val 0, .val 1, .imm 64, [.val 2]⟩),
    ([0x904A5405, 0xE0000001, 0x00000000, 0x00000001, 0x40000040, 0x00000002], .herdAdd ⟨.f32, 2, .fmt, false, 1, .val 0, .val 1, .imm 64, [.val 2]⟩),
    ([0x90855210, 0xE0000001, 0x00000000, 0x00000001, 0x40000040, 0x00000002], .herdMin ⟨.i64, 1, .rn, true, 1, .val 0, .val 1, .imm 64, [.val 2]⟩),
    ([0x90CB5400, 0xE0000001, 0x00000000, 0x00000001, 0x40000040, 0x00000002], .herdMax ⟨.f64, 2, .rn, false, 1, .val 0, .val 1, .imm 64, [.val 2]⟩),
    ([0x91045200, 0xE0000001, 0x00000000, 0x00000001, 0x40000040, 0x00000002], .herdOr ⟨.i32, 1, .rn, false, 1, .val 0, .val 1, .imm 64, [.val 2]⟩)].all (fun p => readsAs p.1 p.2) = true := by decide

theorem test_decode_tiles : [
    ([0x98201200, 0x5C00038F], .tileZero ⟨.f32, 7, 15⟩),
    ([0x98602200, 0x5C00038F, 0x00000001], .tileFill ⟨⟨.f32, 7, 15⟩, .val 1⟩),
    ([0x98A03201, 0x5C00038F, 0x00000001, 0x40000100], .tileLoad ⟨⟨.f32, 7, 15⟩, true, .val 1, .imm 256⟩),
    ([0x98E04000, 0x5C00038F, 0x00000001, 0x40000100, 0x00000002], .tileStore ⟨⟨.f32, 7, 15⟩, false, .val 1, .imm 256, .val 2⟩),
    ([0x99202211, 0x400000BF, 0x00000001], .tileCvt ⟨⟨.i8, 1, 63⟩, .rz, false, true, .val 1⟩),
    ([0x994A3200, 0x00000001, 0x00000002, 0x00000003], .tileExtract ⟨.f32, .val 1, .val 2, .val 3⟩),
    ([0x99A05200, 0x5C00038F, 0x00000001, 0x00000002, 0x00000003, 0x40000004], .tileInsert ⟨⟨.f32, 7, 15⟩, .val 1, .val 2, .val 3, .imm 4⟩),
    ([0x9C206201, 0x5C001FBF, 0x00000008, 0x0000000B, 0x00000010, 0x0000000E, 0x00000004], .mmaF8s ⟨⟨.f32, 63, 63⟩, 1, .val 8, .val 11, .val 16, .val 14, .val 4⟩),
    ([0x9C604200, 0x5C001FBF, 0x00000001, 0x00000002, 0x00000003], .mmaBf16 ⟨⟨.f32, 63, 63⟩, .val 1, .val 2, .val 3⟩),
    ([0x9CA04200, 0x5C001FBF, 0x00000001, 0x00000002, 0x00000003], .mmaF16 ⟨⟨.f32, 63, 63⟩, .val 1, .val 2, .val 3⟩),
    ([0x9CE04202, 0x48001FBF, 0x00000001, 0x00000002, 0x00000003], .mmaI8 ⟨⟨.i32, 63, 63⟩, false, true, .val 1, .val 2, .val 3⟩),
    ([0x9D205217, 0x48001FBF, 0x00000001, 0x00000002, 0x00000003, 0x00000004], .mmaSp ⟨⟨.i32, 63, 63⟩, 3, 1, 1, .val 1, .val 2, .val 3, .val 4, none⟩),
    ([0x9D207228, 0x5C001FBF, 0x00000001, 0x00000002, 0x00000003, 0x00000004, 0x00000005, 0x00000006], .mmaSp ⟨⟨.f32, 63, 63⟩, 0, 2, 2, .val 1, .val 2, .val 3, .val 4, some (.val 5, .val 6)⟩),
    ([0x9F930200], .mfence),
    ([0x9FC01000, 0x00000012], .mwait (.val 18))].all (fun p => readsAs p.1 p.2) = true := by decide

theorem test_decode_state : [
    ([0xA8001005, 0x00000001], .setfmt ⟨5, .val 1⟩),
    ([0xA8440A00], .getfmt true),
    ([0xA8801000, 0x00000001], .rngSeed (.val 1)),
    ([0xA8D00A08], .id ⟨.near, true, 8⟩),
    ([0xA9050200], .clock false),
    ([0xA9401000, 0x4000FFFF], .trap 0xFFFF),
    ([0xA9801000, 0x4000FFFF], .brk 0xFFFF),
    ([0xA9C01000, 0x4000FFFF], .mark 0xFFFF)].all (fun p => readsAs p.1 p.2) = true := by decide

theorem test_decode_va : [
    (0x0A42830381, .iadd ⟨false, none, 2, 1, 5, 0x6, 0x7, 0x1⟩),
    (0x133F608402, .imul ⟨false, none, 3, 0, 126, 0xC1, 0x8, 0x2⟩),
    (0x18428303FF, .imad ⟨false, none, 0, 1, 5, 0x6, 0x7, 0x7F⟩),
    (0x2242830383, .idiv ⟨false, none, 2, 1, 5, 0x6, 0x7, 0x3⟩),
    (0x2942830383, .isat ⟨false, none, 1, 1, 5, 0x6, 0x7, 0x3⟩),
    (0x324283038F, .icc ⟨false, none, 2, 1, 5, 0x6, 0x7, 0xF⟩),
    (0x3A428303EA, .icci ⟨false, none, 2, 1, 5, 0x6, 0x7, 0x6A⟩),
    (0x4242830383, .iminmax ⟨false, none, 2, 1, 5, 0x6, 0x7, 0x3⟩),
    (0x4A42830003, .ilogic ⟨false, none, 2, 1, 5, 0x6, 0x0, 0x3⟩),
    (0x5242830384, .ishift ⟨false, none, 2, 1, 5, 0x6, 0x7, 0x4⟩),
    (0x5A42830005, .iunary ⟨false, none, 2, 1, 5, 0x6, 0x0, 0x5⟩),
    (0x6242830381, .ibfe ⟨false, none, 2, 1, 5, 0x6, 0x7, 0x1⟩),
    (0x6A42830380, .ibfc ⟨false, none, 2, 1, 5, 0x6, 0x7, 0x0⟩),
    (0x7242830389, .ibfi ⟨false, none, 2, 1, 5, 0x6, 0x7, 0x9⟩),
    (0x7B42830009, .iext ⟨false, none, 3, 1, 5, 0x6, 0x0, 0x9⟩),
    (0x8242830383, .nadr ⟨false, none, 2, 1, 5, 0x6, 0x7, 0x3⟩),
    (0x8B42830384, .tbfNidx ⟨false, none, 3, 1, 5, 0x6, 0x7, 0x4⟩),
    (0x924383038D, .icmp ⟨false, none, 2, 1, 7, 0x6, 0x7, 0xD⟩),
    (0x9A42830387, .tbfSel ⟨false, none, 2, 1, 5, 0x6, 0x7, 0x7⟩),
    (0xA242C00000, .mov ⟨false, none, 2, 1, 5, 0x80, 0x0, 0x0⟩),
    (0xAE4283038D, .tbfFadd ⟨false, none, 6, 1, 5, 0x6, 0x7, 0xD⟩),
    (0xB042830383, .tbfFmul ⟨false, none, 0, 1, 5, 0x6, 0x7, 0x3⟩),
    (0xBE42830383, .fmarn ⟨false, none, 6, 1, 5, 0x6, 0x7, 0x3⟩),
    (0xC142830383, .fmarz ⟨false, none, 1, 1, 5, 0x6, 0x7, 0x3⟩),
    (0xCC42830383, .fmaup ⟨false, none, 4, 1, 5, 0x6, 0x7, 0x3⟩),
    (0xD542830383, .fmadn ⟨false, none, 5, 1, 5, 0x6, 0x7, 0x3⟩),
    (0xDF42830383, .fmaf ⟨false, none, 7, 1, 5, 0x6, 0x7, 0x3⟩),
    (0xE64283000A, .fspec ⟨false, none, 6, 1, 5, 0x6, 0x0, 0xA⟩),
    (0xEE42830380, .tbfFdiv ⟨false, none, 6, 1, 5, 0x6, 0x7, 0x0⟩),
    (0xF641830385, .fmisc ⟨false, none, 6, 1, 3, 0x6, 0x7, 0x5⟩),
    (0xFA41830387, .fcmp ⟨false, none, 2, 1, 3, 0x6, 0x7, 0x7⟩)].all (fun p => slotReads ((fun w => decodeVa false none w) (BitVec.ofNat 40 p.1)) p.2) = true := by decide

theorem test_decode_us : [
    (0x0608418001, .usInteger 1 2 ⟨2, 4, 6, 0x1⟩),
    (0x3F08400009, .usInteger 15 3 ⟨2, 4, 0, 0x9⟩),
    (0x4008418001, .unadr ⟨2, 4, 6, 0x1⟩),
    (0x4108418008, .unidx ⟨2, 4, 6, 0x8⟩),
    (0x420841803D, .ucmp ⟨2, 4, 6, 0x3D⟩),
    (0x4308418049, .usel ⟨2, 4, 6, 0x49⟩),
    (0x4408400001, .umov ⟨2, 4, 0, 0x1⟩),
    (0x450FFFFFFF, .umovi 3 0x3FFFFFF),
    (0x46101FFFFF, .uldk 4 true 0xFFFFF),
    (0x4708000008, .uid ⟨2, 0, 0, 0x8⟩),
    (0x4808000000, .uclock ⟨2, 0, 0, 0x0⟩),
    (0x4908000000, .ugetfmt ⟨2, 0, 0, 0x0⟩),
    (0x4A0040000F, .usetfmt ⟨0, 4, 0, 0xF⟩),
    (0x4B00400000, .urseed ⟨0, 4, 0, 0x0⟩),
    (0x4C000010AC, .ucvset ⟨0, 0, 0, 0x10AC⟩),
    (0x4D3001DF8F, .tshape 3 7 63 15),
    (0x4E0420C002, .plogic ⟨1, 2, 3, 0x2⟩),
    (0x4F1C400001, .kfroms ⟨7, 4, 0, 0x1⟩),
    (0x5008700000, .stok ⟨2, 7, 0, 0x0⟩),
    (0x51084021E0, .uld ⟨2, 4, 0, 4, .acquire, 7, false, 0⟩),
    (0x5208400270, .ust ⟨2, 4, 0, 0, .release, 3, true, 0⟩),
    (0x5308419B89, .uatom ⟨2, 4, 6, 3, .acqRel, 4, false, 9⟩),
    (0x5408419C42, .ufe ⟨2, 4, 6, 3, .seqCst, 2, false, 2⟩),
    (0x5514003FFF, .uspill 5 true 0x1FFF),
    (0x5614000007, .ufill 5 false 7),
    (0x5708400000, .utokt ⟨2, 4, 0, 0x0⟩),
    (0x580800001F, .ubar ⟨2, 0, 0, 0x1F⟩),
    (0x5900000000, .utrig),
    (0x5A0000FFFF, .umark 0xFFFF),
    (0x5B24000000, .tbfMfence 9)].all (fun p => slotReads (decodeUs (BitVec.ofNat 40 p.1)) p.2) = true := by decide

theorem test_decode_vm : [
    (0x0184C033E0, .vld ⟨none, 2, 9, 0x80, 3, .acquire, 7, true⟩),
    (0x0284C035E0, .vst ⟨none, 2, 9, 0x80, 3, .release, 7, true⟩),
    (0x0344E0AABC, .vldk ⟨none, 1, 9, 0xC1, 2, 0xABC⟩),
    (0x19448A1976, .vatom ⟨9, 1, 9, 10, 12, true, .acqRel, 5, true⟩),
    (0x2444857140, .vfe ⟨none, 4, 1, 9, 10, true, 6, .acquire, 2⟩),
    (0x2844FFFE00, .vspill ⟨1, 9, 0x1FFF, true⟩),
    (0x2944800C00, .vfill ⟨1, 9, 3, false⟩),
    (0x2AC4A2E000, .xmv ⟨3, 9, 1, 11, true⟩),
    (0x2BC4FD0000, .vtos ⟨3, 9, 62, true⟩),
    (0x30448BC2DE, .vxlane ⟨none, 1, 9, 11, 0xC2, true, 5, .fall, true⟩),
    (0x3144D80000, .vlanes ⟨1, 9, 5, 2⟩),
    (0x32448B3100, .vgrp ⟨1, 9, 11, 0, 6, false, 2⟩),
    (0x33448BEC00, .vconf ⟨1, 9, 11, true, 6, 3⟩),
    (0x3871068000, .tld ⟨7, 4, 6, true⟩),
    (0x3971068000, .tst ⟨7, 4, 6, true⟩),
    (0x3A70000000, .tzero 7),
    (0x3B71000000, .tfill 7 4),
    (0x3C7848A160, .text ⟨7, 2, 9, 10, 11⟩),
    (0x3D7848A160, .tins ⟨7, 2, 9, 10, 11⟩),
    (0x3E76000000, .tcopy 7 6),
    (0x401204561E, .mmaf8s ⟨1, 2, 0, 4, 5, 6, 7, 2⟩),
    (0x4112045000, .mmabf16 ⟨1, 2, 0, 4, 5, 0, 0, 0⟩),
    (0x4212045000, .mmaf16 ⟨1, 2, 0, 4, 5, 0, 0, 0⟩),
    (0x4312045003, .mmai8 ⟨1, 2, 0, 4, 5, 0, 0, 3⟩),
    (0x5212345001, .mmasp 3 2 ⟨1, 2, 3, 4, 5, 0, 0, 1⟩)].all (fun p => slotReads ((fun w => decodeVm none w) (BitVec.ofNat 40 p.1)) p.2) = true := by decide

theorem test_decode_cv : [
    (0x06122C, .cvtOp ⟨2, 9, 11⟩),
    (0x0A122C, .cvts ⟨2, 9, 11⟩),
    (0x0DD800, .tcvt 7 6)].all (fun p => slotReads (decodeCv (BitVec.ofNat 24 p.1)) p.2) = true := by decide

theorem test_decode_en : [
    (0x07EFFB, .enCopyIn ⟨62, 15, 0xFB⟩),
    (0x0BEFFB, .enCopyOut ⟨62, 15, 0xFB⟩),
    (0x0FEFFB, .enCopyNear ⟨62, 15, 0xFB⟩),
    (0x13EFFB, .enGather ⟨62, 15, 0xFB⟩),
    (0x17EFFB, .enScatter ⟨62, 15, 0xFB⟩),
    (0x1BEFFB, .enCsrRows ⟨62, 15, 0xFB⟩),
    (0x1FEFFB, .enBsrBlocks ⟨62, 15, 0xFB⟩),
    (0x23EFFB, .enIsect ⟨62, 15, 0xFB⟩),
    (0x27EFFB, .enReduceFar ⟨62, 15, 0xFB⟩)].all (fun p => slotReads (decodeEn (BitVec.ofNat 24 p.1)) p.2) = true := by decide

theorem test_decode_br : [
    (0x047FFF, .jmp 0x7FFF),
    (0x0A8003, .ubr 5 3),
    (0x0C0009, .dset 9),
    (0x128003, .dbr 5 3),
    (0x140009, .join 9),
    (0x180009, .joinp 9),
    (0x1C0000, .tbfCall),
    (0x200000, .tbfRet),
    (0x261000, .loop 33),
    (0x280009, .lend 9),
    (0x2C0000, .tbfExit),
    (0x31FFFF, .tbfTrap true 0xFFFF),
    (0x300003, .tbfTrap false 3),
    (0x37E000, .tbfYield 62),
    (0x3BE000, .waitc 62),
    (0x3C2000, .tbfSpawn 2),
    (0x402000, .tpost 2),
    (0x442000, .tbfHerd 2),
    (0x480000, .hjoin)].all (fun p => slotReads (decodeBr (BitVec.ofNat 24 p.1)) p.2) = true := by decide

set_option exponentiation.threshold 2100 in
theorem test_decode_packet : [
    (0xB00000000010000000000000007000000000000010000000000000002000000000000000000000000000000000000000000000000000000000000000000000000000000000000000000000000000000000000000000000000000000000000000000000000000000000000000000000000000000000000000000000000000000000000000000000000000000000000000000000000000000000000000000000000000000000000000000000000000000000000000000000000000000000000000000000000000000000000000000000000000000000000000000000000000000000000000000000000000000000000000000000000000000000000000000, .nop ⟨⟨1, 2⟩, 3, 0, 2, 3, 1, 7, 0x100, 0x200⟩),
    (0x50B00000000010000000000000007000000000000010000000000000002000000000000000000000000000000000000000000000000000000000000000000000000000000000000000000000000000000000000000000000000000000000000000000000000000000000000000000000000000000000000000000000000000000000000000000000000000000000000000000000000000000000000000000000000000000000000000000000000000000000000000000000000000000000000000000000000000000000000000000000000000000000000000000000000000000000000000000000000000000000000000000000000000000000000000000, .signal ⟨⟨1, 2⟩, 3, 0, 2, 3, 1, 7, 0x100, 0x200⟩),
    (0x13B000000000100000000000000070000000000000100000000000000020000000000000000000000000000000000000000000000000000000000000000000000000000000000000000000000000000000000000000000000000000000000000000000000000000000000000000000000000000000000000000000000000000000000000000000000000000000000000000000000000000000000000000000000000000000000000000000000000000000000000000000000000000000006000000000000000500000000000000020000000000000018000000000000004D0000000000000009000700010000001000000000000000080000000000000010, .launch ⟨⟨1, 2⟩, 3, 3, 2, 3, 1, 7, 0x100, 0x200⟩ ⟨0, 6, 5, 2, 0x18, 77, 9, true, true, true, 1, 16, 8, 0x10⟩),
    (0x22B000000000100000000000000070000000000000100000000000000020000000000000000000000000000000000000000000000000000000000000000000000000000000000000000000000000000000000000000000000000000000000000000000000000000000000000000000000000000000000000000000000000000000000000000000000000000000000000000000000000000000000000000000000000000000000000000000000000000000000000000040000000000000006000000000000000500000000000000020000000000000018000000000000004D0000000000000009000700010000001000000000000000080000000000000010, .launchChained ⟨⟨1, 2⟩, 3, 2, 2, 3, 1, 7, 0x100, 0x200⟩ ⟨4, 6, 5, 2, 0x18, 77, 9, true, true, true, 1, 16, 8, 0x10⟩),
    (0x30B00000000010000000000000007000000000000010000000000000002000000000000000000000000000000000000000000000000000000000000000000000000000000000000000000000000000000000000000000000000000000000000000000000000000000000000000000000000000000000000000000000000000000000000000000000000000000000000000000000000000000000000000000000000000000000000000000000000000000000000000000000000000000000000000000000000000000000000000000000000000000000000000000000000000000000000000000000000000000000C00000000000000080000000000000004, .copy ⟨⟨1, 2⟩, 3, 0, 2, 3, 1, 7, 0x100, 0x200⟩ 4 8 12),
    (0x41B00000000010000000000000007000000000000010000000000000002000000000000000000000000000000000000000000000000000000000000000000000000000000000000000000000000000000000000000000000000000000000000000000000000000000000000000000000000000000000000000000000000000000000000000000000000000000000000000000000000000000000000000000000000000000000000000000000000000000000000000000000000000000000000000000000000000000000000000000000000000000000000000000000000000000000000000000000000000000001000000000000000000000000000000008, .barrierAnd ⟨⟨1, 2⟩, 3, 1, 2, 3, 1, 7, 0x100, 0x200⟩ [8, 16]),
    (0x60B00000000010000000000000007000000000000010000000000000002000000000000000000000000000000000000000000000000000000000000000000000000000000000000000000000000000000000000000000000000000000000000000000000000000000000000000000000000000000000000000000000000000000000000000000000000000000000000000000000000000000000000000000000000000000000000000000000000000000000000000000000000000000000000000000000000000000000000000000000000000000000000000000000000000000000000000000000000640000000300000000000000050000000000000008, .waitSignal ⟨⟨1, 2⟩, 3, 0, 2, 3, 1, 7, 0x100, 0x200⟩ 8 5 .ge 100),
    (0x70B0000000001000000000000000700000000000001000000000000000200000000000000000000000000000000000000000000000000000000000000000000000000000000000000000000000000000000000000000000000000000000000000000000000000000000000000000000000000000000000000000000000000000000000000000000000000000000000000000000000000000000000000000000000000000000000000000000000000000000000000000000000000000000000000000000000000000000000000BEEF020101010101010101010101010101010101010101010101010101010101010101010101010101010101010101010101, .measure ⟨⟨1, 2⟩, 3, 0, 2, 3, 1, 7, 0x100, 0x200⟩ (List.replicate 47 1 ++ [2]) 0xBEEF),
    (0x80B000000000100000000000000070000000000000100000000000000020000000000000000000000000000000000000000000000000000000000000000000000000000000000000000000000000000000000000000000000000000000000000000000000000000000000000000000000000000000000000000000000000000000000000000000000000000000000000000000000000000000000000000000000000000000000000000000000000000000000000000000000000000000000000000000000000000000000000000000000000000000DB000000000000000400900000000000000000000000000000000000000000000000000000000000000, .receipt ⟨⟨1, 2⟩, 3, 0, 2, 3, 1, 7, 0x100, 0x200⟩ (List.replicate 31 0 ++ [9]) 0x40 3504),
    (0x90B00000000010000000000000007000000000000010000000000000002000000000000000000000000000000000000000000000000000000000000000000000000000000000000000000000000000000000000000000000000000000000000000000000000000000000000000000000000000000000000000000000000000000000000000000000000000000000000000000000000000000000000000000000000000000000000000000000000000000000000000000000000000000000000000000000000000000000000000000000000000000000000000000000000000000000000000000000000000000000000000000000000000000000000000048, .timestamp ⟨⟨1, 2⟩, 3, 0, 2, 3, 1, 7, 0x100, 0x200⟩ 0x48),
    (0xA3B00000000010000000000000007000000000000010000000000000002000000000000000000000000000000000000000000000000000000000000000000000000000000000000000000000000000000000000000000000000000000000000000000000000000000000000000000000000000000000000000000000000000000000000000000000000000000000000000000000000000000000000000000000000000000000000000000000000000000000000000000000000000000000000000000000000000000000000000000000000000000000000000000000000000000000000000000000000000000000000000000000000000000000000000001, .haltContext ⟨⟨1, 2⟩, 3, 3, 2, 3, 1, 7, 0x100, 0x200⟩),
    (0xA3B00000000010000000000000007000000000000010000000000000002000000000000000000000000000000000000000000000000000000000000000000000000000000000000000000000000000000000000000000000000000000000000000000000000000000000000000000000000000000000000000000000000000000000000000000000000000000000000000000000000000000000000000000000000000000000000000000000000000000000000000000000000000000000000000000000000000000000000000000000000000000000000000000000000000000000000000000000000000000000000000000000000000000000000000002, .resumeContext ⟨⟨1, 2⟩, 3, 3, 2, 3, 1, 7, 0x100, 0x200⟩),
    (0xA3B00000000010000000000000007000000000000010000000000000002000000000000000000000000000000000000000000000000000000000000000000000000000000000000000000000000000000000000000000000000000000000000000000000000000000000000000000000000000000000000000000000000000000000000000000000000000000000000000000000000000000000000000000000000000000000000000000000000000000000000000000000000000000000000000000000000000000000000000000000000000000000000000000000000000000000000000000000000000000000000000000000000000000000000000003, .disableQueue ⟨⟨1, 2⟩, 3, 3, 2, 3, 1, 7, 0x100, 0x200⟩),
    (0xA3B00000000010000000000000007000000000000010000000000000002000000000000000000000000000000000000000000000000000000000000000000000000000000000000000000000000000000000000000000000000000000000000000000000000000000000000000000000000000000000000000000000000000000000000000000000000000000000000000000000000000000000000000000000000000000000000000000000000000000000000000000000000000000000000000000000000000000000000000000000000000000000000000000000000000000000000000000000000000000000000000000000000000000000000000F04, .setPriority ⟨⟨1, 2⟩, 3, 3, 2, 3, 1, 7, 0x100, 0x200⟩ 15)].all (fun p => packetReads p.1 p.2) = true := by decide

/-! ## Well-formedness: each check refuses, and a neighbour passes -/

/-- R140, R148, R152: the type of the header word. -/
theorem smoke_type : (Instr.add ⟨.f32, false, .val 0, .val 1⟩).wf = false ∧ (Instr.add ⟨.i32, false, .val 0, .val 1⟩).wf = true ∧
    (Instr.fadd ⟨.e4m3, false, .rn, .val 0, .val 1⟩).wf = false ∧ (Instr.faddX2 ⟨.f32, false, .rn, .val 0, .val 1⟩).wf = false := by decide
/-- R153: the pair of a conversion. -/
theorem smoke_type2 : (Instr.cvt ⟨.f32, false, .rn, .f32, false, false, .val 0⟩).wf = false ∧
    (Instr.cvt ⟨.f32, false, .rn, .f16, false, false, .val 0⟩).wf = true := by decide
/-- R93, R168, R195: codes of the modifier fields. -/
theorem smoke_modifier : (Instr.fadd ⟨.f32, false, .sr, .val 0, .val 1⟩).wf = false ∧
    (Instr.fadd ⟨.f32, false, .rz, .val 0, .val 1⟩).wf = true ∧
    (Instr.fence ⟨.relaxed, 0⟩).wf = false ∧ (Instr.fence ⟨.seqCst, 0⟩).wf = true ∧
    (Instr.ldNear ⟨.i32, false, .release, 0, false, .val 0⟩).wf = false ∧
    (Instr.stNear ⟨.i32, false, .acquire, 0, .val 0, .val 1, none⟩).wf = false := by decide
/-- R190: at most 5 levels beyond level 0 (MOD2). -/
theorem smoke_levels :
    let p (n : Nat) : Pattern := ⟨.val 0, .imm 4, List.replicate n (.imm 1, .imm 0)⟩
    (Instr.copyIn ⟨1, ⟨none, none⟩, p 6, p 0⟩).wf = false ∧ (Instr.copyIn ⟨1, ⟨none, none⟩, p 5, p 0⟩).wf = true := by decide
/-- R172, R175, R206: result counts, and the type of a call. -/
theorem smoke_count : (Instr.atomAdd ⟨.i32, false, .relaxed, 0, 2, .val 0, .val 1⟩).wf = false ∧
    (Instr.atomAdd ⟨.i32, false, .relaxed, 0, 1, .val 0, .val 1⟩).wf = true ∧
    (Instr.feLd ⟨.i64, false, .relaxed, 0, 0, .val 0⟩).wf = false ∧
    (Instr.call ⟨.tile, 1, 0, []⟩).wf = false ∧ (Instr.call ⟨.void, 0, 0, []⟩).wf = true ∧
    (Instr.ret [.val 0, .val 1, .val 2]).wf = false := by decide
/-- R117, R239: a tile of more than 16,384 bytes, and the element type of a product. -/
theorem smoke_tiles : (Instr.tileZero ⟨.i32, 127, 127⟩).wf = false ∧ (Instr.tileZero ⟨.i8, 127, 127⟩).wf = true ∧
    (Instr.mmaBf16 ⟨⟨.f16, 0, 0⟩, .val 0, .val 1, .val 2⟩).wf = false ∧
    (Instr.mmaBf16 ⟨⟨.f32, 0, 0⟩, .val 0, .val 1, .val 2⟩).wf = true := by decide
/-- R129: immediates of a type, of none, in a range; a value where an immediate stands and the reverse. -/
theorem smoke_immediate : (Instr.add ⟨.i8, false, .val 0, .imm 256⟩).wf = false ∧ (Instr.add ⟨.i8, false, .val 0, .imm 255⟩).wf = true ∧
    (Instr.nadd ⟨.near, false, .imm 0, .imm 1⟩).wf = false ∧ (Instr.const ⟨.i32, false, .val 0⟩).wf = false ∧
    (Instr.trap 0x10000).wf = false ∧ (Instr.trap 0xFFFF).wf = true ∧
    (Instr.xlane ⟨.i32, 1, .get, .imm 1, .imm 0⟩).wf = false := by decide
/-- R216: a chunk of zero; R126: more than 255 operand words; R202: a case that stands twice; R228: a position of
`id`. -/
theorem smoke_forms :
    let t (n : Nat) : Target := ⟨1, List.replicate n (.imm 0)⟩
    (Instr.herd ⟨.i32, 0, .rn, false, 0, .imm 0, .imm 9, .imm 0, []⟩).wf = false ∧
    (Instr.herd ⟨.i32, 0, .rn, false, 0, .imm 0, .imm 9, .imm 1, []⟩).wf = true ∧
    (Instr.br (t 255)).wf = false ∧ (Instr.br (t 254)).wf = true ∧
    (Instr.switch ⟨.val 0, t 0, [(1, t 0), (1, t 0)]⟩).wf = false ∧ (Instr.switch ⟨.val 0, t 0, [(1, t 0), (2, t 0)]⟩).wf = true ∧
    (Instr.id ⟨.i32, true, 0⟩).wf = false ∧ (Instr.id ⟨.i32, false, 0⟩).wf = true ∧ (Instr.id ⟨.i32, false, 10⟩).wf = false := by decide
/-- R311: a slot field of an integer function with a floating type. -/
theorem smoke_native : (Instr.iadd ⟨false, none, 6, 0, 0, 0, 0, 0⟩).wf = false ∧ (Instr.iadd ⟨false, none, 2, 0, 0, 0, 0, 0⟩).wf = true ∧
    (Instr.tbfFadd ⟨true, none, 7, 0, 0, 0, 0, 0⟩).wf = false ∧ (Instr.tbfFadd ⟨false, none, 7, 0, 0, 0, 0, 0⟩).wf = true := by decide

/-! ## Worked examples of the spec -/

/-- The first thread alone, with two values. -/
def ex2 (a b : BitVec 64) : State :=
  { vs with cur := { vs.cur with active := 1, frames := [Frame.enter 0 [[a], [b]] 0xFFFF] } }
/-- Result `k` of an instruction in thread 0 of such a state. -/
def exGives (a b : BitVec 64) (k : Nat) (i : Instr) (x : BitVec 64) : Bool :=
  match exec i (ex2 a b) with
  | .next t => getLane (valLanes t.cur (2 + k)) 0 == x
  | _ => false

/-- 06_tvf_arithmetic.md, "Results of integer instructions on edge operands". -/
theorem test_integer_edges :
    let g := exGives 0x80000000 0xFFFFFFFF
    let o : Op2 := ⟨.i32, false, .val 0, .val 1⟩
    let z : Op2 := ⟨.i32, false, .imm 7, .imm 0⟩
    let sh (n : BitVec 30) : Op2 := ⟨.i32, false, .val 0, .imm n⟩
    (g 0 (.divS o) 0x80000000 && g 0 (.remS o) 0 && g 0 (.divU o) 0 && g 0 (.remU o) 0x80000000 && g 0 (.divS z) 0xFFFFFFFF
      && g 0 (.remS z) 7 && g 0 (.mulHiS o) 0 && g 0 (.mulHiU o) 0x7FFFFFFF && g 0 (.addSatS o) 0x80000000
      && g 0 (.subSatS o) 0x80000001 && g 0 (.addSatU o) 0xFFFFFFFF && g 0 (.subSatU o) 0 && g 0 (.addCc o) 0x7FFFFFFF
      && g 1 (.addCc o) 1 && g 0 (.abs ⟨.i32, false, .val 0⟩) 0x80000000 && g 0 (.shrS (sh 40)) 0xFFFFFFFF
      && g 0 (.shl (sh 32)) 0 && g 0 (.rotl (sh 33)) 1 && g 0 (.clz ⟨.i32, false, .val 0⟩) 0
      && g 0 (.popc ⟨.i32, false, .val 1⟩) 32 && g 0 (.bfeS ⟨.i32, false, .val 1, .imm 28, .imm 8⟩) 0xF) = true := by decide

/-- 04_number_formats.md, below R97's table: f32 460.0, 464.0 and 470.0 to f8e4m3, the last with F8_SAT clear and set. -/
theorem test_fp8 : fpConv fmtF32 fmtE4m3 ⟨.rn, false⟩ 0x43E60000 = 0x7E ∧ fpConv fmtF32 fmtE4m3 ⟨.rn, false⟩ 0x43E80000 = 0x7E ∧
    fpConv fmtF32 fmtE4m3 ⟨.rn, false⟩ 0x43EB0000 = 0x7F ∧ fpConv fmtF32 fmtE4m3 ⟨.rn, true⟩ 0x43EB0000 = 0x7E := by decide

/-- 04_number_formats.md, "Generator steps after seeding". -/
theorem test_generator : (genRun 2 ⟨0, 0, 0, 0xB5AD4ECE, 0⟩).1 = [0x53E4D234, 0xF21C4240] := by decide

/-- 07_tvf_memory_sync.md and 10_tvf_tiles_matrix.md, "Encodings of the example". -/
theorem test_examples :
    readsAs [0x51042300, 0x0000FFF1, 0x40001388, 0x00000000] (.waitAny ⟨1, .imm 5000, [.fullWord (.val 0)]⟩) &&
    readsAs [0x44851C11, 0x00000000] (.feTryld ⟨.i64, true, .acquire, 2, 2, .val 0⟩) &&
    readsAs [0x30452800, 0x00000001, 0x7FFFFFFF] (.stNear ⟨.i64, true, .relaxed, 0, .val 1, .imm 0x3FFFFFFF, none⟩) &&
    readsAs [0x9C206201, 0x5C001FBF, 8, 0xB, 0x10, 0xE, 4]
      (.mmaF8s ⟨⟨.f32, 63, 63⟩, 1, .val 8, .val 0xB, .val 0x10, .val 0xE, .val 4⟩) &&
    readsAs [0x9F930200] .mfence && readsAs [0x9FC01000, 0x12] (.mwait (.val 0x12)) = true := by decide

/-- 15_tbf_operations.md, "Fields of the bundle". -/
theorem test_bundle :
    slotReads (decodeVa false (some 4) 0xBE0180C005) (.fmarn ⟨false, some 4, 6, 0, 3, 1, 0x80, 5⟩) = true ∧
    slotReads (decodeUs 0x4518000064) (.umovi 6 100) = true := by decide

end Sys2Proof.Tests
end

section
/-! PROOF. Package numbers and ports, accesses from outside the package, and the writes to the registers of BAR0
(00_scope.md R8; 03 R82; 19 R385; 21 R399; 22 R418; 23 R424; 24 R432, R433; 18 R375, R435). -/

namespace Sys2Proof.Machine

open Sys2Proof Sys2Proof.Safety

/-! ## One position of a list, and fields of a register -/

theorem getElem?_zipIdx_update {α : Type} (f : α → α) (i j : Nat) (xs : List α) :
    (xs.zipIdx.map fun p => if p.2 = i then f p.1 else p.1)[j]? = xs[j]?.map fun x => if j = i then f x else x := by
  simp [List.getElem?_map, List.getElem?_zipIdx, Function.comp_def]

/-- The bits of a field in place (R5), as the register keeps them. -/
theorem regBits_eq (x hi lo : Nat) : regBits x hi lo = BitVec.ofNat 64 (x / 2 ^ lo % 2 ^ (hi + 1 - lo) * 2 ^ lo) := by
  rw [regBits, bitsOf, Nat.shiftRight_eq_div_pow]

/-! ## The bytes that a write leaves -/

theorem natBytes_length (n x : Nat) : (natBytes n x).length = n := by
  induction n generalizing x with
  | zero => rfl
  | succ n ih => rw [natBytes, List.length_cons, ih]

theorem natBytes_getD (n x i : Nat) (h : i < n) : (natBytes n x).getD i 0 = BitVec.ofNat 8 (x / 256 ^ i) := by
  induction n generalizing x i with
  | zero => omega
  | succ n ih =>
    cases i with
    | zero => simp [natBytes]
    | succ i => rw [natBytes, List.getD_cons_succ, ih _ _ (by omega), Nat.div_div_eq_div_mul, Nat.pow_succ']

theorem bytesAt_eq_bytesKeyed (n k x : Nat) : bytesAt n k x = bytesKeyed k (natBytes n x) := by
  induction n generalizing k x with
  | zero => rfl
  | succ n ih => rw [bytesAt, natBytes, bytesKeyed, ih]

theorem bytesKeyed_keys (k : Nat) (bs : List Byte) : (bytesKeyed k bs).map (·.1) = keysFrom bs.length k := by
  induction bs generalizing k with
  | nil => rfl
  | cons b bs ih => rw [bytesKeyed, List.map_cons, ih, List.length_cons, keysFrom]

theorem keysFrom_all_iff (p : Nat → Bool) (n k : Nat) :
    (keysFrom n k).all p = true ↔ ∀ i, i < n → p (k + i) = true := by
  induction n generalizing k with
  | zero => simp [keysFrom]
  | succ n ih =>
    rw [keysFrom, List.all_cons, Bool.and_eq_true, ih]
    constructor
    · rintro ⟨h0, hs⟩ (_ | i) hi
      · exact h0
      · rw [show k + (i + 1) = k + 1 + i by omega]
        exact hs i (by omega)
    · intro h
      refine ⟨h 0 (by omega), fun i hi => ?_⟩
      rw [show k + 1 + i = k + (i + 1) by omega]
      exact h (i + 1) (by omega)

theorem bytesKeyed_all_iff (p : Nat → Bool) (k : Nat) (bs : List Byte) :
    ((bytesKeyed k bs).all fun b => p b.1) = true ↔ ∀ i, i < bs.length → p (k + i) = true := by
  rw [← keysFrom_all_iff, ← bytesKeyed_keys, List.all_map]
  rfl

/-- Bytes put in from a key on are read back there, and every other byte keeps its value. -/
theorem Mem.byte_setBytes_bytesKeyed (m : Mem) (h : m.wf = true) (k : Nat) (bs : List Byte) (j : Nat) :
    (m.setBytes (bytesKeyed k bs)).byte j = if k ≤ j ∧ j < k + bs.length then bs.getD (j - k) 0 else m.byte j := by
  induction bs generalizing m k with
  | nil => rw [if_neg (by simp)]; rfl
  | cons b bs ih =>
    rw [bytesKeyed, Mem.setBytes, ih _ (Mem.wf_setByte m h k b), Mem.byte_setByte m h, List.length_cons]
    by_cases hj : j = k
    · subst hj
      have hbefore : ¬ (j + 1 ≤ j ∧ j < j + 1 + bs.length) := by omega
      have hfirst : j ≤ j ∧ j < j + (bs.length + 1) := by omega
      rw [if_neg hbefore, if_pos rfl, if_pos hfirst, Nat.sub_self, List.getD_cons_zero]
    · by_cases hin : k + 1 ≤ j ∧ j < k + 1 + bs.length
      · rw [if_pos hin, if_pos (by omega), show j - k = j - (k + 1) + 1 by omega, List.getD_cons_succ]
      · rw [if_neg hin, if_neg hj, if_neg (by omega)]

@[simp] theorem Mem.setBytes_full (bs : List (Nat × Byte)) (m : Mem) : (m.setBytes bs).full = m.full := by
  induction bs generalizing m with
  | nil => rfl
  | cons b bs ih => exact ih _

/-- Releases that take effect change nothing but the history. -/
theorem Mem.markCarries_frame (cs : List Carry) (now : Nat) (m : Mem) :
    cs.foldl (Mem.markCarry · now) m = { m with hist := (cs.foldl (Mem.markCarry · now) m).hist } := by
  induction cs generalizing m with
  | nil => rfl
  | cons c cs ih => rw [List.foldl_cons, ih]; rfl

/-- Where no line is under a key, a write in the clear seals nothing. -/
theorem Mem.sealLines_clear (m : Mem) (h : m.seals = []) (bs : List (Nat × Byte)) : m.sealLines 0 bs = (bs, m) := by
  have hs : ∀ l, m.sealOf l = 0 := fun l => by simp [Mem.sealOf, h, assocGet]
  have hf : ∀ ls : List Nat, (ls.filter fun l => sealable l && m.sealOf l != 0) = [] := by simp [hs]
  simp [Mem.sealLines, hf]

/-- A write that meets no damaged word lands whole (R405). -/
theorem Damage.guard_bytes (d : Damage) (h : d.words = []) (bs : List (Nat × Byte)) : (d.guard bs).2 = bs := by
  simp [Damage.guard, h]

theorem Mem.setBytes_hist (hist : List Store) (bs : List (Nat × Byte)) (m : Mem) :
    ({ m with hist } : Mem).setBytes bs = { m.setBytes bs with hist } := by
  induction bs generalizing m with
  | nil => rfl
  | cons b bs ih => exact ih (m.setByte b.1 b.2)

/-- A store to undamaged memory that names no full/empty bit puts its bytes in. -/
theorem Mem.perform_cells (m : Mem) (h : m.damage.words = []) (id grp : Nat) (org : Obs) (rs : List Reach) (now : Nat)
    (bs : List (Nat × Byte)) (cs : List Carry) :
    (m.perform id grp org rs now bs [] cs).bytes = (m.setBytes bs).bytes ∧
      (m.perform id grp org rs now bs [] cs).full = m.full := by
  unfold Mem.perform
  rw [Mem.markCarries_frame cs now m]
  dsimp only
  rw [Damage.guard_bytes _ h, Mem.setBytes_hist]
  exact ⟨rfl, Mem.setBytes_full ..⟩

/-- A write in the clear to undamaged memory puts its bytes in, and every other byte keeps its value. -/
theorem putWith_lands (s : State) (h : Undamaged s) (o : Obs) (r : Reach) (cs : List Carry) (k : Nat) (bs : List Byte) :
    (putWith s o r cs 0 (bytesKeyed k bs)).mem.full = s.mem.full ∧
      ∀ b, (putWith s o r cs 0 (bytesKeyed k bs)).mem.byte b =
        if k ≤ b ∧ b < k + bs.length then bs.getD (b - k) 0 else s.mem.byte b := by
  obtain ⟨hwords, -, hseals, hwf⟩ := h
  have hmem : (putWith s o r cs 0 (bytesKeyed k bs)).mem =
      s.mem.perform s.nextId 0 o [.one o, r] s.steps (bytesKeyed k bs) [] cs := by
    simp only [putWith, Mem.sealLines_clear _ hseals]
  obtain ⟨hbytes, hfull⟩ := Mem.perform_cells s.mem hwords s.nextId 0 o [.one o, r] s.steps (bytesKeyed k bs) cs
  rw [hmem]
  refine ⟨hfull, fun b => ?_⟩
  rw [← Mem.byte_setBytes_bytesKeyed s.mem hwf k bs b, Mem.byte, hbytes, Mem.byte]

/-! ## Accesses from outside (R82, R432) -/

/-- A write from outside into undamaged memory lands, and uses up a name and a free choice. -/
theorem outsideWrite_lands (s : State) (h : Undamaged s) (who : Obs) (k : Nat) (bs : List Byte) :
    ∃ t, outsideWrite s who (bytesKeyed k bs) = t ∧
      t = { s with mem := t.mem, nextId := t.nextId, free := s.free + 1 } ∧ t.mem.full = s.mem.full ∧
      ∀ b, t.mem.byte b = if k ≤ b ∧ b < k + bs.length then bs.getD (b - k) 0 else s.mem.byte b :=
  ⟨_, rfl, rfl, putWith_lands { s with free := s.free + 1 } h who _ _ k bs⟩

/-- A write from outside lands if its agent reaches every byte of it. -/
theorem exec_remote_write {s : State} (hb : s.boot = .running) (who : Obs) (k : Nat) (bs : List Byte) :
    exec (.remoteAccess who (.write k bs)) s =
      if ∀ i, i < bs.length → outsideReaches s who (k + i) = true then .next (outsideWrite s who (bytesKeyed k bs))
      else .next s := by
  show execRemoteAccess who (.write k bs) s = _
  simp only [execRemoteAccess, hb, bytesKeyed_all_iff (outsideReaches s who)]
  rfl

/-- A combine that its agent reaches is a write of the combined value. -/
theorem exec_remote_combine {s : State} (hb : s.boot = .running) (who : Obs) (k : Nat) (code : BitVec 4) (e : BitVec 2)
    (v : BitVec 64) :
    exec (.remoteAccess who (.combine k code e v)) s =
      if ∀ i, i < elemBytes e → outsideReaches s who (k + i) = true then
        .next (outsideWrite s who (bytesKeyed k (natBytes (elemBytes e)
          (combineVal code e (leNat (s.mem.openBytes 0 s.mem.byte (elemBytes e) k)) v.toNat))))
      else .next s := by
  show execRemoteAccess who (.combine k code e v) s = _
  simp only [execRemoteAccess, hb, keysFrom_all_iff (outsideReaches s who), bytesAt_eq_bytesKeyed]
  rfl

theorem exec_remote_read {s : State} (hb : s.boot = .running) (who : Obs) (k len : Nat) :
    exec (.remoteAccess who (.read k len)) s = .next s := by
  show execRemoteAccess who (.read k len) s = _
  simp [execRemoteAccess, hb]

/-! ## The error log (R417) leaves the links alone -/

theorem feWrite_links (s : State) (bs : List (Nat × Byte)) : (feWrite s bs).links = s.links := rfl

theorem feWriteNat_links (s : State) (k n x : Nat) : (feWriteNat s k n x).links = s.links := rfl

theorem ringAt_links (s : State) (key log size : Nat) (lost : Bool) (bytes : Bool → List Byte) :
    (ringAt s key log size lost bytes).2.links = s.links := by
  simp only [ringAt, apply_ite Prod.snd, apply_ite State.links, feWriteNat_links, feWrite_links, ite_self]

theorem logError_links (s : State) (r : ErrRec) : (logError s r).links = s.links := by
  delta logError
  extract_lets hide bytes log ring
  have hring : ring.links = s.links := by
    unfold ring
    split
    · split
      rename_i lost t ht
      exact (congrArg (·.2.links) ht).symm.trans (ringAt_links ..)
    · rfl
  exact hring

@[simp] theorem logConflict_links (s : State) : (logConflict s).links = s.links := logError_links ..

theorem logConflicts_links (ns : List Nat) (s : State) : (ns.foldl (fun s _ => logConflict s) s).links = s.links := by
  induction ns generalizing s with
  | nil => rfl
  | cons n ns ih => rw [List.foldl_cons, ih, logConflict_links]

/-! ## Ports (R432, R433) -/

/-- What a port operation does: it changes one port, and no other. -/
theorem modPort_ports (s : State) (i : Nat) (f : Port → Port) :
    (∀ x, s.links.ports[i]? = some x → (modPort s i f).links.ports[i]? = some (f x)) ∧
      ∀ j, j ≠ i → (modPort s i f).links.ports[j]? = s.links.ports[j]? := by
  have h (j : Nat) : (modPort s i f).links.ports[j]? = s.links.ports[j]?.map fun x => if j = i then f x else x :=
    getElem?_zipIdx_update f i j s.links.ports
  exact ⟨fun x hx => by simp [h, hx], fun j hj => by simp [h, hj]⟩

/-- Whether a port leads to a package that claims this package's number (R432). -/
def inConflict (l : Links) (p : Port) : Bool := l.written && p.up && !p.stopped && p.peer == l.ident.toNat % 64

theorem stopConflicts_eq (s : State) :
    stopConflicts s = (List.range (s.links.ports.filter (inConflict s.links)).length).foldl (fun s _ => logConflict s)
      { s with links := { s.links with
        ports := modBy (inConflict s.links) (fun p => { p with stopped := true }) s.links.ports } } := rfl

/-- Before its number is written, the package is in conflict with nobody. -/
theorem stopConflicts_unwritten (s : State) (h : s.links.written = false) : stopConflicts s = s := by
  have hc (p : Port) : inConflict s.links p = false := by simp only [inConflict, h, Bool.false_and]
  have hnone : s.links.ports.filter (inConflict s.links) = [] :=
    List.filter_eq_nil_iff.2 fun p _ => by rw [hc]; exact Bool.false_ne_true
  have hkeep : modBy (inConflict s.links) (fun p => { p with stopped := true }) s.links.ports = s.links.ports := by
    simp only [modBy, hc, Bool.false_eq_true, if_false, List.map_id']
  rw [stopConflicts_eq, hnone, hkeep]
  rfl

theorem setIdent_links (s : State) (v : BitVec 64) :
    (setIdent s v).links = { s.links with
      ident := v &&& 0x3F, written := true,
      ports := modBy (fun p => p.up && !p.stopped && p.peer == v.toNat % 64) (fun p => { p with stopped := true })
        s.links.ports } := by
  have hv : (v &&& 0x3F).toNat % 64 = v.toNat % 64 := by
    rw [BitVec.toNat_and, show (0x3F : BitVec 64).toNat = 2 ^ 6 - 1 from rfl, Nat.and_two_pow_sub_one_eq_mod]
    omega
  have hc : inConflict { s.links with ident := v &&& 0x3F, written := true } =
      fun p => p.up && !p.stopped && p.peer == v.toNat % 64 := by
    funext p
    simp only [inConflict, hv, Bool.true_and]
  rw [setIdent, stopConflicts_eq, logConflicts_links]
  simp only [hc]

theorem exec_tlIdent {s : State} (hb : s.boot = .running) (v : BitVec 64) :
    exec (.tlIdent v) s = .next (setIdent s v) := by
  show execTlIdent v s = _
  simp [execTlIdent, hb]

theorem exec_flitCrcRetry (s : State) (i : Nat) : exec (.flitCrcRetry i) s =
    .next (modPort s i fun x => if x.up then { x with retries := x.retries + 1 } else x) := rfl

theorem exec_portDown (s : State) (i : Nat) : exec (.portDown i) s =
    .next (modPort s i fun x => if x.up then { x with up := false, downAt := some s.tick } else x) := rfl

/-- A port that stands down for 1 ms is not waited for any more. -/
def expirePort (tick : Nat) (x : Port) : Port :=
  match x.downAt with
  | some n => if x.up = false ∧ n + 100000 ≤ tick then { x with downAt := none } else x
  | none => x

theorem exec_portDownTimeout (s : State) (i : Nat) :
    exec (.portDownTimeout i) s = .next (modPort s i (expirePort s.tick)) := by
  refine congrArg (fun f => Host.Outcome.next (modPort s i f)) (funext fun x => ?_)
  unfold expirePort
  cases x.downAt with
  | none => rfl
  | some n => simp

/-- A port that comes up joins the package that it was joined to, or after its count has run out one that the
environment chooses. -/
def raisePort (n : Nat) (x : Port) : Port :=
  if x.up then x else { x with up := true, downAt := none, peer := if x.downAt.isSome then x.peer else n }

theorem exec_portUp_unwritten {s : State} (hb : s.boot = .running) (hw : s.links.written = false) (i : Nat) :
    exec (.portUp i) s = .next (modPort { s with free := s.free + 1 } i (raisePort (Config.choice s.free % 64))) := by
  show execPortUp i s = _
  simp only [execPortUp, hb, freeNo]
  exact congrArg Host.Outcome.next (stopConflicts_unwritten _ hw)

/-! ## Registers of BAR0 (R8) -/

theorem exec_registerWrite_wide {s : State} (hb : s.boot = .running) (a : Nat) (ha : a % 8 = 0) (v : BitVec 64) :
    exec (.registerWrite a true v) s = .next (writeReg s a v.toNat) := by
  show execRegisterWrite a true v s = _
  simp [execRegisterWrite, hb, ha]

theorem exec_registerWrite_misaligned (s : State) (a : Nat) (ha : a % 8 ≠ 0) (v : BitVec 64) :
    exec (.registerWrite a true v) s = .next s := by
  show execRegisterWrite a true v s = _
  simp [execRegisterWrite, ha]

/-- A 4-byte write of a half that is reserved throughout does nothing. -/
theorem exec_registerWrite_reserved (s : State) (a : Nat) (ha : a % 8 = 0) (hl : lowOnly a = true) (v : BitVec 64) :
    exec (.registerWrite (a + 4) false v) s = .next s := by
  show execRegisterWrite (a + 4) false v s = _
  have h8 : (a + 4) / 8 * 8 = a := by omega
  have hm : (a + 4) % 8 = 4 := by omega
  simp [execRegisterWrite, h8, hm, hl]

/-- A 4-byte write puts its half beside the other half as it reads. -/
theorem exec_registerWrite_half {s : State} (hb : s.boot = .running) (a : Nat) (ha : a % 8 = 0)
    (hl : lowOnly a = false) (half : Bool) (v : BitVec 64) :
    exec (.registerWrite (a + 4 * half.toNat) false v) s = .next (writeReg s a
      (if half then v.toNat % 2 ^ 32 * 2 ^ 32 + readReg s a % 2 ^ 32
       else readReg s a / 2 ^ 32 * 2 ^ 32 + v.toNat % 2 ^ 32)) := by
  show execRegisterWrite (a + 4 * half.toNat) false v s = _
  cases half with
  | false =>
    have h8 : a / 8 * 8 = a := by omega
    have h4 : a % 4 = 0 := by omega
    simp [execRegisterWrite, hb, hl, ha, h8, h4]
  | true =>
    have h8 : (a + 4) / 8 * 8 = a := by omega
    have h4 : (a + 4) % 4 = 0 := by omega
    have hm : (a + 4) % 8 = 4 := by omega
    simp [execRegisterWrite, hb, hl, h8, h4, hm]

/-! ### The fault registers of a die (R385) -/

theorem writeReg_die (s : State) (d off v : Nat) (hd : d < 8) (ho : off < 0x1000) :
    writeReg s (0x200000 + 0x1000 * d + off) v = writeDie s d off v := by
  have hq : (0x200000 + 0x1000 * d + off - 0x200000) / 0x1000 = d := by omega
  have hr : (0x200000 + 0x1000 * d + off) % 0x1000 = off := by omega
  rw [writeReg, if_pos (by omega), hq, hr]

/-- What a change of a die does: it changes one die, and no other. -/
theorem modDie_dies (s : State) (d : Nat) (f : Die → Die) {x : Die} (hx : s.dies[d]? = some x) :
    (modDie s d f).dies[d]? = some (f x) ∧ ∀ j, j ≠ d → (modDie s d f).dies[j]? = s.dies[j]? := by
  have h (j : Nat) : (modDie s d f).dies[j]? = s.dies[j]?.map fun y => if j = d then f y else y :=
    getElem?_zipIdx_update f d j s.dies
  exact ⟨by simp [h, hx], fun j hj => by simp [h, hj]⟩

/-- A write to a register of a die that the die alone holds. -/
theorem registerWrite_die {s : State} (hb : s.boot = .running) {d off : Nat} (hd : d < 8) (ho : off < 0x1000)
    (ha : off % 8 = 0) {x f : Die} (hx : s.dies[d]? = some x) (v : BitVec 64) (g : Die → Die)
    (hw : writeDie s d off v.toNat = modDie s d g) (hf : g x = f) :
    ∃ t, exec (.registerWrite (0x200000 + 0x1000 * d + off) true v) s = .next t ∧ t = { s with dies := t.dies } ∧
      t.dies[d]? = some f ∧ ∀ j, j ≠ d → t.dies[j]? = s.dies[j]? := by
  refine ⟨modDie s d g, ?_, rfl, hf ▸ modDie_dies s d g hx⟩
  rw [exec_registerWrite_wide hb _ (by omega), writeReg_die s d off _ hd ho, hw]

theorem registerWrite_flush {s : State} (hb : s.boot = .running) {d : Nat} (hd : d < 8)
    (hfree : (dieAt s d).busy = false) {v : BitVec 64} (hv : v.getLsbD 0 = true) :
    exec (.registerWrite (0x200000 + 0x1000 * d + 0x28) true v) s = exec (.flush d) s := by
  have hgo : bitOf v.toNat 0 = true := hv
  rw [exec_registerWrite_wide hb _ (by omega), writeReg_die s d _ _ hd (by omega)]
  show _ = execFlush d s
  rw [execFlush, if_neg (by simp [hb, hfree]; omega)]
  simp [writeDie, hgo, hfree]

theorem registerWrite_killCtx {s : State} (hb : s.boot = .running) {d : Nat} (hd : d < 8) (v : BitVec 64) :
    exec (.registerWrite (0x200000 + 0x1000 * d + 0x38) true v) s = exec (.killCtx d (v.truncate 32)) s := by
  rw [exec_registerWrite_wide hb _ (by omega), writeReg_die s d _ _ hd (by omega)]
  show _ = execKillCtx d (v.truncate 32) s
  simp [execKillCtx, hb, writeDie]

/-! ### CTX_OP (R399) -/

theorem registerWrite_ctxOp {s : State} (hb : s.boot = .running) (v : BitVec 64) :
    exec (.registerWrite 0x300000 true v) s = .next (writeCtxOp s v.toNat) := by
  rw [exec_registerWrite_wide hb _ (by decide)]
  simp [writeReg]

theorem writeCtxOp_busy {s : State} (h : ctlBusy s = true) (v : Nat) : writeCtxOp s v = s := by
  rw [writeCtxOp, if_pos h]

/-- The fields of a request whose reserved bits are zero. -/
theorem ctxOp_fields {v op : Nat} (hz : v / 2 ^ 37 = 0) (hop : v / 2 ^ 32 % 16 = op) :
    bitsOf v 63 37 = 0 ∧ bitsOf v 35 32 = op := by
  rw [bitsOf, bitsOf, Nat.shiftRight_eq_div_pow, Nat.shiftRight_eq_div_pow, hz]
  exact ⟨Nat.zero_mod _, hop⟩

section CtxOpFree

variable {s : State} (hb : s.boot = .running) (hfree : ctlBusy s = false) {v : BitVec 64} (hz : v.toNat / 2 ^ 37 = 0)
include hb hfree hz

theorem registerWrite_suspend (hop : v.toNat / 2 ^ 32 % 16 = 1) :
    exec (.registerWrite 0x300000 true v) s = exec (.suspend (v.toNat % 2 ^ 32) (v.getLsbD 36)) s := by
  obtain ⟨hres, hcode⟩ := ctxOp_fields hz hop
  rw [registerWrite_ctxOp hb]
  show _ = execSuspend _ _ s
  simp only [execSuspend, writeCtxOp, hb, hfree, hres, hcode]
  rfl

theorem registerWrite_unload (hop : v.toNat / 2 ^ 32 % 16 = 2) :
    exec (.registerWrite 0x300000 true v) s = exec (.unload (v.toNat % 2 ^ 32) (v.getLsbD 36)) s := by
  obtain ⟨hres, hcode⟩ := ctxOp_fields hz hop
  rw [registerWrite_ctxOp hb]
  show _ = execUnload _ _ s
  simp only [execUnload, writeCtxOp, hb, hfree, hres, hcode]
  rfl

theorem registerWrite_resume (hop : v.toNat / 2 ^ 32 % 16 = 3) (hs : s.fw.suspended = []) :
    exec (.registerWrite 0x300000 true v) s = exec (.resume (v.toNat % 2 ^ 32)) s := by
  obtain ⟨hres, hcode⟩ := ctxOp_fields hz hop
  rw [registerWrite_ctxOp hb]
  show _ = execResume _ s
  simp [execResume, ctlAbout, writeCtxOp, hb, hfree, hres, hcode, hs]

end CtxOpFree

/-! ### Error log and injection (R418) -/

theorem registerWrite_errBase {s : State} (hb : s.boot = .running) (v : BitVec 64) :
    exec (.registerWrite 0x310000 true v) s = .next { s with rel := { s.rel with errBase := v } } := by
  rw [exec_registerWrite_wide hb _ (by decide)]
  simp [writeReg, writeRel]

theorem registerWrite_errCtl {s : State} (hb : s.boot = .running) (v : BitVec 64) :
    exec (.registerWrite 0x310008 true v) s = .next { s with rel := { s.rel with errCtl := regBits v.toNat 4 0 } } := by
  rw [exec_registerWrite_wide hb _ (by decide)]
  simp [writeReg, writeRel]

theorem registerWrite_injAddr {s : State} (hb : s.boot = .running) (v : BitVec 64) :
    exec (.registerWrite 0x310010 true v) s = .next { s with rel := { s.rel with
      injAddr := regBits v.toNat 63 47 ||| regBits v.toNat 39 0,
      injReserved := decide (v.toNat / 2 ^ 40 % 2 ^ 7 ≠ 0) } } := by
  have hr : (bitsOf v.toNat 46 40 != 0) = decide (v.toNat / 2 ^ 40 % 2 ^ 7 ≠ 0) :=
    Bool.eq_iff_iff.2 (by simp [bitsOf, Nat.shiftRight_eq_div_pow])
  rw [exec_registerWrite_wide hb _ (by decide), ← hr]
  simp [writeReg, writeRel]

/-- A write without GO sets CHECK_XOR alone. -/
theorem registerWrite_injXor {s : State} (hb : s.boot = .running) {v : BitVec 64} (hv : v.getLsbD 16 = false) :
    exec (.registerWrite 0x310018 true v) s =
      .next { s with rel := { s.rel with injXor := v.truncate 8 } } := by
  have hgo : bitOf v.toNat 16 = false := hv
  rw [exec_registerWrite_wide hb _ (by decide)]
  simp [writeReg, writeRel, hgo]

/-! ### DUMP_CTL (R424) and TL_IDENT (R432) -/

theorem registerWrite_noDump {s : State} (hb : s.boot = .running) {v : BitVec 64} (hv : v.getLsbD 0 = false) :
    exec (.registerWrite 0x320000 true v) s = .next s := by
  have hgo : bitOf v.toNat 0 = false := hv
  rw [exec_registerWrite_wide hb _ (by decide)]
  simp [writeReg, hgo]

theorem registerWrite_dumpGo {s : State} (hb : s.boot = .running) {v : BitVec 64} (hv : v.getLsbD 0 = true) :
    exec (.registerWrite 0x320000 true v) s = exec .dumpGo s := by
  have hgo : bitOf v.toNat 0 = true := hv
  rw [exec_registerWrite_wide hb _ (by decide)]
  show _ = execDumpGo s
  simp [writeReg, hgo, execDumpGo, hb]

theorem registerWrite_tlIdent {s : State} (hb : s.boot = .running) (v : BitVec 64) :
    exec (.registerWrite 0x330000 true v) s = exec (.tlIdent v) s := by
  rw [exec_registerWrite_wide hb _ (by decide), exec_tlIdent hb]
  simp [writeReg]

/-! ### The front end's registers (R375, R435) -/

/-- The registers of the translation-event rings stand two to a ring. -/
theorem writeReg_xev (s : State) (a v : Nat) (ha : 0x340000 ≤ a ∧ a < 0x340A80) :
    writeReg s a v = { s with front := if a % 16 = 0 then
        { s.front with xevBase := s.front.xevBase.set ((a - 0x340000) / 16) (BitVec.ofNat 64 v) }
      else { s.front with xevCtl := s.front.xevCtl.set ((a - 0x340000) / 16) (regBits v 5 0) } } := by
  rw [writeReg, if_neg (by omega), if_neg (by omega), if_neg (by omega), if_neg (by omega), if_neg (by omega),
    if_pos ha]

theorem writeReg_xevBase (s : State) (i v : Nat) (hi : i < 168) :
    writeReg s (0x340000 + 16 * i) v =
      { s with front := { s.front with xevBase := s.front.xevBase.set i (BitVec.ofNat 64 v) } } := by
  rw [writeReg_xev s _ v (by omega), if_pos (by omega), show (0x340000 + 16 * i - 0x340000) / 16 = i by omega]

theorem writeReg_xevCtl (s : State) (i v : Nat) (hi : i < 168) :
    writeReg s (0x340008 + 16 * i) v =
      { s with front := { s.front with xevCtl := s.front.xevCtl.set i (regBits v 5 0) } } := by
  rw [writeReg_xev s _ v (by omega), if_neg (by omega), show (0x340008 + 16 * i - 0x340000) / 16 = i by omega]

theorem writeReg_qtBase (s : State) (i v : Nat) (hi : i < 17) :
    writeReg s (0x350000 + 8 * i) v =
      { s with front := { s.front with qtBase := s.front.qtBase.set i (regBits v 51 12 ||| regBits v 0 0) } } := by
  have hq : (0x350000 + 8 * i - 0x350000) / 8 = i := by omega
  simp only [writeReg, hq]
  rw [if_neg (by omega), if_neg (by omega), if_neg (by omega), if_neg (by omega), if_neg (by omega), if_neg (by omega),
    if_pos (by omega)]

theorem readReg_qtBase (s : State) (i : Nat) (hi : i < 17) : readReg s (0x350000 + 8 * i) = qtReg s i := by
  have hq : (0x350000 + 8 * i - 0x350000) / 8 = i := by omega
  simp only [readReg, hq]
  rw [if_neg (by omega), if_neg (by omega), if_neg (by omega), if_neg (by omega), if_neg (by omega), if_neg (by omega),
    if_neg (by omega), if_pos (by omega)]

theorem lowOnly_qtBase (i : Nat) (hi : i < 17) : lowOnly (0x350000 + 8 * i) = false := by
  have hd : ¬ (0x200000 ≤ 0x350000 + 8 * i ∧ 0x350000 + 8 * i < 0x208000) := by omega
  have hx : ¬ (0x340000 ≤ 0x350000 + 8 * i ∧ 0x350000 + 8 * i < 0x340A80) := by omega
  have hl : 0x350000 + 8 * i ∉ [0x310008, 0x310018, 0x320000, 0x330000] := by simp; omega
  rw [lowOnly, if_neg hd, List.contains_eq_mem]
  simp only [hl, hx, decide_false, Bool.false_and, Bool.or_self]

/-- A 4-byte write of a half of QT_BASE is the 8-byte write that leaves the other half as it reads. -/
theorem registerWrite_qtBase_half {s : State} (hb : s.boot = .running) {i : Nat} (hi : i < 17) (half : Bool)
    (v : BitVec 64) :
    exec (.registerWrite (0x350000 + 8 * i + 4 * half.toNat) false v) s =
      exec (.registerWrite (0x350000 + 8 * i) true
        (if half then BitVec.ofNat 64 (v.toNat % 2 ^ 32 * 2 ^ 32 + qtReg s i % 2 ^ 32)
         else BitVec.ofNat 64 (qtReg s i / 2 ^ 32 * 2 ^ 32 + v.toNat % 2 ^ 32))) s := by
  have hq : qtReg s i < 2 ^ 64 := BitVec.isLt _
  rw [exec_registerWrite_half hb _ (by omega) (lowOnly_qtBase i hi), exec_registerWrite_wide hb _ (by omega),
    readReg_qtBase s i hi]
  cases half with
  | false => rw [if_neg Bool.false_ne_true, if_neg Bool.false_ne_true, BitVec.toNat_ofNat,
      Nat.mod_eq_of_lt (b := 2 ^ 64) (by omega)]
  | true => rw [if_pos rfl, if_pos rfl, BitVec.toNat_ofNat, Nat.mod_eq_of_lt (b := 2 ^ 64) (by omega)]

/-! ## Package numbers, ports, outside accesses and register writes -/

/-- A package number claimed by a neighbour stops the links that lead there (R432). -/
theorem tlIdent_stops {s : State} (hb : s.boot = .running) (v : BitVec 64) :
    ∃ t, exec (.tlIdent v) s = .next t ∧ t.links.ident = v &&& 0x3F ∧ t.links.written = true ∧
      ∀ (i : Nat) (x : Port), s.links.ports[i]? = some x → t.links.ports[i]? = some
        (if x.up && !x.stopped && x.peer == v.toNat % 64 then { x with stopped := true } else x) := by
  refine ⟨_, exec_tlIdent hb v, ?_⟩
  rw [setIdent_links]
  refine ⟨rfl, rfl, fun i x hx => ?_⟩
  simp only [modBy, List.getElem?_map, hx, Option.map_some]

/-- A combine from outside puts the combined value where it reaches (R82). -/
theorem remoteCombine_lands {s : State} (hb : s.boot = .running) (hu : Undamaged s) {who : Obs} {k : Nat}
    (code : BitVec 4) {e : BitVec 2} (v : BitVec 64)
    (hout : ∀ i, i < elemBytes e → outsideReaches s who (k + i) = true) :
    ∃ t, exec (.remoteAccess who (.combine k code e v)) s = .next t ∧
      t = { s with mem := t.mem, nextId := t.nextId, free := s.free + 1 } ∧ t.mem.full = s.mem.full ∧
      ∀ b, t.mem.byte b = if k ≤ b ∧ b < k + elemBytes e then
        BitVec.ofNat 8 (combineVal code e (wordOf s.mem (elemBytes e) k) v.toNat / 256 ^ (b - k))
        else s.mem.byte b := by
  obtain ⟨-, -, hseals, -⟩ := id hu
  obtain ⟨t, ht, honly, hfull, hbyte⟩ := outsideWrite_lands s hu who k
    (natBytes (elemBytes e) (combineVal code e (wordOf s.mem (elemBytes e) k) v.toNat))
  refine ⟨t, ?_, honly, hfull, fun b => ?_⟩
  · rw [exec_remote_combine hb, if_pos hout, Mem.openBytes_clear s.mem hseals]
    exact congrArg _ ht
  · rw [hbyte b, natBytes_length]
    split
    · exact natBytes_getD _ _ _ (by omega)
    · rfl

/-- Settles O55: each event and each register write by its own rule above. -/
theorem linksAndRegisters : Obligations.LinksAndRegisters := by
  unfold Obligations.LinksAndRegisters
  intro s hb port only
  refine ⟨fun v => tlIdent_stops hb v,
    fun i => ⟨_, exec_flitCrcRetry s i, rfl, modPort_ports s i _⟩,
    fun i => ⟨_, exec_portDown s i, rfl, modPort_ports s i _⟩,
    fun i => ⟨_, exec_portDownTimeout s i, rfl, modPort_ports s i _⟩,
    fun i hw => ⟨_, _, exec_portUp_unwritten hb hw i, rfl, Nat.mod_lt _ (by decide), modPort_ports _ i _⟩,
    fun who k len => exec_remote_read hb who k len,
    fun who k bs => ⟨fun hout => ?_, fun hout hu => ?_⟩,
    fun who k code e v => ⟨fun hout => ?_, fun hout hu => remoteCombine_lands hb hu code v hout⟩,
    fun v => ?_⟩
  · rw [exec_remote_write hb, if_neg hout]
  · rw [exec_remote_write hb, if_pos hout]
    obtain ⟨t, ht, hrest⟩ := outsideWrite_lands s hu who k bs
    exact ⟨t, congrArg _ ht, hrest⟩
  · rw [exec_remote_combine hb, if_neg hout]
  intro wr bits
  have hbits (hi lo : Nat) : regBits v.toNat hi lo = bits hi lo := regBits_eq _ hi lo
  refine ⟨fun a ha => exec_registerWrite_misaligned s a ha v, ?_,
    fun d hd hfree hv t ht => (registerWrite_flush hb hd hfree hv).trans ht,
    fun d t hd ht => (registerWrite_killCtx hb hd v).trans ht, ?_,
    fun hbusy => ?_, registerWrite_errBase hb v, ?_, ?_, ?_,
    fun hv => registerWrite_injXor hb hv, fun hv => registerWrite_noDump hb hv,
    fun t hv ht => (registerWrite_dumpGo hb hv).trans ht,
    fun t ht => (registerWrite_tlIdent hb v).trans ht,
    fun i hi => ⟨?_, ?_⟩, fun i hi => ?_, fun i hi half => registerWrite_qtBase_half hb hi half v⟩
  · rintro d x hd hx off f (⟨rfl, rfl⟩ | ⟨rfl, rfl⟩ | ⟨rfl, rfl⟩ | ⟨rfl, rfl⟩)
    · exact registerWrite_die hb hd (by decide) (by decide) hx v
        (fun y => { y with fbBase := regBits v.toNat 51 12 }) rfl (by rw [hbits])
    · exact registerWrite_die hb hd (by decide) (by decide) hx v
        (fun y => { y with fbCtl := regBits v.toNat 0 0 ||| regBits v.toNat 12 8 }) rfl (by rw [hbits, hbits])
    · exact registerWrite_die hb hd (by decide) (by decide) hx v
        (fun y => { y with fbRead := BitVec.ofNat 32 v.toNat }) rfl (by rw [BitVec.ofNat_toNat])
    · exact registerWrite_die hb hd (by decide) (by decide) hx v
        (fun y => { y with killVa := regBits v.toNat 56 12 }) rfl (by rw [hbits])
  · rintro hfree hz t c i rfl (⟨hop, rfl⟩ | ⟨hop, rfl⟩ | ⟨hop, hs, rfl⟩) ht
    · exact (registerWrite_suspend hb hfree hz hop).trans ht
    · exact (registerWrite_unload hb hfree hz hop).trans ht
    · exact (registerWrite_resume hb hfree hz hop hs).trans ht
  · exact (registerWrite_ctxOp hb v).trans (by rw [writeCtxOp_busy hbusy])
  · exact (registerWrite_errCtl hb v).trans (by rw [hbits])
  · exact (registerWrite_injAddr hb v).trans (by rw [hbits, hbits])
  · intro a ha
    have hall : ∀ a ∈ [0x200008, 0x200018, 0x200028, 0x200038, 0x310008, 0x310018, 0x320000, 0x330000],
        a % 8 = 0 ∧ lowOnly a = true := by decide
    obtain ⟨halign, hlow⟩ := hall a ha
    exact exec_registerWrite_reserved s a halign hlow v
  · exact (exec_registerWrite_wide hb _ (by omega) v).trans (by rw [writeReg_xevBase s i _ hi]; simp)
  · exact (exec_registerWrite_wide hb _ (by omega) v).trans (by rw [writeReg_xevCtl s i _ hi, hbits])
  · exact (exec_registerWrite_wide hb _ (by omega) v).trans (by rw [writeReg_qtBase s i _ hi, hbits, hbits])

end Sys2Proof.Machine
end

section
/-! PROOF. Accesses that fail their checks: alignment before the window check, and the traps of the near loads and
stores, the own-slice forms, the atomics, the full/empty accesses and `ld.const` (02_memory_spaces.md R52, R53;
07_tvf_memory_sync.md R166, R171). -/

namespace Sys2Proof.Machine

open Sys2Proof Sys2Proof.Safety

/-! ## The checks of R166 -/

/-- Checks in turn that can fail in one way alone fail in that way once one of them fails. -/
theorem mapM_eq_error {α β ε : Type} (f : α → Except ε β) (e : ε) (honly : ∀ a e', f a = .error e' → e' = e)
    (xs : List α) (h : ∃ a, a ∈ xs ∧ f a = .error e) : xs.mapM f = .error e := by
  induction xs with
  | nil => simp at h
  | cons x xs ih =>
    rw [List.mapM_cons]
    cases hx : f x with
    | error e' => rw [honly x e' hx]; rfl
    | ok b =>
      obtain ⟨a, ha, hfa⟩ := h
      have htail : a ∈ xs := by
        rcases List.mem_cons.1 ha with rfl | ha
        · rw [hx] at hfa; cases hfa
        · exact ha
      rw [ih ⟨a, htail, hfa⟩]
      rfl

/-- Alignment is checked of every thread's access before any window (R166). -/
theorem checkNear_misaligned (s : State) (addrs : List (Nat × Nat)) {al : Nat} (n : Nat) (write : Bool)
    (h : ∃ a, a ∈ addrs ∧ a.2 % al ≠ 0) : checkNear s addrs al n write = .error .alignment := by
  obtain ⟨a, ha, hmod⟩ := h
  have hnot : ¬ (addrs.all fun a => a.2 % al == 0) = true := fun hall =>
    hmod (beq_iff_eq.1 (List.all_eq_true.1 hall a ha))
  rw [checkNear, if_neg hnot]

theorem checkNear_outside (s : State) (addrs : List (Nat × Nat)) {al n : Nat} {write : Bool}
    (hal : ∀ a, a ∈ addrs → a.2 % al = 0) (h : ∃ a, a ∈ addrs ∧ groupNear s s.cur a.2 n write = none) :
    checkNear s addrs al n write = .error .window := by
  obtain ⟨a, ha, hnone⟩ := h
  have hall : (addrs.all fun a => a.2 % al == 0) = true := List.all_eq_true.2 fun a ha => beq_iff_eq.2 (hal a ha)
  rw [checkNear, if_pos hall]
  refine mapM_eq_error _ _ (fun a e he => ?_) addrs ⟨a, ha, by rw [hnone]⟩
  split at he
  · cases he
  · exact (Except.error.inj he).symm

/-- The addresses of an instruction's accesses, each with its thread. -/
def threadAddrs (s : State) (uni : Bool) (addr : Nat → Nat) : List (Nat × Nat) :=
  (accessors s uni).map fun t => (t, addr t)

theorem mem_threadAddrs {s : State} {uni : Bool} {addr : Nat → Nat} {a : Nat × Nat} :
    a ∈ threadAddrs s uni addr ↔ ∃ t, t ∈ accessors s uni ∧ (t, addr t) = a := List.mem_map

/-- The instruction traps with whatever its checks answer, from the state in which it was issued. -/
def TrapsOnCheck (i : Instr) (s : State) (uni : Bool) (addr : Nat → Nat) (al n : Nat) (write : Bool) : Prop :=
  ∀ e, checkNear s (threadAddrs s uni addr) al n write = .error e → exec i s = .next (raise s e)

/-- The two ways in which accesses fail R166, and their order. -/
theorem TrapsOnCheck.traps {i : Instr} {s : State} {uni : Bool} {addr : Nat → Nat} {al n : Nat} {write : Bool}
    (h : TrapsOnCheck i s uni addr al n write) :
    ((∃ t, t ∈ accessors s uni ∧ addr t % al ≠ 0) → exec i s = .next (raise s .alignment)) ∧
      ((∀ t, t ∈ accessors s uni → addr t % al = 0) →
        (∃ t, t ∈ accessors s uni ∧ groupNear s s.cur (addr t) n write = none) →
        exec i s = .next (raise s .window)) := by
  refine ⟨fun ⟨t, ht, hmod⟩ => h _ (checkNear_misaligned s _ n write ?_), fun hal ⟨t, ht, hnone⟩ =>
    h _ (checkNear_outside s _ ?_ ?_)⟩
  · exact ⟨_, mem_threadAddrs.2 ⟨t, ht, rfl⟩, hmod⟩
  · intro a ha
    obtain ⟨t, ht, rfl⟩ := mem_threadAddrs.1 ha
    exact hal t ht
  · exact ⟨_, mem_threadAddrs.2 ⟨t, ht, rfl⟩, hnone⟩

/-! ## Own-slice addresses (R53) -/

/-- A near address has 36 bits (R47). -/
theorem groupNear_past (s : State) (g : Group) {a : Nat} (h : 2 ^ 36 ≤ a) (n : Nat) (write : Bool) :
    groupNear s g a n write = none := by
  rw [groupNear, nearCheck, if_pos h]

theorem localOr_inside {s : State} {off : Opd} {t : Nat} (h : opdN s .i32 off t < 2 ^ 22) :
    localOr s off t = localAddr s s.cur (opdN s .i32 off t) := if_pos h

theorem localOr_past {s : State} {off : Opd} {t : Nat} (h : 2 ^ 22 ≤ opdN s .i32 off t) : 2 ^ 36 ≤ localOr s off t := by
  rw [localOr, if_neg (Nat.not_lt.2 h)]
  exact Nat.le_add_right ..

/-- With offsets inside the slice, the accesses of an own-slice form are those at the near addresses they stand for. -/
theorem threadAddrs_local {s : State} {uni : Bool} {off : Opd}
    (h : ∀ t, t ∈ accessors s uni → opdN s .i32 off t < 2 ^ 22) :
    threadAddrs s uni (localOr s off) = threadAddrs s uni fun t => localAddr s s.cur (opdN s .i32 off t) :=
  List.map_congr_left fun t ht => by rw [localOr_inside (h t ht)]

/-- An own-slice form with an offset past the slice, where no alignment is asked for. -/
theorem TrapsOnCheck.past_slice {i : Instr} {s : State} {uni : Bool} {off : Opd} {n : Nat} {write : Bool}
    (h : TrapsOnCheck i s uni (localOr s off) 1 n write)
    (hpast : ∃ t, t ∈ accessors s uni ∧ 2 ^ 22 ≤ opdN s .i32 off t) : exec i s = .next (raise s .window) := by
  obtain ⟨t, ht, hoff⟩ := hpast
  exact h.traps.2 (fun t _ => Nat.mod_one _) ⟨t, ht, groupNear_past s _ (localOr_past hoff) n write⟩

/-! ## What each family of accesses does when its check fails -/

theorem orderAlign_eq (o : Order) (n : Nat) : orderAlign o n = if o = .relaxed then 1 else n := by
  simp only [orderAlign, beq_iff_eq]

section Families

variable {s : State} {e : Trap}

theorem loadWith_error {o : LoadOp} {addr : Nat → Nat}
    (h : checkNear s (threadAddrs s o.uni addr) (if o.order = .relaxed then 1 else
      if o.pair then 2 * o.ty.bytes else o.ty.bytes) (if o.pair then 2 * o.ty.bytes else o.ty.bytes) false = .error e) :
    loadWith o s addr = .next (raise s e) := by
  rw [← orderAlign_eq, threadAddrs] at h
  simp only [loadWith, h]

theorem storeWith_error {o : StoreOp} {addr : Nat → Nat}
    (h : checkNear s (threadAddrs s o.uni addr) (if o.order = .relaxed then 1 else
      if o.v2.isSome then 2 * o.ty.bytes else o.ty.bytes) (if o.v2.isSome then 2 * o.ty.bytes else o.ty.bytes) true =
        .error e) :
    storeWith o s addr = .next (raise s e) := by
  rw [← orderAlign_eq, threadAddrs] at h
  simp only [storeWith, h]

theorem atomicWith_error {uni : Bool} {order : Order} {scope : BitVec 3} {sz k : Nat} {p : Opd} {f : Nat → Nat → Nat}
    {res : Nat → Nat → List Lane} (h : checkNear s (threadAddrs s uni (opdN s .near p)) sz sz true = .error e) :
    atomicWith s uni order scope sz k p f res = .next (raise s e) := by
  rw [threadAddrs] at h
  simp only [atomicWith, h]

theorem feEach_error {uni write : Bool} {k : Nat} {p : Opd} {f : Nat → Nat → State → List Lane × State}
    (h : checkNear s (threadAddrs s uni (opdN s .near p)) 8 8 write = .error e) :
    feEach s uni k p write f = .next (raise s e) := by
  rw [threadAddrs] at h
  simp only [feEach, h]

theorem feBlock_error {uni give : Bool} {order : Order} {scope : BitVec 3} {p : Opd} {data : List Lane} {nres : Nat}
    (h : checkNear s (threadAddrs s uni (opdN s .near p)) 8 8 give = .error e) :
    feBlock s uni give order scope p data nres = .next (raise s e) := by
  rw [threadAddrs] at h
  simp only [feBlock, h]

end Families

/-! ## Each instruction with its checks -/

theorem ldNear_trapsOnCheck (s : State) (o : LoadOp) :
    let n := if o.pair then 2 * o.ty.bytes else o.ty.bytes
    TrapsOnCheck (.ldNear o) s o.uni (opdN s .near o.p) (if o.order = .relaxed then 1 else n) n false :=
  fun _ h => loadWith_error h

theorem ldLocal_trapsOnCheck (s : State) (o : LoadOp) :
    let n := if o.pair then 2 * o.ty.bytes else o.ty.bytes
    TrapsOnCheck (.ldLocal o) s o.uni (localOr s o.p) (if o.order = .relaxed then 1 else n) n false :=
  fun _ h => loadWith_error h

theorem stNear_trapsOnCheck (s : State) (o : StoreOp) :
    let n := if o.v2.isSome then 2 * o.ty.bytes else o.ty.bytes
    TrapsOnCheck (.stNear o) s o.uni (opdN s .near o.p) (if o.order = .relaxed then 1 else n) n true :=
  fun _ h => storeWith_error h

theorem stLocal_trapsOnCheck (s : State) (o : StoreOp) :
    let n := if o.v2.isSome then 2 * o.ty.bytes else o.ty.bytes
    TrapsOnCheck (.stLocal o) s o.uni (localOr s o.p) (if o.order = .relaxed then 1 else n) n true :=
  fun _ h => storeWith_error h

/-- The own-slice forms by the near addresses of their offsets. -/
theorem TrapsOnCheck.own_slice {i : Instr} {s : State} {uni : Bool} {off : Opd} {al n : Nat} {write : Bool}
    (h : TrapsOnCheck i s uni (localOr s off) al n write) (hoff : ∀ t, t ∈ accessors s uni → opdN s .i32 off t < 2 ^ 22) :
    TrapsOnCheck i s uni (fun t => localAddr s s.cur (opdN s .i32 off t)) al n write := by
  intro e he
  exact h e (by rw [threadAddrs_local hoff, he])

/-- The atomics with one datum differ in the new word alone (R173). -/
theorem exec_atomic2 (s : State) (o : MemOp2) (i : Instr) (h : i ∈ [Instr.atomAdd o, .atomMinS o, .atomMinU o,
    .atomMaxS o, .atomMaxU o, .atomAnd o, .atomOr o, .atomXor o, .atomSwap o, .atomFadd o]) :
    ∃ f, exec i s = atomic2 o s f := by
  simp only [List.mem_cons, List.not_mem_nil, or_false] at h
  rcases h with rfl | rfl | rfl | rfl | rfl | rfl | rfl | rfl | rfl | rfl
  · exact ⟨aluAdd, rfl⟩
  · exact ⟨aluMinS, rfl⟩
  · exact ⟨aluMinU, rfl⟩
  · exact ⟨aluMaxS, rfl⟩
  · exact ⟨aluMaxU, rfl⟩
  · exact ⟨aluAnd, rfl⟩
  · exact ⟨aluOr, rfl⟩
  · exact ⟨aluXor, rfl⟩
  · exact ⟨fun _ _ v => v, rfl⟩
  · exact ⟨fun _ old v => fpAdd fmtF32 ⟨.rn, true⟩ old v, rfl⟩

theorem atomic2_trapsOnCheck (s : State) (o : MemOp2) {i : Instr} {f : Nat → Nat → Nat → Nat}
    (hi : exec i s = atomic2 o s f) : TrapsOnCheck i s o.uni (opdN s .near o.p) o.ty.bytes o.ty.bytes true :=
  fun _ h => hi.trans (atomicWith_error h)

theorem atomCas_trapsOnCheck (s : State) (o : CasOp) :
    TrapsOnCheck (.atomCas o) s o.uni (opdN s .near o.p) o.ty.bytes o.ty.bytes true := by
  intro e h
  show execAtomCas o s = _
  rw [execAtomCas, atomicWith_error h]

/-- A take, blocking or not, and a peek read for the window check. -/
theorem feRead_trapsOnCheck (s : State) (o : MemOp1) (i : Instr) (hi : i ∈ [Instr.feLd o, .feTryld o, .fePeek o]) :
    TrapsOnCheck i s o.uni (opdN s .near o.p) 8 8 false := by
  intro e h
  simp only [List.mem_cons, List.not_mem_nil, or_false] at hi
  rcases hi with rfl | rfl | rfl
  · exact feBlock_error h
  · show execFeTryld o s = _
    rw [execFeTryld, feEach_error h]
  · show execFePeek o s = _
    rw [execFePeek, feEach_error h]

theorem feWrite_trapsOnCheck (s : State) (o : MemOp2) (i : Instr) (hi : i ∈ [Instr.feSt o, .feTryst o]) :
    TrapsOnCheck i s o.uni (opdN s .near o.p) 8 8 true := by
  intro e h
  simp only [List.mem_cons, List.not_mem_nil, or_false] at hi
  rcases hi with rfl | rfl
  · exact feBlock_error h
  · show execFeTryst o s = _
    rw [execFeTryst, feEach_error h]

/-- An index at or above the count of a constant (R171). -/
theorem ldConst_traps {s : State} {o : LdConstOp} (h : ∃ t, t ∈ accessors s o.uni ∧
    (constEntry (groupWords s s.cur) o.c.toNat).2.1 / o.ty.bytes ≤ opdN s .i32 o.i t) :
    exec (.ldConst o) s = .next (raise s .constRange) := by
  obtain ⟨t, ht, hle⟩ := h
  have hnot : ¬ ((accessors s o.uni).all fun t => decide
      (opdN s .i32 o.i t < (constEntry (groupWords s s.cur) o.c.toNat).2.1 / o.ty.bytes)) = true := fun hall =>
    Nat.not_lt.2 hle (of_decide_eq_true (List.all_eq_true.1 hall t ht))
  show execLdConst o s = _
  rw [execLdConst]
  exact if_neg hnot

/-- Settles O13: every access goes through the checks of R166, whose first failure it traps with. -/
theorem accessTraps : Obligations.AccessTraps := by
  unfold Obligations.AccessTraps
  intro s _ bad
  refine ⟨fun o => ⟨(ldNear_trapsOnCheck s o).traps, fun hoff => ((ldLocal_trapsOnCheck s o).own_slice hoff).traps,
      fun hr hpast => ?_⟩,
    fun o => ⟨(stNear_trapsOnCheck s o).traps, fun hoff => ((stLocal_trapsOnCheck s o).own_slice hoff).traps,
      fun hr hpast => ?_⟩,
    fun o i hi => ?_, fun o => (atomCas_trapsOnCheck s o).traps,
    fun o i hi => (feRead_trapsOnCheck s o i hi).traps, fun o i hi => (feWrite_trapsOnCheck s o i hi).traps,
    fun o h => ldConst_traps h⟩
  · have hcheck := ldLocal_trapsOnCheck s o
    simp only [hr, if_true] at hcheck
    exact hcheck.past_slice hpast
  · have hcheck := stLocal_trapsOnCheck s o
    simp only [hr, if_true] at hcheck
    exact hcheck.past_slice hpast
  · obtain ⟨f, hf⟩ := exec_atomic2 s o i hi
    exact (atomic2_trapsOnCheck s o hf).traps

end Sys2Proof.Machine
end

section
/-! PROOF. Package reset and boot: what memory keeps, the record of the configuration in force, the slot quotas and the
lifetime record that a boot starts from (02_memory_spaces.md R57; 18 R355; 23 R419; 24 R429, R430). -/

namespace Sys2Proof.Machine

open Sys2Proof Sys2Proof.Safety

/-! ## Memory after a package reset (R57, R429) -/

/-- Cells that are kept or dropped by their key. -/
theorem cellsGet_filter (p : Nat → Bool) (cs : List Host.Cell) (k : Nat) :
    cellsGet (cs.filter fun c => p c.1) k = if p k then cellsGet cs k else unlisted := by
  induction cs with
  | nil => simp [cellsGet]
  | cons c cs ih =>
    obtain ⟨a, b⟩ := c
    by_cases hp : p a = true
    · rw [List.filter_cons_of_pos (p := fun c : Host.Cell => p c.1) hp, cellsGet, ih, cellsGet]
      by_cases hak : a = k
      · subst hak
        rw [if_pos rfl, if_pos rfl, if_pos hp]
      · rw [if_neg hak, if_neg hak]
    · rw [List.filter_cons_of_neg (p := fun c : Host.Cell => p c.1) hp, ih, cellsGet]
      by_cases hak : a = k
      · subst hak
        rw [if_neg hp, if_neg hp]
      · rw [if_neg hak]

/-- A package reset clears the bytes of the package and keeps those outside it. -/
theorem Mem.byte_afterReset (m : Mem) (k : Nat) :
    m.afterReset.byte k = if 24 * 2 ^ 60 ≤ k then m.byte k else 0 := by
  have h := cellsGet_filter (fun k => decide (24 * 2 ^ 60 ≤ k)) m.bytes k
  simp only [decide_eq_true_eq] at h
  exact h

theorem Mem.byte_afterReset_inside (m : Mem) {k : Nat} (h : k < 24 * 2 ^ 60) : m.afterReset.byte k = 0 := by
  rw [Mem.byte_afterReset, if_neg (Nat.not_le.2 h)]

theorem Mem.byte_afterReset_outside (m : Mem) {k : Nat} (h : 24 * 2 ^ 60 ≤ k) : m.afterReset.byte k = m.byte k := by
  rw [Mem.byte_afterReset, if_pos h]

/-! ## Slot quotas (R355) -/

theorem freeQuotas_length (n fns left : Nat) : (freeQuotas n fns left).length = fns := by
  induction fns generalizing left with
  | zero => rfl
  | succ f ih => rw [freeQuotas, List.length_cons, ih]

theorem freeQuotas_sum_le (n fns left : Nat) : (freeQuotas n fns left).sum ≤ left := by
  induction fns generalizing left with
  | zero => exact Nat.zero_le _
  | succ f ih =>
    rw [freeQuotas, List.sum_cons]
    have hq : Config.choice (n + f) % (left + 1) < left + 1 := Nat.mod_lt _ (Nat.succ_pos _)
    have hrest := ih (left - Config.choice (n + f) % (left + 1))
    omega

/-! ## The configuration record in force (R430) -/

/-- The choice between the record held so far and a further one. -/
def newerRecord (best : Option (List Byte)) (b : List Byte) : Option (List Byte) :=
  match best with
  | none => some b
  | some x => if confSeq x < confSeq b then some b else best

/-- A record of lower SEQ, or the same record. -/
def NotNewer (b x : List Byte) : Prop := confSeq x ≤ confSeq b ∧ (confSeq x = confSeq b → x = b)

theorem newerRecord_some (x y : List Byte) :
    newerRecord (some x) y = if confSeq x < confSeq y then some y else some x := rfl

/-- The record of highest SEQ is the one in hand at the end. -/
theorem foldl_newerRecord {b : List Byte} (xs : List (List Byte)) (best : Option (List Byte))
    (hxs : ∀ x, x ∈ xs → NotNewer b x) (hbest : ∀ x, best = some x → NotNewer b x) (hb : best = some b ∨ b ∈ xs) :
    xs.foldl newerRecord best = some b := by
  induction xs generalizing best with
  | nil => exact hb.resolve_right (List.not_mem_nil)
  | cons y ys ih =>
    have hy := hxs y (List.mem_cons_self ..)
    have hys := fun x hx => hxs x (List.mem_cons_of_mem y hx)
    have hmem : b ∈ y :: ys → y = b ∨ b ∈ ys := fun h => (List.mem_cons.1 h).imp Eq.symm id
    rw [List.foldl_cons]
    cases best with
    | none =>
      have hin := hmem (hb.resolve_left nofun)
      exact ih (some y) hys (fun x hx => Option.some.inj hx ▸ hy) (hin.imp (congrArg some) id)
    | some x =>
      have hx := hbest x rfl
      rw [newerRecord_some]
      split
      · next hlt =>
        refine ih (some y) hys (fun z hz => Option.some.inj hz ▸ hy) ?_
        rcases hb with hxb | hin
        · rw [Option.some.inj hxb] at hlt
          exact absurd hy.1 (Nat.not_le.2 hlt)
        · exact (hmem hin).imp (congrArg some) id
      · next hge =>
        refine ih (some x) hys hbest ?_
        rcases hb with hxb | hin
        · exact .inl hxb
        · refine (hmem hin).imp (fun hyb => ?_) id
          rw [hyb] at hge
          exact congrArg some (hx.2 (Nat.le_antisymm hx.1 (Nat.not_lt.1 hge)))

theorem confFrom_eq (banks : List (List Byte)) :
    confFrom banks = (((banks.filter confOk).foldl newerRecord none).map confOf).getD Conf.dflts := by
  show (match (banks.filter confOk).foldl newerRecord none with
    | some b => confOf b
    | none => Conf.dflts) = _
  cases (banks.filter confOk).foldl newerRecord none <;> rfl

/-- Without a valid record the defaults are in force. -/
theorem confFrom_dflts {banks : List (List Byte)} (h : ∀ b, b ∈ banks → confOk b = false) :
    confFrom banks = Conf.dflts := by
  have hnone : banks.filter confOk = [] := List.filter_eq_nil_iff.2 fun b hb => by rw [h b hb]; exact Bool.false_ne_true
  rw [confFrom_eq, hnone]
  rfl

/-- The valid record of highest SEQ is in force. -/
theorem confFrom_newest {banks : List (List Byte)} {b : List Byte} (hb : b ∈ banks) (hok : confOk b = true)
    (hnew : ∀ x, x ∈ banks → confOk x = true → NotNewer b x) : confFrom banks = confOf b := by
  have hfold : (banks.filter confOk).foldl newerRecord none = some b :=
    foldl_newerRecord _ none (fun x hx => hnew x (List.mem_filter.1 hx).1 (List.mem_filter.1 hx).2) nofun
      (.inr (List.mem_filter.2 ⟨hb, hok⟩))
  rw [confFrom_eq, hfold]
  rfl

theorem confOf_teamPool (b : List Byte) {d : Nat} (h : d < 8) :
    (confOf b).teamPool[d]? = some (leNat ((b.drop (12 + 2 * d)).take 2)) := by
  rw [confOf, List.getElem?_map, List.getElem?_range h, Option.map_some]

/-! ## Boot (R429) -/

/-- The lifetime record that a boot starts from: that of the bank last written, if there is one (R419). -/
def heldLife (s : State) : Life := if (lastBank s).isEmpty then s.field.life else lifeOf (lastBank s)

theorem heldLife_of_nil {s : State} (h : lastBank s = []) : heldLife s = s.field.life := by rw [heldLife, h]; rfl

theorem heldLife_of_bank {s : State} (h : lastBank s ≠ []) : heldLife s = lifeOf (lastBank s) := by
  rw [heldLife, if_neg (by rwa [List.isEmpty_iff])]

/-- Field life after a boot: one power cycle more. -/
def bootedField (s : State) : Field :=
  { s.field with life := { heldLife s with cycles := min ((heldLife s).cycles + 1) (2 ^ 32 - 1) } }

theorem bootedField_cycles {s : State} (h : (heldLife s).cycles < 2 ^ 32 - 1) :
    (bootedField s).life.cycles = (heldLife s).cycles + 1 := Nat.min_eq_left h

/-- Both signatures of a firmware image verify. -/
def Signed (fw : FwImage) : Prop :=
  Config.ed25519Ok fw.body fw.sigEd = true ∧ Config.mldsaOk fw.body fw.sigMl = true

theorem boot_unsigned (s : State) {fw : FwImage} (h : ¬ Signed fw) (banks : List (List Byte)) :
    boot s fw banks = { s with field := bootedField s, boot := .recovery } := by
  have hbad : (!(Config.ed25519Ok fw.body fw.sigEd && Config.mldsaOk fw.body fw.sigMl)) = true := by
    rw [Bool.not_eq_true', Bool.eq_false_iff]
    exact fun hand => h (Bool.and_eq_true_iff.1 hand)
  exact if_pos hbad

theorem boot_signed (s : State) {fw : FwImage} (h : Signed fw) (banks : List (List Byte)) :
    boot s fw banks = { s with
      field := bootedField s
      fw := { s.fw with version := fw.version, xlat := fw.xlat, layout := fw.layout,
                        measure := sha384 (s.fw.measure ++ sha384 fw.body) }
      conf := confFrom banks, mem := s.mem.afterReset
      front := { s.front with slotQuota := freeQuotas s.free 17 128 }, free := s.free + 17
      boot := .running } := by
  have hgood : ¬ (!(Config.ed25519Ok fw.body fw.sigEd && Config.mldsaOk fw.body fw.sigMl)) = true := by
    rw [Bool.and_eq_true_iff.2 h]
    exact Bool.false_ne_true
  exact if_neg hgood

/-- A boot counts its power cycle whether or not the firmware verifies. -/
theorem boot_field (s : State) (fw : FwImage) (banks : List (List Byte)) : (boot s fw banks).field = bootedField s := by
  by_cases h : Signed fw
  · rw [boot_signed s h]
  · rw [boot_unsigned s h]

theorem exec_perstDeassert_outside_reset {s : State} (h : s.boot ≠ .inReset) (fw : FwImage) (banks : List (List Byte)) :
    exec (.perstDeassert fw banks) s = .next s := if_neg (by rwa [beq_iff_eq])

theorem exec_perstDeassert_inReset {s : State} (h : s.boot = .inReset) (fw : FwImage) (banks : List (List Byte)) :
    exec (.perstDeassert fw banks) s = .next (boot s fw banks) := if_pos (by rw [h]; rfl)

theorem exec_perstAssert (s : State) : exec .perstAssert s = .next { State.reset with
    steps := s.steps, free := s.free, nextId := s.nextId, mem := s.mem.afterReset, images := s.images,
    field := { State.reset.field with banks := s.field.banks } } := rfl

/-- Settles O53: a reset by what it leaves of memory, a boot by whether the firmware is signed. -/
theorem resetAndBoot : Obligations.ResetAndBoot := by
  unfold Obligations.ResetAndBoot
  intro s
  refine ⟨⟨_, exec_perstAssert s, rfl, rfl, rfl, rfl, rfl, rfl, fun k => s.mem.byte_afterReset_inside,
    fun k => s.mem.byte_afterReset_outside⟩, fun fw banks => ⟨fun h => exec_perstDeassert_outside_reset h fw banks, ?_⟩⟩
  intro hreset good seq
  have hexec := exec_perstDeassert_inReset hreset fw banks
  refine ⟨fun hbad => ⟨_, hexec, ?_⟩, fun hgood => ⟨_, hexec, ?_⟩, ⟨_, hexec, ?_⟩⟩
  · rw [boot_unsigned s hbad]
    exact ⟨rfl, rfl, rfl⟩
  · rw [boot_signed s hgood]
    refine ⟨rfl, rfl, rfl, rfl, rfl, fun k => s.mem.byte_afterReset_inside, freeQuotas_length _ _ _,
      freeQuotas_sum_le _ _ _, fun hnone => confFrom_dflts hnone, fun b hb hok hnew => ?_⟩
    rw [confFrom_newest hb hok hnew]
    exact ⟨rfl, rfl, rfl, fun d => confOf_teamPool b⟩
  · rw [boot_field]
    refine ⟨fun hnil hlt => ?_, fun hbank hlt => ?_⟩
    · rw [← heldLife_of_nil hnil] at hlt ⊢
      exact bootedField_cycles hlt
    · have hheld := heldLife_of_bank hbank
      refine ⟨?_, congrArg Life.poweredS hheld⟩
      rw [bootedField_cycles (by rw [hheld]; exact hlt), hheld]
      rfl

end Sys2Proof.Machine
end
